-- ==== Sys2Proof/Word.lean ====
section
/-! DEFINITION. The word types of the SB2 (R33, R44) and their plainest arithmetic. -/

namespace Sys2Proof

/-- A byte of memory. -/
abbrev Byte := BitVec 8
/-- A halfword: one instruction word (R33), or a sector tag (R144). -/
abbrev Half := BitVec 16
/-- A 64-bit general register, address or doubleword (R44). -/
abbrev Word := BitVec 64
/-- The 512 data bits of a vector register or of one sector (R15, R44). -/
abbrev Sector := BitVec 512

end Sys2Proof
end

