-- ==== Sys2Proof/Config.lean ====
section
/-! DEFINITION. The values the spec leaves open, as constants without a body: nothing can evaluate them or prove a
value of them, so a claim holds whatever they are. Each takes the counter that State draws free values with
(log entry 6). -/

namespace Sys2Proof

/-- A free 64-bit value: the contents of a peer device's memory that a remote load returns (R334; log entry 7). -/
opaque Config.freeWord : Nat → BitVec 64

/-- A free choice between two outcomes that the spec allows: a stale or a fresh halfword (R56), translation (R91) or UO
copy (R122) (log entry 8). -/
opaque Config.freeBool : Nat → Bool

/-- A free number: the cycles a step takes beyond one, and which cached domain a PLB fill replaces (log entry 6). -/
opaque Config.freeNat : Nat → Nat

/-- Whether the activations of a kernel, by queue and KID, have `.keep` regions, which no field that the device reads says (R110, R386; log entry 55). -/
opaque Config.keepsRegion : Nat → BitVec 32 → Bool

end Sys2Proof
end

