-- ==== Sys2Proof/Machine/Maps.lean ====
section
/-! DEFINITION. Maps from numbers to values as sorted lists of pairs, and the bit-field, sign-extension and byte-order
helpers that the decoder, the operations and the meanings share. -/

namespace Sys2Proof

/-- A map from numbers to values: pairs with rising keys; an absent key has the default that the reader names. -/
abbrev AMap (α : Type) := List (Nat × α)

/-- The value at a key, or the default. -/
def mget {α : Type} : AMap α → Nat → α → α
  | [], _, d => d
  | (k', v) :: t, k, d => if k = k' then v else mget t k d

/-- The value at a key, if the map lists the key. -/
def mfind {α : Type} : AMap α → Nat → Option α
  | [], _ => none
  | (k', v) :: t, k => if k = k' then some v else mfind t k

/-- The map with a key's value replaced or inserted in key order. -/
def mset {α : Type} : AMap α → Nat → α → AMap α
  | [], k, v => [(k, v)]
  | (k', v') :: t, k, v =>
    if k < k' then (k, v) :: (k', v') :: t
    else if k = k' then (k, v) :: t
    else (k', v') :: mset t k v

/-- The map without a key. -/
def mdel {α : Type} (m : AMap α) (k : Nat) : AMap α := m.filter (fun p => p.1 ≠ k)

/-- The map with a key's value rewritten by a function, from the default where the key is absent. -/
def mmod {α : Type} (m : AMap α) (k : Nat) (d : α) (f : α → α) : AMap α := mset m k (f (mget m k d))

/-- Keys of a map rise strictly. -/
def mwf {α : Type} : AMap α → Bool
  | [] => true
  | [_] => true
  | (k, _) :: (k', v') :: t => decide (k < k') && mwf ((k', v') :: t)

/-- Bits [hi:lo] of a number. -/
def bitsOf (x hi lo : Nat) : Nat := (x >>> lo) % 2 ^ (hi + 1 - lo)

/-- Bits [hi:lo] of a doubleword, as a number. -/
def fld (x : Word) (hi lo : Nat) : Nat := bitsOf x.toNat hi lo

/-- One bit of a doubleword. -/
def bitAt (x : Word) (k : Nat) : Bool := x.getLsbD k

/-- A doubleword from a number, modulo 2^64. -/
def word (n : Nat) : Word := BitVec.ofNat 64 n

/-- The low `w` bits of a number, read as two's complement. -/
def signedOf (w n : Nat) : Int :=
  let x := n % 2 ^ w
  if 2 ^ (w - 1) ≤ x then (x : Int) - 2 ^ w else x

/-- Sign-extension of the low `w` bits of a number to 64 bits. -/
def sext64 (w n : Nat) : Word := BitVec.ofInt 64 (signedOf w n)

/-- The 56-bit address of a register or record field, sign-extended from bit 55 (R14, R77). -/
def sext56 (x : Word) : Word := sext64 56 x.toNat

/-- Little-endian value of a byte list. -/
def leNat : List Byte → Nat
  | [] => 0
  | b :: t => b.toNat + 256 * leNat t

/-- The `n` low bytes of a number, least significant first. -/
def leBytes : Nat → Nat → List Byte
  | 0, _ => []
  | n + 1, x => BitVec.ofNat 8 x :: leBytes n (x / 256)

/-- The numbers `lo, lo+1, …`, `n` of them. -/
def upFrom (lo : Nat) : Nat → List Nat
  | 0 => []
  | n + 1 => lo :: upFrom (lo + 1) n

/-- The first `n` numbers. -/
def below (n : Nat) : List Nat := upFrom 0 n

/-- Insertion of an element in a list sorted by a strict order, before the elements not below it. -/
def insertBy {α : Type} (lt : α → α → Bool) (x : α) : List α → List α
  | [] => [x]
  | y :: t => if lt y x then y :: insertBy lt x t else x :: y :: t

/-- A list sorted by a strict order, elements of equal rank in their old order. -/
def sortBy {α : Type} (lt : α → α → Bool) (l : List α) : List α := l.foldr (fun x acc => insertBy lt x acc) []

/-- The element that no other precedes under a strict order; the earliest of equals. -/
def bestBy {α : Type} (lt : α → α → Bool) : List α → Option α
  | [] => none
  | x :: t => some (t.foldl (fun b y => if lt y b then y else b) x)

/-- The list without its element number `k`. -/
def dropAt {α : Type} (l : List α) (k : Nat) : List α := l.eraseIdx k

/-- The smallest number below `n` that a list does not hold. -/
def lowestFree (used : List Nat) (n : Nat) : Option Nat := (below n).find? (fun k => !used.contains k)

end Sys2Proof
end

