-- ==== Sys2Proof/Syntax.lean ====
section
/-! DEFINITION. The instructions and the steps of the SB2: one constructor of Instr per row of the opcode table.
The rows with an encoding are the instructions of a core; the rows without one are the steps of the other agents
(engines, scheduler, Millpond, links, supervisor, management, power), each with the unit it acts on. -/

namespace Sys2Proof

/-- Number of a general register g0 to g31 (R44). -/
abbrev GReg := BitVec 5
/-- Number of a vector register v0 to v15 (R44). -/
abbrev VReg := BitVec 4
/-- Number of a tile accumulator t0 to t7 (R44). -/
abbrev TReg := BitVec 3
/-- Number of a ring handle h0 to h7 (R44). -/
abbrev HReg := BitVec 3
/-- Number of a tile semaphore s0 to s15 (R44). -/
abbrev SReg := BitVec 4
/-- Number of a queue condition q0 to q15 (R44). -/
abbrev QReg := BitVec 4

/-- The functions of the CP form: engine 0 the copy engine, engine 1 the tile streamer (R204). -/
inductive CpFn where
  | copy | copyf | copym | gath | scat | fill | wback | inval
  | subs | unsubs | pull | pullf
  deriving DecidableEq, Repr

/-- The descriptor with which the runtime creates a queue (R295, R322). -/
structure QueueDesc where
  ring  : Word
  lslot : Nat
  cring : Word
  lcomp : Nat
  det   : Nat
  place : Nat
  dom   : Nat
  msb   : Word
  lms   : Nat
  deriving DecidableEq, Repr

/-- Atomic operations on memory (R134). -/
inductive AtomOp where
  | add | and | or | xor | min | max | minu | maxu | swp | fadd | cas
  deriving DecidableEq, Repr

/-- What a remote access over Ultra Ethernet asks of this device (R332, R334): a read or a write of bytes, of a sector with its tag, or an atomic with its operands gB
and gD. -/
inductive RemoteOp where
  | read (size : Nat)
  | write (data : List Byte)
  | readSector
  | writeSector (data : Sector) (tag : Half)
  | atomic (op : AtomOp) (b d : Word)
  deriving DecidableEq, Repr

/-- One remote access: its operation, its address and the tenant of its connection (R334). -/
structure RemoteReq where
  op     : RemoteOp
  addr   : Word
  tenant : Nat
  deriving DecidableEq, Repr

/-- Delivery mode asked for by a request to open a connection (R332). -/
inductive UeMode where
  | rod | rud | other
  deriving DecidableEq, Repr

/-- Where a device stands in the Beacon tree, seen from this one (R336). -/
inductive TreeRole where
  | other | parent | child
  deriving DecidableEq, Repr

/-- An entry of the endpoint table (R333): fabric address, ROD and RUD connection, the mode of the entry, port mask, domain, and the place in the Beacon tree. -/
structure Endpoint where
  fabric : Nat
  rod    : Nat
  rud    : Nat
  rodMode : Bool
  ports  : BitVec 12
  domain : Nat
  role   : TreeRole
  deriving DecidableEq, Repr

/-- What a request of the management path names (R114, R317, R331, R333, R358, R359, R371): an offset of the register space, an entry of the endpoint table,
the device's own endpoint number, the power limit in watts, a core's command register CCMD as its supervisor reaches it (R348), or, to read alone, a cluster's count of
discarded messages, a core's TREPC or CMISC, or its count of corrected soft errors. -/
inductive MgmtPlace where
  | register (off : Nat)
  | endpoint (e : Nat)
  | ownNumber
  | powerLimit
  | discarded (cl : Nat)
  | trepc (u : Nat)
  | cmisc (u : Nat)
  | softErrors (u : Nat)
  | ccmd (u : Nat)
  deriving DecidableEq, Repr

/-- What such a request writes: a word, or an entry of the endpoint table (R114, R333). -/
inductive MgmtData where
  | word (v : Word)
  | entry (x : Endpoint)
  deriving DecidableEq, Repr

/-- A Beacon record between devices (R336). -/
structure BeaconRec where
  b         : Word
  q         : Bool
  sent      : Nat
  performed : Nat
  round     : Nat
  epoch     : Nat
  deriving DecidableEq, Repr

/-- A firmware image as the root of trust sees it: version, digest, the digests of the two public keys that come with it, and whether each of its two signatures
verifies under its key (R370). -/
structure FwImage where
  version : Nat
  digest  : BitVec 384
  rsaKey  : BitVec 384
  slhKey  : BitVec 384
  rsaOk   : Bool
  slhOk   : Bool
  deriving DecidableEq, Repr

/-- What bring-up meets in the world outside (R369): the first-stage image, the failed and the repaired lanes of each module, the clusters that
pass the self-test, the default margin steps recorded at manufacture, the reserved memory, the page-table roots and
the supervisor image. -/
structure BringUp where
  image      : FwImage
  lanes      : List (Nat × BitVec 64 × BitVec 64)
  pass       : List Nat
  margins    : List (Nat × Nat)
  frameBase  : Nat
  ctxBase    : Nat
  ctxVa      : Word
  ptroots    : List Word
  supervisor : FwImage
  deriving DecidableEq, Repr

/-- The instructions and steps of the SB2, one constructor per row of spec/opcode_table.json. Immediates and offsets
are the sign-extended 64-bit values of R39; units are named by number. -/
inductive Instr where
  /-- ADD (R63). Writes gA + gB into gD, wrapping modulo 2^64. -/
  | add (d a b : GReg)
  /-- ADD_IMM (R63). Writes gA plus the XI-extended immediate into gD. -/
  | addImm (d a : GReg) (imm : Word)
  /-- SUB (R63). Writes gA − gB into gD, wrapping modulo 2^64. -/
  | sub (d a b : GReg)
  /-- SUB_IMM (R63). Writes gA minus the XI-extended immediate into gD. -/
  | subImm (d a : GReg) (imm : Word)
  /-- MUL (R63). Writes the low 64 bits of gA × gB into gD. -/
  | mul (d a b : GReg)
  /-- MUL_IMM (R63). Writes the low 64 bits of gA times the immediate into gD. -/
  | mulImm (d a : GReg) (imm : Word)
  /-- MULH (R63). Writes the high 64 bits of the signed 128-bit product of gA and gB into gD. -/
  | mulh (d a b : GReg)
  /-- MULH_IMM (R63). Writes the high 64 bits of the signed product of gA and the immediate into gD. -/
  | mulhImm (d a : GReg) (imm : Word)
  /-- DIV (R63). Writes the signed quotient of gA and gB, truncated toward zero, into gD; a zero divisor gives 0. -/
  | div (d a b : GReg)
  /-- DIV_IMM (R63). Writes the signed quotient of gA and the immediate into gD. -/
  | divImm (d a : GReg) (imm : Word)
  /-- DIVU (R63). Writes the unsigned quotient of gA and gB into gD; a zero divisor gives 0. -/
  | divu (d a b : GReg)
  /-- DIVU_IMM (R63). Writes the unsigned quotient of gA and the sign-extended immediate into gD. -/
  | divuImm (d a : GReg) (imm : Word)
  /-- REM (R63). Writes the signed remainder of gA and gB into gD, taking the sign of gA. -/
  | rem (d a b : GReg)
  /-- REM_IMM (R63). Writes the signed remainder of gA and the immediate into gD. -/
  | remImm (d a : GReg) (imm : Word)
  /-- SEL (R63). Writes gA into gD when the old gD is nonzero, and gB otherwise. -/
  | sel (d a b : GReg)
  /-- SEL_IMM (R63). Writes gA into gD when the old gD is nonzero, and the immediate otherwise. -/
  | selImm (d a : GReg) (imm : Word)
  /-- AND (R63). Writes gA AND gB into gD. -/
  | and (d a b : GReg)
  /-- AND_IMM (R63). Writes gA AND the immediate into gD. -/
  | andImm (d a : GReg) (imm : Word)
  /-- OR (R63). Writes gA OR gB into gD. -/
  | or (d a b : GReg)
  /-- OR_IMM (R63). Writes gA OR the immediate into gD. -/
  | orImm (d a : GReg) (imm : Word)
  /-- XOR (R63). Writes gA XOR gB into gD. -/
  | xor (d a b : GReg)
  /-- XOR_IMM (R63). Writes gA XOR the immediate into gD. -/
  | xorImm (d a : GReg) (imm : Word)
  /-- SRA (R63). Writes gA shifted right arithmetically by gB[5:0] into gD. -/
  | sra (d a b : GReg)
  /-- SRA_IMM (R63). Writes gA shifted right arithmetically by the immediate's low 6 bits into gD. -/
  | sraImm (d a : GReg) (imm : Word)
  /-- SHL (R63). Writes gA shifted left by gB[5:0] into gD. -/
  | shl (d a b : GReg)
  /-- SHL_IMM (R63). Writes gA shifted left by the immediate's low 6 bits into gD. -/
  | shlImm (d a : GReg) (imm : Word)
  /-- SHR (R63). Writes gA shifted right logically by gB[5:0] into gD. -/
  | shr (d a b : GReg)
  /-- SHR_IMM (R63). Writes gA shifted right logically by the immediate's low 6 bits into gD. -/
  | shrImm (d a : GReg) (imm : Word)
  /-- MIN (R63). Writes the signed minimum of gA and gB into gD. -/
  | min (d a b : GReg)
  /-- MIN_IMM (R63). Writes the signed minimum of gA and the immediate into gD. -/
  | minImm (d a : GReg) (imm : Word)
  /-- MAX (R63). Writes the signed maximum of gA and gB into gD. -/
  | max (d a b : GReg)
  /-- MAX_IMM (R63). Writes the signed maximum of gA and the immediate into gD. -/
  | maxImm (d a : GReg) (imm : Word)
  /-- SLT (R63). Writes 1 into gD when gA is below gB as signed numbers, and 0 otherwise. -/
  | slt (d a b : GReg)
  /-- SLT_IMM (R63). Writes 1 into gD when gA is below the immediate as signed numbers, and 0 otherwise. -/
  | sltImm (d a : GReg) (imm : Word)
  /-- SLTU (R63). Writes 1 into gD when gA is below gB as unsigned numbers, and 0 otherwise. -/
  | sltu (d a b : GReg)
  /-- SLTU_IMM (R63). Writes 1 into gD when gA is below the immediate as unsigned numbers, and 0 otherwise. -/
  | sltuImm (d a : GReg) (imm : Word)
  /-- CLZ (R65). Writes the count of leading zero bits of gA into gD. -/
  | clz (d a : GReg)
  /-- POPC (R65). Writes the count of set bits of gA into gD. -/
  | popc (d a : GReg)
  /-- MOV (R65). Copies gA into gD. -/
  | mov (d a : GReg)
  /-- JR (R75). Writes the link address into gD and jumps to the address in gA; an odd target raises ALIGN. -/
  | jr (d a : GReg)
  /-- LI (R66). Loads the sign-extended immediate into gD. -/
  | li (d : GReg) (imm : Word)
  /-- ADDPC (R66). Writes the instruction address plus twice the offset into gD. -/
  | addpc (d : GReg) (imm : Word)
  /-- BEQ (R68). Branches when gA equals gB. -/
  | beq (a b : GReg) (off : Word)
  /-- BNE (R68). Branches when gA differs from gB. -/
  | bne (a b : GReg) (off : Word)
  /-- BLT (R68). Branches when gA is below gB as signed numbers. -/
  | blt (a b : GReg) (off : Word)
  /-- BGE (R68). Branches when gA is at least gB as signed numbers. -/
  | bge (a b : GReg) (off : Word)
  /-- BLTU (R68). Branches when gA is below gB as unsigned numbers. -/
  | bltu (a b : GReg) (off : Word)
  /-- BGEU (R68). Branches when gA is at least gB as unsigned numbers. -/
  | bgeu (a b : GReg) (off : Word)
  /-- BQS (R69). Branches when the sampled queue condition qN is 1. -/
  | bqs (q : QReg) (off : Word)
  /-- BQC (R69). Branches when the sampled queue condition qN is 0. -/
  | bqc (q : QReg) (off : Word)
  /-- J (R74). Jumps to the instruction address plus twice the offset. -/
  | j (off : Word)
  /-- JAL (R74). Writes the return address into g1 and jumps by the offset. -/
  | jal (off : Word)
  /-- REP (R78). Sets up a repeat loop of gA iterations over the next n instructions. -/
  | rep (a : GReg) (n : BitVec 7)
  /-- LD_B (R99). Loads a sign-extended byte into gD. -/
  | ldB (d a : GReg) (off : Word)
  /-- LD_H (R99). Loads a sign-extended halfword into gD. -/
  | ldH (d a : GReg) (off : Word)
  /-- LD_W (R99). Loads a sign-extended word into gD. -/
  | ldW (d a : GReg) (off : Word)
  /-- LD_D (R99). Loads a doubleword into gD. -/
  | ldD (d a : GReg) (off : Word)
  /-- LDU_B (R99). Loads a zero-extended byte into gD. -/
  | lduB (d a : GReg) (off : Word)
  /-- LDU_H (R99). Loads a zero-extended halfword into gD. -/
  | lduH (d a : GReg) (off : Word)
  /-- LDU_W (R99). Loads a zero-extended word into gD. -/
  | lduW (d a : GReg) (off : Word)
  /-- ST_B (R99). Stores the low byte of gD. -/
  | stB (d a : GReg) (off : Word)
  /-- ST_H (R99). Stores the low halfword of gD. -/
  | stH (d a : GReg) (off : Word)
  /-- ST_W (R99). Stores the low word of gD. -/
  | stW (d a : GReg) (off : Word)
  /-- ST_D (R99). Stores the doubleword gD. -/
  | stD (d a : GReg) (off : Word)
  /-- LDV (R102). Loads a 64-byte sector and its tag into vD. -/
  | ldv (d : VReg) (a : GReg) (off : Word)
  /-- STV (R102). Stores vD to a sector and writes its tag to a typed sector. -/
  | stv (d : VReg) (a : GReg) (off : Word)
  /-- LDVX (R107). Expands one register's worth of a packed run into vD and advances the cursor. -/
  | ldvx (d : VReg) (a : GReg)
  /-- STVP (R106). Appends the elements of vB to a packed run and advances the cursor, trapping PACK_OVERRUN when capacity runs out. -/
  | stvp (a : GReg) (b : VReg)
  /-- LDF (R108). Reads a future word at its home slice, deferring while it is empty. -/
  | ldf (d a : GReg) (off : Word)
  /-- STF (R108). Writes a future word with release and answers every deferred LDF on it. -/
  | stf (d a : GReg) (off : Word)
  /-- FENCE (R124). Performs the core's earlier accesses at the named scope before any later access. -/
  | fence (scope : BitVec 3)
  /-- LDA (R126). Loads a doubleword with acquire at system scope. -/
  | lda (d a : GReg) (off : Word)
  /-- STL (R126). Stores a doubleword with release at system scope. -/
  | stl (d a : GReg) (off : Word)
  /-- AADD (R134). Atomically adds gB to the word at gA and returns the old value. -/
  | aadd (d a b : GReg)
  /-- AAND (R134). Atomically ANDs gB into the word at gA and returns the old value. -/
  | aand (d a b : GReg)
  /-- AOR (R134). Atomically ORs gB into the word at gA and returns the old value. -/
  | aor (d a b : GReg)
  /-- AXOR (R134). Atomically XORs gB into the word at gA and returns the old value. -/
  | axor (d a b : GReg)
  /-- AMIN (R134). Atomically stores the signed minimum of the word and gB and returns the old value. -/
  | amin (d a b : GReg)
  /-- AMAX (R134). Atomically stores the signed maximum of the word and gB and returns the old value. -/
  | amax (d a b : GReg)
  /-- AMINU (R134). Atomically stores the unsigned minimum of the word and gB and returns the old value. -/
  | aminu (d a b : GReg)
  /-- AMAXU (R134). Atomically stores the unsigned maximum of the word and gB and returns the old value. -/
  | amaxu (d a b : GReg)
  /-- ASWP (R134). Atomically swaps gB into the word at gA and returns the old value. -/
  | aswp (d a b : GReg)
  /-- AFADD (R137). Atomically adds a binary32 value to the word at gA with one rounding and returns the old value. -/
  | afadd (d a b : GReg)
  /-- ACAS (R134). Atomically writes gB when the word equals gD and returns the old value. -/
  | acas (d a b : GReg)
  /-- WAITA (R141). Sleeps until the local scratchpad word at gA equals gB, then acquires it. -/
  | waita (d a b : GReg)
  /-- VWID (R156). Widens 16 elements of a numeric register to F32. -/
  | vwid (d a : VReg) (part : BitVec 4)
  /-- VNB16 (R157). Narrows 16 F32 lanes to B16 with overflow to infinity. -/
  | vnb16 (d a : VReg) (part : BitVec 4)
  /-- VNH16_S (R157). Narrows 16 F32 lanes to H16 with saturation. -/
  | vnh16S (d a : VReg) (part : BitVec 4)
  /-- VNH16_X (R157). Narrows 16 F32 lanes to H16 with overflow to infinity. -/
  | vnh16X (d a : VReg) (part : BitVec 4)
  /-- VN8_S (R157). Narrows 16 F32 lanes to N8 with saturation. -/
  | vn8S (d a : VReg) (part : BitVec 4)
  /-- VN8_X (R157). Narrows 16 F32 lanes to N8S with overflow to the NaN code. -/
  | vn8X (d a : VReg) (part : BitVec 4)
  /-- VN8W_S (R157). Narrows 16 F32 lanes to N8W with saturation. -/
  | vn8wS (d a : VReg) (part : BitVec 4)
  /-- VN4_S (R157). Narrows 16 F32 lanes to N4 with saturation. -/
  | vn4S (d a : VReg) (part : BitVec 4)
  /-- VNI8_S (R157). Narrows 16 F32 lanes to I8 with saturation. -/
  | vni8S (d a : VReg) (part : BitVec 4)
  /-- VFI32 (R159). Converts F32 lanes to saturated signed 32-bit integers. -/
  | vfi32 (d a : VReg)
  /-- VIF32 (R159). Converts signed 32-bit integer lanes to F32. -/
  | vif32 (d a : VReg)
  /-- VSCL (R160). Copies vA and adds gB to the tag's scale. -/
  | vscl (d a : VReg) (b : GReg)
  /-- VTAG (R160). Copies vA and replaces its tag with gB[15:0]. -/
  | vtag (d a : VReg) (b : GReg)
  /-- VGTAG (R160). Writes the tag of vA into gD. -/
  | vgtag (d : GReg) (a : VReg)
  /-- VPACKZ (R161). Compacts the nonzero masked elements of vA into vD. -/
  | vpackz (d a : VReg) (b : GReg)
  /-- VEXPZ (R161). Expands the elements of vA into the masked positions of vD. -/
  | vexpz (d a : VReg) (b : GReg)
  /-- VFADD (R171). Adds F32 lanes with one rounding each. -/
  | vfadd (d a b : VReg)
  /-- VFSUB (R171). Subtracts F32 lanes with one rounding each. -/
  | vfsub (d a b : VReg)
  /-- VFMUL (R171). Multiplies F32 lanes with one rounding each. -/
  | vfmul (d a b : VReg)
  /-- VFMA (R171). Fused multiply-add of F32 lanes into vD with one rounding. -/
  | vfma (d a b : VReg)
  /-- VFMAT (R173). Fused multiply-add that traps precisely on invalid or overflowing lanes. -/
  | vfmat (d a b : VReg)
  /-- VFRED (R175). Sums the 16 F32 lanes of vA through the fixed four-level tree into lane 0. -/
  | vfred (d a : VReg)
  /-- VFMIN (R171). Writes the lesser F32 value of each lane pair. -/
  | vfmin (d a b : VReg)
  /-- VFMAX (R171). Writes the greater F32 value of each lane pair. -/
  | vfmax (d a b : VReg)
  /-- VFCMP (R172). Writes the relation code of each F32 lane pair. -/
  | vfcmp (d a b : VReg)
  /-- VCMPB (R178). Tests each byte of vA against the byte class in vB. -/
  | vcmpb (d a b : VReg)
  /-- VADD (R176). Adds integer lanes modulo the lane width. -/
  | vadd (d a b : VReg)
  /-- VMUL (R176). Multiplies integer lanes modulo the lane width. -/
  | vmul (d a b : VReg)
  /-- VAND (R177). ANDs all 512 bits. -/
  | vand (d a b : VReg)
  /-- VOR (R177). ORs all 512 bits. -/
  | vor (d a b : VReg)
  /-- VXOR (R177). XORs all 512 bits. -/
  | vxor (d a b : VReg)
  /-- VSH (R176). Shifts or rotates each integer lane under its control byte. -/
  | vsh (d a b : VReg)
  /-- VMINU (R176). Writes the unsigned minimum of each integer lane pair. -/
  | vminu (d a b : VReg)
  /-- VMAXU (R176). Writes the unsigned maximum of each integer lane pair. -/
  | vmaxu (d a b : VReg)
  /-- VFIND (R179). Writes into gD the mask of elements where vA and vB differ. -/
  | vfind (d : GReg) (a b : VReg)
  /-- VHASH (R181). Chains the device hash KH over the eight doublewords of vA into gD. -/
  | vhash (d : GReg) (a : VReg)
  /-- VNFA (R182). Advances eight shift-and automata by one byte using a scratchpad table. -/
  | vnfa (d a : VReg) (b : GReg)
  /-- VPERM (R184). Selects bytes of vA under the index bytes of vB. -/
  | vperm (d a b : VReg)
  /-- VBCAST (R185). Replicates the low bits of gA across vD and sets its tag. -/
  | vbcast (d : VReg) (a : GReg) (width : BitVec 4)
  /-- VEXT (R186). Extracts a 32-bit lane of vA into gD. -/
  | vext (d : GReg) (a : VReg) (lane : BitVec 4)
  /-- CP (R205). Sends a 64-byte descriptor command to a copy engine or tile streamer, waiting for the reply when Y = 1. -/
  | cp (fn : CpFn) (y : Bool) (d a b : GReg)
  /-- ENGINE_REPLY (R205). Arrival of a Y = 1 command's reply through the pop buffer lets the CP retire and acquires the command's writes. -/
  | engineReply (u : Nat)
  /-- COPY (R208). Copy engine copies LEN bytes from SRC to DST in ascending sectors. -/
  | copy (eng : Nat)
  /-- COPYF (R208). Copy engine copies, then writes the flag value after the payload is performed at package scope. -/
  | copyf (eng : Nat)
  /-- COPYM (R209). Copy engine copies, then issues the follow-on matrix word to the issuing core's matrix unit. -/
  | copym (eng : Nat)
  /-- GATH (R208). Copy engine gathers COUNT elements through an index table. -/
  | gath (eng : Nat)
  /-- SCAT (R208). Copy engine scatters COUNT elements through an index table. -/
  | scat (eng : Nat)
  /-- FILL (R208). Copy engine writes a repeated 8-byte pattern over LEN bytes. -/
  | fill (eng : Nat)
  /-- WBACK (R208). Copy engine writes back every dirty sector of the range from all caches of the package. -/
  | wback (eng : Nat)
  /-- INVAL (R208). Copy engine writes back and invalidates every cached copy of the range. -/
  | inval (eng : Nat)
  /-- SUBS (R210). Tile streamer creates a subscription or adds a ring to one. -/
  | subs (str : Nat)
  /-- UNSUBS (R211). Tile streamer waits for queued pulls and releases the subscription's rings. -/
  | unsubs (str : Nat)
  /-- PULL (R211). Tile streamer pulls COUNT elements into every subscribed ring. -/
  | pull (str : Nat)
  /-- PULLF (R211). Tile streamer pulls COUNT elements and then writes a flag. -/
  | pullf (str : Nat)
  /-- STREAMER_ELEMENT_WRITE (R211). When every ring of a subscription has a free slot, the streamer reads one element, writes it to each ring and advances each TAIL. -/
  | streamerElementWrite (str sub : Nat)
  /-- COPYM_FOLLOW_ON_ENTER (R209). A waiting COPYM follow-on binds the head element when its ring holds one and enters the matrix queue. -/
  | copymFollowOnEnter (tile k : Nat)
  /-- RBIND (R196). Binds handle hD to a ring descriptor or the drain ring, entering it in the ring table. -/
  | rbind (d : HReg) (a b : GReg)
  /-- RSLOT (R197). Returns a slot address relative to HEAD or TAIL without waiting. -/
  | rslot (d : GReg) (a : HReg) (b : GReg)
  /-- RWAIT (R198). Waits until the ring holds at least gB elements and returns the fill. -/
  | rwait (d : GReg) (a : HReg) (b : GReg)
  /-- RWAITF (R198). Waits until the ring has at least gB free slots and returns the free count. -/
  | rwaitf (d : GReg) (a : HReg) (b : GReg)
  /-- RING_WAIT_WAKE (R198). A change of HEAD or TAIL wakes a parked RWAIT or RWAITF to test again. -/
  | ringWaitWake (u : Nat)
  /-- RADVH (R199). Removes gB elements by advancing HEAD. -/
  | radvh (a : HReg) (b : GReg)
  /-- RADVT (R199). Adds gB elements by advancing TAIL, pushing them to consumers. -/
  | radvt (a : HReg) (b : GReg)
  /-- SPOST (R202). Adds gA to a tile semaphore with release at tile scope. -/
  | spost (d : SReg) (a : GReg)
  /-- SWAIT (R202). Queues for a tile semaphore and decrements it by gA when at the head and enough remains. -/
  | swait (d : SReg) (a : GReg)
  /-- SEMAPHORE_GRANT (R202). A queued SWAIT at the head of its semaphore's queue finds enough and decrements it. -/
  | semaphoreGrant (tile sem : Nat)
  /-- STRYW (R202). Returns a semaphore's value and decrements it when enough remains and no SWAIT waits. -/
  | stryw (d : GReg) (a : SReg) (b : GReg)
  /-- MLDB (R232). Loads the bound ring element into resident slots or an accumulator. -/
  | mldb (b : HReg) (a : GReg)
  /-- MLDB_L (R223). Loads a B16 element as a laddered block with N8 and N4 rungs and counts. -/
  | mldbL (b : HReg) (a : GReg)
  /-- MSEL (R233). Sets the selector of accumulator tD to a resident slot. -/
  | msel (d : TReg) (slot : BitVec 7)
  /-- MZ (R234). Gives tD a fresh zeroed physical accumulator. -/
  | mz (d : TReg)
  /-- MACC (R234). Adds accumulator tA into tD with one rounding per element. -/
  | macc (d a : TReg)
  /-- MMA_N4 (R235). Performs one matrix step at the N4 rung. -/
  | mmaN4 (d : TReg) (a : HReg)
  /-- MMA_N8 (R235). Performs one matrix step at the N8 rung. -/
  | mmaN8 (d : TReg) (a : HReg)
  /-- MMA_W16 (R235). Performs one matrix step at the W16 rung. -/
  | mmaW16 (d : TReg) (a : HReg)
  /-- MMA_L (R225). Performs one laddered matrix step, widening the rung while monitors exceed budgets. -/
  | mmaL (d : TReg) (a : HReg)
  /-- MDRN (R236). Copies accumulator tA into the tile's drain ring. -/
  | mdrn (a : TReg)
  /-- EOUT_N8 (R236). Hands the oldest unclaimed drain element to the epilogue for N8 output. -/
  | eoutN8 (d : HReg) (a b : GReg)
  /-- EOUT_F32 (R236). Hands the oldest unclaimed drain element to the epilogue for F32 output. -/
  | eoutF32 (d : HReg) (a b : GReg)
  /-- EOUT_B16 (R236). Hands the oldest unclaimed drain element to the epilogue for B16 output. -/
  | eoutB16 (d : HReg) (a b : GReg)
  /-- MATRIX_RING_BIND (R228). A matrix instruction parked at retirement on an empty ring binds the head element when one arrives. -/
  | matrixRingBind (u : Nat)
  /-- MATRIX_COMMAND_EXECUTE (R227). The matrix unit takes the next command of its 16-entry queue and performs it. -/
  | matrixCommandExecute (tile : Nat)
  /-- EPILOGUE_OUTPUT (R236). The epilogue engine converts a claimed drain element and writes it into a free slot of the output ring. -/
  | epilogueOutput (tile : Nat)
  /-- TILE_SAVE (R239). When the unit's queue is empty and claimed drain elements are written, c0 writes the tile save image. -/
  | tileSave (tile : Nat)
  /-- TILE_SAVE_REFUSED (R239). A tile save wait exceeding 2^20 cycles refuses the pre-emption and reports PREEMPT. -/
  | tileSaveRefused (tile : Nat)
  /-- TILE_RELOAD (R239). On gang resumption c0 reloads the tile save image before any member runs. -/
  | tileReload (tile : Nat)
  /-- MONB_WRITE (R218). CSRW to MONB sets the monitor budgets for later matrix instructions of the writing core. -/
  | monbWrite (tile : Nat)
  /-- CNCD_WRITE (R218). CSRW to CNCD sets the cancellation distance for later matrix instructions. -/
  | cncdWrite (tile : Nat)
  /-- MREPL_WRITE (R218). CSRW to MREPL sets the replay count. -/
  | mreplWrite (u : Nat) (v : Word)
  /-- EVDECL (R275). Declares store S from a 64-byte declaration on every slice. -/
  | evdecl (st : BitVec 3) (a : GReg)
  /-- EVDROP (R276). Waits for store S to go quiet, then discards its entries and records and removes it. -/
  | evdrop (st : BitVec 3) (a : GReg)
  /-- EVUPD (R277). Sends a keyed update to its home, or into the outbox inside an activation. -/
  | evupd (st : BitVec 3) (a b : GReg)
  /-- EVUPDT (R277). Sends a keyed update and waits for its home's reply, trapping when the segment is full. -/
  | evupdt (st : BitVec 3) (a b : GReg)
  /-- EVFAN (R278). Sends a fan-out source to every cluster that holds its synapses. -/
  | evfan (st : BitVec 3) (a b : GReg)
  /-- EVPEEK (R279). Returns the pending value of a key at its home without changing it. -/
  | evpeek (d a : GReg) (st : BitVec 3)
  /-- EVSTAT (R280). Reads quiescence, the Beacon bound or a store's status. -/
  | evstat (d : GReg) (sel : BitVec 7)
  /-- EVDONE (R281). Ends an activation, releasing its outbox and its earlier stores. -/
  | evdone
  /-- VTSET (R282). Raises VT to gA if gA is larger. -/
  | vtset (a : GReg)
  /-- VTGET (R282). Writes VT into gD. -/
  | vtget (d : GReg)
  /-- VTLOW (R282). Writes the last published Beacon bound into gD. -/
  | vtlow (d : GReg)
  /-- UPDATE_ARRIVAL (R251). An update reaching its home slice is folded or inserted at D0, or parked at D1 and above. -/
  | updateArrival (k : Nat)
  /-- FANOUT_SOURCE_ARRIVAL (R263). A receiving fan-out engine finds the source's synapse list and forms an update for each nonzero weight. -/
  | fanoutSourceArrival (cl k : Nat)
  /-- SLUICE_SEAL (R253). The Sluice seals an eligible entry when a TCB-cache entry is free, creating an activation. -/
  | sluiceSeal (cl : Nat)
  /-- REFILL (R257). A store below half capacity reads overflow records back and folds them. -/
  | refill (cl slot : Nat)
  /-- WINDOW_PHASE (R271). When window k closes at a slice, it folds parked updates in order tag order, refills and seals. -/
  | windowPhase (cl slot : Nat)
  /-- ACTIVATION_START (R259). A sealed entry or active message starts as an activation with key, value, store and priority in registers. -/
  | activationStart (u : Nat)
  /-- BEACON_PUBLICATION (R266). The Beacon tree publishes the bound B and quiescence Q to every core and slice. -/
  | beaconPublication
  /-- SLICE_ERROR (R283). An uncorrectable error in a slice or a POISON record read ends every kernel with a store there with POISON. -/
  | sliceError (cl : Nat)
  /-- SPAWN (R308). Admits a task from a TCB, updating its join block and returning the ordinal. -/
  | spawn (d a : GReg)
  /-- JOIN (R308). Decrements the join block's count, continuing if last and ending the task otherwise. -/
  | join (a : GReg)
  /-- FORK (R308). Creates a child task at the target with a new path and ordinal. -/
  | fork (off : Word)
  /-- EXIT (R312). Ends the task, setting its SET bits and freeing its core. -/
  | exit
  /-- YIELD (R312). Stows the task to the tail of its level when other ready work exists. -/
  | yield
  /-- GBAR (R312). Waits at a barrier over the gang. -/
  | gbar
  /-- GBAR_COMPLETE (R312). The last member's arrival completes the gang barrier and releases the waiters. -/
  | gbarComplete (u : Nat)
  /-- EBSET (R301). Sets a range of cluster event bits with release. -/
  | ebset (a : GReg)
  /-- EBCLR (R301). Clears a range of cluster event bits. -/
  | ebclr (a : GReg)
  /-- EBWAIT (R301). Waits until a range of event bits is set, optionally consuming it. -/
  | ebwait (a : GReg)
  /-- TPATH (R313). Writes the task's current fork path into gD. -/
  | tpath (d : GReg)
  /-- GID (R313). Writes an identity value chosen by the selector into gD. -/
  | gid (d : GReg) (sel : BitVec 7)
  /-- EVENT_BIT_CYCLE (R304). Each cycle the scheduler applies arrived event-bit changes, tests waiters and grants consumers in order. -/
  | eventBitCycle (cl : Nat)
  /-- TASK_PLACE (R305). A free core takes its own deque entry, the head of the highest ready level, or steals, and starts the task. -/
  | taskPlace (u : Nat)
  /-- TASK_AGING (R305). A ready task waiting 2^20 cycles at its level moves up one level. -/
  | taskAging (cl idx : Nat)
  /-- GANG_RESERVE (R306). A gang at the head of its level reserves its cores, pre-empting lower-level work. -/
  | gangReserve (cl : Nat)
  /-- GANG_START (R306). A reserved gang starts when all its cores are free. -/
  | gangStart (cl : Nat)
  /-- DEPTH_PUBLICATION (R310). Every 4,096 cycles a cluster publishes its ready depth and ships tasks to a less loaded neighbour. -/
  | depthPublication (cl : Nat)
  /-- FORWARDING_EXPIRY (R310). A forwarding entry for a shipped task expires after 65,536 cycles. -/
  | forwardingExpiry (cl : Nat)
  /-- SEND (R326). Sends a 64-byte message to a core's inbox or as an active message to a cluster. -/
  | send (a : GReg) (b : VReg)
  /-- SENDP (R326). Appends a message to a port's send side. -/
  | sendp (port : BitVec 2) (b : VReg)
  /-- RECV (R327). Takes the oldest message from the inbox, parking while it is empty. -/
  | recv (d : VReg)
  /-- RECVP (R327). Takes the oldest message from a port's receive side, parking while it is empty. -/
  | recvp (d : VReg) (port : BitVec 2)
  /-- MESSAGE_DELIVERY (R317). An arriving core message is delivered to its claimant's inbox, context buffer or the cluster's buffer. -/
  | messageDelivery (k : Nat)
  /-- PORT_TRANSFER (R324). The fabric moves a port message from a send side to the opposite receive side when a slot is free. -/
  | portTransfer (u : Nat) (port : BitVec 2)
  /-- TRAP (R363). Writes a SOFT or runtime-hook trap record and parks. -/
  | trap (cause : BitVec 7)
  /-- CSRR (R364). Reads a CSR into gD. -/
  | csrr (d : GReg) (csr : BitVec 7)
  /-- CSRW (R364). Writes a CSR from gD. -/
  | csrw (csr : BitVec 7) (d : GReg)
  /-- STOW (R366). Writes a 1,536-byte checkpoint of the task and continues. -/
  | stow (a : GReg)
  /-- HALT (R367). Stops the task, writes a SOFT record with SUB 1 and parks. -/
  | halt
  /-- BANKCFG_WRITE (R95). CSRW to BANKCFG requests mode switches of the cluster's SRAM banks. -/
  | bankcfgWrite (u : Nat) (v : Word)
  /-- BANKCFG_SWITCH_DONE (R96). Banks finish switching mode after write-back, and the BANKCFG write retires. -/
  | bankcfgSwitchDone (cl : Nat)
  /-- WDT_WRITE (R352). CSRW to WDT sets the watchdog exponent and resets the count. -/
  | wdtWrite (u : Nat) (v : Word)
  /-- SNAPT_WRITE (R361). CSRW to SNAPT sets the tag and launches a snapshot trigger. -/
  | snaptWrite (u : Nat) (v : Word)
  /-- SNAPSHOT_LATCH (R361). 64 cycles after the trigger, every block's snapshot registers latch, unless PEND is set. -/
  | snapshotLatch
  /-- SNAPSHOT_READ (R361). A management read of the snapshot clears PEND. -/
  | snapshotRead
  /-- REGISTER_WRITE (R114). A write to a register with no row of its own updates its fields or returns an error. -/
  | registerWrite (off : Nat) (v : Word)
  /-- MANAGEMENT_REQUEST (R114). A management path request reads or writes one register, answered in order, unlisted offsets returning errors. -/
  | managementRequest (place : MgmtPlace) (write : Option MgmtData)
  /-- TCFLUSH_WRITE (R114). A write of 1 to TCFLUSH starts a flush of the die's translation caches. -/
  | tcflushWrite (die : Nat) (v : Word)
  /-- TCFLUSH_COMPLETE (R114). The translation-cache flush completes and TCFLUSH reads 0. -/
  | tcflushComplete (die : Nat)
  /-- MGN_WRITE (R355). A management write to MGN sets a core's margin step or clears PIN. -/
  | mgnWrite (u : Nat) (v : Word)
  /-- LCTL_RETRAIN_REQUEST (R331). Setting LCTL[0] requests a link retrain. -/
  | lctlRetrainRequest (m : Nat)
  /-- LCTL_FORCE_X32 (R331). Setting LCTL[1] makes every later retrain take x32 without starting one. -/
  | lctlForceX32 (m : Nat) (on : Bool)
  /-- QUEUE_CREATE (R295). The runtime creates a queue with its descriptor and notify page through the management path. -/
  | queueCreate (q : Nat) (desc : QueueDesc)
  /-- NOTIFY_TAIL_WRITE (R295). A write of TAIL to a notify page admits the TCBs between HEAD and the new tail. -/
  | notifyTailWrite (q : Nat) (v : Word)
  /-- NOTIFY_ERR_READ (R295). A read of ERR returns the queue's error bits and clears them. -/
  | notifyErrRead (q : Nat)
  /-- CREAD_WRITE (R300). A write of CREAD sets the completion read index and retries a waiting record. -/
  | creadWrite (q : Nat) (v : Word)
  /-- SCHEDULE_STEP_WRITE (R113). A write of STEP advances the die's residency step, refusing a lower value. -/
  | scheduleStepWrite (die : Nat) (v : Word)
  /-- SCHEDULE_TAIL_WRITE (R113). A write of TAIL publishes residency ring entries, refusing an invalid tail. -/
  | scheduleTailWrite (die : Nat) (v : Word)
  /-- SCHEDULE_ERR_READ (R113). A read of the schedule ERR register returns and clears its bits. -/
  | scheduleErrRead (die : Nat)
  /-- RESIDENCY_ENTRY_PERFORM (R112). The die performs a residency entry whose step is due: evict, make resident, pin or unpin. -/
  | residencyEntryPerform (die : Nat)
  /-- FRAME_WAIT_TIMEOUT (R112). A fault waiting 2^20 cycles for a free frame goes to the supervisor as PAGE_FAULT. -/
  | frameWaitTimeout (u : Nat)
  /-- TCB_ADMISSION (R291). A cluster scheduler checks an admitted TCB and enters it in its cache or backlog, or refuses it. -/
  | tcbAdmission (q : Nat)
  /-- KERNEL_COMPLETE (R294). A kernel whose members have ended and whose stores are quiet completes and its stores are dropped. -/
  | kernelComplete (q : Nat)
  /-- COMPLETION_RECORD_WRITE (R300). The device writes a 32-byte completion record when the ring has room and the write succeeds. -/
  | completionRecordWrite (q : Nat)
  /-- CONTEXT_SHIP (R110). A PAGE_FAULT ships the task's context to the least-loaded cluster of the home die. -/
  | contextShip (u : Nat)
  /-- REGENERATION_COMPLETE (R111). When the regeneration kernel completes, the die walks again and releases or faults the waiting accesses. -/
  | regenerationComplete (die k : Nat)
  /-- REQUEST_REPLY (R26). A reply to an outstanding request arrives through the pop buffer and lets the instruction retire. -/
  | requestReply (u : Nat)
  /-- STORE_BUFFER_DRAIN (R101). A retired store leaves the store buffer and is performed in memory. -/
  | storeBufferDrain (u k : Nat)
  /-- ATOMIC_PERFORM (R138). An atomic request arriving at its home is performed exactly once and its old value returned. -/
  | atomicPerform (k : Nat)
  /-- REQUEST_TIMEOUT (R138). A request without response for 2^20 cycles completes with POISON. -/
  | requestTimeout (k : Nat)
  /-- REPLICA_UPDATE_APPLY (R131). The replication sequencer orders an update and each replica applies it in that order. -/
  | replicaUpdateApply (die : Nat)
  /-- WAITA_WAKE (R141). A write to the sector of a parked WAITA wakes it to read again. -/
  | waitaWake (u : Nat)
  /-- LDF_REISSUE (R109). 256 cycles after a negative acknowledgement, the core re-issues an LDF. -/
  | ldfReissue (u : Nat)
  /-- LDF_CANCEL_NOTICE (R109). A cancel notice arriving at the home slice frees the LDF's deferral entry. -/
  | ldfCancelNotice (slice k : Nat)
  /-- REMOTE_REQUEST (R334). A remote access arriving over Ultra Ethernet is translated and performed at the home. -/
  | remoteRequest (r : RemoteReq)
  /-- UE_CONNECTION_OPEN (R332). A request to open an Ultra Ethernet connection is accepted in ROD or RUD and refused otherwise. -/
  | ueConnectionOpen (mode : UeMode) (peer : Nat)
  /-- FLIT_RECEIVE (R329). A UCIe flit arrives and is accepted, discarded, or answered with NAK. -/
  | flitReceive (m : Nat) (flit : BitVec 2048)
  /-- NAK_RECEIVE (R329). On NAK the sender sends again every flit after ACK. -/
  | nakReceive (m : Nat) (ack : BitVec 12)
  /-- REPLAY_TIMEOUT (R329). With no ACK progress for 2,048 cycles, the sender sends again from the oldest unacknowledged flit. -/
  | replayTimeout (m : Nat)
  /-- IDLE_FLIT_SEND (R329). A receiver with nothing to send sends an idle flit within 64 cycles. -/
  | idleFlitSend (m : Nat)
  /-- LINK_RETRAIN (R330). ECNT reaching ETHR or a requested retrain starts a link retrain. -/
  | linkRetrain (m : Nat)
  /-- RETRAIN_COMPLETE (R338). A retrain ends at x64, x32 or down, and each direction replays unacknowledged flits. -/
  | retrainComplete (m : Nat) (failed repaired : BitVec 64)
  /-- ECNT_QUIET_CLEAR (R330). ECNT clears after 2^24 cycles without a CRC failure. -/
  | ecntQuietClear (m : Nat)
  /-- BEACON_RECORD (R336). A device's 64-byte Beacon record reaches its parent and is combined. -/
  | beaconRecord (child : Nat) (r : BeaconRec)
  /-- LOST_DEVICE_DETECT (R368). No Beacon record for 1,000 rounds declares a device lost and announces a fault epoch. -/
  | lostDeviceDetect (child : Nat)
  /-- LOST_CONNECTION_DETECT (R368). 1 ms of transport retry without progress declares a connection lost. -/
  | lostConnectionDetect (e : Nat)
  /-- FAULT_EPOCH_STOP (R368). On an announced fault epoch each device ends the affected kernels with POISON. -/
  | faultEpochStop (group : List Nat)
  /-- PRECISE_TRAP (R346). A trapping core writes its record to its reserved mailbox slot when free and parks. -/
  | preciseTrap (u : Nat)
  /-- HELD_RECORD_ENTER (R347). As shared slots free, held records enter them in the order held. -/
  | heldRecordEnter (cl : Nat)
  /-- MBSTAT_FREE (R342). The supervisor writes 1 to an MBSTAT bit to free a mailbox slot. -/
  | mbstatFree (cl : Nat) (slot : BitVec 6)
  /-- RESUME (R348). Continues a parked core at RPC. -/
  | resume (u : Nat)
  /-- STOWOUT (R348). Stows a trapped task with TRAPPED set. -/
  | stowout (u : Nat)
  /-- READY (R348). Clears TRAPPED and puts a stowed task at the head of its level. -/
  | ready (u idx : Nat)
  /-- END (R348). Ends a parked task as EXIT does. -/
  | endTask (u : Nat)
  /-- KILLK (R348). Ends the core's kernel with the cause of a named mailbox slot. -/
  | killk (u : Nat) (slot : BitVec 6)
  /-- RESTART (R348). Re-admits a parked or torn task from its memory TCB. -/
  | restart (u idx : Nat)
  /-- LOAD (R348). Starts a task on a free core from a STOW image. -/
  | load (u : Nat) (addr : Word)
  /-- PREEMPT_STOW (R350). Pre-emption stows a task: waits for replies, discards waits, writes the image and moves messages. -/
  | preemptStow (u : Nat)
  /-- TASK_RESUME (R351). A stowed task is restored from its image, taking a latched watchdog trap first. -/
  | taskResume (u : Nat)
  /-- STOW_TEAR (R354). A stow not ended after 4,096 cycles quarantines the core and tears the task. -/
  | stowTear (u : Nat)
  /-- WATCHDOG_EXPIRY (R352). The watchdog count reaches 2^LOG and traps the waiting instruction or latches the expiry. -/
  | watchdogExpiry (u : Nat)
  /-- SHADOW_LATCH_REPLAY (R355). A late transition is detected and the instruction replays, stepping margin back after 4 replays. -/
  | shadowLatchReplay (u : Nat)
  /-- CHECKER_MISMATCH (R25). The checker finds a mismatch and replays, at margin 0 the second time, and reports SILENT the third. -/
  | checkerMismatch (u : Nat)
  /-- CORE_KILL (R27). An uncorrectable error in a core kills it, seals its ports and quarantines it. -/
  | coreKill (u : Nat)
  /-- TASK_RESTART (R340). A killed task restarts once every request of its killed core has taken effect and been dropped. -/
  | taskRestart (cl idx : Nat)
  /-- CLUSTER_QUARANTINE (R28). An error in a supervisor, Millpond, scheduler or event bits quarantines a cluster. -/
  | clusterQuarantine (cl : Nat)
  /-- SUPERVISOR_ERROR (R360). An uncorrectable supervisor error quarantines the cluster and ends kernels with records in its mailbox. -/
  | supervisorError (cl : Nat)
  /-- CLUSTER_REMAP (R30). After quiescing, the map renumbers the last logical cluster, Nlive falls by 1, and the new map is published. -/
  | clusterRemap (cl : Nat)
  /-- THERMAL_THROTTLE (R32). Above 100 °C the clock steps down 100 MHz per millisecond, and back up when cool. -/
  | thermalThrottle (temp : Nat)
  /-- THERMAL_SHUTDOWN (R32). At 110 °C the module stops all dies and reports shutdown. -/
  | thermalShutdown (temp : Nat)
  /-- POWER_LIMIT_THROTTLE (R371). Power over the limit averaged over 1 ms lowers the clock. -/
  | powerLimitThrottle (watts : Nat)
  /-- POWER_ON (R369). At power-on the system controller verifies firmware, trains links, self-tests clusters and opens the management path. -/
  | powerOn (b : BringUp)
  /-- RECOVERY_FIRMWARE_IMAGE (R369). In recovery mode a firmware image on the management path is verified and accepted or refused. -/
  | recoveryFirmwareImage (img : FwImage)
  /-- ATTESTATION_QUOTE (R370). The root of trust signs a quote of its measurement registers in both algorithms. -/
  | attestationQuote (nonce : BitVec 384)
  /-- COLD_RESET (R29). A cold reset returns CYC, SEQ, semaphores, event bits, loop registers and handles to their reset values, and lets a quarantined cluster rejoin the map if it passes self-test. -/
  | coldReset (pass : List Nat)
  /-- MGNST_RECENT_EXPIRY (R365). A step-back event that becomes older than 2^24 cycles leaves the RECENT count of MGNST. -/
  | mgnstRecentExpiry (u : Nat)
  /-- CORRECTED_SOFT_ERROR (R358). An error that ECC corrects in a core increments that core's soft-error count read through the management path. -/
  | correctedSoftError (u : Nat)
  /-- QUEUE_DESTROY (R113). A queue is destroyed, after which its notify page lists no register and every access to it raises PLB_DENY. -/
  | queueDestroy (q : Nat)
  /-- REGULATOR_SETTLING_END (R372). About 2,000 cycles after a margin step-back, the regulator has settled and the core resumes retiring instructions. -/
  | regulatorSettlingEnd (u : Nat)
  deriving DecidableEq, Repr

end Sys2Proof
end

