-- ==== Sys2Proof/Machine/State.lean ====
section
/-! DEFINITION. The state of an SB2-512 module as plain data: every register, table, queue and counter that the spec
names, with the reset value of each. Units are keyed by physical number: cluster P = 16d + 4y + x (R30), tile
8P + tile, core 32P + 4·tile + core; an absent key stands for a unit still in its reset state. -/

namespace Sys2Proof.Machine

/-! ## Values that travel -/

/-- Trap causes with their codes of R344; `hook` holds a runtime hook 0x40 to 0x7F. -/
inductive Cause where
  | none | illegalOp | fetchFault | plbDeny | pageFault | align | packOverrun | formatFault | detLevel
  | fpInvalid | fpOverflow | evOverflow | outboxFull | ringFault | engineFault | soft | poison | silent
  | watchdog | preempt | margin
  | hook (code : BitVec 6)
  deriving DecidableEq, Repr

/-- A vector register's contents: 512 bits and the 16-bit sector tag (R44, R144). -/
structure VVal where
  bits : Sector
  tag  : Half
  deriving DecidableEq, Repr

/-- A trap record's fields (R343). -/
structure TrapRecord where
  cause : Cause
  sub   : Nat
  unit  : Nat
  late  : Bool
  held  : Bool
  nrst  : Bool
  seq   : BitVec 16
  lane  : BitVec 4
  pc    : Word
  from_ : Word
  faddr : Word
  rpc   : Word
  tag   : Word
  data  : Word
  kid   : BitVec 32
  cyc   : BitVec 32
  deriving DecidableEq, Repr

/-- A kernel: the queue it came from and its KID (R294). -/
structure KKey where
  queue : Nat
  kid   : BitVec 32
  deriving DecidableEq, Repr

/-- An order tag: sender index, sender sequence, synapse index (R252). -/
structure OrderTag where
  idx : Word
  seq : BitVec 32
  syn : Nat
  deriving DecidableEq, Repr

/-- A keyed update on its way (R250), with the level, virtual time and order tag it carries; `reply` names the core that
waits for the home's answer (EVUPDT, R277), since when `since` says. `core` is the core that sent it, whose updates to one home arrive in program order, or the first
core of the cluster whose fan-out engine formed it; `waits` says that it has reached its home and waits there for a record (R258). `moved` marks what a slice sends when the map changes: a pending entry or a record of one, which folds at its
new home, or, with its window, a parked update (R283). -/
structure Update where
  kern  : KKey
  st    : Nat
  key   : Nat
  val   : Word
  vt    : Word
  tag   : OrderTag
  det   : Nat
  core  : Nat
  waits : Bool
  moved : Option (Option Nat)
  since : Nat
  reply : Option Nat
  deriving DecidableEq, Repr

/-- A fan-out source on its way (R263): the clusters that still have to take it, the engine-log SEQ for faults, and since when. -/
structure FanSource where
  kern   : KKey
  st     : Nat
  src    : Nat
  val    : Word
  vt     : Word
  tag    : OrderTag
  det    : Nat
  core   : Nat
  seq    : BitVec 16
  pc     : Word
  tenant : Nat
  kid    : BitVec 32
  targets : List Nat
  since  : Nat
  deriving DecidableEq, Repr

/-- A message with the header of R315; `window` is the number and width that R321 fixes at the SEND, `named` the logical cluster that the SEND named, where
`cl` follows the map (R323), and `lost` says that its target has left the map and its sender's supervisor has still to receive the record (R319, R323). -/
structure Msg where
  val    : VVal
  active : Bool
  cl     : Nat
  named  : Nat
  unit   : Nat
  sender : Nat
  kern   : KKey
  tenant : Nat
  vt     : Word
  tag    : OrderTag
  det    : Nat
  window : Option (Nat × Nat)
  lost   : Bool
  deriving DecidableEq, Repr

/-- An entry of a core's outbox (R260). -/
inductive OutEntry where
  | update (st key : Nat) (val vt : Word)
  | fan (st src : Nat) (val vt : Word) (pc : Word) (seq : BitVec 16)
  deriving DecidableEq, Repr

/-- What an outstanding request asks of its home (R135, R279); `far` a store or an atomic at endpoint `e`, over its ROD connection or not (R334). -/
inductive ReqKind where
  | atomic (op : AtomOp)
  | peek (st key : Nat) (kern : KKey)
  | far (e : Nat) (rod : Bool) (op : Option AtomOp)
  deriving DecidableEq, Repr

/-- The answer a request brings back through the pop buffer, or the cause it completes with (R26). -/
inductive Reply where
  | val (v : Word)
  | fail (cause : Cause) (sub : Nat) (faddr tag data : Word) (seq : BitVec 16)
  deriving DecidableEq, Repr

/-- A request that has left its core and is not yet answered; `core` is none once its core was killed (R139). It carries its kernel, and its sender's
virtual time (R336); `release` marks a remote STL (R126). -/
structure Req where
  kind   : ReqKind
  core   : Option Nat
  sender : Nat
  kern   : KKey
  vt     : Word
  d      : GReg
  va     : Word
  loc    : Nat
  repl   : Bool
  so     : Bool
  tagged : Bool
  release : Bool
  a      : Word
  b      : Word
  tag8   : BitVec 8
  since  : Nat
  done   : Option Reply
  deriving DecidableEq, Repr

/-- What the device answers to an access from outside: the bytes read, or the cause it fails with (R334, R335). -/
inductive PeerReply where
  | data (bs : List Byte)
  | fault (cause : Cause)
  deriving DecidableEq, Repr

/-! ## Commands of the matrix unit -/

/-- A ring as a command carries it: cluster, table entry, descriptor offset, and the counter value of the element it bound. -/
structure RingRef where
  cl   : Nat
  id   : Nat
  addr : Nat
  x    : Nat
  deriving DecidableEq, Repr

/-- The rung of a matrix step (R11, R225). -/
inductive Rung where
  | n4 | n8 | w16
  deriving DecidableEq, Repr

/-- The output format of an epilogue instruction (R236). -/
inductive OutFmt where
  | n8 | f32 | b16
  deriving DecidableEq, Repr

/-- The command a matrix unit's queue holds (R218, R227). `ladder` marks MMA.L and MLDB.L. -/
inductive MOp where
  | mldb (ladder : Bool) (ring : RingRef) (x : Nat)
  | msel (t slot : Nat)
  | mz (t : Nat)
  | macc (d a : Nat)
  | mma (rung : Option Rung) (d : Nat) (ring : RingRef)
  | mdrn (a : Nat)
  | eout (fmt : OutFmt) (ring : RingRef) (opts bias : Word)
  | monb (v : Word)
  | cncd (v : Word)
  deriving DecidableEq, Repr

/-! ## A core -/

/-- What a handle register is bound to (R193, R196): a ring of the cluster's ring table, by entry, descriptor offset and
use, or the tile's drain ring. -/
inductive Handle where
  | unbound
  | ring (id addr use : Nat)
  | drain
  deriving DecidableEq, Repr

/-- What a parked or waiting instruction waits for. -/
inductive Wait where
  | none
  | ring (id : Nat)
  | drainRing
  | sector (loc : Nat)
  | future (loc : Nat)
  | futureRetry (loc since : Nat)
  | semaphore (sem : Nat)
  | ebApply
  | ebWait (m : BitVec 256) (consume : Bool)
  | barrier
  | inbox
  | recvPort (port : Nat)
  | sendPort (port : Nat)
  | matrixRing (op : MOp)
  | request
  | command (d : GReg)
  | tileReg
  | banks
  | bankSwitch
  | page (va : Word)
  | path (va : Word) (src dst since : Nat)
  | frame (va : Word) (since : Nat)
  | ship (va : Word)
  deriving DecidableEq, Repr

/-- What a core is doing (R346, R28): `stall` before its record finds the reserved slot free, `trapped` with the record it
has written. -/
inductive CoreStatus where
  | free
  | running
  | stall (r : TrapRecord)
  | trapped (r : TrapRecord)
  | quarantined
  deriving DecidableEq, Repr

/-- A retired store that has not been performed yet (R101): the locations and bytes it writes, how its page orders it, the place the
sequencer has given it, and when it retired. -/
structure SbEntry where
  va      : Word
  writes  : List (Nat × Byte)
  so      : Bool
  uo      : Bool
  repl    : Bool
  release : Bool
  sent    : Option Nat
  since   : Nat
  deriving DecidableEq, Repr

/-- An entry of the engine log (R212). -/
structure LogEntry where
  kind : Nat
  pc   : Word
  desc : Nat
  y    : Bool
  fn   : Nat
  seq  : BitVec 16
  deriving DecidableEq, Repr

/-- The margin and checker registers of a core (R23 to R25, R355 to R358, R365). `armed` turns into `trapDue`, the MARGIN trap before the
next instruction, when the instruction being replayed retires (R356). -/
structure Margin where
  step     : Nat
  pin      : Bool
  total    : BitVec 32
  last     : Nat
  recent   : List Nat
  trepc    : BitVec 32
  cmisc    : BitVec 32
  dflt     : Nat
  soft     : Nat
  replays  : Nat
  misses   : Nat
  settling : Bool
  armed    : Bool
  trapDue  : Bool
  deriving DecidableEq, Repr

/-- Why a stow that is under way has begun (R110, R306, R312, R348). -/
inductive StowWhy where
  | preempt
  | stowOut (r : TrapRecord)
  | yield
  | ship (va : Word)
  deriving DecidableEq, Repr

/-- The part of a core that belongs to the task it runs, and that a stow saves (R292, R351). -/
structure TaskCtx where
  kern    : KKey
  tenant  : Nat
  det     : Nat
  path    : Word
  jaddr   : Word
  ord     : BitVec 32
  seq     : BitVec 32
  tcba    : Word
  ctxb    : Word
  wdt     : Nat
  latched : Bool
  gbar    : BitVec 32
  arrived : Bool
  rank    : Nat
  deriving DecidableEq, Repr

/-- A core: its register files, its command register CCMD as the last command left it (R348), loop registers, task context, waits, buffers and counters. `owed` is the record that the cluster writes for a
killed core and that still waits for its reserved slot (R346, R359). `acq` and `floors` say how far back in `State.past` its loads may still
reach (R118, R121), `icFrom` the time of the last FENCE of each core that its last taken transfer answered to (R56); `uoDirty` holds its unfenced bytes on UO pages and `uoSeen` the bytes of UO
pages it has written or read (R122, R124), `seqSeen` one more than the last place of the sequencer's order it has written or read (R132);
`redirect` holds the clusters renumbered while an access waited, each by its old number and its new one (R97). `fetchWait` says that what the core waits for is an
instruction fetch; `stowing` is a stow that has begun and not ended, with its first cycle (R354); `sample` holds the queue conditions that a BQS or BQC took before a replay, and `early` those before the memory accesses that it follows
(R71). -/
structure Core where
  g        : Vector Word 32
  v        : Vector VVal 16
  pc       : Word
  ilen     : Nat
  from_    : Word
  lcnt     : Word
  lbeg     : Word
  lend     : Word
  h        : Vector Handle 8
  vt       : Word
  ctx      : TaskCtx
  task     : Option Nat
  status   : CoreStatus
  owed     : Option TrapRecord
  wait     : Wait
  stowing  : Option (StowWhy × Nat)
  pop      : Option Reply
  wdStart  : Nat
  lastPc   : Word
  storeBuf : List SbEntry
  acq      : Nat
  floors   : List (Nat × Nat × Nat)
  icFrom   : AMap Nat
  uoDirty  : AMap Byte
  uoSeen   : AMap Byte
  seqSeen  : Nat
  redirect : List (Nat × Nat)
  fetchWait : Bool
  sample   : Option (BitVec 16)
  early    : Option (BitVec 16)
  inbox    : List Msg
  rxPorts  : AMap (List Msg)
  txPorts  : AMap (List Msg)
  outbox   : List OutEntry
  sentSince : Bool
  deque    : List Nat
  kseq     : List (KKey × BitVec 32)
  seqNo    : BitVec 16
  elog     : AMap LogEntry
  mgn      : Margin
  plb      : List (Nat × Byte)
  plbFor   : Option Nat
  icache   : AMap Half
  ccmd     : Word
  reqTag   : BitVec 8
  deriving DecidableEq, Repr

/-! ## A tile -/

/-- The state of one resident slot of a matrix unit (R216): KIND, and for the first slot of a block its element code, sector
scales, monitor counts and NAN flag. -/
structure Slot where
  kind   : Nat
  code   : Nat
  scales : List Int
  sat4   : Nat
  und4   : Nat
  sat8   : Nat
  und8   : Nat
  nan    : Bool
  deriving DecidableEq, Repr

/-- A matrix command with the core that issued it and its engine-log number (R226); `owned` when it counts a reference to its ring,
as every command with a ring element does while it is queued (R191, R209, R229). -/
structure MCmd where
  op     : MOp
  core   : Nat
  seq    : BitVec 16
  pc     : Word
  tenant : Nat
  kid    : BitVec 32
  owned  : Bool
  deriving DecidableEq, Repr

/-- A COPYM follow-on that waits at the unit's entrance (R209): the governed word, the ring its handle named, gA. -/
structure FollowOn where
  word   : Half
  ring   : RingRef
  a      : Word
  core   : Nat
  seq    : BitVec 16
  pc     : Word
  tenant : Nat
  kid    : BitVec 32
  deriving DecidableEq, Repr

/-- A drain element claimed by an EOUT, by its counter value, with what the epilogue engine has to do; `out` the output that has been formed and waits for a free slot
(R236). -/
structure EpiJob where
  x      : BitVec 32
  fmt    : OutFmt
  ring   : RingRef
  opts   : Word
  bias   : Word
  core   : Nat
  seq    : BitVec 16
  pc     : Word
  tenant : Nat
  kid    : BitVec 32
  out    : Option (List Byte)
  deriving DecidableEq, Repr

/-- A tile: its matrix unit with queue and epilogue engine, its four tile CSRs, and its semaphores. Accumulator element (t, m, n)
has key 4096·t + 64·m + n; resident byte b of slot s has key 4096·s + b; drain element (x, m, n) has key 4096·x + 64·m + n. `dclaim` is the counter value of the oldest drain element
that no EOUT has claimed (R236); `rungs` the first rung and the next one of an MMA.L that has begun, and `mrepl0` MREPL without its squashes (R225, R243); `bad` the accumulators 0 to 7 and the
slots, numbered 8 + s, that an uncorrectable error has struck (R230). -/
structure Tile where
  acc     : AMap (BitVec 32)
  sel     : Vector (BitVec 7) 8
  slots   : AMap Slot
  blocks  : AMap Byte
  monb    : Word
  monc    : Word
  mrepl   : Word
  mrepl0  : Word
  cncd    : Word
  dhead   : BitVec 32
  dclaim  : BitVec 32
  dtail   : BitVec 32
  drain   : AMap (BitVec 32)
  queue   : List MCmd
  follow  : List FollowOn
  jobs    : List EpiJob
  sems    : Vector (BitVec 16) 16
  semq    : AMap (List (Nat × Nat))
  gang    : Option Nat
  saveFrom : Option Nat
  rungs   : Option (Rung × Rung)
  bad     : List Nat
  deriving DecidableEq, Repr

/-! ## Tasks -/

/-- What kind of work a TCB-cache entry holds (R18, R290, R308, R259). -/
inductive TKind where
  | task | thread | tileGang | clusterGang | child | activation
  deriving DecidableEq, Repr

/-- Where a task stands between its admission and its end (R293, R298, R348). -/
inductive TStatus where
  | waiting
  | ready
  | running
  | stowed
  | trapped
  | torn
  deriving DecidableEq, Repr

/-- What makes an entry an activation (R259, R261, R316): the store or message it came from, its start values, its sender
index, its window at D1 and above, and whether it may still be restarted. -/
structure ActInfo where
  st     : Nat
  start  : List Word
  msg    : Option VVal
  sender : Word
  window : Option Nat
  nrst   : Bool
  deriving DecidableEq, Repr

/-- A member of a gang that has left its core: its stow image (R351), the bindings, messages and port messages that go with it, its open trap, and whether
it has arrived at the barrier it waits at (R312). -/
structure Member where
  image   : List Byte
  handles : List Handle
  msgs    : List Msg
  ports   : AMap (List Msg)
  trapRec : Option TrapRecord
  arrived : Bool
  deriving DecidableEq, Repr

/-- A task as its cluster's TCB cache holds it (R289, R290, R296): `named` is the cluster that its TCB names (R290), `ports` the messages that its port receive
sides held when it was stowed (R324). -/
structure Task where
  kind    : TKind
  kern    : KKey
  tenant  : Nat
  det     : Nat
  entry   : Word
  args    : List Word
  path    : Word
  jaddr   : Word
  ord     : BitVec 32
  footB   : Nat
  footL   : Nat
  stowa   : Word
  tsave   : Word
  vt      : Word
  wait    : BitVec 256
  setm    : BitVec 256
  keep    : Bool
  base    : Nat
  pri     : Nat
  since   : Nat
  tcba    : Word
  named   : Option Nat
  bound   : Option Nat
  status  : TStatus
  stowed  : Bool
  act     : Option ActInfo
  lastOn  : Option Nat
  lastAt  : Nat
  msgs    : List Msg
  ports   : AMap (List Msg)
  handles : List Handle
  trapRec : Option TrapRecord
  slotMeta : AMap (Nat × List Int)
  members : AMap Member
  exited  : List Nat
  deriving DecidableEq, Repr

/-! ## A cluster -/

/-- An entry of a cluster's ring table (R191, R194): the descriptor's offset and its doubleword 0, which nothing changes while
the entry stands, the handles and engine references it counts, and whether the ring is broken. -/
structure RingEntry where
  id     : Nat
  addr   : Nat
  dw0    : Word
  count  : Nat
  broken : Bool
  deriving DecidableEq, Repr

/-- A pending entry of a store on one slice (R252). -/
structure Entry where
  key  : Nat
  val  : Word
  vmax : Word
  tag  : OrderTag
  ins  : Nat
  deriving DecidableEq, Repr

/-- One store on one slice: pending and parked updates, the overflow segment's counters with the window of each parked record in ring
order, flags and phase (R251 to R257, R270, R271). -/
structure SliceStore where
  entries : List Entry
  parked  : List (Nat × Update)
  head    : Nat
  tail    : Nat
  wins    : List (Option Nat)
  ovf     : Bool
  late    : Bool
  phase   : Option Nat
  busy    : Option Nat
  sealing : List Nat
  nextIns : Nat
  deriving DecidableEq, Repr

/-- A change of event bits on its way to the scheduler (R304). -/
structure EbArrival where
  core : Nat
  set  : Bool
  mask : BitVec 256
  deriving DecidableEq, Repr

/-- Who sends a record to a shared mailbox slot, and so who stalls while the record is held (R347); and whose access waits for a page that is regenerated (R111):
beside those units the hub that reads queue q's next TCB or writes its completion record, a die that reads its schedule, a cluster's scheduler that writes a
STATE, and the stow area or tile save area of a cache entry. -/
inductive Source where
  | copyEng (n : Nat)
  | streamer (n : Nat)
  | matrix (tile : Nat)
  | fanout (cl : Nat)
  | net (cl : Nat)
  | slot (q : Nat)
  | record (q : Nat)
  | schedule (d : Nat)
  | tcb (cl : Nat)
  | area (cl idx : Nat)
  deriving DecidableEq, Repr

/-- A task shipped to another cluster and still redirected: the core it ran on last, and its entry there (R310). -/
structure Forward where
  kern : KKey
  core : Option Nat
  dest : Nat
  idx  : Nat
  from_ : Nat
  deriving DecidableEq, Repr

/-- A core message that waits in the cluster's buffer: the target core, and whether a task that has ended left it unread in its inbox (R317, R318). -/
structure Buffered where
  core : Nat
  msg  : Msg
  back : Bool
  deriving DecidableEq, Repr

/-- A reservation of cores for a gang at the head of its level, and when it was made (R306). -/
structure Reservation where
  idx   : Nat
  cores : List Nat
  since : Nat
  deriving DecidableEq, Repr

/-- A byte of a UO page as a cluster's cache holds it (R15, R122, R124): filled from its home with its sector, or, where `dirty`, put there by a
FENCE at cluster scope and not yet written back. -/
structure UoCopy where
  byte  : Byte
  dirty : Bool
  deriving DecidableEq, Repr

/-- A byte of a UO page that a FENCE of a core has made visible in one tile alone (R122, R124). -/
structure Fenced where
  tile : Nat
  loc  : Nat
  byte : Byte
  deriving DecidableEq, Repr

/-- A cluster: SRAM bank modes, ring table, event bits, scheduler, Millpond slice, message buffer and mailbox. `uoFenced` lists the bytes fenced at tile
scope, the newest last; `tcbWrites` the writes of STATE, by the TCB's address, that wait for its page or bank (R298). -/
structure Cluster where
  modes    : Vector (BitVec 2) 16
  switching : List (Nat × Nat)
  rings    : List RingEntry
  ringNext : Nat
  holds    : List RingRef
  ebits    : BitVec 256
  ebq      : List EbArrival
  tcbs     : AMap Task
  backlog  : List Task
  tcbWrites : List (Word × Nat)
  ready    : AMap (List Nat)
  reserv   : List Reservation
  admitted : AMap Nat
  frames   : Nat
  ctxs     : Nat
  ctxVa    : Word
  slices   : AMap SliceStore
  rotate   : Nat
  msgBuf   : List Buffered
  parkedM  : List Msg
  spilled  : AMap Nat
  discard  : Nat
  forwards : List Forward
  depth    : Option Nat
  depthAt  : Nat
  mailbox  : AMap TrapRecord
  heldRecs : List (Source × TrapRecord)
  heldCnt  : BitVec 32
  uoCache  : AMap UoCopy
  uoFenced : List Fenced
  supLost  : Bool
  deriving DecidableEq, Repr

/-! ## The package -/

/-- Physical memory, one byte per location: HBM5 bytes at their physical addresses (R113), the SRAM byte `off` of
physical cluster P at sramBase + P·2^22 + off (R86), and the two bytes of the tag of sector n at tagBase + 2n (R94);
and the sectors, by number, that return POISON (R358). -/
structure Memory where
  cells  : List Host.Cell
  poison : List Nat
  deriving DecidableEq, Repr

/-- A declared store of a kernel (R247), in one of the device's 64 store slots (R253). -/
structure StoreDecl where
  kern   : KKey
  st     : Nat
  tenant : Nat
  det    : Nat
  opr    : Nat
  thresh : Word
  cap    : Nat
  win    : Nat
  ovb    : Word
  lseg   : Nat
  hpc    : Word
  ftab   : Word
  dir    : Nat
  dlog   : Nat
  wb     : Nat
  wsgn   : Bool
  wscale : Int
  deriving DecidableEq, Repr

/-- A completion record's fields (R300). -/
structure CompRec where
  unit    : Nat
  cause   : Cause
  kid     : BitVec 32
  members : Nat
  pc      : Word
  deriving DecidableEq, Repr

/-- The kernel that runs on a queue, with the members it has started; `ended` when it ended with a
cause before its LASTK TCB was admitted (R294, R300, R348). -/
structure Kernel where
  kid   : BitVec 32
  lastk : Bool
  run   : Nat
  ended : Bool
  pri   : Nat
  deriving DecidableEq, Repr

/-- A queue with its notify registers and its completion ring (R295, R300); `blocked` after a record's write has faulted. `tails` holds the notify stores whose
TCBs have not all been taken, each with its tail and the cycle in which it reached the hub, and `held` the physical cluster, being remapped, for which the hub
has held the next TCB (R20). -/
structure Queue where
  desc    : QueueDesc
  head    : BitVec 32
  tail    : BitVec 32
  tails   : List (BitVec 32 × Nat)
  held    : Option Nat
  err     : BitVec 4
  cread   : BitVec 32
  written : BitVec 32
  waiting : List CompRec
  blocked : Bool
  rot     : Nat
  kern    : Option Kernel
  deriving DecidableEq, Repr

/-- A command of the CP form with the 64-byte descriptor that travels in it (R205). -/
structure CpCmd where
  fn     : CpFn
  y      : Bool
  core   : Option Nat
  sender : Nat
  d      : GReg
  desc   : List Word
  descVa : Word
  tag    : Word
  seq    : BitVec 16
  pc     : Word
  cl     : Nat
  tenant : Nat
  kid    : BitVec 32
  follow : Option RingRef
  moved  : List (Nat × Nat × Nat)
  deriving DecidableEq, Repr

/-- A pull that a subscription is carrying out (R211). -/
structure PullJob where
  cmd  : CpCmd
  left : Nat
  deriving DecidableEq, Repr

/-- A subscription of a tile streamer (R210, R211). -/
structure Sub where
  src    : Word
  len    : Nat
  size   : Nat
  cursor : Nat
  rings  : List RingRef
  jobs   : List PullJob
  deriving DecidableEq, Repr

/-- A tile streamer (R210). -/
structure Streamer where
  queue : List CpCmd
  subs  : AMap Sub
  deriving DecidableEq, Repr

/-- A flit as a replay buffer holds it (R328). -/
structure Flit where
  seq     : BitVec 12
  kind    : Nat
  payload : BitVec 1920
  deriving DecidableEq, Repr

/-- One UCIe module: the five registers of R331 and the link layer of its send and receive directions (R329, R330, R338); `owed` counts the requests and responses that
have crossed it and whose data flits have still to leave (R328; log entry 12). -/
structure Link where
  lctl      : BitVec 2
  ethr      : BitVec 16
  ecnt      : BitVec 32
  rplc      : Word
  lanes     : Nat
  upper     : Bool
  up        : Bool
  repaired  : Nat
  retrain   : Bool
  toX32     : Bool
  txSeq     : BitVec 12
  replay    : List Flit
  resend    : List Flit
  progress  : Nat
  timerOn   : Bool
  rxExp     : BitVec 12
  nakOwed   : Bool
  lastCrc   : Nat
  owed      : Nat
  out       : BitVec 2048
  delivered : List (BitVec 1920)
  deriving DecidableEq, Repr

/-- The registers of a compute die: page-table root, flush, regeneration and residency (R112 to R114). -/
structure Die where
  ptroot : Word
  flush  : Bool
  rgbase : Word
  rgcnt  : BitVec 16
  rsbase : Word
  rslog  : BitVec 5
  step   : Word
  tail   : BitVec 32
  head   : BitVec 32
  err    : BitVec 3
  deriving DecidableEq, Repr

/-- The regeneration of a page (R111): the page and its size, its entry, the kernel and the ring slot it was placed in; the engines whose accesses wait for it, and
whether it has failed and these accesses have still to fault. -/
structure RegenWait where
  page   : Word
  big    : Bool
  index  : Nat
  kern   : KKey
  slot   : BitVec 32
  engines : List Source
  failed : Bool
  deriving DecidableEq, Repr

/-- An engine's access to a page that waits for a frame, and since when (R112). -/
structure FrameWait where
  src   : Source
  page  : Word
  since : Nat
  deriving DecidableEq, Repr

/-- A translation that a die may still use after its page-table entry has changed (R91): the 64 KiB page or 32 MiB page it
covers, the entry, the parts of the page that INVAL has covered since the entry was last the page table's own, and how far the steps of R91 have
come: 1 after INVAL, 2 when a flush has begun after it, 3 when that flush has ended. -/
structure TcEntry where
  page  : Nat
  big   : Bool
  pte   : Word
  inval : List (Nat × Nat)
  stage : Nat
  deriving DecidableEq, Repr

/-- A store to a replicated page in the sequencer's order (R131), its locations on the home stack's frame; `applied` lists the
dies that have applied it. -/
structure SeqUpdate where
  place   : Nat
  writes  : List (Nat × Byte)
  core    : Nat
  applied : List Nat
  deriving DecidableEq, Repr

/-- An LDF deferred at its home slice (R108, R109); `core` is none once the core has cancelled it. -/
structure Deferral where
  slice : Nat
  loc   : Nat
  core  : Option Nat
  deriving DecidableEq, Repr

/-- A child's last Beacon record (R336) and the round it came in. -/
structure ChildRec where
  last : BeaconRec
  seen : Nat
  lost : Bool
  deriving DecidableEq, Repr

/-- A quote of the measurement registers (R370): the verifier's nonce, the registers' contents, and its two signatures. -/
structure Quote where
  nonce   : BitVec 384
  measure : List (BitVec 384)
  rsa     : BitVec 3072
  slh     : BitVec 129792
  deriving DecidableEq, Repr

/-- The system controller, the root of trust and the power controls (R369 to R371, R32): `keys` holds the fused digests of the two public keys, `measure` the
measurement registers, `hot` that the clock is being lowered until the temperature falls below 100 °C, `reported` that the shutdown has been reported. -/
structure SysCtl where
  bring    : Nat
  recovery : Bool
  fwVersion : Nat
  rollback : Nat
  keys     : BitVec 384 × BitVec 384
  measure  : List (BitVec 384)
  quotes   : List Quote
  clock    : Nat
  limit    : Nat
  temp     : Nat
  hot      : Bool
  shutdown : Bool
  reported : Bool
  mgmtReply : Option (Option Word)
  deriving DecidableEq, Repr

/-- What the package knows of the devices it meets (R332, R333, R336, R368): `heard` is the round of the parent's last record and `up` the last record sent to
the parent; `global` is the B and Q that the root has published; `lost` names the endpoints of lost devices; `held` holds the remote accesses that wait for a
page or a bank (R111). -/
structure SysNet where
  own       : Nat
  endpoints : AMap Endpoint
  conns     : List (UeMode × Nat)
  parent    : Option Nat
  heard     : Nat
  up        : Option BeaconRec
  global    : Word × Bool
  children  : AMap ChildRec
  lost      : List Nat
  round     : Nat
  epoch     : Nat
  sent      : Nat
  performed : Nat
  totals    : Nat × Nat
  lostConns : List Nat
  reply     : Option PeerReply
  held      : List RemoteReq
  deriving DecidableEq, Repr

/-- The snapshot registers (R361): tag, ignored triggers, pending flag, the triggers on their way with their arrival times, and the latched
blocks. -/
structure Snapshot where
  tag      : BitVec 32
  ign      : BitVec 16
  pend     : Bool
  trigs    : List (Nat × BitVec 32)
  cores    : AMap Core
  tiles    : AMap Tile
  clusters : AMap Cluster
  dies     : AMap Die
  links    : AMap Link
  engines  : AMap (List CpCmd)
  streamers : AMap Streamer
  deriving DecidableEq, Repr

/-- Which agent moves next: a core's next instruction, or a step of another agent (log entry 6). -/
inductive Move where
  | core (u : Nat)
  | event (i : Instr)
  deriving DecidableEq, Repr

/-- A performed write as `State.past` keeps it: the core that stored, none for an engine or the device, and the bytes that it replaced. -/
structure Replaced where
  core : Option Nat
  was  : List (Nat × Byte)
  deriving DecidableEq, Repr

/-- The module. `cur` is the core whose turn it is; `moves` says which agent moves before it; `eager` says whether a
request a step sends is also performed in that step or left in flight; `freeCtr` numbers the free values (log entry 6). `past` lists, newest first,
the bytes that each performed write replaced: what a load performed earlier than its turn, or a fetch, may still return (R56, R121). `fences` gives for each core and
scope (key 8·core + scope) the number of writes performed before its last FENCE, and `icSec` for a sector the number before the last INVAL of it (R56, R208). -/
structure State where
  cores     : AMap Core
  tiles     : AMap Tile
  clusters  : AMap Cluster
  dies      : AMap Die
  links     : AMap Link
  engines   : AMap (List CpCmd)
  streamers : AMap Streamer
  queues    : AMap Queue
  stores    : AMap StoreDecl
  mem       : Memory
  past      : List Replaced
  fences    : AMap Nat
  icSec     : AMap Nat
  rights    : AMap Byte
  tcache    : List TcEntry
  frameWaits : List FrameWait
  pinned    : List Word
  backing   : AMap (List (Nat × Byte))
  freeFrames : Nat
  regens    : List RegenWait
  defers    : List Deferral
  seqOrder  : List SeqUpdate
  seqNext   : Nat
  upds      : List Update
  fansOut   : List FanSource
  msgs      : List Msg
  reqs      : List Req
  beaconB   : Word
  beaconQ   : Bool
  nlive     : Nat
  lmap      : List Nat
  quarCl    : List Nat
  sys       : SysCtl
  net       : SysNet
  snap      : Snapshot
  now       : Nat
  cur       : Nat
  moves     : List Move
  eager     : Bool
  freeCtr   : Nat
  deriving DecidableEq, Repr

/-! ## Reset -/

/-- A vector register of zeros with tag 0x0000 (R292). -/
def VVal.zero : VVal := ⟨0, 0⟩

/-- No task's context: a free core's (R365: WDT 26). -/
def TaskCtx.none : TaskCtx :=
  { kern := ⟨0, 0⟩, tenant := 0, det := 0, path := 0, jaddr := 0, ord := 0, seq := 0, tcba := 0, ctxb := 0, wdt := 26,
    latched := false, gbar := 0, arrived := false, rank := 0 }

/-- Margin registers at cold reset (R23, R365). -/
def Margin.reset : Margin :=
  { step := 0, pin := false, total := 0, last := 0, recent := [], trepc := 0, cmisc := 0, dflt := 0, soft := 0, replays := 0,
    misses := 0, settling := false, armed := false, trapDue := false }

/-- A core at cold reset: free, loop registers idle (R77), handles unbound (R193), SEQ 0 (R212). -/
def Core.reset : Core :=
  { g := Vector.replicate 32 0, v := Vector.replicate 16 VVal.zero, pc := 0, ilen := 0, from_ := 0, lcnt := 0, lbeg := 0,
    lend := 0, h := Vector.replicate 8 .unbound, vt := 0, ctx := TaskCtx.none, task := none, status := .free, owed := none,
    wait := .none, stowing := none, pop := none, wdStart := 0, lastPc := 0, storeBuf := [], acq := 0, floors := [],
    icFrom := [], uoDirty := [], uoSeen := [], seqSeen := 0, redirect := [],
    fetchWait := false, sample := none, early := none, inbox := [], rxPorts := [], txPorts := [],
    outbox := [], sentSince := false, deque := [], kseq := [], seqNo := 0, elog := [], mgn := Margin.reset, plb := [], plbFor := none,
    icache := [], ccmd := 0, reqTag := 0 }

/-- A slot that holds no block (R216). -/
def Slot.invalid : Slot :=
  { kind := 0, code := 0, scales := [], sat4 := 0, und4 := 0, sat8 := 0, und8 := 0, nan := false }

/-- A tile as R215 starts it: accumulators +0, selectors 0, slots invalid, drain ring empty, CNCD 24; semaphores 0 (R201). -/
def Tile.reset : Tile :=
  { acc := [], sel := Vector.replicate 8 0, slots := [], blocks := [], monb := 0, monc := 0, mrepl := 0, mrepl0 := 0, cncd := 24,
    dhead := 0, dclaim := 0, dtail := 0, drain := [], queue := [], follow := [], jobs := [], sems := Vector.replicate 16 0, semq := [],
    gang := none, saveFrom := none, rungs := none, bad := [] }

/-- A store on a slice at its EVDECL (R275). -/
def SliceStore.empty : SliceStore :=
  { entries := [], parked := [], head := 0, tail := 0, wins := [], ovf := false, late := false, phase := none, busy := none, sealing := [],
    nextIns := 0 }

/-- A cluster at cold reset: all banks cache ways (R16), event bits 0, mailbox empty. -/
def Cluster.reset : Cluster :=
  { modes := Vector.replicate 16 0, switching := [], rings := [], ringNext := 0, holds := [], ebits := 0, ebq := [],
    tcbs := [], backlog := [], tcbWrites := [], ready := [], reserv := [], admitted := [], frames := 0, ctxs := 0, ctxVa := 0,
    slices := [], rotate := 0, msgBuf := [], parkedM := [], spilled := [], discard := 0,
    forwards := [], depth := none, depthAt := 0, mailbox := [], heldRecs := [], heldCnt := 0, uoCache := [], uoFenced := [], supLost := false }

/-- A die at cold reset (R114); RSLOG at the low end of its range (log entry 5). -/
def Die.reset : Die :=
  { ptroot := 0, flush := false, rgbase := 0, rgcnt := 0, rsbase := 0, rslog := 4, step := 0, tail := 0, head := 0, err := 0 }

/-- A UCIe module before training: LCTL 0, ETHR 16, ECNT 0, RPLC 0 (R331). -/
def Link.reset : Link :=
  { lctl := 0, ethr := 16, ecnt := 0, rplc := 0, lanes := 0, upper := false, up := false, repaired := 0,
    retrain := false, toX32 := false, txSeq := 0, replay := [], resend := [], progress := 0, timerOn := true, rxExp := 0,
    nakOwed := false, lastCrc := 0, owed := 0, out := 0, delivered := [] }

/-- A streamer without subscriptions (R210). -/
def Streamer.reset : Streamer := { queue := [], subs := [] }

/-- The system controller at power-on, before step 1 of R369; clock 3.3 GHz (R2). -/
def SysCtl.reset : SysCtl :=
  { bring := 0, recovery := false, fwVersion := 0, rollback := 0, keys := (0, 0), measure := List.replicate 2 0, quotes := [],
    clock := 3300, limit := 1600, temp := 0, hot := false, shutdown := false, reported := false, mgmtReply := none }

/-- No devices known (R333, R336). -/
def SysNet.reset : SysNet :=
  { own := 0, endpoints := [], conns := [], parent := none, heard := 0, up := none, global := (0, false), children := [], lost := [], round := 0, epoch := 0, sent := 0, performed := 0,
    totals := (0, 0), lostConns := [], reply := none, held := [] }

/-- Snapshot registers at cold reset (R365). -/
def Snapshot.reset : Snapshot :=
  { tag := 0, ign := 0, pend := false, trigs := [], cores := [], tiles := [], clusters := [],
    dies := [], links := [], engines := [], streamers := [] }

/-- Memory right after reset: nothing listed. -/
def Memory.empty : Memory := { cells := [], poison := [] }

/-- The module right after reset: every unit in its reset state, Nlive = 64 and logical numbers equal to physical ones
(R29, R30), the Beacon bound 0 (R266), the clock of cycles at 0 (R365); values without a rule as log entries 1 to 6 name them. -/
def State.reset : State :=
  { cores := [], tiles := [], clusters := [], dies := [], links := [], engines := [], streamers := [], queues := [],
    stores := [], mem := Memory.empty, past := [], fences := [], icSec := [], rights := [], tcache := [], frameWaits := [], pinned := [], backing := [], freeFrames := 12582912, regens := [],
    defers := [], seqOrder := [], seqNext := 0, upds := [], fansOut := [], msgs := [], reqs := [], beaconB := 0,
    beaconQ := false, nlive := 64, lmap := below 64, quarCl := [], sys := SysCtl.reset, net := SysNet.reset,
    snap := Snapshot.reset, now := 0, cur := 0, moves := [], eager := true, freeCtr := 0 }

/-! ## How a step can stop -/

/-- Reasons for which the machine stops. -/
inductive Fault where
  /-- Raised by `step` alone: the module has shut down at 110 °C and stopped all dies (R32). Safe: the spec says that
  nothing runs after it. -/
  | shutDown
  deriving DecidableEq, Repr

/-- Reasons for which a step has no meaning. -/
inductive Refusal where
  /-- Raised by an arm of exec whose instruction has no meaning yet. Safe: no claim is made about it. -/
  | notModelled (mnemonic : String)
  deriving DecidableEq, Repr

end Sys2Proof.Machine
end

