-- ==== Sys2Proof/Machine/Ops.lean ====
section
/-! DEFINITION. The named operations that every meaning shares: units and their numbers, registers, free values,
retirement with the repeat loop, control transfer, taking an exception and returning from one, and the mailboxes. -/

namespace Sys2Proof.Machine

/-! ## Units by number (R3, R8, R9, R30) -/

/-- The physical cluster, tile and die of a core, and its number 4·tile + core within the cluster. -/
def clusterOf (u : Nat) : Nat := u / 32
def tileOf (u : Nat) : Nat := u / 4
def dieOf (P : Nat) : Nat := P / 16
def inCluster (u : Nat) : Nat := u % 32
/-- The cores of a cluster and of a tile, in ascending number. -/
def coresOf (P : Nat) : List Nat := upFrom (32 * P) 32
def coresOfTile (t : Nat) : List Nat := upFrom (4 * t) 4

/-- The units of the module by physical number; an absent key is a unit in its reset state. -/
def State.core (s : State) (u : Nat) : Core := mget s.cores u Core.reset
def State.tile (s : State) (t : Nat) : Tile := mget s.tiles t Tile.reset
def State.cluster (s : State) (P : Nat) : Cluster := mget s.clusters P Cluster.reset
def State.die (s : State) (d : Nat) : Die := mget s.dies d Die.reset
def State.link (s : State) (m : Nat) : Link := mget s.links m Link.reset
def State.streamer (s : State) (n : Nat) : Streamer := mget s.streamers n Streamer.reset

def State.setCore (s : State) (u : Nat) (c : Core) : State := { s with cores := mset s.cores u c }
def State.setTile (s : State) (t : Nat) (x : Tile) : State := { s with tiles := mset s.tiles t x }
def State.setCluster (s : State) (P : Nat) (c : Cluster) : State := { s with clusters := mset s.clusters P c }
def State.setDie (s : State) (d : Nat) (x : Die) : State := { s with dies := mset s.dies d x }
def State.setLink (s : State) (m : Nat) (x : Link) : State := { s with links := mset s.links m x }
def State.setStreamer (s : State) (n : Nat) (x : Streamer) : State := { s with streamers := mset s.streamers n x }

def State.modCore (s : State) (u : Nat) (f : Core → Core) : State := s.setCore u (f (s.core u))
def State.modTile (s : State) (t : Nat) (f : Tile → Tile) : State := s.setTile t (f (s.tile t))
def State.modCluster (s : State) (P : Nat) (f : Cluster → Cluster) : State := s.setCluster P (f (s.cluster P))

/-- Every listed core, tile or cluster rewritten by its number. -/
def State.mapCores (s : State) (f : Nat → Core → Core) : State := { s with cores := s.cores.map (fun p => (p.1, f p.1 p.2)) }
def State.mapTiles (s : State) (f : Nat → Tile → Tile) : State := { s with tiles := s.tiles.map (fun p => (p.1, f p.1 p.2)) }
def State.mapClusters (s : State) (f : Nat → Cluster → Cluster) : State :=
  { s with clusters := s.clusters.map (fun p => (p.1, f p.1 p.2)) }

/-- The logical number of a physical cluster, if it is in the map (R30). -/
def State.logical (s : State) (P : Nat) : Option Nat := s.lmap.findIdx? (fun x => x == P)
/-- The physical cluster of a logical number below Nlive. -/
def State.physical (s : State) (L : Nat) : Option Nat := s.lmap[L]?
/-- The logical number, or the physical one of a cluster that has left the map, to which R30 gives no number (log entry 54). -/
def State.logicalNo (s : State) (P : Nat) : Nat := (s.logical P).getD P

/-- The unit ID of a core: logical cluster in [10:5], tile in [4:2], core in [1:0] (R3). -/
def State.unitId (s : State) (u : Nat) : Nat := 32 * s.logicalNo (clusterOf u) + inCluster u

/-- The core that a unit ID names, if its logical cluster exists. -/
def State.unitOfId (s : State) (id : Nat) : Option Nat := (s.physical (id / 32)).map (fun P => 32 * P + id % 32)

/-! ## Registers (R44, R45) -/

/-- A general register; g0 reads 0. -/
def Core.rg (c : Core) (r : GReg) : Word := if r = 0 then 0 else c.g[r.toNat]
/-- A write of a general register; a write to g0 is discarded (R45). -/
def Core.wg (c : Core) (r : GReg) (v : Word) : Core := if r = 0 then c else { c with g := c.g.set r.toNat v }
/-- A vector register with its tag, and its write. -/
def Core.rv (c : Core) (r : VReg) : VVal := c.v[r.toNat]
def Core.wv (c : Core) (r : VReg) (x : VVal) : Core := { c with v := c.v.set r.toNat x }
/-- A ring handle, and its write. -/
def Core.rh (c : Core) (r : HReg) : Handle := c.h[r.toNat]
def Core.wh (c : Core) (r : HReg) (x : Handle) : Core := { c with h := c.h.set r.toNat x }
/-- A tile semaphore, and its write (R201). -/
def Tile.rs (t : Tile) (r : SReg) : BitVec 16 := t.sems[r.toNat]
def Tile.ws (t : Tile) (r : SReg) (x : BitVec 16) : Tile := { t with sems := t.sems.set r.toNat x }

/-- The registers of the core whose turn it is. -/
def State.rg (s : State) (r : GReg) : Word := (s.core s.cur).rg r
def State.wg (s : State) (r : GReg) (v : Word) : State := s.modCore s.cur (fun c => c.wg r v)
def State.rv (s : State) (r : VReg) : VVal := (s.core s.cur).rv r
def State.wv (s : State) (r : VReg) (x : VVal) : State := s.modCore s.cur (fun c => c.wv r x)

/-- The core's instruction address and the address of the instruction that follows in sequence (R33, R40). -/
def Core.nextPc (c : Core) : Word := c.pc + word c.ilen

/-- The task record of the task that a core runs. -/
def State.taskOf (s : State) (u : Nat) : Option Task :=
  match (s.core u).task with
  | some i => mfind (s.cluster (clusterOf u)).tcbs i
  | none => none

/-- The state with the task record of a core's task rewritten. -/
def State.modTask (s : State) (P i : Nat) (f : Task → Task) : State :=
  match mfind (s.cluster P).tcbs i with
  | some t => s.modCluster P (fun c => { c with tcbs := mset c.tcbs i (f t) })
  | none => s

/-- Whether the REP loop registers are idle (R77). -/
def Core.loopIdle (c : Core) : Bool := c.lcnt == 0 && !bitAt c.lend 0
/-- The skipping state (R77). -/
def Core.skipping (c : Core) : Bool := c.lcnt == 0 && bitAt c.lend 0

/-! ## Stopping an instruction -/

/-- Where RESUME continues after a trap: at the trapping instruction, after it, or nowhere (R345). -/
inductive RpcKind where
  | same | next | zero
  deriving DecidableEq, Repr

/-- A precise trap before its record is formed: the fields that its cause fills (R345). -/
structure Trap where
  cause : Cause
  sub   : Nat := 0
  faddr : Word := 0
  lane  : BitVec 4 := 0
  data  : Word := 0
  tag   : Word := 0
  seq   : BitVec 16 := 0
  from_ : Word := 0
  rpc   : RpcKind := .same
  pc    : Option Word := none
  deriving DecidableEq, Repr

/-- A trap that fills no field but its cause. -/
def Trap.plain (c : Cause) : Trap := { cause := c }
/-- A trap with a fault address. -/
def Trap.at (c : Cause) (a : Word) : Trap := { cause := c, faddr := a }

/-- Why an instruction does not complete: it traps, or it waits. Either way it has changed nothing. -/
inductive Stop where
  | trap (t : Trap)
  | wait (w : Wait)
  deriving DecidableEq, Repr

/-- An operation that reads and changes the state and may stop. -/
abbrev M (α : Type) := StateT State (Except Stop) α

/-- Where control goes when an instruction has had its effect: on in sequence, to a target, nowhere (it has placed the core
itself), or into a trap that keeps the effects so far (STVP, R106). -/
inductive Flow where
  | next
  | goto (target : Word)
  | stay
  | trapped (t : Trap)
  deriving DecidableEq, Repr

/-- FETCH_FAULT at an address that core u cannot fetch from: every halfword of the instruction at a transfer's target has the transferring instruction as
from-address (R83; log entry 59). -/
def State.fetchTrap (s : State) (u : Nat) (va : Word) : Trap := { cause := .fetchFault, faddr := va, from_ := (s.core u).from_ }

/-- The trap of an operation. -/
def trapM {α : Type} (t : Trap) : M α := throw (.trap t)
/-- The wait of an operation. -/
def waitM {α : Type} (w : Wait) : M α := throw (.wait w)
/-- Traps with a cause unless a condition holds. -/
def needM (b : Bool) (t : Trap) : M Unit := if b then pure () else trapM t

/-- Free draws: each takes the next number of the counter that State holds (log entry 6). -/
def State.tickFree (s : State) : State := { s with freeCtr := s.freeCtr + 1 }
def freeBoolM : M Bool := fun s => .ok (Config.freeBool s.freeCtr, s.tickFree)
def freeNatM : M Nat := fun s => .ok (Config.freeNat s.freeCtr, s.tickFree)
def freeWordM : M Word := fun s => .ok (Config.freeWord s.freeCtr, s.tickFree)

/-! ## Mailboxes (R342, R347) -/

/-- Writes a record to the lowest free shared slot of a supervisor's mailbox, or holds it at its source (R342, R347); a lost mailbox takes none
(R360; log entry 31). -/
def postShared (s : State) (P : Nat) (src : Source) (r : TrapRecord) : State :=
  s.modCluster P (fun c =>
    if c.supLost then c
    else match (upFrom 32 32).find? (fun k => (mfind c.mailbox k).isNone) with
    | some k => { c with mailbox := mset c.mailbox k r }
    | none => { c with heldRecs := c.heldRecs ++ [(src, r)],
                       heldCnt := if c.heldCnt = BitVec.allOnes 32 then c.heldCnt else c.heldCnt + 1 })

/-- Whether a source holds a record in some supervisor's mailbox queue, and so starts no further work (R347). -/
def State.holdsRecord (s : State) (src : Source) : Bool :=
  s.clusters.any (fun p => p.2.heldRecs.any (fun h => h.1 == src))

/-- An address as a record's field holds it, in [55:0] (R343). -/
def rec56 (x : Word) : Word := word (fld x 55 0)

/-- A late ENGINE_FAULT record (R213, R345): sub-cause, engine-log number and PC, fault address, tag and count. -/
def lateRecord (s : State) (core : Nat) (sub : Nat) (seq : BitVec 16) (pc faddr tag data : Word) (kid : BitVec 32) :
    TrapRecord :=
  { cause := .engineFault, sub := sub, unit := s.unitId core, late := true, held := false, nrst := false, seq := seq,
    lane := 0, pc := rec56 pc, from_ := 0, faddr := rec56 faddr, rpc := 0, tag := tag, data := data, kid := kid,
    cyc := BitVec.ofNat 32 s.now }

/-- The code of a cause (R344). -/
def Cause.code : Cause → Nat
  | .none => 0x00 | .illegalOp => 0x01 | .fetchFault => 0x02 | .plbDeny => 0x03 | .pageFault => 0x04 | .align => 0x05
  | .packOverrun => 0x06 | .formatFault => 0x07 | .detLevel => 0x08 | .fpInvalid => 0x09 | .fpOverflow => 0x0A
  | .evOverflow => 0x0B | .outboxFull => 0x0C | .ringFault => 0x0D | .engineFault => 0x0E | .soft => 0x0F
  | .poison => 0x10 | .silent => 0x11 | .watchdog => 0x12 | .preempt => 0x13 | .margin => 0x14
  | .hook c => 0x40 + c.toNat

/-- The eight doublewords of a record in its mailbox slot (R343). -/
def TrapRecord.dwords (r : TrapRecord) : List Word :=
  [word (r.cause.code + 2 ^ 8 * (r.sub % 2 ^ 8) + 2 ^ 16 * (r.unit % 2 ^ 11) + (if r.late then 2 ^ 27 else 0) + (if r.held then 2 ^ 28 else 0)
      + (if r.nrst then 2 ^ 29 else 0) + 2 ^ 32 * r.seq.toNat + 2 ^ 48 * r.lane.toNat),
   rec56 r.pc, rec56 r.from_, rec56 r.faddr, rec56 r.rpc, r.tag, r.data, word (r.kid.toNat + 2 ^ 32 * r.cyc.toNat)]

/-! ## Taking a trap and returning from it (R345, R346, R348) -/

/-- A core whose instruction is discarded: its wait, the value held in its pop buffer, what its replays held and its replay and mismatch counts end (R26, R71, R355). -/
def Core.dropped (c : Core) : Core :=
  { c with wait := .none, pop := none, redirect := [], sample := none, early := none, fetchWait := false,
           mgn := { c.mgn with replays := 0, misses := 0 } }

/-- Core u's parked wait ends: a SWAIT leaves its semaphore's queue (R202), and a deferred LDF is cancelled at the core, which sends the notice (R109). -/
def leaveWait (s : State) (u : Nat) : State :=
  match (s.core u).wait with
  | .semaphore k => s.modTile (tileOf u) (fun t => { t with semq := mmod t.semq k [] (fun q => q.filter (fun p => p.1 ≠ u)) })
  | .future _ => { s with defers := s.defers.map (fun (d : Deferral) => if d.core = some u then { d with core := none } else d) }
  | _ => s

/-- The discarding of a parked wait with the instruction that waits. -/
def dropWait (s : State) (u : Nat) : State := (leaveWait s u).modCore u Core.dropped

/-- The record of a precise trap of a core (R343, R345). -/
def trapRecord (s : State) (u : Nat) (t : Trap) : TrapRecord :=
  let c := s.core u
  { cause := t.cause, sub := t.sub, unit := s.unitId u, late := false, held := false,
    nrst := match s.taskOf u with
      | some k => match k.act with | some a => a.nrst | none => false
      | none => false,
    seq := t.seq, lane := t.lane, pc := rec56 (t.pc.getD c.pc), from_ := rec56 t.from_, faddr := rec56 t.faddr,
    rpc := match t.rpc with | .same => rec56 c.pc | .next => rec56 c.nextPc | .zero => 0,
    tag := t.tag, data := t.data, kid := c.ctx.kern.kid, cyc := BitVec.ofNat 32 s.now }

/-- Writes a record into the core's reserved mailbox slot if it is free, and parks the core; otherwise the core stalls
before writing (R346). -/
def writeReserved (s : State) (u : Nat) (r : TrapRecord) : State :=
  let P := clusterOf u
  if (mfind (s.cluster P).mailbox (inCluster u)).isNone then
    (s.modCluster P (fun c => { c with mailbox := mset c.mailbox (inCluster u) r })).modCore u
      (fun c => { c with status := .trapped r })
  else s.modCore u (fun c => { c with status := .stall r })

/-- Whether a task ships on a PAGE_FAULT: a task or activation without footprint, `.keep` region, bound handle or unreleased outbox, and no
gang member (R110, R193, R260, R386; log entry 55). -/
def shippable (s : State) (u : Nat) : Bool :=
  match s.taskOf u with
  | some t =>
    (match t.kind with | .task | .child => true | .activation => !Config.keepsRegion t.kern.queue t.kern.kid | _ => false)
      && t.footL == 0 && (s.core u).h.toList.all (fun h => h == .unbound) && (s.core u).outbox.isEmpty
  | none => false

/-- Taking a precise trap, the one operation for every cause: the wait is discarded, the record is formed from the
unchanged registers, and the core parks. A PAGE_FAULT of a task that ships waits for the shipping instead (R110). -/
def takeTrap (s : State) (u : Nat) (t : Trap) : State :=
  let s := dropWait s u
  if t.cause = .pageFault ∧ shippable s u = true then s.modCore u (fun c => { c with wait := .ship t.faddr })
  else writeReserved s u (trapRecord s u t)

/-! ## Retirement and control transfer (R58, R78, R80, R83) -/

/-- What retirement does to the counts of the instruction: watchdog count 0 (R352), replay and mismatch counts 0 (R355, R357); after a pin,
the MARGIN trap is due (R356). What was held for the instruction's replays and for its wait goes with it (R26, R71, R97). -/
def Core.retireCounts (c : Core) (now : Nat) : Core :=
  { c with wdStart := now, lastPc := c.pc, pop := none, wait := .none, redirect := [], sample := none,
           mgn := { c.mgn with replays := 0, misses := 0, armed := false, trapDue := c.mgn.trapDue || c.mgn.armed } }

/-- The loop registers and the PC after an instruction that did not transfer control (R78); `next` is the address that
follows it. A loop-back leaves the last body instruction as from-address (R83). -/
def Core.seqNext (c : Core) (next : Word) : Core :=
  if c.loopIdle then { c with pc := next, from_ := 0 }
  else
    let lend := if bitAt c.lend 0 then (if c.lend - 2 = 1 then sext56 next else c.lend - 2) else c.lend
    if !bitAt lend 0 && sext56 next == lend then
      if 1 < c.lcnt.toNat then { c with lcnt := c.lcnt - 1, lend := lend, pc := c.lbeg, from_ := c.pc }
      else { c with lcnt := 0, lend := lend, pc := lend, from_ := 0 }
    else { c with lend := lend, pc := next, from_ := 0 }

/-- Whether the trapping instruction retires when its core is resumed: a TRAP does, whose RPC is the instruction after it (R345, R363). -/
def TrapRecord.retires (r : TrapRecord) : Bool :=
  match r.cause with
  | .soft | .hook _ => true
  | _ => false

/-- The loop registers and the PC with which RESUME continues: at RPC, or, for a TRAP that ends a loop's body, at the loop's next pass (R78,
R348; log entry 32). -/
def Core.resumeAt (c : Core) (r : TrapRecord) : Core := if r.retires then c.seqNext (sext56 r.rpc) else { c with pc := sext56 r.rpc }

/-- Return from a trap: the core runs on with its watchdog count at 0 (R348, R352). -/
def resumeCore (s : State) (u : Nat) (r : TrapRecord) : State :=
  s.modCore u (fun c => { c.resumeAt r with status := .running, wdStart := s.now, wait := .none, pop := none })

/-- A taken transfer: it ends a loop that is not idle (R80), and the transferring instruction is the from-address (R83). -/
def Core.jump (c : Core) (target : Word) : Core :=
  let c := if c.loopIdle then c else { c with lcnt := 0, lend := 0 }
  { c with pc := target, from_ := c.pc }

/-! ## Scopes, and what a taken transfer makes fetchable (R56, R116) -/

/-- Whether core v lies in a scope of core u: 0 core, 1 tile, 2 cluster, 3 die, 4 package, 5 system (R116). -/
def inScope (u scope v : Nat) : Bool :=
  match scope with
  | 0 => v == u
  | 1 => tileOf v == tileOf u
  | 2 => clusterOf v == clusterOf u
  | 3 => dieOf (clusterOf v) == dieOf (clusterOf u)
  | _ => true

/-- For each core, the time of its last FENCE at a scope that covers core u, as a count of performed writes (R56). -/
def State.fencesOver (s : State) (u : Nat) : AMap Nat :=
  s.fences.foldl (fun m f => if inScope (f.1 / 8) (f.1 % 8) u then mset m (f.1 / 8) (max f.2 (mget m (f.1 / 8) 0)) else m) []

/-- Whether a performed write touches the halfword at a location. -/
def Replaced.touches (r : Replaced) (a : Nat) : Bool := r.was.any (fun w => w.1 == a || w.1 == a + 1)

/-- Whether core u's instruction cache drops the halfword at a location when the core answers to later FENCEs, `new` after `old`: a store to it stands before a
FENCE of its own core among these, or it holds bytes of a UO page that a FENCE may have made visible (R56, R124). -/
def State.staleHalf (s : State) (u : Nat) (old new : AMap Nat) (a : Nat) : Bool :=
  let k := s.cluster (clusterOf u)
  let at_ := fun (b : Nat) => b == a || b == a + 1
  (((below s.past.length).zip s.past.reverse).any (fun x => x.2.touches a
      && x.2.core.any (fun v => decide (mget old v 0 ≤ x.1) && decide (x.1 < mget new v 0))))
    || k.uoFenced.any (fun x => at_ x.loc) || k.uoCache.any (fun x => x.2.dirty && at_ x.1) || (s.core u).uoDirty.any (fun x => at_ x.1)

/-- A taken transfer of core u answers to every FENCE that has covered it: from then on it fetches what they have made visible (R56). -/
def Core.refetch (c : Core) (s : State) (u : Nat) : Core :=
  let new := s.fencesOver u
  { c with icache := if new = c.icFrom then c.icache else c.icache.filter (fun x => !s.staleHalf u c.icFrom new x.1), icFrom := new }

/-- Retirement in sequence of core u's instruction. -/
def retireCore (s : State) (u : Nat) : State := s.modCore u (fun c => (c.retireCounts s.now).seqNext c.nextPc)
/-- Retirement of core u's instruction with a transfer of control. -/
def transferCore (s : State) (u : Nat) (target : Word) : State :=
  s.modCore u (fun c => ((c.retireCounts s.now).jump target).refetch s u)

/-- Retirement of the instruction of the core whose turn it is. -/
def retire (s : State) : State := retireCore s s.cur
def transfer (s : State) (target : Word) : State := transferCore s s.cur target

/-- The core parks on a wait; its count toward the watchdog goes on (R352). -/
def parkCore (s : State) (u : Nat) (w : Wait) : State := s.modCore u (fun c => { c with wait := w })

/-- What an instruction of core u leaves when its operation has run from state s. -/
def finish (s : State) (u : Nat) (r : Except Stop (Flow × State)) : State :=
  match r with
  | .ok (.next, s') => retireCore s' u
  | .ok (.goto t, s') => transferCore s' u t
  | .ok (.stay, s') => s'
  | .ok (.trapped t, s') => takeTrap s' u t
  | .error (.trap t) => takeTrap s u t
  | .error (.wait w) => parkCore s u w

/-- The outcome of an instruction of the core whose turn it is. -/
def runM (m : M Flow) (s : State) : Host.Outcome State Fault Refusal := .next (finish s s.cur (m s))

/-- The determinism level of the core's task (R21, R365). -/
def Core.det (c : Core) : Nat := c.ctx.det

end Sys2Proof.Machine
end

