-- ==== Sys2Proof/Machine/Flags.lean ====
section
/-! DEFINITION. The SB2 has no flags: no instruction sets a condition (R63, R68). The sixteen queue conditions, which only
BQS and BQC read, are computed from the core's interfaces (R70) when the branch samples them (R71). -/

namespace Sys2Proof.Machine

/-- Whether a core's inbox or port list holds anything, and whether it is full. -/
def portList (m : AMap (List Msg)) (p : Nat) : List Msg := mget m p []

/-- The value of queue condition q of core u (R70). -/
def queueCond (s : State) (u q : Nat) : Bool :=
  let c := s.core u
  if q = 0 then !c.inbox.isEmpty
  else if q = 1 then c.inbox.length == 16
  else if q ≤ 5 then !(portList c.rxPorts (q - 2)).isEmpty
  else if q ≤ 9 then (portList c.txPorts (q - 6)).length == 4
  else (s.tile (tileOf u)).rs (BitVec.ofNat 4 (q - 10)) != 0

/-- All sixteen conditions of core u, condition q in bit q. -/
def queueConds (s : State) (u : Nat) : BitVec 16 :=
  BitVec.ofNat 16 ((below 16).foldl (fun n q => if queueCond s u q then n + 2 ^ q else n) 0)

/-- The sampled condition q of the BQS or BQC that core u executes, and the state after the sample (R71): the bit that a replay holds; else one taken when the
branch issues, which may be before memory accesses that precede it, and not before an earlier sample. -/
def sampledCond (s : State) (u q : Nat) : Bool × State :=
  match (s.core u).sample, (s.core u).early, s.eager with
  | some b, _, _ => (b.getLsbD q, s)
  | none, some b, false =>
    (if Config.freeBool s.freeCtr then b.getLsbD q else queueCond s u q, s.tickFree.modCore u (fun c => { c with early := none }))
  | none, _, _ => (queueCond s u q, s)

end Sys2Proof.Machine
end

