-- ==== Sys2Proof/Machine/Notify.lean ====
section
/-! DEFINITION. The registers of the notify pages: a queue's of R295 and R300, a die's residency schedule of R113. -/

namespace Sys2Proof.Machine

/-- First physical address of the queues' notify pages and of the schedule notify pages (R113). -/
def notifyBase : Nat := 0xF000000000
def schedBase : Nat := 0xF100000000

/-- What a physical address of the notify aperture names: a queue's page or a die's schedule page, with the offset. -/
inductive Aperture where
  | queue (n off : Nat)
  | sched (d off : Nat)
  | nothing
  deriving DecidableEq, Repr

/-- The page of the notify aperture at a physical address (R113). -/
def apertureOf (pa : Nat) : Aperture :=
  if notifyBase ≤ pa ∧ pa < notifyBase + 65536 * 65536 then .queue ((pa - notifyBase) / 65536) (pa % 65536)
  else if schedBase ≤ pa ∧ pa < schedBase + 4 * 65536 then .sched ((pa - schedBase) / 65536) (pa % 65536)
  else .nothing

/-- Whether a new TAIL lies within the ring's slots ahead of HEAD and not behind the last written TAIL, modulo 2^32. -/
def tailOk (head tail new : BitVec 32) (log : Nat) : Bool :=
  decide ((new - head).toNat ≤ 2 ^ log) && decide ((tail - head).toNat ≤ (new - head).toNat)

/-- A write of TAIL to a queue's notify page (R295): it opens the slots up to the new tail for admission, or sets ERR bit 1;
either way the device tries a waiting completion record again (R300). The hub notes when the store reached it (R20). -/
def queueTail (q : Queue) (v : Word) (now : Nat) : Queue :=
  let new := BitVec.ofNat 32 v.toNat
  let q := { q with blocked := false }
  if tailOk q.head q.tail new q.desc.lslot then { q with tail := new, tails := q.tails ++ [(new, now)] } else { q with err := q.err ||| 2 }

/-- A write of CREAD (R300). -/
def queueCread (q : Queue) (v : Word) : Queue := { q with cread := BitVec.ofNat 32 v.toNat, blocked := false }

/-- A write of STEP to a die's schedule page (R113). -/
def schedStep (d : Die) (v : Word) : Die := if v.toNat < d.step.toNat then { d with err := d.err ||| 1 } else { d with step := v }

/-- A write of TAIL to a die's schedule page (R113). -/
def schedTail (d : Die) (v : Word) : Die :=
  let new := BitVec.ofNat 32 v.toNat
  if tailOk d.head d.tail new d.rslog.toNat then { d with tail := new } else { d with err := d.err ||| 2 }

/-- An aligned 8-byte read in the notify aperture: the value, and the state after its side effects (R26, R113, R295); none where
the page's table lists no such register. -/
def notifyRead (s : State) (pa : Nat) : Option (Word × State) :=
  match apertureOf pa with
  | .queue n off =>
    match mfind s.queues n with
    | some q =>
      if off = 8 then some (word q.head.toNat, s)
      else if off = 16 then some (word q.err.toNat, { s with queues := mset s.queues n { q with err := 0 } })
      else none
    | none => none
  | .sched d off =>
    if off = 16 then some (word (s.die d).head.toNat, s)
    else if off = 24 then some (word (s.die d).err.toNat, s.setDie d { s.die d with err := 0 })
    else none
  | .nothing => none

/-- An aligned 8-byte write in the notify aperture; none where the page's table lists no such register, or before the device
accepts notify writes (R369). -/
def notifyWrite (s : State) (pa : Nat) (v : Word) : Option State :=
  match apertureOf pa with
  | .queue n off =>
    match mfind s.queues n with
    | some q =>
      if s.sys.bring < 6 then none
      else if off = 0 then some { s with queues := mset s.queues n (queueTail q v s.now) }
      else if off = 24 then some { s with queues := mset s.queues n (queueCread q v) }
      else none
    | none => none
  | .sched d off =>
    if s.sys.bring < 6 then none
    else if off = 0 then some (s.setDie d (schedStep (s.die d) v))
    else if off = 8 then some (s.setDie d (schedTail (s.die d) v))
    else none
  | .nothing => none

end Sys2Proof.Machine
end

