-- ==== Sys2Proof/Machine/Numbers.lean ====
section
/-! DEFINITION. The number formats of chapter "Number formats" (R144 to R154): exact values, the one rounding that all
narrowing shares, and exact sums and products. -/

namespace Sys2Proof.Machine

/-! ## Lanes of a vector register -/

/-- Lane j of w bits of 512 bits: bits [w·j+w−1 : w·j] (R102, R168). -/
def laneOf (x : Sector) (w j : Nat) : Nat := x.toNat / 2 ^ (w * j) % 2 ^ w
/-- 512 bits from the lanes of w bits that a function gives, `n` of them, lane 0 in the low bits. -/
def packLanes (w : Nat) (f : Nat → Nat) : Nat → Nat → Nat
  | 0, _ => 0
  | n + 1, j => f j % 2 ^ w + 2 ^ w * packLanes w f n (j + 1)
/-- The register contents that the lanes of w bits given by a function make. -/
def lanes (w : Nat) (f : Nat → Nat) : Sector := BitVec.ofNat 512 (packLanes w f (512 / w) 0)

/-! ## Values -/

/-- The exact value of an element: not a number, an infinity or a zero with its sign, or m × 2^e with m not 0. -/
inductive Num where
  | nan
  | inf (neg : Bool)
  | zero (neg : Bool)
  | fin (m : Int) (e : Int)
  deriving DecidableEq, Repr

/-- What the codes of the top exponent mean (R148, R149): infinities and NaNs, finite numbers alone, or one NaN code. -/
inductive Specials where
  | ieee | finite | oneNan
  deriving DecidableEq, Repr

/-- A floating format: exponent and fraction bits, bias, special codes, the code of the largest finite value and of the canonical
NaN (R145, R148). -/
structure Fmt where
  eb   : Nat
  fb   : Nat
  bias : Int
  spec : Specials
  top  : Nat
  cnan : Nat
  deriving DecidableEq, Repr

def fmtF32 : Fmt := ⟨8, 23, 127, .ieee, 0x7F7FFFFF, 0x7FC00000⟩
def fmtB16 : Fmt := ⟨8, 7, 127, .ieee, 0x7F7F, 0x7FC0⟩
def fmtH16 : Fmt := ⟨5, 10, 15, .ieee, 0x7BFF, 0x7E00⟩
def fmtN8 : Fmt := ⟨4, 3, 7, .finite, 0x7F, 0⟩
def fmtN8S : Fmt := ⟨4, 3, 7, .oneNan, 0x7E, 0x7F⟩
def fmtN8W : Fmt := ⟨5, 2, 15, .ieee, 0x7B, 0x7E⟩
def fmtN4 : Fmt := ⟨2, 1, 1, .finite, 0x7, 0⟩

/-- Width of a format's codes. -/
def Fmt.width (f : Fmt) : Nat := 1 + f.eb + f.fb
/-- Exponent of the last place of the format's subnormals. -/
def Fmt.qmin (f : Fmt) : Int := 1 - f.bias - f.fb
/-- The sign bit as a number. -/
def Fmt.sign (f : Fmt) (neg : Bool) : Nat := if neg then 2 ^ (f.eb + f.fb) else 0

/-- The value of a code (R148 to R150). -/
def Fmt.value (f : Fmt) (code : Nat) : Num :=
  let neg := bitsOf code (f.eb + f.fb) (f.eb + f.fb) == 1
  let e := bitsOf code (f.eb + f.fb - 1) f.fb
  let m := code % 2 ^ f.fb
  let sg : Int := if neg then -1 else 1
  if f.spec = .ieee ∧ e = 2 ^ f.eb - 1 then (if m = 0 then .inf neg else .nan)
  else if f.spec = .oneNan ∧ e = 2 ^ f.eb - 1 ∧ m = 2 ^ f.fb - 1 then .nan
  else if e = 0 then (if m = 0 then .zero neg else .fin (sg * m) f.qmin)
  else .fin (sg * (2 ^ f.fb + m : Nat)) (f.qmin + (e - 1 : Nat))

/-- n / 2^k rounded to nearest, ties to even (R152). -/
def shiftRne (n k : Nat) : Nat :=
  let q := n / 2 ^ k
  let r := n % 2 ^ k
  if 2 * r > 2 ^ k ∨ (2 * r = 2 ^ k ∧ q % 2 = 1) then q + 1 else q

/-- RoundNE of the magnitude n × 2^e to `p` significant bits and a last place no finer than 2^qmin: the result is k × 2^q (R152). -/
def roundMag (p : Nat) (qmin : Int) (n : Nat) (e : Int) : Nat × Int :=
  let q := max ((Nat.log2 n + 1 : Nat) + e - p) qmin
  if q ≤ e then (n * 2 ^ (e - q).toNat, q) else (shiftRne n (q - e).toNat, q)

/-- The code of a rounded magnitude, in a format that had no upper bound on its exponent. -/
def Fmt.codeOf (f : Fmt) (k : Nat) (q : Int) : Nat :=
  let (k, q) := if k = 2 ^ (f.fb + 1) then (2 ^ f.fb, q + 1) else (k, q)
  if k < 2 ^ f.fb then k else (q - f.qmin + 1).toNat * 2 ^ f.fb + (k - 2 ^ f.fb)

/-- The rounded magnitude's code of a finite value. -/
def Fmt.magCode (f : Fmt) (m e : Int) : Nat :=
  let r := roundMag (f.fb + 1) f.qmin m.natAbs e
  f.codeOf r.1 r.2

/-- Narrowing to a format: a value beyond the largest finite one saturates, or becomes the format's special (R152, R153). -/
def Fmt.narrow (f : Fmt) (saturate : Bool) (x : Num) : Nat :=
  let beyond := fun (neg : Bool) =>
    f.sign neg + (if saturate then f.top else match f.spec with | .ieee => (2 ^ f.eb - 1) * 2 ^ f.fb | _ => f.cnan)
  match x with
  | .nan => f.cnan
  | .inf neg => beyond neg
  | .zero neg => f.sign neg
  | .fin m e =>
    let c := f.magCode m e
    if f.top < c then beyond (decide (m < 0)) else f.sign (decide (m < 0)) + c

/-- RNE_F32: overflow gives the infinity of the sign (R137, R171). -/
def rneF32 (x : Num) : Nat := fmtF32.narrow false x
/-- The value of 32 bits as binary32. -/
def f32 (x : Nat) : Num := fmtF32.value x
/-- RNE_F32 with a finite value that would become infinite held at the largest finite one (R156, R159). -/
def clampF32 (x : Num) : Nat :=
  match x with
  | .fin _ _ => fmtF32.narrow true x
  | _ => fmtF32.narrow false x

/-- RoundNE to the integers (R152). -/
def roundInt (m e : Int) : Int :=
  if 0 ≤ e then m * 2 ^ e.toNat
  else (if m < 0 then -1 else 1) * (shiftRne m.natAbs (-e).toNat : Int)

/-- A value rounded to an integer within bounds; infinities clamp, zeros give 0 (R152, R159). -/
def satInt (lo hi : Int) (x : Num) : Int :=
  match x with
  | .nan | .zero _ => 0
  | .inf neg => if neg then lo else hi
  | .fin m e => max lo (min hi (roundInt m e))

/-- An integer as an exact value. -/
def numOfInt (n : Int) : Num := if n = 0 then .zero false else .fin n 0

/-- A value times 2^k, exactly (R147). -/
def Num.scale (x : Num) (k : Int) : Num :=
  match x with
  | .fin m e => .fin m (e + k)
  | y => y

/-- The negated value. -/
def Num.neg : Num → Num
  | .nan => .nan
  | .inf s => .inf (!s)
  | .zero s => .zero (!s)
  | .fin m e => .fin (-m) e

/-- An exact sum; a zero result is −0 only when both terms are −0 (R154). -/
def Num.add : Num → Num → Num
  | .nan, _ => .nan
  | _, .nan => .nan
  | .inf s, .inf t => if s = t then .inf s else .nan
  | .inf s, _ => .inf s
  | _, .inf t => .inf t
  | .zero s, .zero t => .zero (s && t)
  | .zero _, y => y
  | x, .zero _ => x
  | .fin m e, .fin n f =>
    let q := min e f
    let k := m * 2 ^ (e - q).toNat + n * 2 ^ (f - q).toNat
    if k = 0 then .zero false else .fin k q

/-- An exact product (R154, R171). -/
def Num.mul : Num → Num → Num
  | .nan, _ => .nan
  | _, .nan => .nan
  | .inf _, .zero _ => .nan
  | .zero _, .inf _ => .nan
  | .inf s, .inf t => .inf (s != t)
  | .inf s, .fin n _ => .inf (s != decide (n < 0))
  | .fin m _, .inf t => .inf (decide (m < 0) != t)
  | .zero s, .zero t => .zero (s != t)
  | .zero s, .fin n _ => .zero (s != decide (n < 0))
  | .fin m _, .zero t => .zero (decide (m < 0) != t)
  | .fin m e, .fin n f => .fin (m * n) (e + f)

/-- Whether a value is finite. -/
def Num.isFinite : Num → Bool
  | .nan | .inf _ => false
  | _ => true

/-- The sign of x − y for values that are not NaN: −1, 0 or 1; the two zeros are equal (R172). -/
def Num.cmp : Num → Num → Int
  | .nan, _ => 0
  | _, .nan => 0
  | .inf s, .inf t => if s = t then 0 else if s then -1 else 1
  | .inf s, _ => if s then -1 else 1
  | _, .inf t => if t then 1 else -1
  | .zero _, .zero _ => 0
  | .zero _, .fin n _ => if n < 0 then 1 else -1
  | .fin m _, .zero _ => if m < 0 then -1 else 1
  | .fin m e, .fin n f =>
    let q := min e f
    (m * 2 ^ (e - q).toNat - n * 2 ^ (f - q).toNat).sign

/-! ## Sector tags (R144 to R147) -/

/-- Format code and signed scale of a tag. -/
def tagCode (t : Half) : Nat := t.toNat / 256
def tagScale (t : Half) : Int := signedOf 8 t.toNat
/-- A tag from a code and the low 8 bits of a scale. -/
def mkTag (code : Nat) (scale : Int) : Half := BitVec.ofNat 16 (code * 256) ||| (BitVec.ofInt 8 scale).setWidth 16

/-- Element width of a format code that has one: 32, 16, 8 or 4 bits (R104, R145). -/
def codeWidth (c : Nat) : Option Nat :=
  match c with
  | 0x10 => some 32
  | 0x11 | 0x12 => some 16
  | 0x00 | 0x20 | 0x21 | 0x22 | 0x40 => some 8
  | 0x30 => some 4
  | _ => none

/-- Whether a code is one of the table of R145. -/
def codeAllocated (c : Nat) : Bool := (codeWidth c).isSome || c == 0x50 || c == 0x51

/-- A tag that R146 refuses: an unallocated code, or a packed code with a nonzero scale. -/
def tagRefused (t : Half) : Bool :=
  !codeAllocated (tagCode t) || ((tagCode t == 0x50 || tagCode t == 0x51) && tagScale t != 0)

/-- The format of a floating code. -/
def fmtOf (c : Nat) : Option Fmt :=
  match c with
  | 0x10 => some fmtF32
  | 0x11 => some fmtB16
  | 0x12 => some fmtH16
  | 0x20 => some fmtN8
  | 0x21 => some fmtN8S
  | 0x22 => some fmtN8W
  | 0x30 => some fmtN4
  | _ => none

/-- The format value of an element of a numeric code: a float's, or the integer of I8 (R148 to R151). -/
def elemValue (c bits : Nat) : Num :=
  match fmtOf c with
  | some f => f.value bits
  | none => numOfInt (signedOf 8 bits)

/-- The exact value of F32 lane j of a register (R147, R170). -/
def laneF32 (x : VVal) (j : Nat) : Num := (f32 (laneOf x.bits 32 j)).scale (tagScale x.tag)

end Sys2Proof.Machine
end

