-- ==== Sys2Proof/Machine/Memory.lean ====
section
/-! DEFINITION. Memory: its bytes and tags in canonical form, the performing of stores and atomics, replicated pages (R131), the
store buffer (R101) and what a load may return that is performed before its turn (R121). -/

namespace Sys2Proof.Machine

/-! ## Bytes, tags and their canonical form -/

/-- Location of byte 0 of the SRAM of physical cluster 0, and of the tag of sector 0. -/
def sramBase : Nat := 2 ^ 40
def tagBase : Nat := 2 ^ 50
/-- Bytes of one HBM5 stack (R87) and of one cluster's SRAM (R8). -/
def stackSize : Nat := 0x1800000000
def sramSize : Nat := 2 ^ 22

/-- Location of an SRAM byte of a physical cluster. -/
def sramLoc (P off : Nat) : Nat := sramBase + P * sramSize + off
/-- Location of the low byte of a location's sector tag. -/
def tagLoc (a : Nat) : Nat := tagBase + 2 * (a / 64)

/-- The empty future word (R108). -/
def emptyWord : Word := 0x8000000000000000

/-- The byte at a location; an unlisted location reads as 0 (log entry 2). -/
def Memory.peek (m : Memory) (a : Nat) : Byte := mget m.cells a 0
/-- The memory with one byte written, in canonical form: a location that reads as 0 is not listed. -/
def Memory.poke (m : Memory) (a : Nat) (b : Byte) : Memory :=
  { m with cells := if b = 0 then mdel m.cells a else mset m.cells a b }
/-- The canonical form: locations strictly rise and no listed byte is 0. -/
def Memory.wf (m : Memory) : Bool := mwf m.cells && m.cells.all (fun p => p.2 != 0)

/-- The memory with a list of bytes written in order. -/
def Memory.pokes (m : Memory) (ws : List (Nat × Byte)) : Memory := ws.foldl (fun m w => m.poke w.1 w.2) m
/-- The bytes from a location upward, and their little-endian value. -/
def Memory.bytes (m : Memory) (a n : Nat) : List Byte := (upFrom a n).map m.peek
def Memory.nat (m : Memory) (a n : Nat) : Nat := leNat (m.bytes a n)
/-- The sector tag at a location (R94). -/
def Memory.tag (m : Memory) (a : Nat) : Half := BitVec.ofNat 16 (m.nat (tagLoc a) 2)

/-- Writes of a byte list from a location upward. -/
def writesAt (a : Nat) (bs : List Byte) : List (Nat × Byte) := (upFrom a bs.length).zip bs
/-- Writes of a sector tag. -/
def tagWrites (a : Nat) (t : Half) : List (Nat × Byte) := writesAt (tagLoc a) (leBytes 2 t.toNat)

/-- The sector that a location belongs to, for a data byte and for a tag byte alike. -/
def sectorOf (a : Nat) : Nat := if tagBase ≤ a then (a - tagBase) / 2 else a / 64
/-- The locations of a sector: its 64 data bytes and its tag (R15). -/
def sectorLocs (n : Nat) : List Nat := upFrom (64 * n) 64 ++ upFrom (tagBase + 2 * n) 2

/-! ## The links on an access's path (R6, R330) -/

/-- The UCIe modules that send from die d to die e: column first, then row (R6). -/
def routeOf (d e : Nat) : List Nat :=
  (if d % 2 ≠ e % 2 then [4 + 3 * d] else [])
    ++ (if d / 2 ≠ e / 2 then [4 + 3 * (if d % 2 ≠ e % 2 then d ^^^ 1 else d) + 1] else [])

/-- A request goes from die d to die e, or to the hub, number 4, and its response comes back: each module that sends on the way owes a data flit (R6, R328, R338; log
entry 12). -/
def State.roundTrip (s : State) (d e : Nat) : State :=
  (if e = 4 then [4 + 3 * d + 2, d] else routeOf d e ++ routeOf e d).foldl (fun s m => s.setLink m { s.link m with owed := (s.link m).owed + 1 }) s

/-- Whether a module is down: bring-up has trained the links, and no half of it passed (R330, R369). -/
def linkDown (s : State) (m : Nat) : Bool := decide (2 ≤ s.sys.bring) && !(s.link m).up

/-- Whether the path between a die and another die or the hub (number 4), there and back, has a link that is down (R6, R330). -/
def pathDown (s : State) (d e : Nat) : Bool :=
  if e = 4 then linkDown s (4 + 3 * d + 2) || linkDown s d else (routeOf d e ++ routeOf e d).any (linkDown s)

/-- Whether an endpoint is lost, with its device or with the connection to it. -/
def SysNet.isLost (n : SysNet) (e : Nat) : Bool := n.lost.contains e || n.lostConns.contains e

/-- The die of a location's home. -/
def locDie (loc : Nat) : Nat :=
  if tagBase ≤ loc then (loc - tagBase) / 2 * 64 / stackSize / 2
  else if sramBase ≤ loc then (loc - sramBase) / sramSize / 16 else loc / stackSize / 2

/-! ## Performing stores -/

/-- Answers every deferred LDF on a word that a write has left full (R108); a request its core has cancelled is dropped (R109). -/
def answerFutures (s : State) (ws : List (Nat × Byte)) : State :=
  let hit := fun (d : Deferral) =>
    ws.any (fun w => decide (d.loc ≤ w.1) && decide (w.1 < d.loc + 8)) && word (s.mem.nat d.loc 8) != emptyWord
  (s.defers.filter hit).foldl
    (fun s d => match d.core with
      | some u => s.modCore u (fun c => { c with pop := some (.val (word (s.mem.nat d.loc 8))), wait := .none })
      | none => s)
    { s with defers := s.defers.filter (fun d => !hit d) }

/-- Performs writes of a core, or of an engine or the device, with respect to every agent, all at once (R118, R119): what they replaced is kept as the newest
entry of `past`. -/
def performFor (core : Option Nat) (s : State) (ws : List (Nat × Byte)) : State :=
  answerFutures { s with mem := s.mem.pokes ws, past := { core := core, was := ws.map (fun w => (w.1, s.mem.peek w.1)) } :: s.past } ws

/-- Performs writes of an engine or of the device. -/
def performWrites (s : State) (ws : List (Nat × Byte)) : State := performFor none s ws

/-- Bytes that are set anew with no trace of what they held: no load or fetch returns it (R96, R112). -/
def State.renew (s : State) (m : Memory) (p : Nat → Bool) : State :=
  { s with mem := m, past := s.past.map (fun r => { r with was := r.was.filter (fun w => !p w.1) }) }

/-- Drops what the cache of a cluster holds of the UO bytes that meet a condition. -/
def Cluster.dropUo (c : Cluster) (p : Nat → Bool) : Cluster :=
  { c with uoCache := c.uoCache.filter (fun x => !p x.1), uoFenced := c.uoFenced.filter (fun x => !p x.loc) }

/-! ## Loads before their turn (R118, R121) -/

/-- The byte that a location held before the newest `n` performed writes. -/
def State.peekBack (s : State) (n a : Nat) : Byte :=
  (((s.past.take n).reverse.findSome? (fun r => r.was.find? (fun w => w.1 == a))).map (fun w => w.2)).getD (s.mem.peek a)

/-- The earliest point, as a count of performed writes, at which core u may still read the locations [a, a+n): its last acquire, and whatever it
has read or written there since (R101, R118, R126). -/
def State.floorAt (s : State) (u a n : Nat) : Nat :=
  ((s.core u).floors.filter (fun f => decide (f.1 < a + n) && decide (a < f.1 + f.2.1))).foldl (fun m f => max m f.2.2) (s.core u).acq

/-- Core u has read or written [a, a+n) as it stood after `k` performed writes: its later loads of these bytes go back no further (R118). -/
def State.raiseFloor (s : State) (u a n k : Nat) : State :=
  if s.eager then s else s.modCore u (fun c => { c with floors := (a, n, k) :: c.floors })

/-- An acquire of core u: no later load of it is performed before this point (R126). -/
def acquire (s : State) (u : Nat) : State :=
  if s.eager then s else s.modCore u (fun c => { c with acq := s.past.length, floors := [] })

/-- Performs writes of core u: its own later loads see them (R101). -/
def performBy (s : State) (u : Nat) (ws : List (Nat × Byte)) : State :=
  let s := performFor (some u) s ws
  ws.foldl (fun s w => s.raiseFloor u w.1 1 s.past.length) s

/-! ## The sequencer of replicated pages (R88, R131, R132) -/

/-- The location of a replicated byte in the copy of die d, from its location in the home frame (R88). -/
def replicaLoc (d a : Nat) : Nat :=
  if tagBase ≤ a then
    let sec := (a - tagBase) / 2 * 64
    tagLoc ((2 * d + sec / stackSize % 2) * stackSize + sec % stackSize) + (a - tagBase) % 2
  else (2 * d + a / stackSize % 2) * stackSize + a % stackSize

/-- The number that stands for no core in an update of an engine or of a peer device. -/
def noCore : Nat := 2048

/-- Applies a sequenced update to the copy of one die (R131). -/
def applyReplica (s : State) (d core : Nat) (ws : List (Nat × Byte)) : State :=
  performFor (if core < noCore then some core else none) s (ws.map (fun w => (replicaLoc d w.1, w.2)))

/-- The next update, in the sequencer's order, that a die has not applied: it is applied there, and the storing core's buffer
entry leaves when the core's own die has applied it (R131). -/
def applyNext (s : State) (d : Nat) : State :=
  match s.seqOrder.find? (fun x => !x.applied.contains d) with
  | none => s
  | some x =>
    let s := applyReplica s d x.core x.writes
    let x' := { x with applied := d :: x.applied }
    let s := { s with seqOrder := (s.seqOrder.map (fun y => if y.place = x.place then x' else y)).filter
                        (fun y => y.applied.length < 4) }
    if dieOf (clusterOf x.core) = d then
      s.modCore x.core (fun c => { c with storeBuf := c.storeBuf.filter (fun e => e.sent ≠ some x.place) })
    else s

/-- Applies, on die d, the updates whose place lies below `k`. -/
def applyBelow (s : State) (d k : Nat) : State :=
  (s.seqOrder.filter (fun x => decide (x.place < k) && !x.applied.contains d)).foldl (fun s _ => applyNext s d) s

/-- Applies, on every die, all updates that the sequencer has ordered. -/
def applyAll (s : State) : State :=
  (below (4 * s.seqOrder.length)).foldl (fun s k => applyNext s (k % 4)) s

/-- Gives an update its place in the sequencer's order (R131). -/
def sequence (s : State) (core : Nat) (ws : List (Nat × Byte)) : State :=
  { s with seqOrder := s.seqOrder ++ [{ place := s.seqNext, writes := ws, core := core, applied := [] }],
           seqNext := s.seqNext + 1 }

/-- Core u has written or read the updates with places below `k` (R132). -/
def sawUpdates (s : State) (u k : Nat) : State := s.modCore u (fun c => { c with seqSeen := max c.seqSeen k })

/-- An update of core u takes its place, and its own die applies it; a step that performs its requests applies it on every die. -/
def sequenceBy (s : State) (u : Nat) (ws : List (Nat × Byte)) : State :=
  let s := sawUpdates (sequence s u ws) u (s.seqNext + 1)
  if s.eager then applyAll s else applyBelow s (dieOf (clusterOf u)) s.seqNext

/-- Whether every update that core u has written or read has been applied on all dies (R126, R132). -/
def updatesDone (s : State) (u : Nat) : Bool := s.seqOrder.all (fun x => decide ((s.core u).seqSeen ≤ x.place))

/-- Applies the updates that core u has written or read: on its own die, and on every die where the scope reaches beyond it. -/
def applySeen (s : State) (u scope : Nat) : State :=
  let k := (s.core u).seqSeen
  (if 4 ≤ scope then below 4 else [dieOf (clusterOf u)]).foldl (fun s d => applyBelow s d k) s

/-! ## Atomics at the word's home (R134, R137) -/

/-- Size in bytes of an atomic's word. -/
def atomSize : AtomOp → Nat
  | .fadd => 4
  | _ => 8

/-- The new value of the word, or none where ACAS fails; `d` is the expected value of ACAS (R134, R137). -/
def atomApply (op : AtomOp) (old b d : Word) : Option Word :=
  match op with
  | .add => some (old + b)
  | .and => some (old &&& b)
  | .or => some (old ||| b)
  | .xor => some (old ^^^ b)
  | .min => some (if old.toInt ≤ b.toInt then old else b)
  | .max => some (if old.toInt ≤ b.toInt then b else old)
  | .minu => some (if old.toNat ≤ b.toNat then old else b)
  | .maxu => some (if old.toNat ≤ b.toNat then b else old)
  | .swp => some b
  | .fadd => some (word (rneF32 ((f32 (old.toNat % 2 ^ 32)).add (f32 (b.toNat % 2 ^ 32)))))
  | .cas => if old = d then some b else none

/-- The newest update in the sequencer's order, plus one, that a die has applied to some locations of a replicated page; `s.seqNext` counts those that have been
applied on every die and left the list. -/
def replicaSeen (s : State) (d : Nat) (locs : List Nat) : Nat :=
  (s.seqOrder.filter (fun x => x.applied.contains d && x.writes.any (fun w => locs.contains w.1))).foldl (fun m x => max m (x.place + 1)) 0

/-- Performs an atomic of core `core` at its word's home, indivisibly: the old value, and the state with the new one; on a replicated page the
sequencer works on the home copy and orders the new value as an update (R132, R134). A failing ACAS has read the word: later loads of the core go back no
further, and its releases carry the update that it read (R118, R126). -/
def atomicAtHome (s : State) (op : AtomOp) (loc : Nat) (repl : Bool) (core : Nat) (b d : Word) : Word × State :=
  let home := loc / stackSize / 2
  let s := if repl then applyBelow s home s.seqNext else s
  let old := word (s.mem.nat loc (atomSize op))
  match atomApply op old b d with
  | none => (old, if repl then sawUpdates s core (replicaSeen s home (upFrom loc 8)) else s.raiseFloor core loc 8 s.past.length)
  | some v =>
    let ws := writesAt loc (leBytes (atomSize op) v.toNat)
    (old, if repl then (let t := sequenceBy s core ws
                        applyBelow t home t.seqNext)
          else performBy s core ws)

/-- The tag that the home of a word finds: on a replicated page in the home copy, after every update ordered so far (R132, R136). -/
def homeTag (s : State) (repl : Bool) (loc : Nat) : Half := (if repl then applyBelow s (loc / stackSize / 2) s.seqNext else s).mem.tag loc

/-- Whether the sector of a location returns POISON, or lies in a quarantined cluster (R28, R358). -/
def locPoisoned (s : State) (loc : Nat) : Bool :=
  s.mem.poison.contains (loc / 64) ||
    (decide (sramBase ≤ loc) && s.quarCl.contains ((loc - sramBase) / sramSize))

/-- The report of what the home finds for a retired atomic with D = 0, or for a remote store: a late ENGINE_FAULT with SEQ 0 and PC 0 (R135, R334). -/
def lateAtomic (s : State) (u : Nat) (c : Cause) (va : Word) (kid : BitVec 32) : State :=
  postShared s (clusterOf u) (.net (clusterOf u)) (lateRecord s u c.code 0 0 va 0 0 kid)

/-- What an atomic request brings about at its home: the reply, and the state, in which the request and its response have crossed the links between (R135, R138). -/
def homeReply (s : State) (op : AtomOp) (u : Nat) (va : Word) (loc : Nat) (repl : Bool) (b d : Word) : Reply × State :=
  let s := s.roundTrip (dieOf (clusterOf u)) (if repl then 4 else locDie loc)
  if locPoisoned s loc then (.fail .poison 0 va 0 0 0, s)
  else
    let r := atomicAtHome s op loc repl u b d
    (.val r.1, r.2)

/-- What a peer device does with a store, or with an atomic `op`: it performs it, and answers with a value, or with the home's cause, for AFADD the
FORMAT_FAULT of R136 too (R334; log entry 7). -/
def farReply (s : State) (va : Word) (op : Option AtomOp) : Reply × State :=
  let x : Reply := match Config.freeNat s.freeCtr % 5 with
    | 1 => .fail .plbDeny 0 va 0 0 0
    | 2 => .fail .pageFault 0 va 0 0 0
    | 3 => .fail .poison 0 va 0 0 0
    | 4 => if op = some .fadd then .fail .formatFault 0 va 0 0 0 else .val (Config.freeWord s.freeCtr)
    | _ => .val (Config.freeWord s.freeCtr)
  (x, s.tickFree)

/-- The end of a request whose instruction has retired: a cause is reported, or waits for the network interface while that holds a record (R135, R347). -/
def settleLate (s : State) (r : Req) (x : Reply) : State :=
  match x with
  | .val _ => s
  | .fail c _ fa _ _ _ =>
    if s.holdsRecord (.net (clusterOf r.sender)) then { s with reqs := s.reqs ++ [{ r with done := some x }] }
    else lateAtomic s r.sender c fa r.kern.kid

/-- Whether a request goes to another device. -/
def Req.isFar (r : Req) : Bool := match r.kind with | .far _ _ _ => true | _ => false

/-- Whether a request is an atomic, or a remote store, of core u that has retired and is still on its way (R135, R334). -/
def Req.pendingOf (r : Req) (u : Nat) : Bool :=
  r.sender == u && r.d == 0 && r.done.isNone && (match r.kind with | .peek _ _ _ => false | _ => true)

/-- Whether a request's path has a link that is down, or its device is lost; a replicated page's goes by the hub, and so does another device's. An EVPEEK's path
is not judged here (R6, R132, R368). -/
def Req.cut (r : Req) (s : State) : Bool :=
  let d := dieOf (clusterOf r.sender)
  match r.kind with
  | .atomic _ => pathDown s d (if r.repl then 4 else locDie r.loc)
  | .peek _ _ _ => false
  | .far e _ _ => pathDown s d 4 || s.net.isLost e

/-- A request of a retired instruction that is still on its way: performed at its home. One whose path has failed is given up: it completes with POISON, and
whether it has taken effect is unknown (R138). -/
def performPending (s : State) (r : Req) : State :=
  let gone := r.cut s
  let t := if gone then s.tickFree else s
  if gone && Config.freeBool s.freeCtr then settleLate t r (.fail .poison 0 r.va 0 0 0)
  else match r.kind, r.done with
    | .atomic op, none =>
      let x := homeReply t op r.sender r.va r.loc r.repl r.b r.a
      settleLate x.2 r (if gone then .fail .poison 0 r.va 0 0 0 else x.1)
    | .far _ _ op, none =>
      let x := farReply t r.va op
      settleLate x.2 r (if gone then .fail .poison 0 r.va 0 0 0 else x.1)
    | _, _ => s

/-- Performs, in their order, core u's retired atomics and remote stores on their way that meet a condition: what follows them in program order on the same bytes,
on an SO page or behind a release comes after them (R101, R118, R120, R126). -/
def flushWhere (s : State) (u : Nat) (p : Req → Bool) : State :=
  let mine := fun (r : Req) => r.pendingOf u && p r
  (s.reqs.filter mine).foldl performPending { s with reqs := s.reqs.filter (fun r => !mine r) }

/-- Performs core u's retired atomics on their way, and where a scope reaches beyond the package its remote accesses too (R124). -/
def flushTo (s : State) (u scope : Nat) : State := flushWhere s u (fun r => decide (5 ≤ scope) || !r.isFar)

/-- Whether an atomic's doubleword holds one of the locations [a, a+n) or their tag. -/
def Req.touches (r : Req) (a n : Nat) : Bool := !r.isFar && decide (a < r.loc / 8 * 8 + 8) && decide (r.loc / 8 * 8 < a + n)

/-! ## The store buffer (R101) -/

/-- Bytes that a core has stored to UO pages and not yet written back (R122). -/
def Core.uoStore (c : Core) (ws : List (Nat × Byte)) : Core :=
  { c with uoDirty := ws.foldl (fun m w => mset m w.1 w.2) c.uoDirty }

/-- Whether a store stays among its core's UO bytes: one to a UO page, but for a STF, which acts at the word's home (R108, R122). -/
def SbEntry.kept (e : SbEntry) : Bool := e.uo && !e.release

/-- Whether a store's path to its home, or to the hub, has a link that is down (R330). -/
def SbEntry.cut (e : SbEntry) (s : State) (u : Nat) : Bool :=
  !e.kept && e.writes.any (fun w => pathDown s (dieOf (clusterOf u)) (if e.repl then 4 else locDie w.1))

/-- Performs one buffered store of core u: into its own UO bytes, through the sequencer, or in memory; a release after the core's earlier atomics and
after every update it has written or read (R126, R132). A STF to a UO page replaces what its core and its cluster's cache hold of the word (R101, R108). Of a
store whose path has failed it is unknown whether it takes effect (R138, R330). -/
def performEntry (s : State) (u : Nat) (e : SbEntry) : State :=
  let s := if e.release then applySeen (flushWhere s u (fun r => decide (r.since ≤ e.since))) u 4 else s
  if e.cut s u && Config.freeBool s.freeCtr then s.tickFree
  else if e.kept then s.modCore u (fun c => c.uoStore e.writes)
  else if e.repl then sequenceBy s u e.writes
  else if e.uo then
    let mine := fun (a : Nat) => e.writes.any (fun w => w.1 == a)
    performBy ((s.modCluster (clusterOf u) (fun c => c.dropUo mine)).modCore u
      (fun c => { c with uoDirty := c.uoDirty.filter (fun w => !mine w.1) })) u e.writes
  else performBy s u e.writes

/-- Performs the first `n` entries of core u's store buffer, oldest first. -/
def drainFirst (s : State) (u n : Nat) : State :=
  let sb := (s.core u).storeBuf
  (sb.take n).foldl (fun s e => match e.sent with
      | some k => applyBelow s (dieOf (clusterOf u)) (k + 1)
      | none => performEntry s u e)
    (s.modCore u (fun c => { c with storeBuf := sb.drop n }))

/-- Performs every store that waits in core u's store buffer. -/
def drainAll (s : State) (u : Nat) : State := drainFirst s u (s.core u).storeBuf.length

/-- One more than the position of the last entry that meets a condition; 0 if none does. -/
def lastPos (sb : List SbEntry) (p : SbEntry → Bool) : Nat :=
  (sb.zip (upFrom 1 sb.length)).foldl (fun acc x => if p x.1 then x.2 else acc) 0

/-- Performs core u's buffered stores up to the last that meets a condition. -/
def drainThrough (s : State) (u : Nat) (p : SbEntry → Bool) : State := drainFirst s u (lastPos (s.core u).storeBuf p)

/-- Whether an entry writes any of the locations [a, a+n). -/
def SbEntry.touches (e : SbEntry) (a n : Nat) : Bool := e.writes.any (fun w => decide (a ≤ w.1) && decide (w.1 < a + n))

/-- A retired store of core u: performed at once, or put in the 16-entry store buffer, whose oldest entry leaves when it is
full (R101; log entry 6). The core's atomics on the same bytes, or on SO pages before an SO store, are performed first (R101, R120). -/
def storeEntry (s : State) (u : Nat) (e : SbEntry) : State :=
  let s := flushWhere s u (fun r => (e.so && r.so) || (!r.isFar && e.touches (r.loc / 8 * 8) 8))
  if s.eager then performEntry s u e
  else
    let s := if 16 ≤ (s.core u).storeBuf.length then drainFirst s u 1 else s
    s.modCore u (fun c => { c with storeBuf := c.storeBuf ++ [e] })

/-- Whether entry k of core u's store buffer may leave: no earlier entry writes its bytes, SO stores leave in order (R120), and a release waits for every
earlier store and atomic of the core and for every update it has written or read (R126, R132); one whose path has failed waits 2^20 cycles (R138, R330). -/
def canDrain (s : State) (u k : Nat) : Bool :=
  let sb := (s.core u).storeBuf
  match sb[k]? with
  | none => false
  | some e =>
    e.sent.isNone && (!e.cut s u || decide (e.since + 2 ^ 20 ≤ s.now)) && (sb.take k).all (fun x =>
      !e.release && !(e.so && x.so) && x.writes.all (fun w => e.writes.all (fun y => y.1 != w.1)))
    && (!e.release || (updatesDone s u && s.reqs.all (fun r => !(r.pendingOf u && decide (r.since ≤ e.since)))))

end Sys2Proof.Machine
end

