-- ==== Sys2Proof/Machine/Coherence.lean ====
section
/-! DEFINITION. Scopes (R116), pages that caches do not keep coherent (R122, R130), releases and FENCE (R124, R128). A byte of a UO page that its core
has stored and not fenced stands in the core's `uoDirty`; after a FENCE at tile scope in the cluster's `uoFenced` under its tile; after one at cluster scope among the
cluster's copies as a dirty one; and from die scope on at its home. A clean copy was filled with its sector and may be stale (log entry 8). -/

namespace Sys2Proof.Machine

/-! ## Scopes and agents -/

/-- The agent of an access: the core whose buffer and PLB it uses, if it is a core; the tile whose agents' fenced stores it sees, if it is a unit of a
tile; whether it reads through its cluster's cache; the tenant whose rights it needs, none for the device's own accesses; the physical cluster that
the local window means; the clusters renumbered while the access waited, each by its old number and its new one (R97). -/
structure Who where
  core   : Option Nat
  tile   : Option Nat
  near   : Bool
  tenant : Option Nat
  cl     : Nat
  moved  : List (Nat × Nat)
  deriving DecidableEq, Repr

/-- Core u as an agent, with its task's rights. -/
def State.who (s : State) (u : Nat) : Who :=
  { core := some u, tile := some (tileOf u), near := true, tenant := some (s.core u).ctx.tenant, cl := clusterOf u,
    moved := (s.core u).redirect }

/-- An engine of the die or the package, with a task's rights, or the device itself with all rights; the local window means cluster P (R205). -/
def engineWho (tenant : Option Nat) (P : Nat) : Who := { core := none, tile := none, near := false, tenant := tenant, cl := P, moved := [] }
/-- A unit of cluster P beside its cores: the fan-out engine, the Millpond or the scheduler, at cluster scope (R116). -/
def clusterWho (tenant : Option Nat) (P : Nat) : Who := { engineWho tenant P with near := true }
/-- The matrix unit of a tile or its epilogue engine, at tile scope (R116). -/
def tileWho (tenant : Option Nat) (T : Nat) : Who := { clusterWho tenant (T / 8) with tile := some T }

/-- The tiles of a cluster. -/
def tilesOf (P : Nat) : List Nat := upFrom (8 * P) 8

/-- Whether a cluster has a bank in cache mode; without one its accesses go straight to the L2 (R96). -/
def Cluster.hasCache (c : Cluster) : Bool := c.modes.toList.contains 0

/-! ## What an agent sees of a UO byte (R122) -/

/-- The clean and the dirty copy that a cluster's cache holds of a byte. -/
def Cluster.copyOf (c : Cluster) (dirty : Bool) (a : Nat) : Option Byte :=
  match mfind c.uoCache a with
  | some x => if x.dirty = dirty then some x.byte else none
  | none => none

/-- The newest byte that a FENCE at tile scope has made visible in one of some tiles of a cluster. -/
def Cluster.fencedIn (c : Cluster) (ts : List Nat) (a : Nat) : Option Byte :=
  (c.uoFenced.reverse.find? (fun x => x.loc == a && ts.contains x.tile)).map (fun x => x.byte)

/-- A byte of a UO page as an agent finds it beyond its store buffer: its own unfenced store; the newest fenced one of its tile and of the tiles of `others`,
whose stores have become visible early; its cluster's; then, with `stale`, the clean copy in its cluster's cache; then the home. -/
def uoByte (s : State) (w : Who) (stale : Bool) (others : List Nat) (a : Nat) : Byte :=
  let c := s.cluster w.cl
  let first := fun (x y : Option Byte) => match x with | some b => some b | none => y
  let own := match w.core with | some u => mfind (s.core u).uoDirty a | none => none
  let fenced := first own (first (c.fencedIn (w.tile.toList ++ others) a) (if w.near then c.copyOf true a else none))
  ((first fenced (if stale && w.near then c.copyOf false a else none))).getD (s.mem.peek a)

/-- Fills the sectors of some locations into a cluster's cache: every byte that it holds no copy of (R15). -/
def fillSectors (s : State) (P : Nat) (locs : List Nat) : State :=
  let new := (locs.map sectorOf).dedup.flatMap (fun n => (sectorLocs n).filter (fun a => (mfind (s.cluster P).uoCache a).isNone))
  s.modCluster P (fun c => { c with uoCache := new.foldl (fun m a => mset m a ⟨s.mem.peek a, false⟩) c.uoCache })

/-- A core has read bytes of UO pages: a later release or FENCE of it carries them (R124). -/
def Core.saw (c : Core) (ws : List (Nat × Byte)) : Core := { c with uoSeen := ws.foldl (fun m w => mset m w.1 w.2) c.uoSeen }

/-- The bytes at some locations of a UO page, all of one instant (R101): where a clean copy is stale, or other tiles of the cluster hold fenced bytes, a
free choice says which of them the agent sees (R122). -/
def uoBytes (w : Who) (locs : List Nat) : M (List Byte) := fun s =>
  let c := s.cluster w.cl
  let held := (tilesOf w.cl).filter (fun t => w.near && w.tile != some t && c.uoFenced.any (fun x => x.tile == t && locs.contains x.loc))
  let old := w.near && locs.any (fun a => (c.copyOf false a).any (fun b => b != s.mem.peek a))
  let k := Config.freeNat s.freeCtr
  let others := held.filter (fun t => Nat.testBit k (1 + t % 8))
  let stale := old && k % 2 == 1
  let s' := if old || !held.isEmpty then s.tickFree else s
  let bs := locs.map (uoByte s w stale others)
  let s' := if w.near && c.hasCache then fillSectors s' w.cl locs else s'
  .ok (bs, match w.core with | some u => s'.modCore u (fun c => c.saw (locs.zip bs)) | none => s')

/-! ## Write-back (R118, R122, R124, R130) -/

/-- The bytes of UO pages that a cluster holds above the home, for locations that meet a condition: dirty copies, then fenced bytes of its tiles, the newest
last. -/
def heldUo (s : State) (P : Nat) (p : Nat → Bool) : List (Nat × Byte) :=
  (((s.cluster P).uoCache.filter (fun x => x.2.dirty && p x.1)).map (fun x => (x.1, x.2.byte)))
    ++ ((s.cluster P).uoFenced.filter (fun x => p x.loc)).map (fun x => (x.loc, x.byte))

/-- Drops what a cluster holds of the locations that meet a condition. -/
def dropUo (s : State) (P : Nat) (p : Nat → Bool) : State := s.modCluster P (fun c => c.dropUo p)

/-- The dirty sector n of core u leaves its cluster's cache early: its bytes reach their home (R122), and no older copy of the sector stays in the cluster, so
that the core keeps reading its own stores (R101). Fenced and dirty bytes beside them stay. -/
def writeBackSector (s : State) (u n : Nat) : State :=
  let ws := (s.core u).uoDirty.filter (fun w => sectorOf w.1 == n)
  let s := (dropUo s (clusterOf u) (fun a => ws.any (fun w => w.1 == a))).modCluster (clusterOf u)
    (fun k => { k with uoCache := k.uoCache.filter (fun x => x.2.dirty || sectorOf x.1 != n) })
  (performFor (some u) s ws).modCore u (fun c => { c.saw ws with uoDirty := c.uoDirty.filter (fun w => sectorOf w.1 != n) })

/-- What core u and its cluster hold of some locations reaches its home, the core's own stores last (R101, R108). -/
def sendHome (s : State) (u : Nat) (locs : List Nat) : State :=
  let P := clusterOf u
  let ws := heldUo s P locs.contains ++ (s.core u).uoDirty.filter (fun w => locs.contains w.1)
  (performFor (some u) (dropUo s P locs.contains) ws).modCore u
    (fun c => { c.saw ws with uoDirty := c.uoDirty.filter (fun w => !locs.contains w.1) })

/-- Whether a cluster lies in a scope of core u. -/
def clusterInScope (u scope P : Nat) : Bool :=
  if scope ≤ 2 then P == clusterOf u else if scope = 3 then dieOf P == dieOf (clusterOf u) else true

/-- Invalidates, in the caches of the clusters in scope, every clean copy of a sector that is written back, or that holds a byte other than the one the core
has written or read there (R124). -/
def dropCopies (s : State) (u scope : Nat) (secs : List Nat) (seen : AMap Byte) : State :=
  let stale := fun (c : Cluster) => secs ++ (seen.filter (fun x => (c.copyOf false x.1).any (fun b => b != x.2))).map (fun x => sectorOf x.1)
  { s with clusters := s.clusters.map (fun (p : Nat × Cluster) =>
      if clusterInScope u scope p.1 then
        (p.1, { p.2 with uoCache := p.2.uoCache.filter (fun x => x.2.dirty || !(stale p.2).contains (sectorOf x.1)) })
      else p) }

/-- The newest fenced byte of each location that core u has read, where it belongs to another tile: it becomes visible in the core's own tile as well (R124). -/
def fencedSeen (s : State) (u : Nat) : List Fenced :=
  (s.core u).uoSeen.filterMap (fun (w : Nat × Byte) => match (s.cluster (clusterOf u)).uoFenced.reverse.find? (fun x => x.loc == w.1) with
    | some x => if x.tile = tileOf u then none else some { x with tile := tileOf u }
    | none => none)

/-- A cluster after a FENCE at tile scope of a core of tile T: its bytes stand last among the fenced ones, and clean copies of what the core has seen otherwise
are gone. -/
def Cluster.fenceTile (c : Cluster) (T : Nat) (new : List Fenced) (seen : AMap Byte) : Cluster :=
  { c with uoFenced := c.uoFenced.filter (fun x => !(x.tile == T && new.any (fun y => y.loc == x.loc))) ++ new,
           uoCache := c.uoCache.filter (fun x => x.2.dirty || !((mfind seen x.1).any (fun b => b != x.2.byte))) }

/-- Writes back core u's dirty UO bytes, and the fenced ones of other agents that it has read, to the level that serves a scope: its tile's or its cluster's
part of the cluster cache up to cluster scope, where the cluster has a bank in cache mode, and the home otherwise; copies within the scope are
invalidated (R124). -/
def uoWriteBack (s : State) (u scope : Nat) : State :=
  let P := clusterOf u
  let c := s.core u
  let mine := fun (a : Nat) => (mfind c.uoSeen a).isSome || (mfind c.uoDirty a).isSome
  let clean := fun (s : State) => s.modCore u (fun c => { c.saw c.uoDirty with uoDirty := [] })
  if scope = 0 then s
  else if scope ≤ 2 ∧ (s.cluster P).hasCache = true then
    if scope = 1 then
      let T := tileOf u
      let own : List Fenced := c.uoDirty.map (fun w => { tile := T, loc := w.1, byte := w.2 })
      let new := (fencedSeen s u).filter (fun x => (mfind c.uoDirty x.loc).isNone) ++ own
      (clean s).modCluster P (fun k => k.fenceTile T new c.uoSeen)
    else
      let ws := heldUo s P mine ++ c.uoDirty
      (dropUo (clean s) P mine).modCluster P (fun k => { k with uoCache := ws.foldl (fun m w => mset m w.1 ⟨w.2, true⟩) k.uoCache })
  else
    let ws := heldUo s P mine ++ c.uoDirty
    let s := dropCopies (performFor (some u) (dropUo (clean s) P (fun a => mine a && ws.any (fun w => w.1 == a))) ws) u scope
      ((ws.map (fun w => sectorOf w.1)).dedup) c.uoSeen
    if 4 ≤ scope then s.modCore u (fun c => { c with uoSeen := [] }) else s

/-- Everything that is held above the home of the sectors that meet a condition, in the clusters that meet one, reaches its home: stores of cores, fenced bytes
and copies; clean copies are dropped (R130, R208). -/
def flushUo (s : State) (cl sec : Nat → Bool) : State :=
  let hit := fun a => sec (sectorOf a)
  let named : List Nat := s.clusters.map (fun (p : Nat × Cluster) => p.1)
    ++ s.cores.map (fun (p : Nat × Core) => clusterOf p.1)
  let Ps := named.dedup.filter cl
  let ws := Ps.flatMap (fun P => heldUo s P hit)
    ++ List.flatMap (fun (p : Nat × Core) => if cl (clusterOf p.1) then p.2.uoDirty.filter (fun w => hit w.1) else []) s.cores
  let s := Ps.foldl (fun (s : State) P => dropUo s P hit) s
  let s := s.mapCores (fun u c => if cl (clusterOf u) && c.uoDirty.any (fun w => hit w.1) then
      { c.saw (c.uoDirty.filter (fun w => hit w.1)) with uoDirty := c.uoDirty.filter (fun w => !hit w.1) } else c)
  if ws = [] then s else performWrites s ws

/-- An engine's write to a UO page, at package scope: every copy of the sectors it writes is written back or dropped first, so that no agent of the scope keeps
an old value (R130). -/
def engineWriteUo (s : State) (ws : List (Nat × Byte)) : State :=
  let secs := (ws.map (fun w => sectorOf w.1)).dedup
  performWrites (flushUo s (fun _ => true) (fun n => secs.contains n)) ws

/-! ## Releases and FENCE -/

/-- A release of core u's earlier accesses, to pages of every kind, and of every store by another agent that it has read, at a scope (R128): its atomics on
their way, its store buffer, the updates of replicated pages, and its bytes of UO pages. -/
def releaseTo (s : State) (u scope : Nat) : State := uoWriteBack (applySeen (drainAll (flushTo s u scope) u) u scope) u scope

/-- Core u's FENCE at a scope is noted: what the core has stored before it becomes fetchable by a core in scope at that core's next taken transfer (R56, R124). -/
def noteFence (s : State) (u scope : Nat) : State := { s with fences := mset s.fences (8 * u + scope) s.past.length }

/-- FENCE of core u at a scope (R124); at system scope it is the last of the three steps of R91. -/
def fenceAt (s : State) (u scope : Nat) : State :=
  let s := acquire (noteFence (releaseTo s u scope) u scope) u
  if scope = 5 then { s with tcache := s.tcache.filter (fun e => e.stage ≠ 3) } else s

end Sys2Proof.Machine
end

