-- ==== Sys2Proof/Machine/Access.lean ====
section
/-! DEFINITION. Accesses: where an address lands (R86 to R91), protection (R92, R93), the order of checks (R100), and the loads and stores that every
agent shares. -/

namespace Sys2Proof.Machine

/-! ## What an access is and where it lands -/

/-- The kinds of access that R93 tells apart. -/
inductive Acc where
  | load | store | sector | atomic | fetch
  deriving DecidableEq, Repr

/-- Where a piece of an access lands: in memory, in the notify aperture, at another device, or in a window bank that is no
scratchpad or is being switched, or whose cluster is quarantined. -/
inductive Place where
  | mem (loc : Nat)
  | notify (pa : Nat)
  | remote (e : Nat)
  | noBank
  | switching
  | dead
  deriving DecidableEq, Repr

/-- A part of an access that lies on one 64 KiB piece of the address space (R123): its place, and its page's kind (0 SO, 1 RC,
2 UO), typed and replicated flags and domain; and, where a link on the path is down, the die (or 4, the hub) that the path leads to (R330). -/
structure Piece where
  va    : Word
  len   : Nat
  place : Place
  kind  : Nat
  typed : Bool
  repl  : Bool
  dom   : Nat
  cut   : Option Nat
  deriving DecidableEq, Repr

/-! ## Where an address lands (R14, R86) -/

/-- Whether bits [63:56] of an address all equal bit 55 (R14). -/
def canonical (va : Word) : Bool := sext56 va == va

/-- The region of an address: a window with its physical cluster and offset, nothing, or page-mapped (R86). -/
inductive Region where
  | window (P off dom : Nat)
  | nothing
  | mapped
  deriving DecidableEq, Repr

/-- First addresses of the local and the global scratchpad window (R86). -/
def localWin : Nat := 0xFFFFFE0000000000
def globalWin : Nat := 0xFFFFFF0000000000

/-- The region of an address, for an agent of physical cluster P (R86). -/
def regionOf (s : State) (P : Nat) (va : Word) : Region :=
  let n := va.toNat
  if !canonical va then .nothing
  else if n < localWin then .mapped
  else if n < localWin + sramSize then .window P (n - localWin) (4032 + s.logicalNo P)
  else if n < globalWin then .nothing
  else
    match s.physical ((n - globalWin) / sramSize) with
    | some Q => .window Q (n % sramSize) (4032 + (n - globalWin) / sramSize)
    | none => .nothing

/-- Whether an address lies in the local scratchpad window. -/
def inLocalWin (va : Word) : Bool := decide (localWin ≤ va.toNat) && decide (va.toNat < localWin + sramSize)
/-- The local-window address of an offset. -/
def localVa (off : Nat) : Word := word (localWin + off)

/-- The endpoint number of a page-mapped address below 2^55; 0 for the others (R333). -/
def endpointOf (va : Word) : Nat := if bitAt va 55 then 0 else fld va 54 40

/-! ## The page walk (R87, R89, R90, R113) -/

/-- What a walk finds. -/
inductive Walk where
  | leaf (pte : Word) (big : Bool)
  | regen (index : Nat) (big : Bool)
  | fail
  deriving DecidableEq, Repr

/-- Home stack of a page-mapped address, and its home die (R87). -/
def homeStack (va : Word) : Nat := fld va 27 25
def homeDie (va : Word) : Nat := homeStack va / 2
/-- Home L2 slice of a page-mapped address, numbered over the package (R87). -/
def homeSlice (va : Word) : Nat := 32 * homeDie va + 16 * (homeStack va % 2) + fld va 12 9

/-- The frame or table address of an entry (R90). -/
def ptePa (e : Word) : Nat := fld e 47 16 * 65536
def pteKind (e : Word) : Nat := fld e 3 2
def pteDom (e : Word) : Nat := fld e 59 48

/-- Whether physical addresses [pa, pa+n) lie in the HBM5 range. -/
def inHbm (pa n : Nat) : Bool := decide (pa + n ≤ 8 * stackSize)

/-- Whether a leaf may map its frame: on the page's home stack, or in the notify aperture under the conditions of R113. -/
def frameOk (va e : Word) (big : Bool) : Bool :=
  let pa := ptePa e
  let n := if big then 2 ^ 25 else 2 ^ 16
  if inHbm pa n then pa / stackSize == homeStack va && (pa + n - 1) / stackSize == homeStack va
  else !big && apertureOf pa != .nothing && pteKind e == 0 && !bitAt e 4 && !bitAt e 5

/-- One entry of the walk at a level that may map a page of 2^lo bytes; `k` says how the walk goes on below (R89, R90). -/
def walkEntry (va e : Word) (level : Nat) (k : Nat → Walk) : Walk :=
  if fld e 63 60 ≠ 0 ∨ fld e 15 7 ≠ 0 then .fail
  else if !bitAt e 0 then
    if 3 ≤ level ∧ bitAt e 6 = true ∧ fld e 47 32 = 0 ∧ pteKind e ≠ 3 then .regen (fld e 31 16) (level == 3) else .fail
  else if bitAt e 1 then
    if level < 3 ∨ pteKind e = 3 ∨ (level = 3 ∧ fld e 24 16 ≠ 0) ∨ frameOk va e (level == 3) = false then .fail
    else .leaf e (level == 3)
  else if level = 4 ∨ fld e 59 48 ≠ 0 ∨ fld e 6 2 ≠ 0 ∨ inHbm (ptePa e) 4096 = false then .fail
  else k (ptePa e)

/-- The walk from a table, over the index fields of the levels that remain (R89). -/
def walkFrom (m : Memory) (va : Word) : List (Nat × Nat) → Nat → Nat → Walk
  | [], _, _ => .fail
  | (hi, lo) :: rest, level, table =>
    walkEntry va (word (m.nat (table + 8 * fld va hi lo) 8)) level (walkFrom m va rest (level + 1))

/-- The index fields of the five levels (R89). -/
def walkLevels : List (Nat × Nat) := [(55, 52), (51, 43), (42, 34), (33, 25), (24, 16)]

/-- The page walk of an address by its home die, from that die's PTROOT; a regeneration index at or above RGCNT fails (R89, R114). -/
def walk (s : State) (va : Word) : Walk :=
  match walkFrom s.mem va walkLevels 0 (s.die (homeDie va)).ptroot.toNat with
  | .regen i big => if i < (s.die (homeDie va)).rgcnt.toNat then .regen i big else .fail
  | w => w

/-- Whether a held translation covers an address. -/
def TcEntry.covers (e : TcEntry) (va : Word) : Bool :=
  if e.big then va.toNat / 2 ^ 25 == e.page else va.toNat / 2 ^ 16 == e.page

/-- The entry that the page table holds is noted as in use, so that a later change of it needs all three steps of R91; one that goes through its steps
starts again. -/
def noteWalk (s : State) (va : Word) : Walk → State
  | .leaf pte big =>
    let page := if big then va.toNat / 2 ^ 25 else va.toNat / 2 ^ 16
    let e : TcEntry := { page := page, big := big, pte := pte, inval := [], stage := 0 }
    if s.tcache.contains e then s
    else { s with tcache := s.tcache.filter (fun x => !(x.page == page && x.big == big && x.pte == pte)) ++ [e] }
  | _ => s

/-- Translation of a page-mapped address: the walk's leaf, or, where the entry has changed and not all steps of R91 have been
taken, either the old or the new one (R91). An older entry goes on through its steps. -/
def translate (va : Word) : M Walk := fun s =>
  let fresh := walk s va
  let olds := s.tcache.filter (fun e => e.covers va && decide (fresh ≠ .leaf e.pte e.big))
  if olds = [] then .ok (fresh, noteWalk s va fresh)
  else match olds[Config.freeNat s.freeCtr % (olds.length + 1)]? with
    | some e => .ok (.leaf e.pte e.big, s.tickFree)
    | none => .ok (fresh, (noteWalk s va fresh).tickFree)

/-! ## Protection (R92, R93) -/

/-- The rights byte of a tenant for a domain, as the rights table gives it (R92). -/
def State.rightsOf (s : State) (tenant dom : Nat) : Byte := mget s.rights (4096 * tenant + dom) 0

/-- The rights byte that an agent's check uses: a core's PLB, filled from the table on a miss, one of its 32 entries giving way
when it is full (R92); the table itself for an engine; every right for the device's own accesses. -/
def rightsM (w : Who) (dom : Nat) : M Byte := fun s =>
  match w.tenant with
  | none => .ok (0x1F, s)
  | some t =>
    match w.core with
    | none => .ok (s.rightsOf t dom, s)
    | some u =>
      match (s.core u).plb.find? (fun p => p.1 == dom) with
      | some p => .ok (p.2, s)
      | none =>
        let r := s.rightsOf t dom
        if (s.core u).plb.length < 32 then .ok (r, s.modCore u (fun c => { c with plb := c.plb ++ [(dom, r)] }))
        else
          let k := Config.freeNat s.freeCtr % 32
          .ok (r, s.tickFree.modCore u (fun c => { c with plb := dropAt c.plb k ++ [(dom, r)] }))

/-- Whether a rights byte grants an access (R93): RD bit 0, W bit 1, X bit 2, T bit 3, A bit 4. -/
def granted (acc : Acc) (typed : Bool) (r : Byte) : Bool :=
  match acc with
  | .load => r.getLsbD 0
  | .store => r.getLsbD 1
  | .sector => r.getLsbD 1 && (!typed || r.getLsbD 3)
  | .atomic => r.getLsbD 0 && r.getLsbD 1 && r.getLsbD 4
  | .fetch => r.getLsbD 2

/-! ## The checks of R100 -/

/-- The parts of [va, va+len) between 64 KiB boundaries, in ascending order (R123); `n` bounds their number. -/
def splitRange : Nat → Word → Nat → List (Word × Nat)
  | 0, _, _ => []
  | n + 1, va, len =>
    if len = 0 then []
    else
      let room := 65536 - va.toNat % 65536
      if len ≤ room then [(va, len)] else (va, room) :: splitRange n (va + word room) (len - room)

/-- The parts of a range of bytes. -/
def rangeParts (va : Word) (len : Nat) : List (Word × Nat) := splitRange (len / 65536 + 2) va len

/-- Whether a window access reaches a bank of a mode: a core needs scratchpad mode (R96), an engine also reaches FIFO storage
(R192). -/
def bankOpen (core : Bool) (mode : BitVec 2) : Bool := mode == 1 || (!core && mode == 2)

/-- A part whose address exists, as a piece; order 3 of R100 stops at a page that does not translate. A page that waits for its
regeneration holds the access (R111). A replicated page is at hand on every die (R88). -/
def pieceOf (w : Who) (va : Word) (len : Nat) : M Piece := fun s =>
  let cut := fun (e : Nat) => if pathDown s (dieOf w.cl) e then some e else none
  match regionOf s w.cl va with
  | .nothing => .error (.trap (.at .plbDeny va))
  | .window P off dom =>
    let c := s.cluster P
    let place :=
      if s.quarCl.contains P then .dead
      else if c.switching.any (fun x => x.1 == off / 2 ^ 18) then .switching
      else if bankOpen w.core.isSome ((c.modes[off / 2 ^ 18]?).getD 0) then .mem (sramLoc P off) else .noBank
    .ok ({ va := va, len := len, place := place, kind := 1, typed := true, repl := false, dom := dom, cut := cut (dieOf P) }, s)
  | .mapped =>
    let e := endpointOf va
    if e ≠ 0 then
      match (if e = s.net.own then none else mfind s.net.endpoints e) with
      | some x =>
        .ok ({ va := va, len := len, place := .remote e, kind := 1, typed := false, repl := false, dom := x.domain, cut := cut 4 }, s)
      | none => .error (.trap (.at .plbDeny va))
    else
      match translate va s with
      | .error x => .error x
      | .ok (.fail, _) => .error (.trap (.at .pageFault va))
      | .ok (.regen _ _, _) => .error (.wait (.page va))
      | .ok (.leaf pte big, s') =>
        let pa := ptePa pte + va.toNat % (if big then 2 ^ 25 else 2 ^ 16)
        let place := if inHbm pa 1 then .mem pa else .notify pa
        let far := if inHbm pa 1 then (if bitAt pte 5 then none else cut (homeDie va)) else cut 4
        .ok ({ va := va, len := len, place := place, kind := pteKind pte, typed := bitAt pte 4, repl := bitAt pte 5, dom := pteDom pte,
               cut := far }, s')

/-- The pieces of all parts, in order. -/
def piecesOf (w : Who) : List (Word × Nat) → M (List Piece)
  | [] => pure []
  | (va, len) :: t => do
    let p ← pieceOf w va len
    let ps ← piecesOf w t
    pure (p :: ps)

/-- The rights of all pieces (order 4 of R100). A bank that is being switched holds the access (R96). -/
def rightsAll (w : Who) (acc : Acc) : List Piece → M Unit
  | [] => pure ()
  | p :: t => do
    let r ← rightsM w p.dom
    needM (granted acc p.typed r) (.at .plbDeny p.va)
    match p.place with
    | .noBank => trapM (.at .plbDeny p.va)
    | .switching => waitM .banks
    | _ => rightsAll w acc t

/-- The address at which an access goes on: one that named the logical number L through the global window, and waited while its cluster was
renumbered, proceeds under the new number (R97). -/
def redirected (w : Who) (va : Word) : Word :=
  match w.moved.find? (fun x => decide (globalWin ≤ va.toNat) && (va.toNat - globalWin) / sramSize == x.1) with
  | some x => word (globalWin + x.2 * sramSize + va.toNat % sramSize)
  | none => va

/-- Orders 2 to 4 of R100 for parts of the address space: all bytes exist, then all pages translate, then all rights are there. -/
def resolveParts (w : Who) (acc : Acc) (parts : List (Word × Nat)) : M (List Piece) := fun s =>
  match parts.find? (fun p => regionOf s w.cl p.1 == .nothing) with
  | some p => .error (.trap (.at .plbDeny p.1))
  | none => (do let ps ← piecesOf w parts; rightsAll w acc ps; pure ps) s

/-- The same for the range [va, va+len). -/
def resolve (w : Who) (acc : Acc) (va : Word) (len : Nat) : M (List Piece) := fun s =>
  resolveParts w acc (rangeParts (redirected w va) len) s

/-- The location that an agent reads for a byte of a piece: a replicated page's copy on its own die (R88). -/
def Piece.readLoc (p : Piece) (w : Who) (loc : Nat) : Nat := if p.repl then replicaLoc (dieOf w.cl) loc else loc

/-- The first byte of a piece whose sector, in the copy that the agent reads, returns POISON (R358), or any byte of a quarantined cluster (R28, R97). -/
def Piece.poisoned (p : Piece) (s : State) (w : Who) : Option Word :=
  match p.place with
  | .dead => some p.va
  | .mem loc =>
    let a := p.readLoc w loc
    ((upFrom (a / 64) ((a + p.len - 1) / 64 - a / 64 + 1)).find? (fun n => s.mem.poison.contains n)).map
      (fun n => p.va + word (n * 64 - a))
  | _ => none

/-- Order 6 of R100 for a read, part by part. A request whose path has failed waits for it, 2^20 cycles at most, and completes with POISON (R138, R330);
an engine's completes at a free time. -/
def noPoison (w : Who) : List Piece → M Unit
  | [] => pure ()
  | p :: t => fun s =>
    match p.cut with
    | some e =>
      if w.core.isSome || Config.freeBool s.freeCtr then .error (.wait (.path p.va (dieOf w.cl) e s.now)) else .error (.trap (.at .poison p.va))
    | none =>
      match p.poisoned s w with
      | some a => .error (.trap (.at .poison a))
      | none => noPoison w t s

/-- Order 6 for a write: only a quarantined cluster answers POISON. -/
def noDead (ps : List Piece) : M Unit :=
  match ps.find? (fun p => p.place == .dead) with
  | some p => trapM (.at .poison p.va)
  | none => pure ()

/-- Order 5 for a core's write: the descriptor of a ring that the ring table holds is written by the ring hardware alone (R191). -/
def ringGuard (s : State) (loc n : Nat) : Option Nat :=
  if loc < sramBase ∨ tagBase ≤ loc then none
  else
    let P := (loc - sramBase) / sramSize
    let off := (loc - sramBase) % sramSize
    if (s.cluster P).rings.any (fun r => decide (r.addr < off + n) && decide (off < r.addr + 16)) then
      ((s.cluster P).rings.find? (fun r => decide (r.addr < off + n) && decide (off < r.addr + 16))).map
        (fun r => if r.addr ≤ off then 0 else r.addr - off)
    else none

/-- The check of R191 over the pieces of a write; the cause is the core's RING_FAULT or an engine's sub-cause. -/
def ringsFree : List Piece → M Unit
  | [] => pure ()
  | p :: t => fun s =>
    match p.place with
    | .mem loc =>
      match ringGuard s loc p.len with
      | some k => .error (.trap (.at .ringFault (p.va + word k)))
      | none => ringsFree t s
    | _ => ringsFree t s

/-! ## Reading and writing bytes -/

/-- The byte of the youngest buffered store of a core to a location (R101). -/
def Core.buffered (c : Core) (loc : Nat) : Option Byte :=
  c.storeBuf.foldl (fun acc e => match e.writes.find? (fun x => x.1 == loc) with | some x => some x.2 | none => acc) none

/-- How many of the newest performed writes a load of core u of some spans of memory is ahead of: a load of an RC page may be performed before older
accesses of its core, down to the floor of its bytes (R118, R121; log entry 53); in a step that performs its requests it is performed in its turn. -/
def loadAge (u : Nat) (spans : List (Nat × Nat)) : M Nat := fun s =>
  let k := s.past.length - spans.foldl (fun m x => max m (s.floorAt u x.1 x.2)) 0
  if s.eager || k == 0 then .ok (0, s)
  else
    let d := Config.freeNat s.freeCtr % (k + 1)
    .ok (d, spans.foldl (fun s x => s.raiseFloor u x.1 x.2 (s.past.length - d)) s.tickFree)

/-- The runs of consecutive locations of a list: the first and the number of each. -/
def runsOf (locs : List Nat) : List (Nat × Nat) :=
  locs.foldr (fun a l => match l with
    | (b, n) :: t => if a + 1 = b then (a, n + 1) :: t else (a, 1) :: (b, n) :: t
    | [] => [(a, 1)]) []

/-- The bytes of a piece at a list of locations, all of one instant (R101), beyond the store buffer: on an SO page and a replicated page as they stand (R120,
R131), on a UO page as R122 allows, on an RC page from the load's own time (R121). -/
def farBytes (w : Who) (p : Piece) (locs : List Nat) : M (List Byte) := fun s =>
  if p.repl then
    let s' := match w.core with
      | some u => sawUpdates s u (replicaSeen s (dieOf w.cl) locs)
      | none => s
    .ok (locs.map (fun a => s.mem.peek (p.readLoc w a)), s')
  else if p.kind = 2 then uoBytes w locs s
  else match w.core, p.kind == 1 with
    | some u, true =>
      match loadAge u (runsOf locs) s with
      | .ok (d, s') => .ok (locs.map (s.peekBack d), s')
      | .error x => .error x
    | _, _ => .ok (locs.map s.mem.peek, s)

/-- The same as an agent's loads see them: a byte that the core's store buffer holds comes from its youngest store (R101). -/
def seeBytes (w : Who) (p : Piece) (locs : List Nat) : M (List Byte) := do
  let bs ← farBytes w p locs
  let s ← get
  pure (match w.core with
    | some u => (locs.zip bs).map (fun x => ((s.core u).buffered x.1).getD x.2)
    | none => bs)

/-- What a peer device answers to a load: a value, or the home's cause (R334; log entry 7). The network interface takes no response in while it holds a record
(R347). -/
def remoteLoad (w : Who) (va : Word) (len : Nat) : M (List Byte) := do
  let s ← get
  if s.holdsRecord (.net w.cl) then waitM .none
  let k ← freeNatM
  match k % 4 with
  | 1 => trapM (.at .plbDeny va)
  | 2 => trapM (.at .pageFault va)
  | 3 => trapM (.at .poison va)
  | _ =>
    let v ← freeWordM
    pure (leBytes len v.toNat)

/-- Before an agent reads some bytes of a piece: a core's own atomics on them have been performed, and before an SO load its earlier SO stores and atomics
(R101, R120). -/
def beforeRead (s : State) (w : Who) (p : Piece) (loc n : Nat) : State :=
  match w.core with
  | some u =>
    let so := p.kind == 0 && !p.repl
    flushWhere (if so then drainThrough s u (fun e => e.so) else s) u (fun r => (so && r.so) || r.touches loc n)
  | none => s

/-- Reads one piece; an access of a core to an SO page, the notify aperture among them, comes after its earlier SO accesses (R120). -/
def readPiece (w : Who) (p : Piece) : M (List Byte) := fun s =>
  match p.place with
  | .mem loc => seeBytes w p (upFrom loc p.len) (beforeRead s w p loc p.len)
  | .notify pa =>
    if p.len = 8 ∧ pa % 8 = 0 then
      match notifyRead (beforeRead s w p pa p.len) pa with
      | some (v, s') => .ok (leBytes 8 v.toNat, s')
      | none => .error (.trap (.at .plbDeny p.va))
    else .error (.trap (.at .plbDeny p.va))
  | .remote _ => remoteLoad w p.va p.len s
  | _ => .error (.trap (.at .poison p.va))

/-- Reads a sector with its tag, of one instant (R94, R101, R102): on an untyped page the tag is 0x0000. -/
def readSectorPiece (w : Who) (p : Piece) : M (List Byte × Half) := fun s =>
  match p.place, p.typed with
  | .mem loc, true =>
    (do let bs ← seeBytes w p (upFrom loc 64 ++ upFrom (tagLoc loc) 2)
        pure (bs.take 64, BitVec.ofNat 16 (leNat (bs.drop 64)))) (beforeRead s w p loc 64)
  | .remote _, _ =>
    (do let bs ← readPiece w p
        let v ← freeWordM
        pure (bs, BitVec.ofNat 16 v.toNat)) s
  | _, _ => (do let bs ← readPiece w p; pure (bs, 0)) s

/-- Reads pieces in order. -/
def readPieces (w : Who) : List Piece → M (List Byte)
  | [] => pure []
  | p :: t => do
    let b ← readPiece w p
    let bs ← readPieces w t
    pure (b ++ bs)

/-- A load of [va, va+len) by an agent, in the order of R100 (the alignment check is the instruction's). -/
def loadBytes (w : Who) (va : Word) (len : Nat) : M (List Byte) := do
  let ps ← resolve w .load va len
  noPoison w ps
  readPieces w ps

/-- The writes of a piece's bytes, with the tag of its sector where one is written (R94). -/
def pieceWrites (loc : Nat) (bs : List Byte) (tag : Option Half) : List (Nat × Byte) :=
  writesAt loc bs ++ (match tag with | some t => tagWrites loc t | none => [])

/-- Whether an access to endpoint e goes over its ROD connection: an atomic, one to an SO page, which a free choice says of a peer's page, or one of an entry of
that mode (R334). -/
def rodOf (s : State) (e : Nat) (atomic : Bool) : Bool :=
  atomic || ((mfind s.net.endpoints e).map (fun x => x.rodMode)).getD true || Config.freeBool s.freeCtr

/-- A request of core u to endpoint e. -/
def farReq (s : State) (u e : Nat) (op : Option AtomOp) (core : Option Nat) (d : GReg) (va : Word) : Req :=
  { kind := .far e (rodOf s e op.isSome) op, core := core, sender := u, kern := (s.core u).ctx.kern, vt := (s.core u).vt, d := d, va := va, loc := 0,
    repl := false, so := false, tagged := false, release := false, a := 0, b := 0, tag8 := (s.core u).reqTag, since := s.now, done := none }

/-- A request leaves for a peer device, and is counted (R336). -/
def sendFar (s : State) (r : Req) : State := { s.tickFree with reqs := s.reqs ++ [r], net := { s.net with sent := s.net.sent + 1 } }

/-- A store of core u to a peer device, a release (STL) or not: it is on its way, or done at once in a step that performs its requests (R334). -/
def farStore (s : State) (u e : Nat) (va : Word) (release : Bool) : State :=
  let r := { farReq s u e none none 0 va with release := release }
  let s := sendFar s r
  if s.eager then flushWhere s u (fun x => x == r) else s

/-- No instruction cache of the package keeps a halfword of the sectors that an engine writes, in any copy of a replicated page (R130). -/
def dropHalves (s : State) (ws : List (Nat × Byte)) : State :=
  let secs := (ws.map (fun w => sectorOf w.1)).dedup
  s.mapCores (fun _ c => { c with icache := c.icache.filter (fun x => !secs.contains (sectorOf x.1)) })

/-- Writes one piece. A core's store goes through its store buffer; an engine's is performed at once, on every kind of page
(R130). A write of a notify register is a release at system scope, on a peer's memory too where the word is one, which a free choice says there (R295,
R335); and so is a release to a peer (R126). A peer's cause is reported late to the issuing core's supervisor, or stops an engine's command (R213, R334). -/
def writePiece (w : Who) (p : Piece) (bs : List Byte) (tag : Option Half) (release : Bool) : M Unit := fun s =>
  match p.place with
  | .mem loc =>
    let ws := pieceWrites loc bs (if p.typed then tag else none)
    match w.core with
    | some u => .ok ((), storeEntry s u { va := p.va, writes := ws, so := p.kind == 0 && !p.repl, uo := p.kind == 2 && !p.repl,
                                          repl := p.repl, release := release, sent := none, since := s.now })
    | none =>
      let s := dropHalves s ws
      .ok ((), if p.repl then applyAll (sequence s noCore ws) else if p.kind = 2 then engineWriteUo s ws else performWrites s ws)
  | .notify pa =>
    if p.len = 8 ∧ pa % 8 = 0 then
      match notifyWrite (match w.core with | some u => releaseTo s u 5 | none => s) pa (word (leNat bs)) with
      | some s' => .ok ((), s')
      | none => .error (.trap (.at .plbDeny p.va))
    else .error (.trap (.at .plbDeny p.va))
  | .remote e =>
    if s.holdsRecord (.net w.cl) then .error (.wait .none)
    else match w.core with
      | some u =>
        let s := if release || (p.len == 8 && tag.isNone && Config.freeBool s.freeCtr) then releaseTo s.tickFree u 5 else s.tickFree
        .ok ((), farStore s u e p.va release)
      | none =>
        match farReply { s with net := { s.net with sent := s.net.sent + 1 } } p.va none with
        | (.val _, s) => .ok ((), s)
        | (.fail c _ fa _ _ _, _) => .error (.trap (.at c fa))
  | _ => .error (.trap (.at .poison p.va))

/-- Writes pieces in order, each taking its share of the bytes. -/
def writePieces (w : Who) (tag : Option Half) (release : Bool) : List Piece → List Byte → M Unit
  | [], _ => pure ()
  | p :: t, bs => do
    writePiece w p (bs.take p.len) tag release
    writePieces w tag release t (bs.drop p.len)

/-- A store of bytes at va by an agent, in the order of R100. -/
def storeBytes (w : Who) (acc : Acc) (va : Word) (bs : List Byte) (tag : Option Half) (release : Bool) : M Unit := do
  let ps ← resolve w acc va bs.length
  ringsFree ps
  noDead ps
  writePieces w tag release ps bs

/-- The alignment check, order 1 of R100. -/
def aligned (va : Word) (n : Nat) : M Unit := needM (va.toNat % n == 0) (.at .align va)

end Sys2Proof.Machine
end

