-- ==== Sys2Proof/Machine/Operands.lean ====
section
/-! DEFINITION. Operand forms: the second operand of the scalar class, effective addresses, targets, and the memory operands of
the load and store class, each in its one reading (R39, R40, R62, R99, R102). -/

namespace Sys2Proof.Machine

/-- The second operand of a three-register instruction: gB, or the immediate that XI puts in its place (R39, R62). -/
inductive Opnd where
  | reg (b : GReg)
  | imm (v : Word)
  deriving DecidableEq, Repr

/-- The value of a second operand. -/
def State.opnd (s : State) : Opnd → Word
  | .reg b => s.rg b
  | .imm v => v

/-- The effective address gA + off × size, modulo 2^64 (R40, R99). -/
def State.ea (s : State) (a : GReg) (off : Word) (size : Nat) : Word := s.rg a + off * word size

/-- The address of the instruction that runs, and of the one that follows it (R33). -/
def State.pc (s : State) : Word := (s.core s.cur).pc
def State.nextPc (s : State) : Word := (s.core s.cur).nextPc

/-- The target of a branch, jump, FORK or ADDPC: the instruction address plus twice the offset (R40). -/
def State.target (s : State) (off : Word) : Word := s.pc + 2 * off

/-- The core whose turn it is, as an agent. -/
def State.me (s : State) : Who := s.who s.cur

/-- A naturally aligned load of `size` bytes by the core whose turn it is (R99, R100): its little-endian value. -/
def loadScalar (ea : Word) (size : Nat) : M Nat := do
  aligned ea size
  let s ← get
  let bs ← loadBytes s.me ea size
  pure (leNat bs)

/-- A naturally aligned store of the low `size` bytes of a value by the core whose turn it is (R99, R100). -/
def storeScalar (ea : Word) (size : Nat) (v : Word) (release : Bool) : M Unit := do
  aligned ea size
  let s ← get
  storeBytes s.me .store ea (leBytes size v.toNat) none release

/-- A store of 64 bytes with a sector tag by the core whose turn it is (R102). -/
def storeSector (ea : Word) (x : VVal) : M Unit := do
  aligned ea 64
  let s ← get
  storeBytes s.me .sector ea (leBytes 64 x.bits.toNat) (some x.tag) false

/-- A load of 64 bytes with their sector's tag by the core whose turn it is (R102). -/
def loadSector (ea : Word) : M VVal := do
  aligned ea 64
  let s ← get
  let ps ← resolve s.me .load ea 64
  noPoison s.me ps
  match ps with
  | [p] => do
    let r ← readSectorPiece s.me p
    pure ⟨BitVec.ofNat 512 (leNat r.1), r.2⟩
  | _ => trapM (.at .plbDeny ea)

/-- A write of a general register of the core whose turn it is, within an operation. -/
def setG (d : GReg) (v : Word) : M Unit := modify (fun s => s.wg d v)
/-- A write of a vector register of the core whose turn it is, within an operation. -/
def setV (d : VReg) (x : VVal) : M Unit := modify (fun s => s.wv d x)

end Sys2Proof.Machine
end

