-- ==== Sys2Proof/Machine/Control.lean ====
section
/-! DEFINITION. Branches, jumps and the repeat loop (R67 to R80). -/

namespace Sys2Proof.Machine

/-- A branch: transfers to the target when the condition holds, and falls through otherwise (R68). -/
def branch (taken : Bool) (off : Word) (s : State) : Host.Outcome State Fault Refusal :=
  .next (if taken then transfer s (s.target off) else retire s)

def execBeq (a b : GReg) (off : Word) (s : State) := branch (s.rg a == s.rg b) off s
def execBne (a b : GReg) (off : Word) (s : State) := branch (s.rg a != s.rg b) off s
def execBlt (a b : GReg) (off : Word) (s : State) := branch ((s.rg a).slt (s.rg b)) off s
def execBge (a b : GReg) (off : Word) (s : State) := branch (!(s.rg a).slt (s.rg b)) off s
def execBltu (a b : GReg) (off : Word) (s : State) := branch ((s.rg a).ult (s.rg b)) off s
def execBgeu (a b : GReg) (off : Word) (s : State) := branch (!(s.rg a).ult (s.rg b)) off s
/-- BQS and BQC sample their condition once (R69, R71). -/
def execBqs (q : QReg) (off : Word) (s : State) :=
  let x := sampledCond s s.cur q.toNat
  branch x.1 off x.2
def execBqc (q : QReg) (off : Word) (s : State) :=
  let x := sampledCond s s.cur q.toNat
  branch (!x.1) off x.2

/-- J (R74). -/
def execJ (off : Word) (s : State) : Host.Outcome State Fault Refusal := .next (transfer s (s.target off))
/-- JAL links through g1 (R74). -/
def execJal (off : Word) (s : State) : Host.Outcome State Fault Refusal :=
  .next (transfer (s.wg 1 s.nextPc) (s.target off))

/-- JR reads its target before it writes the link; an odd target raises ALIGN and links nothing (R75). -/
def execJr (d a : GReg) (s : State) : Host.Outcome State Fault Refusal :=
  if bitAt (s.rg a) 0 then .next (takeTrap s s.cur (.at .align (s.rg a)))
  else .next (transfer (s.wg d s.nextPc) (s.rg a))

/-- REP (R78): a REP inside a body raises ILLEGAL_OP; a count of 0 selects the skipping state. -/
def execRep (a : GReg) (n : BitVec 7) (s : State) : Host.Outcome State Fault Refusal :=
  if !(s.core s.cur).loopIdle then .next (takeTrap s s.cur (.plain .illegalOp))
  else .next (s.modCore s.cur (fun c =>
    { c.retireCounts s.now with lcnt := c.rg a, lbeg := sext56 c.nextPc, lend := word (2 * n.toNat + 1), pc := c.nextPc,
                                from_ := 0 }))

end Sys2Proof.Machine
end

