-- ==== Sys2Proof/Machine/Convert.lean ====
section
/-! DEFINITION. The conversion class (R155 to R163). -/

namespace Sys2Proof.Machine

/-- The bit mask of the indices below n that meet a condition. -/
def maskOf (n : Nat) (p : Nat → Bool) : Nat := (below n).foldl (fun acc j => if p j then acc + 2 ^ j else acc) 0

/-- The trap of a set of bad lanes: the lowest lane, and the mask of all of them (R158, R173). -/
def laneTrap (c : Cause) (lane mask : Nat) : Trap := { cause := c, lane := BitVec.ofNat 4 lane, data := word mask }

/-- FORMAT_FAULT of the core whose turn it is. -/
def formatTrap : Trap := .plain .formatFault

/-- Ends an instruction that computes a vector register or traps. -/
def finishV (d : VReg) (r : Except Trap VVal) (s : State) : Host.Outcome State Fault Refusal :=
  match r with
  | .ok x => .next (retire (s.wv d x))
  | .error t => .next (takeTrap s s.cur t)

/-- Ends an instruction that computes a general register or traps. -/
def finishG (d : GReg) (r : Except Trap Word) (s : State) : Host.Outcome State Fault Refusal :=
  match r with
  | .ok x => .next (retire (s.wg d x))
  | .error t => .next (takeTrap s s.cur t)

/-- VWID (R156): elements 16·part to 16·part+15 of a register, widened to F32. -/
def widen (x : VVal) (part : Nat) : Except Trap VVal :=
  let c := tagCode x.tag
  match codeWidth c with
  | some w =>
    if c = 0 ∨ 512 / w ≤ 16 * part then .error formatTrap
    else .ok ⟨lanes 32 (fun j => clampF32 ((elemValue c (laneOf x.bits w (16 * part + j))).scale (tagScale x.tag))), 0x1000⟩
  | none => .error formatTrap

/-- The target of a narrowing: a floating format, saturating or not, or I8 (R157). -/
inductive Narrowing where
  | float (f : Fmt) (code : Nat) (saturate : Bool)
  | int8
  deriving DecidableEq, Repr

/-- Target code and element width. -/
def Narrowing.code : Narrowing → Nat
  | .float _ c _ => c
  | .int8 => 0x40
def Narrowing.width : Narrowing → Nat
  | .float f _ _ => f.width
  | .int8 => 8
/-- Whether the target has no NaN, so that a NaN lane raises FP_INVALID. -/
def Narrowing.noNan : Narrowing → Bool
  | .float f _ _ => f.spec == .finite
  | .int8 => true
/-- The narrowed element. -/
def Narrowing.elem (n : Narrowing) (x : Num) : Nat :=
  match n with
  | .float f _ sat => f.narrow sat x
  | .int8 => (BitVec.ofInt 8 (satInt (-128) 127 x)).toNat

/-- The one operation of the eight narrowings (R157, R158). A code 0x50 or 0x51 that vD held before does not count at scale 0 (log entry 69). -/
def narrow (n : Narrowing) (d a : VVal) (part : Nat) : Except Trap VVal :=
  if tagCode a.tag ≠ 0x10 ∨ tagRefused d.tag = true then .error formatTrap
  else
    let x := fun j => (f32 (laneOf a.bits 32 j)).scale (tagScale a.tag - tagScale d.tag)
    let bad := fun j => n.noNan && x j == .nan
    match (below 16).find? bad with
    | some j => .error (laneTrap .fpInvalid j (maskOf 16 bad))
    | none =>
      .ok ⟨lanes n.width (fun k => if k / 16 = part then n.elem (x (k % 16)) else laneOf d.bits n.width k),
           mkTag n.code (tagScale d.tag)⟩

/-- VFI32 (R159). -/
def toInt32 (a : VVal) : Except Trap VVal :=
  if tagCode a.tag ≠ 0x10 then .error formatTrap
  else
    let bad := fun j => laneF32 a j == .nan
    match (below 16).find? bad with
    | some j => .error (laneTrap .fpInvalid j (maskOf 16 bad))
    | none => .ok ⟨lanes 32 (fun j => (BitVec.ofInt 32 (satInt (-2 ^ 31) (2 ^ 31 - 1) (laneF32 a j))).toNat), 0⟩

/-- VIF32 (R159). -/
def ofInt32 (a : VVal) : Except Trap VVal :=
  if tagCode a.tag ≠ 0 then .error formatTrap
  else .ok ⟨lanes 32 (fun j => clampF32 ((numOfInt (signedOf 32 (laneOf a.bits 32 j))).scale (tagScale a.tag))), 0x1000⟩

/-- VSCL (R160). -/
def rescale (a : VVal) (b : Word) : Except Trap VVal :=
  let c := tagCode a.tag
  let k := tagScale a.tag + b.toInt
  if (codeWidth c).isNone ∨ k < -128 ∨ 127 < k then .error formatTrap else .ok ⟨a.bits, mkTag c k⟩

/-- VTAG (R160). -/
def retag (a : VVal) (b : Word) : Except Trap VVal :=
  if b.toNat / 65536 ≠ 0 ∨ tagRefused (BitVec.ofNat 16 b.toNat) = true then .error formatTrap
  else .ok ⟨a.bits, BitVec.ofNat 16 b.toNat⟩

/-- Lane width of a register that VPACKZ and VEXPZ accept (R161). -/
def packWidth (a : VVal) : Option Nat :=
  match codeWidth (tagCode a.tag) with
  | some 4 => none
  | w => w

/-- VPACKZ (R161): the masked nonzero elements, in order, then zeros. -/
def packNonzero (a : VVal) (b : Word) : Except Trap VVal :=
  match packWidth a with
  | some w =>
    let kept := ((below (512 / w)).filter (fun j => bitAt b j && laneOf a.bits w j != 0)).map (laneOf a.bits w)
    .ok ⟨lanes w (fun k => kept.getD k 0), a.tag⟩
  | none => .error formatTrap

/-- VEXPZ (R161): the elements in order, at the masked places. -/
def expandMask (a : VVal) (b : Word) : Except Trap VVal :=
  match packWidth a with
  | some w => .ok ⟨lanes w (fun j => if bitAt b j then laneOf a.bits w ((below j).countP (bitAt b)) else 0), a.tag⟩
  | none => .error formatTrap

def execVwid (d a : VReg) (p : BitVec 4) (s : State) := finishV d (widen (s.rv a) p.toNat) s
def execVnb16 (d a : VReg) (p : BitVec 4) (s : State) :=
  finishV d (narrow (.float fmtB16 0x11 false) (s.rv d) (s.rv a) p.toNat) s
def execVnh16S (d a : VReg) (p : BitVec 4) (s : State) :=
  finishV d (narrow (.float fmtH16 0x12 true) (s.rv d) (s.rv a) p.toNat) s
def execVnh16X (d a : VReg) (p : BitVec 4) (s : State) :=
  finishV d (narrow (.float fmtH16 0x12 false) (s.rv d) (s.rv a) p.toNat) s
def execVn8S (d a : VReg) (p : BitVec 4) (s : State) :=
  finishV d (narrow (.float fmtN8 0x20 true) (s.rv d) (s.rv a) p.toNat) s
def execVn8X (d a : VReg) (p : BitVec 4) (s : State) :=
  finishV d (narrow (.float fmtN8S 0x21 false) (s.rv d) (s.rv a) p.toNat) s
def execVn8wS (d a : VReg) (p : BitVec 4) (s : State) :=
  finishV d (narrow (.float fmtN8W 0x22 true) (s.rv d) (s.rv a) p.toNat) s
def execVn4S (d a : VReg) (p : BitVec 4) (s : State) :=
  finishV d (narrow (.float fmtN4 0x30 true) (s.rv d) (s.rv a) p.toNat) s
def execVni8S (d a : VReg) (p : BitVec 4) (s : State) := finishV d (narrow .int8 (s.rv d) (s.rv a) p.toNat) s
def execVfi32 (d a : VReg) (s : State) := finishV d (toInt32 (s.rv a)) s
def execVif32 (d a : VReg) (s : State) := finishV d (ofInt32 (s.rv a)) s
def execVscl (d a : VReg) (b : GReg) (s : State) := finishV d (rescale (s.rv a) (s.rg b)) s
def execVtag (d a : VReg) (b : GReg) (s : State) := finishV d (retag (s.rv a) (s.rg b)) s
/-- VGTAG writes the tag, zero-extended (R160). -/
def execVgtag (d : GReg) (a : VReg) (s : State) : Host.Outcome State Fault Refusal :=
  .next (retire (s.wg d (word (s.rv a).tag.toNat)))
def execVpackz (d a : VReg) (b : GReg) (s : State) := finishV d (packNonzero (s.rv a) (s.rg b)) s
def execVexpz (d a : VReg) (b : GReg) (s : State) := finishV d (expandMask (s.rv a) (s.rg b)) s

end Sys2Proof.Machine
end

