-- ==== Sys2Proof/Decode.lean ====
section
/-! DEFINITION. Decoding of halfwords into instructions (R33 to R56), total and rejecting by name, and the encoder
written from the same tables. -/

namespace Sys2Proof

/-- Why a sequence of halfwords is no legal instruction (R38, R51, R52), or that it ends too early. -/
inductive DecodeError where
  | fifthPrefix | repeatedXr | repeatedPg | repeatedFn | xiNotContiguous | xrReserved | pgReserved | fnUnassigned
  | unallocated | fieldNotZero | xiRefused | xrRefused | pgRefused | fnRefused | fnMissing | registerBeyondFile | literalIllegal
  | pairIllegal | truncated
  deriving DecidableEq, Repr

/-- The prefixes gathered before the governed word: how many, the XI payloads in address order, whether another prefix
has followed an XI, and the payloads of XR, PG and FN. -/
structure Prefixes where
  count  : Nat
  xis    : List Nat
  closed : Bool
  xr     : Option Nat
  pg     : Option Nat
  fn     : Option CpFn
  deriving DecidableEq, Repr

/-- No prefix yet. -/
def Prefixes.none : Prefixes := ⟨0, [], false, .none, .none, .none⟩

/-- The function that an FN payload names, fn7 in [9:3] and the engine in [2:0] (R37, R204). -/
def cpFnOf (payload : Nat) : Option CpFn :=
  match bitsOf payload 2 0, bitsOf payload 9 3 with
  | 0, 0 => some .copy
  | 0, 1 => some .copyf
  | 0, 2 => some .copym
  | 0, 3 => some .gath
  | 0, 4 => some .scat
  | 0, 5 => some .fill
  | 0, 6 => some .wback
  | 0, 7 => some .inval
  | 1, 0 => some .subs
  | 1, 1 => some .unsubs
  | 1, 2 => some .pull
  | 1, 3 => some .pullf
  | _, _ => .none

/-- The payload of FN for a function (R204). -/
def cpFnPayload : CpFn → Nat
  | .copy => 0 | .copyf => 8 | .copym => 16 | .gath => 24 | .scat => 32 | .fill => 40 | .wback => 48 | .inval => 56
  | .subs => 1 | .unsubs => 9 | .pull => 17 | .pullf => 25

/-- What one more halfword makes of the prefixes so far. -/
inductive DecStep where
  | more (p : Prefixes)
  | done (i : Instr) (len : Nat)
  | bad (e : DecodeError)
  deriving DecidableEq, Repr

/-- One more prefix word, judged on its own (R38, R52). -/
def takePrefix (p : Prefixes) (op payload : Nat) : Except DecodeError Prefixes :=
  if 4 ≤ p.count then .error .fifthPrefix
  else match op with
    | 60 =>
      if p.closed then .error .xiNotContiguous
      else .ok { p with count := p.count + 1, xis := p.xis ++ [payload] }
    | 61 =>
      if p.xr.isSome then .error .repeatedXr
      else if bitsOf payload 3 0 ≠ 0 then .error .xrReserved
      else .ok { p with count := p.count + 1, xr := some payload, closed := !p.xis.isEmpty }
    | 62 =>
      if p.pg.isSome then .error .repeatedPg
      else if bitsOf payload 9 2 ≠ 0 then .error .pgReserved
      else .ok { p with count := p.count + 1, pg := some payload, closed := !p.xis.isEmpty }
    | _ =>
      if p.fn.isSome then .error .repeatedFn
      else match cpFnOf payload with
        | .none => .error .fnUnassigned
        | some f => .ok { p with count := p.count + 1, fn := some f, closed := !p.xis.isEmpty }

/-! ## Fields of the governed word (R35, R41) -/

/-- XR's two high bits for the D, A and B fields; 0 without XR. -/
def xrD (p : Prefixes) : Nat := bitsOf (p.xr.getD 0) 9 8
def xrA (p : Prefixes) : Nat := bitsOf (p.xr.getD 0) 7 6
def xrB (p : Prefixes) : Nat := bitsOf (p.xr.getD 0) 5 4

/-- Fields [9:7], [6:4], [3:1] and [0] of a governed word. -/
def fD (w : Nat) : Nat := bitsOf w 9 7
def fA (w : Nat) : Nat := bitsOf w 6 4
def fB (w : Nat) : Nat := bitsOf w 3 1
def fZ (w : Nat) : Nat := bitsOf w 0 0

/-- A general register from a high part and a field. -/
def gOf (hi f : Nat) : GReg := BitVec.ofNat 5 (8 * hi + f)

/-- A vector register (v16 to v31 refused, R45). -/
def vOf (hi f : Nat) : Except DecodeError VReg :=
  if 2 ≤ hi then .error .registerBeyondFile else .ok (BitVec.ofNat 4 (8 * hi + f))

/-- A semaphore (s16 to s31 refused, R45). -/
def sOf (hi f : Nat) : Except DecodeError SReg :=
  if 2 ≤ hi then .error .registerBeyondFile else .ok (BitVec.ofNat 4 (8 * hi + f))

/-- A handle, accumulator, store index or port field: XR's high bits for it must be 0 (R44, R45). -/
def lowOnly (hi f : Nat) : Except DecodeError (BitVec 3) :=
  if hi ≠ 0 then .error .registerBeyondFile else .ok (BitVec.ofNat 3 f)

/-- A port literal: 0 to 3 (R45). -/
def portOf (hi f : Nat) : Except DecodeError (BitVec 2) :=
  if hi ≠ 0 then .error .registerBeyondFile
  else if 4 ≤ f then .error .literalIllegal
  else .ok (BitVec.ofNat 2 f)

/-- Refuses the instruction unless a condition holds. -/
def need (e : DecodeError) (b : Bool) : Except DecodeError Unit := if b then .ok () else .error e

/-- XI on an opcode that refuses it (R46 to R49). -/
def noXi (p : Prefixes) : Except DecodeError Unit := need .xiRefused p.xis.isEmpty

/-- Any XR on an instruction with no field that XR may widen (R41). -/
def noXr (p : Prefixes) : Except DecodeError Unit := need .xrRefused p.xr.isNone

/-- A field that must be 0, with its XR high bits. -/
def zeroField (hi f : Nat) : Except DecodeError Unit := need .fieldNotZero (hi == 0 && f == 0)

/-- XR high bits of a field that the form does not have. -/
def zeroHigh (hi : Nat) : Except DecodeError Unit := need .xrRefused (hi == 0)

/-- XI(1) : … : XI(n) : field, as an unsigned number. -/
def immBits (xis : List Nat) (f field : Nat) : Nat := xis.foldl (fun acc x => acc * 1024 + x) 0 * 2 ^ f + field

/-- The immediate of R39, sign-extended from its top bit. -/
def immOf (p : Prefixes) (f field : Nat) : Word := sext64 (10 * p.xis.length + f) (immBits p.xis f field)

/-- A literal that its instruction's entry allows (R50). -/
def lit (ok : Bool) : Except DecodeError Unit := need .literalIllegal ok

/-- The CSR numbers of R365. -/
def csrNumbers : List Nat := [0x00, 0x01, 0x02, 0x03, 0x04, 0x08, 0x09, 0x0A, 0x0B, 0x10, 0x11, 0x12, 0x13, 0x18, 0x19, 0x1A]

/-- The causes that software may raise (R363). -/
def causeAllowed (c : Nat) : Bool := c == 0x0F || (0x40 ≤ c && c ≤ 0x7F)

/-- The selectors of EVSTAT (R280). -/
def evstatSel (x : Nat) : Bool := x == 0 || x == 1 || (8 ≤ x && x ≤ 23)

/-! ## Forms -/

/-- R3 with gD, gA and gB or an immediate (R62). -/
def formAlu (p : Prefixes) (w : Nat) (r0 r1 : GReg → GReg → GReg → Instr) (i0 i1 : GReg → GReg → Word → Instr) :
    Except DecodeError Instr := do
  let d := gOf (xrD p) (fD w)
  let a := gOf (xrA p) (fA w)
  if p.xis.isEmpty then
    let b := gOf (xrB p) (fB w)
    .ok (if fZ w = 0 then r0 d a b else r1 d a b)
  else
    zeroHigh (xrB p)
    let i := immOf p 3 (fB w)
    .ok (if fZ w = 0 then i0 d a i else i1 d a i)

/-- R3 with gD, gA and B = 0 (R65). -/
def formOne (p : Prefixes) (w : Nat) (k0 k1 : GReg → GReg → Instr) : Except DecodeError Instr := do
  noXi p
  zeroField (xrB p) (fB w)
  let d := gOf (xrD p) (fD w)
  let a := gOf (xrA p) (fA w)
  .ok (if fZ w = 0 then k0 d a else k1 d a)

/-- MOV and JR (R65, R75): JR takes no prefix but XR, so that a PG before it, which names page 0, is refused (log entry 52). -/
def formMoveJump (p : Prefixes) (w : Nat) : Except DecodeError Instr := do
  need .pgRefused (fZ w == 0 || p.pg.isNone)
  formOne p w .mov .jr

/-- DI with gD and an immediate (R66). -/
def formImm (p : Prefixes) (w : Nat) (k : GReg → Word → Instr) : Except DecodeError Instr := do
  zeroHigh (xrA p)
  zeroHigh (xrB p)
  .ok (k (gOf (xrD p) (fD w)) (immOf p 7 (bitsOf w 6 0)))

/-- B2: gA in [9:7], gB in [6:4], an offset (R67). -/
def formBranch (p : Prefixes) (w : Nat) (k : GReg → GReg → Word → Instr) : Except DecodeError Instr := do
  zeroHigh (xrD p)
  .ok (k (gOf (xrA p) (bitsOf w 9 7)) (gOf (xrB p) (bitsOf w 6 4)) (immOf p 4 (bitsOf w 3 0)))

/-- R2I with gD, gA and an offset (R98). -/
def formMem (p : Prefixes) (w : Nat) (k : GReg → GReg → Word → Instr) : Except DecodeError Instr := do
  zeroHigh (xrB p)
  .ok (k (gOf (xrD p) (fD w)) (gOf (xrA p) (fA w)) (immOf p 4 (bitsOf w 3 0)))

/-- R2I with vD, gA and an offset (R102). -/
def formVMem (p : Prefixes) (w : Nat) (k : VReg → GReg → Word → Instr) : Except DecodeError Instr := do
  zeroHigh (xrB p)
  let d ← vOf (xrD p) (fD w)
  .ok (k d (gOf (xrA p) (fA w)) (immOf p 4 (bitsOf w 3 0)))

/-- R3 with three general registers and no XI (R133). -/
def formG3 (p : Prefixes) (w : Nat) (k0 k1 : GReg → GReg → GReg → Instr) : Except DecodeError Instr := do
  noXi p
  let d := gOf (xrD p) (fD w)
  let a := gOf (xrA p) (fA w)
  let b := gOf (xrB p) (fB w)
  .ok (if fZ w = 0 then k0 d a b else k1 d a b)

/-- R2I with vD, vA and #part up to a bound (R155). -/
def formPart (p : Prefixes) (w top : Nat) (k : VReg → VReg → BitVec 4 → Instr) : Except DecodeError Instr := do
  noXi p
  zeroHigh (xrB p)
  let d ← vOf (xrD p) (fD w)
  let a ← vOf (xrA p) (fA w)
  lit (decide (bitsOf w 3 0 ≤ top))
  .ok (k d a (BitVec.ofNat 4 (bitsOf w 3 0)))

/-- R3 with vD, vA and vB (R167). -/
def formV3 (p : Prefixes) (w : Nat) (k : VReg → VReg → VReg → Instr) : Except DecodeError Instr := do
  noXi p
  let d ← vOf (xrD p) (fD w)
  let a ← vOf (xrA p) (fA w)
  let b ← vOf (xrB p) (fB w)
  .ok (k d a b)

/-- R3 with vD, vA and gB (R155). -/
def formVVG (p : Prefixes) (w : Nat) (k : VReg → VReg → GReg → Instr) : Except DecodeError Instr := do
  noXi p
  let d ← vOf (xrD p) (fD w)
  let a ← vOf (xrA p) (fA w)
  .ok (k d a (gOf (xrB p) (fB w)))

/-- R3 with vD, vA and B = 0. -/
def formV2 (p : Prefixes) (w : Nat) (k : VReg → VReg → Instr) : Except DecodeError Instr := do
  noXi p
  zeroField (xrB p) (fB w)
  let d ← vOf (xrD p) (fD w)
  let a ← vOf (xrA p) (fA w)
  .ok (k d a)

/-- R3 with gD, vA and B = 0. -/
def formGV (p : Prefixes) (w : Nat) (k : GReg → VReg → Instr) : Except DecodeError Instr := do
  noXi p
  zeroField (xrB p) (fB w)
  let a ← vOf (xrA p) (fA w)
  .ok (k (gOf (xrD p) (fD w)) a)

/-- R3 with gD, hA and gB (R195). -/
def formRing (p : Prefixes) (w : Nat) (k : GReg → HReg → GReg → Instr) : Except DecodeError Instr := do
  noXi p
  let a ← lowOnly (xrA p) (fA w)
  .ok (k (gOf (xrD p) (fD w)) a (gOf (xrB p) (fB w)))

/-- R3 with hA, gB and D = 0 (R195). -/
def formAdv (p : Prefixes) (w : Nat) (k : HReg → GReg → Instr) : Except DecodeError Instr := do
  noXi p
  zeroField (xrD p) (fD w)
  let a ← lowOnly (xrA p) (fA w)
  .ok (k a (gOf (xrB p) (fB w)))

/-- R3 with sD, gA and B = 0 (R195). -/
def formSem (p : Prefixes) (w : Nat) (k : SReg → GReg → Instr) : Except DecodeError Instr := do
  noXi p
  zeroField (xrB p) (fB w)
  let d ← sOf (xrD p) (fD w)
  .ok (k d (gOf (xrA p) (fA w)))

/-- R3 with hD, gA and gB (RBIND, EOUT). -/
def formHGG (p : Prefixes) (w : Nat) (k : HReg → GReg → GReg → Instr) : Except DecodeError Instr := do
  noXi p
  let d ← lowOnly (xrD p) (fD w)
  .ok (k d (gOf (xrA p) (fA w)) (gOf (xrB p) (fB w)))

/-- R3 with two accumulator or handle fields and B = 0; any XR is refused (R41). -/
def formT2 (p : Prefixes) (w : Nat) (k : BitVec 3 → BitVec 3 → Instr) : Except DecodeError Instr := do
  noXi p
  noXr p
  zeroField 0 (fB w)
  .ok (k (BitVec.ofNat 3 (fD w)) (BitVec.ofNat 3 (fA w)))

/-- R3 with S in D, gA and B = 0 (R273). -/
def formDecl (p : Prefixes) (w : Nat) (k : BitVec 3 → GReg → Instr) : Except DecodeError Instr := do
  noXi p
  zeroField (xrB p) (fB w)
  let s ← lowOnly (xrD p) (fD w)
  .ok (k s (gOf (xrA p) (fA w)))

/-- R3 with S in D, gA and gB (R273). -/
def formUpd (p : Prefixes) (w : Nat) (k : BitVec 3 → GReg → GReg → Instr) : Except DecodeError Instr := do
  noXi p
  let s ← lowOnly (xrD p) (fD w)
  .ok (k s (gOf (xrA p) (fA w)) (gOf (xrB p) (fB w)))

/-- R3 with gA alone: D = 0 and B = 0. -/
def formA (p : Prefixes) (w : Nat) (k : GReg → Instr) : Except DecodeError Instr := do
  noXi p
  zeroField (xrD p) (fD w)
  zeroField (xrB p) (fB w)
  .ok (k (gOf (xrA p) (fA w)))

/-- R3 with gD alone: A = 0 and B = 0. -/
def formD (p : Prefixes) (w : Nat) (k : GReg → Instr) : Except DecodeError Instr := do
  noXi p
  zeroField (xrA p) (fA w)
  zeroField (xrB p) (fB w)
  .ok (k (gOf (xrD p) (fD w)))

/-- DI with gD and a literal in [6:0]. -/
def formSel (p : Prefixes) (w : Nat) (ok : Nat → Bool) (k : GReg → BitVec 7 → Instr) : Except DecodeError Instr := do
  noXi p
  zeroHigh (xrA p)
  zeroHigh (xrB p)
  lit (ok (bitsOf w 6 0))
  .ok (k (gOf (xrD p) (fD w)) (BitVec.ofNat 7 (bitsOf w 6 0)))

/-- Z form with no operands: [9:0] = 0, no XI and no XR. -/
def formZ (p : Prefixes) (w : Nat) (i : Instr) : Except DecodeError Instr := do
  noXi p
  noXr p
  need .fieldNotZero (bitsOf w 9 0 == 0)
  .ok i

/-- The R3 opcode of an OP that allocates Z = 0 alone. -/
def z0 (w : Nat) (r : Except DecodeError Instr) : Except DecodeError Instr :=
  if fZ w = 0 then r else .error .unallocated

/-- The two opcodes of an R3 OP. -/
def zz (w : Nat) (r0 r1 : Except DecodeError Instr) : Except DecodeError Instr := if fZ w = 0 then r0 else r1

/-- The even base register of a pair (R105). -/
def pairOk (a : GReg) : Except DecodeError Unit := need .pairIllegal (a.toNat % 2 == 0 && a != 0)

/-- Page 0 (R46). -/
def decodePage0 (p : Prefixes) (w : Nat) : Except DecodeError Instr :=
  match bitsOf w 15 10 with
  | 0 => formAlu p w .add .sub .addImm .subImm
  | 1 => formAlu p w .mul .mulh .mulImm .mulhImm
  | 2 => formAlu p w .div .divu .divImm .divuImm
  | 3 => formAlu p w .rem .sel .remImm .selImm
  | 4 => formAlu p w .and .or .andImm .orImm
  | 5 => formAlu p w .xor .sra .xorImm .sraImm
  | 6 => formAlu p w .shl .shr .shlImm .shrImm
  | 7 => formAlu p w .min .max .minImm .maxImm
  | 8 => formAlu p w .slt .sltu .sltImm .sltuImm
  | 9 => formOne p w .clz .popc
  | 10 => formMoveJump p w
  | 11 => formImm p w .li
  | 12 => formImm p w .addpc
  | 13 => formBranch p w .beq
  | 14 => formBranch p w .bne
  | 15 => formBranch p w .blt
  | 16 => formBranch p w .bge
  | 17 => formBranch p w .bltu
  | 18 => formBranch p w .bgeu
  | 19 => do noXr p; .ok (.bqs (BitVec.ofNat 4 (bitsOf w 9 6)) (immOf p 6 (bitsOf w 5 0)))
  | 20 => do noXr p; .ok (.bqc (BitVec.ofNat 4 (bitsOf w 9 6)) (immOf p 6 (bitsOf w 5 0)))
  | 21 => do noXr p; .ok (.j (immOf p 10 (bitsOf w 9 0)))
  | 22 => do noXr p; .ok (.jal (immOf p 10 (bitsOf w 9 0)))
  | 23 => do
    noXi p; zeroHigh (xrD p); zeroHigh (xrB p); lit (bitsOf w 6 0 != 0)
    .ok (.rep (gOf (xrA p) (bitsOf w 9 7)) (BitVec.ofNat 7 (bitsOf w 6 0)))
  | 24 => formMem p w .ldB
  | 25 => formMem p w .ldH
  | 26 => formMem p w .ldW
  | 27 => formMem p w .ldD
  | 28 => formMem p w .lduB
  | 29 => formMem p w .lduH
  | 30 => formMem p w .lduW
  | 31 => formMem p w .stB
  | 32 => formMem p w .stH
  | 33 => formMem p w .stW
  | 34 => formMem p w .stD
  | 35 => formVMem p w .ldv
  | 36 => formVMem p w .stv
  | 37 => zz w
    (do noXi p; zeroField (xrB p) (fB w); let d ← vOf (xrD p) (fD w)
        let a := gOf (xrA p) (fA w); pairOk a; .ok (.ldvx d a))
    (do noXi p; zeroField (xrD p) (fD w); let b ← vOf (xrB p) (fB w)
        let a := gOf (xrA p) (fA w); pairOk a; .ok (.stvp a b))
  | 38 => formMem p w .ldf
  | 39 => formMem p w .stf
  | 40 => do
    noXi p; noXr p; need .fieldNotZero (bitsOf w 9 3 == 0); lit (decide (bitsOf w 2 0 ≤ 5))
    .ok (.fence (BitVec.ofNat 3 (bitsOf w 2 0)))
  | 41 => formMem p w .lda
  | 42 => formMem p w .stl
  | 43 => formG3 p w .aadd .aand
  | 44 => formG3 p w .aor .axor
  | 45 => formG3 p w .amin .amax
  | 46 => formG3 p w .aminu .amaxu
  | 47 => formG3 p w .aswp .afadd
  | 48 => formG3 p w .acas .waita
  | _ => .error .unallocated

/-- Page 1 (R47). -/
def decodePage1 (p : Prefixes) (w : Nat) : Except DecodeError Instr :=
  match bitsOf w 15 10 with
  | 0 => formPart p w 7 .vwid
  | 1 => formPart p w 1 .vnb16
  | 2 => formPart p w 1 .vnh16S
  | 3 => formPart p w 1 .vnh16X
  | 4 => formPart p w 3 .vn8S
  | 5 => formPart p w 3 .vn8X
  | 6 => formPart p w 3 .vn8wS
  | 7 => formPart p w 7 .vn4S
  | 8 => formPart p w 3 .vni8S
  | 9 => zz w (formV2 p w .vfi32) (formV2 p w .vif32)
  | 10 => zz w (formVVG p w .vscl) (formVVG p w .vtag)
  | 11 => z0 w (formGV p w .vgtag)
  | 12 => zz w (formVVG p w .vpackz) (formVVG p w .vexpz)
  | 13 => zz w (formV3 p w .vfadd) (formV3 p w .vfsub)
  | 14 => zz w (formV3 p w .vfmul) (formV3 p w .vfma)
  | 15 => zz w (formV3 p w .vfmat) (formV2 p w .vfred)
  | 16 => zz w (formV3 p w .vfmin) (formV3 p w .vfmax)
  | 17 => zz w (formV3 p w .vfcmp) (formV3 p w .vcmpb)
  | 18 => zz w (formV3 p w .vadd) (formV3 p w .vmul)
  | 19 => zz w (formV3 p w .vand) (formV3 p w .vor)
  | 20 => zz w (formV3 p w .vxor) (formV3 p w .vsh)
  | 21 => zz w (formV3 p w .vminu) (formV3 p w .vmaxu)
  | 22 => zz w
    (do noXi p; let a ← vOf (xrA p) (fA w); let b ← vOf (xrB p) (fB w)
        .ok (.vfind (gOf (xrD p) (fD w)) a b))
    (formGV p w .vhash)
  | 23 => zz w (formVVG p w .vnfa) (formV3 p w .vperm)
  | 24 => do
    noXi p; zeroHigh (xrB p); let d ← vOf (xrD p) (fD w); lit (decide (bitsOf w 3 0 ≤ 6))
    .ok (.vbcast d (gOf (xrA p) (fA w)) (BitVec.ofNat 4 (bitsOf w 3 0)))
  | 25 => do
    noXi p; zeroHigh (xrB p); let a ← vOf (xrA p) (fA w)
    .ok (.vext (gOf (xrD p) (fD w)) a (BitVec.ofNat 4 (bitsOf w 3 0)))
  | _ => .error .unallocated

/-- MLDB and MLDB.L: L in [9], hB in [8:6], gA in [5:3], [2:0] = 0 (R231). -/
def decodeMldb (p : Prefixes) (w : Nat) : Except DecodeError Instr := do
  noXi p
  zeroHigh (xrD p)
  let b ← lowOnly (xrB p) (bitsOf w 8 6)
  need .fieldNotZero (bitsOf w 2 0 == 0)
  let a := gOf (xrA p) (bitsOf w 5 3)
  .ok (if bitsOf w 9 9 = 0 then .mldb b a else .mldbL b a)

/-- CP with the function that FN names (R204). -/
def decodeCp (p : Prefixes) (w : Nat) (f : CpFn) : Except DecodeError Instr := do
  noXi p
  let y := bitsOf w 0 0 == 1
  let d := gOf (xrD p) (fD w)
  need .fieldNotZero (y || d == 0)
  need .literalIllegal (y || f != .subs)
  .ok (.cp f y d (gOf (xrA p) (fA w)) (gOf (xrB p) (fB w)))

/-- Page 2 (R48). -/
def decodePage2 (p : Prefixes) (w : Nat) : Except DecodeError Instr :=
  match bitsOf w 15 10 with
  | 0 => match p.fn with
    | some f => decodeCp p w f
    | .none => .error .fnMissing
  | 1 => zz w (formHGG p w .rbind) (formRing p w .rslot)
  | 2 => zz w (formRing p w .rwait) (formRing p w .rwaitf)
  | 3 => zz w (formAdv p w .radvh) (formAdv p w .radvt)
  | 4 => zz w (formSem p w .spost) (formSem p w .swait)
  | 5 => z0 w (do
      noXi p; let a ← sOf (xrA p) (fA w)
      .ok (.stryw (gOf (xrD p) (fD w)) a (gOf (xrB p) (fB w))))
  | 6 => decodeMldb p w
  | 7 => do noXi p; noXr p; .ok (.msel (BitVec.ofNat 3 (fD w)) (BitVec.ofNat 7 (bitsOf w 6 0)))
  | 8 => zz w
    (do noXi p; noXr p; zeroField 0 (fA w); zeroField 0 (fB w); .ok (.mz (BitVec.ofNat 3 (fD w))))
    (formT2 p w .macc)
  | 9 => zz w (formT2 p w .mmaN4) (formT2 p w .mmaN8)
  | 10 => zz w (formT2 p w .mmaW16) (formT2 p w .mmaL)
  | 11 => zz w
    (do noXi p; noXr p; zeroField 0 (fD w); zeroField 0 (fB w); .ok (.mdrn (BitVec.ofNat 3 (fA w))))
    (formHGG p w .eoutN8)
  | 12 => zz w (formHGG p w .eoutF32) (formHGG p w .eoutB16)
  | 13 => zz w (formDecl p w .evdecl) (formDecl p w .evdrop)
  | 14 => zz w (formUpd p w .evupd) (formUpd p w .evupdt)
  | 15 => zz w (formUpd p w .evfan)
    (do noXi p; let s ← lowOnly (xrB p) (fB w)
        .ok (.evpeek (gOf (xrD p) (fD w)) (gOf (xrA p) (fA w)) s))
  | 16 => formSel p w evstatSel .evstat
  | 17 => formZ p w .evdone
  | 18 => zz w (formA p w .vtset) (formD p w .vtget)
  | 19 => z0 w (formD p w .vtlow)
  | _ => .error .unallocated

/-- Page 3 (R49). -/
def decodePage3 (p : Prefixes) (w : Nat) : Except DecodeError Instr :=
  match bitsOf w 15 10 with
  | 0 => zz w
    (do noXi p; zeroField (xrB p) (fB w); .ok (.spawn (gOf (xrD p) (fD w)) (gOf (xrA p) (fA w))))
    (formA p w .join)
  | 1 => do noXr p; .ok (.fork (immOf p 10 (bitsOf w 9 0)))
  | 2 => formZ p w .exit
  | 3 => formZ p w .yield
  | 4 => formZ p w .gbar
  | 5 => zz w (formA p w .ebset) (formA p w .ebclr)
  | 6 => zz w (formA p w .ebwait) (formD p w .tpath)
  | 7 => formSel p w (fun x => decide (x ≤ 6)) .gid
  | 8 => zz w
    (do noXi p; zeroField (xrD p) (fD w); let b ← vOf (xrB p) (fB w); .ok (.send (gOf (xrA p) (fA w)) b))
    (do noXi p; zeroField (xrA p) (fA w); let q ← portOf (xrD p) (fD w); let b ← vOf (xrB p) (fB w)
        .ok (.sendp q b))
  | 9 => zz w
    (do noXi p; zeroField (xrA p) (fA w); zeroField (xrB p) (fB w); let d ← vOf (xrD p) (fD w); .ok (.recv d))
    (do noXi p; zeroField (xrA p) (fA w); let q ← portOf (xrB p) (fB w); let d ← vOf (xrD p) (fD w)
        .ok (.recvp d q))
  | 10 => do
    noXi p; noXr p; zeroField 0 (fD w); lit (causeAllowed (bitsOf w 6 0))
    .ok (.trap (BitVec.ofNat 7 (bitsOf w 6 0)))
  | 11 => formSel p w (fun x => csrNumbers.contains x) .csrr
  | 12 => formSel p w (fun x => csrNumbers.contains x) (fun d c => .csrw c d)
  | 13 => z0 w (formA p w .stow)
  | 14 => formZ p w .halt
  | _ => .error .unallocated

/-- The governed word under its prefixes: FN belongs to CP alone (R43), PG selects the page (R42). -/
def decodeGoverned (p : Prefixes) (w : Nat) : Except DecodeError Instr :=
  let page := p.pg.getD 0
  if p.fn.isSome && !(page == 2 && bitsOf w 15 10 == 0) then .error .fnRefused
  else match page with
    | 0 => decodePage0 p w
    | 1 => decodePage1 p w
    | 2 => decodePage2 p w
    | _ => decodePage3 p w

/-- One more halfword of an instruction (R34, R52). -/
def decodeNext (p : Prefixes) (w : Half) : DecStep :=
  let op := bitsOf w.toNat 15 10
  if 60 ≤ op then
    match takePrefix p op (bitsOf w.toNat 9 0) with
    | .ok p' => .more p'
    | .error e => .bad e
  else
    match decodeGoverned p w.toNat with
    | .ok i => .done i (2 * (p.count + 1))
    | .error e => .bad e

/-- The instruction at the head of a list of halfwords, with its length in bytes, after the prefixes already seen. -/
def decodeFrom : Prefixes → List Half → Except DecodeError (Instr × Nat)
  | _, [] => .error .truncated
  | p, w :: t =>
    match decodeNext p w with
    | .more p' => decodeFrom p' t
    | .done i len => .ok (i, len)
    | .bad e => .error e

/-- The instruction at the head of a list of halfwords. -/
def decode (ws : List Half) : Except DecodeError (Instr × Nat) := decodeFrom Prefixes.none ws

/-- Halfwords of a byte list, little-endian (R33). -/
def halvesOf : List Byte → List Half
  | b0 :: b1 :: t => BitVec.ofNat 16 (b0.toNat + 256 * b1.toNat) :: halvesOf t
  | _ => []

/-- The halfwords, in memory order, of an opcode-table word of 16 or 32 bits: the table writes a prefix above the governed
word, so bits [31:16] are the first word in memory (log entry 9). -/
def tableHalves (nbits w : Nat) : List Half :=
  if nbits ≤ 16 then [BitVec.ofNat 16 w] else [BitVec.ofNat 16 (w >>> 16), BitVec.ofNat 16 w]

/-- The instruction that the decoder reads from an opcode-table word. -/
def decodeTableWord (nbits w : Nat) : Option Instr :=
  match decode (tableHalves nbits w) with
  | .ok (i, _) => some i
  | .error _ => .none

/-! ## Encoding -/

/-- What an instruction's words hold: page, FN payload, XR high bits of D, A and B, XI payloads, governed word. -/
structure Enc where
  page : Nat
  fn   : Option Nat
  xd   : Nat
  xa   : Nat
  xb   : Nat
  xis  : List Nat
  word : Nat
  deriving DecidableEq, Repr

/-- Whether a value fits in `w` bits as a signed number (R39). -/
def fits (w : Nat) (v : Word) : Bool := sext64 w v.toNat == v

/-- The fewest XIs, from `least`, that hold a value beside a field of `f` bits (R38, R379). -/
def xiCount (f least : Nat) (v : Word) : Nat := ((upFrom least 5).find? (fun n => fits (10 * n + f) v)).getD 4

/-- The payloads of `n` XIs above a field of `f` bits, most significant first (R39). -/
def xiPayloads : Nat → Nat → Nat → List Nat
  | 0, _, _ => []
  | n + 1, f, v => bitsOf v (10 * n + f + 9) (10 * n + f) :: xiPayloads n f v

/-- The XI payloads of a value. -/
def xisOf (f least : Nat) (v : Word) : List Nat := xiPayloads (xiCount f least v) f v.toNat

/-- High and low part of a 5-bit register number. -/
def hi5 (r : GReg) : Nat := r.toNat / 8
def lo5 (r : GReg) : Nat := r.toNat % 8
/-- High and low part of a 4-bit register number. -/
def hi4 (r : BitVec 4) : Nat := r.toNat / 8
def lo4 (r : BitVec 4) : Nat := r.toNat % 8

/-- A governed R3 word (R35). -/
def r3 (op d a b z : Nat) : Nat := op * 1024 + d * 128 + a * 16 + b * 2 + z
/-- A governed R2I or B2 word. -/
def r2i (op d a i : Nat) : Nat := op * 1024 + d * 128 + a * 16 + i
/-- A governed DI word. -/
def di (op d i : Nat) : Nat := op * 1024 + d * 128 + i
/-- A governed J word. -/
def jw (op i : Nat) : Nat := op * 1024 + i

/-- The low `f` bits of a value. -/
def lowBits (f : Nat) (v : Word) : Nat := v.toNat % 2 ^ f

def encAlu (op z : Nat) (d a b : GReg) : Enc := ⟨0, .none, hi5 d, hi5 a, hi5 b, [], r3 op (lo5 d) (lo5 a) (lo5 b) z⟩
def encAluI (op z : Nat) (d a : GReg) (v : Word) : Enc :=
  ⟨0, .none, hi5 d, hi5 a, 0, xisOf 3 1 v, r3 op (lo5 d) (lo5 a) (lowBits 3 v) z⟩
def encGG (page op z : Nat) (d a : GReg) : Enc := ⟨page, .none, hi5 d, hi5 a, 0, [], r3 op (lo5 d) (lo5 a) 0 z⟩
def encDI (op : Nat) (d : GReg) (v : Word) : Enc := ⟨0, .none, hi5 d, 0, 0, xisOf 7 0 v, di op (lo5 d) (lowBits 7 v)⟩
def encB2 (op : Nat) (a b : GReg) (v : Word) : Enc :=
  ⟨0, .none, 0, hi5 a, hi5 b, xisOf 4 0 v, r2i op (lo5 a) (lo5 b) (lowBits 4 v)⟩
def encMem (op : Nat) (d a : GReg) (v : Word) : Enc :=
  ⟨0, .none, hi5 d, hi5 a, 0, xisOf 4 0 v, r2i op (lo5 d) (lo5 a) (lowBits 4 v)⟩
def encVMem (op : Nat) (d : VReg) (a : GReg) (v : Word) : Enc :=
  ⟨0, .none, hi4 d, hi5 a, 0, xisOf 4 0 v, r2i op (lo4 d) (lo5 a) (lowBits 4 v)⟩
def encPart (op : Nat) (d a : VReg) (p : BitVec 4) : Enc := ⟨1, .none, hi4 d, hi4 a, 0, [], r2i op (lo4 d) (lo4 a) p.toNat⟩
def encV3 (op z : Nat) (d a b : VReg) : Enc := ⟨1, .none, hi4 d, hi4 a, hi4 b, [], r3 op (lo4 d) (lo4 a) (lo4 b) z⟩
def encV2 (op z : Nat) (d a : VReg) : Enc := ⟨1, .none, hi4 d, hi4 a, 0, [], r3 op (lo4 d) (lo4 a) 0 z⟩
def encVVG (op z : Nat) (d a : VReg) (b : GReg) : Enc := ⟨1, .none, hi4 d, hi4 a, hi5 b, [], r3 op (lo4 d) (lo4 a) (lo5 b) z⟩
def encGV (op z : Nat) (d : GReg) (a : VReg) : Enc := ⟨1, .none, hi5 d, hi4 a, 0, [], r3 op (lo5 d) (lo4 a) 0 z⟩
def encRing (op z : Nat) (d : GReg) (a : HReg) (b : GReg) : Enc :=
  ⟨2, .none, hi5 d, 0, hi5 b, [], r3 op (lo5 d) a.toNat (lo5 b) z⟩
def encAdv (z : Nat) (a : HReg) (b : GReg) : Enc := ⟨2, .none, 0, 0, hi5 b, [], r3 3 0 a.toNat (lo5 b) z⟩
def encSem (z : Nat) (d : SReg) (a : GReg) : Enc := ⟨2, .none, hi4 d, hi5 a, 0, [], r3 4 (lo4 d) (lo5 a) 0 z⟩
def encHGG (op z : Nat) (d : HReg) (a b : GReg) : Enc := ⟨2, .none, 0, hi5 a, hi5 b, [], r3 op d.toNat (lo5 a) (lo5 b) z⟩
def encT2 (op z : Nat) (d a : BitVec 3) : Enc := ⟨2, .none, 0, 0, 0, [], r3 op d.toNat a.toNat 0 z⟩
def encMldb (l : Nat) (b : HReg) (a : GReg) : Enc := ⟨2, .none, 0, hi5 a, 0, [], 6144 + l * 512 + b.toNat * 64 + lo5 a * 8⟩
def encSel (page op : Nat) (d : GReg) (x : BitVec 7) : Enc := ⟨page, .none, hi5 d, 0, 0, [], di op (lo5 d) x.toNat⟩
def encA (page op z : Nat) (a : GReg) : Enc := ⟨page, .none, 0, hi5 a, 0, [], r3 op 0 (lo5 a) 0 z⟩
def encD (page op z : Nat) (d : GReg) : Enc := ⟨page, .none, hi5 d, 0, 0, [], r3 op (lo5 d) 0 0 z⟩
def encZ (page op : Nat) : Enc := ⟨page, .none, 0, 0, 0, [], op * 1024⟩

/-- The words of an instruction as R46 to R49 lay them out; the steps of other agents have none. -/
def encOf : Instr → Option Enc
  | .add d a b => some (encAlu 0 0 d a b)
  | .addImm d a v => some (encAluI 0 0 d a v)
  | .sub d a b => some (encAlu 0 1 d a b)
  | .subImm d a v => some (encAluI 0 1 d a v)
  | .mul d a b => some (encAlu 1 0 d a b)
  | .mulImm d a v => some (encAluI 1 0 d a v)
  | .mulh d a b => some (encAlu 1 1 d a b)
  | .mulhImm d a v => some (encAluI 1 1 d a v)
  | .div d a b => some (encAlu 2 0 d a b)
  | .divImm d a v => some (encAluI 2 0 d a v)
  | .divu d a b => some (encAlu 2 1 d a b)
  | .divuImm d a v => some (encAluI 2 1 d a v)
  | .rem d a b => some (encAlu 3 0 d a b)
  | .remImm d a v => some (encAluI 3 0 d a v)
  | .sel d a b => some (encAlu 3 1 d a b)
  | .selImm d a v => some (encAluI 3 1 d a v)
  | .and d a b => some (encAlu 4 0 d a b)
  | .andImm d a v => some (encAluI 4 0 d a v)
  | .or d a b => some (encAlu 4 1 d a b)
  | .orImm d a v => some (encAluI 4 1 d a v)
  | .xor d a b => some (encAlu 5 0 d a b)
  | .xorImm d a v => some (encAluI 5 0 d a v)
  | .sra d a b => some (encAlu 5 1 d a b)
  | .sraImm d a v => some (encAluI 5 1 d a v)
  | .shl d a b => some (encAlu 6 0 d a b)
  | .shlImm d a v => some (encAluI 6 0 d a v)
  | .shr d a b => some (encAlu 6 1 d a b)
  | .shrImm d a v => some (encAluI 6 1 d a v)
  | .min d a b => some (encAlu 7 0 d a b)
  | .minImm d a v => some (encAluI 7 0 d a v)
  | .max d a b => some (encAlu 7 1 d a b)
  | .maxImm d a v => some (encAluI 7 1 d a v)
  | .slt d a b => some (encAlu 8 0 d a b)
  | .sltImm d a v => some (encAluI 8 0 d a v)
  | .sltu d a b => some (encAlu 8 1 d a b)
  | .sltuImm d a v => some (encAluI 8 1 d a v)
  | .clz d a => some (encGG 0 9 0 d a)
  | .popc d a => some (encGG 0 9 1 d a)
  | .mov d a => some (encGG 0 10 0 d a)
  | .jr d a => some (encGG 0 10 1 d a)
  | .li d v => some (encDI 11 d v)
  | .addpc d v => some (encDI 12 d v)
  | .beq a b v => some (encB2 13 a b v)
  | .bne a b v => some (encB2 14 a b v)
  | .blt a b v => some (encB2 15 a b v)
  | .bge a b v => some (encB2 16 a b v)
  | .bltu a b v => some (encB2 17 a b v)
  | .bgeu a b v => some (encB2 18 a b v)
  | .bqs q v => some ⟨0, .none, 0, 0, 0, xisOf 6 0 v, jw 19 (q.toNat * 64 + lowBits 6 v)⟩
  | .bqc q v => some ⟨0, .none, 0, 0, 0, xisOf 6 0 v, jw 20 (q.toNat * 64 + lowBits 6 v)⟩
  | .j v => some ⟨0, .none, 0, 0, 0, xisOf 10 0 v, jw 21 (lowBits 10 v)⟩
  | .jal v => some ⟨0, .none, 0, 0, 0, xisOf 10 0 v, jw 22 (lowBits 10 v)⟩
  | .rep a n => some ⟨0, .none, 0, hi5 a, 0, [], di 23 (lo5 a) n.toNat⟩
  | .ldB d a v => some (encMem 24 d a v)
  | .ldH d a v => some (encMem 25 d a v)
  | .ldW d a v => some (encMem 26 d a v)
  | .ldD d a v => some (encMem 27 d a v)
  | .lduB d a v => some (encMem 28 d a v)
  | .lduH d a v => some (encMem 29 d a v)
  | .lduW d a v => some (encMem 30 d a v)
  | .stB d a v => some (encMem 31 d a v)
  | .stH d a v => some (encMem 32 d a v)
  | .stW d a v => some (encMem 33 d a v)
  | .stD d a v => some (encMem 34 d a v)
  | .ldv d a v => some (encVMem 35 d a v)
  | .stv d a v => some (encVMem 36 d a v)
  | .ldvx d a => some ⟨0, .none, hi4 d, hi5 a, 0, [], r3 37 (lo4 d) (lo5 a) 0 0⟩
  | .stvp a b => some ⟨0, .none, 0, hi5 a, hi4 b, [], r3 37 0 (lo5 a) (lo4 b) 1⟩
  | .ldf d a v => some (encMem 38 d a v)
  | .stf d a v => some (encMem 39 d a v)
  | .lda d a v => some (encMem 41 d a v)
  | .stl d a v => some (encMem 42 d a v)
  | .fence s => some ⟨0, .none, 0, 0, 0, [], 40 * 1024 + s.toNat⟩
  | .aadd d a b => some (encAlu 43 0 d a b)
  | .aand d a b => some (encAlu 43 1 d a b)
  | .aor d a b => some (encAlu 44 0 d a b)
  | .axor d a b => some (encAlu 44 1 d a b)
  | .amin d a b => some (encAlu 45 0 d a b)
  | .amax d a b => some (encAlu 45 1 d a b)
  | .aminu d a b => some (encAlu 46 0 d a b)
  | .amaxu d a b => some (encAlu 46 1 d a b)
  | .aswp d a b => some (encAlu 47 0 d a b)
  | .afadd d a b => some (encAlu 47 1 d a b)
  | .acas d a b => some (encAlu 48 0 d a b)
  | .waita d a b => some (encAlu 48 1 d a b)
  | .vwid d a p => some (encPart 0 d a p)
  | .vnb16 d a p => some (encPart 1 d a p)
  | .vnh16S d a p => some (encPart 2 d a p)
  | .vnh16X d a p => some (encPart 3 d a p)
  | .vn8S d a p => some (encPart 4 d a p)
  | .vn8X d a p => some (encPart 5 d a p)
  | .vn8wS d a p => some (encPart 6 d a p)
  | .vn4S d a p => some (encPart 7 d a p)
  | .vni8S d a p => some (encPart 8 d a p)
  | .vfi32 d a => some (encV2 9 0 d a)
  | .vif32 d a => some (encV2 9 1 d a)
  | .vscl d a b => some (encVVG 10 0 d a b)
  | .vtag d a b => some (encVVG 10 1 d a b)
  | .vgtag d a => some (encGV 11 0 d a)
  | .vpackz d a b => some (encVVG 12 0 d a b)
  | .vexpz d a b => some (encVVG 12 1 d a b)
  | .vfadd d a b => some (encV3 13 0 d a b)
  | .vfsub d a b => some (encV3 13 1 d a b)
  | .vfmul d a b => some (encV3 14 0 d a b)
  | .vfma d a b => some (encV3 14 1 d a b)
  | .vfmat d a b => some (encV3 15 0 d a b)
  | .vfmin d a b => some (encV3 16 0 d a b)
  | .vfmax d a b => some (encV3 16 1 d a b)
  | .vfcmp d a b => some (encV3 17 0 d a b)
  | .vcmpb d a b => some (encV3 17 1 d a b)
  | .vadd d a b => some (encV3 18 0 d a b)
  | .vmul d a b => some (encV3 18 1 d a b)
  | .vand d a b => some (encV3 19 0 d a b)
  | .vor d a b => some (encV3 19 1 d a b)
  | .vxor d a b => some (encV3 20 0 d a b)
  | .vsh d a b => some (encV3 20 1 d a b)
  | .vminu d a b => some (encV3 21 0 d a b)
  | .vmaxu d a b => some (encV3 21 1 d a b)
  | .vperm d a b => some (encV3 23 1 d a b)
  | .vfred d a => some (encV2 15 1 d a)
  | .vfind d a b => some ⟨1, .none, hi5 d, hi4 a, hi4 b, [], r3 22 (lo5 d) (lo4 a) (lo4 b) 0⟩
  | .vhash d a => some (encGV 22 1 d a)
  | .vnfa d a b => some (encVVG 23 0 d a b)
  | .vbcast d a w => some ⟨1, .none, hi4 d, hi5 a, 0, [], r2i 24 (lo4 d) (lo5 a) w.toNat⟩
  | .vext d a l => some ⟨1, .none, hi5 d, hi4 a, 0, [], r2i 25 (lo5 d) (lo4 a) l.toNat⟩
  | .cp f y d a b => some ⟨2, some (cpFnPayload f), hi5 d, hi5 a, hi5 b, [], r3 0 (lo5 d) (lo5 a) (lo5 b) (if y then 1 else 0)⟩
  | .rbind d a b => some (encHGG 1 0 d a b)
  | .rslot d a b => some (encRing 1 1 d a b)
  | .rwait d a b => some (encRing 2 0 d a b)
  | .rwaitf d a b => some (encRing 2 1 d a b)
  | .radvh a b => some (encAdv 0 a b)
  | .radvt a b => some (encAdv 1 a b)
  | .spost d a => some (encSem 0 d a)
  | .swait d a => some (encSem 1 d a)
  | .stryw d a b => some ⟨2, .none, hi5 d, hi4 a, hi5 b, [], r3 5 (lo5 d) (lo4 a) (lo5 b) 0⟩
  | .mldb b a => some (encMldb 0 b a)
  | .mldbL b a => some (encMldb 1 b a)
  | .msel d s => some ⟨2, .none, 0, 0, 0, [], di 7 d.toNat s.toNat⟩
  | .mz d => some (encT2 8 0 d 0)
  | .macc d a => some (encT2 8 1 d a)
  | .mmaN4 d a => some (encT2 9 0 d a)
  | .mmaN8 d a => some (encT2 9 1 d a)
  | .mmaW16 d a => some (encT2 10 0 d a)
  | .mmaL d a => some (encT2 10 1 d a)
  | .mdrn a => some (encT2 11 0 0 a)
  | .eoutN8 d a b => some (encHGG 11 1 d a b)
  | .eoutF32 d a b => some (encHGG 12 0 d a b)
  | .eoutB16 d a b => some (encHGG 12 1 d a b)
  | .evdecl s a => some (encHGG 13 0 s a 0)
  | .evdrop s a => some (encHGG 13 1 s a 0)
  | .evupd s a b => some (encHGG 14 0 s a b)
  | .evupdt s a b => some (encHGG 14 1 s a b)
  | .evfan s a b => some (encHGG 15 0 s a b)
  | .evpeek d a s => some ⟨2, .none, hi5 d, hi5 a, 0, [], r3 15 (lo5 d) (lo5 a) s.toNat 1⟩
  | .evstat d x => some (encSel 2 16 d x)
  | .evdone => some (encZ 2 17)
  | .vtset a => some (encA 2 18 0 a)
  | .vtget d => some (encD 2 18 1 d)
  | .vtlow d => some (encD 2 19 0 d)
  | .spawn d a => some (encGG 3 0 0 d a)
  | .join a => some (encA 3 0 1 a)
  | .fork v => some ⟨3, .none, 0, 0, 0, xisOf 10 0 v, jw 1 (lowBits 10 v)⟩
  | .exit => some (encZ 3 2)
  | .yield => some (encZ 3 3)
  | .gbar => some (encZ 3 4)
  | .ebset a => some (encA 3 5 0 a)
  | .ebclr a => some (encA 3 5 1 a)
  | .ebwait a => some (encA 3 6 0 a)
  | .tpath d => some (encD 3 6 1 d)
  | .gid d x => some (encSel 3 7 d x)
  | .send a b => some ⟨3, .none, 0, hi5 a, hi4 b, [], r3 8 0 (lo5 a) (lo4 b) 0⟩
  | .sendp q b => some ⟨3, .none, 0, 0, hi4 b, [], r3 8 q.toNat 0 (lo4 b) 1⟩
  | .recv d => some ⟨3, .none, hi4 d, 0, 0, [], r3 9 (lo4 d) 0 0 0⟩
  | .recvp d q => some ⟨3, .none, hi4 d, 0, 0, [], r3 9 (lo4 d) 0 q.toNat 1⟩
  | .trap c => some ⟨3, .none, 0, 0, 0, [], di 10 0 c.toNat⟩
  | .csrr d c => some (encSel 3 11 d c)
  | .csrw c d => some (encSel 3 12 d c)
  | .stow a => some (encA 3 13 0 a)
  | .halt => some (encZ 3 14)
  | .engineReply _ => .none
  | .copy _ => .none
  | .copyf _ => .none
  | .copym _ => .none
  | .gath _ => .none
  | .scat _ => .none
  | .fill _ => .none
  | .wback _ => .none
  | .inval _ => .none
  | .subs _ => .none
  | .unsubs _ => .none
  | .pull _ => .none
  | .pullf _ => .none
  | .streamerElementWrite _ _ => .none
  | .copymFollowOnEnter _ _ => .none
  | .ringWaitWake _ => .none
  | .semaphoreGrant _ _ => .none
  | .matrixRingBind _ => .none
  | .matrixCommandExecute _ => .none
  | .epilogueOutput _ => .none
  | .tileSave _ => .none
  | .tileSaveRefused _ => .none
  | .tileReload _ => .none
  | .monbWrite _ => .none
  | .cncdWrite _ => .none
  | .mreplWrite _ _ => .none
  | .updateArrival _ => .none
  | .fanoutSourceArrival _ _ => .none
  | .sluiceSeal _ => .none
  | .refill _ _ => .none
  | .windowPhase _ _ => .none
  | .activationStart _ => .none
  | .beaconPublication => .none
  | .sliceError _ => .none
  | .gbarComplete _ => .none
  | .eventBitCycle _ => .none
  | .taskPlace _ => .none
  | .taskAging _ _ => .none
  | .gangReserve _ => .none
  | .gangStart _ => .none
  | .depthPublication _ => .none
  | .forwardingExpiry _ => .none
  | .messageDelivery _ => .none
  | .portTransfer _ _ => .none
  | .bankcfgWrite _ _ => .none
  | .bankcfgSwitchDone _ => .none
  | .wdtWrite _ _ => .none
  | .snaptWrite _ _ => .none
  | .snapshotLatch => .none
  | .snapshotRead => .none
  | .registerWrite _ _ => .none
  | .managementRequest _ _ => .none
  | .tcflushWrite _ _ => .none
  | .tcflushComplete _ => .none
  | .mgnWrite _ _ => .none
  | .lctlRetrainRequest _ => .none
  | .lctlForceX32 _ _ => .none
  | .queueCreate _ _ => .none
  | .notifyTailWrite _ _ => .none
  | .notifyErrRead _ => .none
  | .creadWrite _ _ => .none
  | .scheduleStepWrite _ _ => .none
  | .scheduleTailWrite _ _ => .none
  | .scheduleErrRead _ => .none
  | .residencyEntryPerform _ => .none
  | .frameWaitTimeout _ => .none
  | .tcbAdmission _ => .none
  | .kernelComplete _ => .none
  | .completionRecordWrite _ => .none
  | .contextShip _ => .none
  | .regenerationComplete _ _ => .none
  | .requestReply _ => .none
  | .storeBufferDrain _ _ => .none
  | .atomicPerform _ => .none
  | .requestTimeout _ => .none
  | .replicaUpdateApply _ => .none
  | .waitaWake _ => .none
  | .ldfReissue _ => .none
  | .ldfCancelNotice _ _ => .none
  | .remoteRequest _ => .none
  | .ueConnectionOpen _ _ => .none
  | .flitReceive _ _ => .none
  | .nakReceive _ _ => .none
  | .replayTimeout _ => .none
  | .idleFlitSend _ => .none
  | .linkRetrain _ => .none
  | .retrainComplete _ _ _ => .none
  | .ecntQuietClear _ => .none
  | .beaconRecord _ _ => .none
  | .lostDeviceDetect _ => .none
  | .lostConnectionDetect _ => .none
  | .faultEpochStop _ => .none
  | .preciseTrap _ => .none
  | .heldRecordEnter _ => .none
  | .mbstatFree _ _ => .none
  | .resume _ => .none
  | .stowout _ => .none
  | .ready _ _ => .none
  | .endTask _ => .none
  | .killk _ _ => .none
  | .restart _ _ => .none
  | .load _ _ => .none
  | .preemptStow _ => .none
  | .taskResume _ => .none
  | .stowTear _ => .none
  | .watchdogExpiry _ => .none
  | .shadowLatchReplay _ => .none
  | .checkerMismatch _ => .none
  | .coreKill _ => .none
  | .taskRestart _ _ => .none
  | .clusterQuarantine _ => .none
  | .supervisorError _ => .none
  | .clusterRemap _ => .none
  | .thermalThrottle _ => .none
  | .thermalShutdown _ => .none
  | .powerLimitThrottle _ => .none
  | .powerOn _ => .none
  | .recoveryFirmwareImage _ => .none
  | .attestationQuote _ => .none
  | .coldReset _ => .none
  | .mgnstRecentExpiry _ => .none
  | .correctedSoftError _ => .none
  | .queueDestroy _ => .none
  | .regulatorSettlingEnd _ => .none

/-- The prefixes and the governed word in the order PG, FN, XR, XI (R38, R379). -/
def Enc.words (e : Enc) : List Half :=
  (if e.page = 0 then [] else [BitVec.ofNat 16 (62 * 1024 + e.page)])
  ++ (match e.fn with | some f => [BitVec.ofNat 16 (63 * 1024 + f)] | .none => [])
  ++ (if e.xd = 0 ∧ e.xa = 0 ∧ e.xb = 0 then [] else [BitVec.ofNat 16 (61 * 1024 + e.xd * 256 + e.xa * 64 + e.xb * 16)])
  ++ e.xis.map (fun x => BitVec.ofNat 16 (60 * 1024 + x))
  ++ [BitVec.ofNat 16 e.word]

/-- The words of an instruction; none for a step of another agent. -/
def encode (i : Instr) : List Half :=
  match encOf i with
  | some e => e.words
  | .none => []

/-- Whether an instruction has words: an instruction of a core, and no step of another agent. -/
def hasWords (i : Instr) : Bool := (encOf i).isSome

end Sys2Proof
end

