-- ==== Sys2Proof/Machine/Ordering.lean ====
section
/-! DEFINITION. The ordering and atomic class (R116 to R142): FENCE, LDA and STL, the eleven atomics, WAITA. -/

namespace Sys2Proof.Machine

/-! ## Atomics (R133 to R138) -/

/-- An atomic on a peer device's memory: it goes over the endpoint's ROD connection and is performed there; the old value, or the home's cause (R135, R138,
R334; log entry 7). It stalls while the network interface holds a record (R347). -/
def remoteAtomic (op : AtomOp) (d : GReg) (e : Nat) (va : Word) : M Flow := do
  let s ← get
  let u := s.cur
  if s.holdsRecord (.net (clusterOf u)) then pure .stay
  else
    let r := farReq s u e (some op) (some u) d va
    let t := (sendFar s r).modCore u (fun c => { c with reqTag := c.reqTag + 1 })
    if d = 0 then
      set (if s.eager then flushWhere t u (fun x => x == r) else t)
      pure .next
    else if s.eager then
      match farReply { t with reqs := s.reqs } va (some op) with
      | (.val v, s') =>
        set s'
        setG d v
        pure .next
      | (.fail c _ fa _ _ _, _) => trapM (.at c fa)
    else
      set (parkCore t u .request)
      pure .stay

/-- An atomic (R134 to R136): checked, after the core's own earlier accesses to its sector or, on an SO page, to SO pages (R101, R120), then sent to its word's home.
A step that does its requests at once performs it there; otherwise, and where a link on its path is down, it waits for the reply, or retires without one
when D = 0 (R135; log entry 6). -/
def atomic (op : AtomOp) (d a b : GReg) : M Flow := do
  let s ← get
  let ea := s.rg a
  aligned ea (atomSize op)
  let ps ← resolve s.me .atomic ea (atomSize op)
  match ps with
  | [p] =>
    needM (p.kind != 2 || p.repl) (.at .plbDeny ea)
    ringsFree ps
    match p.place with
    | .remote e =>
      needM (op != .fadd || (s.core s.cur).det == 0) (.plain .detLevel)
      remoteAtomic op d e ea
    | .mem loc =>
      let so := p.kind == 0 && !p.repl
      modify (fun s => flushWhere (drainThrough s s.cur (fun e => e.touches loc (atomSize op) || e.touches (tagLoc loc) 2 || (so && e.so))) s.cur
        (fun r => (so && r.so) || (s.eager && r.touches loc 8)))
      let s ← get
      let tag := if p.typed then homeTag s p.repl loc else 0
      needM (op != .fadd || tagCode tag == 0 || tag == 0x1000) (.at .formatFault ea)
      needM (op != .fadd || (s.core s.cur).det == 0) (.plain .detLevel)
      if s.holdsRecord (.net (clusterOf s.cur)) then pure .stay
      else if s.eager && p.cut.isNone then
        match homeReply s op s.cur ea loc p.repl (s.rg b) (s.rg d) with
        | (.val v, s') =>
          set s'
          setG d v
          pure .next
        | (.fail c _ fa _ _ _, s') =>
          if d = 0 then
            set (lateAtomic s' s.cur c fa (s.core s.cur).ctx.kern.kid)
            pure .next
          else trapM (.at c fa)
      else
        let r : Req := { kind := .atomic op, core := some s.cur, sender := s.cur, kern := (s.core s.cur).ctx.kern,
                         vt := (s.core s.cur).vt, d := d, va := ea, loc := loc, repl := p.repl, so := so,
                         tagged := p.typed, release := false, a := s.rg d, b := s.rg b, tag8 := (s.core s.cur).reqTag, since := s.now, done := none }
        set ({ s with reqs := s.reqs ++ [r] }.modCore s.cur (fun c => { c with reqTag := c.reqTag + 1 }))
        if d = 0 then pure .next
        else
          modify (fun s => parkCore s s.cur .request)
          pure .stay
    | .dead =>
      needM (op != .fadd || (s.core s.cur).det == 0) (.plain .detLevel)
      if s.holdsRecord (.net (clusterOf s.cur)) then pure .stay
      else if d = 0 then
        modify (fun s => lateAtomic s s.cur .poison ea (s.core s.cur).ctx.kern.kid)
        pure .next
      else trapM (.at .poison ea)
    | _ => trapM (.at .plbDeny ea)
  | _ => trapM (.at .plbDeny ea)

def execAadd (d a b : GReg) (s : State) := runM (atomic .add d a b) s
def execAand (d a b : GReg) (s : State) := runM (atomic .and d a b) s
def execAor (d a b : GReg) (s : State) := runM (atomic .or d a b) s
def execAxor (d a b : GReg) (s : State) := runM (atomic .xor d a b) s
def execAmin (d a b : GReg) (s : State) := runM (atomic .min d a b) s
def execAmax (d a b : GReg) (s : State) := runM (atomic .max d a b) s
def execAminu (d a b : GReg) (s : State) := runM (atomic .minu d a b) s
def execAmaxu (d a b : GReg) (s : State) := runM (atomic .maxu d a b) s
def execAswp (d a b : GReg) (s : State) := runM (atomic .swp d a b) s
def execAfadd (d a b : GReg) (s : State) := runM (atomic .fadd d a b) s
def execAcas (d a b : GReg) (s : State) := runM (atomic .cas d a b) s

/-! ## LDA, STL, FENCE, WAITA -/

/-- What an LDA does before it reads: the core's earlier STLs have been performed (R126), and a store of its own to a replicated page that it would read from its
buffer has reached its own die's copy, so that no later load reads an older copy (R132). An STL to a peer's memory has been performed there (R334). -/
def beforeAcquire (s : State) (u : Nat) (ps : List Piece) : State :=
  let own := fun (e : SbEntry) => e.repl && ps.any (fun p => match p.place with | .mem loc => e.touches loc p.len | _ => false)
  flushWhere (drainThrough s u (fun e => e.release || own e)) u (fun r => r.release)

/-- The accesses of an LDA have gone to the homes of their pieces and come back (R126, R338). -/
def crossLinks (s : State) (ps : List Piece) : State :=
  ps.foldl (fun s p => match p.place with
    | .mem loc => s.roundTrip (dieOf (clusterOf s.cur)) (locDie (p.readLoc s.me loc))
    | _ => s) s

/-- LDA: a load in its turn, at its word's home, that no later access of the core precedes (R126, R127). -/
def loadAcquire (d : GReg) (ea : Word) : M Flow := do
  aligned ea 8
  let s ← get
  let ps ← resolve s.me .load ea 8
  needM (ps.all (fun p => p.kind != 2 || p.repl)) (.at .plbDeny ea)
  noPoison s.me ps
  modify (fun s => acquire (beforeAcquire s s.cur ps) s.cur)
  let bs ← readPieces s.me ps
  modify (fun s => crossLinks s ps)
  setG d (word (leNat bs))
  pure .next

/-- STL: a store after every earlier store of the core (R126, R127). -/
def storeRelease (v ea : Word) : M Flow := do
  aligned ea 8
  let s ← get
  let ps ← resolve s.me .store ea 8
  needM (ps.all (fun p => p.kind != 2 || p.repl)) (.at .plbDeny ea)
  ringsFree ps
  noDead ps
  writePieces s.me none true ps (leBytes 8 v.toNat)
  pure .next

def execLda (d a : GReg) (off : Word) (s : State) := runM (loadAcquire d (s.ea a off 8)) s
def execStl (d a : GReg) (off : Word) (s : State) := runM (storeRelease (s.rg d) (s.ea a off 8)) s

/-- FENCE (R124, R125). -/
def execFence (scope : BitVec 3) (s : State) : Host.Outcome State Fault Refusal :=
  .next (retire (fenceAt s s.cur scope.toNat))

/-- WAITA (R141): the word of the local window, read as an acquire, equals gB, or the core parks until its sector is written. -/
def waitAtomic (d a b : GReg) : M Flow := do
  let s ← get
  let ea := s.rg a
  aligned ea 8
  let ps ← resolve s.me .load ea 8
  needM (inLocalWin ea) (.at .plbDeny ea)
  noPoison s.me ps
  modify (fun s => acquire (beforeAcquire s s.cur ps) s.cur)
  let bs ← readPieces s.me ps
  let v := word (leNat bs)
  if v = s.rg b then
    setG d v
    pure .next
  else
    modify (fun s => parkCore s s.cur (.sector (sramLoc (clusterOf s.cur) (ea.toNat - localWin))))
    pure .stay

def execWaita (d a b : GReg) (s : State) := runM (waitAtomic d a b) s

/-! ## The steps of the memory system -/

/-- STORE_BUFFER_DRAIN (R101, R121, R122): entry k of core u's store buffer is performed; a store to a replicated page goes to the
sequencer and stays until the local copy has it (R131). A number beyond the buffer names one of the core's UO bytes, whose sector
is written back early. -/
def execStoreBufferDrain (u k : Nat) (s : State) : Host.Outcome State Fault Refusal :=
  let sb := (s.core u).storeBuf
  .next (
    if canDrain s u k then
      match sb[k]? with
      | some e =>
        if e.repl && !e.cut s u then
          (sawUpdates (sequence s u e.writes) u (s.seqNext + 1)).modCore u
            (fun c => { c with storeBuf := sb.set k { e with sent := some s.seqNext } })
        else performEntry (s.modCore u (fun c => { c with storeBuf := dropAt sb k })) u e
      | none => s
    else
      match (s.core u).uoDirty[k - sb.length]?, decide (sb.length ≤ k) with
      | some w, true => writeBackSector s u (sectorOf w.1)
      | _, _ => s)

/-- REPLICA_UPDATE_APPLY (R131): the next update in the sequencer's order reaches the copy of a die, over that die's hub link (R6, R330). -/
def execReplicaUpdateApply (d : Nat) (s : State) : Host.Outcome State Fault Refusal := .next (if pathDown s d 4 then s else applyNext s d)

/-- WAITA_WAKE (R141): a parked WAITA reads again. -/
def execWaitaWake (u : Nat) (s : State) : Host.Outcome State Fault Refusal :=
  match (s.core u).wait with
  | .sector _ => .next (parkCore s u .none)
  | _ => .next s

/-- LDF_REISSUE (R109): an LDF is issued again 256 cycles after its negative acknowledgement. -/
def execLdfReissue (u : Nat) (s : State) : Host.Outcome State Fault Refusal :=
  match (s.core u).wait with
  | .futureRetry _ since => .next (if since + 256 ≤ s.now then parkCore s u .none else s)
  | _ => .next s

/-- LDF_CANCEL_NOTICE (R109): a cancel notice reaches the slice and frees the k-th of its entries, if its core has cancelled it. -/
def execLdfCancelNotice (slice k : Nat) (s : State) : Host.Outcome State Fault Refusal :=
  match (s.defers.filter (fun d => d.slice == slice))[k]? with
  | some d => .next (if d.core = none then { s with defers := s.defers.erase d } else s)
  | none => .next s

end Sys2Proof.Machine
end

