-- ==== Sys2Proof/Machine/Rings.lean ====
section
/-! DEFINITION. Rings and semaphores (R189 to R203): descriptors, the ring table, handles, holds, and the nine instructions. -/

namespace Sys2Proof.Machine

/-! ## Descriptors (R189, R190) -/

/-- A ring's geometry: offset of slot 0, log2 of slot size and of slot count (R189). -/
structure Geom where
  base : Nat
  lsz  : Nat
  lnum : Nat
  deriving DecidableEq, Repr

/-- The geometry in a descriptor's doubleword 0 (R189). -/
def geomOf (dw0 : Word) : Geom := ⟨fld dw0 21 0, fld dw0 25 22, fld dw0 30 26⟩

/-- Window offset of the slot of the element with counter value x (R190). -/
def Geom.slot (g : Geom) (x : Nat) : Nat := g.base + x % 2 ^ g.lnum * 2 ^ g.lsz
/-- Bytes of all slots. -/
def Geom.bytes (g : Geom) : Nat := 2 ^ (g.lsz + g.lnum)

/-- HEAD and TAIL of a descriptor in the SRAM of cluster P (R189). -/
def ringHead (s : State) (P addr : Nat) : BitVec 32 := BitVec.ofNat 32 (s.mem.nat (sramLoc P addr + 8) 4)
def ringTail (s : State) (P addr : Nat) : BitVec 32 := BitVec.ofNat 32 (s.mem.nat (sramLoc P addr + 12) 4)

/-- The banks that bytes [off, off+n) touch. -/
def banksOf (off n : Nat) : List Nat := upFrom (off / 2 ^ 18) ((off + n - 1) / 2 ^ 18 - off / 2 ^ 18 + 1)

/-- The mode of a bank. -/
def Cluster.mode (c : Cluster) (b : Nat) : BitVec 2 := (c.modes[b]?).getD 0

/-- Whether a descriptor is valid (R190), at a multiple of 16 in a scratchpad-mode bank (R189). -/
def ringValid (s : State) (P addr : Nat) : Bool :=
  let dw0 := word (s.mem.nat (sramLoc P addr) 8)
  let g := geomOf dw0
  let c := s.cluster P
  addr % 16 == 0 && c.mode (addr / 2 ^ 18) == 1 && fld dw0 63 31 == 0 && decide (1 ≤ g.lnum) && decide (g.lnum ≤ 12) && decide (6 ≤ g.lsz) && decide (g.lsz ≤ 15)
    && g.base % 2 ^ g.lsz == 0 && decide (g.lsz + g.lnum ≤ 20) && decide (g.base + g.bytes ≤ sramSize)
    && decide ((ringTail s P addr - ringHead s P addr).toNat ≤ 2 ^ g.lnum)
    && (let m := c.mode (g.base / 2 ^ 18)
        (m == 1 || m == 2) && (banksOf g.base g.bytes).all (fun b => c.mode b == m))

/-! ## The ring table (R191, R193, R194) -/

/-- An entry of a cluster's ring table by its number. -/
def ringEntry (s : State) (P id : Nat) : Option RingEntry := (s.cluster P).rings.find? (fun r => r.id == id)

/-- One more, or one fewer, reference to an entry; it leaves the table when none is left. -/
def ringRef (s : State) (P id : Nat) : State :=
  s.modCluster P (fun c => { c with rings := c.rings.map (fun r => if r.id = id then { r with count := r.count + 1 } else r) })
def ringUnref (s : State) (P id : Nat) : State :=
  s.modCluster P (fun c => { c with rings :=
    (c.rings.map (fun r => if r.id = id then { r with count := r.count - 1 } else r)).filter (fun r => r.count ≠ 0) })

/-- Binds a descriptor: a reference to its entry, entered first if the table does not hold it unbroken; none where the descriptor
is not valid or the table is full (R191, R194). -/
def bindRing (s : State) (P addr : Nat) : Option (Nat × State) :=
  match (s.cluster P).rings.find? (fun r => r.addr == addr && !r.broken) with
  | some r => some (r.id, ringRef s P r.id)
  | none =>
    if ringValid s P addr && decide ((s.cluster P).rings.length < 64) then
      let id := (s.cluster P).ringNext
      let e : RingEntry := { id := id, addr := addr, dw0 := word (s.mem.nat (sramLoc P addr) 8), count := 1, broken := false }
      some (id, s.modCluster P (fun c => { c with rings := c.rings ++ [e], ringNext := id + 1 }))
    else none

/-- Unbinding of a handle. -/
def releaseHandle (s : State) (P : Nat) (h : Handle) : State :=
  match h with
  | .ring id _ _ => ringUnref s P id
  | _ => s

/-- Unbinding of all handles of a core (R193). -/
def releaseHandles (s : State) (u : Nat) : State :=
  ((s.core u).h.toList.foldl (fun s h => releaseHandle s (clusterOf u) h) s).modCore u
    (fun c => { c with h := Vector.replicate 8 .unbound })

/-- Whether bytes [off, off+n) of a cluster's SRAM overlap the descriptor or a slot of a ring. -/
def RingEntry.overlaps (r : RingEntry) (off n : Nat) : Bool :=
  let g := geomOf r.dw0
  (decide (r.addr < off + n) && decide (off < r.addr + 16)) || (decide (g.base < off + n) && decide (off < g.base + g.bytes))

/-! ## Counters and holds (R198, R199, R229) -/

/-- Fill of a ring. -/
def ringFill (s : State) (P addr : Nat) : Nat := (ringTail s P addr - ringHead s P addr).toNat

/-- Free slots of a ring: those from the tail slot on that its fill leaves, up to the first that a command holds, so that no producer overwrites a held slot
(R229; log entry 81). -/
def ringFree (s : State) (P : Nat) (r : RingEntry) : Nat :=
  let slots := 2 ^ (geomOf r.dw0).lnum
  (s.cluster P).holds.foldl (fun m h => if h.addr = r.addr then min m ((BitVec.ofNat 32 h.x - ringTail s P r.addr).toNat % slots) else m)
    (slots - ringFill s P r.addr)

/-- The counters written by the ring hardware (R191). -/
def setHead (s : State) (P addr : Nat) (x : BitVec 32) : State :=
  performWrites s (writesAt (sramLoc P addr + 8) (leBytes 4 x.toNat))
def setTail (s : State) (P addr : Nat) (x : BitVec 32) : State :=
  performWrites s (writesAt (sramLoc P addr + 12) (leBytes 4 x.toNat))

/-- Elements in the drain ring, 0 to 8 (R196, R236). -/
def drainFill (t : Tile) : Nat := (t.dtail - t.dhead).toNat

/-- A hold on the element that a command binds, and its release (R228, R229). -/
def takeHold (s : State) (r : RingRef) : State := s.modCluster r.cl (fun c => { c with holds := c.holds ++ [r] })
def dropHold (s : State) (r : RingRef) : State := s.modCluster r.cl (fun c => { c with holds := c.holds.erase r })

/-- The ring of a command, if it has one. -/
def MOp.ring : MOp → Option RingRef
  | .mldb _ r _ => some r
  | .mma _ _ r => some r
  | .eout _ r _ _ => some r
  | _ => none

/-- Whether the unit holds a slot for a command (R228, R229). -/
def MOp.holds : MOp → Bool
  | .mldb _ _ _ | .mma _ _ _ => true
  | _ => false

/-- The end of a matrix command: its hold and its reference are let go (R191, R209, R229). -/
def settle (s : State) (c : MCmd) : State :=
  match c.op.ring with
  | some r =>
    let s := if c.op.holds then dropHold s r else s
    if c.owned then ringUnref s r.cl r.id else s
  | none => s

/-! ## The ring instructions (R196 to R199) -/

/-- RING_FAULT of the core whose turn it is. -/
def ringTrap : Trap := .plain .ringFault

/-- The ring of a handle that is bound and not broken: its entry, with its use; the drain ring as none. -/
def handleRing (s : State) (h : HReg) : Except Trap (Option (RingEntry × Nat)) :=
  match (s.core s.cur).rh h with
  | .unbound => .error ringTrap
  | .drain => .ok none
  | .ring id _ use =>
    match ringEntry s (clusterOf s.cur) id with
    | some r => if r.broken then .error ringTrap else .ok (some (r, use))
    | none => .error ringTrap

/-- The ring of a handle that RSLOT, RADVH, RADVT, MLDB, the MMAs and the EOUTs accept: not the drain ring (R196, R237). -/
def operandRing (s : State) (h : HReg) : Except Trap RingEntry :=
  match handleRing s h with
  | .ok (some r) => .ok r.1
  | .ok none => .error ringTrap
  | .error t => .error t

/-- RBIND (R196). -/
def bindHandle (d : HReg) (va use : Word) : M Flow := do
  needM (decide (use.toNat ≤ 2)) ringTrap
  let s ← get
  let P := clusterOf s.cur
  let free := releaseHandle s P ((s.core s.cur).rh d)
  if use = 0 ∧ va = 0 then
    set (free.modCore s.cur (fun c => c.wh d .unbound))
    pure .next
  else if use = 2 then
    needM (va == 0) ringTrap
    set (free.modCore s.cur (fun c => c.wh d .drain))
    pure .next
  else
    aligned va 16
    let ps ← resolve s.me .load va 16
    needM (inLocalWin va) (.at .plbDeny va)
    noPoison s.me ps
    let off := va.toNat - localWin
    modify (fun s => releaseHandle (flushWhere (drainThrough s s.cur (fun e => e.touches (sramLoc P off) 16)) s.cur (fun r => r.touches (sramLoc P off) 16)) P
      ((s.core s.cur).rh d))
    let s ← get
    match bindRing s P off with
    | some (id, s') =>
      set (s'.modCore s.cur (fun c => c.wh d (.ring id off use.toNat)))
      pure .next
    | none => trapM ringTrap

def execRbind (d : HReg) (a b : GReg) (s : State) := runM (bindHandle d (s.rg a) (s.rg b)) s

/-- RSLOT (R197). -/
def execRslot (d : GReg) (a : HReg) (b : GReg) (s : State) : Host.Outcome State Fault Refusal :=
  match operandRing s a with
  | .error t => .next (takeTrap s s.cur t)
  | .ok r =>
    let x := s.rg b
    if fld x 63 33 ≠ 0 then .next (takeTrap s s.cur ringTrap)
    else
      let P := clusterOf s.cur
      let c := if bitAt x 32 then ringTail s P r.addr else ringHead s P r.addr
      .next (retire (s.wg d (localVa ((geomOf r.dw0).slot (c.toNat + fld x 31 0)))))

/-- Core u acquires the n elements of a ring from counter value `x` on: no later load of their bytes goes back behind this point (R129, R200). -/
def acquireElements (s : State) (u P : Nat) (r : RingEntry) (x : BitVec 32) (n : Nat) : State :=
  if s.eager then s
  else
    let g := geomOf r.dw0
    (below n).foldl (fun s k => s.raiseFloor u (sramLoc P (g.slot (x.toNat + k))) (2 ^ g.lsz) s.past.length) s

/-- RWAIT and RWAITF (R198): the count that the ring, or the drain ring of 8 slots, shows at once, and with it RWAIT acquires as many elements after HEAD, and
RWAITF as many freed slots from TAIL on (R200); or the core parks. -/
def waitRing (free : Bool) (d : GReg) (a : HReg) (b : GReg) (s : State) : Host.Outcome State Fault Refusal :=
  let n := (s.rg b).toNat
  match handleRing s a with
  | .error t => .next (takeTrap s s.cur t)
  | .ok none =>
    let f := drainFill (s.tile (tileOf s.cur))
    let have_ := if free then 8 - f else f
    if 8 < n then .next (takeTrap s s.cur ringTrap)
    else if n ≤ have_ then .next (retire (s.wg d (word have_)))
    else .next (parkCore s s.cur .drainRing)
  | .ok (some (r, _)) =>
    let P := clusterOf s.cur
    let have_ := if free then ringFree s P r else ringFill s P r.addr
    if 2 ^ (geomOf r.dw0).lnum < n then .next (takeTrap s s.cur ringTrap)
    else if n ≤ have_ then
      let x := if free then ringTail s P r.addr else ringHead s P r.addr
      .next (retire ((acquireElements s s.cur P r x have_).wg d (word have_)))
    else .next (parkCore s s.cur (.ring r.id))

def execRwait (d : GReg) (a : HReg) (b : GReg) (s : State) := waitRing false d a b s
def execRwaitf (d : GReg) (a : HReg) (b : GReg) (s : State) := waitRing true d a b s

/-- RADVH (R199): a pop, which acquires the elements that it removes (R129); the slots' loads are released, HEAD advances. -/
def execRadvh (a : HReg) (b : GReg) (s : State) : Host.Outcome State Fault Refusal :=
  let n := (s.rg b).toNat
  let P := clusterOf s.cur
  match operandRing s a with
  | .error t => .next (takeTrap s s.cur t)
  | .ok r =>
    if ringFill s P r.addr < n then .next (takeTrap s s.cur ringTrap)
    else
      let x := ringHead s P r.addr
      .next (retire (setHead (acquireElements s s.cur P r x n) P r.addr (x + BitVec.ofNat 32 n)))

/-- RADVT (R199, R200): the core's earlier stores are released at cluster scope, TAIL advances. -/
def execRadvt (a : HReg) (b : GReg) (s : State) : Host.Outcome State Fault Refusal :=
  let n := (s.rg b).toNat
  let P := clusterOf s.cur
  match operandRing s a with
  | .error t => .next (takeTrap s s.cur t)
  | .ok r =>
    if ringFree s P r < n then .next (takeTrap s s.cur ringTrap)
    else
      let s := releaseTo s s.cur 2
      .next (retire (setTail s P r.addr (ringTail s P r.addr + BitVec.ofNat 32 n)))

/-- RING_WAIT_WAKE (R194, R198): a parked RWAIT or RWAITF tests again. -/
def execRingWaitWake (u : Nat) (s : State) : Host.Outcome State Fault Refusal :=
  match (s.core u).wait with
  | .ring _ => .next (parkCore s u .none)
  | .drainRing => .next (parkCore s u .none)
  | _ => .next s

/-! ## Semaphores (R201 to R203) -/

/-- The SWAITs that wait on a semaphore, in arrival order: core and count. -/
def Tile.waiting (t : Tile) (r : SReg) : List (Nat × Nat) := mget t.semq r.toNat []

/-- SPOST (R202, R203): releases at tile scope. -/
def execSpost (d : SReg) (a : GReg) (s : State) : Host.Outcome State Fault Refusal :=
  let t := tileOf s.cur
  let n := ((s.tile t).rs d).toNat + (s.rg a).toNat
  if 65535 < n then .next (takeTrap s s.cur ringTrap)
  else .next (retire ((releaseTo s s.cur 1).modTile t (fun x => x.ws d (BitVec.ofNat 16 n))))

/-- SWAIT (R202, R203): it decrements at once, and acquires, when no other waits and enough remains; otherwise it joins the queue. -/
def execSwait (d : SReg) (a : GReg) (s : State) : Host.Outcome State Fault Refusal :=
  let t := tileOf s.cur
  let x := s.tile t
  let n := (s.rg a).toNat
  if 65535 < n then .next (takeTrap s s.cur ringTrap)
  else if x.waiting d = [] ∧ n ≤ (x.rs d).toNat then
    .next (retire (acquire (s.setTile t (x.ws d (x.rs d - BitVec.ofNat 16 n))) s.cur))
  else
    .next (parkCore (s.setTile t { x with semq := mset x.semq d.toNat (x.waiting d ++ [(s.cur, n)]) }) s.cur
      (.semaphore d.toNat))

/-- STRYW (R202, R203): the value, and a decrement, which acquires, when enough remains and no SWAIT waits. -/
def execStryw (d : GReg) (a : SReg) (b : GReg) (s : State) : Host.Outcome State Fault Refusal :=
  let t := tileOf s.cur
  let x := s.tile t
  let n := (s.rg b).toNat
  let s' := if n ≤ (x.rs a).toNat ∧ x.waiting a = [] then acquire (s.setTile t (x.ws a (x.rs a - BitVec.ofNat 16 n))) s.cur else s
  .next (retire (s'.wg d (word (x.rs a).toNat)))

/-- SEMAPHORE_GRANT (R202, R203): the SWAIT that heads a semaphore's queue takes what it asks for and retires. -/
def execSemaphoreGrant (t k : Nat) (s : State) : Host.Outcome State Fault Refusal :=
  let x := s.tile t
  let r : SReg := BitVec.ofNat 4 k
  match x.waiting r with
  | [] => .next s
  | (u, n) :: rest =>
    if n ≤ (x.rs r).toNat then
      let x := { x with semq := mset x.semq r.toNat rest }
      .next (retireCore (acquire (s.setTile t (x.ws r (x.rs r - BitVec.ofNat 16 n))) u) u)
    else .next s

end Sys2Proof.Machine
end

