-- ==== Sys2Proof/Machine/VectorOps.lean ====
section
/-! DEFINITION. The vector class (R167 to R187). -/

namespace Sys2Proof.Machine

/-! ## F32 lanes (R170 to R175) -/

/-- Whether every source carries code 0x10 (R170). -/
def allF32 (xs : List VVal) : Bool := xs.all (fun x => tagCode x.tag == 0x10)

/-- A lane-wise F32 operation whose result has scale 0 (R170, R171). -/
def laneOp (f : Nat → Num) (srcs : List VVal) : Except Trap VVal :=
  if allF32 srcs then .ok ⟨lanes 32 (fun j => rneF32 (f j)), 0x1000⟩ else .error formatTrap

/-- The exact lanes of R171: a + b, a − b, a × b, c + a × b. -/
def laneAdd (a b : VVal) (j : Nat) : Num := (laneF32 a j).add (laneF32 b j)
def laneSub (a b : VVal) (j : Nat) : Num := (laneF32 a j).add (laneF32 b j).neg
def laneMul (a b : VVal) (j : Nat) : Num := (laneF32 a j).mul (laneF32 b j)
def laneFma (c a b : VVal) (j : Nat) : Num := (laneF32 c j).add (laneMul a b j)

/-- Whether x is below y for VFMIN and VFMAX, which order −0 below +0 (R171). -/
def Num.below (x y : Num) : Bool :=
  match x, y with
  | .zero s, .zero t => s && !t
  | _, _ => x.cmp y < 0

/-- VFMIN and VFMAX of two values: the other operand where one is NaN (R171). -/
def minNum (x y : Num) : Num := if x = .nan then y else if y = .nan then x else if y.below x then y else x
def maxNum (x y : Num) : Num := if x = .nan then y else if y = .nan then x else if x.below y then y else x

/-- The relation code of VFCMP (R172). -/
def relCode (x y : Num) : Nat :=
  if x = .nan ∨ y = .nan then 8 else if x.cmp y < 0 then 1 else if x.cmp y = 0 then 2 else 4

/-- VFCMP (R172). -/
def compareLanes (a b : VVal) : Except Trap VVal :=
  if allF32 [a, b] then .ok ⟨lanes 32 (fun j => relCode (laneF32 a j) (laneF32 b j)), 0⟩ else .error formatTrap

/-- The two sets of faulting lanes of VFMAT: NaN results, and infinite results of finite operands (R173). -/
def fmatInvalid (c a b : VVal) (j : Nat) : Bool := laneFma c a b j == .nan
def fmatOverflow (c a b : VVal) (j : Nat) : Bool :=
  (laneF32 c j).isFinite && (laneF32 a j).isFinite && (laneF32 b j).isFinite && (f32 (rneF32 (laneFma c a b j))).isFinite == false

/-- VFMAT (R173). -/
def fmaTrapping (c a b : VVal) : Except Trap VVal :=
  if allF32 [c, a, b] then
    let bad := fun j => fmatInvalid c a b j || fmatOverflow c a b j
    match (Sys2Proof.below 16).find? bad with
    | some j => .error (laneTrap (if fmatInvalid c a b j then .fpInvalid else .fpOverflow) j (maskOf 16 bad))
    | none => laneOp (laneFma c a b) [c, a, b]
  else .error formatTrap

/-- One level of the reduction tree: each pair summed and rounded (R175). -/
def treeLevel : List Num → List Num
  | x :: y :: t => f32 (rneF32 (x.add y)) :: treeLevel t
  | l => l

/-- VFRED: four levels over the 16 lanes (R175). -/
def reduce (a : VVal) : Except Trap VVal :=
  if allF32 [a] then
    match treeLevel (treeLevel (treeLevel (treeLevel ((Sys2Proof.below 16).map (laneF32 a))))) with
    | r :: _ => .ok ⟨BitVec.ofNat 512 (rneF32 r), 0x1000⟩
    | [] => .ok ⟨0, 0x1000⟩
  else .error formatTrap

/-! ## Integer lanes, bits and bytes (R176 to R179, R184 to R186) -/

/-- Lane width of VADD, VMUL, VSH, VMINU and VMAXU (R176). -/
def intWidth (a : VVal) : Option Nat :=
  match tagCode a.tag with
  | 0x00 => some 32
  | 0x40 => some 8
  | _ => none

/-- An integer lane operation; the destination takes vA's tag (R176). -/
def intOp (f : Nat → Nat → Nat → Nat) (a b : VVal) : Except Trap VVal :=
  match intWidth a with
  | some w => .ok ⟨lanes w (fun j => f w (laneOf a.bits w j) (laneOf b.bits w j)), a.tag⟩
  | none => .error formatTrap

/-- VSH on one lane under its control byte: kind in [6:5], amount in [4:0] (R176). -/
def shiftLane (w x c : Nat) : Nat :=
  let k := bitsOf c 4 0
  match bitsOf c 6 5 with
  | 0 => if w ≤ k then 0 else x * 2 ^ k
  | 1 => if w ≤ k then 0 else x / 2 ^ k
  | 2 =>
    let y := signedOf w x / 2 ^ min k w
    (y % 2 ^ w).toNat
  | _ =>
    let r := k % w
    x * 2 ^ r % 2 ^ w + x / 2 ^ (w - r)

/-- A bitwise operation; the destination takes vA's tag (R177). -/
def bitOp (f : Sector → Sector → Sector) (a b : VVal) : VVal := ⟨f a.bits b.bits, a.tag⟩

/-- VCMPB: each byte of vA against the class in vB (R178). -/
def byteClass (a b : VVal) : VVal := ⟨lanes 8 (fun j => if b.bits.getLsbD (laneOf a.bits 8 j) then 0xFF else 0), 0⟩

/-- VFIND: the mask of the elements that differ (R179). -/
def findDiff (a b : VVal) : Except Trap Word :=
  match packWidth a with
  | some w => .ok (word (maskOf (512 / w) (fun j => laneOf a.bits w j != laneOf b.bits w j)))
  | none => .error formatTrap

/-- VPERM: bytes of vA under the index bytes of vB (R184). -/
def permute (a b : VVal) : VVal :=
  ⟨lanes 8 (fun j => let x := laneOf b.bits 8 j; if 128 ≤ x then 0 else laneOf a.bits 8 (x % 64)), a.tag⟩

/-- Width taken and tag written by VBCAST, by #width (R185). -/
def bcastShape (n : Nat) : Nat × Half :=
  match n with
  | 0 => (8, 0) | 1 => (8, 0x4000) | 2 => (16, 0) | 3 => (16, 0x1100) | 4 => (32, 0) | 5 => (32, 0x1000) | _ => (64, 0)

/-- VBCAST (R185). -/
def broadcast (x : Word) (n : Nat) : VVal := ⟨lanes (bcastShape n).1 (fun _ => x.toNat % 2 ^ (bcastShape n).1), (bcastShape n).2⟩

/-! ## Hashing and automata (R180 to R183) -/

/-- The device hash KH (R180). -/
def kh (x : Word) : Word :=
  let h := (x ^^^ 0x3C5A9E71D2F0486B) * 0x8F3A61C52B97D40B
  let h := (h ^^^ (h >>> 31)) * 0x5C1E93A70D46B2E9
  h ^^^ (h >>> 29)

/-- VHASH: KH chained over the eight doublewords (R181). -/
def hashVec (a : VVal) : Word := (Sys2Proof.below 8).foldl (fun h i => kh (h ^^^ word (laneOf a.bits 64 i))) 0

/-- The eight masks that VNFA reads; each read has a time of its own, so that one may see a store that another does not (R121, R182, R183). -/
def nfaMasks (a : VVal) (t : Word) : List Nat → M (List Nat)
  | [] => pure []
  | k :: ks => do
    let s ← get
    let ps ← resolve s.me .load (t + word (64 * (laneOf a.bits 64 k % 256) + 8 * k)) 8
    noPoison s.me ps
    let bs ← readPieces s.me ps
    let r ← nfaMasks a t ks
    pure (leNat bs :: r)

/-- VNFA: eight shift-and automata advance by one byte; the checks cover the whole table, a poisoned sector that no read touches among them (R182; log
entry 72). -/
def stepNfa (d a : VReg) (t : Word) : M Flow := do
  aligned t 64
  let s ← get
  needM (inLocalWin t && inLocalWin (t + 16383)) (.at .plbDeny (if inLocalWin t then word (localWin + sramSize) else t))
  let ps ← resolve s.me .load t 16384
  noPoison s.me ps
  let x := s.rv a
  let ms ← nfaMasks x t (Sys2Proof.below 8)
  let y := s.rv d
  setV d ⟨lanes 64 (fun k => (laneOf y.bits 64 k * 2 + bitsOf (laneOf x.bits 64 k) 8 8) % 2 ^ 64 &&& ms.getD k 0), 0⟩
  pure .next

/-! ## The instructions -/

def execVfadd (d a b : VReg) (s : State) := finishV d (laneOp (laneAdd (s.rv a) (s.rv b)) [s.rv a, s.rv b]) s
def execVfsub (d a b : VReg) (s : State) := finishV d (laneOp (laneSub (s.rv a) (s.rv b)) [s.rv a, s.rv b]) s
def execVfmul (d a b : VReg) (s : State) := finishV d (laneOp (laneMul (s.rv a) (s.rv b)) [s.rv a, s.rv b]) s
def execVfma (d a b : VReg) (s : State) :=
  finishV d (laneOp (laneFma (s.rv d) (s.rv a) (s.rv b)) [s.rv d, s.rv a, s.rv b]) s
def execVfmat (d a b : VReg) (s : State) := finishV d (fmaTrapping (s.rv d) (s.rv a) (s.rv b)) s
def execVfred (d a : VReg) (s : State) := finishV d (reduce (s.rv a)) s
def execVfmin (d a b : VReg) (s : State) :=
  finishV d (laneOp (fun j => minNum (laneF32 (s.rv a) j) (laneF32 (s.rv b) j)) [s.rv a, s.rv b]) s
def execVfmax (d a b : VReg) (s : State) :=
  finishV d (laneOp (fun j => maxNum (laneF32 (s.rv a) j) (laneF32 (s.rv b) j)) [s.rv a, s.rv b]) s
def execVfcmp (d a b : VReg) (s : State) := finishV d (compareLanes (s.rv a) (s.rv b)) s
def execVcmpb (d a b : VReg) (s : State) := finishV d (.ok (byteClass (s.rv a) (s.rv b))) s
def execVadd (d a b : VReg) (s : State) := finishV d (intOp (fun _ x y => x + y) (s.rv a) (s.rv b)) s
def execVmul (d a b : VReg) (s : State) := finishV d (intOp (fun _ x y => x * y) (s.rv a) (s.rv b)) s
def execVand (d a b : VReg) (s : State) := finishV d (.ok (bitOp (fun x y => x &&& y) (s.rv a) (s.rv b))) s
def execVor (d a b : VReg) (s : State) := finishV d (.ok (bitOp (fun x y => x ||| y) (s.rv a) (s.rv b))) s
def execVxor (d a b : VReg) (s : State) := finishV d (.ok (bitOp (fun x y => x ^^^ y) (s.rv a) (s.rv b))) s
def execVsh (d a b : VReg) (s : State) := finishV d (intOp shiftLane (s.rv a) (s.rv b)) s
def execVminu (d a b : VReg) (s : State) := finishV d (intOp (fun _ x y => min x y) (s.rv a) (s.rv b)) s
def execVmaxu (d a b : VReg) (s : State) := finishV d (intOp (fun _ x y => max x y) (s.rv a) (s.rv b)) s
def execVfind (d : GReg) (a b : VReg) (s : State) := finishG d (findDiff (s.rv a) (s.rv b)) s
def execVhash (d : GReg) (a : VReg) (s : State) := finishG d (.ok (hashVec (s.rv a))) s
def execVnfa (d a : VReg) (b : GReg) (s : State) := runM (stepNfa d a (s.rg b)) s
def execVperm (d a b : VReg) (s : State) := finishV d (.ok (permute (s.rv a) (s.rv b))) s
def execVbcast (d : VReg) (a : GReg) (w : BitVec 4) (s : State) := finishV d (.ok (broadcast (s.rg a) w.toNat)) s
def execVext (d : GReg) (a : VReg) (l : BitVec 4) (s : State) := finishG d (.ok (word (laneOf (s.rv a).bits 32 l.toNat))) s

end Sys2Proof.Machine
end

