-- ==== Sys2Proof/Machine/Tasks.lean ====
section
/-! DEFINITION. Tasks and kernels (R289 to R300, R305, R350, R351): TCBs and their admission, the TCB cache, starting, stowing,
resuming and ending a task, and completion records. -/

namespace Sys2Proof.Machine

/-! ## Kernels (R294, R300) -/

def State.modQueue (s : State) (q : Nat) (f : Queue → Queue) : State :=
  match mfind s.queues q with
  | some x => { s with queues := mset s.queues q (f x) }
  | none => s

/-- Counts one more member run of a kernel (R300). -/
def countMember (s : State) (k : KKey) : State :=
  s.modQueue k.queue (fun q => { q with kern := q.kern.map (fun x => if x.kid = k.kid then { x with run := x.run + 1 } else x) })

/-- The stores that a kernel declares, with their slots (R246, R253). -/
def storesOf (s : State) (k : KKey) : List (Nat × StoreDecl) := s.stores.filter (fun p => p.2.kern == k)

/-- Store S of a kernel: its slot and declaration. -/
def findStore (s : State) (k : KKey) (st : Nat) : Option (Nat × StoreDecl) := (storesOf s k).find? (fun p => p.2.st == st)

/-- The home cluster of a hash value, as a logical number (R250, R309). -/
def homeOfHash (s : State) (h : Word) : Nat := fld h 63 32 * s.nlive / 2 ^ 32

/-- The physical cluster of a logical number taken modulo Nlive. -/
def physOf (s : State) (L : Nat) : Nat := (s.physical (L % s.nlive)).getD 0

/-- A completion record joins its queue's records to be written (R300). -/
def completeRec (s : State) (q : Nat) (r : CompRec) : State := s.modQueue q (fun x => { x with waiting := x.waiting ++ [r] })

/-! ## Messages that wait for a task (R317, R318) -/

/-- Entries of a cluster's message buffer in use (R318). -/
def Cluster.buffered (c : Cluster) : Nat :=
  c.msgBuf.length + c.parkedM.length - (c.spilled.foldl (fun n p => n + p.2) 0)

/-- The old clusters and cores whose messages a shipped task still receives at its new cluster P, where no task of its kernel runs on the old core now (R317). -/
def forwardedTo (s : State) (P idx : Nat) (k : KKey) : List (Nat × Nat) :=
  s.clusters.flatMap (fun (c : Nat × Cluster) => c.2.forwards.filterMap (fun f =>
    if f.kern == k && f.dest == P && f.idx == idx then
      (f.core.filter (fun w => !((s.core w).task.isSome && (s.core w).ctx.kern == k))).map (fun w => (c.1, w))
    else none))

/-- Moves the messages that cluster P's buffer holds for core w's claimant into core u's inbox while it has room, in arrival order (R317, R318). -/
def takeBuffered (s : State) (u P w : Nat) : State :=
  let c := s.core u
  let mine := fun (b : Buffered) => b.core == w && b.msg.kern == c.ctx.kern
  let room := 16 - c.inbox.length
  let take := ((s.cluster P).msgBuf.filter mine).take room
  let s := s.modCluster P (fun k => { k with msgBuf :=
    (k.msgBuf.filter (fun b => !mine b)) ++ ((k.msgBuf.filter mine).drop room) })
  s.modCore u (fun c => { c with inbox := c.inbox ++ take.map (fun b => b.msg),
                                 wait := if c.wait = .inbox ∧ take ≠ [] then .none else c.wait })

/-- Moves the buffered messages of a running claimant into its inbox: those that its old cluster still forwards, then its core's (R317, R318). -/
def fillInbox (s : State) (u : Nat) : State :=
  let P := clusterOf u
  let old := match (s.core u).task with
    | some i => forwardedTo s P i (s.core u).ctx.kern
    | none => []
  (old ++ [(P, u)]).foldl (fun s p => takeBuffered s u p.1 p.2) s

/-! ## Ready levels and the TCB cache (R296, R305) -/

/-- Puts a task at the tail, or the head, of its ready level. -/
def enterLevel (s : State) (P i : Nat) (head : Bool) : State :=
  match mfind (s.cluster P).tcbs i with
  | none => s
  | some t =>
    let s := s.modTask P i (fun t => { t with status := .ready, since := s.now })
    s.modCluster P (fun c => { c with ready := mmod c.ready t.pri [] (fun l => if head then i :: l else l ++ [i]) })

/-- Takes a task out of every ready level. -/
def leaveLevels (s : State) (P i : Nat) : State :=
  s.modCluster P (fun c => { c with ready := c.ready.map (fun p => (p.1, p.2.filter (fun x => x ≠ i))) })

/-- The lowest free TCB-cache entry (R296). -/
def freeEntry (c : Cluster) : Option Nat := lowestFree (c.tcbs.map (fun p => p.1)) 1024

/-- A task takes a cache entry: it becomes ready when its wait mask is zero and waits otherwise (R293); a torn one waits for its restart (R298). -/
def enterCache (s : State) (P i : Nat) (t : Task) : State :=
  if t.status = .torn then s.modCluster P (fun c => { c with tcbs := mset c.tcbs i t })
  else
    let s := s.modCluster P (fun c => { c with tcbs := mset c.tcbs i { t with status := .waiting } })
    if t.wait = 0 then enterLevel s P i false else s

/-- The head of the backlog enters a free cache entry (R296). -/
def pullBacklog (s : State) (P : Nat) : State :=
  match (s.cluster P).backlog, freeEntry (s.cluster P) with
  | t :: rest, some i => enterCache (s.modCluster P (fun c => { c with backlog := rest })) P i t
  | _, _ => s

/-- Admission of a task to a cluster: into its cache, or behind the backlog (R296). -/
def admitTask (s : State) (P : Nat) (t : Task) : State :=
  match (s.cluster P).backlog, freeEntry (s.cluster P) with
  | [], some i => enterCache s P i t
  | _, _ => s.modCluster P (fun c => { c with backlog := c.backlog ++ [t] })

/-- Whether a backlog has room (R296). -/
def backlogRoom (s : State) (P : Nat) : Bool := decide ((s.cluster P).backlog.length < 2 ^ 20)

/-- A cache entry becomes free; its stowed handles are unbound, and the backlog moves up (R193, R296). -/
def dropEntry (s : State) (P i : Nat) : State :=
  match mfind (s.cluster P).tcbs i with
  | none => s
  | some t =>
    let s := (t.handles ++ t.members.flatMap (fun m => m.2.handles)).foldl (fun s h => releaseHandle s P h) (leaveLevels s P i)
    let s := s.modCluster P (fun c => { c with tcbs := mdel c.tcbs i, reserv := c.reserv.filter (fun r => r.idx ≠ i) })
    let s := s.mapCores (fun u c => if clusterOf u = P then { c with deque := c.deque.filter (fun x => x ≠ i) } else c)
    pullBacklog s P

/-! ## The task control block (R289 to R291) -/

/-- The 24 doublewords of a TCB. -/
structure Tcb where
  dws : List Word
  deriving DecidableEq, Repr

def Tcb.dw (t : Tcb) (k : Nat) : Word := t.dws.getD k 0
def Tcb.flags (t : Tcb) : Word := t.dw 1
/-- GANG, priority, KEEP, LASTK and the cluster named under CL (R290). -/
def Tcb.gang (t : Tcb) : Nat := fld t.flags 17 16
def Tcb.pri (t : Tcb) : Nat := fld t.flags 2 0
def Tcb.lastk (t : Tcb) : Bool := bitAt t.flags 19
def Tcb.named (t : Tcb) : Option Nat := if bitAt t.flags 23 then some (fld t.flags 29 24) else none
def Tcb.kid (t : Tcb) : BitVec 32 := BitVec.ofNat 32 (t.dw 13).toNat
/-- A 256-bit mask in four doublewords. -/
def Tcb.mask (t : Tcb) (k : Nat) : BitVec 256 :=
  BitVec.ofNat 256 ((t.dw k).toNat + 2 ^ 64 * ((t.dw (k + 1)).toNat + 2 ^ 64 * ((t.dw (k + 2)).toNat + 2 ^ 64 * (t.dw (k + 3)).toNat)))

/-- Whether a cluster, or a tile, holds a quarantined core (R28). -/
def quarantinedIn (s : State) (us : List Nat) : Bool := us.any (fun u => (s.core u).status == .quarantined)

/-- Whether a cluster has the cores that a unit of work needs: a tile without a quarantined core, or no quarantined core at all (R291). -/
def gangFits (s : State) (P : Nat) (k : TKind) : Bool :=
  match k with
  | .tileGang => (below 8).any (fun k => !quarantinedIn s (coresOfTile (8 * P + k)))
  | .clusterGang => !quarantinedIn s (coresOf P)
  | _ => true

/-- The kind of a TCB's work (R290). -/
def Tcb.kind (t : Tcb) : TKind :=
  match t.gang with
  | 0 => .task
  | 1 => .thread
  | 2 => .tileGang
  | _ => .clusterGang

/-- The field checks of an admission (R289 to R291); STATE must be 0 as software writes it. -/
def Tcb.ok (t : Tcb) (s : State) (P : Nat) : Bool :=
  fld (t.dw 0) 63 56 == 0 && !bitAt (t.dw 0) 0
    && fld t.flags 63 30 == 0 && fld t.flags 22 20 == 0 && fld t.flags 15 3 == 0
    && t.dw 8 != 0 && !bitAt (t.dw 8) 63
    && (t.dw 9).toNat % 8 == 0
    && fld (t.dw 10) 31 22 == 0 && fld (t.dw 10) 63 54 == 0 && fld (t.dw 10) 21 0 % 64 == 0 && fld (t.dw 10) 53 32 % 64 == 0
    && (t.dw 11).toNat % 64 == 0 && (t.dw 12).toNat % 64 == 0 && ((t.dw 12 != 0) == decide (2 ≤ t.gang))
    && fld (t.dw 13) 63 32 == 0 && t.dw 14 == 0 && fld (t.dw 15) 63 32 == 0
    && gangFits s P t.kind

/-- An address in the local window as the global window names it, for an agent of another cluster. -/
def globalise (s : State) (P : Nat) (va : Word) : Word :=
  if inLocalWin va then word (globalWin + s.logicalNo P * sramSize + (va.toNat - localWin)) else va

/-- The task of an admitted TCB; `home` is the cluster whose local window the TCB's address meant. -/
def Tcb.task (t : Tcb) (s : State) (home : Nat) (kern : KKey) (tenant det : Nat) (ord : Word) (va : Word)
    (bound : Option Nat) : Task :=
  { kind := t.kind, kern := kern, tenant := tenant, det := det, entry := sext56 (t.dw 0), args := (t.dws.drop 2).take 6,
    path := t.dw 8, jaddr := t.dw 9, ord := BitVec.ofNat 32 ord.toNat, footB := fld (t.dw 10) 21 0,
    footL := fld (t.dw 10) 53 32, stowa := t.dw 11, tsave := t.dw 12, vt := t.dw 14, wait := t.mask 16, setm := t.mask 20,
    keep := bitAt t.flags 18, base := t.pri, pri := t.pri, since := s.now, tcba := globalise s home va, named := t.named, bound := bound,
    status := .waiting, stowed := false, act := none, lastOn := none, lastAt := 0, msgs := [], ports := [], handles := [], trapRec := none,
    slotMeta := [], members := [], exited := [] }

/-- The core number within its cluster that a D1 admission binds its task to, and the count of admissions (R309). -/
def bindCore (s : State) (q P det gang : Nat) : Option Nat × State :=
  if det = 1 ∧ gang = 0 then
    let n := mget (s.cluster P).admitted q 0
    (some (n % 32), s.modCluster P (fun c => { c with admitted := mset c.admitted q (n + 1) }))
  else (none, s)

/-- The device reads memory for itself: none where the access does not complete. -/
def deviceRead (s : State) (w : Who) (va : Word) (len : Nat) : Option (List Byte × State) :=
  match loadBytes w va len s with
  | .ok r => some r
  | .error _ => none

/-- The device writes memory for itself: none where the access does not complete. -/
def deviceWrite (s : State) (w : Who) (va : Word) (bs : List Byte) : Option State :=
  match storeBytes w .store va bs none false s with
  | .ok (_, s') => some s'
  | .error _ => none

/-- The little-endian doublewords of a byte list. -/
def dwordsOf (bs : List Byte) (n : Nat) : List Word := (below n).map (fun k => word (leNat ((bs.drop (8 * k)).take 8)))

/-! ## Regeneration (R111) -/

/-- The base address of the page of an address. -/
def pageBase (va : Word) (big : Bool) : Word := word (va.toNat / (if big then 2 ^ 25 else 2 ^ 16) * (if big then 2 ^ 25 else 2 ^ 16))
/-- Frames of 64 KiB that a page takes. -/
def framesOf (big : Bool) : Nat := if big then 512 else 1

/-- The queue whose notify page an address maps. -/
def queueAt (s : State) (va : Word) : Option Nat :=
  match walk s va with
  | .leaf pte big =>
    match apertureOf (ptePa pte + va.toNat % (if big then 2 ^ 25 else 2 ^ 16)) with
    | .queue n _ => some n
    | _ => none
  | _ => none

/-- Launches the regeneration of a page: a copy of the entry's template, with g2 and g3 set, is placed on the entry's queue as a notify
store admits a task. None where the entry, the template or the ring cannot take it. -/
def launchRegen (s : State) (page : Word) (big : Bool) (index : Nat) (engines : List Source) : Option State := do
  let w := engineWho none 0
  let die := s.die (homeDie page)
  let (bs, s) ← deviceRead s w (die.rgbase + word (16 * index)) 16
  let n ← queueAt s (word (leNat (bs.take 8)))
  let q ← mfind s.queues n
  let (tb, s) ← deviceRead s w (word (leNat (bs.drop 8))) 192
  let tb := tb.take 16 ++ leBytes 8 page.toNat ++ leBytes 8 index ++ tb.drop 32
  if 2 ^ q.desc.lslot ≤ (q.tail - q.head).toNat then none
  else
    let s ← deviceWrite s w (q.desc.ring + word (192 * (q.tail.toNat % 2 ^ q.desc.lslot))) tb
    let kid : BitVec 32 := BitVec.ofNat 32 (leNat ((tb.drop 104).take 4))
    let r : RegenWait := { page := page, big := big, index := index, kern := ⟨n, kid⟩, slot := q.tail, engines := engines, failed := false }
    let s : State := { s with regens := s.regens ++ [r] }
    some (s.modQueue n (fun q => { q with tail := q.tail + 1, tails := q.tails ++ [(q.tail + 1, s.now)] }))

/-- Whether an engine's access waited for a page whose regeneration has failed, and has still to fault (R111). -/
def RegenWait.failsFor (r : RegenWait) (page : Word) (src : Option Source) : Bool :=
  r.failed && r.page == page && r.engines.any (fun x => some x == src)

/-- An engine's access that has faulted leaves the failed regenerations it waited for. -/
def leaveRegen (s : State) (page : Word) (src : Option Source) : State :=
  let left := s.regens.map (fun (r : RegenWait) =>
    if r.failsFor page src then { r with engines := r.engines.filter (fun x => some x != src) } else r)
  { s with regens := left.filter (fun r => !r.failed || !r.engines.isEmpty) }

/-- An engine's access waits for a frame, 2^20 cycles at most: whether it has waited so long, and the state (R112). -/
def awaitFrame (s : State) (page : Word) (src : Option Source) : Bool × State :=
  match src with
  | none => (false, s)
  | some x =>
    match s.frameWaits.find? (fun f => f.src == x && f.page == page) with
    | none => (false, { s with frameWaits := s.frameWaits ++ [⟨x, page, s.now⟩] })
    | some f => if f.since + 2 ^ 20 ≤ s.now then (true, { s with frameWaits := s.frameWaits.erase f }) else (false, s)

/-- A fault on a page that can be regenerated, of a core or the device itself, or of an engine `src`: it joins a launch that runs, waits for a frame, or launches
(R111, R112). The answer says whether the access must raise PAGE_FAULT instead. -/
def faultRegen (s : State) (va : Word) (src : Option Source) : Bool × State :=
  match walk s va with
  | .regen i big =>
    let page := pageBase va big
    let joins := fun (r : RegenWait) => r.page == page && r.big == big && !r.failed
    if s.regens.any (fun r => r.failsFor page src) then (true, leaveRegen s page src)
    else if s.regens.any joins then
      (false, { s with regens := s.regens.map (fun (r : RegenWait) =>
        if joins r then { r with engines := (r.engines ++ src.toList).dedup } else r) })
    else if s.freeFrames < framesOf big then awaitFrame s page src
    else
      let s := { s with frameWaits := s.frameWaits.filter (fun f => some f.src != src || f.page != page) }
      match launchRegen s page big i src.toList with
      | some s => (false, { s with freeFrames := s.freeFrames - framesOf big })
      | none => (true, s)
  | .leaf _ _ => (false, s)
  | .fail => (true, s)

/-- An access by the device or an engine: what it answers; or whether it has failed, with the state. A page that can be regenerated is launched, and the access
waits (R111). -/
def deviceAccess {α : Type} (s : State) (src : Source) (m : M α) : Except (Bool × State) (α × State) :=
  match m s with
  | .ok r => .ok r
  | .error (.wait (.page va)) => .error (faultRegen s va (some src))
  | .error (.wait _) => .error (false, s)
  | .error (.trap _) => .error (true, s)

/-- An access of the device that has not been done: whether it waits, and the state, in which a page that can be regenerated is launched (R111). -/
def waitFor {α : Type} (s : State) (src : Source) (r : Except Stop α) : Bool × State :=
  match r with
  | .error (.wait (.page va)) =>
    let x := faultRegen s va (some src)
    (!x.1, x.2)
  | .error (.wait _) => (true, s)
  | _ => (false, s)

/-- Writes STATE in a memory TCB, and no other byte of it; a write whose page or bank only waits is made later, in its turn (R290, R298). -/
def writeTcbState (s : State) (P : Nat) (tcba : Word) (v : Nat) : State :=
  if tcba = 0 then s
  else
    let later := fun (s : State) => s.modCluster P (fun c => { c with tcbWrites := c.tcbWrites ++ [(tcba, v)] })
    if (s.cluster P).tcbWrites.any (fun x => x.1 == tcba) then later s
    else match storeBytes (engineWho none P) .store (tcba + 12) [BitVec.ofNat 8 v] none false s with
      | .ok (_, s) => s
      | .error e => match waitFor s (.tcb P) (.error e : Except Stop Unit) with
        | (true, s) => later s
        | (false, s) => s

/-- The writes of STATE that wait are tried again, when pages, banks or paths that accesses wait for have come (R96, R111, R298). -/
def retryTcbWrites (s : State) : State :=
  s.clusters.foldl (fun s (p : Nat × Cluster) =>
    p.2.tcbWrites.foldl (fun s (x : Word × Nat) => writeTcbState s p.1 x.1 x.2) (s.modCluster p.1 (fun c => { c with tcbWrites := [] }))) s

/-! ## The stow image (R351) -/

/-- Where an image or a context buffer of a cache entry lies, and a task's stow area (R289, R296). -/
def frameLoc (s : State) (P i : Nat) : Nat := (s.cluster P).frames + 1536 * i
def contextLoc (s : State) (P i : Nat) : Nat := (s.cluster P).ctxs + 2048 * i
def contextVa (s : State) (P i : Nat) : Word := (s.cluster P).ctxVa + word (2048 * i)

/-- A handle as the image holds it: descriptor address, use and bound bit. -/
def handleWord (h : Handle) : Word :=
  match h with
  | .unbound => 0
  | .ring _ addr use => word (fld (localVa addr) 55 0 + 2 ^ 56 * use + 2 ^ 63)
  | .drain => word (2 ^ 57 + 2 ^ 63)

/-- The count of an order tag's sender sequence for a core's task: per kernel and core at D0, and for tasks at D1; per task or
activation otherwise (R252, R270). -/
def perCoreSeq (det : Nat) (act : Bool) : Bool := det == 0 || (det == 1 && !act)
/-- The sequence that a core's kernel has reached. -/
def Core.kernSeq (c : Core) (k : KKey) : BitVec 32 := ((c.kseq.find? (fun p => p.1 == k)).map (fun p => p.2)).getD 0
def Core.setKernSeq (c : Core) (k : KKey) (x : BitVec 32) : Core :=
  { c with kseq := (c.kseq.filter (fun p => p.1 != k)) ++ [(k, x)] }

/-- Whether core u runs an activation. -/
def isAct (s : State) (u : Nat) : Bool :=
  match s.taskOf u with
  | some t => t.act.isSome
  | none => false

/-- The sender sequence that core u's next sending takes (R252, R270). -/
def senderSeq (s : State) (u : Nat) : BitVec 32 :=
  let c := s.core u
  if perCoreSeq c.ctx.det (isAct s u) then c.kernSeq c.ctx.kern else c.ctx.seq
/-- One sending counted. -/
def bumpSeq (s : State) (u : Nat) : State :=
  let act := isAct s u
  s.modCore u (fun c =>
    if perCoreSeq c.ctx.det act then c.setKernSeq c.ctx.kern (c.kernSeq c.ctx.kern + 1)
    else { c with ctx := { c.ctx with seq := c.ctx.seq + 1 } })

/-- FLAGS of an image (R351). -/
def imageFlags (s : State) (u : Nat) (latched trapped : Bool) : Word :=
  let c := s.core u
  let a := (s.taskOf u).bind (fun t => t.act)
  word ((if a.isSome then 1 else 0) + (if (a.map (fun x => x.nrst)).getD false then 2 else 0) + (if latched then 4 else 0)
    + (if trapped then 8 else 0) + 2 ^ 16 * c.ctx.gbar.toNat + 2 ^ 48 * c.seqNo.toNat)

/-- The 1,536-byte image of core u's task, with its PC, LATCHED, TRAPPED and message count (R351). -/
def stowImage (s : State) (u : Nat) (pc : Word) (latched trapped : Bool) (msgs : Nat) : List Byte :=
  let c := s.core u
  let act := (s.taskOf u).bind (fun t => t.act)
  let w := fun (x : Word) => leBytes 8 x.toNat
  (below 16).flatMap (fun k => leBytes 64 (c.rv (BitVec.ofNat 4 k)).bits.toNat)
    ++ (below 32).flatMap (fun k => w (c.rg (BitVec.ofNat 5 k)))
    ++ (below 16).flatMap (fun k => leBytes 2 (c.rv (BitVec.ofNat 4 k)).tag.toNat)
    ++ w pc ++ w c.lcnt ++ w c.lbeg ++ w c.lend
    ++ (below 8).flatMap (fun k => w (handleWord (c.rh (BitVec.ofNat 3 k))))
    ++ w c.vt ++ w c.ctx.path ++ w c.ctx.jaddr ++ w (word (c.ctx.ord.toNat + 2 ^ 32 * (senderSeq s u).toNat))
    ++ w (word c.ctx.det) ++ w (word c.ctx.wdt) ++ w (word (fld c.ctx.ctxb 55 0)) ++ w c.ctx.tcba
    ++ w (imageFlags s u latched trapped)
    ++ (below 4).flatMap (fun k => w ((act.map (fun x => x.start.getD k 0)).getD 0))
    ++ w (word (c.ctx.kern.kid.toNat + 2 ^ 32 * msgs)) ++ List.replicate 16 0

/-- A doubleword of an image. -/
def imageDw (img : List Byte) (off : Nat) : Word := word (leNat ((img.drop off).take 8))

/-- Where a task's image stands: its stow area, or the frame of its entry (R296). -/
def readImage (s : State) (P i : Nat) (t : Task) : Option (List Byte × State) :=
  if t.stowa = 0 then some (s.mem.bytes (frameLoc s P i) 1536, s) else deviceRead s (engineWho none P) t.stowa 1536
def writeImage (s : State) (P i : Nat) (t : Task) (off : Nat) (bs : List Byte) : Option State :=
  if t.stowa = 0 then some (performWrites s (writesAt (frameLoc s P i + off) bs))
  else deviceWrite s (engineWho none P) (t.stowa + word off) bs

/-- Rebinds one saved handle: the binding that the stowed task kept, or, where the image names another, a new one (R193). -/
def rebind (s : State) (P : Nat) (kept : Handle) (w : Word) : Handle × State :=
  if handleWord kept = w then (kept, s)
  else
    let s := releaseHandle s P kept
    let va := sext56 w
    let use := fld w 57 56
    if !bitAt w 63 then (.unbound, s)
    else if use = 2 then (.drain, s)
    else if inLocalWin va ∧ va.toNat % 16 = 0 then
      match bindRing s P (va.toNat - localWin) with
      | some (id, s) => (.ring id (va.toNat - localWin) use, s)
      | none => (.unbound, s)
    else (.unbound, s)

/-- Rebinds handles in order. -/
def rebindAll (s : State) (P : Nat) : List (Handle × Word) → List Handle × State
  | [] => ([], s)
  | (h, w) :: t =>
    let r := rebind s P h w
    let rs := rebindAll r.2 P t
    (r.1 :: rs.1, rs.2)

/-- Core registers from an image; CTXB stays that of the entry the task holds now (R351, R365). LBEG and LEND are 56 bits, sign-extended (R77); an odd PC, LBEG or
LEND, which only an edited image can hold, is loaded as it stands (log entry 56). -/
def Core.fromImage (c : Core) (img : List Byte) : Core :=
  { c with
    g := Vector.ofFn (fun (k : Fin 32) => if k.val = 0 then 0 else imageDw img (0x400 + 8 * k.val)),
    v := Vector.ofFn (fun (k : Fin 16) => ⟨BitVec.ofNat 512 (leNat ((img.drop (64 * k.val)).take 64)),
                                           BitVec.ofNat 16 (leNat ((img.drop (0x500 + 2 * k.val)).take 2))⟩),
    pc := imageDw img 0x520, lcnt := imageDw img 0x528, lbeg := sext56 (imageDw img 0x530), lend := sext56 (imageDw img 0x538),
    vt := imageDw img 0x580,
    ctx := { c.ctx with
      path := imageDw img 0x588, jaddr := imageDw img 0x590, ord := BitVec.ofNat 32 (fld (imageDw img 0x598) 31 0),
      seq := BitVec.ofNat 32 (fld (imageDw img 0x598) 63 32), det := fld (imageDw img 0x5A0) 1 0,
      wdt := fld (imageDw img 0x5A8) 5 0, tcba := imageDw img 0x5B8,
      latched := bitAt (imageDw img 0x5C0) 2, gbar := BitVec.ofNat 32 (fld (imageDw img 0x5C0) 47 16) } }

/-! ## Starting (R292) -/

/-- A core as a task finds it: everything that R292 gives, the rest 0; the PLB flushed for another tenant (R92). The from-address of a fetch fault at its first
instruction is 0, that of a resumed task too, whose image has no field for it (log entry 57). -/
def Core.started (c : Core) (t : Task) (idx : Nat) (ctxb : Word) (now : Nat) : Core :=
  let arg := fun (k : Nat) => if 2 ≤ k ∧ k < 8 then t.args.getD (k - 2) 0 else 0
  { c with
    g := Vector.ofFn (fun (k : Fin 32) => arg k.val),
    v := match t.act.bind (fun a => a.msg) with
      | some m => (Vector.replicate 16 VVal.zero).set 0 m
      | none => Vector.replicate 16 VVal.zero,
    pc := t.entry, from_ := 0, lcnt := 0, lbeg := 0, lend := 0, h := Vector.replicate 8 .unbound, vt := t.vt,
    ctx := { kern := t.kern, tenant := t.tenant, det := t.det, path := t.path, jaddr := t.jaddr, ord := t.ord, seq := 0,
             tcba := BitVec.ofNat 64 (fld t.tcba 55 0), ctxb := ctxb, wdt := 26, latched := false, gbar := 0,
             arrived := false, rank := 0 },
    task := some idx, status := .running, wait := .none, stowing := none, pop := none, wdStart := now, outbox := [], inbox := [],
    redirect := [], fetchWait := false, sample := none, early := none,
    plb := if c.plbFor = some t.tenant then c.plb else [], plbFor := some t.tenant }

/-- Receive sides with the messages that a stow spilled put back ahead (R72, R324). -/
def withPorts (now back : AMap (List Msg)) : AMap (List Msg) := back.foldl (fun m p => mset m p.1 (p.2 ++ mget m p.1 [])) now

/-- Core u takes up what a stow has saved of task `idx`, of the gang member of a rank: the image, the bindings, the inbox and the port receive sides
(R72, R351). At D1 the sender sequence goes with a task that has changed its core (R252). -/
def restoreOn (s : State) (u idx rank : Nat) (t : Task) (m : Member) : State :=
  let P := clusterOf u
  let ws := (below 8).map (fun k => imageDw m.image (0x540 + 8 * k))
  let kept := (below 8).map (fun k => m.handles.getD k .unbound)
  let (hs, s) := rebindAll s P (kept.zip ws)
  s.modCore u (fun c =>
    let c := (c.started t idx (contextVa s P idx) s.now).fromImage m.image
    let moved := t.lastOn.map (fun v => v + rank) ≠ some u
    let c := if perCoreSeq c.ctx.det t.act.isSome ∧ moved ∧ c.ctx.det = 1 then c.setKernSeq t.kern c.ctx.seq else c
    { c with h := Vector.ofFn (fun (k : Fin 8) => hs.getD k.val .unbound), inbox := m.msgs, rxPorts := withPorts c.rxPorts m.ports,
             ctx := { c.ctx with rank := rank, arrived := m.arrived } })

/-- A task that has taken its core: it acquires, and the messages that wait for it enter its inbox (R301, R302, R320). -/
def begun (s : State) (u : Nat) : State := fillInbox (acquire s u) u

/-- Core u starts a task that it has taken from the ready work: afresh, or from its stow image (R292, R351, R353). A latched watchdog
is taken before the first instruction. While the stow area waits, its page is launched and the core stays reserved for the task (R111); an image that cannot be
read leaves the task stowed. -/
def startOn (s : State) (u idx : Nat) : State :=
  let P := clusterOf u
  match mfind (s.cluster P).tcbs idx with
  | none => s
  | some t =>
    let run := fun (s : State) => s.modTask P idx (fun t =>
      { t with status := .running, stowed := false, lastOn := some u, lastAt := s.now, handles := [], trapRec := none, msgs := [], ports := [] })
    if t.stowed then
      match readImage s P idx t with
      | none => match waitFor s (.area P idx) (loadBytes (engineWho none P) t.stowa 1536 s) with
        | (true, s) => s.modCluster P (fun c => { c with reserv := c.reserv ++ [⟨idx, [u], s.now⟩] })
        | (false, s) => leaveLevels s P idx
      | some (img, s) =>
        let m : Member := { image := img, handles := t.handles, msgs := t.msgs, ports := t.ports, trapRec := none, arrived := false }
        let nrst := bitAt (imageDw img 0x5C0) 1
        let s := (run (restoreOn (leaveLevels s P idx) u idx 0 t m)).modTask P idx (fun t =>
          { t with act := t.act.map (fun a => { a with nrst := a.nrst || nrst }) })
        begun s u
    else
      let s := run (leaveLevels s P idx)
      let s := if t.lastOn.isNone then countMember s t.kern else s
      begun (s.modCore u (fun c => c.started t idx (contextVa s P idx) s.now)) u

/-! ## Ending (R302, R312) -/

/-- Core u runs nothing: registers stay as they are until the next start. -/
def Core.freed (c : Core) : Core :=
  { c with task := none, status := .free, wait := .none, stowing := none, pop := none, inbox := [], outbox := [], redirect := [], fetchWait := false,
           sample := none, early := none,
           lcnt := 0, lend := if c.loopIdle then c.lend else 0, ctx := { c.ctx with latched := false } }

/-- The messages of a core's inbox go back to the cluster's buffer, ahead of those that wait there (R317); they had been accepted, and go back to a full buffer
too (log entry 27). -/
def returnInbox (s : State) (u : Nat) : State :=
  let ms := (s.core u).inbox.map (fun m => (⟨u, m, true⟩ : Buffered))
  (s.modCluster (clusterOf u) (fun c => { c with msgBuf := ms ++ c.msgBuf })).modCore u (fun c => { c with inbox := [] })

/-- Frees core u after its handles are unbound (R193, R312). -/
def freeCore (s : State) (u : Nat) : State := (releaseHandles (returnInbox s u) u).modCore u Core.freed

/-- The exit setting of a task's SET bits reaches the scheduler (R302, R304). -/
def postSetBits (s : State) (P u : Nat) (m : BitVec 256) : State :=
  if m = 0 then s else s.modCluster P (fun c => { c with ebq := c.ebq ++ [⟨u, true, m⟩] })

/-- The work of a gang. -/
def TKind.gang : TKind → Bool
  | .tileGang | .clusterGang => true
  | _ => false
/-- The lower class of R18. -/
def TKind.lower : TKind → Bool
  | .thread | .tileGang | .clusterGang => true
  | _ => false
/-- Members of a unit of work (R313). -/
def TKind.size : TKind → Nat
  | .tileGang => 4
  | .clusterGang => 32
  | _ => 1

/-- Core u's task ends: for a gang, this member does, and the gang with its last member (R302, R312). -/
def endOn (s : State) (u : Nat) : State :=
  let P := clusterOf u
  match (s.core u).task, s.taskOf u with
  | some i, some t =>
    let rank := (s.core u).ctx.rank
    let s := freeCore s u
    let gone := rank :: t.exited
    if t.kind.gang ∧ gone.length < t.kind.size then s.modTask P i (fun t => { t with exited := gone })
    else
      let s := if t.kind.gang then (tilesOf P).foldl (fun s k => if (s.tile k).gang = some i then s.modTile k (fun x => { x with gang := none }) else s) s else s
      dropEntry (postSetBits s P u t.setm) P i
  | _, _ => freeCore s u

/-- The instruction that ends core u's task retires, and the task ends (R302, R312, R355). -/
def endRetired (s : State) (u : Nat) : State := endOn (s.modCore u (fun c => c.retireCounts s.now)) u

/-! ## The end of a kernel (R294, R300, R317) -/

/-- Removes the stores that meet a condition, with everything their slices hold and the traffic to them (R276, R283). -/
def dropStores (s : State) (p : StoreDecl → Bool) : State :=
  let slots := (s.stores.filter (fun x => p x.2)).map (fun x => x.1)
  let gone := fun (k : KKey) (st : Nat) => s.stores.any (fun x => p x.2 && x.2.kern == k && x.2.st == st)
  let s := { s with stores := s.stores.filter (fun x => !p x.2), upds := s.upds.filter (fun x => !gone x.kern x.st),
                    fansOut := s.fansOut.filter (fun x => !gone x.kern x.st) }
  let s := s.mapClusters (fun _ c => { c with slices := c.slices.filter (fun x => !slots.contains x.1) })
  if s.stores.isEmpty then { s with beaconB := 0 } else s

/-- A port's sides without a kernel's messages. -/
def withoutKernel (m : AMap (List Msg)) (k : KKey) : AMap (List Msg) := m.map (fun p => (p.1, p.2.filter (fun x => x.kern != k)))

/-- Discards the messages that clusters hold for a kernel, and counts them; those on ports go with it (R317; log entry 27). Its queue's spill segments are free
again (R322). -/
def dropMessages (s : State) (k : KKey) : State :=
  (({ s with msgs := s.msgs.filter (fun m => m.kern != k) }).mapCores (fun _ c =>
    { c with rxPorts := withoutKernel c.rxPorts k, txPorts := withoutKernel c.txPorts k })).mapClusters (fun _ c =>
    { c with msgBuf := c.msgBuf.filter (fun b => b.msg.kern != k), parkedM := c.parkedM.filter (fun m => m.kern != k),
             discard := c.discard + c.msgBuf.countP (fun (b : Buffered) => b.msg.kern == k)
                                  + c.parkedM.countP (fun (m : Msg) => m.kern == k),
             spilled := mdel c.spilled k.queue, forwards := c.forwards.filter (fun f => f.kern != k) })

/-- The release of a core that is stopped; its requests that a path has cut off stay on their way (R138, R139). -/
def releaseStopped (s : State) (u scope : Nat) : State :=
  let off := fun (r : Req) => r.pendingOf u && r.cut s
  let t := releaseTo { s with reqs := s.reqs.filter (fun r => !off r) } u scope
  { t with reqs := s.reqs.filter off ++ t.reqs }

/-- Whether core u's instruction has requests on their way that a path has cut off, for which what releases them waits (R138). -/
def cutOff (s : State) (u : Nat) : Bool := s.reqs.any (fun r => r.pendingOf u && r.cut s)

/-- Whether the instruction of a request has retired: an atomic with D = 0, or a remote store (R135, R334). -/
def Req.retired (r : Req) : Bool := r.d == 0 && (match r.kind with | .peek _ _ _ => false | _ => true)

/-- The requests and commands of a core that no longer waits for them run to their end, and their answers are dropped, one that has come among them (R139, R205). -/
def orphan (s : State) (u : Nat) : State :=
  let cut := fun (c : CpCmd) => { c with core := if c.core = some u then none else c.core }
  let cutSub := fun (x : Sub) => { x with jobs := x.jobs.map (fun j => { j with cmd := cut j.cmd }) }
  { s with reqs := (s.reqs.filter (fun r => r.core != some u || r.done.isNone || r.retired)).map
             (fun (r : Req) => { r with core := if r.core = some u then none else r.core }),
           engines := s.engines.map (fun p => (p.1, p.2.map cut)),
           streamers := s.streamers.map (fun (p : Nat × Streamer) =>
             (p.1, { queue := p.2.queue.map cut, subs := p.2.subs.map (fun x => (x.1, cutSub x.2)) })),
           upds := s.upds.map (fun (x : Update) => { x with reply := if x.reply = some u then none else x.reply }) }

/-- No core counts on under the KID of a kernel that has ended: the next kernel of that KID counts from its first task (R252, R270). -/
def forgetSeq (s : State) (k : KKey) : State := s.mapCores (fun _ c => { c with kseq := c.kseq.filter (fun p => p.1 != k) })

/-- Stops every member of a kernel: running cores become free, cached and waiting tasks leave (R348), and no core counts on under its KID. -/
def stopMembers (s : State) (k : KKey) : State :=
  let us := (s.cores.filter (fun p => p.2.task.isSome && p.2.ctx.kern == k)).map (fun p => p.1)
  let s := us.foldl (fun s u => releaseStopped (dropWait s u) u 4) s
  let s := us.foldl orphan (us.foldl freeCore s)
  let es := s.clusters.flatMap (fun c => (c.2.tcbs.filter (fun t => t.2.kern == k)).map (fun t => (c.1, t.1)))
  let s := s.mapClusters (fun _ c => { c with backlog := c.backlog.filter (fun t => t.kern != k) })
  let s := es.foldl (fun s (e : Nat × Nat) => dropEntry s e.1 e.2) s
  (forgetSeq s k).mapTiles (fun t x => if es.any (fun e => e.1 == t / 8 && some e.2 == x.gang) then { x with gang := none } else x)

/-- Ends a kernel with a cause: its members are stopped, its stores and messages go with it, and its completion record is formed
(R300, R348). TCBs of the kernel still in the ring belong to it and never start (log entry 24). -/
def endKernel (s : State) (k : KKey) (cause : Cause) (pc : Word) (unit : Nat) : State :=
  match (mfind s.queues k.queue).bind (fun q => q.kern) with
  | none => s
  | some x =>
    if x.kid ≠ k.kid ∨ x.ended = true then s
    else
      let s := dropMessages (dropStores (stopMembers s k) (fun d => d.kern == k)) k
      let s := completeRec s k.queue { unit := unit, cause := cause, kid := k.kid, members := x.run, pc := pc }
      s.modQueue k.queue (fun q => { q with kern := if x.lastk then none else some { x with ended := true } })

/-! ## Stowing (R350) -/

/-- Writes a context buffer: 16 messages of 128 bytes, the header's bytes as the device lays them out (R296, R322; log entry 25). -/
def writeContext (s : State) (P i : Nat) (ms : List Msg) : State :=
  (ms.zip (below ms.length)).foldl (fun s m =>
    let hdr := (below 8).flatMap (fun k => leBytes 8 (Config.freeWord (s.freeCtr + k)).toNat)
    let s := { s with freeCtr := s.freeCtr + 8 }
    performWrites s (writesAt (contextLoc s P i + 128 * m.2) (leBytes 64 m.1.val.bits.toNat ++ hdr))) s

/-- Whether core u waits for the reply to a request it has sent (R350 step 1). -/
def Core.awaitsReply (c : Core) : Bool :=
  match c.wait with
  | .request | .command _ | .ebApply | .bankSwitch => true
  | _ => false

/-- The messages that a stow moves to the context buffer: the inbox, then the port receive sides (R324, R350). -/
def Core.spilled (c : Core) : List Msg := c.inbox ++ c.rxPorts.flatMap (fun p => p.2)

/-- Whether core u's stow ends in this step: at once in a step that performs its requests, else when one that has begun goes on, or by a free choice; the
state with the stow begun where it does not (R354; log entry 29). Requests that a path has cut off hold it (R138). -/
def beginStow (s : State) (u : Nat) (why : StowWhy) : Bool × State :=
  if cutOff s u then (false, s.modCore u (fun c => { c with stowing := some (c.stowing.getD (why, s.now)) }))
  else if s.eager || (s.core u).stowing.isSome then (true, s)
  else if Config.freeBool s.freeCtr then (true, s.tickFree)
  else (false, s.tickFree.modCore u (fun c => { c with stowing := some (why, s.now) }))

/-- The stow of core u's task goes on after this step: its stow area, or the release of its outbox, waits (R350, R354). -/
def holdStow (s : State) (u : Nat) (why : StowWhy) : State :=
  s.modCore u (fun c => { c with stowing := some (c.stowing.getD (why, s.now)) })

/-- Whether the write of an image has to wait, for a page or a bank of the task's stow area, and the state, in which a page is launched (R96, R111, R350). -/
def stowArea (s : State) (P i : Nat) (t : Task) : Bool × State :=
  if t.stowa = 0 then (false, s)
  else waitFor s (.area P i) (storeBytes (engineWho none P) .store t.stowa (List.replicate 1536 0) none false s)

/-- Latches a watchdog that has expired by the time the stow ends (R353). -/
def latchExpired (s : State) (u : Nat) : State :=
  let c := s.core u
  if c.status = .running ∧ c.wdStart + 2 ^ c.ctx.wdt ≤ s.now then
    s.modCore u (fun c => { c with ctx := { c.ctx with latched := true } })
  else s

/-- A core whose task has been stowed. -/
def Core.vacated (c : Core) : Core := ({ c with h := Vector.replicate 8 .unbound, inbox := [], rxPorts := [] }).freed

/-- The stow of core u's task, other than a gang member: the wait is discarded, the accesses are performed, the image and the context
buffer are written, and the core becomes free; messages of receive sides that the buffer's 16 places do not take stay with the scheduler (log entry 25). None where the stow area does not take the image (R307, R350). -/
def stowOn (s : State) (u : Nat) (trapped : Option TrapRecord) : Option State :=
  let P := clusterOf u
  match (s.core u).task, s.taskOf u with
  | some i, some t =>
    let s := releaseTo (dropWait (latchExpired s u) u) u 4
    let c := s.core u
    match writeImage s P i t 0 (stowImage s u c.pc c.ctx.latched trapped.isSome (min 16 c.spilled.length)) with
    | none => none
    | some s =>
      let s := (writeContext s P i (c.spilled.take 16)).modCore u Core.vacated
      let s := s.modTask P i (fun t =>
        { t with stowed := true, status := if trapped.isSome then .trapped else .stowed, handles := c.h.toList, msgs := c.inbox, ports := c.rxPorts,
                 trapRec := trapped, lastOn := some u, lastAt := s.now })
      some (writeTcbState s P t.tcba 1)
  | _, _ => none

end Sys2Proof.Machine
end

