-- ==== Sys2Proof/Machine/Scheduler.lean ====
section
/-! DEFINITION. The hardware scheduler and the task instructions (R293, R301 to R313). -/

namespace Sys2Proof.Machine

/-! ## Event bits (R301 to R304) -/

/-- Applies the settings that reached the scheduler, in arrival order; an EBSET or EBCLR that waits for it retires (R301, R304). -/
def applyArrivals (s : State) (P : Nat) : State :=
  let q := (s.cluster P).ebq
  q.foldl (fun s (a : EbArrival) =>
      let s := s.modCluster P (fun c => { c with ebits := if a.set then c.ebits ||| a.mask else c.ebits &&& ~~~a.mask })
      if (s.core a.core).wait = .ebApply then retireCore s a.core else s)
    (s.modCluster P (fun c => { c with ebq := [] }))

/-- Whether the event bits of a cluster hold a mask. -/
def bitsHold (s : State) (P : Nat) (m : BitVec 256) : Bool := (s.cluster P).ebits &&& m == m
/-- The event bits without a mask. -/
def clearBits (s : State) (P : Nat) (m : BitVec 256) : State := s.modCluster P (fun c => { c with ebits := c.ebits &&& ~~~m })

/-- The parked EBWAITs of a cluster, in ascending core number: core, mask, consume flag. -/
def parkedEbwaits (s : State) (P : Nat) : List (Nat × BitVec 256 × Bool) :=
  (coresOf P).filterMap (fun u => match (s.core u).wait with | .ebWait m c => some (u, m, c) | _ => none)

/-- One cycle of the scheduler's event bits: arrivals, then all that consume nothing, then the consumers one at a time (R304). An EBWAIT that returns
acquires (R301). -/
def eventCycle (s : State) (P : Nat) : State :=
  let s := applyArrivals s P
  let waiting := (s.cluster P).tcbs.filter (fun p => p.2.status == .waiting)
  let parked := parkedEbwaits s P
  let keepers := waiting.filter (fun p => p.2.keep && bitsHold s P p.2.wait)
  let lookers := parked.filter (fun p => !p.2.2 && bitsHold s P p.2.1)
  let s := keepers.foldl (fun s p => enterLevel s P p.1 false) s
  let s := lookers.foldl (fun s p => retireCore (acquire s p.1) p.1) s
  let s := (waiting.filter (fun p => !p.2.keep)).foldl
    (fun s p => if bitsHold s P p.2.wait then enterLevel (clearBits s P p.2.wait) P p.1 false else s) s
  (parked.filter (fun p => p.2.2)).foldl
    (fun s p => if bitsHold s P p.2.1 then retireCore (acquire (clearBits s P p.2.1) p.1) p.1 else s) s

/-- The scheduler's cycle at once in a step that does its requests at once (log entry 6). -/
def eventNow (s : State) (P : Nat) : State := if s.eager then eventCycle s P else s

/-- The range of event bits in a register: its mask and consume flag; FORMAT_FAULT where the register holds no range (R301). -/
def eventRange (x : Word) : Except Trap (BitVec 256 × Bool) :=
  let b := fld x 7 0
  let n := fld x 15 8 + 1
  if fld x 63 17 ≠ 0 ∨ 256 < b + n then .error formatTrap
  else .ok (BitVec.ofNat 256 ((2 ^ n - 1) * 2 ^ b), bitAt x 16)

/-- EBSET and EBCLR (R301): EBSET releases at cluster scope; either retires when the scheduler has applied it. -/
def changeBits (set : Bool) (a : GReg) (s : State) : Host.Outcome State Fault Refusal :=
  match eventRange (s.rg a) with
  | .error t => .next (takeTrap s s.cur t)
  | .ok (m, c) =>
    if c then .next (takeTrap s s.cur formatTrap)
    else
      let P := clusterOf s.cur
      let s := if set then releaseTo s s.cur 2 else s
      let s := s.modCluster P (fun k => { k with ebq := k.ebq ++ [⟨s.cur, set, m⟩] })
      .next (eventNow (parkCore s s.cur .ebApply) P)

def execEbset (a : GReg) (s : State) := changeBits true a s
def execEbclr (a : GReg) (s : State) := changeBits false a s

/-- EBWAIT (R301). -/
def execEbwait (a : GReg) (s : State) : Host.Outcome State Fault Refusal :=
  match eventRange (s.rg a) with
  | .error t => .next (takeTrap s s.cur t)
  | .ok (m, c) => .next (eventNow (parkCore s s.cur (.ebWait m c)) (clusterOf s.cur))

/-- EVENT_BIT_CYCLE (R304). -/
def execEventBitCycle (cl : Nat) (s : State) : Host.Outcome State Fault Refusal := .next (eventCycle s cl)

/-! ## Placement (R305, R309) -/

/-- The core of a cluster that a binding names: the first live one from the bound number upward (R309). -/
def boundTo (s : State) (P b : Nat) : Nat :=
  (((below 32).map (fun k => 32 * P + (b + k) % 32)).find? (fun u => (s.core u).status != .quarantined)).getD (32 * P + b)

/-- Whether a core is reserved for a gang (R306). -/
def reservedFor (s : State) (u : Nat) : Option Nat :=
  ((s.cluster (clusterOf u)).reserv.find? (fun r => r.cores.contains u)).map (fun r => r.idx)

/-- Whether core u may take a task from a level: no gang or core thread, not one whose image another core waits for, and not bound to another core (R305, R306). -/
def mayTake (s : State) (u : Nat) (i : Nat) : Bool :=
  match mfind (s.cluster (clusterOf u)).tcbs i with
  | some t => !t.kind.lower && !(s.cluster (clusterOf u)).reserv.any (fun r => r.idx == i) && (match t.bound with | some b => boundTo s (clusterOf u) b == u | none => true)
  | none => false

/-- The head, for core u, of the highest level that holds work for it, with its level. -/
def levelPick (s : State) (u : Nat) : Option (Nat × Nat) :=
  [7, 6, 5, 4, 3, 2, 1, 0].findSome? (fun l =>
    ((mget (s.cluster (clusterOf u)).ready l []).find? (mayTake s u)).map (fun i => (l, i)))

/-- The priority of a cache entry. -/
def priOf (s : State) (P i : Nat) : Nat := ((mfind (s.cluster P).tcbs i).map (fun t => t.pri)).getD 0
/-- The determinism level of a cache entry. -/
def detOf (s : State) (P i : Nat) : Nat := ((mfind (s.cluster P).tcbs i).map (fun t => t.det)).getD 0

/-- The oldest entry of the fullest deque of the cluster, the lower core number among equals, at D0 (R305). -/
def stealPick (s : State) (u : Nat) : Option Nat :=
  let P := clusterOf u
  let full := (coresOf P).filter (fun v => (s.core v).deque.any (fun i => detOf s P i == 0))
  match bestBy (fun a b => decide ((s.core b).deque.length < (s.core a).deque.length)) full with
  | some v => ((s.core v).deque.filter (fun i => detOf s P i == 0)).getLast?
  | none => none

/-- What core u takes when it becomes free (R305). -/
def pickWork (s : State) (u : Nat) : Option Nat :=
  match (s.core u).deque.head?, levelPick s u with
  | some i, none => some i
  | some i, some (l, j) => if l ≤ priOf s (clusterOf u) i then some i else some j
  | none, some (_, j) => some j
  | none, none => stealPick s u

/-- Whether a tile's gang is being stowed, and its cores are kept for it should the save be refused (R239). -/
def savingTile (s : State) (t : Nat) : Bool :=
  match (s.tile t).gang with
  | some i => ((mfind (s.cluster (t / 8)).tcbs i).map (fun x => x.status == .stowed)).getD false
  | none => false

/-- Whether core u, though free, is the seat of a member of a gang that runs on, whom the supervisor has stowed out (R348; log entry 67). -/
def keptSeat (s : State) (u : Nat) : Bool :=
  match (s.tile (tileOf u)).gang.bind (fun i => mfind (s.cluster (clusterOf u)).tcbs i) with
  | some t => (match t.lastOn with | some v => decide (v ≤ u) && (mfind t.members (u - v)).isSome | none => false)
  | none => false

/-- Whether a core thread waits for the first core of a cluster to become free (R306). -/
def threadWaits (s : State) (P : Nat) : Bool := (s.cluster P).reserv.any (fun r => r.cores.isEmpty)

/-- Whether core u is free to take work (R305, R306). -/
def canTake (s : State) (u : Nat) : Bool :=
  (s.core u).status == .free && (reservedFor s u).isNone && !threadWaits s (clusterOf u) && !savingTile s (tileOf u) && !keptSeat s u

/-- Whether it is core u's turn among the free cores of its cluster: no core with a lower number has work to take (R305). -/
def turnOf (s : State) (u : Nat) : Bool :=
  canTake s u && (coresOf (clusterOf u)).all (fun v => decide (u ≤ v) || !(canTake s v && (pickWork s v).isSome))

/-- A cache entry leaves every deque of its cluster. -/
def leaveDeques (s : State) (P i : Nat) : State :=
  s.mapCores (fun u c => if clusterOf u = P then { c with deque := c.deque.filter (fun x => x ≠ i) } else c)

/-- Core u takes an entry and starts it. -/
def takeOn (s : State) (u i : Nat) : State := startOn (leaveDeques s (clusterOf u) i) u i

/-- TASK_PLACE (R305). -/
def execTaskPlace (u : Nat) (s : State) : Host.Outcome State Fault Refusal :=
  .next (match turnOf s u, pickWork s u with
    | true, some i => takeOn s u i
    | _, _ => s)

/-- Core u starts the work that it takes where that work meets a condition. -/
def placeIf (p : Task → Bool) (u : Nat) (s : State) : State :=
  match turnOf s u, pickWork s u with
  | true, some i =>
    match mfind (s.cluster (clusterOf u)).tcbs i with
    | some t => if p t then takeOn s u i else s
    | none => s
  | _, _ => s

/-- TASK_RESUME (R351, R353): a core takes a stowed task and restores it from its image. -/
def execTaskResume (u : Nat) (s : State) : Host.Outcome State Fault Refusal := .next (placeIf (fun t => t.stowed) u s)

/-- ACTIVATION_START (R259, R316): a core takes a sealed entry or an active message and starts its activation. -/
def execActivationStart (u : Nat) (s : State) : Host.Outcome State Fault Refusal :=
  .next (placeIf (fun t => t.act.isSome && !t.stowed) u s)

/-- TASK_AGING (R305): a ready task that has stayed 2^20 cycles at its level moves to the tail of the next. -/
def execTaskAging (cl idx : Nat) (s : State) : Host.Outcome State Fault Refusal :=
  .next (match mfind (s.cluster cl).tcbs idx with
    | some t =>
      if (mget (s.cluster cl).ready t.pri []).contains idx ∧ t.since + 2 ^ 20 ≤ s.now ∧ t.pri < 7 then
        enterLevel ((leaveLevels s cl idx).modTask cl idx (fun t => { t with pri := t.pri + 1 })) cl idx false
      else s
    | none => s)

/-! ## Gangs (R306) -/

/-- Whether the work on core u lies below a level and can be pre-empted: no gang member waits with it (R306). -/
def below_ (s : State) (u l : Nat) : Bool :=
  match s.taskOf u with
  | some t => decide (t.pri < l)
  | none => false

/-- Whether a core is neither quarantined nor reserved. -/
def openCore (s : State) (u : Nat) : Bool := (s.core u).status != .quarantined && (reservedFor s u).isNone

/-- The first free core of a cluster that nothing holds back. -/
def firstFree (s : State) (P : Nat) : Option Nat :=
  (coresOf P).find? (fun u => openCore s u && (s.core u).status == .free && !savingTile s (tileOf u) && !keptSeat s u)

/-- The cores that a gang takes: for a core thread a free one, or the first whose work its level pre-empts, or, as an empty list, the first to become free; for
a tile gang those of the tile with the most free cores; for a cluster gang all (R28, R306). -/
def gangCores (s : State) (P : Nat) (t : Task) : Option (List Nat) :=
  let open_ := openCore s
  match t.kind with
  | .clusterGang => if (coresOf P).all open_ then some (coresOf P) else none
  | .tileGang =>
    let tiles := (below 8).filter (fun k => (coresOfTile (8 * P + k)).all open_)
    let free := fun (k : Nat) => (coresOfTile (8 * P + k)).countP (fun u => (s.core u).status == .free)
    (bestBy (fun a b => decide (free b < free a)) tiles).map (fun k => coresOfTile (8 * P + k))
  | _ =>
    match firstFree s P with
    | some u => some [u]
    | none =>
      some (((coresOf P).find? (fun u => open_ u && below_ s u t.pri
          && !((s.taskOf u).map (fun x => x.kind.gang)).getD false)).toList)

/-- The gang or core thread at the head of a level, behind those that have their reservation: its cache entry (R306). -/
def headGang (s : State) (P l : Nat) : Option Nat :=
  let lower := fun (i : Nat) => ((mfind (s.cluster P).tcbs i).map (fun t => t.kind.lower)).getD false
  match (mget (s.cluster P).ready l []).find? (fun i => !(s.cluster P).reserv.any (fun r => r.idx == i)) with
  | some i => if lower i then some i else none
  | none => none

/-- GANG_RESERVE (R306): the highest level whose head is a gang that finds cores to reserve. -/
def execGangReserve (cl : Nat) (s : State) : Host.Outcome State Fault Refusal :=
  let head := [7, 6, 5, 4, 3, 2, 1, 0].findSome? (fun l =>
    (headGang s cl l).bind (fun i => ((mfind (s.cluster cl).tcbs i).bind (gangCores s cl)).map (fun us => (i, us))))
  .next (match head with
    | some (i, us) => s.modCluster cl (fun c => { c with reserv := c.reserv ++ [⟨i, us, s.now⟩] })
    | none => s)

/-- Whether a matrix unit's work has come to an end: no follow-on, no claimed drain element, and no command but one that waits for what no later command can bring, an EOUT
without an element or an MDRN without a free drain slot (log entry 63). -/
def Tile.atRest (t : Tile) : Bool :=
  t.follow.isEmpty && t.jobs.isEmpty && (match t.queue.head?.map (fun (c : MCmd) => c.op) with
    | none => true
    | some (.mdrn _) => decide (8 ≤ drainFill t)
    | some (.eout _ _ _ _) => t.dtail == t.dclaim
    | some _ => false)

/-- The tile of a placed gang as R215 starts it; its semaphores keep their values (R201). -/
def Tile.placed (t : Tile) (i : Nat) : Tile := { Tile.reset with sems := t.sems, semq := t.semq, gang := some i }

/-- The tiles of a list of cores. -/
def tilesUnder (us : List Nat) : List Nat := (us.map tileOf).dedup

/-- The image of a saved gang member: rank 0's stands in the gang's stow area, and the device keeps the others (R350; log entry 58). -/
def memberImage (s : State) (P i rank : Nat) (t : Task) (m : Member) : Option (List Byte × State) :=
  if rank = 0 then readImage s P i t else some (m.image, s)

/-- The saved members of a gang on their cores, by core and rank, each from its image; none where the stow area cannot be read (R239, R351). -/
def restoreGang (s : State) (P i : Nat) (t : Task) (seat : List (Nat × Nat)) : Option State :=
  seat.foldl (fun (o : Option State) (p : Nat × Nat) => o.bind (fun s =>
    match mfind t.members p.2 with
    | some m => (memberImage s P i p.2 t m).map (fun r => begun (restoreOn r.2 p.1 i p.2 t { m with image := r.1 }) p.1)
    | none => some s)) (some s)

/-- A gang's members start on its reserved cores: all afresh at ENTRY on tiles that R215 resets, as one member of its kernel (R18, R294; log entry 36), or as they
were saved (R239, R306). -/
def startGang (s : State) (P i : Nat) (t : Task) (us : List Nat) : State :=
  let free := leaveLevels (s.modCluster P (fun c => { c with reserv := c.reserv.filter (fun r => r.idx ≠ i) })) P i
  let seat := us.zip (below us.length)
  if t.stowed then
    match restoreGang free P i t seat with
    | some s => s.modTask P i (fun t => { t with status := .running, stowed := false, members := [], lastOn := us.head?, lastAt := s.now })
    | none => s
  else
    let s := (tilesUnder us).foldl (fun s k => ((s.tile k).queue.foldl settle s).modTile k (fun x => x.placed i)) free
    let s := seat.foldl (fun s (p : Nat × Nat) =>
      begun (s.modCore p.1 (fun c =>
        let c := c.started t i (contextVa s P i) s.now
        { c with ctx := { c.ctx with rank := p.2 } })) p.1) s
    countMember (s.modTask P i (fun t => { t with status := .running, lastOn := us.head?, lastAt := s.now })) t.kern

/-- The cores of a reservation, of which an empty list stands for the first core that is free (R306). -/
def reservedCores (s : State) (P : Nat) (r : Reservation) : List Nat := if r.cores.isEmpty then (firstFree s P).toList else r.cores

/-- GANG_START (R306): a reserved gang starts when all its cores are free and the work that an earlier gang has left its units is done (R244; log entry 63); one that
a pre-emption has saved, when its tiles are reloaded (R239). -/
def execGangStart (cl : Nat) (s : State) : Host.Outcome State Fault Refusal :=
  let startable := fun (r : Reservation) =>
    let us := reservedCores s cl r
    !us.isEmpty && us.all (fun u => (s.core u).status == .free) &&
      (match mfind (s.cluster cl).tcbs r.idx with
       | some t =>
         t.status == .ready && (!t.kind.gang ||
           (tilesUnder us).all (fun k => if t.stowed then (s.tile k).gang == some r.idx else (s.tile k).gang.isNone && (s.tile k).atRest))
       | none => false)
  .next (match (s.cluster cl).reserv.find? startable with
    | none => s
    | some r =>
      match mfind (s.cluster cl).tcbs r.idx, reservedCores s cl r with
      | some t, u :: us =>
        if t.kind.gang then startGang s cl r.idx t (u :: us)
        else startOn (s.modCluster cl (fun c => { c with reserv := c.reserv.filter (fun x => x.idx ≠ r.idx) })) u r.idx
      | _, _ => s)

/-! ## Load-levelling (R310) -/

/-- The four mesh neighbours of a physical cluster: N, E, S, W (R324). -/
def neighbour (P k : Nat) : Nat :=
  let d := P / 16
  let y := P / 4 % 4
  let x := P % 4
  match k with
  | 0 => 16 * d + 4 * ((y + 3) % 4) + x
  | 1 => 16 * d + 4 * y + (x + 1) % 4
  | 2 => 16 * d + 4 * ((y + 1) % 4) + x
  | _ => 16 * d + 4 * y + (x + 3) % 4

/-- The ready depth: unbound ready tasks at D0 (R310). -/
def readyDepth (s : State) (P : Nat) : Nat :=
  (s.cluster P).tcbs.countP (fun p => p.2.status == .ready && p.2.bound.isNone && p.2.det == 0 && !p.2.kind.lower)

/-- Whether levelling may ship a task (R193, R310). -/
def Task.levels (t : Task) : Bool :=
  !t.kind.lower && t.bound.isNone && t.act.isNone && t.det == 0
    && (!t.stowed || (t.footL == 0 && t.handles.all (fun h => h == .unbound)))

/-- The footprint's bytes and tags copied to the same offsets of another cluster (R310). -/
def copyFoot (s : State) (P Q : Nat) (t : Task) : State :=
  let a := sramLoc P t.footB
  let b := sramLoc Q t.footB
  let tags := (below (t.footL / 64)).flatMap (fun k => tagWrites (b + 64 * k) (s.mem.tag (a + 64 * k)))
  performWrites s (writesAt b (s.mem.bytes a t.footL) ++ tags)

/-- Moves a task's cache entry to another cluster, with its image where a frame holds it, and leaves a forwarding entry: its new entry. None
where that cluster's cache or the forwarding table is full (R310). -/
def relocate (s : State) (P Q i : Nat) : Option (Nat × State) :=
  match mfind (s.cluster P).tcbs i, freeEntry (s.cluster Q) with
  | some t, some j =>
    if 64 ≤ (s.cluster P).forwards.length then none
    else
      let img := s.mem.bytes (frameLoc s P i) 1536
      let s := if t.footL ≠ 0 ∧ t.stowed = false then copyFoot s P Q t else s
      let s := dropEntry (s.modTask P i (fun t => { t with handles := [] })) P i
      let f : Forward := { kern := t.kern, core := t.lastOn, dest := Q, idx := j, from_ := s.now }
      let s := s.modCluster P (fun c => { c with forwards := c.forwards ++ [f] })
      let s := s.modCluster Q (fun c => { c with tcbs := mset c.tcbs j t })
      some (j, if t.stowed ∧ t.stowa = 0 then performWrites s (writesAt (frameLoc s Q j) img) else s)
  | _, _ => none

/-- A levelled task enters the tail of its level at the new cluster (R310). -/
def moveTask (s : State) (P Q i : Nat) : State :=
  match relocate s P Q i with
  | some (j, s) => enterLevel s Q j false
  | none => s

/-- DEPTH_PUBLICATION (R310): the cluster publishes its depth and ships work to its least loaded neighbour. -/
def execDepthPublication (cl : Nat) (s : State) : Host.Outcome State Fault Refusal :=
  if s.now < (s.cluster cl).depthAt + 4096 then .next s
  else
    let n := readyDepth s cl
    let s := s.modCluster cl (fun c => { c with depth := some n, depthAt := s.now })
    let near := ((below 4).map (neighbour cl)).filter (fun Q => s.lmap.contains Q)
    let dep := fun (Q : Nat) => ((s.cluster Q).depth).getD 0
    let low := fun (a b : Nat) => decide (dep a < dep b) || (dep a == dep b && decide (s.logicalNo a < s.logicalNo b))
    match bestBy low near with
    | none => .next s
    | some Q =>
      let d := n - dep Q
      if d < 2 then .next s
      else
        let lvl := ([0, 1, 2, 3, 4, 5, 6, 7].map (fun l => mget (s.cluster cl).ready l [])).find? (fun l => !l.isEmpty)
        let ok := fun (i : Nat) => ((mfind (s.cluster cl).tcbs i).map (fun t => t.levels)).getD false
        let go := (((lvl.getD []).reverse).filter ok).take (min 8 (d / 2))
        .next (go.foldl (fun s i => moveTask s cl Q i) s)

/-- FORWARDING_EXPIRY (R310): forwarding entries of 65,536 cycles and more leave the table. -/
def execForwardingExpiry (cl : Nat) (s : State) : Host.Outcome State Fault Refusal :=
  .next (s.modCluster cl (fun c => { c with forwards := c.forwards.filter (fun f => s.now < f.from_ + 65536) }))

/-! ## Fork, join and spawn (R308, R309) -/

/-- The atomic of FORK, JOIN and SPAWN on a join block, checked as R136 gives, after the core's own accesses to the block (R101, R138), and performed at its home:
the old value. The update is none where the block holds no arm to join (R308). It waits while the network interface holds a record (R347), or while a link
on its path is down (R330). -/
def joinAccess (va : Word) (f : Word → Option Word) : M Word := do
  aligned va 8
  let s ← get
  let ps ← resolve s.me .atomic va 8
  match ps with
  | [p] =>
    needM (p.kind != 2 || p.repl) (.at .plbDeny va)
    ringsFree ps
    if s.holdsRecord (.net (clusterOf s.cur)) then waitM .none
    match p.place with
    | .mem loc =>
      match p.cut with
      | some e => waitM (.path va (dieOf (clusterOf s.cur)) e s.now)
      | none =>
        let so := p.kind == 0 && !p.repl
        modify (fun s =>
          let s := drainThrough s s.cur (fun e => e.touches loc 8 || (so && e.so))
          let s := flushWhere s s.cur (fun r => r.touches loc 8 || (so && r.so))
          if p.repl then applyBelow s (loc / stackSize / 2) s.seqNext else s)
        let s ← get
        needM (!locPoisoned s loc) (.at .poison va)
        let old := word (s.mem.nat loc 8)
        match f old with
        | none => trapM (.at .formatFault va)
        | some v =>
          let ws := writesAt loc (leBytes 8 v.toNat)
          set (if p.repl then (let t := sequenceBy s s.cur ws
                               applyBelow t (loc / stackSize / 2) t.seqNext)
               else performBy s s.cur ws)
          pure old
    | .remote _ =>
      match farReply { s with net := { s.net with sent := s.net.sent + 1 } } va none with
      | (.val old, s) =>
        match f old with
        | none => trapM (.at .formatFault va)
        | some _ =>
          set s
          pure old
      | (.fail c _ fa _ _ _, _) => trapM (.at c fa)
    | .dead => trapM (.at .poison va)
    | _ => trapM (.at .plbDeny va)
  | _ => trapM (.at .plbDeny va)

/-- One arm more: OUT and SP each count one (R308). -/
def joinMore (old : Word) : Option Word := some (old + 0x100000001)
/-- One arm joined; none where OUT is 0 (R308). -/
def joinLess (old : Word) : Option Word := if fld old 31 0 = 0 then none else some (old - 1)

/-- The newest end of core u's deque takes a child; the oldest of 32 entries moves to its level (R309). -/
def pushDeque (s : State) (u i : Nat) : State :=
  let P := clusterOf u
  let q := (s.core u).deque
  let s := if 32 ≤ q.length then
      match q.getLast? with
      | some o => enterLevel (s.modCore u (fun c => { c with deque := q.dropLast })) P o false
      | none => s
    else s
  (s.modCore u (fun c => { c with deque := i :: c.deque })).modTask P i (fun t => { t with status := .ready })

/-- The cluster that a fork child with a path goes to (R309): the home of its path at D2 and D3, and else the forking core's. -/
def childCluster (s : State) (u det : Nat) (path : Word) : Nat :=
  if 2 ≤ det then physOf s (homeOfHash s (kh path)) else clusterOf u

/-- Places a fork child in entry i of its cluster under R309: on the forking core's deque, bound to it at D1; in its ready level for a gang member's
child and at D2 and D3. -/
def placeChild (s : State) (u i : Nat) (child : Task) (gang : Bool) : State :=
  let Q := childCluster s u child.det child.path
  if 2 ≤ child.det then enterCache s Q i child
  else
    let child := { child with bound := if child.det = 1 then some (inCluster u) else none }
    if gang then enterCache s Q i child
    else pushDeque (s.modCluster Q (fun c => { c with tcbs := mset c.tcbs i child })) u i

/-- FORK (R80, R308). While the child's cluster has no free TCB-cache entry it waits, with the join block unchanged (R296; log entry 23). -/
def forkTask (target : Word) : M Flow := do
  let s ← get
  let c := s.core s.cur
  needM c.loopIdle (.plain .illegalOp)
  needM (!bitAt c.ctx.path 62) formatTrap
  let path := c.ctx.path <<< 1 ||| 1
  match freeEntry (s.cluster (childCluster s s.cur c.ctx.det path)) with
  | none => pure .stay
  | some i =>
    let old ← if c.ctx.jaddr = 0 then pure 0 else joinAccess c.ctx.jaddr joinMore
    let s ← get
    let t := s.taskOf s.cur
    let base := (t.map (fun x => x.base)).getD 0
    let child : Task :=
      { kind := .child, kern := c.ctx.kern, tenant := c.ctx.tenant, det := c.ctx.det, entry := target,
        args := [c.rg 2, c.rg 3, c.rg 4, c.rg 5, c.rg 6, c.rg 7], path := path, jaddr := c.ctx.jaddr,
        ord := BitVec.ofNat 32 (fld old 63 32), footB := 0, footL := 0, stowa := 0, tsave := 0, vt := c.vt, wait := 0, setm := 0,
        keep := false, base := base, pri := base, since := s.now, tcba := 0, named := none, bound := none, status := .waiting, stowed := false,
        act := none, lastOn := none, lastAt := 0, msgs := [], ports := [], handles := [], trapRec := none, slotMeta := [], members := [],
        exited := [] }
    let s := s.modCore s.cur (fun c => { c with ctx := { c.ctx with path := c.ctx.path <<< 1 } })
    set (placeChild s s.cur i child ((t.map (fun x => x.kind.lower)).getD false))
    pure .next

def execFork (off : Word) (s : State) := runM (forkTask (s.target off)) s

/-- Whether core u runs a gang member or a core thread (R18). -/
def inGang (s : State) (u : Nat) : Bool := ((s.taskOf u).map (fun t => t.kind.lower)).getD false

/-- EXIT's ending: accesses performed at package scope, SET bits set, core freed (R302, R312). -/
def exitOn (s : State) (u : Nat) : State := eventNow (endRetired (releaseTo s u 4) u) (clusterOf u)

/-- JOIN (R308): the arm that joins last acquires and goes on. -/
def joinTask (va : Word) : M Flow := do
  let s ← get
  needM (!isAct s s.cur && !inGang s s.cur && (s.core s.cur).loopIdle) (.plain .illegalOp)
  modify (fun s => releaseTo s s.cur 5)
  let old ← joinAccess va joinLess
  if fld old 31 0 = 1 then
    modify (fun s => acquire s s.cur)
    pure .next
  else
    modify (fun s => exitOn s s.cur)
    pure .stay

def execJoin (a : GReg) (s : State) := runM (joinTask (s.rg a)) s

/-- SPAWN (R308): a TCB admitted as R291 checks it, its join block counted; it waits while the backlog is full (R296). -/
def spawnTask (d : GReg) (va : Word) : M Flow := do
  let s ← get
  let P := clusterOf s.cur
  needM (va.toNat % 64 == 0) formatTrap
  let bs ← loadBytes s.me va 192
  let tcb : Tcb := ⟨dwordsOf bs 24⟩
  let s ← get
  let Q := match tcb.named with | some L => physOf s L | none => P
  needM (tcb.ok s Q) formatTrap
  if !backlogRoom s Q then pure .stay
  else
    let old ← if tcb.dw 9 = 0 then pure 0 else joinAccess (tcb.dw 9) joinMore
    let s ← get
    let c := s.core s.cur
    let ord := if tcb.dw 9 = 0 then tcb.dw 15 else word (fld old 63 32)
    let (b, s) := bindCore s c.ctx.kern.queue Q c.ctx.det tcb.gang
    set (admitTask s Q (tcb.task s P c.ctx.kern c.ctx.tenant c.ctx.det ord va b))
    setG d (word (fld old 63 32))
    pure .next

def execSpawn (d a : GReg) (s : State) := runM (spawnTask d (s.rg a)) s

/-! ## EXIT, YIELD, GBAR, TPATH, GID (R312, R313) -/

/-- EXIT; in an activation it raises ILLEGAL_OP (R261, R312). -/
def execExit (s : State) : Host.Outcome State Fault Refusal :=
  if isAct s s.cur then .next (takeTrap s s.cur (.plain .illegalOp)) else .next (exitOn s s.cur)

/-- Whether work of a level or above is ready for core u: in its own deque, in the ready levels, a gang that has reserved it, or
a core thread that takes the first core to become free (R305, R306, R312). -/
def readyFor (s : State) (u l : Nat) : Bool :=
  let P := clusterOf u
  (match (s.core u).deque.head? with | some j => decide (l ≤ priOf s P j) | none => false)
    || (match levelPick s u with | some (k, _) => decide (l ≤ k) | none => false)
    || (match reservedFor s u with | some j => decide (l ≤ priOf s P j) | none => false)
    || (s.cluster P).reserv.any (fun r => r.cores.isEmpty && decide (l ≤ priOf s P r.idx))

/-- The stow of YIELD: the task returns to the tail of its level, or runs on where its stow area refuses the image (R307, R312). -/
def yieldStow (s : State) (u i : Nat) : State :=
  match (s.taskOf u).elim (false, s) (stowArea s (clusterOf u) i) with
  | (true, s) => holdStow s u .yield
  | (false, s) =>
    match stowOn s u none with
    | some t => enterLevel t (clusterOf u) i false
    | none => s.modCore u (fun c => { c with stowing := none })

/-- YIELD (R312): the task is stowed to the tail of its level when other work of that level or above is ready for the core. -/
def execYield (s : State) : Host.Outcome State Fault Refusal :=
  let s1 := retire s
  match s.taskOf s.cur, (s.core s.cur).task with
  | some t, some i =>
    if t.act.isSome ∨ t.kind.lower = true ∨ readyFor s s.cur t.pri = false then .next s1
    else match beginStow s1 s.cur .yield with
      | (true, s2) => .next (yieldStow s2 s.cur i)
      | (false, s2) => .next s2
  | _, _ => .next s1

/-- The seats of a gang: the cores that run its members. -/
def membersOf (s : State) (P i : Nat) : List Nat := (coresOf P).filter (fun u => (s.core u).task == some i)

/-- The barrier arrivals that a member's image holds (R351). -/
def Member.gbar (m : Member) : Nat := fld (imageDw m.image 0x5C0) 47 16

/-- Whether every member of core u's gang has reached core u's barrier, one that has left its core among them, or has exited (R312). -/
def barrierDone (s : State) (u : Nat) : Bool :=
  match (s.core u).task, s.taskOf u with
  | some i, some t =>
    let us := membersOf s (clusterOf u) i
    let n := (s.core u).ctx.gbar.toNat
    us.length + t.members.countP (fun m => decide (n ≤ m.2.gbar)) + t.exited.length == t.kind.size && us.all (fun v => decide (n ≤ (s.core v).ctx.gbar.toNat))
  | _, _ => false

/-- The barrier that core u waits at completes: every member that waits at it acquires and retires (R312). -/
def completeBarrier (s : State) (u : Nat) : State :=
  match (s.core u).task with
  | some i =>
    if (s.core u).wait = .barrier ∧ barrierDone s u = true then
      let n := (s.core u).ctx.gbar
      (membersOf s (clusterOf u) i).foldl (fun s v =>
        if (s.core v).wait = .barrier ∧ (s.core v).ctx.gbar = n then
          retireCore (acquire (s.modCore v (fun c => { c with ctx := { c.ctx with arrived := false } })) v) v
        else s) s
    else s
  | none => s

/-- GBAR (R18, R312): an arrival that a trap or a stow interrupted is not counted again. -/
def execGbar (s : State) : Host.Outcome State Fault Refusal :=
  match s.taskOf s.cur with
  | some t =>
    if t.kind = .thread then .next (retire s)
    else if t.kind.gang then
      let s := releaseTo s s.cur (if t.kind = .tileGang then 1 else 2)
      let s := s.modCore s.cur (fun c =>
        if c.ctx.arrived then c else { c with ctx := { c.ctx with arrived := true, gbar := c.ctx.gbar + 1 } })
      let s := parkCore s s.cur .barrier
      .next (if s.eager then completeBarrier s s.cur else s)
    else .next (takeTrap s s.cur (.plain .illegalOp))
  | none => .next (takeTrap s s.cur (.plain .illegalOp))

/-- GBAR_COMPLETE (R312). -/
def execGbarComplete (u : Nat) (s : State) : Host.Outcome State Fault Refusal := .next (completeBarrier s u)

def execTpath (d : GReg) (s : State) : Host.Outcome State Fault Refusal := .next (retire (s.wg d (s.core s.cur).ctx.path))

/-- The value of a GID selector (R313). -/
def gidValue (s : State) (u sel : Nat) : Option Word :=
  let t := s.taskOf u
  match sel with
  | 0 => some (word (s.unitId u))
  | 1 => some (word (s.core u).ctx.rank)
  | 2 => some (word ((t.map (fun x => x.kind.size)).getD 1))
  | 3 => some (word (s.core u).ctx.kern.kid.toNat)
  | 4 => some (word (s.core u).ctx.ord.toNat)
  | 5 => some (word ((t.map (fun x => x.pri)).getD 0))
  | 6 => some (word s.nlive)
  | _ => none

/-- GID (R313). -/
def execGid (d : GReg) (sel : BitVec 7) (s : State) : Host.Outcome State Fault Refusal :=
  match gidValue s s.cur sel.toNat with
  | some v => .next (retire (s.wg d v))
  | none => .next (takeTrap s s.cur (.plain .illegalOp))

end Sys2Proof.Machine
end

