-- ==== Sys2Proof/Machine/Queues.lean ====
section
/-! DEFINITION. Queues, admission and completion records (R294 to R300), regeneration and residency of pages, and context shipping
(R110 to R113). -/

namespace Sys2Proof.Machine

/-! ## Queues and notify pages (R295) -/

/-- Whether a queue descriptor is one the runtime may give (R295, R322). -/
def queueDescOk (d : QueueDesc) : Bool :=
  d.ring.toNat % 64 == 0 && decide (d.lslot ≤ 16) && decide (d.lcomp ≤ 16) && decide (d.det ≤ 3) && decide (d.place ≤ 2)
    && (d.det == 0 || (decide (12 ≤ d.lms) && decide (d.lms ≤ 24) && d.msb.toNat % 2 ^ d.lms == 0))

/-- QUEUE_CREATE (R295), through the management path, which opens at step 6 of bring-up (R369). -/
def execQueueCreate (q : Nat) (desc : QueueDesc) (s : State) : Host.Outcome State Fault Refusal :=
  .next (
    if q < 65536 ∧ (mfind s.queues q).isNone = true ∧ queueDescOk desc = true ∧ 6 ≤ s.sys.bring then
      { s with queues := mset s.queues q { desc := desc, head := 0, tail := 0, tails := [], held := none, err := 0, cread := 0, written := 0, waiting := [],
                                           blocked := false, rot := 0, kern := none } }
    else s)

/-- QUEUE_DESTROY (R113). -/
def execQueueDestroy (q : Nat) (s : State) : Host.Outcome State Fault Refusal := .next { s with queues := mdel s.queues q }

/-- A write to a register of the notify aperture from outside; nothing where it is not accepted. -/
def outsideWrite (s : State) (pa : Nat) (v : Word) : Host.Outcome State Fault Refusal := .next ((notifyWrite s pa v).getD s)
/-- A read of one, answered with its value. -/
def outsideRead (s : State) (pa : Nat) : Host.Outcome State Fault Refusal :=
  .next (match notifyRead s pa with
    | some (v, s) => { s with net := { s.net with reply := some (.data (leBytes 8 v.toNat)) } }
    | none => { s with net := { s.net with reply := some (.fault .plbDeny) } })

def queuePage (q off : Nat) : Nat := notifyBase + 65536 * q + off
def schedPage (d off : Nat) : Nat := schedBase + 65536 * d + off

def execNotifyTailWrite (q : Nat) (v : Word) (s : State) := outsideWrite s (queuePage q 0) v
def execNotifyErrRead (q : Nat) (s : State) := outsideRead s (queuePage q 16)
def execCreadWrite (q : Nat) (v : Word) (s : State) := outsideWrite s (queuePage q 24) v
def execScheduleStepWrite (d : Nat) (v : Word) (s : State) := outsideWrite s (schedPage d 0) v
def execScheduleTailWrite (d : Nat) (v : Word) (s : State) := outsideWrite s (schedPage d 8) v
def execScheduleErrRead (d : Nat) (s : State) := outsideRead s (schedPage d 24)

/-! ## Admission (R290, R291, R294, R299) -/

/-- The logical cluster of a TCB: the one it names, modulo Nlive, or the queue's placement rule's; and the logical cluster at which the queue's rotation goes on
(R290, R299). -/
def placement (s : State) (q : Queue) (t : Tcb) : Nat × Nat :=
  match t.named with
  | some L => (L % s.nlive, q.rot)
  | none =>
    match q.desc.place with
    | 0 =>
      let L := if q.rot < s.nlive then q.rot else 0
      (L, (L + 1) % s.nlive)
    | 1 =>
      let dep := fun (L : Nat) => ((s.cluster (physOf s L)).depth).getD 0
      ((bestBy (fun a b => decide (dep a < dep b)) (below s.nlive)).getD 0, q.rot)
    | _ => (homeOfHash s (kh (t.dw 8)), q.rot)

/-- The kernel that a queue runs after one of its TCBs has been taken: the one that runs, or a new one (R294). -/
def kernelAfter (k : Option Kernel) (kid : BitVec 32) (lastk : Bool) (pri : Nat) : Kernel :=
  match k with
  | some x => { x with lastk := x.lastk || lastk }
  | none => { kid := kid, lastk := lastk, run := 0, ended := false, pri := pri }

/-- The cycle in which the notify store that published a queue's next TCB reached the hub (R20). -/
def Queue.stamp (q : Queue) : Nat := (q.tails.head?.map (fun x => x.2)).getD 0

/-- The next TCB of a queue has been taken: HEAD advances, and a notify store whose TCBs have all been taken is forgotten. -/
def Queue.took (q : Queue) : Queue :=
  let h := q.head + 1
  { q with head := h, tails := q.tails.filter (fun x => x.1 != h), held := none }

/-- A refused TCB: ERR bit 0 and a completion record with its ring index (R291). -/
def refuseTcb (s : State) (n : Nat) (slot : Nat) (kid : BitVec 32) : State :=
  completeRec (s.modQueue n (fun q => { q.took with err := q.err ||| 1 })) n
    { unit := 0, cause := .formatFault, kid := kid, members := 0, pc := word slot }

/-- The slot of a queue's ring that a TCB's address names, or 0 for a TCB elsewhere. -/
def ringSlot (q : Queue) (tcba : Word) : Nat :=
  if q.desc.ring.toNat ≤ tcba.toNat ∧ tcba.toNat < q.desc.ring.toNat + 192 * 2 ^ q.desc.lslot then (tcba.toNat - q.desc.ring.toNat) / 192 else 0

/-- A task that a new admission refuses, as one of its queue's TCBs (R291, R311). -/
def refuseTask (s : State) (t : Task) : State :=
  match mfind s.queues t.kern.queue with
  | some q => completeRec (s.modQueue t.kern.queue (fun q => { q with err := q.err ||| 1 })) t.kern.queue
      { unit := 0, cause := .formatFault, kid := t.kern.kid, members := 0, pc := word (ringSlot q t.tcba) }
  | none => s

/-- Whether queue n waits for another one: one whose TCB was held for a cluster that has now left the map, and whose notify store reached the hub earlier (R20). -/
def laterThanHeld (s : State) (n : Nat) (q : Queue) : Bool :=
  s.queues.any (fun (p : Nat × Queue) => p.1 != n && (match p.2.held with | some P => !s.lmap.contains P | none => false)
    && (decide (p.2.stamp < q.stamp) || (p.2.stamp == q.stamp && decide (p.1 < n))))

/-- Takes the TCB in slot HEAD of a queue (R291, R294, R295). One that cannot be read is refused with KID 0; one whose page or bank waits, waits (R96, R111). -/
def admitTcb (s : State) (n : Nat) (q : Queue) : State :=
  let slot := q.head.toNat % 2 ^ q.desc.lslot
  let va := q.desc.ring + word (192 * slot)
  match deviceAccess s (.slot n) (loadBytes (engineWho (some q.desc.dom) 0) va 192) with
  | .error (true, s) => refuseTcb s n slot 0
  | .error (false, s) => s
  | .ok (bs, s) =>
    let t : Tcb := ⟨dwordsOf bs 24⟩
    match q.kern with
    | some k =>
      if k.kid ≠ t.kid then s
      else if k.ended then s.modQueue n (fun q => { q.took with kern := if t.lastk then none else q.kern })
      else enter s t slot va
    | none => enter s t slot va
where
  /-- A TCB of the kernel that runs, or of a new one: the hub holds it for a cluster that is being remapped (R20, R30); else it is refused, waits for room in
  the backlog (R296), or is entered at its cluster. -/
  enter (s : State) (t : Tcb) (slot : Nat) (va : Word) : State :=
    let (L, rot) := placement s q t
    let P := physOf s L
    if s.quarCl.contains P then s.modQueue n (fun q => { q with held := some P })
    else if t.ok s P = false then refuseTcb s n slot t.kid
    else if backlogRoom s P = false then s.modQueue n (fun q => { q with held := none })
    else
      let s := s.modQueue n (fun q => { q.took with rot := rot, kern := some (kernelAfter q.kern t.kid t.lastk t.pri) })
      let (b, s) := bindCore s n P q.desc.det t.gang
      admitTask s P (t.task s 0 ⟨n, t.kid⟩ q.desc.dom q.desc.det (t.dw 15) va b)

/-- TCB_ADMISSION (R19, R20, R291): the next TCB that the queue's TAIL has published. -/
def execTcbAdmission (q : Nat) (s : State) : Host.Outcome State Fault Refusal :=
  .next (match mfind s.queues q with
    | some x => if x.head = x.tail ∨ laterThanHeld s q x = true then s else admitTcb s q x
    | none => s)

/-! ## Completion records (R300) -/

/-- The 32 bytes of a completion record. -/
def recordBytes (r : CompRec) : List Byte :=
  leBytes 8 (r.kid.toNat + 2 ^ 32 * r.cause.code + 2 ^ 48 * r.unit) ++ leBytes 8 r.members ++ leBytes 8 r.pc.toNat ++ leBytes 8 0

/-- The write of a completion record, which faults on a sector that returns POISON too (R300). -/
def recordStore (w : Who) (va : Word) (bs : List Byte) : M Unit := do
  let ps ← resolve w .store va bs.length
  noPoison w ps
  storeBytes w .store va bs none false

/-- COMPLETION_RECORD_WRITE (R300). -/
def execCompletionRecordWrite (q : Nat) (s : State) : Host.Outcome State Fault Refusal :=
  .next (match mfind s.queues q with
    | none => s
    | some x =>
      match x.waiting with
      | [] => s
      | r :: rest =>
        if x.blocked then s
        else if 2 ^ x.desc.lcomp ≤ (x.written - x.cread).toNat then s.modQueue q (fun x => { x with err := x.err ||| 4 })
        else
          let va := x.desc.cring + word (32 * (x.written.toNat % 2 ^ x.desc.lcomp))
          match deviceAccess s (.record q) (recordStore (engineWho (some x.desc.dom) 0) va (recordBytes r)) with
          | .ok (_, s) => s.modQueue q (fun x => { x with written := x.written + 1, waiting := rest })
          | .error (true, s) => s.modQueue q (fun x => { x with err := x.err ||| 8, blocked := true })
          | .error (false, s) => s)

/-! ## The end of a regeneration (R111) -/

/-- Whether a launched kernel's record has been written (R111); one whose queue has been destroyed counts as done (log entry 61). -/
def regenDone (s : State) (r : RegenWait) : Bool :=
  match mfind s.queues r.kern.queue with
  | none => true
  | some q =>
    decide ((q.head - (r.slot + 1)).toNat < 2 ^ 31) && (q.kern.map (fun k => k.kid)) != some r.kern.kid
      && q.waiting.all (fun c => c.kid != r.kern.kid)

/-- The fault of core u's access, or of its instruction fetch, to a page that stays absent (R51, R110, R111, R112). -/
def pageFails (s : State) (u : Nat) (va : Word) : State :=
  takeTrap s u (if (s.core u).fetchWait then s.fetchTrap u va else .at .pageFault va)

/-- REGENERATION_COMPLETE (R111): the die walks again; the waiting accesses proceed, or raise PAGE_FAULT, and the frames that the launch took are free again
(R112). -/
def execRegenerationComplete (d k : Nat) (s : State) : Host.Outcome State Fault Refusal :=
  match (s.regens.filter (fun r => homeDie r.page == d))[k]? with
  | none => .next s
  | some r =>
    if regenDone s r = false ∨ r.failed = true then .next s
    else
      let ok := match walk s r.page with | .leaf _ _ => true | _ => false
      let rest := s.regens.erase r
      let s := { s with regens := if !r.engines.isEmpty && !ok then rest ++ [{ r with failed := true }] else rest,
                        freeFrames := if ok then s.freeFrames else s.freeFrames + framesOf r.big }
      let us := (s.cores.filter (fun p => match p.2.wait with
        | .page va => pageBase va r.big == r.page
        | _ => false)).map (fun p => p.1)
      .next (retryTcbWrites (us.foldl (fun s u =>
        if ok then parkCore s u .none
        else match (s.core u).wait with
          | .page va => pageFails s u va
          | _ => s) s))

/-! ## Context shipping (R110) -/

/-- The live clusters of a die, and the least loaded of them: the fewest cache entries, the lower number among equals (log entry 21). -/
def leastLoaded (s : State) (d : Nat) : Option Nat :=
  bestBy (fun a b => decide ((s.cluster a).tcbs.length < (s.cluster b).tcbs.length))
    ((upFrom (16 * d) 16).filter (fun P => s.lmap.contains P))

/-- Ships core u's task for a PAGE_FAULT at an address: its stow image goes to the least-loaded cluster of the home die, whose
supervisor finds the record in a shared slot, with the unit that the task ran on (log entry 60); where it cannot go, the task traps at its own supervisor
(R110). It waits while the interface there holds a record (R347). -/
def shipContext (s : State) (u : Nat) (va : Word) : State :=
  let P := clusterOf u
  let rec_ := trapRecord s u (.at .pageFault va)
  let here := writeReserved (s.modCore u (fun c => { c with stowing := none })) u rec_
  match (s.core u).task, leastLoaded s (homeDie va) with
  | some i, some Q =>
    if Q = P then here
    else if s.holdsRecord (.net Q) then holdStow s u (.ship va)
    else match (s.taskOf u).elim (false, s) (stowArea s P i) with
      | (true, s) => holdStow s u (.ship va)
      | (false, s) =>
        match stowOn s u (some rec_) with
        | none => here
        | some s1 =>
          match relocate s1 P Q i with
          | none => here
          | some (_, s2) => postShared s2 Q (.net Q) rec_
  | _, _ => here

/-- CONTEXT_SHIP (R110, R111): a task that ships is stowed and leaves for the home die; an access that waits for a page launches its regeneration or
joins it, or waits for a frame (R112). -/
def execContextShip (u : Nat) (s : State) : Host.Outcome State Fault Refusal :=
  .next (match (s.core u).wait with
    | .ship va =>
      match beginStow s u (.ship va) with
      | (true, s) => shipContext (parkCore s u .none) u va
      | (false, s) => s
    | .page va =>
      match walk s va with
      | .leaf _ _ => parkCore s u .none
      | .fail => pageFails s u va
      | .regen _ big =>
        if s.freeFrames < framesOf big ∧ s.regens.all (fun r => r.failed || r.page != pageBase va big) = true then parkCore s u (.frame va s.now)
        else match faultRegen s va none with
          | (true, s) => pageFails s u va
          | (false, s) => s
    | _ => s)

/-- FRAME_WAIT_TIMEOUT (R112): a fault that waits for the frames of its page goes on when they are free, and to the supervisor as PAGE_FAULT after 2^20
cycles. -/
def execFrameWaitTimeout (u : Nat) (s : State) : Host.Outcome State Fault Refusal :=
  .next (match (s.core u).wait with
    | .frame va since =>
      let need := match walk s va with | .regen _ big => framesOf big | _ => 0
      if need ≤ s.freeFrames then parkCore s u (.page va)
      else if since + 2 ^ 20 ≤ s.now then pageFails s u va
      else s
    | _ => s)

/-! ## The residency schedule (R112) -/

/-- The location and value of the entry that ends the walk of an address, and its level. -/
def entryFrom (m : Memory) (va : Word) : List (Nat × Nat) → Nat → Nat → Option (Nat × Word × Nat)
  | [], _, _ => none
  | (hi, lo) :: rest, level, table =>
    let a := table + 8 * fld va hi lo
    let e := word (m.nat a 8)
    if bitAt e 0 ∧ bitAt e 1 = false then entryFrom m va rest (level + 1) (ptePa e) else some (a, e, level)

/-- The page-table entry of a page of a size, where the walk reaches its level: 3 for 32 MiB, 4 for 64 KiB (R89). -/
def pageEntry (s : State) (va : Word) (big : Bool) : Option (Nat × Word) :=
  match entryFrom s.mem va walkLevels 0 (s.die (homeDie va)).ptroot.toNat with
  | some (a, e, level) => if level = (if big then 3 else 4) then some (a, e) else none
  | none => none

/-- Whether a page is pinned: by the schedule, or by a store whose overflow segments it holds (R112, R275). -/
def isPinned (s : State) (page : Word) (size : Nat) : Bool :=
  s.pinned.contains page ||
    s.stores.any (fun x => decide (x.2.ovb.toNat < page.toNat + size) && decide (page.toNat < x.2.ovb.toNat + 64 * 2 ^ x.2.lseg))

/-- The listed bytes and tags of a frame, as offsets, and their places in a frame. -/
def frameCells (s : State) (pa n : Nat) : List (Nat × Byte) :=
  let t := tagLoc pa
  (s.mem.cells.filter (fun c => decide (pa ≤ c.1) && decide (c.1 < pa + n))).map (fun c => (c.1 - pa, c.2))
    ++ (s.mem.cells.filter (fun c => decide (t ≤ c.1) && decide (c.1 < t + n / 32))).map (fun c => (tagBase + (c.1 - t), c.2))
def framePlace (pa off : Nat) : Nat := if tagBase ≤ off then tagLoc pa + (off - tagBase) else pa + off

/-- Evict: V cleared by one write; a page without regeneration goes to its backing (log entry 22). An entry that finds nothing to evict is performed without effect
(log entry 71). -/
def evictPage (s : State) (page : Word) (big : Bool) : State :=
  match pageEntry s page big with
  | some (a, e) =>
    let n := if big then 2 ^ 25 else 2 ^ 16
    if bitAt e 0 = false ∨ isPinned s page n = true then s
    else
      let s := if bitAt e 6 then s else { s with backing := mset s.backing (page.toNat / 2 ^ 16) (frameCells s (ptePa e) n) }
      { (performWrites s (writesAt a (leBytes 8 (e &&& ~~~1).toNat))) with freeFrames := s.freeFrames + framesOf big }
  | none => s

/-- A frame filled anew with the bytes and tags that a page's backing lists; the rest of it reads as memory that nothing has written. -/
def refillFrame (s : State) (pa n : Nat) (cells : List (Nat × Byte)) : State :=
  let mine := fun (a : Nat) => (decide (pa ≤ a) && decide (a < pa + n)) || (decide (tagLoc pa ≤ a) && decide (a < tagLoc pa + n / 32))
  let m : Memory := { s.mem with cells := s.mem.cells.filter (fun c => !mine c.1) }
  s.renew (m.pokes (cells.map (fun c => (framePlace pa c.1, c.2)))) mine

/-- Make resident: a page that can be regenerated is launched; another comes back from its backing (log entry 22). None while no
frame is free. An entry that finds nothing to bring is performed without effect (log entry 71). -/
def fetchPage (s : State) (page : Word) (big : Bool) : Option State :=
  match pageEntry s page big with
  | some (a, e) =>
    if bitAt e 0 = true then some s
    else if s.freeFrames < framesOf big then none
    else if bitAt e 6 then some (faultRegen s page none).2
    else
      let s := refillFrame s (ptePa e) (if big then 2 ^ 25 else 2 ^ 16) (mget s.backing (page.toNat / 2 ^ 16) [])
      some { (performWrites s (writesAt a (leBytes 8 (e ||| 1).toNat))) with
             freeFrames := s.freeFrames - framesOf big, backing := mdel s.backing (page.toNat / 2 ^ 16) }
  | none => some s

/-- RESIDENCY_ENTRY_PERFORM (R112, R113): the die's next entry, when its step is due; one that it cannot read is read again (log entry 62). -/
def execResidencyEntryPerform (d : Nat) (s : State) : Host.Outcome State Fault Refusal :=
  let x := s.die d
  if x.head = x.tail then .next s
  else
    match deviceAccess s (.schedule d) (loadBytes (engineWho none (16 * d)) (x.rsbase + word (16 * (x.head.toNat % 2 ^ x.rslog.toNat))) 16) with
    | .error (_, s) => .next s
    | .ok (bs, s) =>
      let e := word (leNat (bs.take 8))
      let st := word (leNat (bs.drop 8))
      let done := fun (s : State) => s.setDie d { s.die d with head := x.head + 1 }
      if x.step.toNat < st.toNat then .next s
      else if fld e 60 56 ≠ 0 then .next (done (s.setDie d { s.die d with err := (s.die d).err ||| 4 }))
      else
        let big := bitAt e 61
        let page := pageBase (sext56 e) big
        match fld e 63 62 with
        | 0 => .next (done (evictPage s page big))
        | 1 => match fetchPage s page big with
          | some s => .next (retryTcbWrites (done s))
          | none => .next s
        | 2 => .next (done { s with pinned := page :: s.pinned })
        | _ => .next (done { s with pinned := s.pinned.filter (fun p => p ≠ page) })

end Sys2Proof.Machine
end

