-- ==== Sys2Proof/Machine/Engines.lean ====
section
/-! DEFINITION. The CP form, the copy engines and the tile streamers (R204 to R213). -/

namespace Sys2Proof.Machine

/-! ## The engine log (R212) -/

/-- The engine-log number after one: 1 follows 0xFFFF. -/
def seqAfter (x : BitVec 16) : BitVec 16 := if x = 0xFFFF then 1 else x + 1

/-- A core takes the next number and logs a command under it. -/
def Core.logged (c : Core) (kind desc : Nat) (y : Bool) (fn : Nat) : Core :=
  let n := seqAfter c.seqNo
  { c with seqNo := n, elog := mset c.elog (n.toNat % 32) { kind := kind, pc := c.pc, desc := desc, y := y, fn := fn, seq := n } }

/-- fn7 and engine of a CP function (R204). -/
def cpFn7 : CpFn → Nat
  | .copy | .subs => 0
  | .copyf | .unsubs => 1
  | .copym | .pull => 2
  | .gath | .pullf => 3
  | .scat => 4
  | .fill => 5
  | .wback => 6
  | .inval => 7
def toStreamer : CpFn → Bool
  | .subs | .unsubs | .pull | .pullf => true
  | _ => false

/-- A field of a descriptor's doubleword. -/
def CpCmd.dw (c : CpCmd) (k : Nat) : Word := c.desc.getD k 0
def CpCmd.len (c : CpCmd) : Nat := fld (c.dw 2) 31 0
/-- The agent of a command's accesses (R205). -/
def CpCmd.who (c : CpCmd) : Who := { engineWho (some c.tenant) c.cl with moved := c.moved.map (fun m => m.2) }
/-- The command as its i-th piece meets it: of the clusters renumbered while a piece of it waited, those that it waited for or came before (R97). -/
def CpCmd.at_ (c : CpCmd) (i : Nat) : CpCmd := { c with moved := c.moved.filter (fun m => decide (i ≤ m.1)) }
/-- The window address of a descriptor's doubleword (R207). -/
def CpCmd.field (c : CpCmd) (k : Nat) : Word := c.descVa + word (8 * k)

/-! ## CP (R205, R206) -/

/-- The copy engine that serves a cluster (R206). -/
def engineFor (P : Nat) : Nat := 4 * dieOf P + P % 4

/-- The streamer that a command names: by its subscription ID, or, for a new subscription, by the region's stack and the descriptor's
streamer number (R206, R210). -/
def streamerFor (c : CpCmd) : Nat :=
  if c.fn = .subs ∧ c.tag = 0xFFFF then 4 * homeStack (c.dw 0) + fld (c.dw 3) 1 0 else fld c.tag 8 4

/-- The instruction of a COPYM follow-on word, where R209 allows it. -/
def followInstr (w : Half) : Option Instr :=
  match decodeNext { Prefixes.none with count := 1, pg := some 2 } w with
  | .done i _ =>
    match i with
    | .mldb _ _ | .mldbL _ _ | .mmaN4 _ _ | .mmaN8 _ _ | .mmaW16 _ _ | .mmaL _ _ => some i
    | _ => none
  | _ => none

/-- The handle that a follow-on word names. -/
def followHandle (i : Instr) : Option HReg :=
  match i with
  | .mldb h _ | .mldbL h _ => some h
  | .mmaN4 _ h | .mmaN8 _ h | .mmaW16 _ h | .mmaL _ h => some h
  | _ => none

/-- OP and Z of a matrix instruction as the engine log holds them (R212, R231). -/
def matrixCode (i : Instr) : Nat :=
  match i with
  | .mldb _ _ | .mldbL _ _ => 12
  | .msel _ _ => 14
  | .mz _ => 16
  | .macc _ _ => 17
  | .mmaN4 _ _ => 18
  | .mmaN8 _ _ => 19
  | .mmaW16 _ _ => 20
  | .mmaL _ _ => 21
  | .mdrn _ => 22
  | .eoutN8 _ _ _ => 23
  | .eoutF32 _ _ _ => 24
  | .eoutB16 _ _ _ => 25
  | _ => 0

/-- The ring that a core's handle names for a follow-on, which then counts one more reference (R209). -/
def followRing (s : State) (u : Nat) (i : Instr) : Option RingRef × State :=
  match followHandle i with
  | none => (none, s)
  | some h =>
    match (s.core u).rh h with
    | .ring id addr _ => (some { cl := clusterOf u, id := id, addr := addr, x := 0 }, ringRef s (clusterOf u) id)
    | _ => (none, s)

/-- The descriptor that a CP reads: 64 bytes of the local window (R205). -/
def readDescriptor (va : Word) : M (List Word) := do
  aligned va 64
  let s ← get
  let ps ← resolve s.me .load va 64
  needM (inLocalWin va) (.at .plbDeny va)
  noPoison s.me ps
  let bs ← readPieces s.me ps
  pure (dwordsOf bs 8)

/-- Whether the queue that a command goes to accepts it: a copy engine queues 64 commands (R206). -/
def queueOpen (s : State) (c : CpCmd) : Bool :=
  toStreamer c.fn || decide ((mget s.engines (engineFor c.cl) []).length < 64)

/-- A command enters its engine's queue. -/
def enqueueCmd (s : State) (c : CpCmd) : State :=
  if toStreamer c.fn then
    let n := streamerFor c
    s.setStreamer n { s.streamer n with queue := (s.streamer n).queue ++ [c] }
  else { s with engines := mmod s.engines (engineFor c.cl) [] (fun q => q ++ [c]) }

/-- CP (R205): the descriptor is read, the core's stores are released at package scope (R128), and the command leaves; it waits for the
reply when Y = 1. A full queue stalls it. The command takes its engine-log number as it leaves (log entry 77). -/
def commandEngine (fn : CpFn) (y : Bool) (d a b : GReg) : M Flow := do
  let s ← get
  let u := s.cur
  let c := s.core u
  needM (fn != .copym || ((s.taskOf u).map (fun t => t.kind.gang)).getD false) (.plain .illegalOp)
  let desc ← if fn = .unsubs then pure [] else readDescriptor (s.rg a)
  let s ← get
  let i := if fn = .copym then followInstr (BitVec.ofNat 16 (fld (desc.getD 4 0) 15 0)) else none
  let cmd : CpCmd :=
    { fn := fn, y := y, core := if y then some u else none, sender := u, d := d, desc := desc,
      descVa := if fn = .unsubs then 0 else s.rg a, tag := s.rg b, seq := seqAfter c.seqNo, pc := c.pc, cl := clusterOf u,
      tenant := c.ctx.tenant, kid := c.ctx.kern.kid, follow := none, moved := [] }
  if !queueOpen s cmd then pure .stay
  else
    let s := releaseTo s u 4
    let (ring, s) := match i with | some j => followRing s u j | none => (none, s)
    let off := if fn = .unsubs then 0 else (s.rg a).toNat - localWin
    let s := s.modCore u (fun c =>
      let c := c.logged (if toStreamer fn then 1 else 0) off y (cpFn7 fn)
      if fn = .copym then c.logged 2 0 false ((i.map matrixCode).getD 0) else c)
    let s := enqueueCmd s { cmd with follow := ring }
    set (if y then parkCore s u (.command d) else s)
    pure (if y then .stay else .next)

def execCp (fn : CpFn) (y : Bool) (d a b : GReg) (s : State) := runM (commandEngine fn y d a b) s

/-- ENGINE_REPLY (R205): the CP retires with the reply and acquires the command's writes, or traps ENGINE_FAULT. -/
def execEngineReply (u : Nat) (s : State) : Host.Outcome State Fault Refusal :=
  .next (match (s.core u).wait, (s.core u).pop with
    | .command d, some (.val v) => retireCore ((acquire s u).modCore u (fun c => c.wg d v)) u
    | .command _, some (.fail c sub fa tag data seq) =>
      takeTrap s u { cause := c, sub := sub, faddr := fa, tag := tag, data := data, seq := seq }
    | _, _ => s)

/-! ## How a command ends (R205, R213) -/

/-- What an engine has done: the state, the bytes or elements completed, and the fault that stopped it. -/
structure EngineEnd where
  st    : State
  count : Nat
  bad   : Option (Cause × Word)
  deriving DecidableEq, Repr

/-- The end of a command: the reply or trap of a CP with Y = 1, or a late record (R213). -/
def endCommand (c : CpCmd) (src : Source) (r : EngineEnd) (value : Word) : State :=
  match r.bad with
  | none =>
    match c.core with
    | some u => r.st.modCore u (fun x => { x with pop := some (.val value) })
    | none => r.st
  | some (cause, fa) =>
    match c.core with
    | some u => r.st.modCore u (fun x => { x with pop := some (.fail .engineFault cause.code fa c.tag (word r.count) c.seq) })
    | none => postShared r.st (clusterOf c.sender) src
        (lateRecord r.st c.sender cause.code c.seq c.pc fa c.tag (word r.count) c.kid)

/-- Whether bytes [loc, loc+n) overlap a slot or the descriptor of a broken ring (R194). -/
def brokenBytes (s : State) (loc n : Nat) : Bool :=
  decide (sramBase ≤ loc) && decide (loc < tagBase)
    && (s.cluster ((loc - sramBase) / sramSize)).rings.any (fun r => r.broken && r.overlaps ((loc - sramBase) % sramSize) n)

/-- Whether an agent's write touches a slot of a broken ring: its first such piece (R194). -/
def brokenGuard (s : State) (ps : List Piece) : Option Word :=
  ps.findSome? (fun p => match p.place with
    | .mem loc => if brokenBytes s loc p.len then some p.va else none
    | _ => none)

/-- Whether a command may end so: a late record waits while its engine holds one (R347). -/
def mayEnd (s : State) (c : CpCmd) (src : Source) (r : EngineEnd) : Bool := r.bad.isNone || c.core.isSome || !s.holdsRecord src

/-- An engine's read of a sector with its tag. -/
def engineSector (w : Who) (va : Word) : M (List Byte × Half) := do
  let ps ← resolve w .load va 64
  noPoison w ps
  match ps with
  | p :: _ => readSectorPiece w p
  | [] => pure ([], 0)

/-- An engine's write: rights, the rings that the ring table holds, broken rings, quarantine; then the bytes and, for a whole sector, its
tag (R191, R194, R208). -/
def engineStore (w : Who) (acc : Acc) (va : Word) (bs : List Byte) (tag : Option Half) : M Unit := do
  let ps ← resolve w acc va bs.length
  ringsFree ps
  let s ← get
  match brokenGuard s ps with
  | some a => trapM (.at .ringFault a)
  | none =>
    noDead ps
    writePieces w tag false ps bs

/-- One piece of an engine's work after another, each counting `size`; a fault stops it and keeps what is done. A wait of any piece holds the whole command,
which starts again; with it comes what was done before it, which stands should the wait end in a fault (R213; log entry 20). -/
def engineLoop (size : Nat) : List (M Unit) → State → Nat → Except (Wait × EngineEnd) EngineEnd
  | [], s, n => .ok ⟨s, n, none⟩
  | f :: t, s, n =>
    match f s with
    | .ok (_, s') => engineLoop size t s' (n + size)
    | .error (.trap t) => .ok ⟨s, n, some (t.cause, t.faddr)⟩
    | .error (.wait w) => .error (w, ⟨s, n, none⟩)

/-- One more step of a command that has not faulted. -/
def EngineEnd.andThen (r : EngineEnd) (f : M Unit) : Except (Wait × EngineEnd) EngineEnd :=
  match r.bad with
  | some _ => .ok r
  | none =>
    match f r.st with
    | .ok (_, s) => .ok { r with st := s }
    | .error (.trap t) => .ok { r with bad := some (t.cause, t.faddr) }
    | .error (.wait w) => .error (w, r)

/-- What an engine's work in a state comes to: its end, or the state in which it still waits. A page that can be regenerated is launched, and the work waits; where
that fails, it ends with PAGE_FAULT and with what was done before (R111, R213). -/
def engineResult (s : State) (src : Source) (r : Except (Wait × EngineEnd) EngineEnd) : Except State EngineEnd :=
  match r with
  | .ok r => .ok r
  | .error (.page va, part) =>
    match faultRegen part.st va (some src) with
    | (true, s') => .ok { part with st := s', bad := some (.pageFault, va) }
    | (false, _) => .error (faultRegen s va (some src)).2
  | .error _ => .error s

/-! ## The copy engine's functions (R207, R208) -/

/-- The descriptor doubleword that holds a refused field, if any (R207, R209). -/
def fieldFault (c : CpCmd) : Option Nat :=
  let usesSrc := match c.fn with | .copy | .copyf | .copym | .gath | .scat => true | _ => false
  let indexed := match c.fn with | .gath | .scat => true | _ => false
  let bad := fun (k : Nat) =>
    match k with
    | 0 => !usesSrc && c.dw 0 != 0
    | 1 => false
    | 2 => fld (c.dw 2) 63 48 != 0 || (c.fn != .fill && fld (c.dw 2) 47 32 != 0)
             || (if indexed then c.len != 0 else c.len % 64 != 0)
    | 3 => fld (c.dw 3) 63 4 != 0 || (if indexed then decide (4 < fld (c.dw 3) 3 1) else fld (c.dw 3) 3 1 != 0)
    | 4 => match c.fn with
      | .copyf => false
      | .copym => fld (c.dw 4) 63 16 != 0 || (followInstr (BitVec.ofNat 16 (fld (c.dw 4) 15 0))).isNone
      | _ => c.dw 4 != 0
    | 5 => match c.fn with
      | .copyf | .copym | .fill => false
      | _ => c.dw 5 != 0
    | 6 => !indexed && c.dw 6 != 0
    | _ => if indexed then fld (c.dw 7) 63 32 != 0 else c.dw 7 != 0
  (below 8).find? bad

/-- Bytes of an element of GATH and SCAT. -/
def CpCmd.esz (c : CpCmd) : Nat :=
  match fld (c.dw 3) 3 1 with
  | 0 => 1
  | 1 => 2
  | 2 => 4
  | 3 => 8
  | _ => 64

/-- The first misaligned address of a command (R208). -/
def misaligned (c : CpCmd) : Option Word :=
  let n := match c.fn with | .gath | .scat => c.esz | _ => 64
  if (c.dw 0).toNat % n ≠ 0 then some (c.dw 0) else if (c.dw 1).toNat % n ≠ 0 then some (c.dw 1) else none

/-- One sector of COPY (R208). -/
def copySector (c : CpCmd) (i : Nat) : M Unit := do
  let (bs, t) ← engineSector c.who (c.dw 0 + word (64 * i))
  engineStore c.who .sector (c.dw 1 + word (64 * i)) bs (some t)

/-- One element from an address to another: a whole sector moves with its tag; a write to a typed sector needs T too (R208). -/
def moveElement (c : CpCmd) (src dst : Word) : M Unit :=
  if c.esz = 64 then do
    let (bs, t) ← engineSector c.who src
    engineStore c.who .sector dst bs (some t)
  else do
    let bs ← loadBytes c.who src c.esz
    engineStore c.who .sector dst bs none

/-- Idx[i] of GATH and SCAT, at any address (R207; log entry 75). -/
def indexOf (c : CpCmd) (i : Nat) : M Word := do
  let bs ← loadBytes c.who (c.dw 6 + word (4 * i)) 4
  pure (word (leNat bs))

/-- One element of GATH and of SCAT (R208). -/
def gatherElement (c : CpCmd) (i : Nat) : M Unit := do
  let x ← indexOf c i
  moveElement c (c.dw 0 + x * word c.esz) (c.dw 1 + word (i * c.esz))
def scatterElement (c : CpCmd) (i : Nat) : M Unit := do
  let x ← indexOf c i
  moveElement c (c.dw 0 + word (i * c.esz)) (c.dw 1 + x * word c.esz)

/-- One sector of FILL (R208). -/
def fillSector (c : CpCmd) (i : Nat) : M Unit :=
  engineStore c.who .sector (c.dw 1 + word (64 * i)) ((List.replicate 8 (leBytes 8 (c.dw 5).toNat)).flatten)
    (some (BitVec.ofNat 16 (fld (c.dw 2) 47 32)))

/-- A cluster whose dirty and fenced bytes at the locations that meet a condition have been written back: its cache keeps them as clean copies. -/
def Cluster.cleaned (c : Cluster) (p : Nat → Bool) : Cluster :=
  { c with uoFenced := c.uoFenced.filter (fun x => !p x.loc),
           uoCache := (c.uoFenced.filter (fun x => p x.loc)).foldl (fun m x => mset m x.loc ⟨x.byte, false⟩)
             (c.uoCache.map (fun x => if p x.1 then (x.1, { x.2 with dirty := false }) else x)) }

/-- Writes back sector n from every cluster cache, whose lines stay valid; INVAL then drops every copy, those of instruction caches too. A core's own stores that
no FENCE has written back are in no cache (R208). -/
def writeBackSectorAll (s : State) (n : Nat) (drop : Bool) : State :=
  let hit := fun (a : Nat) => sectorOf a == n
  let Ps := (s.clusters.map (fun (p : Nat × Cluster) => p.1)).dedup
  let ws := Ps.flatMap (fun P => heldUo s P hit)
  let s := s.mapClusters (fun _ c => if drop then c.dropUo hit else c.cleaned hit)
  let s := if ws = [] then s else performWrites s ws
  if drop then { s.mapCores (fun _ c => { c with icache := c.icache.filter (fun x => !hit x.1) }) with icSec := mset s.icSec n s.past.length } else s

/-- One sector of WBACK and INVAL (R208). -/
def backSector (drop : Bool) (c : CpCmd) (i : Nat) : M Unit := do
  let ps ← resolve c.who .store (c.dw 1 + word (64 * i)) 64
  noDead ps
  match ps with
  | { place := .mem loc, .. } :: _ => modify (fun s => writeBackSectorAll s (sectorOf loc) drop)
  | _ => pure ()

/-- How far upward from a point some ranges reach without a gap; `n` bounds their number. -/
def reach (rs : List (Nat × Nat)) : Nat → Nat → Nat
  | 0, p => p
  | n + 1, p =>
    match rs.find? (fun r => decide (r.1 ≤ p) && decide (p < r.2)) with
    | some r => reach rs n r.2
    | none => p

/-- INVAL of every line of a page, by one command or several, is the first step of R91. -/
def invalPages (s : State) (va : Word) (len : Nat) : State :=
  let one := fun (e : TcEntry) =>
    let n := if e.big then 2 ^ 25 else 2 ^ 16
    let a := va.toNat
    if e.stage = 0 ∧ a < e.page * n + n ∧ e.page * n < a + len then
      let rs := (a, a + len) :: e.inval
      { e with inval := rs, stage := if e.page * n + n ≤ reach rs rs.length (e.page * n) then 1 else 0 }
    else e
  { s with tcache := s.tcache.map one }

/-- A completion flag in a scratchpad window (R130, R207); for an address that is misaligned or lies in no window see log entry 74. -/
def writeFlag (c : CpCmd) : M Unit := do
  aligned (c.dw 4) 8
  let s ← get
  match regionOf s c.cl (redirected c.who (c.dw 4)) with
  | .window _ _ _ => engineStore c.who .sector (c.dw 4) (leBytes 8 (c.dw 5).toNat) none
  | _ => trapM (.at .plbDeny (c.dw 4))

/-- The whole of a copy-engine command from a state. -/
def runCopy (c : CpCmd) (s : State) : Except (Wait × EngineEnd) EngineEnd :=
  match fieldFault c with
  | some k => .ok ⟨s, 0, some (.formatFault, c.field k)⟩
  | none =>
    match misaligned c with
    | some a => .ok ⟨s, 0, some (.align, a)⟩
    | none =>
      let all := fun (size n : Nat) (f : CpCmd → Nat → M Unit) => engineLoop size ((below n).map (fun i => f (c.at_ i) i)) s 0
      let n := c.len / 64
      let cnt := fld (c.dw 7) 31 0
      match c.fn with
      | .copyf => do
        let r ← all 64 n copySector
        r.andThen (writeFlag (c.at_ n))
      | .gath => all 1 cnt gatherElement
      | .scat => all 1 cnt scatterElement
      | .fill => all 64 n fillSector
      | .wback => all 64 n (backSector false)
      | .inval => (all 64 n (backSector true)).map (fun r => { r with st := invalPages r.st (c.dw 1) r.count })
      | _ => all 64 n copySector

/-- The follow-on of a COPYM that has ended: it goes to the unit's entrance when the payload has landed; its ring is let go otherwise, and
a handle that named no ring reports RING_FAULT (R209, R213). -/
def sendFollowOn (c : CpCmd) (r : EngineEnd) : State :=
  match c.follow, r.bad with
  | some ring, none =>
    let f : FollowOn := { word := BitVec.ofNat 16 (fld (c.dw 4) 15 0), ring := ring, a := c.dw 5, core := c.sender,
                          seq := seqAfter c.seq, pc := c.pc, tenant := c.tenant, kid := c.kid }
    r.st.modTile (tileOf c.sender) (fun t => { t with follow := t.follow ++ [f] })
  | some ring, some _ => ringUnref r.st ring.cl ring.id
  | none, none => postShared r.st (clusterOf c.sender) (.matrix (tileOf c.sender))
      (lateRecord r.st c.sender Cause.ringFault.code (seqAfter c.seq) c.pc 0 0 0 c.kid)
  | none, some _ => r.st

/-- The next command of copy engine `eng`, when it is of a function: run whole, one after another, or held while an access of it waits (log entries 20 and 76). It does not start while the engine, or the
matrix unit to which a COPYM without a ring reports, holds a record (R206, R347). -/
def copyStep (fn : CpFn) (eng : Nat) (s : State) : Host.Outcome State Fault Refusal :=
  match mget s.engines eng [] with
  | [] => .next s
  | c :: rest =>
    if c.fn ≠ fn ∨ s.holdsRecord (.copyEng eng) = true ∨ (c.fn = .copym ∧ c.follow = none ∧ s.holdsRecord (.matrix (tileOf c.sender)) = true) then .next s
    else
      match engineResult s (.copyEng eng) (runCopy c s) with
      | .ok r =>
        let st := if c.fn = .copym then sendFollowOn c r else r.st
        .next (endCommand c (.copyEng eng) { r with st := { st with engines := mset st.engines eng rest } } (word r.count))
      | .error s' => .next s'

/-- The piece of a command of whose accesses one waits for a bank, if one does (R96, R97). -/
def heldPiece (c : CpCmd) (s : State) : Option Nat :=
  match runCopy c s with
  | .error (.banks, r) => some (r.count / (match c.fn with | .gath | .scat => 1 | _ => 64))
  | _ => none

def execCopy (eng : Nat) (s : State) := copyStep .copy eng s
def execCopyf (eng : Nat) (s : State) := copyStep .copyf eng s
def execCopym (eng : Nat) (s : State) := copyStep .copym eng s
def execGath (eng : Nat) (s : State) := copyStep .gath eng s
def execScat (eng : Nat) (s : State) := copyStep .scat eng s
def execFill (eng : Nat) (s : State) := copyStep .fill eng s
def execWback (eng : Nat) (s : State) := copyStep .wback eng s
def execInval (eng : Nat) (s : State) := copyStep .inval eng s

/-! ## Tile streamers (R210, R211) -/

/-- The subscription slot that an ID names on streamer `str`, if it is one of its IDs. -/
def subSlot (str : Nat) (id : Word) : Option Nat :=
  if id.toNat < 512 ∧ fld id 8 4 = str then some (fld id 3 0) else none

/-- The slot size of a ring. -/
def slotSize (s : State) (r : RingRef) : Nat := 2 ^ (geomOf (word (s.mem.nat (sramLoc r.cl r.addr) 8))).lsz

/-- A fault of a SUBS: its sub-cause and fault address. -/
def subsFault {α : Type} (cause : Cause) (va : Word) : M α := trapM (.at cause va)

/-- Binds the ring of a SUBS: a global-window address of a valid descriptor, which the task may read (R190, R205, R210). -/
def subsRing (c : CpCmd) : M RingRef := do
  let va := redirected c.who (c.dw 1)
  let s ← get
  if va.toNat < globalWin then subsFault .formatFault (c.field 1)
  match regionOf s c.cl va with
  | .window P off dom =>
    let r ← rightsM c.who dom
    needM (granted .load true r) (.at .plbDeny va)
    needM (!s.quarCl.contains P) (.at .poison va)
    if (s.cluster P).switching.any (fun x => x.1 == off / 2 ^ 18) then waitM .banks
    match bindRing s P off with
    | some (id, s) =>
      set s
      pure { cl := P, id := id, addr := off, x := 0 }
    | none => subsFault .ringFault va
  | _ => subsFault .formatFault (c.field 1)

/-- SUBS on a streamer: the subscription's ID; an ID that names none is a FORMAT_FAULT (R210; log entry 73). -/
def runSubs (str : Nat) (c : CpCmd) : M Word := do
  let s ← get
  let src := c.dw 0
  let x := s.streamer str
  let put := fun (k : Nat) (y : Sub) => modify (fun (s : State) => s.setStreamer str { s.streamer str with subs := mset (s.streamer str).subs k y })
  if src.toNat % 64 ≠ 0 ∨ regionOf s c.cl src ≠ .mapped ∨ endpointOf src ≠ 0 ∨ src.toNat % 2 ^ 25 + c.len > 2 ^ 25 then subsFault .formatFault (c.field 0)
  if c.len = 0 then subsFault .formatFault (c.field 2)
  if c.tag = 0xFFFF then
    match lowestFree (x.subs.map (fun p => p.1)) 16 with
    | none => subsFault .formatFault (c.field 3)
    | some k =>
      let r ← subsRing c
      let size := slotSize (← get) r
      if c.len % size ≠ 0 then subsFault .formatFault (c.field 2)
      put k { src := src, len := c.len, size := size, cursor := 0, rings := [r], jobs := [] }
      pure (word (16 * str + k))
  else
    match (subSlot str c.tag).bind (fun k => (mfind x.subs k).map (fun y => (k, y))) with
    | none => subsFault .formatFault (c.field 0)
    | some (k, y) =>
      if y.src ≠ src then subsFault .formatFault (c.field 0)
      if y.len ≠ c.len then subsFault .formatFault (c.field 2)
      if 8 ≤ y.rings.length then subsFault .formatFault (c.field 1)
      let r ← subsRing c
      if slotSize (← get) r ≠ y.size then subsFault .formatFault (c.field 1)
      put k { y with rings := y.rings ++ [r] }
      pure c.tag

/-- A streamer's queue without its head. -/
def dropHead (s : State) (str : Nat) : State :=
  s.setStreamer str { s.streamer str with queue := (s.streamer str).queue.drop 1 }

/-- SUBS (R210). -/
def execSubs (str : Nat) (s : State) : Host.Outcome State Fault Refusal :=
  match (s.streamer str).queue with
  | c :: _ =>
    if c.fn ≠ .subs ∨ s.holdsRecord (.streamer str) = true then .next s
    else
      match runSubs str c (dropHead s str) with
      | .ok (id, s') => .next (endCommand c (.streamer str) ⟨s', 0, none⟩ id)
      | .error (.trap t) => .next (endCommand c (.streamer str) ⟨dropHead s str, 0, some (t.cause, t.faddr)⟩ 0)
      | .error (.wait _) => .next s
  | [] => .next s

/-- A subscription rewritten. -/
def setSub (s : State) (str k : Nat) (y : Sub) : State :=
  s.setStreamer str { s.streamer str with subs := mset (s.streamer str).subs k y }

/-- The subscription of this streamer that a command names (R210). -/
def subOf (s : State) (str : Nat) (c : CpCmd) : Option (Nat × Sub) :=
  (subSlot str c.tag).bind (fun k => (mfind (s.streamer str).subs k).map (fun y => (k, y)))

/-- UNSUBS when its subscription's earlier pulls are complete: the rings are let go, and commands for the ID that came after it go back to the queue (R211). -/
def endSub (str k : Nat) (y : Sub) (c : CpCmd) (later : List PullJob) (s : State) : State :=
  let s := y.rings.foldl (fun s r => ringUnref s r.cl r.id) s
  let x := s.streamer str
  endCommand c (.streamer str) ⟨s.setStreamer str { x with queue := later.map (fun j => j.cmd) ++ x.queue, subs := mdel x.subs k }, 0, none⟩ 0

/-- UNSUBS (R211): at once, or in its turn behind its subscription's pulls, which delay nothing else; for an ID that names no subscription see log entry 73. -/
def execUnsubs (str : Nat) (s : State) : Host.Outcome State Fault Refusal :=
  match (s.streamer str).queue with
  | c :: _ =>
    if c.fn ≠ .unsubs ∨ s.holdsRecord (.streamer str) = true then .next s
    else
      match subOf s str c with
      | none => .next (endCommand c (.streamer str) ⟨dropHead s str, 0, some (.formatFault, 0)⟩ 0)
      | some (k, y) =>
        if y.jobs = [] then .next (endSub str k y c [] (dropHead s str))
        else .next (setSub (dropHead s str) str k { y with jobs := y.jobs ++ [⟨c, 0⟩] })
  | [] => .next s

/-- The sectors of an element written one after another into a ring's tail slot (R191, R194, R208). -/
def slotActs (w : Who) : List (List Byte × Half) → Word → List (M Unit)
  | [], _ => []
  | (bs, t) :: rest, va => engineStore w .sector va bs (some t) :: slotActs w rest (va + 64)

/-- The work of one ring: its tail slot takes an element, by the slot's global-window address, with the task's rights, and its TAIL advances; a broken
ring faults (R194, R205, R211). -/
def feedActs (s : State) (c : CpCmd) (secs : List (List Byte × Half)) (r : RingRef) : List (M Unit) :=
  match ringEntry s r.cl r.id with
  | none => [trapM (.at .ringFault (globalise s r.cl (localVa r.addr)))]
  | some e =>
    let va := globalise s r.cl (localVa ((geomOf e.dw0).slot (ringTail s r.cl r.addr).toNat))
    if e.broken then [trapM (.at .ringFault va)]
    else if s.quarCl.contains r.cl then [trapM (.at .poison va)]
    else slotActs c.who secs va ++ [modify (fun s => setTail s r.cl r.addr (ringTail s r.cl r.addr + 1))]

/-- The sectors of an element, in order, with their tags. -/
def elementSectors (w : Who) : List Word → M (List (List Byte × Half))
  | [] => pure []
  | va :: t => do
    let x ← engineSector w va
    let xs ← elementSectors w t
    pure (x :: xs)

/-- Whether every ring of a subscription has a free slot; a broken one lets the element come, which then faults. -/
def roomInAll (s : State) (y : Sub) : Bool :=
  y.rings.all (fun r => match ringEntry s r.cl r.id with
    | some e => e.broken || decide (1 ≤ ringFree s r.cl e)
    | none => true)

/-- One element of a subscription: read once, then written to every ring in turn (R211); a fault in a later ring leaves what the earlier ones took (R213). -/
def pullElement (c : CpCmd) (y : Sub) (s : State) : Except (Wait × EngineEnd) EngineEnd :=
  match elementSectors c.who ((below (y.size / 64)).map (fun k => y.src + word (y.cursor + 64 * k))) s with
  | .ok (secs, s) => engineLoop 0 (y.rings.flatMap (feedActs s c secs)) s 0
  | .error (.trap t) => .ok ⟨s, 0, some (t.cause, t.faddr)⟩
  | .error (.wait w) => .error (w, ⟨s, 0, none⟩)

/-- COUNT of a pull (R211). -/
def CpCmd.pulls (c : CpCmd) : Nat := fld (c.dw 2) 31 0

/-- The end of a pull whose elements have all been written: its flag, for PULLF, and only then its reply (R205, R211). -/
def endPull (str k : Nat) (y : Sub) (c : CpCmd) (rest : List PullJob) (s : State) : State :=
  let r : EngineEnd := ⟨setSub s str k { y with jobs := rest }, c.pulls, none⟩
  match if c.fn = .pullf then r.andThen (writeFlag c) else .ok r with
  | .ok r => if mayEnd s c (.streamer str) r then endCommand c (.streamer str) r (word c.pulls) else s
  | .error _ => s

/-- One step of what subscription k carries out: an element of a pull when every ring has room, a pull's end, or an UNSUBS whose turn has come (R211). While the
streamer holds a record no pull starts (R347). -/
def elementStep (s : State) (str k : Nat) : State :=
  match mfind (s.streamer str).subs k with
  | none => s
  | some y =>
    match y.jobs with
    | [] => s
    | j :: rest =>
      if s.holdsRecord (.streamer str) ∧ j.left = j.cmd.pulls then s
      else if j.cmd.fn = .unsubs then endSub str k y j.cmd rest s
      else if j.left = 0 then endPull str k y j.cmd rest s
      else if roomInAll s y = false then s
      else
        match engineResult s (.streamer str) (pullElement j.cmd y s) with
        | .error s' => s'
        | .ok r =>
          let y' := { y with cursor := (y.cursor + y.size) % y.len, jobs := { j with left := j.left - 1 } :: rest }
          match r.bad with
          | none =>
            let s := setSub r.st str k y'
            if j.left = 1 then endPull str k y' j.cmd rest s else s
          | some f =>
            let r : EngineEnd := ⟨setSub r.st str k { y with jobs := rest }, j.cmd.pulls - j.left, some f⟩
            if mayEnd s j.cmd (.streamer str) r then endCommand j.cmd (.streamer str) r 0 else s

/-- The elements of a pull one after another while the rings have room; `n` bounds their number. -/
def elementSteps (str k : Nat) : Nat → State → State
  | 0, s => s
  | n + 1, s => elementSteps str k n (elementStep s str k)

/-- PULL and PULLF (R211): the command joins its subscription's pulls, which go on as far as the rings have room; for an ID that names no subscription see log entry 73. -/
def pullStep (fn : CpFn) (str : Nat) (s : State) : Host.Outcome State Fault Refusal :=
  match (s.streamer str).queue with
  | c :: _ =>
    if c.fn ≠ fn ∨ s.holdsRecord (.streamer str) = true then .next s
    else
      match subOf s str c with
      | none => .next (endCommand c (.streamer str) ⟨dropHead s str, 0, some (.formatFault, c.field 0)⟩ 0)
      | some (k, y) =>
        let s := setSub (dropHead s str) str k { y with jobs := y.jobs ++ [⟨c, c.pulls⟩] }
        .next (if y.jobs = [] then elementSteps str k (max 1 (min c.pulls 4096)) s else s)
  | [] => .next s

/-- Whether the flag of a pull waits for a bank. -/
def flagHeld (s : State) (j : PullJob) : Bool :=
  j.cmd.fn == .pullf && j.left == 0 && (match writeFlag j.cmd s with | .error (.wait .banks) => true | _ => false)

/-- Whether the head of a streamer's queue is a SUBS that waits for the bank of its ring. -/
def subsHeld (s : State) (str : Nat) : Bool :=
  match (s.streamer str).queue with
  | c :: _ => c.fn == .subs && (match runSubs str c s with | .error (.wait .banks) => true | _ => false)
  | [] => false

/-- A command's piece has waited while logical cluster q left and L took its number (R97). -/
def CpCmd.renamed (q L : Nat) (rename : Nat → Nat) (c : CpCmd) (held : Option Nat) : CpCmd :=
  { c with moved := c.moved.map (fun m => (m.1, m.2.1, rename m.2.2)) ++ (match held with | some i => if q < L then [(i, L, q)] else [] | none => []) }

/-- The accesses of the engines and the streamers that wait for a bank while L is renumbered go on under the new number (R97). -/
def renameHeld (s : State) (q L : Nat) (rename : Nat → Nat) : State :=
  let engines := s.engines.map (fun (x : Nat × List CpCmd) => (x.1, match x.2 with
    | c :: t => c.renamed q L rename (heldPiece c s) :: t
    | [] => []))
  let streamers := s.streamers.map (fun (x : Nat × Streamer) =>
    let queue := match x.2.queue with
      | c :: t => c.renamed q L rename (if subsHeld s x.1 then some 0 else none) :: t
      | [] => []
    let subs := x.2.subs.map (fun (y : Nat × Sub) => (y.1, { y.2 with jobs := y.2.jobs.map (fun (j : PullJob) =>
      { j with cmd := j.cmd.renamed q L rename (if flagHeld s j then some 0 else none) }) }))
    (x.1, { x.2 with queue := queue, subs := subs }))
  { s with engines := engines, streamers := streamers }

def execPull (str : Nat) (s : State) := pullStep .pull str s
def execPullf (str : Nat) (s : State) := pullStep .pullf str s

/-- STREAMER_ELEMENT_WRITE (R211). -/
def execStreamerElementWrite (str sub : Nat) (s : State) : Host.Outcome State Fault Refusal := .next (elementStep s str sub)

end Sys2Proof.Machine
end

