-- ==== Sys2Proof/Machine/Matrix.lean ====
section
/-! DEFINITION. The matrix unit (R215 to R237): blocks, the exact step, the ladder, the command queue and the epilogue engine. -/

namespace Sys2Proof.Machine

/-! ## Elements in a ring slot (R219, R220) -/

/-- A 64×64 element as read: its format code, the 64 rows of element codes, and its sectors' scales. -/
structure Element where
  code   : Nat
  rows   : List (List Nat)
  scales : List Int
  deriving DecidableEq, Repr

/-- Bytes of an element and of one of its rows at a width (R219). -/
def elementBytes (w : Nat) : Nat := 512 * w
def rowBytes (w : Nat) : Nat := 8 * w

/-- The 64 rows of codes in an element's bytes. -/
def rowsFrom (w : Nat) (bs : List Byte) : List (List Nat) :=
  (below 64).map (fun r =>
    let x := leNat ((bs.drop (rowBytes w * r)).take (rowBytes w))
    (below 64).map (fun j => x / 2 ^ (w * j) % 2 ^ w))

/-- Scale of element (r, j): its sector's (R147, R219). -/
def Element.scaleAt (e : Element) (w r j : Nat) : Int := e.scales.getD ((rowBytes w * r + w * j / 8) / 64) 0

/-- The values of an element after a change of its codes' values, each with the scale of its own sector (R221). -/
def Element.values (e : Element) (f : Num → Num) : List (List Num) :=
  let w := (codeWidth e.code).getD 8
  (e.rows.zip (below 64)).map (fun r =>
    (r.1.zip (below 64)).map (fun c => (f (elemValue e.code c.1)).scale (e.scaleAt w r.2 c.2)))

/-- The element that a command reads from the slot of its bound element, or the late fault with its address (R220, R230). -/
def readElement (s : State) (r : RingRef) : Except (Cause × Word) (Element × List Byte) :=
  match ringEntry s r.cl r.id with
  | none => .error (.ringFault, localVa r.addr)
  | some e =>
    if e.broken then .error (.ringFault, localVa r.addr)
    else
      let g := geomOf e.dw0
      let off := g.slot r.x
      let a := sramLoc r.cl off
      let c := tagCode (s.mem.tag a)
      match codeWidth c with
      | none => .error (.formatFault, localVa off)
      | some w =>
        let n := elementBytes w
        if c = 0 ∨ c = 0x40 then .error (.formatFault, localVa off)
        else if 2 ^ g.lsz < n then .error (.ringFault, localVa off)
        else
          let tags := (below (n / 64)).map (fun k => s.mem.tag (a + 64 * k))
          match (below (n / 64)).find? (fun k => locPoisoned s (a + 64 * k)) with
          | some k => .error (.poison, localVa (off + 64 * k))
          | none =>
            if tags.any (fun t => tagCode t != c) then .error (.formatFault, localVa off)
            else
              let bs := s.mem.bytes a n
              .ok (⟨c, rowsFrom w bs, tags.map tagScale⟩, bs)

/-! ## The step (R221) -/

/-- RoundAcc: the exact sum of the old accumulator and the products, rounded once; no finite sum becomes infinite (R221). -/
def roundAcc (acc : Nat) (prods : List Num) : Nat := clampF32 (prods.foldl (fun t p => t.add p) (f32 acc))

/-- The 64 products of one output. -/
def dots (row col : List Num) : List Num := List.zipWith (fun a b => a.mul b) row col

/-- The columns of rows. -/
def columns (rows : List (List Num)) : List (List Num) := (below 64).map (fun n => rows.map (fun r => r.getD n (.zero false)))

/-- floor(log2 |x|) of a nonzero finite value. -/
def numLog (x : Num) : Option Int :=
  match x with
  | .fin m e => some ((Nat.log2 m.natAbs : Int) + e)
  | _ => none

/-- Whether an output cancels at a distance (R224). -/
def cancels (dist : Nat) (prods : List Num) : Bool :=
  prods.all (fun p => p.isFinite) &&
    (match (prods.filterMap numLog) with
     | [] => false
     | x :: t =>
       let emax := t.foldl max x
       match numLog (prods.foldl (fun t p => t.add p) (.zero true)) with
       | some l => decide (l < emax - dist)
       | none => true)

/-- The products of all 4,096 outputs, in row order, of A's rows and B's columns. -/
def allProducts (a b : List (List Num)) : List (List Num) :=
  let cols := columns b
  a.flatMap (fun r => cols.map (fun c => dots r c))

/-- The outputs of a step that cancel. -/
def cancelCount (dist : Nat) (ps : List (List Num)) : Nat := ps.countP (cancels dist)

/-! ## The ladder (R223 to R225) -/

/-- The format of a narrow rung. -/
def Rung.fmt : Rung → Option Fmt
  | .n4 => some fmtN4
  | .n8 => some fmtN8
  | .w16 => none
def Rung.code : Rung → Nat
  | .n4 => 0
  | .n8 => 1
  | .w16 => 2
def rungOf (n : Nat) : Rung := if n = 0 then .n4 else if n = 1 then .n8 else .w16
/-- One rung wider. -/
def Rung.up : Rung → Rung
  | .n4 => .n8
  | _ => .w16

/-- An element's value at a rung (R223). -/
def Rung.convert (r : Rung) (x : Num) : Num :=
  match r.fmt with
  | some f => f.value (f.narrow true x)
  | none => x

/-- Whether a value clamps, and whether it underflows, at a rung (R223). -/
def Rung.clamps (r : Rung) (x : Num) : Bool :=
  match r.fmt, x with
  | some _, .inf _ => true
  | some f, .fin m e => decide (f.top < f.magCode m e)
  | _, _ => false
def Rung.vanishes (r : Rung) (x : Num) : Bool :=
  match r.fmt, x with
  | some f, .fin m e => f.magCode m e == 0
  | _, _ => false

/-- Saturations and underflows of an element at a rung. -/
def Element.sats (e : Element) (r : Rung) : Nat := e.rows.foldl (fun n row => n + row.countP (fun c => r.clamps (elemValue e.code c))) 0
def Element.unds (e : Element) (r : Rung) : Nat := e.rows.foldl (fun n row => n + row.countP (fun c => r.vanishes (elemValue e.code c))) 0
/-- Whether an element holds a NaN. -/
def Element.hasNan (e : Element) : Bool := e.rows.any (fun row => row.any (fun c => elemValue e.code c == .nan))

/-! ## Resident blocks (R216) -/

/-- Slots of a block of a kind, and the KIND of a code that MLDB accepts (R216). -/
def kindSlots (k : Nat) : Nat := if k = 7 then 4 else if k = 5 ∨ k = 6 then 2 else 1
def kindOfCode (c : Nat) : Option Nat :=
  match c with
  | 0x30 => some 1
  | 0x20 => some 2
  | 0x21 => some 3
  | 0x22 => some 4
  | 0x11 => some 5
  | 0x12 => some 6
  | _ => none

def Tile.slot (t : Tile) (k : Nat) : Slot := mget t.slots k Slot.invalid

/-- The first slots of the valid blocks that share a slot with [x, x+k). -/
def sharing (t : Tile) (x k : Nat) : List Nat :=
  (below 128).filter (fun f =>
    let kind := (t.slot f).kind
    1 ≤ kind && kind ≤ 7 && decide (f < x + k) && decide (x < f + kindSlots kind))

/-- The unit with every block that shares a slot with [x, x+k) made invalid as a whole, and those slots too (R232). -/
def Tile.invalidate (t : Tile) (x k : Nat) : Tile :=
  let gone := (sharing t x k).flatMap (fun f => upFrom f (kindSlots (t.slot f).kind)) ++ upFrom x k
  { t with slots := t.slots.filter (fun p => !gone.contains p.1),
           blocks := t.blocks.filter (fun p => !gone.contains (p.1 / 4096)) }

/-- A map with the keys of [lo, lo+n) replaced by the values of a list that are not the default. -/
def mput {α : Type} [DecidableEq α] (m : AMap α) (lo n : Nat) (vs : List α) (d : α) : AMap α :=
  m.filter (fun p => p.1 < lo) ++ ((upFrom lo n).zip vs).filter (fun p => p.2 ≠ d) ++ m.filter (fun p => lo + n ≤ p.1)

/-- The values of the keys of [lo, lo+n), the default where one is absent. -/
def mrange {α : Type} (m : AMap α) (lo n : Nat) (d : α) : List α :=
  let part := m.filter (fun p => decide (lo ≤ p.1) && decide (p.1 < lo + n))
  (upFrom lo n).map (fun k => mget part k d)

/-- An accumulator's 4,096 elements, and the unit with them replaced. -/
def Tile.racc (t : Tile) (k : Nat) : List Nat := (mrange t.acc (4096 * k) 4096 0).map (fun x => x.toNat)
def Tile.wacc (t : Tile) (k : Nat) (vs : List Nat) : Tile :=
  { t with acc := mput t.acc (4096 * k) 4096 (vs.map (BitVec.ofNat 32)) 0 }

/-- The block in the slots from x: its element (R216, R219). -/
def Tile.block (t : Tile) (x : Nat) : Element :=
  let sl := t.slot x
  let w := (codeWidth sl.code).getD 8
  ⟨sl.code, rowsFrom w (mrange t.blocks (4096 * x) (elementBytes w) 0), sl.scales⟩

/-- The bytes of an element's codes at a narrow rung, row by row (R216, R219, R223). -/
def Element.rungBytes (e : Element) (r : Rung) : List Byte :=
  match r.fmt with
  | some f =>
    let w := if r = .n4 then 4 else 8
    e.rows.flatMap (fun row => leBytes (rowBytes w) (row.reverse.foldl (fun n c => n * 2 ^ w + f.narrow true (elemValue e.code c)) 0))
  | none => []

/-- A block written to the slots from x, with the counts of a laddered one, whose third and fourth slot hold its N8 and its N4 rung (R216, R223, R232; log entry
85). -/
def Tile.load (t : Tile) (x kind : Nat) (e : Element) (bs : List Byte) : Tile :=
  let k := kindSlots kind
  let t := t.invalidate x k
  let bs := if kind = 7 then bs ++ e.rungBytes .n8 ++ e.rungBytes .n4 else bs
  let first : Slot :=
    if kind = 7 then
      { kind := kind, code := e.code, scales := e.scales, sat4 := e.sats .n4, und4 := e.unds .n4, sat8 := e.sats .n8,
        und8 := e.unds .n8, nan := e.hasNan }
    else { Slot.invalid with kind := kind, code := e.code, scales := e.scales }
  let slots := (upFrom (x + 1) (k - 1)).foldl (fun m j => mset m j { Slot.invalid with kind := 8 }) (mset t.slots x first)
  { t with slots := slots, blocks := mput t.blocks (4096 * x) bs.length bs 0 }

/-- Whether the scales of a block's sectors lie within 31 of each other (R220). -/
def scalesClose (l : List Int) : Bool :=
  match l with
  | [] => true
  | x :: t => decide (t.foldl max x - t.foldl min x ≤ 31)

/-! ## The commands at the unit (R232 to R236) -/

/-- What a command leaves of the unit, a step that goes on at a wider rung, or the late fault with its address and the unit after it (R225, R230). -/
inductive UnitEnd where
  | done (t : Tile)
  | again (t : Tile)
  | fault (t : Tile) (c : Cause) (fa : Word)
  deriving DecidableEq, Repr

/-- Slots that a plain MLDB or an MLDB.L of the element in a ring's slot would fill (R216, R232); 1 where its code names no block. -/
def targetSlots (s : State) (r : RingRef) (ladder : Bool) : Nat :=
  if ladder then 4
  else match ringEntry s r.cl r.id with
    | some e => ((kindOfCode (tagCode (s.mem.tag (sramLoc r.cl ((geomOf e.dw0).slot r.x))))).map kindSlots).getD 1
    | none => 1

/-- Whether an uncorrectable error has struck an accumulator, or one of `n` slots from x (R230; log entry 64). -/
def Tile.badAcc (t : Tile) (d : Nat) : Bool := t.bad.contains d
def Tile.badSlots (t : Tile) (x n : Nat) : Bool := (upFrom x n).any (fun k => t.bad.contains (8 + k))
/-- An accumulator, or slots, written afresh. -/
def Tile.freshAcc (t : Tile) (d : Nat) : Tile := { t with bad := t.bad.filter (fun b => b ≠ d) }
def Tile.freshSlots (t : Tile) (x n : Nat) : Tile := { t with bad := t.bad.filter (fun b => !(decide (8 + x ≤ b) && decide (b < 8 + x + n))) }

/-- Whether the ring of a bound element still stands. -/
def ringStands (s : State) (r : RingRef) : Bool :=
  match ringEntry s r.cl r.id with
  | some e => !e.broken
  | none => false

/-- MLDB and MLDB.L at the unit; a faulting load leaves its target slots invalid (R230, R232), and one whose ring's bank has left its mode changes none (R229). Its faults
carry the addresses of log entry 82. -/
def unitLoad (s : State) (t : Tile) (ladder : Bool) (r : RingRef) (x : Nat) : UnitEnd :=
  match readElement s r with
  | .error (c, fa) => .fault (if x < 128 ∧ ringStands s r = true then t.invalidate x (targetSlots s r ladder) else t) c fa
  | .ok (e, bs) =>
    if 256 ≤ x then
      if e.code ≠ 0x10 then .fault t .formatFault (localVa r.addr)
      else .done ((t.freshAcc (x % 8)).wacc (x % 8) ((e.values id).flatten.map clampF32))
    else
      match if ladder then (if e.code = 0x11 then some 7 else none) else kindOfCode e.code with
      | none => .fault (t.invalidate x (if ladder then 4 else 1)) .formatFault (localVa r.addr)
      | some kind =>
        if x % kindSlots kind ≠ 0 ∨ scalesClose e.scales = false then
          .fault (t.invalidate x (kindSlots kind)) .formatFault (localVa r.addr)
        else .done ((t.freshSlots x (kindSlots kind)).load x kind e bs)

/-- MONC of a step (R218). -/
def moncWord (first rung cnc und sat : Nat) : Word := word (first * 2 ^ 50 + rung * 2 ^ 48 + cnc * 2 ^ 32 + und * 2 ^ 16 + sat)

/-- The accumulator after a step with the products of its outputs. -/
def commit (t : Tile) (d : Nat) (ps : List (List Num)) : Tile := t.wacc d (List.zipWith roundAcc (t.racc d) ps)

/-- One rung of MMA.L on the operands it has read: the step commits, or is squashed and goes on one rung wider (R225). -/
def ladderRung (t : Tile) (d : Nat) (a b : Element) (sl : Slot) (first r : Rung) : UnitEnd :=
  let ps := allProducts (a.values r.convert) (b.values r.convert)
  let cnc := cancelCount (fld t.cncd 5 0) ps
  let narrow := r ≠ .w16
  let sat := if narrow then a.sats r + (if r = .n4 then sl.sat4 else sl.sat8) else 0
  let und := if narrow then a.unds r + (if r = .n4 then sl.und4 else sl.und8) else 0
  if narrow ∧ (fld t.monb 15 0 < sat ∨ fld t.monb 31 16 < und ∨ fld t.monb 47 32 < cnc) then
    .again { t with mrepl := t.mrepl + 1, mrepl0 := if t.rungs.isNone then t.mrepl else t.mrepl0, rungs := some (first, r.up) }
  else .done { commit t d ps with monc := moncWord first.code r.code cnc und sat, rungs := none }

/-- A step that a fault abandons: MREPL as it stood before the step, or as it has been written since (R225). -/
def Tile.abandon (t : Tile) : Tile := if t.rungs.isNone then t else { t with mrepl := t.mrepl0, rungs := none }

/-- The A codes and the block kinds that a variant accepts, and the rung of a laddered block that it uses (R235). -/
def mmaAccepts (rung : Option Rung) (code : Nat) (sl : Slot) : Bool :=
  match rung with
  | some .n4 => code == 0x30 && (sl.kind == 1 || (sl.kind == 7 && !sl.nan))
  | some .n8 => (code == 0x20 || code == 0x21 || code == 0x22) && (sl.kind == 2 || sl.kind == 3 || sl.kind == 4 || (sl.kind == 7 && !sl.nan))
  | some .w16 => (code == 0x11 || code == 0x12) && (sl.kind == 5 || sl.kind == 6 || sl.kind == 7)
  | none => code == 0x11 && sl.kind == 7

/-- MMA at the unit: a fixed-rung step, or one rung of MMA.L, which reads the A element afresh (R225, R235, R243). -/
def unitStep (s : State) (t : Tile) (rung : Option Rung) (d : Nat) (r : RingRef) : UnitEnd :=
  match readElement s r with
  | .error (c, fa) => .fault t.abandon c fa
  | .ok (a, _) =>
    let x := (t.sel.toList.getD d 0).toNat
    let sl := t.slot x
    if mmaAccepts rung a.code sl = false then .fault t.abandon .formatFault (localVa r.addr)
    else if t.badAcc d || t.badSlots x (kindSlots sl.kind) then .fault t.abandon .poison 0
    else
      let b := t.block x
      match rung with
      | some g =>
        let f := if sl.kind = 7 then g.convert else id
        let ps := allProducts (a.values id) (b.values f)
        .done { commit t d ps with monc := moncWord g.code g.code (cancelCount (fld t.cncd 5 0) ps) 0 0 }
      | none =>
        let start := if sl.nan || a.hasNan then .w16 else rungOf (fld t.monb 49 48)
        let (first, g) := t.rungs.getD (start, start)
        ladderRung t d a b sl first g

/-- MMA at the unit, with the wider rungs of an MMA.L that follow in the same step; `n` bounds them (R225). -/
def unitSteps (s : State) (rung : Option Rung) (d : Nat) (r : RingRef) : Nat → Tile → UnitEnd
  | 0, t => unitStep s t rung d r
  | n + 1, t =>
    match unitStep s t rung d r with
    | .again t => unitSteps s rung d r n t
    | e => e

/-- MACC at the unit (R234). -/
def unitAdd (t : Tile) (d a : Nat) : UnitEnd :=
  if t.badAcc d || t.badAcc a then .fault t .poison 0
  else .done (t.wacc d (List.zipWith (fun x y => roundAcc x [f32 y]) (t.racc d) (t.racc a)))

/-- The drain ring takes a copy of an accumulator (R236). -/
def drainPut (t : Tile) (a : Nat) : Tile :=
  { t with drain := mput t.drain (4096 * (t.dtail.toNat % 8)) 4096 ((t.racc a).map (BitVec.ofNat 32)) 0, dtail := t.dtail + 1 }

/-- A late fault of the matrix unit or its epilogue engine (R213, R230). -/
def unitFault (s : State) (tile core : Nat) (c : Cause) (seq : BitVec 16) (pc fa : Word) (kid : BitVec 32) : State :=
  postShared s (tile / 8) (.matrix tile) (lateRecord s core c.code seq pc fa 0 0 kid)

/-- The unit takes the command at the head of its queue (R227). MDRN waits for a free drain slot, EOUT for an unclaimed element, which it claims for the epilogue
engine, and each holds what stands behind it (log entry 80). An MMA.L may stop between two rungs, unless the step performs all at once (R225; log entry 6). -/
def execMatrixCommandExecute (tile : Nat) (s : State) : Host.Outcome State Fault Refusal :=
  let t := s.tile tile
  match t.queue with
  | [] => .next s
  | c :: rest =>
    if s.holdsRecord (.matrix tile) then .next s
    else
      let t := { t with queue := rest }
      let finish := fun (r : UnitEnd) =>
        match r with
        | .done t => settle (s.setTile tile t) c
        | .again t => s.setTile tile { t with queue := c :: rest }
        | .fault t cause fa => unitFault (settle (s.setTile tile t) c) tile c.core cause c.seq c.pc fa c.kid
      match c.op with
      | .mldb ladder r x => .next (finish (unitLoad s t ladder r x))
      | .mma rung d r => .next (finish (unitSteps s rung d r (if s.eager then 2 else 0) t))
      | .msel d x => .next (finish (.done { t with sel := if h : d < 8 then t.sel.set d (BitVec.ofNat 7 x) else t.sel }))
      | .mz d => .next (finish (.done ((t.freshAcc d).wacc d [])))
      | .macc d a => .next (finish (unitAdd t d a))
      | .mdrn a => .next (if 8 ≤ drainFill t then s else finish (if t.badAcc a then .fault t .poison 0 else .done (drainPut t a)))
      | .eout fmt r opts bias =>
        if t.dtail = t.dclaim then .next s
        else
          let job : EpiJob := { x := t.dclaim, fmt := fmt, ring := r, opts := opts, bias := bias, core := c.core, seq := c.seq,
                                pc := c.pc, tenant := c.tenant, kid := c.kid, out := none }
          .next (s.setTile tile { t with jobs := t.jobs ++ [job], dclaim := t.dclaim + 1 })
      | .monb _ | .cncd _ => .next s

/-- MONB_WRITE and CNCD_WRITE (R218): the write at the head of the unit's queue takes effect. -/
def execMonbWrite (tile : Nat) (s : State) : Host.Outcome State Fault Refusal :=
  let t := s.tile tile
  match t.queue with
  | { op := .monb v, .. } :: rest =>
    .next (if s.holdsRecord (.matrix tile) then s else s.setTile tile { t with queue := rest, monb := v })
  | _ => .next s
def execCncdWrite (tile : Nat) (s : State) : Host.Outcome State Fault Refusal :=
  let t := s.tile tile
  match t.queue with
  | { op := .cncd v, .. } :: rest =>
    .next (if s.holdsRecord (.matrix tile) then s else s.setTile tile { t with queue := rest, cncd := v })
  | _ => .next s

/-! ## The epilogue engine (R236) -/

/-- Code and width of an output format. -/
def OutFmt.code : OutFmt → Nat
  | .n8 => 0x20
  | .f32 => 0x10
  | .b16 => 0x11
def OutFmt.width : OutFmt → Nat
  | .n8 => 8
  | .f32 => 32
  | .b16 => 16

/-- One output element's code (R236). -/
def OutFmt.narrow (f : OutFmt) (x : Num) : Nat :=
  match f with
  | .n8 => fmtN8.narrow true x
  | .f32 => clampF32 x
  | .b16 => fmtB16.narrow false x

/-- Bias and RELU applied to a drain element (R236). -/
def epiValue (y : Nat) (bias : Option Num) (relu : Bool) : Num :=
  let v := match bias with
    | some b => f32 (rneF32 ((f32 y).add b))
    | none => f32 y
  if relu then match v with
    | .inf true | .zero true => .zero false
    | .fin m e => if m < 0 then .zero false else .fin m e
    | w => w
  else v

/-- The 64 bias values at a local-window address, or the late fault (R230, R236). -/
def readBias (s : State) (P : Nat) (va : Word) : Except (Cause × Word) (List Num) :=
  let a := sramLoc P (va.toNat - localWin)
  match (below 4).find? (fun k => locPoisoned s (a + 64 * k)) with
  | some k => .error (.poison, va + word (64 * k))
  | none =>
    match (below 4).find? (fun k => tagCode (s.mem.tag (a + 64 * k)) != 0x10) with
    | some k => .error (.formatFault, va + word (64 * k))
    | none => .ok ((below 64).map (fun n =>
        (f32 (s.mem.nat (a + 4 * n) 4)).scale (tagScale (s.mem.tag (a + 64 * (n / 16))))))

/-- First key of the drain slot of a job's element. -/
def EpiJob.key (j : EpiJob) : Nat := 4096 * (j.x.toNat % 8)

/-- The output element of a job, as bytes, or its late fault (R236). -/
def epiOutput (s : State) (tile : Nat) (j : EpiJob) : Except (Cause × Word) (List Byte) := do
  let bias ← if j.bias = 0 then pure none else (readBias s (tile / 8) j.bias).map some
  let sd := signedOf 8 (fld j.opts 7 0)
  let ys := mrange (s.tile tile).drain j.key 4096 0
  let xs := (ys.zip (below 4096)).map (fun y =>
    (epiValue y.1.toNat (bias.map (fun b => b.getD (y.2 % 64) (.zero false))) (bitAt j.opts 8)).scale (-sd))
  if j.fmt = .n8 ∧ xs.any (fun x => x == .nan) = true then throw (.fpInvalid, localVa j.ring.addr)
  pure (xs.flatMap (fun x => leBytes (j.fmt.width / 8) (j.fmt.narrow x)))

/-- The unit when the epilogue engine has read a job's element: drain HEAD has advanced (R236). -/
def Tile.drained (t : Tile) (j : EpiJob) (rest : List EpiJob) : Tile :=
  { t with jobs := rest, dhead := t.dhead + 1, drain := mput t.drain j.key 4096 [] 0 }

/-- A formed output goes to the tail slot of its job's ring: to no descriptor of a bound ring and into no broken ring (R191, R194); the late fault otherwise. -/
def epiWrite (s : State) (j : EpiJob) (e : RingEntry) (bs : List Byte) : Except (Cause × Word) State :=
  let P := j.ring.cl
  let tail := ringTail s P e.addr
  let off := (geomOf e.dw0).slot tail.toNat
  let a := sramLoc P off
  match ringGuard s a bs.length with
  | some k => .error (.ringFault, localVa (off + k))
  | none =>
    if brokenBytes s a bs.length then .error (.ringFault, localVa off)
    else
      let tag := mkTag j.fmt.code (signedOf 8 (fld j.opts 7 0))
      let tags := (below (bs.length / 64)).flatMap (fun k => tagWrites (a + 64 * k) tag)
      .ok (setTail (performWrites s (writesAt a bs ++ tags)) P e.addr (tail + 1))

/-- EPILOGUE_OUTPUT (R236, R238): the oldest job's element is read and drain HEAD advances; its output then waits for a free slot of its ring and goes there. A
faulting output consumes the element (R230). -/
def execEpilogueOutput (tile : Nat) (s : State) : Host.Outcome State Fault Refusal :=
  let t := s.tile tile
  match t.jobs with
  | [] => .next s
  | j :: rest =>
    if s.holdsRecord (.matrix tile) then .next s
    else
      let s' := s.setTile tile (if j.out.isSome then { t with jobs := rest } else t.drained j rest)
      let done := fun (s : State) => ringUnref s j.ring.cl j.ring.id
      let bad := fun (c : Cause) (fa : Word) => unitFault (done s') tile j.core c j.seq j.pc fa j.kid
      match ringEntry s j.ring.cl j.ring.id with
      | none => .next (bad .ringFault (localVa j.ring.addr))
      | some e =>
        if e.broken then .next (bad .ringFault (localVa e.addr))
        else if 2 ^ (geomOf e.dw0).lsz < elementBytes j.fmt.width then
          .next (bad .ringFault (localVa ((geomOf e.dw0).slot (ringTail s j.ring.cl e.addr).toNat)))
        else
          match j.out.elim (epiOutput s tile j) Except.ok with
          | .error (c, fa) => .next (bad c fa)
          | .ok bs =>
            if ringFree s j.ring.cl e = 0 then .next (s'.modTile tile (fun t => { t with jobs := { j with out := some bs } :: rest }))
            else match epiWrite (done s') j e bs with
              | .error (c, fa) => .next (bad c fa)
              | .ok s => .next s

/-! ## Issue (R226 to R230) -/

/-- A member of a tile or cluster gang (R215). -/
def inTileGang (s : State) (u : Nat) : Bool := ((s.taskOf u).map (fun t => t.kind.gang)).getD false

/-- Whether the unit of core u's tile can take one more command (R227, R347). -/
def unitOpen (s : State) (u : Nat) : Bool :=
  decide ((s.tile (tileOf u)).queue.length < 16) && !s.holdsRecord (.matrix (tileOf u))

/-- A command enters the queue of core u's tile under the core's next engine-log number; one with a ring element counts a reference to its ring until it is done
(R191, R212, R226, R229). -/
def sendMatrix (s : State) (u : Nat) (code : Nat) (op : MOp) : State :=
  let c := s.core u
  let cmd : MCmd := { op := op, core := u, seq := seqAfter c.seqNo, pc := c.pc, tenant := c.ctx.tenant, kid := c.ctx.kern.kid,
                      owned := op.ring.isSome }
  let s := match op.ring with | some r => ringRef s r.cl r.id | none => s
  (s.modCore u (fun c => c.logged 2 0 false code)).modTile (tileOf u) (fun t => { t with queue := t.queue ++ [cmd] })

/-- The code of a command in the engine log (R212, R231). -/
def MOp.logCode : MOp → Nat
  | .mldb _ _ _ => 12
  | .msel _ _ => 14
  | .mz _ => 16
  | .macc _ _ => 17
  | .mma (some .n4) _ _ => 18
  | .mma (some .n8) _ _ => 19
  | .mma (some .w16) _ _ => 20
  | .mma none _ _ => 21
  | .mdrn _ => 22
  | .eout .n8 _ _ _ => 23
  | .eout .f32 _ _ _ => 24
  | .eout .b16 _ _ _ => 25
  | .monb _ | .cncd _ => 0

/-- A command without a ring element: it retires when the queue takes it. -/
def issuePlain (op : MOp) : M Flow := do
  let s ← get
  needM (inTileGang s s.cur) (.plain .illegalOp)
  if !unitOpen s s.cur then pure .stay
  else
    set (sendMatrix s s.cur op.logCode op)
    pure .next

/-- The command with the element that its ring's head holds, or none while it holds none (R228). -/
def bindHead (s : State) (P : Nat) (e : RingEntry) : Option RingRef :=
  if ringFill s P e.addr = 0 then none else some { cl := P, id := e.id, addr := e.addr, x := (ringHead s P e.addr).toNat }

/-- The command of an operation with its ring element filled in. -/
def MOp.withRing (op : MOp) (r : RingRef) : MOp :=
  match op with
  | .mldb l _ x => .mldb l r x
  | .mma g d _ => .mma g d r
  | o => o

/-- MLDB and the MMAs: the head element of the ring is bound at retirement and held; without one the instruction parks (R228). -/
def issueRing (h : HReg) (check : Bool) (op : RingRef → MOp) : M Flow := do
  let s ← get
  needM (inTileGang s s.cur) (.plain .illegalOp)
  match operandRing s h with
  | .error t => trapM t
  | .ok e =>
    needM check formatTrap
    let P := clusterOf s.cur
    match bindHead s P e with
    | none => do
      modify (fun s => parkCore s s.cur (.matrixRing (op { cl := P, id := e.id, addr := e.addr, x := 0 })))
      pure .stay
    | some r =>
      if !unitOpen s s.cur then pure .stay
      else
        set (sendMatrix (takeHold s r) s.cur (op r).logCode (op r))
        pure .next

/-- MATRIX_RING_BIND (R228): a parked instruction binds the head element that has arrived and leaves; a broken ring faults. -/
def execMatrixRingBind (u : Nat) (s : State) : Host.Outcome State Fault Refusal :=
  match (s.core u).wait with
  | .matrixRing op =>
    match op.ring.bind (fun r => ringEntry s r.cl r.id) with
    | none => .next (takeTrap s u ringTrap)
    | some e =>
      if e.broken then .next (takeTrap s u ringTrap)
      else match bindHead s (clusterOf u) e with
        | none => .next s
        | some r =>
          if unitOpen s u then .next (retireCore (sendMatrix (takeHold s r) u (op.withRing r).logCode (op.withRing r)) u)
          else .next s
  | _ => .next s

/-- What MLDB's slot register may hold (R232). -/
def mldbOk (x : Word) (ladder : Bool) : Bool :=
  fld x 63 9 == 0 && (if bitAt x 8 then !ladder && fld x 7 3 == 0 else !bitAt x 7)

def execMldb (b : HReg) (a : GReg) (s : State) :=
  runM (issueRing b (mldbOk (s.rg a) false) (fun r => .mldb false r (s.rg a).toNat)) s
def execMldbL (b : HReg) (a : GReg) (s : State) :=
  runM (issueRing b (mldbOk (s.rg a) true) (fun r => .mldb true r (s.rg a).toNat)) s
def execMmaN4 (d : TReg) (a : HReg) (s : State) := runM (issueRing a true (fun r => .mma (some .n4) d.toNat r)) s
def execMmaN8 (d : TReg) (a : HReg) (s : State) := runM (issueRing a true (fun r => .mma (some .n8) d.toNat r)) s
def execMmaW16 (d : TReg) (a : HReg) (s : State) := runM (issueRing a true (fun r => .mma (some .w16) d.toNat r)) s
def execMmaL (d : TReg) (a : HReg) (s : State) := runM (issueRing a true (fun r => .mma none d.toNat r)) s
def execMsel (d : TReg) (x : BitVec 7) (s : State) := runM (issuePlain (.msel d.toNat x.toNat)) s
def execMz (d : TReg) (s : State) := runM (issuePlain (.mz d.toNat)) s
def execMacc (d a : TReg) (s : State) := runM (issuePlain (.macc d.toNat a.toNat)) s
def execMdrn (a : TReg) (s : State) := runM (issuePlain (.mdrn a.toNat)) s

/-- The EOUTs (R230, R236): ring, options and bias address checked, then the command leaves; its retirement is a push to the epilogue
engine (R128, R238). -/
def issueOutput (fmt : OutFmt) (h : HReg) (opts bias : Word) : M Flow := do
  let s ← get
  needM (inTileGang s s.cur) (.plain .illegalOp)
  match operandRing s h with
  | .error t => trapM t
  | .ok e =>
    needM (fld opts 63 9 == 0) formatTrap
    if bias ≠ 0 then
      aligned bias 64
      needM (inLocalWin bias && inLocalWin (bias + 255)) (.at .plbDeny bias)
      let _ ← resolve s.me .load bias 256
    let s ← get
    if !unitOpen s s.cur then pure .stay
    else
      let P := clusterOf s.cur
      set (sendMatrix (releaseTo s s.cur 1) s.cur (MOp.eout fmt ⟨P, e.id, e.addr, 0⟩ opts bias).logCode
        (.eout fmt ⟨P, e.id, e.addr, 0⟩ opts bias))
      pure .next

def execEoutN8 (d : HReg) (a b : GReg) (s : State) := runM (issueOutput .n8 d (s.rg a) (s.rg b)) s
def execEoutF32 (d : HReg) (a b : GReg) (s : State) := runM (issueOutput .f32 d (s.rg a) (s.rg b)) s
def execEoutB16 (d : HReg) (a b : GReg) (s : State) := runM (issueOutput .b16 d (s.rg a) (s.rg b)) s

/-! ## COPYM follow-ons (R209) -/

/-- The operation of a follow-on with its bound element; none where its slot register's value is refused (R232). -/
def followOp (f : FollowOn) (r : RingRef) : Option MOp :=
  match followInstr f.word with
  | some (.mldb _ _) => if mldbOk f.a false then some (.mldb false r f.a.toNat) else none
  | some (.mldbL _ _) => if mldbOk f.a true then some (.mldb true r f.a.toNat) else none
  | some (.mmaN4 d _) => some (.mma (some .n4) d.toNat r)
  | some (.mmaN8 d _) => some (.mma (some .n8) d.toNat r)
  | some (.mmaW16 d _) => some (.mma (some .w16) d.toNat r)
  | some (.mmaL d _) => some (.mma none d.toNat r)
  | _ => none

/-- COPYM_FOLLOW_ON_ENTER (R209). -/
def execCopymFollowOnEnter (tile k : Nat) (s : State) : Host.Outcome State Fault Refusal :=
  let t := s.tile tile
  match t.follow[k]? with
  | none => .next s
  | some f =>
    if s.holdsRecord (.matrix tile) then .next s
    else
    let out := s.setTile tile { t with follow := dropAt t.follow k }
    let abandon := fun (c : Cause) => unitFault (ringUnref out f.ring.cl f.ring.id) tile f.core c f.seq f.pc 0 f.kid
    match ringEntry s f.ring.cl f.ring.id with
    | none => .next (abandon .ringFault)
    | some e =>
      if e.broken then .next (abandon .ringFault)
      else match bindHead s f.ring.cl e with
        | none => .next s
        | some r =>
          if 16 ≤ t.queue.length then .next s
          else match followOp f r with
            | none => .next (abandon .formatFault)
            | some op =>
              let cmd : MCmd := { op := op, core := f.core, seq := f.seq, pc := f.pc, tenant := f.tenant, kid := f.kid, owned := true }
              .next ((takeHold out r).modTile tile (fun t => { t with queue := t.queue ++ [cmd] }))

end Sys2Proof.Machine
end

