-- ==== Sys2Proof/Machine/Scalar.lean ====
section
/-! DEFINITION. The arithmetic and logic of the scalar class (R62 to R66). -/

namespace Sys2Proof.Machine

/-! ## What the instructions compute (R63, R65) -/

/-- Bits [127:64] of the signed product (R63). -/
def mulHigh (x y : Word) : Word := BitVec.ofInt 64 (x.toInt * y.toInt / 2 ^ 64)
/-- Signed quotient truncated toward zero; a zero divisor gives 0 (R63). -/
def divSigned (x y : Word) : Word := if y = 0 then 0 else BitVec.ofInt 64 (x.toInt.tdiv y.toInt)
/-- Unsigned quotient; a zero divisor gives 0 (R63). -/
def divUnsigned (x y : Word) : Word := if y = 0 then 0 else word (x.toNat / y.toNat)
/-- x − y × DIV(x, y); a zero divisor gives 0 (R63). -/
def remSigned (x y : Word) : Word := if y = 0 then 0 else x - y * divSigned x y
/-- The shift amount b[5:0] (R63). -/
def shiftAmt (y : Word) : Nat := y.toNat % 64
/-- Signed minimum and maximum (R63). -/
def minSigned (x y : Word) : Word := if x.toInt ≤ y.toInt then x else y
def maxSigned (x y : Word) : Word := if x.toInt ≤ y.toInt then y else x
/-- 1 or 0 for a condition. -/
def flagWord (b : Bool) : Word := if b then 1 else 0
/-- The number of zero bits above the highest set bit of the low n bits (R65). -/
def leadingZeros (x : Word) : Nat → Nat
  | 0 => 0
  | n + 1 => if bitAt x n then 0 else 1 + leadingZeros x n
/-- The number of set bits among the low n bits (R65). -/
def countOnes (x : Word) : Nat → Nat
  | 0 => 0
  | n + 1 => (if bitAt x n then 1 else 0) + countOnes x n

/-- gD := f(gA, b), and the instruction retires (R58, R63). -/
def alu (f : Word → Word → Word) (d a : GReg) (b : Opnd) (s : State) : Host.Outcome State Fault Refusal :=
  .next (retire (s.wg d (f (s.rg a) (s.opnd b))))

def execAdd (d a b : GReg) (s : State) := alu (fun x y => x + y) d a (.reg b) s
def execAddImm (d a : GReg) (v : Word) (s : State) := alu (fun x y => x + y) d a (.imm v) s
def execSub (d a b : GReg) (s : State) := alu (fun x y => x - y) d a (.reg b) s
def execSubImm (d a : GReg) (v : Word) (s : State) := alu (fun x y => x - y) d a (.imm v) s
def execMul (d a b : GReg) (s : State) := alu (fun x y => x * y) d a (.reg b) s
def execMulImm (d a : GReg) (v : Word) (s : State) := alu (fun x y => x * y) d a (.imm v) s
def execMulh (d a b : GReg) (s : State) := alu mulHigh d a (.reg b) s
def execMulhImm (d a : GReg) (v : Word) (s : State) := alu mulHigh d a (.imm v) s
def execDiv (d a b : GReg) (s : State) := alu divSigned d a (.reg b) s
def execDivImm (d a : GReg) (v : Word) (s : State) := alu divSigned d a (.imm v) s
def execDivu (d a b : GReg) (s : State) := alu divUnsigned d a (.reg b) s
def execDivuImm (d a : GReg) (v : Word) (s : State) := alu divUnsigned d a (.imm v) s
def execRem (d a b : GReg) (s : State) := alu remSigned d a (.reg b) s
def execRemImm (d a : GReg) (v : Word) (s : State) := alu remSigned d a (.imm v) s
/-- SEL reads its destination as the condition (R63). -/
def execSel (d a b : GReg) (s : State) := alu (fun x y => if s.rg d ≠ 0 then x else y) d a (.reg b) s
def execSelImm (d a : GReg) (v : Word) (s : State) := alu (fun x y => if s.rg d ≠ 0 then x else y) d a (.imm v) s
def execAnd (d a b : GReg) (s : State) := alu (fun x y => x &&& y) d a (.reg b) s
def execAndImm (d a : GReg) (v : Word) (s : State) := alu (fun x y => x &&& y) d a (.imm v) s
def execOr (d a b : GReg) (s : State) := alu (fun x y => x ||| y) d a (.reg b) s
def execOrImm (d a : GReg) (v : Word) (s : State) := alu (fun x y => x ||| y) d a (.imm v) s
def execXor (d a b : GReg) (s : State) := alu (fun x y => x ^^^ y) d a (.reg b) s
def execXorImm (d a : GReg) (v : Word) (s : State) := alu (fun x y => x ^^^ y) d a (.imm v) s
def execSra (d a b : GReg) (s : State) := alu (fun x y => x.sshiftRight (shiftAmt y)) d a (.reg b) s
def execSraImm (d a : GReg) (v : Word) (s : State) := alu (fun x y => x.sshiftRight (shiftAmt y)) d a (.imm v) s
def execShl (d a b : GReg) (s : State) := alu (fun x y => x <<< shiftAmt y) d a (.reg b) s
def execShlImm (d a : GReg) (v : Word) (s : State) := alu (fun x y => x <<< shiftAmt y) d a (.imm v) s
def execShr (d a b : GReg) (s : State) := alu (fun x y => x >>> shiftAmt y) d a (.reg b) s
def execShrImm (d a : GReg) (v : Word) (s : State) := alu (fun x y => x >>> shiftAmt y) d a (.imm v) s
def execMin (d a b : GReg) (s : State) := alu minSigned d a (.reg b) s
def execMinImm (d a : GReg) (v : Word) (s : State) := alu minSigned d a (.imm v) s
def execMax (d a b : GReg) (s : State) := alu maxSigned d a (.reg b) s
def execMaxImm (d a : GReg) (v : Word) (s : State) := alu maxSigned d a (.imm v) s
def execSlt (d a b : GReg) (s : State) := alu (fun x y => flagWord (x.slt y)) d a (.reg b) s
def execSltImm (d a : GReg) (v : Word) (s : State) := alu (fun x y => flagWord (x.slt y)) d a (.imm v) s
def execSltu (d a b : GReg) (s : State) := alu (fun x y => flagWord (x.ult y)) d a (.reg b) s
def execSltuImm (d a : GReg) (v : Word) (s : State) := alu (fun x y => flagWord (x.ult y)) d a (.imm v) s

/-- gD := f(gA), and the instruction retires. -/
def unary (f : Word → Word) (d a : GReg) (s : State) : Host.Outcome State Fault Refusal :=
  .next (retire (s.wg d (f (s.rg a))))

def execClz (d a : GReg) (s : State) := unary (fun x => word (leadingZeros x 64)) d a s
def execPopc (d a : GReg) (s : State) := unary (fun x => word (countOnes x 64)) d a s
def execMov (d a : GReg) (s : State) := unary (fun x => x) d a s
/-- LI writes the sign-extended immediate (R66). -/
def execLi (d : GReg) (v : Word) (s : State) : Host.Outcome State Fault Refusal := .next (retire (s.wg d v))
/-- ADDPC writes the instruction address plus twice the offset (R66). -/
def execAddpc (d : GReg) (off : Word) (s : State) : Host.Outcome State Fault Refusal := .next (retire (s.wg d (s.target off)))

end Sys2Proof.Machine
end

