-- ==== Sys2Proof/Machine/Millpond.lean ====
section
/-! DEFINITION. The Millpond (R246 to R264, R270, R273 to R282): stores, updates and their homes, folding, overflow segments, the
Sluice, outboxes, fan-out, and the event instructions. -/

namespace Sys2Proof.Machine

/-! ## Operators (R248, R249) -/

/-- The operators on F32 values, and those that take all 64 bits of gB. -/
def isF32Op (opr : Nat) : Bool := opr == 0 || opr == 4 || opr == 6
def wideOp (opr : Nat) : Bool := opr == 2 || opr == 8

/-- x as an operator takes it from gB: 64 bits, or 32 bits zero-extended (R248). -/
def takeValue (opr : Nat) (x : Word) : Word := if wideOp opr then x else word (fld x 31 0)

/-- A value as a new entry holds it: an F32 NaN becomes the canonical one (R248). -/
def storedValue (opr : Nat) (x : Word) : Word := if isF32Op opr && f32 x.toNat == .nan then 0x7FC00000 else x

/-- The signed 32-bit number that a held I32 value stands for. -/
def held32 (v : Word) : Int := signedOf 32 v.toNat

/-- The fold of an arriving value x into the pending value v (R248). -/
def foldValue (opr : Nat) (v x : Word) : Word :=
  match opr with
  | 0 => word (rneF32 ((f32 v.toNat).add (f32 x.toNat)))
  | 1 => word (fld (v + x) 31 0)
  | 2 => v + x
  | 3 => if held32 v ≤ held32 x then v else x
  | 4 => word (rneF32 (minNum (f32 v.toNat) (f32 x.toNat)))
  | 5 => if held32 v ≤ held32 x then x else v
  | 6 => word (rneF32 (maxNum (f32 v.toNat) (f32 x.toNat)))
  | 7 => v ||| x
  | _ => x

/-- Ord of an F32 bit pattern (R248). -/
def ordF32 (f : Nat) : Nat := if f < 2 ^ 31 then f + 2 ^ 31 else 2 ^ 32 - 1 - f

/-- The priority key P of a pending value (R248). -/
def priorityOf (opr : Nat) (v : Word) : Nat :=
  match opr with
  | 0 => v.toNat % 2 ^ 31
  | 1 => (held32 v).natAbs
  | 2 => v.toInt.natAbs
  | 3 => (2 ^ 31 - 1 - held32 v).toNat
  | 4 => 2 ^ 32 - 1 - ordF32 v.toNat
  | 5 => (held32 v + 2 ^ 31).toNat
  | 6 => ordF32 v.toNat
  | 7 => countOnes v 64
  | _ => 0

/-- A pending value as g3 and EVPEEK give it (R248). -/
def extendValue (opr : Nat) (v : Word) : Word :=
  match opr with
  | 1 | 3 | 5 => sext64 32 v.toNat
  | _ => v

/-- EVPEEK's value for a key without a pending entry (R248). -/
def absentValue (opr : Nat) : Word :=
  match opr with
  | 3 => 0x7FFFFFFF
  | 4 => 0x7F800000
  | 5 => 0xFFFFFFFF80000000
  | 6 => 0xFF800000
  | _ => 0

/-- Whether a pending entry is eligible (R249). -/
def eligible (d : StoreDecl) (e : Entry) : Bool := d.opr == 8 || decide (d.thresh.toNat ≤ priorityOf d.opr e.val)

/-- Whether the Sluice takes entry a before b: highest P, then lower key; for LAST the older insertion (R253). -/
def sealsFirst (opr : Nat) (a b : Entry) : Bool :=
  if opr = 8 then decide (a.ins < b.ins)
  else
    let p := priorityOf opr a.val
    let q := priorityOf opr b.val
    decide (q < p) || (p == q && decide (a.key < b.key))

/-- Order tags compared field by field (R252). -/
def OrderTag.below (a b : OrderTag) : Bool :=
  decide (a.idx.toNat < b.idx.toNat) || (a.idx == b.idx &&
    (decide (a.seq.toNat < b.seq.toNat) || (a.seq == b.seq && decide (a.syn < b.syn))))

/-! ## Slices -/

/-- A store on a cluster's slice, and its change. -/
def State.slice (s : State) (P slot : Nat) : SliceStore := mget (s.cluster P).slices slot SliceStore.empty
def State.modSlice (s : State) (P slot : Nat) (f : SliceStore → SliceStore) : State :=
  s.modCluster P (fun c => { c with slices := mmod c.slices slot SliceStore.empty f })

/-- The home of a key of a store, as a physical cluster (R250). -/
def homeOf (s : State) (st key : Nat) : Nat := physOf s (homeOfHash s (kh (word (st * 2 ^ 40 + key))))

/-! ## Overflow segments (R255, R258) -/

/-- Why a record access did not complete: the record is POISON, or the access waits. -/
inductive RecStop where
  | poison | held
  deriving DecidableEq, Repr

/-- Records that a segment takes, and that it holds. -/
def StoreDecl.recs (d : StoreDecl) : Nat := 2 ^ d.lseg / 64
def SliceStore.recs (x : SliceStore) : Nat := x.tail - x.head

/-- The address of the record with counter value n. -/
def recordVa (s : State) (P : Nat) (d : StoreDecl) (n : Nat) : Word :=
  d.ovb + word (s.logicalNo P * 2 ^ d.lseg + 64 * (n % d.recs))

/-- What an arriving or pending update amounts to: key, value, virtual time, order tag. -/
structure Item where
  key : Nat
  val : Word
  vt  : Word
  tag : OrderTag
  deriving DecidableEq, Repr

/-- The 64 bytes of a record (R255). -/
def storeRecord (parked : Bool) (x : Item) : List Byte :=
  leBytes 8 (x.key + if parked then 2 ^ 40 else 0) ++ leBytes 8 x.val.toNat ++ leBytes 8 x.vt.toNat ++ leBytes 8 x.tag.idx.toNat
    ++ leBytes 8 (x.tag.seq.toNat + 2 ^ 32 * x.tag.syn) ++ List.replicate 24 0

/-- A record read back. -/
def itemOf (bs : List Byte) : Item :=
  let d := fun (k : Nat) => imageDw bs (8 * k)
  { key := fld (d 0) 39 0, val := d 1, vt := d 2,
    tag := ⟨d 3, BitVec.ofNat 32 (fld (d 4) 31 0), fld (d 4) 47 32⟩ }

/-- The slice's own read and write of a record; a record on a typed page takes tag 0x0000 (R255). -/
def readRecord (s : State) (P : Nat) (d : StoreDecl) (n : Nat) : Except RecStop (List Byte × State) :=
  match loadBytes (engineWho none P) (recordVa s P d n) 64 s with
  | .ok r => .ok r
  | .error (.trap t) => .error (if t.cause = .poison then .poison else .held)
  | .error (.wait _) => .error .held
def writeRecord (s : State) (P : Nat) (d : StoreDecl) (n : Nat) (bs : List Byte) : Option State :=
  match storeBytes (engineWho none P) .sector (recordVa s P d n) bs (some 0) false s with
  | .ok (_, s') => some s'
  | .error _ => none

/-- A record at the tail, with the window of a parked one; none where the segment is full (R258). -/
def pushRecord (s : State) (P slot : Nat) (d : StoreDecl) (win : Option Nat) (x : Item) : Option State :=
  let y := s.slice P slot
  if d.recs ≤ y.recs then none
  else (writeRecord s P d y.tail (storeRecord win.isSome x)).map (fun s =>
    s.modSlice P slot (fun y => { y with tail := y.tail + 1, wins := y.wins ++ [win] }))

/-- Moves the first n records of a ring up by one place. -/
def shiftRecords (P slot : Nat) (d : StoreDecl) : Nat → State → Except RecStop State
  | 0, s => .ok s
  | n + 1, s =>
    match readRecord s P d ((s.slice P slot).head + n) with
    | .error e => .error e
    | .ok (bs, s) =>
      match writeRecord s P d ((s.slice P slot).head + n + 1) bs with
      | some s => shiftRecords P slot d n s
      | none => .error .held

/-- Takes the record number n from the head out of the ring. -/
def takeRecord (s : State) (P slot : Nat) (d : StoreDecl) (n : Nat) : Except RecStop (Item × State) :=
  match readRecord s P d ((s.slice P slot).head + n) with
  | .error e => .error e
  | .ok (bs, s) =>
    match shiftRecords P slot d n s with
    | .error e => .error e
    | .ok s => .ok (itemOf bs, s.modSlice P slot (fun y => { y with head := y.head + 1, wins := dropAt y.wins n }))

/-! ## Folding (R251, R252, R256) -/

/-- A pending entry with one more update folded in; a LAST entry keeps the update of the higher order tag. -/
def foldEntry (opr : Nat) (e : Entry) (x : Item) : Entry :=
  let vmax := if e.vmax.toNat < x.vt.toNat then x.vt else e.vmax
  if opr = 8 then
    if e.tag.below x.tag then { e with val := x.val, vmax := vmax, tag := x.tag } else { e with vmax := vmax }
  else { e with val := foldValue opr e.val x.val, vmax := vmax }

/-- Folds one update into a store on a slice, or inserts a new entry, evicting one of CAP + 1 candidates as a record; none where the
record finds the segment full (R251, R256, R258). -/
def foldIn (s : State) (P slot : Nat) (d : StoreDecl) (x : Item) : Option State :=
  let y := s.slice P slot
  if y.entries.any (fun e => e.key == x.key) then
    some (s.modSlice P slot (fun y =>
      { y with entries := y.entries.map (fun e => if e.key = x.key then foldEntry d.opr e x else e) }))
  else
    let new : Entry := { key := x.key, val := storedValue d.opr x.val, vmax := x.vt, tag := x.tag, ins := y.nextIns }
    let all := y.entries ++ [new]
    if y.entries.length < d.cap then
      some (s.modSlice P slot (fun y => { y with entries := all, nextIns := y.nextIns + 1 }))
    else
      match bestBy (fun a b => sealsFirst d.opr b a) all with
      | none => some s
      | some v =>
        (pushRecord s P slot d none ⟨v.key, v.val, v.vmax, v.tag⟩).map (fun s =>
          s.modSlice P slot (fun y =>
            { y with entries := all.filter (fun e => e.key ≠ v.key), nextIns := y.nextIns + 1, ovf := true }))

/-- Refills a store below half capacity from its segment, in ring order; `n` bounds the records (R257). -/
def refill (P slot : Nat) (d : StoreDecl) : Nat → State → Except RecStop State
  | 0, s => .ok s
  | n + 1, s =>
    let y := s.slice P slot
    if y.entries.length < d.cap / 2 then
      match y.wins.findIdx? (fun w => w.isNone) with
      | none => .ok s
      | some k =>
        match takeRecord s P slot d k with
        | .error e => .error e
        | .ok (x, s) => refill P slot d n ((foldIn s P slot d x).getD s)
    else .ok s

/-! ## Windows and parking (R267, R270) -/

/-- The bound that closes window k, and whether a published bound has closed it (R267). -/
def windowEnd (w k : Nat) : Nat := min ((k + 1) * w) (2 ^ 64 - 1)
def windowClosed (b w k : Nat) : Bool := decide (windowEnd w k ≤ b)

/-- The earliest window that a published bound leaves open; past the last phase once the bound has closed all (R267). -/
def earliestOpen (b w : Nat) (phase : Option Nat) : Nat :=
  if b = 2 ^ 64 - 1 then max (b / w) ((phase.map (fun k => k + 1)).getD 0) else b / w

/-- The window in which an arrival of virtual time vt is parked, and whether it is late (R267). -/
def parkWindow (b w : Nat) (phase : Option Nat) (vt : Nat) : Nat × Bool :=
  if windowClosed b w (vt / w) then (earliestOpen b w phase, true) else (vt / w, false)

/-- Updates that a slice parks in its own storage. -/
def parkedCount (s : State) (P : Nat) : Nat := (s.cluster P).slices.foldl (fun n p => n + p.2.parked.length) 0

/-- An update takes a place in window k: one of the slice's 4,096, or a record; none where the segment is full (R258, R270). -/
def parkIn (s : State) (P slot : Nat) (d : StoreDecl) (k : Nat) (u : Update) : Option State :=
  if parkedCount s P < 4096 then some (s.modSlice P slot (fun y => { y with parked := y.parked ++ [(k, { u with moved := none })] }))
  else pushRecord s P slot d (some k) ⟨u.key, u.val, u.vt, u.tag⟩

/-- Parks an update at its home; one whose window has closed is late (R267, R270). -/
def parkUpdate (s : State) (P slot : Nat) (d : StoreDecl) (u : Update) : Option State :=
  let (k, late) := parkWindow s.beaconB.toNat d.win (s.slice P slot).phase u.vt.toNat
  (parkIn s P slot d k u).map (fun s => if late then s.modSlice P slot (fun y => { y with late := true }) else s)

/-- An update at its home: folded at D0, parked at D1 and above; none where it waits for a record's place. What a change of the map has moved folds, or keeps its
window (R283). An update whose store is gone is gone with it. -/
def arrive (s : State) (u : Update) : Option State :=
  match findStore s u.kern u.st with
  | none => some s
  | some (slot, d) =>
    let P := homeOf s u.st u.key
    match u.moved with
    | some (some k) => parkIn s P slot d k u
    | some none => foldIn s P slot d ⟨u.key, u.val, u.vt, u.tag⟩
    | none => if d.det = 0 then foldIn s P slot d ⟨u.key, u.val, u.vt, u.tag⟩ else parkUpdate s P slot d u

/-- Whether one sender sequence comes before another, of counts that wrap (R252). -/
def seqBefore (a b : BitVec 32) : Bool := a != b && decide ((b - a).toNat < 2 ^ 31)

/-- Whether two updates go from one sender to one key (R252). -/
def sameKey (x u : Update) : Bool := x.tag.idx == u.tag.idx && x.kern == u.kern && x.st == u.st && x.key == u.key

/-- Whether update u, number k in flight, must wait for number j: one that the same core sent earlier to the same home (R250); one of the same sender to the same
key that comes first in the sender's sequence (R252); one that waits at the same home for a record, behind which the fabric holds u back (R258); or one that a change of the map sends before u (R283). -/
def sentBefore (s : State) (j k : Nat) (x u : Update) : Bool :=
  let home := homeOf s x.st x.key == homeOf s u.st u.key
  (decide (j < k) && x.core == u.core && x.tag.syn == 0 && u.tag.syn == 0 && home)
    || (sameKey x u && (seqBefore x.tag.seq u.tag.seq || (x.tag.seq == u.tag.seq && decide (j < k))))
    || (x.waits && !u.waits && home)
    || (x.moved.isSome && u.moved.isSome && home && decide (j < k))

/-- The updates in flight for which an update, number k of them, must wait. -/
def aheadOf (s : State) (k : Nat) (u : Update) : List Update :=
  ((s.upds.zip (below s.upds.length)).filter (fun x => x.2 != k && sentBefore s x.2 k x.1 u)).map (fun x => x.1)

/-- Whether a fan-out source of the same sender and store, sent earlier, has still to bring its updates (R252). -/
def fanBefore (s : State) (u : Update) : Bool :=
  u.det == 0 && s.fansOut.any (fun f => f.kern == u.kern && f.st == u.st && f.tag.idx == u.tag.idx && seqBefore f.tag.seq u.tag.seq)

/-- Whether the home's segment of a store is full, on which EVUPDT is refused (R277). -/
def homeFull (s : State) (u : Update) : Bool :=
  match findStore s u.kern u.st with
  | some (slot, d) => decide (d.recs ≤ (s.slice (homeOf s u.st u.key) slot).recs)
  | none => false

/-- The answer of a home to the core that waits for it. -/
def answerCore (s : State) (u : Option Nat) (r : Reply) : State :=
  match u with
  | some u => s.modCore u (fun c => { c with pop := some r })
  | none => s

/-- Whether the path of an update to its home is cut (R330). -/
def Update.cut (u : Update) (s : State) : Bool := pathDown s (dieOf (clusterOf u.core)) (dieOf (homeOf s u.st u.key))

/-- UPDATE_ARRIVAL (R250, R251, R270, R277): the k-th update in flight reaches its home over a path that is up, after those that R250 and R252 put before it.
One that finds no record free waits there, and holds back what follows to that slice (R258). An EVUPDT is answered there; on a full segment it is refused, also
behind updates that wait at the home for a record (R258, R277). -/
def execUpdateArrival (k : Nat) (s : State) : Host.Outcome State Fault Refusal :=
  .next (match s.upds[k]? with
    | none => s
    | some u =>
      let ahead := aheadOf s k u
      let rest := { s with upds := dropAt s.upds k }
      if fanBefore s u ∨ u.cut s = true then s
      else if u.reply.isSome ∧ homeFull s u = true ∧ ahead.all (fun x => (arrive s x).isNone) = true then
        answerCore rest u.reply (.fail .evOverflow 0 0 0 0 0)
      else if !ahead.isEmpty then s
      else match arrive rest u with
        | some s' => answerCore s' u.reply (.val 0)
        | none => { s with upds := s.upds.set k { u with waits := true } })

/-! ## Sealing (R253, R254, R259, R268) -/

/-- The priority of a kernel's queue, which its activations take (R259). -/
def kernelPri (s : State) (k : KKey) : Nat := (((mfind s.queues k.queue).bind (fun q => q.kern)).map (fun x => x.pri)).getD 0

/-- An activation's virtual time at D0; a product beyond 64 bits is a value that the spec does not state (R268; log entry 26). -/
def dispatchVt (s : State) (w vmax : Nat) : Word :=
  let x := max (vmax / w + 1) (s.beaconB.toNat / w) * w
  if x < 2 ^ 64 then word x else Config.freeWord s.freeCtr

/-- The virtual time of what leaves window k; a product beyond 64 bits is a value that the spec does not state (R268, R321; log entry 26). -/
def windowVt (s : State) (w k : Nat) : Word := if (k + 1) * w < 2 ^ 64 then word ((k + 1) * w) else Config.freeWord s.freeCtr

/-- The sender index of an activation at D1 and above (R270). -/
def actSender (st key : Nat) : Word := word (2 ^ 63 + st * 2 ^ 40 + key)

/-- An activation as it enters the scheduler. -/
def activation (s : State) (kern : KKey) (tenant det : Nat) (entry : Word) (args : List Word) (vt : Word) (a : ActInfo) : Task :=
  { kind := .activation, kern := kern, tenant := tenant, det := det, entry := entry, args := args, path := 0, jaddr := 0, ord := 0,
    footB := 0, footL := 0, stowa := 0, tsave := 0, vt := vt, wait := 0, setm := 0, keep := false, base := kernelPri s kern,
    pri := kernelPri s kern, since := s.now, tcba := 0, named := none, bound := none, status := .waiting, stowed := false, act := some a,
    lastOn := none, lastAt := 0, msgs := [], ports := [], handles := [], trapRec := none, slotMeta := [], members := [], exited := [] }

/-- Seals an entry: it leaves the store and takes a TCB-cache entry as an activation; none while no entry is free (R253, R259). -/
def sealEntry (s : State) (P slot : Nat) (d : StoreDecl) (e : Entry) (window : Option Nat) : Option State :=
  match freeEntry (s.cluster P) with
  | none => none
  | some i =>
    let vt := match window with
      | some k => windowVt s d.win k
      | none => dispatchVt s d.win e.vmax.toNat
    let args := [word e.key, extendValue d.opr e.val, word d.st, word (priorityOf d.opr e.val)]
    let a : ActInfo := { st := d.st, start := args, msg := none, sender := actSender d.st e.key, window := window, nrst := false }
    let t := activation s d.kern d.tenant d.det d.hpc args vt a
    let s := s.tickFree.modSlice P slot (fun y => { y with entries := y.entries.filter (fun x => x.key ≠ e.key),
                                                           sealing := y.sealing.filter (fun x => x ≠ e.key) })
    some (enterCache (s.modCluster P (fun c => { c with rotate := slot + 1 })) P i t)

/-- What the Sluice seals next in a store: at D0 the first of its eligible entries, at D1 and above the next of its phase. -/
def nextSeal (s : State) (P slot : Nat) (d : StoreDecl) : Option (Entry × Option Nat) :=
  let y := s.slice P slot
  if d.det = 0 then (bestBy (sealsFirst d.opr) (y.entries.filter (eligible d))).map (fun e => (e, none))
  else y.sealing.head?.bind (fun k => (y.entries.find? (fun e => e.key == k)).map (fun e => (e, y.busy)))

/-- SLUICE_SEAL (R253): the store after the one served last, in rotation, that has an entry to seal. -/
def execSluiceSeal (cl : Nat) (s : State) : Host.Outcome State Fault Refusal :=
  let slots := (below 64).map (fun k => ((s.cluster cl).rotate + k) % 64)
  .next (((slots.findSome? (fun k =>
    (mfind s.stores k).bind (fun d => (nextSeal s cl k d).map (fun e => (k, d, e.1, e.2))))).bind
      (fun x => sealEntry s cl x.1 x.2.1 x.2.2.1 x.2.2.2)).getD s)

/-! ## Senders (R252, R265, R270) -/

/-- The sender index of core u's order tags (R252, R270). -/
def senderIdx (s : State) (u : Nat) : Word :=
  let c := s.core u
  match (s.taskOf u).bind (fun t => t.act) with
  | some a => if c.ctx.det = 0 then word (s.unitId u) else a.sender
  | none => if c.ctx.det ≤ 1 then word (s.unitId u) else c.ctx.path

/-- The order tag of core u's next sending. -/
def senderTag (s : State) (u : Nat) : OrderTag := ⟨senderIdx s u, senderSeq s u, 0⟩

/-- The update that core u sends with a virtual time. -/
def updateOf (s : State) (u st key : Nat) (val vt : Word) (reply : Option Nat) : Update :=
  let c := s.core u
  { kern := c.ctx.kern, st := st, key := key, val := val, vt := vt, tag := senderTag s u, det := c.ctx.det, core := u, waits := false, moved := none, since := s.now,
    reply := reply }

/-- An update leaves core u (R250, R277). -/
def sendUpdate (s : State) (u st key : Nat) (val vt : Word) : State :=
  let x := updateOf s u st key val vt none
  bumpSeq { s with upds := s.upds ++ [x] } u

/-- A fan-out source leaves core u: the cluster's engine reads its source-table entry with the task's rights and sends it to the clusters
named there. The answer says whether that read, or the engine that holds a record, waits, and the source has not left (R263, R264, R278, R347). -/
def sendFan (s : State) (u st src : Nat) (val vt pc : Word) (seq : BitVec 16) : Bool × State :=
  let c := s.core u
  match findStore s c.ctx.kern st with
  | none => (false, s)
  | some (_, d) =>
    let P := clusterOf u
    let tag := senderTag s u
    let late := fun (s : State) (cause : Cause) (fa : Word) =>
      postShared (bumpSeq s u) P (.fanout P) (lateRecord s u cause.code seq pc fa 0 0 c.ctx.kern.kid)
    let va := d.ftab + word (8 * src)
    if s.holdsRecord (.fanout P) then (true, s)
    else match loadBytes (clusterWho (some c.ctx.tenant) P) va 8 s with
    | .error (.wait (.page p)) =>
      match faultRegen s p (some (.fanout P)) with
      | (true, s) => (false, late s .pageFault p)
      | (false, s) => (true, s)
    | .error (.wait _) => (true, s)
    | .error (.trap t) => (false, late s t.cause t.faddr)
    | .ok (bs, s) =>
      let bits := leNat bs
      let targets := (below s.nlive).filter (fun k => Nat.testBit bits k)
      let f : FanSource := { kern := c.ctx.kern, st := st, src := src, val := val, vt := vt, tag := tag, det := c.ctx.det, core := u,
                             seq := seq, pc := pc, tenant := c.ctx.tenant, kid := c.ctx.kern.kid, targets := targets, since := s.now }
      (false, bumpSeq (if targets.isEmpty then s else { s with fansOut := s.fansOut ++ [f] }) u)

/-! ## The outbox (R260) -/

/-- Marks core u's activation non-restartable. -/
def markNrst (s : State) (u : Nat) : State :=
  match (s.core u).task with
  | some i => s.modTask (clusterOf u) i (fun t => { t with act := t.act.map (fun a => { a with nrst := true }) })
  | none => s

/-- Releases entries in program order, each taking its sender sequence; where one waits, it and those after it stay, and the
activation can no longer be restarted. -/
def releaseEntries (u : Nat) : List OutEntry → State → Bool × State
  | [], s => (false, s.modCore u (fun c => { c with outbox := [] }))
  | .update st key val vt :: t, s => releaseEntries u t (sendUpdate s u st key val vt)
  | .fan st src val vt pc seq :: t, s =>
    match sendFan s u st src val vt pc seq with
    | (false, s) => releaseEntries u t s
    | (true, s) => (true, markNrst (s.modCore u (fun c => { c with outbox := .fan st src val vt pc seq :: t })) u)

/-- Releases core u's outbox. -/
def releaseOutbox (s : State) (u : Nat) : Bool × State := releaseEntries u (s.core u).outbox s

/-- The early release that a stow or a full outbox brings, which marks the activation non-restartable (R260). -/
def releaseEarly (s : State) (u : Nat) : Bool × State := releaseOutbox (markNrst s u) u

/-! ## EVUPD, EVUPDT, EVFAN, EVPEEK (R274, R277 to R279) -/

/-- The four event instructions that name a store and a key or source. -/
inductive EvOp where
  | upd | updt | fan | peek
  deriving DecidableEq, Repr

/-- The checks of R274 in their order. -/
def checkEvent (op : EvOp) (st : Nat) (a : Word) : M StoreDecl := do
  let s ← get
  let c := s.core s.cur
  match findStore s c.ctx.kern st with
  | none => trapM formatTrap
  | some (_, d) =>
    needM (op != .fan || (d.ftab != 0 && fld a 63 32 == 0)) formatTrap
    needM (op == .fan || fld a 63 40 == 0) formatTrap
    needM (op != .peek || c.ctx.det == 0) (.plain .detLevel)
    needM (c.ctx.det != 3 || d.opr != 0 || op == .peek) (.plain .detLevel)
    pure d

/-- The core has sent something since the last publication of Q (R280). -/
def noteSent (s : State) (u : Nat) : State := s.modCore u (fun c => { c with sentSince := true })

/-- An entry joins the outbox; a full one is released first (R260). The instruction waits where that release waits. -/
def enterOutbox (u : Nat) (e : OutEntry) (log : Bool) : M Flow := do
  let s ← get
  let r := if 128 ≤ (s.core u).outbox.length then releaseEarly s u else (false, s)
  match r with
  | (true, s) =>
    set s
    pure .stay
  | (false, s) =>
    let s := if log then s.modCore u (fun c => c.logged 3 0 false 30) else s
    set (noteSent (s.modCore u (fun c => { c with outbox := c.outbox ++ [e] })) u)
    pure .next

/-- EVUPD (R277). -/
def postUpdate (st : Nat) (a b : Word) : M Flow := do
  let d ← checkEvent .upd st a
  let s ← get
  let u := s.cur
  let val := takeValue d.opr b
  if isAct s u then enterOutbox u (.update st (fld a 39 0) val (s.core u).vt) false
  else
    set (noteSent (sendUpdate s u st (fld a 39 0) val (s.core u).vt) u)
    pure .next

/-- EVUPDT (R277): outside an activation the core waits for the home's answer; a step that does its requests at once brings the update
there where no other is in its way. -/
def postTested (st : Nat) (a b : Word) : M Flow := do
  let d ← checkEvent .updt st a
  let s ← get
  let u := s.cur
  let val := takeValue d.opr b
  if isAct s u then
    needM (decide ((s.core u).outbox.length < 128)) (.plain .outboxFull)
    enterOutbox u (.update st (fld a 39 0) val (s.core u).vt) false
  else
    let x := updateOf s u st (fld a 39 0) val (s.core u).vt (some u)
    if s.eager && (aheadOf s s.upds.length x).isEmpty && !fanBefore s x && !x.cut s then
      needM (!homeFull s x) (.plain .evOverflow)
      match arrive s x with
      | some s' =>
        set (noteSent (bumpSeq s' u) u)
        pure .next
      | none =>
        set (parkCore { s with upds := s.upds ++ [x] } u .request)
        pure .stay
    else
      set (parkCore { s with upds := s.upds ++ [x] } u .request)
      pure .stay

/-- EVFAN (R278): it takes an engine-log number at retirement (R212), and stalls while the fan-out engine holds a record or its table read waits (R347). -/
def postFan (st : Nat) (a b : Word) : M Flow := do
  let _ ← checkEvent .fan st a
  let s ← get
  let u := s.cur
  let c := s.core u
  if isAct s u then enterOutbox u (.fan st (fld a 31 0) b c.vt c.pc (seqAfter c.seqNo)) true
  else
    match sendFan s u st (fld a 31 0) b c.vt c.pc (seqAfter c.seqNo) with
    | (true, s) =>
      set s
      pure .stay
    | (false, s) =>
      set (noteSent (s.modCore u (fun c => c.logged 3 0 false 30)) u)
      pure .next

/-- The value that EVPEEK returns for a key of a kernel's store (R279). -/
def peekValue (s : State) (kern : KKey) (st key : Nat) : Word :=
  match findStore s kern st with
  | none => 0
  | some (slot, d) =>
    match (s.slice (homeOf s st key) slot).entries.find? (fun e => e.key == key) with
    | some e => extendValue d.opr e.val
    | none => absentValue d.opr

/-- EVPEEK (R279). -/
def peekStore (d : GReg) (a : Word) (st : Nat) : M Flow := do
  let _ ← checkEvent .peek st a
  let s ← get
  let u := s.cur
  let c := s.core u
  if s.eager && !pathDown s (dieOf (clusterOf u)) (dieOf (homeOf s st (fld a 39 0))) then
    setG d (peekValue s c.ctx.kern st (fld a 39 0))
    pure .next
  else
    let r : Req := { kind := .peek st (fld a 39 0) c.ctx.kern, core := some u, sender := u, kern := c.ctx.kern, vt := c.vt, d := d, va := 0, loc := 0,
                     repl := false, so := false, tagged := false, release := false, a := 0, b := 0, tag8 := c.reqTag, since := s.now, done := none }
    set (parkCore ({ s with reqs := s.reqs ++ [r] }.modCore u (fun c => { c with reqTag := c.reqTag + 1 })) u .request)
    pure .stay

def execEvupd (st : BitVec 3) (a b : GReg) (s : State) := runM (postUpdate st.toNat (s.rg a) (s.rg b)) s
def execEvupdt (st : BitVec 3) (a b : GReg) (s : State) := runM (postTested st.toNat (s.rg a) (s.rg b)) s
def execEvfan (st : BitVec 3) (a b : GReg) (s : State) := runM (postFan st.toNat (s.rg a) (s.rg b)) s
def execEvpeek (d a : GReg) (st : BitVec 3) (s : State) := runM (peekStore d (s.rg a) st.toNat) s

/-! ## EVDONE, VTSET, VTGET, VTLOW, EVSTAT (R280 to R282) -/

/-- EVDONE (R281). -/
def execEvdone (s : State) : Host.Outcome State Fault Refusal :=
  let u := s.cur
  if !isAct s u then .next (takeTrap s u (.plain .illegalOp))
  else match releaseOutbox s u with
    | (true, s) => .next s
    | (false, s) => .next (endRetired (releaseTo (noteSent s u) u 4) u)

/-- VTSET (R282). -/
def execVtset (a : GReg) (s : State) : Host.Outcome State Fault Refusal :=
  let x := s.rg a
  .next (retire (s.modCore s.cur (fun c => { c with vt := if c.vt.toNat < x.toNat then x else c.vt })))
def execVtget (d : GReg) (s : State) : Host.Outcome State Fault Refusal := .next (retire (s.wg d (s.core s.cur).vt))
def execVtlow (d : GReg) (s : State) : Host.Outcome State Fault Refusal := .next (retire (s.wg d s.beaconB))

/-- The value of an EVSTAT selector (R280). -/
def statValue (s : State) (u sel : Nat) : Option Word :=
  let c := s.core u
  let P := clusterOf u
  if sel = 0 then some (flagWord (s.beaconQ && !c.sentSince))
  else if sel = 1 then some s.beaconB
  else if 8 ≤ sel ∧ sel < 16 then
    match findStore s c.ctx.kern (sel - 8) with
    | some (slot, _) =>
      let y := s.slice P slot
      some (word (2 ^ 63 + (if y.ovf then 2 ^ 62 else 0) + (if y.late then 2 ^ 61 else 0) + y.recs % 2 ^ 29 * 2 ^ 32 + y.entries.length))
    | none => some 0
  else if 16 ≤ sel ∧ sel < 24 then
    match findStore s c.ctx.kern (sel - 16) with
    | some (slot, _) => some (((s.slice P slot).phase.map word).getD (BitVec.allOnes 64))
    | none => some (BitVec.allOnes 64)
  else none

/-- EVSTAT (R280): a Q of 1 acquires the stores of the activations that it counts. -/
def execEvstat (d : GReg) (sel : BitVec 7) (s : State) : Host.Outcome State Fault Refusal :=
  match statValue s s.cur sel.toNat with
  | some v => .next (retire ((if sel = 0 ∧ v = 1 then acquire s s.cur else s).wg d v))
  | none => .next (takeTrap s s.cur (.plain .illegalOp))

/-! ## EVDECL (R246, R247, R275) -/

/-- Whether the fields of a declaration lie in their ranges (R247). -/
def declOk (w : List Word) : Bool :=
  let d := fun (k : Nat) => w.getD k 0
  let cap := fld (d 2) 14 0
  let lseg := fld (d 4) 4 0
  decide (fld (d 0) 3 0 ≤ 8) && fld (d 0) 63 4 == 0 && (fld (d 0) 3 0 != 8 || d 1 == 0)
    && decide (1 ≤ cap) && decide (cap ≤ 16384) && fld (d 2) 31 15 == 0 && fld (d 2) 63 32 != 0
    && fld (d 3) 63 56 == 0 && (d 3).toNat % 2 ^ lseg == 0
    && decide (12 ≤ lseg) && decide (lseg ≤ 24) && fld (d 4) 63 5 == 0
    && fld (d 5) 63 56 == 0 && !bitAt (d 5) 0 && fld (d 6) 63 56 == 0 && (d 6).toNat % 8 == 0
    && fld (d 7) 21 0 % 16 == 0 && decide (fld (d 7) 26 22 ≤ 16) && fld (d 7) 63 39 == 0

/-- The declaration in eight doublewords, for the kernel of a context. -/
def declOf (c : TaskCtx) (st : Nat) (w : List Word) : StoreDecl :=
  let d := fun (k : Nat) => w.getD k 0
  { kern := c.kern, st := st, tenant := c.tenant, det := c.det, opr := fld (d 0) 3 0, thresh := d 1, cap := fld (d 2) 14 0,
    win := fld (d 2) 63 32, ovb := sext56 (d 3), lseg := fld (d 4) 4 0, hpc := sext56 (d 5), ftab := sext56 (d 6),
    dir := fld (d 7) 21 0, dlog := fld (d 7) 26 22, wb := fld (d 7) 29 27, wsgn := bitAt (d 7) 30,
    wscale := signedOf 8 (fld (d 7) 38 31) }

/-- A page that overflow segments may use: page-mapped memory of this device, neither UO nor replicated (R275). -/
def segmentPage (p : Piece) : Bool :=
  match p.place with
  | .mem loc => decide (loc < sramBase) && p.kind != 2 && !p.repl
  | _ => false

/-- The checks of the pages of a store's segments, part by part: the first that fails gives the cause and the address (R275). -/
def checkSegments (w : Who) : List (Word × Nat) → M Unit
  | [] => pure ()
  | (va, len) :: t => do
    let p ← pieceOf w va len
    let r ← rightsM w p.dom
    needM (granted .load false r && granted .store false r && segmentPage p) (.at .plbDeny va)
    checkSegments w t

/-- EVDECL (R275). -/
def declareStore (st : Nat) (va : Word) : M Flow := do
  aligned va 64
  needM (inLocalWin va) (.at .plbDeny va)
  let s ← get
  let ps ← resolve s.me .load va 64
  noPoison s.me ps
  let bs ← readPieces s.me ps
  let s ← get
  let c := (s.core s.cur).ctx
  let w := dwordsOf bs 8
  let d := declOf c st w
  needM (declOk w && (findStore s c.kern st).isNone) formatTrap
  needM (s.stores.all (fun x => x.2.kern == c.kern || (c.det == 0 && x.2.det == 0))) (.plain .detLevel)
  needM (decide (s.stores.length < 64) && decide (s.stores.foldl (fun n x => n + x.2.cap) d.cap ≤ 16384)) (.plain .evOverflow)
  checkSegments s.me (rangeParts d.ovb (64 * 2 ^ d.lseg))
  let s ← get
  match lowestFree (s.stores.map (fun x => x.1)) 64 with
  | none => trapM (.plain .evOverflow)
  | some slot =>
    set { s with stores := mset s.stores slot d }
    pure .next

def execEvdecl (st : BitVec 3) (a : GReg) (s : State) := runM (declareStore st.toNat (s.rg a)) s

/-! ## EVDROP (R276) -/

/-- Whether nothing of a store is on its way: no update or source in flight or parked, nothing sealed that has not started (R276). -/
def storeIdle (s : State) (slot : Nat) (d : StoreDecl) : Bool :=
  s.upds.all (fun u => u.kern != d.kern || u.st != d.st) && s.fansOut.all (fun f => f.kern != d.kern || f.st != d.st)
    && s.clusters.all (fun c =>
      let y := mget c.2.slices slot SliceStore.empty
      y.parked.isEmpty && y.wins.all (fun w => w.isNone) && y.sealing.isEmpty && y.busy.isNone
        && (c.2.tcbs.map (fun (t : Nat × Task) => t.2) ++ c.2.backlog).all (fun t => t.kern != d.kern || t.lastOn.isSome ||
            (match t.act with | some a => a.st != d.st || a.msg.isSome | none => true)))

/-- Whether no message of a kernel is in flight, on a port's send side among them, or parked (R321, R324). -/
def messagesIdle (s : State) (k : KKey) : Bool :=
  s.msgs.all (fun m => m.kern != k) && s.clusters.all (fun c => c.2.parkedM.all (fun m => m.kern != k))
    && s.cores.all (fun c => c.2.txPorts.all (fun p => p.2.all (fun m => m.kern != k)))

/-- Entries and records that a store holds. -/
def storeHeld (s : State) (slot : Nat) : Nat :=
  s.clusters.foldl (fun n c => let y := mget c.2.slices slot SliceStore.empty; n + y.entries.length + y.recs) 0

/-- EVDROP (R276): it waits until the store is idle, then drops it and writes the count. -/
def dropStore (st : Nat) (va : Word) : M Flow := do
  let s ← get
  let k := (s.core s.cur).ctx.kern
  match findStore s k st with
  | none => trapM formatTrap
  | some (slot, d) =>
    if va ≠ 0 then
      aligned va 8
      needM (inLocalWin va) (.at .plbDeny va)
      let ps ← resolve s.me .store va 8
      ringsFree ps
      noDead ps
    let s ← get
    let last := d.det != 0 && (storesOf s k).length == 1
    if !storeIdle s slot d || (last && !messagesIdle s k) then pure .stay
    else
      let n := storeHeld s slot
      set (dropStores s (fun x => x.kern == k && x.st == st))
      if va ≠ 0 then storeScalar va 8 (word n) false
      pure .next

def execEvdrop (st : BitVec 3) (a : GReg) (s : State) := runM (dropStore st.toNat (s.rg a)) s

/-! ## Fan-out at a receiving cluster (R262 to R264) -/

/-- A doubleword of the scratchpad that a fan-out engine reads. -/
def fanDword (w : Who) (off : Nat) : M Word := do
  aligned (localVa off) 8
  let bs ← loadBytes w (localVa off) 8
  pure (word (leNat bs))

/-- The search of a directory from entry k; `n` bounds the entries examined (R262). -/
def findSource (w : Who) (dir dlog src : Nat) : Nat → Nat → M (Option Word)
  | 0, _ => pure none
  | n + 1, k => do
    let a ← fanDword w (dir + 16 * k)
    if !bitAt a 32 then pure none
    else if fld a 31 0 = src then do
      let b ← fanDword w (dir + 16 * k + 8)
      pure (some b)
    else findSource w dir dlog src n ((k + 1) % 2 ^ dlog)

/-- The weight of a synapse (R262, R263). -/
def weightOf (d : StoreDecl) (syn : Word) : Int :=
  let q := fld syn 47 40 % 2 ^ (d.wb + 1)
  if d.wsgn then signedOf (d.wb + 1) q else q

/-- An integer shifted left, or arithmetically right, by a signed count. -/
def shiftBy (x k : Int) : Int := if 0 ≤ k then x * 2 ^ k.toNat else x / 2 ^ (-k).toNat

/-- The value of a fan-out's update (R263). -/
def fanValue (d : StoreDecl) (x : Word) (q : Int) : Word :=
  match d.opr with
  | 0 | 4 | 6 => word (rneF32 (((f32 (fld x 31 0)).mul (numOfInt q)).scale d.wscale))
  | 1 | 3 | 5 => word (fld (BitVec.ofInt 64 (shiftBy (signedOf 32 x.toNat * q) d.wscale)) 31 0)
  | 2 => BitVec.ofInt 64 (shiftBy (x.toInt * q) d.wscale)
  | _ => takeValue d.opr x

/-- The updates of a synapse list from position j, `n` of them; what has been formed stands when a read faults, with the number of synapses done (R213, R263,
R264). -/
def fanUpdates (w : Who) (d : StoreDecl) (f : FanSource) (off : Nat) : Nat → Nat → State → Except (Stop × Nat) Unit × State
  | 0, _, s => (.ok (), s)
  | n + 1, j, s =>
    match fanDword w (off + 8 * j) s with
    | .error e => (.error (e, j), s)
    | .ok (x, s) =>
      let q := weightOf d x
      let u : Update := { kern := f.kern, st := f.st, key := fld x 39 0, val := fanValue d f.val q, vt := f.vt,
                          tag := { f.tag with syn := j + 1 }, det := f.det, core := 32 * w.cl, waits := false, moved := none, since := s.now,
                          reply := none }
      fanUpdates w d f off n (j + 1) (if q = 0 then s else { s with upds := s.upds ++ [u] })

/-- A fan-out source has no more to reach logical cluster L. -/
def fanLeaves (s : State) (f : FanSource) (L : Nat) : State :=
  { s with fansOut := (s.fansOut.map (fun (x : FanSource) =>
      if x = f then { x with targets := x.targets.erase L } else x)).filter (fun x => !x.targets.isEmpty) }

/-- A source reaches cluster cl. A read that waits leaves the source on its way; a fault is late, and the rest of the source is skipped there (R263, R264). -/
def fanReaches (s : State) (f : FanSource) (cl : Nat) : State :=
  let gone := fanLeaves s f (s.logicalNo cl)
  match findStore s f.kern f.st with
  | none => gone
  | some (_, d) =>
    let w := clusterWho (some f.tenant) cl
    let late := fun (s : State) (t : Trap) (n : Nat) =>
      postShared s (clusterOf f.core) (.fanout cl) (lateRecord s f.core t.cause.code f.seq f.pc t.faddr 0 (word n) f.kid)
    let start := if d.dlog = 0 then 0 else (kh (word f.src)).toNat / 2 ^ (64 - d.dlog)
    match findSource w d.dir d.dlog f.src (2 ^ d.dlog) start gone with
    | .error (.wait _) => s
    | .error (.trap t) => late gone t 0
    | .ok (none, s') => s'
    | .ok (some b, s') =>
      match fanUpdates w d f (fld b 21 0) (fld b 47 32) 0 s' with
      | (.ok _, s') => s'
      | (.error (.wait _, _), _) => s
      | (.error (.trap t, n), s') => late s' t n

/-- FANOUT_SOURCE_ARRIVAL (R263, R264): the k-th source that has still to reach a cluster, over a path that is up. -/
def execFanoutSourceArrival (cl k : Nat) (s : State) : Host.Outcome State Fault Refusal :=
  .next (match (s.fansOut.filter (fun f => f.targets.contains (s.logicalNo cl)))[k]? with
    | none => s
    | some f => if s.holdsRecord (.fanout cl) ∨ pathDown s (dieOf (clusterOf f.core)) (dieOf cl) = true then s else fanReaches s f cl)

/-! ## Errors (R283) -/

/-- The kernels that hold a declared store. -/
def storeKernels (s : State) : List KKey := (s.stores.map (fun x => x.2.kern)).dedup

/-- An uncorrectable error in the slice of cluster P, or a record that returns POISON: every kernel with a store there, as every declared store has its
place on every slice, completes with POISON (R246, R283). The record names the cluster's first core (R300; log entry 66). -/
def sliceFails (s : State) (P : Nat) : State := (storeKernels s).foldl (fun s k => endKernel s k .poison 0 (s.unitId (32 * P))) s

/-- REFILL (R257): at D0, a store below half capacity reads records back and folds them. -/
def execRefill (cl slot : Nat) (s : State) : Host.Outcome State Fault Refusal :=
  .next (match mfind s.stores slot with
    | none => s
    | some d =>
      if d.det ≠ 0 then s
      else match refill cl slot d (s.slice cl slot).recs s with
        | .ok s' => s'
        | .error .poison => sliceFails s cl
        | .error .held => s)

end Sys2Proof.Machine
end

