-- ==== Sys2Proof/Machine/Messages.lean ====
section
/-! DEFINITION. Messages (R315 to R327): SEND, SENDP, RECV and RECVP, delivery to claimants, active messages, parking by window, and
ports. -/

namespace Sys2Proof.Machine

/-! ## Claimants and delivery (R317, R318) -/

/-- Whether a core takes no message: it, or its cluster, is quarantined (R27, R28, R319). -/
def sealedCore (s : State) (u : Nat) : Bool := (s.core u).status == .quarantined || s.quarCl.contains (clusterOf u)

/-- The claimant of a core for a kernel's message (R317): a running task, a stowed one that ran last on the core, a saved gang member by
rank, or a shipped task at its new cluster. -/
inductive Claimant where
  | running
  | stowed (idx : Nat)
  | member (idx rank : Nat)
  | shipped (Q idx : Nat)
  | nobody
  deriving DecidableEq, Repr

/-- The rank that a saved gang's member had on a core. -/
def savedRank (t : Task) (u : Nat) : Option Nat :=
  match t.lastOn with
  | some v => if v ≤ u ∧ (mfind t.members (u - v)).isSome = true then some (u - v) else none
  | none => none

/-- The claimant of core u for kernel k (R317). -/
def claimantOf (s : State) (u : Nat) (k : KKey) : Claimant :=
  let P := clusterOf u
  let c := s.core u
  if c.task.isSome && c.ctx.kern == k then .running
  else
    let ts := (s.cluster P).tcbs
    let mine := ts.filter (fun p => p.2.kern == k &&
      (if p.2.kind.gang then (savedRank p.2 u).isSome else p.2.stowed && p.2.lastOn == some u))
    match bestBy (fun a b => decide (b.2.lastAt < a.2.lastAt)) mine with
    | some (i, t) =>
      if t.kind.gang then match savedRank t u with
        | some r => .member i r
        | none => .nobody
      else .stowed i
    | none =>
      match (s.cluster P).forwards.reverse.find? (fun f => f.kern == k && f.core == some u
          && ((mfind (s.cluster f.dest).tcbs f.idx).map (fun t => t.kern == k)).getD false) with
      | some f => .shipped f.dest f.idx
      | none => .nobody

/-- A message enters the inbox of a running core, whose RECV wakes (R327). -/
def toInbox (s : State) (u : Nat) (m : Msg) : State :=
  s.modCore u (fun c => { c with inbox := c.inbox ++ [m], wait := if c.wait = .inbox then .none else c.wait })

/-- The messages of a stow, the receive sides' among them, that a context buffer holds (R324, R350). -/
def savedMsgs (msgs : List Msg) (ports : AMap (List Msg)) : List Msg := msgs ++ ports.flatMap (fun p => p.2)

/-- A message enters a stowed task's context buffer, and its image counts it (R317, R351). -/
def toContext (s : State) (P i : Nat) (m : Msg) : State :=
  let s := s.modTask P i (fun t => { t with msgs := t.msgs ++ [m] })
  match mfind (s.cluster P).tcbs i with
  | some t =>
    let ms := (savedMsgs t.msgs t.ports).take 16
    let s := writeContext s P i ms
    (writeImage s P i t 0x5EC [BitVec.ofNat 8 ms.length]).getD s
  | none => s

/-- The room that a claimant has, and the message put there; none where it has none (R317, R318). -/
def offer (s : State) (u : Nat) (m : Msg) : Option State :=
  let stowed := fun (P i : Nat) => (mfind (s.cluster P).tcbs i).bind (fun t =>
    if (savedMsgs t.msgs t.ports).length < 16 then some (toContext s P i m) else none)
  match claimantOf s u m.kern with
  | .running => if (s.core u).inbox.length < 16 then some (toInbox s u m) else none
  | .stowed i => stowed (clusterOf u) i
  | .member i r =>
    (mfind (s.cluster (clusterOf u)).tcbs i).bind (fun t => (mfind t.members r).bind (fun c =>
      if (savedMsgs c.msgs c.ports).length < 16 then
        some (s.modTask (clusterOf u) i (fun t => { t with members := mset t.members r { c with msgs := c.msgs ++ [m] } }))
      else none))
  | .shipped Q i =>
    match (coresOf Q).find? (fun v => (s.core v).task == some i) with
    | some v => if (s.core v).inbox.length < 16 then some (toInbox s v m) else none
    | none => stowed Q i
  | .nobody => none

/-- The record of a message whose target was sealed while it was on its way (R319, R345). -/
def lostMessage (s : State) (m : Msg) : State :=
  postShared s (clusterOf m.sender) (.net (clusterOf m.sender))
    { lateRecord s m.sender 2 0 0 0 0 0 m.kern.kid with cause := .poison, late := false }

/-- The target core of a core message. -/
def targetOf (s : State) (m : Msg) : Nat := 32 * physOf s m.cl + m.unit

/-- Delivers a core message: to its claimant, behind those that wait for the same core, or into the cluster's buffer (R317, R318). None where the buffer has no
entry for it, or the record of a message whose target was sealed finds its source holding another (R319, R347). -/
def deliverCore (s : State) (m : Msg) : Option State :=
  let u := targetOf s m
  if sealedCore s u then if s.holdsRecord (.net (clusterOf m.sender)) then none else some (lostMessage s m)
  else
    let P := clusterOf u
    let hold := if (s.cluster P).buffered < 1024 then some (s.modCluster P (fun c => { c with msgBuf := c.msgBuf ++ [⟨u, m, false⟩] })) else none
    if (s.cluster P).msgBuf.any (fun b => b.core == u && b.msg.kern == m.kern) then hold
    else match offer s u m with
      | some s' => some s'
      | none => hold

/-! ## Active messages (R316) -/

/-- The lowest-numbered declared store of a kernel, with its slot (R316, R321). -/
def lowestStore (s : State) (k : KKey) : Option (Nat × StoreDecl) :=
  bestBy (fun a b => decide (a.2.st < b.2.st)) (storesOf s k)

/-- The virtual time of an active message's activation (R316, R321). -/
def messageVt (s : State) (m : Msg) : Word :=
  match m.window with
  | some (k, w) => windowVt s w k
  | none =>
    match lowestStore s m.kern with
    | some (_, d) => dispatchVt s d.win m.vt.toNat
    | none => m.vt

/-- The sender index of the activation that a message starts, at D1 and above (R316). -/
def messageSender (m : Msg) : Word :=
  let h := kh (m.tag.idx ^^^ (m.tag.seq.setWidth 64 <<< 32))
  word (2 ^ 63 + 2 ^ 62 + fld h 61 0)

/-- A doubleword of a message. -/
def Msg.dw (m : Msg) (k : Nat) : Word := word (laneOf m.val.bits 64 k)

/-- An active message becomes an activation on its cluster; none while no TCB-cache entry is free (R316). -/
def activate (s : State) (m : Msg) : Option State :=
  let P := physOf s m.cl
  match freeEntry (s.cluster P) with
  | none => none
  | some i =>
    let args := (upFrom 1 6).map m.dw
    let a : ActInfo := { st := 0, start := args, msg := some m.val, sender := messageSender m,
                         window := m.window.map (fun w => w.1), nrst := false }
    let t := activation s m.kern m.tenant m.det (sext56 (m.dw 0)) args (messageVt s m) a
    some (enterCache s.tickFree P i t)

/-! ## Parking (R321, R322) -/

/-- The bytes of a spilled message: the message, and its header as the device lays it out (R322; log entry 25). -/
def spillRecord (s : State) (m : Msg) : List Byte :=
  leBytes 64 m.val.bits.toNat ++ (below 8).flatMap (fun k => leBytes 8 (Config.freeWord (s.freeCtr + k)).toNat)

/-- A message parked at its cluster, in the buffer or the queue's spill segment; a full segment ends the kernel with EV_OVERFLOW (R318, R322). -/
def holdParked (s : State) (P : Nat) (m : Msg) : State :=
  let c := s.cluster P
  if c.buffered < 1024 then s.modCluster P (fun c => { c with parkedM := c.parkedM ++ [m] })
  else
    match mfind s.queues m.kern.queue with
    | none => s
    | some q =>
      let n := mget c.spilled m.kern.queue 0
      if 2 ^ q.desc.lms / 128 ≤ n then endKernel s m.kern .evOverflow 0 0
      else
        let va := q.desc.msb + word (s.logicalNo P * 2 ^ q.desc.lms + 128 * n)
        let s := (deviceWrite s (engineWho none P) va (spillRecord s m)).getD s
        { s with freeCtr := s.freeCtr + 8 }.modCluster P (fun c =>
          { c with parkedM := c.parkedM ++ [m], spilled := mset c.spilled m.kern.queue (n + 1) })

/-- Parks a message that has reached its cluster; one whose window has closed goes to the earliest open one and sets LATE (R321). -/
def parkMessage (s : State) (P : Nat) (m : Msg) (k w : Nat) : State :=
  let (k', late) := if windowClosed s.beaconB.toNat w k then (earliestOpen s.beaconB.toNat w none, true) else (k, false)
  let s := holdParked s P { m with window := some (k', w) }
  match late, lowestStore s m.kern with
  | true, some (slot, _) => s.modSlice P slot (fun y => { y with late := true })
  | _, _ => s

/-- Whether a closed window of some store of a slice has still to be carried out. -/
def phasePending (s : State) (P : Nat) : Bool :=
  s.stores.any (fun x =>
    let y := s.slice P x.1
    y.busy.isSome || !y.sealing.isEmpty || y.parked.any (fun p => windowClosed s.beaconB.toNat x.2.win p.1)
      || y.wins.any (fun w => match w with | some k => windowClosed s.beaconB.toNat x.2.win k | none => false))

/-- The end of a parked message's window, and the order in which parked messages leave: by window, then by order tag. -/
def Msg.due (m : Msg) : Nat := match m.window with | some (k, w) => windowEnd w k | none => 0
def Msg.leavesFirst (a b : Msg) : Bool := decide (a.due < b.due) || (a.due == b.due && a.tag.below b.tag)

/-- One parked message leaves the cluster's buffer. -/
def unpark (s : State) (P : Nat) (m : Msg) : State :=
  s.modCluster P (fun c => { c with parkedM := c.parkedM.erase m, spilled := mmod c.spilled m.kern.queue 0 (fun n => n - 1) })

/-- Delivers, in order, the parked messages of closed windows; one that finds no free entry holds those after it. -/
def deliverEach (P : Nat) : List Msg → State → State
  | [], s => s
  | m :: t, s =>
    match if m.active then activate (unpark s P m) m else deliverCore (unpark s P m) m with
    | some s' => deliverEach P t s'
    | none => s

/-- The delivery of a cluster's parked messages once its slices have ended their phases (R321). -/
def deliverParked (s : State) (P : Nat) : State :=
  if phasePending s P then s
  else deliverEach P (sortBy Msg.leavesFirst ((s.cluster P).parkedM.filter (fun m => decide (m.due ≤ s.beaconB.toNat)))) s

/-! ## MESSAGE_DELIVERY -/

/-- Whether two messages are of one sender to one target core, or to one cluster (R319). -/
def sameRoute (a b : Msg) : Bool := a.sender == b.sender && a.active == b.active && a.cl == b.cl && a.unit == b.unit

/-- MESSAGE_DELIVERY (R317 to R319, R321, R330, R347): the k-th message in flight reaches its cluster over a path that is up, after those of its sender to the
same target. A full message buffer holds it back at D0, except one whose target was sealed. Of one whose target has left the map its sender's supervisor receives the
record. -/
def execMessageDelivery (k : Nat) (s : State) : Host.Outcome State Fault Refusal :=
  .next (match s.msgs[k]? with
    | none => s
    | some m =>
      let P := physOf s m.cl
      let sealed := !m.active && sealedCore s (targetOf s m)
      if m.lost then
        if s.holdsRecord (.net (clusterOf m.sender)) then s else lostMessage { s with msgs := dropAt s.msgs k } m
      else if (s.msgs.take k).any (fun x => sameRoute x m) ∨ s.holdsRecord (.net P) = true
          ∨ pathDown s (dieOf (clusterOf m.sender)) (dieOf P) = true then s
      else
        let rest := { s with msgs := dropAt s.msgs k }
        match m.window with
        | some (j, w) => parkMessage rest P m j w
        | none =>
          if 1024 ≤ (s.cluster P).buffered ∧ sealed = false then s
          else (if m.active then activate rest m else deliverCore rest m).getD s)

/-! ## SEND (R315, R320, R326) -/

/-- The narrowest scope of core u that covers another core, and a cluster (R116, R320). -/
def scopeToCore (u v : Nat) : Nat :=
  if u = v then 0 else if tileOf u = tileOf v then 1 else if clusterOf u = clusterOf v then 2
  else if dieOf (clusterOf u) = dieOf (clusterOf v) then 3 else 4
def scopeToCluster (u Q : Nat) : Nat := if clusterOf u = Q then 2 else if dieOf (clusterOf u) = dieOf Q then 3 else 4

/-- The window that a message of core u is parked in at D1 and above (R321). -/
def sendWindow (s : State) (u : Nat) : Option (Nat × Nat) :=
  let c := s.core u
  if c.ctx.det = 0 then none
  else (lowestStore s c.ctx.kern).map (fun x => (c.vt.toNat / x.2.win, x.2.win))

/-- The message that core u sends (R315). -/
def messageOf (s : State) (u : Nat) (val : VVal) (active : Bool) (cl unit : Nat) : Msg :=
  let c := s.core u
  { val := val, active := active, cl := cl, named := cl, unit := unit, sender := u, kern := c.ctx.kern, tenant := c.ctx.tenant, vt := c.vt,
    tag := senderTag s u, det := c.ctx.det, window := sendWindow s u, lost := false }

/-- SEND (R326). It stalls while the network interface keeps 8 messages of the core in flight, or holds a record (R318, R347). -/
def sendMessage (a : Word) (x : VVal) : M Flow := do
  let s ← get
  let u := s.cur
  let c := s.core u
  let k := fld a 63 62
  let cl := fld a 10 5
  let w0 := laneOf x.bits 64 0
  needM (decide (k < 2) && fld a 61 11 == 0 && decide (cl < s.nlive)) formatTrap
  needM (k != 1 || (fld a 4 0 == 0 && bitsOf w0 63 56 == 0 && w0 % 2 == 0)) formatTrap
  needM (k != 0 || !sealedCore s (32 * physOf s cl + fld a 4 0)) (.plain .poison)
  needM (c.ctx.det == 0 || !(storesOf s c.ctx.kern).isEmpty) (.plain .detLevel)
  if s.holdsRecord (.net (clusterOf u)) || decide (8 ≤ s.msgs.countP (fun m => m.sender == u)) then pure .stay
  else
    let m := messageOf s u x (k == 1) cl (fld a 4 0)
    let s := releaseTo s u (if k = 1 then scopeToCluster u (physOf s cl) else scopeToCore u (targetOf s m))
    set (bumpSeq { s with msgs := s.msgs ++ [m] } u)
    pure .next

def execSend (a : GReg) (b : VReg) (s : State) := runM (sendMessage (s.rg a) (s.rv b)) s

/-! ## RECV (R327) -/

/-- RECV: the oldest message, whose place the buffer's next one takes, acquires what its SEND released (R320); the core parks while there is none. -/
def execRecv (d : VReg) (s : State) : Host.Outcome State Fault Refusal :=
  let u := s.cur
  match (s.core u).inbox with
  | [] => .next (parkCore s u .inbox)
  | m :: t => .next (retire (fillInbox ((acquire (s.modCore u (fun c => { c with inbox := t })) u).wv d m.val) u))

/-! ## Ports (R324) -/

/-- The core that a port of core u is joined to, and the port there. -/
def portPeer (u p : Nat) : Nat × Nat := (32 * neighbour (clusterOf u) p + inCluster u, (p + 2) % 4)

/-- Whether a port is closed: an end of it is quarantined. -/
def portClosed (s : State) (u p : Nat) : Bool := sealedCore s u || sealedCore s (portPeer u p).1

/-- The checks that SENDP and RECVP share: the lower class, and an open port. -/
def checkPort (u p : Nat) : M Unit := do
  let s ← get
  needM (inGang s u) (.plain .illegalOp)
  needM (!portClosed s u p) ringTrap

/-- SENDP (R326): a full send side parks it; it releases at die scope. -/
def sendPort (p : Nat) (x : VVal) : M Flow := do
  let s ← get
  let u := s.cur
  checkPort u p
  if 4 ≤ (portList (s.core u).txPorts p).length then
    set (parkCore s u (.sendPort p))
    pure .stay
  else if s.holdsRecord (.net (clusterOf u)) then pure .stay
  else
    let m := { messageOf s u x false 0 0 with window := none }
    set ((bumpSeq (releaseTo s u 3) u).modCore u (fun c => { c with txPorts := mmod c.txPorts p [] (fun l => l ++ [m]) }))
    pure .next

/-- RECVP (R327). -/
def recvPort (d : VReg) (p : Nat) : M Flow := do
  let s ← get
  let u := s.cur
  checkPort u p
  match portList (s.core u).rxPorts p with
  | [] =>
    set (parkCore s u (.recvPort p))
    pure .stay
  | m :: t =>
    set ((acquire (s.modCore u (fun c => { c with rxPorts := mset c.rxPorts p t })) u).wv d m.val)
    pure .next

def execSendp (port : BitVec 2) (b : VReg) (s : State) := runM (sendPort port.toNat (s.rv b)) s
def execRecvp (d : VReg) (port : BitVec 2) (s : State) := runM (recvPort d port.toNat) s

/-- PORT_TRANSFER (R324): the oldest message of a send side moves to the opposite receive side, where a slot is free and the core runs a
lower-class member of the sender's kernel. The instructions that wait on either side go on. -/
def execPortTransfer (u : Nat) (port : BitVec 2) (s : State) : Host.Outcome State Fault Refusal :=
  let p := port.toNat
  let (v, q) := portPeer u p
  .next (match portList (s.core u).txPorts p with
    | [] => s
    | m :: t =>
      if portClosed s u p ∨ 4 ≤ (portList (s.core v).rxPorts q).length ∨ inGang s v = false ∨ (s.core v).ctx.kern ≠ m.kern
          ∨ s.holdsRecord (.net (clusterOf v)) = true then s
      else
        let s := s.modCore u (fun c => { c with txPorts := mset c.txPorts p t, wait := if c.wait = .sendPort p then .none else c.wait })
        s.modCore v (fun c => { c with rxPorts := mmod c.rxPorts q [] (fun l => l ++ [m]),
                                       wait := if c.wait = .recvPort q then .none else c.wait }))

end Sys2Proof.Machine
end

