-- ==== Sys2Proof/Machine/Windows.lean ====
section
/-! DEFINITION. Windows, the Beacon and the end of a kernel (R266 to R271, R283, R294, R336). -/

namespace Sys2Proof.Machine

/-! ## The phase of a window (R271) -/

/-- Where a parked update stands: in the slice's storage, or in the segment, by its number there. -/
inductive ParkPlace where
  | buffer (n : Nat)
  | record (n : Nat)
  deriving DecidableEq, Repr

/-- The parked updates of window k that a slice holds in its segment. -/
def parkedRecords (P slot : Nat) (d : StoreDecl) (k : Nat) : List (Option Nat × Nat) → State →
    Except RecStop (List (Item × ParkPlace) × State)
  | [], s => .ok ([], s)
  | (w, n) :: t, s =>
    if w = some k then do
      let (bs, s) ← readRecord s P d ((s.slice P slot).head + n)
      let (l, s) ← parkedRecords P slot d k t s
      pure ((itemOf bs, .record n) :: l, s)
    else parkedRecords P slot d k t s

/-- The parked update of window k of lowest order tag. -/
def nextParked (s : State) (P slot : Nat) (d : StoreDecl) (k : Nat) : Except RecStop (Option (Item × ParkPlace) × State) := do
  let y := s.slice P slot
  let mine := (y.parked.zip (below y.parked.length)).filter (fun p => p.1.1 == k)
  let own := mine.map (fun p => ((⟨p.1.2.key, p.1.2.val, p.1.2.vt, p.1.2.tag⟩ : Item), ParkPlace.buffer p.2))
  let (recs, s) ← parkedRecords P slot d k (y.wins.zip (below y.wins.length)) s
  pure (bestBy (fun a b => a.1.tag.below b.1.tag) (own ++ recs), s)

/-- Step 1: the parked updates of window k fold in ascending order tag; the answer says whether it was suspended at one that finds the segment
full. One taken from a record leaves a place there, and the whole step is held while the write of what it evicts waits. `n` bounds the updates. -/
def foldWindow (P slot : Nat) (d : StoreDecl) (k : Nat) : Nat → State → Except RecStop (Bool × State)
  | 0, s => .ok (false, s)
  | n + 1, s => do
    match ← nextParked s P slot d k with
    | (none, s) => pure (false, s)
    | (some (x, .buffer j), s) =>
      match foldIn s P slot d x with
      | none => pure (true, s)
      | some s => foldWindow P slot d k n (s.modSlice P slot (fun y => { y with parked := dropAt y.parked j }))
    | (some (_, .record j), s) =>
      let (x, s) ← takeRecord s P slot d j
      match foldIn s P slot d x with
      | none => .error .held
      | some s => foldWindow P slot d k n s

/-- Steps 1 to 3 of the phase of window k: what is left to seal goes to the Sluice, and a phase with nothing left ends (R271). -/
def phaseStep (s : State) (P slot : Nat) (d : StoreDecl) (k : Nat) : State :=
  let y := s.slice P slot
  let stop := fun (e : RecStop) => match e with | .poison => sliceFails s P | .held => s
  match foldWindow P slot d k (y.parked.length + y.wins.length) s with
  | .error e => stop e
  | .ok (suspended, s1) =>
    match refill P slot d (s1.slice P slot).recs s1 with
    | .error e => stop e
    | .ok s2 =>
      let ready := (sortBy (sealsFirst d.opr) ((s2.slice P slot).entries.filter (eligible d))).map (fun e => e.key)
      if ready.isEmpty && !suspended then s2.modSlice P slot (fun y => { y with busy := none, phase := some k })
      else s2.modSlice P slot (fun y => { y with busy := some k, sealing := ready })

/-- The last window that a published bound has closed (R267). -/
def lastClosed (b w : Nat) : Option Nat :=
  if b = 2 ^ 64 - 1 then some (b / w) else if b < w then none else some (b / w - 1)

/-- The windows in which a slice has updates parked for a store. -/
def SliceStore.windows (y : SliceStore) : List Nat := y.parked.map (fun p => p.1) ++ y.wins.filterMap (fun w => w)

/-- The later of two windows. -/
def laterWindow (a b : Option Nat) : Option Nat :=
  match a, b with
  | some x, some y => some (max x y)
  | none, y => y
  | x, none => x

/-- The bound up to which a store's phases may go: those of the slice come in window order, so no closed window of another store with parked updates may end before
them (R271). -/
def phaseBound (s : State) (P slot : Nat) : Nat :=
  let b := s.beaconB.toNat
  let ends := s.stores.flatMap (fun (x : Nat × StoreDecl) =>
    if x.1 = slot ∨ x.2.det = 0 then [] else (s.slice P x.1).windows.map (windowEnd x.2.win))
  ends.foldl min b

/-- The window whose phase of a store is next to do something: the earliest open one where entries, that a change of the map has brought together, can be refilled
or sealed, and its lowest parked one, whichever comes first (R271, R283). -/
def nextWindow (b : Nat) (y : SliceStore) (d : StoreDecl) : Option Nat :=
  let own := if y.entries.any (eligible d) || (decide (y.entries.length < d.cap / 2) && y.wins.any (fun w => w.isNone)) then [earliestOpen b d.win y.phase] else []
  bestBy (fun a c => decide (a < c)) (own ++ y.windows)

/-- The next step of a slice for a store at D1 and above: it goes on with the phase it is in, begins that of its next window when that has closed, no other phase
of the slice runs and no earlier window of the slice is left, or ends at once the phases that find nothing to do (R271). -/
def windowStep (s : State) (P slot : Nat) (d : StoreDecl) : State :=
  let y := s.slice P slot
  let b := phaseBound s P slot
  let ended := s.modSlice P slot (fun y => { y with phase := laterWindow y.phase (lastClosed b d.win) })
  if !y.sealing.isEmpty then s
  else match y.busy with
    | some k => phaseStep s P slot d k
    | none =>
      if (s.cluster P).slices.any (fun p => p.2.busy.isSome) then s
      else match nextWindow s.beaconB.toNat y d with
        | some k => if windowClosed b d.win k then phaseStep s P slot d k else ended
        | none => ended

/-- WINDOW_PHASE (R271, R321): the slice's step, and then the delivery of the parked messages whose windows have ended. -/
def execWindowPhase (cl slot : Nat) (s : State) : Host.Outcome State Fault Refusal :=
  let s := match mfind s.stores slot with
    | some d => if d.det = 0 then s else windowStep s cl slot d
    | none => s
  .next (deliverParked s cl)

/-! ## B and Q (R266, R269, R336) -/

/-- Whether a kernel holds a declared store. -/
def holdsStore (s : State) (k : KKey) : Bool := s.stores.any (fun x => x.2.kern == k)

/-- The dispatch VT of a pending entry that is eligible: at D0 as R268 computes it; at D1 and above as the phase that will seal it does, which outside a phase is
that of the earliest open window. -/
def dispatchTerm (s : State) (d : StoreDecl) (y : SliceStore) (e : Entry) : Nat :=
  if d.det = 0 then min (max (e.vmax.toNat / d.win + 1) (s.beaconB.toNat / d.win) * d.win) (2 ^ 64 - 1)
  else windowEnd d.win (y.busy.getD (earliestOpen s.beaconB.toNat d.win y.phase))

/-- What a slice's store adds to the minimum of R266. -/
def sliceTerms (s : State) (d : StoreDecl) (y : SliceStore) : List Nat :=
  y.windows.map (windowEnd d.win) ++ (y.busy.toList.map (windowEnd d.win)) ++ (y.entries.filter (eligible d)).map (dispatchTerm s d y)

/-- The virtual times of what a cache entry holds off its core: a saved gang's members', a stowed task's as its image holds it, and that of an activation, or of a task
that has run before, which waits for its start (R266, R351; log entry 65). -/
def offCoreVts (s : State) (P i : Nat) (t : Task) : List Nat :=
  if t.kind.gang then t.members.map (fun m => (imageDw m.2.image 0x580).toNat)
  else if t.stowed then [((readImage s P i t).elim t.vt (fun r => imageDw r.1 0x580)).toNat]
  else if t.status != .running && (t.act.isSome || t.lastOn.isSome) then [t.vt.toNat]
  else []

/-- The virtual times of a cluster's sealed activations that are on no core, and of its tasks that have left theirs (R266; log entry 65). -/
def waitingActs (s : State) (P : Nat) : List Nat :=
  let c := s.cluster P
  (c.tcbs.filter (fun t => holdsStore s t.2.kern)).flatMap (fun t => offCoreVts s P t.1 t.2)
    ++ (c.backlog.filter (fun t => (t.act.isSome || t.lastOn.isSome) && holdsStore s t.kern)).map (fun t => t.vt.toNat)

/-- The messages that are still to be delivered: in flight, on a port's send side, and at D0 in a cluster's buffer (R266, R318, R324). -/
def undelivered (s : State) : List Msg :=
  s.msgs ++ s.cores.flatMap (fun c => c.2.txPorts.flatMap (fun p => p.2))
    ++ s.clusters.flatMap (fun c => (c.2.msgBuf.filter (fun b => b.msg.det == 0 && !b.back)).map (fun b => b.msg))

/-- Whether a request is a store or an atomic that another device has still to perform (R336). -/
def Req.isStoreAway (r : Req) : Bool :=
  match r.kind with
  | .far _ _ _ => r.done.isNone
  | _ => false

/-- The terms of the minimum that the package's part of the tree takes (R266, R336). -/
def beaconTerms (s : State) : List Nat :=
  (s.cores.filter (fun p => p.2.task.isSome && holdsStore s p.2.ctx.kern)).map (fun p => p.2.vt.toNat)
    ++ (s.upds.filter (fun u => holdsStore s u.kern)).map (fun u => u.vt.toNat)
    ++ (s.fansOut.filter (fun f => holdsStore s f.kern)).map (fun f => f.vt.toNat)
    ++ ((undelivered s).filter (fun m => holdsStore s m.kern)).map (fun m => m.vt.toNat)
    ++ (s.reqs.filter (fun r => r.isStoreAway && holdsStore s r.kern)).map (fun r => r.vt.toNat)
    ++ s.clusters.flatMap (fun c =>
        s.stores.flatMap (fun x => sliceTerms s x.2 (mget c.2.slices x.1 SliceStore.empty))
          ++ (c.2.parkedM.filter (fun m => holdsStore s m.kern)).map Msg.due
          ++ waitingActs s c.1)

/-- The child devices that are not lost (R336, R368). -/
def liveChildren (s : State) : List ChildRec := (s.net.children.filter (fun p => !p.2.lost)).map (fun p => p.2)

/-- The bound that the tree computes from the package and its children. -/
def beaconMin (s : State) : Nat :=
  (beaconTerms s ++ (liveChildren s).map (fun c => c.last.b.toNat)).foldl min (2 ^ 64 - 1)

/-- Whether the stores that a condition picks are quiet: nothing eligible, parked or in a segment (R269). -/
def storesQuiet (s : State) (p : StoreDecl → Bool) : Bool :=
  s.stores.all (fun x => !p x.2 || s.clusters.all (fun c =>
    let y := mget c.2.slices x.1 SliceStore.empty
    y.parked.isEmpty && y.recs == 0 && y.busy.isNone && !(y.entries.any (eligible x.2))))

/-- Whether no traffic of the kernels that a condition picks is in flight or parked, ports aside, whose messages end with their kernel (R269, R324; log entry 27). -/
def trafficQuiet (s : State) (p : KKey → Bool) : Bool :=
  s.upds.all (fun u => !p u.kern) && s.fansOut.all (fun f => !p f.kern) && s.msgs.all (fun m => !p m.kern)
    && s.clusters.all (fun c => c.2.parkedM.all (fun m => !p m.kern))

/-- Whether no activation runs or waits after its seal, in a cache or a backlog. -/
def noActivation (s : State) : Bool :=
  s.clusters.all (fun c => c.2.tcbs.all (fun t => t.2.act.isNone) && c.2.backlog.all (fun t => t.act.isNone))

/-- Whether no message of a store-holding kernel stands on a port's send side (R269, R324). -/
def portsQuiet (s : State) : Bool := s.cores.all (fun c => c.2.txPorts.all (fun p => p.2.all (fun m => !holdsStore s m.kern)))

/-- The remote stores and atomics sent and performed, over the package and its children (R336). -/
def remoteTotals (s : State) : Nat × Nat :=
  (liveChildren s).foldl (fun n c => (n.1 + c.last.sent, n.2 + c.last.performed)) (s.net.sent, s.net.performed)

/-- Quiescence as a device reports it: the package's own and its children's (R269, R336). -/
def quiescent (s : State) : Bool :=
  noActivation s && trafficQuiet s (holdsStore s) && portsQuiet s && storesQuiet s (fun _ => true) && (liveChildren s).all (fun c => c.last.q)

/-- The Beacon record of the device: the least B and the AND of the Q of it and its children, with their counts (R336). -/
def ownRecord (s : State) : BeaconRec :=
  let t := remoteTotals s
  { b := word (beaconMin s), q := quiescent s, sent := t.1, performed := t.2, round := s.net.round, epoch := s.net.epoch }

/-- The B and Q that the device takes from the tree: its own as root, with equal counts in two successive rounds for Q; else those that the root has published
(R336). -/
def treeResult (s : State) : Word × Bool :=
  let r := ownRecord s
  let settled := r.sent == r.performed && (r.sent, r.performed) == s.net.totals
  if s.net.parent.isSome then s.net.global else (r.b, r.q && settled)

/-- BEACON_PUBLICATION (R22, R266, R269, R280, R336): the device publishes B and Q to its cores, and its record goes to its parent, or its result, as the root's, to its
children. -/
def execBeaconPublication (s : State) : Host.Outcome State Fault Refusal :=
  let (b0, q) := treeResult s
  let b := if s.stores.isEmpty then 0 else max s.beaconB.toNat b0.toNat
  let net := { s.net with totals := remoteTotals s, round := s.net.round + 1, up := some (ownRecord s), global := (b0, q) }
  .next ({ s with beaconB := word b, beaconQ := q, net := net }.mapCores (fun _ c => { c with sentSince := false }))

/-! ## Kernel completion (R283, R294) -/

/-- Whether a kernel has a member left, or an active message that becomes one. -/
def hasMember (s : State) (k : KKey) : Bool :=
  s.clusters.any (fun c => c.2.tcbs.any (fun t => t.2.kern == k) || c.2.backlog.any (fun t => t.kern == k)
      || c.2.parkedM.any (fun m => m.active && m.kern == k))
    || s.msgs.any (fun m => m.active && m.kern == k)

/-- Whether a kernel can complete (R283, R294): its members' stores have been performed, those to other devices among them, since the end of each member released
the rest. -/
def canComplete (s : State) (k : KKey) (x : Kernel) : Bool :=
  x.lastk && !x.ended && !hasMember s k && s.reqs.all (fun r => r.kern != k || r.done.isSome)
    && (!holdsStore s k || (storesQuiet s (fun d => d.kern == k) && trafficQuiet s (fun j => j == k)))

/-- KERNEL_COMPLETE (R294, R300, R317): the stores are dropped, the messages held for it are discarded and counted, and its completion record
is formed. -/
def execKernelComplete (q : Nat) (s : State) : Host.Outcome State Fault Refusal :=
  .next (match (mfind s.queues q).bind (fun x => x.kern) with
    | none => s
    | some x =>
      let k : KKey := ⟨q, x.kid⟩
      if canComplete s k x then
        let s := forgetSeq (dropMessages (dropStores s (fun d => d.kern == k)) k) k
        let s := completeRec s q { unit := 0, cause := .none, kid := x.kid, members := x.run, pc := 0 }
        s.modQueue q (fun y => { y with kern := none })
      else s)

end Sys2Proof.Machine
end

