-- ==== Sys2Proof/Machine/Preempt.lean ====
section
/-! DEFINITION. Pre-emption (R239, R306, R349 to R354), the tile save, and what becomes of the task of a core that is killed or torn (R27,
R28, R340, R359). -/

namespace Sys2Proof.Machine

/-! ## The tile image (R239) -/

/-- Bytes of a tile save image. -/
def tileImageSize : Nat := 790528

/-- The state word of a slot. -/
def slotWord (x : Slot) : Nat :=
  x.kind + (if x.nan then 16 else 0) + 2 ^ 5 * x.sat4 + 2 ^ 18 * x.und4 + 2 ^ 31 * x.sat8 + 2 ^ 44 * x.und8

/-- The drain ring as the image holds it: the slots that hold no unclaimed element are 0. -/
def Tile.unclaimed (t : Tile) : AMap (BitVec 32) :=
  t.drain.filter (fun p => decide ((p.1 / 4096 + 8 - t.dhead.toNat % 8) % 8 < drainFill t))

/-- The bytes of `n` 32-bit elements. -/
def elementsOf (m : AMap (BitVec 32)) (n : Nat) : List Byte := (mrange m 0 n 0).flatMap (fun x => leBytes 4 x.toNat)

/-- The 790,528 bytes of a tile's image. -/
def tileImage (t : Tile) : List Byte :=
  elementsOf t.acc 32768 ++ mrange t.blocks 0 524288 0
    ++ (below 128).flatMap (fun k => leBytes 8 (slotWord (t.slot k)))
    ++ t.sel.toList.flatMap (fun x => leBytes 1 x.toNat)
    ++ [t.monb, t.cncd, t.monc, t.mrepl].flatMap (fun x => leBytes 8 x.toNat)
    ++ t.sems.toList.flatMap (fun x => leBytes 2 x.toNat)
    ++ leBytes 8 (t.dhead.toNat + 2 ^ 32 * t.dtail.toNat) ++ List.replicate 2992 0
    ++ elementsOf t.unclaimed 32768

/-- The tag of an image's sector: F32 blocks carry 0x1000, and the rest 0x0000 (R239; log entry 79). -/
def tileImageTag (k : Nat) : Half := if k < 0x20000 / 64 ∨ 0xA1000 / 64 ≤ k then 0x1000 else 0

/-- Sectors stored one after another, each with its tag. -/
def storeSectors (w : Who) (tag : Nat → Half) : Nat → Nat → Word → List Byte → M Unit
  | 0, _, _, _ => pure ()
  | n + 1, k, va, bs => do
    storeBytes w .sector va (bs.take 64) (some (tag k)) false
    storeSectors w tag n (k + 1) (va + 64) (bs.drop 64)

/-- The format code of a slot's KIND (R216). -/
def kindCode (k : Nat) : Nat :=
  match k with
  | 1 => 0x30
  | 2 => 0x20
  | 3 => 0x21
  | 4 => 0x22
  | 5 | 7 => 0x11
  | 6 => 0x12
  | _ => 0

/-- A slot from its state word and the sector scales that the device keeps beside the image (log entry 28). -/
def slotFrom (w : Word) (scales : List Int) : Slot :=
  { kind := fld w 3 0, code := kindCode (fld w 3 0), scales := scales, sat4 := fld w 17 5, und4 := fld w 30 18, sat8 := fld w 43 31,
    und8 := fld w 56 44, nan := bitAt w 4 }

/-- The 32-bit elements in a part of an image. -/
def elementsFrom (bs : List Byte) (off n : Nat) : AMap (BitVec 32) :=
  mput [] 0 n ((below n).map (fun k => BitVec.ofNat 32 (leNat ((bs.drop (off + 4 * k)).take 4)))) 0

/-- A tile from its image, whose reserved bits the registers do not take (R218, R365); the gang's members find it as they left it. -/
def Tile.loaded (bs : List Byte) (scales : Nat → List Int) (gang : Nat) : Tile :=
  let slots := (below 128).map (fun k => (k, slotFrom (imageDw bs (0xA0000 + 8 * k)) (scales k)))
  let head := BitVec.ofNat 32 (fld (imageDw bs 0xA0448) 31 0)
  { Tile.reset with
    acc := elementsFrom bs 0 32768,
    sel := Vector.ofFn (fun (k : Fin 8) => BitVec.ofNat 7 ((bs.getD (0xA0400 + k.val) 0).toNat)),
    slots := slots.filter (fun p => p.2 ≠ slotFrom 0 []),
    blocks := mput [] 0 524288 ((bs.drop 0x20000).take 524288) 0,
    monb := word (fld (imageDw bs 0xA0408) 49 0), cncd := word (fld (imageDw bs 0xA0410) 5 0),
    monc := word (fld (imageDw bs 0xA0418) 51 0), mrepl := imageDw bs 0xA0420,
    dhead := head, dclaim := head, dtail := BitVec.ofNat 32 (fld (imageDw bs 0xA0448) 63 32),
    drain := elementsFrom bs 0xA1000 32768,
    sems := Vector.ofFn (fun (k : Fin 16) => BitVec.ofNat 16 (leNat ((bs.drop (0xA0428 + 2 * k.val)).take 2))),
    gang := some gang }

/-- The rank of a tile in its gang, and the address of its image: a cluster gang's images follow one another (log entry 28). -/
def tileRank (t : Task) (tile : Nat) : Nat := if t.kind = .clusterGang then tile % 8 else 0
def tileSaveVa (t : Task) (tile : Nat) : Word := t.tsave + word (tileImageSize * tileRank t tile)

/-! ## TILE_SAVE, TILE_SAVE_REFUSED, TILE_RELOAD -/

/-- The tiles of a cluster that hold a gang. -/
def gangTiles (s : State) (P i : Nat) : List Nat := (upFrom (8 * P) 8).filter (fun t => (s.tile t).gang == some i)

/-- Whether a tile's unit has come to rest: no command, no follow-on, here or on its way, and no claimed drain element (R239; log entry 78). -/
def tileQuiet (s : State) (tile : Nat) : Bool :=
  let t := s.tile tile
  t.queue.isEmpty && t.follow.isEmpty && t.jobs.isEmpty
    && s.engines.all (fun e => e.2.all (fun c => c.fn != .copym || tileOf c.sender != tile))

/-- Whether a member's image says that its trap is open, or that it has been stowed out and not made ready (R348, R351). -/
def Member.trapped (m : Member) : Bool := bitAt (imageDw m.image 0x5C0) 3

/-- The end of a gang's stowing: its tiles are given up, and it returns to the head of its level, or stays out of the levels while a member's
trap is open (R305, R307, R349). -/
def gangSaved (s : State) (P i : Nat) : State :=
  let s := (gangTiles s P i).foldl (fun s t => s.modTile t (fun x => { x with gang := none })) s
  match mfind (s.cluster P).tcbs i with
  | none => s
  | some t =>
    let held := t.members.any (fun m => m.2.trapped)
    let s := writeTcbState (s.modTask P i (fun t => { t with stowed := true, lastAt := s.now })) P t.tcba 1
    if held then s.modTask P i (fun t => { t with status := .trapped }) else enterLevel s P i true

/-- TILE_SAVE (R239). An accumulator or a slot that an error has struck cannot be saved, and the gang's kernel ends with POISON (log entry 64). -/
def execTileSave (tile : Nat) (s : State) : Host.Outcome State Fault Refusal :=
  let P := tile / 8
  let x := s.tile tile
  .next (match x.saveFrom, x.gang with
    | some _, some i =>
      match mfind (s.cluster P).tcbs i with
      | none => s
      | some t =>
        if tileQuiet s tile = false then s
        else if x.bad ≠ [] then endKernel s t.kern .poison 0 (s.unitId (4 * tile))
        else match storeSectors (engineWho none P) tileImageTag (tileImageSize / 64) 0 (tileSaveVa t tile) (tileImage x) s with
          | .error e => (waitFor s (.area P i) (.error e : Except Stop Unit)).2
          | .ok (_, s) =>
            let metas := x.slots.map (fun p => (128 * tileRank t tile + p.1, (p.2.code, p.2.scales)))
            let s := s.modTask P i (fun t => { t with slotMeta := metas.foldl (fun m p => mset m p.1 p.2) t.slotMeta })
            let s := s.modTile tile (fun x => { x with saveFrom := none })
            if (gangTiles s P i).all (fun k => (s.tile k).saveFrom.isNone) then gangSaved s P i else s
    | _, _ => s)

/-- The record of a refused stow, which concerns no instruction (R239, R307, R345). -/
def preemptRecord (s : State) (u sub : Nat) (kid : BitVec 32) : TrapRecord :=
  { lateRecord s u sub 0 0 0 0 0 kid with cause := .preempt, late := false }

/-- Writes a record that no instruction of core u forms into the core's reserved slot, or keeps it until the slot is free (R345, R346, R359). -/
def writeOwed (s : State) (u : Nat) (r : TrapRecord) : State :=
  let P := clusterOf u
  if (mfind (s.cluster P).mailbox (inCluster u)).isNone then
    (s.modCluster P (fun c => { c with mailbox := mset c.mailbox (inCluster u) r })).modCore u (fun c => { c with owed := none })
  else s.modCore u (fun c => { c with owed := some r })

/-- The reservations of some cores are given up. -/
def dropReserv (s : State) (P : Nat) (us : List Nat) : State :=
  s.modCluster P (fun c => { c with reserv := c.reserv.filter (fun r => !r.cores.any (fun u => us.contains u)) })

/-- A saved gang member takes its seat again at once, in its trap where it has one (R239, R349). -/
def memberBack (s : State) (P i rank : Nat) (t : Task) (m : Member) : State :=
  let u := t.lastOn.getD (32 * P) + rank
  let m := { m with image := ((memberImage s P i rank t m).map (fun x => x.1)).getD m.image }
  fillInbox ((restoreOn s u i rank t m).modCore u (fun c =>
    { c with status := match m.trapRec with | some r => .trapped r | none => .running })) u

/-- A gang whose save is refused: its members run on where they ran, and the reservation that pre-empted it is given up. -/
def gangBack (s : State) (P i : Nat) (t : Task) : State :=
  let tiles := gangTiles s P i
  let s := tiles.foldl (fun s k => s.modTile k (fun x => { x with saveFrom := none })) s
  let s := t.members.foldl (fun s (m : Nat × Member) => memberBack s P i m.1 t m.2) s
  let s := (membersOf s P i).foldl (fun s u => s.modCore u (fun c => { c with stowing := none })) s
  dropReserv (s.modTask P i (fun t => { t with status := .running, members := [] })) P (tiles.flatMap coresOfTile)

/-- TILE_SAVE_REFUSED (R239): the unit has not come to rest within 2^20 cycles. The record goes to the reserved slot of the tile's first core (R345). -/
def execTileSaveRefused (tile : Nat) (s : State) : Host.Outcome State Fault Refusal :=
  let P := tile / 8
  let u := 4 * tile
  .next (match (s.tile tile).saveFrom, (s.tile tile).gang with
    | some since, some i =>
      match mfind (s.cluster P).tcbs i with
      | some t =>
        if since + 2 ^ 20 ≤ s.now ∧ (s.core u).owed.isNone = true then writeOwed (gangBack s P i t) u (preemptRecord s u 1 t.kern.kid) else s
      | none => s
    | _, _ => s)

/-- TILE_RELOAD (R239): a tile reserved for a saved gang, with its cores free and its unit at rest, takes the gang's image back; an image that returns POISON ends the
gang's kernel. -/
def execTileReload (tile : Nat) (s : State) : Host.Outcome State Fault Refusal :=
  let P := tile / 8
  let us := coresOfTile tile
  let fits := fun (r : Reservation) =>
    (s.tile tile).atRest && us.all (fun u => r.cores.contains u && (s.core u).status == .free) &&
      (match mfind (s.cluster P).tcbs r.idx with
       | some t => t.kind.gang && t.stowed && t.status == .ready
       | none => false)
  .next (match (s.cluster P).reserv.find? fits, (s.tile tile).gang with
    | some r, none =>
      match mfind (s.cluster P).tcbs r.idx with
      | none => s
      | some t =>
        match loadBytes (engineWho none P) (tileSaveVa t tile) tileImageSize s with
        | .ok (bs, s) =>
          let scales := fun (k : Nat) => ((mfind t.slotMeta (128 * tileRank t tile + k)).map (fun m => m.2)).getD []
          ((s.tile tile).queue.foldl settle s).modTile tile (fun _ => Tile.loaded bs scales r.idx)
        | .error (.trap x) => if x.cause = .poison then endKernel s t.kern .poison 0 (s.unitId (4 * tile)) else s
        | .error e => (waitFor s (.area P r.idx) (.error e : Except Stop Unit)).2
    | _, _ => s)

/-! ## PREEMPT_STOW (R306, R349, R350, R353) -/

/-- Whether core u is reserved for a gang of a higher level than its work. -/
def reservedAbove (s : State) (u : Nat) : Bool :=
  match reservedFor s u, s.taskOf u with
  | some i, some t => (s.core u).task != some i && decide (t.pri < priOf s (clusterOf u) i)
  | _, _ => false

/-- Whether core u's work is to be pre-empted: its core is reserved above it, or, for a gang member, some member's is (R239, R306). -/
def preempted (s : State) (u : Nat) : Bool :=
  match (s.core u).task, s.taskOf u with
  | some i, some t =>
    if t.kind.gang then t.status == .stowed || (membersOf s (clusterOf u) i).any (reservedAbove s) else reservedAbove s u
  | _, _ => false

/-- A gang member leaves its core: image, bindings, inbox and receive sides (R350, R351; log entry 58). None where the stow area does not take the image. -/
def saveMember (s : State) (u i : Nat) (t : Task) (trap : Option TrapRecord) : Option State :=
  let P := clusterOf u
  let s := releaseTo (dropWait (latchExpired s u) u) u 4
  let c := s.core u
  let img := stowImage s u c.pc c.ctx.latched trap.isSome (min 16 c.spilled.length)
  let m : Member := { image := img, handles := c.h.toList, msgs := c.inbox, ports := c.rxPorts, trapRec := trap, arrived := c.ctx.arrived }
  let o := if c.ctx.rank = 0 then (writeImage s P i t 0 img).map (fun s => writeContext s P i (c.spilled.take 16)) else some s
  o.map (fun s => (s.modTask P i (fun t => { t with members := mset t.members c.ctx.rank m })).modCore u Core.vacated)

/-- A stow that its area refuses: the core goes on, the reservation that pre-empted it is given up, and its supervisor receives PREEMPT (R307; log entry 29). -/
def refuseStow (s : State) (u : Nat) : State :=
  writeOwed (dropReserv (s.modCore u (fun c => { c with stowing := none })) (clusterOf u) [u]) u (preemptRecord s u 0 (s.core u).ctx.kern.kid)

/-- The pre-emption of a gang member; with the last one the tiles' saves begin (R239). -/
def stowMember (s : State) (u i : Nat) (t : Task) (trap : Option TrapRecord) : State :=
  let P := clusterOf u
  match if (s.core u).ctx.rank = 0 then stowArea s P i t else (false, s) with
  | (true, s) => holdStow s u .preempt
  | (false, s) =>
    match saveMember s u i t trap with
    | none => refuseStow (gangBack s P i t) u
    | some s =>
      let s := s.modTask P i (fun t => { t with status := .stowed })
      if (membersOf s P i).isEmpty then
        (gangTiles s P i).foldl (fun s k => s.modTile k (fun x => { x with saveFrom := some s.now })) s
      else s

/-- The stow of every other task: its activation's outbox is released, and the stow is written (R350). It goes on after this step where one of them waits; none
where the stow area refuses the image. -/
def stowAlone (s : State) (u i : Nat) (t : Task) (trap : Option TrapRecord) (why : StowWhy) : Option State :=
  match if isAct s u then releaseEarly s u else (false, s) with
  | (true, s) => some (holdStow s u why)
  | (false, s) =>
    match stowArea s (clusterOf u) i t with
    | (true, s) => some (holdStow s u why)
    | (false, s) => stowOn s u trap

/-- Its pre-emption: it returns to the head of its level, or stays out of the levels while its trap is open (R305, R349). -/
def stowTask (s : State) (u i : Nat) (t : Task) (trap : Option TrapRecord) : State :=
  match stowAlone s u i t trap .preempt with
  | some s' => if trap.isNone ∧ (s'.core u).task.isNone = true then enterLevel s' (clusterOf u) i true else s'
  | none => refuseStow s u

/-- STOWOUT's stow of a task that is parked on a trap, a gang member among them, whose gang runs on (R348; log entry 67): CCMD[6] is set where the stow area refuses
it. -/
def stowOut (s : State) (u i : Nat) (t : Task) (r : TrapRecord) : State :=
  let o := if t.kind.gang then
      (match if (s.core u).ctx.rank = 0 then stowArea s (clusterOf u) i t else (false, s) with
       | (true, s) => some (holdStow s u (.stowOut r))
       | (false, s) => saveMember s u i t (some r))
    else stowAlone s u i t (some r) (.stowOut r)
  o.getD (s.modCore u (fun c => { c with stowing := none, ccmd := c.ccmd ||| 64 }))

/-- The end of the stow of core u's task, or its going on (R350). -/
def goOnStow (s : State) (u : Nat) (why : StowWhy) : State :=
  match (s.core u).task, s.taskOf u with
  | some i, some t =>
    match why with
    | .yield => yieldStow s u i
    | .ship va => shipContext s u va
    | .stowOut r => stowOut s u i t r
    | .preempt =>
      let trap := match (s.core u).status with | .trapped r => some r | _ => none
      if t.kind.gang then stowMember s u i t trap else stowTask s u i t trap
  | _, _ => s

/-- Whether core u's work stands where it can be stowed: it runs and awaits no reply, or is parked on a trap (R350). -/
def canStow (s : State) (u : Nat) : Bool :=
  match (s.core u).status with
  | .running => !(s.core u).awaitsReply
  | .trapped _ => true
  | _ => false

/-- PREEMPT_STOW: the core waits for the replies that its instruction awaits, and is then stowed; a stow of any kind that has begun goes on. -/
def execPreemptStow (u : Nat) (s : State) : Host.Outcome State Fault Refusal :=
  .next (match (s.core u).stowing with
    | some (why, _) => if cutOff s u then s else goOnStow s u why
    | none =>
      if preempted s u && canStow s u && (s.core u).owed.isNone then
        match beginStow s u .preempt with
        | (true, s) => goOnStow s u .preempt
        | (false, s) => s
      else s)

/-! ## Sealing a core, and the fate of its task (R27, R28, R354, R359) -/

/-- The cores that wait on a port joined to core u, which closes: their SENDP or RECVP raises RING_FAULT (R27, R324). -/
def closePorts (s : State) (u : Nat) : State :=
  (below 4).foldl (fun s p =>
    let (v, q) := portPeer u p
    if (s.core v).wait = .sendPort q ∨ (s.core v).wait = .recvPort q then takeTrap s v ringTrap else s) s

/-- Core u takes no further work: its retired stores take effect, its requests go on without it, its handles are unbound, and the children in its
deque return to their levels (R27, R28, R139, R193, R261). -/
def sealCore (s : State) (u : Nat) : State :=
  let P := clusterOf u
  let s := releaseHandles (orphan (releaseStopped (dropWait s u) u 4) u) u
  let s := (s.core u).deque.reverse.foldl (fun s i => enterLevel s P i false) s
  let s := s.modCluster P (fun c => { c with reserv := c.reserv.filter (fun r => !r.cores.contains u) })
  closePorts (s.modCore u (fun c => { c.freed with status := .quarantined, deque := [], rxPorts := [], txPorts := [] })) u

/-- What becomes of a task whose core is lost: one with a memory TCB and a restartable activation wait to be restarted; any other ends its
kernel with POISON and the core's unit ID (R27, R354). -/
def loseTask (s : State) (P i u : Nat) (pc : Word) (stow : Bool) : State :=
  match mfind (s.cluster P).tcbs i with
  | none => s
  | some t =>
    let s := if stow then writeTcbState s P t.tcba 2 else s
    let again := (t.tcba != 0 && !t.kind.gang) || (match t.act with | some a => !a.nrst | none => false)
    if again then
      (leaveLevels s P i).modTask P i (fun t =>
        { t with status := .torn, stowed := false, lastOn := some u, lastAt := s.now, handles := [], trapRec := none, msgs := [], ports := [] })
    else endKernel s t.kern .poison pc (s.unitId u)

/-- The core and its task are lost: the core is sealed, its task restarts or its kernel ends (R27, R359). -/
def loseCore (s : State) (u : Nat) (stow : Bool) : State :=
  let c := s.core u
  let s := sealCore s u
  match c.task with
  | some i => loseTask s (clusterOf u) i u c.pc stow
  | none => s

/-- CORE_KILL (R27, R359). -/
def execCoreKill (u : Nat) (s : State) : Host.Outcome State Fault Refusal :=
  .next (if sealedCore s u then s
    else
      let r := trapRecord s u { cause := .poison, sub := 1, rpc := .zero }
      writeOwed (loseCore s u false) u r)

/-- STOW_TEAR (R354): a stow that has not ended 4,096 cycles after its start, which comes after the last awaited reply. -/
def execStowTear (u : Nat) (s : State) : Host.Outcome State Fault Refusal :=
  .next (match (s.core u).stowing with
    | some (_, since) => if since + 4096 ≤ s.now then loseCore s u true else s
    | none => s)

/-! ## Restarting (R27, R261, R298, R340) -/

/-- Whether every request that a killed core had sent has taken effect, and its answer has been dropped (R340). -/
def requestsDone (s : State) (u : Nat) : Bool :=
  s.reqs.all (fun r => r.sender != u) && s.engines.all (fun e => e.2.all (fun c => c.sender != u))
    && s.streamers.all (fun x => x.2.queue.all (fun c => c.sender != u) && x.2.subs.all (fun b => b.2.jobs.all (fun j => j.cmd.sender != u)))
    && s.upds.all (fun x => x.core != u || x.tag.syn != 0) && s.fansOut.all (fun f => f.core != u) && s.clusters.all (fun c => c.2.ebq.all (fun a => a.core != u))

/-- A new admission of a task from its memory TCB with STATE 0, keeping its ordinal and binding; none where the TCB cannot be read or is no longer
one that admission accepts, or while the backlog is full (R296). -/
def readmit (s : State) (P i : Nat) : Option State :=
  match mfind (s.cluster P).tcbs i with
  | none => none
  | some t =>
    if t.tcba = 0 then none
    else
      let s := writeTcbState s P t.tcba 0
      match deviceRead s (engineWho none P) t.tcba 192 with
      | none => none
      | some (bs, s) =>
        let tcb : Tcb := ⟨dwordsOf bs 24⟩
        let Q := match tcb.named with | some L => physOf s L | none => P
        let s' := dropEntry s P i
        if tcb.ok s Q = false ∨ backlogRoom s' Q = false then none
        else some (admitTask s' Q { tcb.task s P t.kern t.tenant t.det (word t.ord.toNat) t.tcba t.bound with lastOn := t.lastOn })

/-- A torn task starts again: from its TCB, or an activation from its cache copy. -/
def restartTorn (s : State) (P i : Nat) : Option State :=
  match mfind (s.cluster P).tcbs i with
  | some t => if t.status ≠ .torn then none else if t.tcba ≠ 0 then readmit s P i else some (enterLevel s P i false)
  | none => none

/-- TASK_RESTART (R340). -/
def execTaskRestart (cl idx : Nat) (s : State) : Host.Outcome State Fault Refusal :=
  .next (match mfind (s.cluster cl).tcbs idx with
    | some t =>
      if (t.lastOn.map (requestsDone s)).getD true then (restartTorn s cl idx).getD s else s
    | none => s)

end Sys2Proof.Machine
end

