-- ==== Sys2Proof/Machine/Supervisor.lean ====
section
/-! DEFINITION. The supervisor's mailbox and commands (R342, R346 to R349), and the watchdog, margin, checker and soft-error steps of a core
(R23 to R25, R352, R355 to R358). -/

namespace Sys2Proof.Machine

/-! ## Mailboxes (R342, R346, R347) -/

/-- PRECISE_TRAP (R346, R359): a record that waits for its reserved slot is written when the slot is free, and the core parks. -/
def execPreciseTrap (u : Nat) (s : State) : Host.Outcome State Fault Refusal :=
  .next (match (s.core u).status, (s.core u).owed with
    | .stall r, _ => writeReserved s u r
    | _, some r => writeOwed s u r
    | _, none => s)

/-- HELD_RECORD_ENTER (R347): the record held longest enters the lowest free shared slot, with HELD = 1. -/
def execHeldRecordEnter (cl : Nat) (s : State) : Host.Outcome State Fault Refusal :=
  let c := s.cluster cl
  .next (match c.heldRecs, (upFrom 32 32).find? (fun k => (mfind c.mailbox k).isNone) with
    | (_, r) :: rest, some k =>
      s.setCluster cl { c with heldRecs := rest, mailbox := mset c.mailbox k { r with held := true } }
    | _, _ => s)

/-- MBSTAT_FREE (R342). -/
def execMbstatFree (cl : Nat) (slot : BitVec 6) (s : State) : Host.Outcome State Fault Refusal :=
  .next (s.modCluster cl (fun c => { c with mailbox := mdel c.mailbox slot.toNat }))

/-! ## What a command applies to (R348, R349) -/

/-- Whether a command to a core is still running: a STOWOUT whose stow has not ended. -/
def Core.ccmdBusy (c : Core) : Bool :=
  match c.stowing with
  | some (.stowOut _, _) => true
  | _ => false

/-- CCMD as it reads: the command and operand written last, [6] for one that did not fit, [7] while it runs (R348). -/
def Core.ccmdValue (c : Core) : Word := if c.ccmdBusy then c.ccmd ||| 128 else c.ccmd

/-- A command with its code and operand, and its end: one that does not fit the core's state, or comes while another runs, leaves the core as it was and sets CCMD[6],
and another clears it (R348; log entry 30). No supervisor runs in a quarantined cluster. -/
def commanded (u code : Nat) (operand : Word) (f : State → Option State) (s : State) : State :=
  let put := fun (bad : Nat) (s : State) => s.modCore u (fun c => { c with ccmd := word (code + bad + 2 ^ 8 * operand.toNat) })
  if s.quarCl.contains (clusterOf u) then s
  else match if (s.core u).ccmdBusy then none else f (put 0 s) with
    | some s => s
    | none => put 64 s

/-- The same as the step of a row of the opcode table. -/
def command (u code : Nat) (operand : Word) (f : State → Option State) (s : State) : Host.Outcome State Fault Refusal :=
  .next (commanded u code operand f s)

/-- The record that core u is parked on. -/
def parkedOn (s : State) (u : Nat) : Option TrapRecord :=
  match (s.core u).status with
  | .trapped r => some r
  | _ => none

/-- The task that was stowed while core u was parked on its trap, which a record's UNIT still names (R349): its entry and record; for a gang, the
saved member's rank as well. -/
def stowedTrap (s : State) (u : Nat) : Option (Nat × TrapRecord × Option Nat) :=
  (s.cluster (clusterOf u)).tcbs.findSome? (fun (p : Nat × Task) =>
    if p.2.kind.gang then
      (savedRank p.2 u).bind (fun r => (mfind p.2.members r).bind (fun m => m.trapRec.map (fun x => (p.1, x, some r))))
    else if p.2.status = .trapped ∧ p.2.lastOn = some u then p.2.trapRec.map (fun x => (p.1, x, none))
    else none)

/-- The stow image of a task, or of a gang's saved member, rewritten where it stands (R348, R350; log entry 58); a member keeps a copy of it. -/
def editImage (s : State) (P i : Nat) (t : Task) (rank : Option Nat) (f : List Byte → List Byte) : Option State :=
  let inMem := fun (s : State) => (readImage s P i t).bind (fun r => writeImage r.2 P i t 0 (f r.1))
  match rank with
  | none => inMem s
  | some k =>
    (mfind t.members k).bind (fun m =>
      let s := s.modTask P i (fun t => { t with members := mset t.members k { m with image := f m.image, trapRec := none } })
      if k = 0 then inMem s else some s)

/-- An image with TRAPPED clear (R348), and one at whose PC and loop registers RESUME continues (R349). -/
def clearedImage (img : List Byte) : List Byte := img.take 0x5C0 ++ [(img.getD 0x5C0 0) &&& 0xF7] ++ img.drop 0x5C1
def resumedImage (r : TrapRecord) (img : List Byte) : List Byte :=
  let c := (Core.reset.fromImage img).resumeAt r
  clearedImage (img.take 0x520 ++ [c.pc, c.lcnt, c.lbeg, c.lend].flatMap (fun x => leBytes 8 x.toNat) ++ img.drop 0x540)

/-- A stowed task goes to the head of its level. -/
def makeReady (s : State) (P i : Nat) : State :=
  enterLevel ((leaveLevels s P i).modTask P i (fun t => { t with trapRec := none })) P i true

/-- A saved gang goes to the head of its level once no member's image says TRAPPED (R349). -/
def gangReady (s : State) (P i : Nat) : State :=
  match mfind (s.cluster P).tcbs i with
  | some t => if t.status = .trapped ∧ t.members.all (fun m => !m.2.trapped) = true then enterLevel s P i true else s
  | none => s

/-! ## RESUME, STOWOUT, READY (R348, R349) -/

/-- The effect of RESUME: on a parked core, or on the task stowed from it, which continues at RPC on whatever core takes it. -/
def resumeTrap (u : Nat) (s : State) : Option State :=
  let P := clusterOf u
  match parkedOn s u with
  | some r => if r.rpc = 0 ∨ (s.core u).stowing.isSome = true then none else some (resumeCore s u r)
  | none =>
    match stowedTrap s u with
    | some (i, r, rank) =>
      if r.rpc = 0 then none
      else (mfind (s.cluster P).tcbs i).bind (fun t => (editImage s P i t rank (resumedImage r)).map (fun s =>
        if rank.isNone then makeReady s P i else gangReady s P i))
    | none => none

def execResume (u : Nat) (s : State) := command u 1 0 (resumeTrap u) s

/-- The effect of STOWOUT: the task is stowed under R350 with TRAPPED = 1 and is not ready; the stow may go on after this step, and a stow area that refuses the
image sets CCMD[6]. -/
def stowOutTrap (u : Nat) (s : State) : Option State :=
  match parkedOn s u, (s.core u).task, s.taskOf u with
  | some r, some i, some t =>
    if (s.core u).stowing.isSome then none
    else match beginStow s u (.stowOut r) with
      | (true, s) => some (stowOut s u i t r)
      | (false, s) => some s
  | _, _, _ => none

def execStowout (u : Nat) (s : State) := command u 2 0 (stowOutTrap u) s

/-- Whether a stowed task's record is one that the Urveop supervisor may take as a requeue request: TRAP SOFT with SUB 0 (R373). -/
def softRecord (r : Option TrapRecord) : Bool := r.any (fun x => x.cause == .soft && x.sub == 0)

/-- g1 of an image, and the address at which a requeued task goes on: a nonzero even one (R373). -/
def imageG1 (img : List Byte) : Word := imageDw img 0x408
def requeues (img : List Byte) : Bool := imageG1 img != 0 && !bitAt (imageG1 img) 0

/-- An image as the supervisor edits it for a requeue: g1 becomes the PC and 0 stands in g1 (R373). -/
def requeuedImage (img : List Byte) : List Byte :=
  clearedImage (img.take 0x408 ++ List.replicate 8 0 ++ (img.drop 0x410).take 0x110 ++ (img.drop 0x408).take 8 ++ img.drop 0x528)

/-- The edit that READY finds done in the image of a task or a member with a record (R348, R373). -/
def readyImage (r : Option TrapRecord) : List Byte → List Byte := if softRecord r then requeuedImage else clearedImage
/-- Whether the supervisor ends the kernel in READY's place: for a record that it takes as a requeue request with no address in g1 (R373). -/
def refusesReady (r : Option TrapRecord) (img : List Byte) : Bool := softRecord r && !requeues img

/-- READY for a gang whose members the supervisor has stowed out: saved as a whole, it goes to the head of its level; else its members return to their seats (log
entry 67). -/
def readyGang (s : State) (P i : Nat) (t : Task) : Option State :=
  match t.members.find? (fun m => refusesReady m.2.trapRec m.2.image), t.members.foldl (fun (o : Option State) (m : Nat × Member) => o.bind (fun s =>
      (mfind (s.cluster P).tcbs i).bind (fun t => editImage s P i t (some m.1) (readyImage m.2.trapRec)))) (some s) with
  | some m, _ => some (endKernel s t.kern .soft ((m.2.trapRec.map (fun r => r.pc)).getD 0) 0)
  | none, none => none
  | none, some s =>
    if t.status = .trapped then some (gangReady s P i)
    else if t.status = .running ∧ t.members ≠ [] then
      (mfind (s.cluster P).tcbs i).map (fun t =>
        (t.members.foldl (fun s (m : Nat × Member) => memberBack s P i m.1 t m.2) s).modTask P i (fun t => { t with members := [] }))
    else none

/-- READY: a stowed task to the head of its level, with TRAPPED clear. Of a task that TRAP SOFT with SUB 0 has stopped, the Urveop supervisor edits the image first, so that
it goes on at the address in its g1; where g1 holds no such address it ends the kernel instead, with the TRAP's address (R348, R373). -/
def readyTask (u idx : Nat) (s : State) : Option State :=
  let P := clusterOf u
  match (s.core u).status, mfind (s.cluster P).tcbs idx with
  | .free, some t =>
    if t.kind.gang then readyGang s P idx t
    else if t.stowed = false then none
    else if (readImage s P idx t).any (fun x => refusesReady t.trapRec x.1) then
      some (endKernel s t.kern .soft ((t.trapRec.map (fun r => r.pc)).getD 0) 0)
    else (editImage s P idx t none (readyImage t.trapRec)).map (fun s => makeReady s P idx)
  | _, _ => none

def execReady (u idx : Nat) (s : State) := command u 3 (word idx) (readyTask u idx) s

/-! ## END, KILLK, RESTART (R348) -/

/-- The messages of a stowed task, or of a saved member, go back to the cluster's buffer, as an inbox does at the end of a task (R317; log entry 27). -/
def returnMsgs (s : State) (P u : Nat) (ms : List Msg) : State :=
  s.modCluster P (fun c => { c with msgBuf := ms.map (fun m => (⟨u, m, true⟩ : Buffered)) ++ c.msgBuf })
def returnContext (s : State) (P i u : Nat) : State :=
  match mfind (s.cluster P).tcbs i with
  | some t => (returnMsgs s P u t.msgs).modTask P i (fun t => { t with msgs := [] })
  | none => s

/-- The end of a saved gang's member: the gang ends with its last one (R312). -/
def endSaved (s : State) (P i k u : Nat) : State :=
  match mfind (s.cluster P).tcbs i with
  | none => s
  | some t =>
    let s := match mfind t.members k with
      | some m => m.handles.foldl (fun s h => releaseHandle s P h) (returnMsgs s P u m.msgs)
      | none => s
    let gone := k :: t.exited
    let s := s.modTask P i (fun t => { t with members := mdel t.members k, exited := gone })
    if gone.length < t.kind.size then gangReady s P i
    else dropEntry (postSetBits s P (32 * P) t.setm) P i

/-- The effect of END: as EXIT, of whose instructions none retires. -/
def endTrapped (u : Nat) (s : State) : Option State :=
  let P := clusterOf u
  match parkedOn s u with
  | some _ => some (eventNow (endOn (releaseTo s u 4) u) P)
  | none =>
    match stowedTrap s u with
    | some (i, _, some k) => some (endSaved s P i k u)
    | some (i, _, none) =>
      (mfind (s.cluster P).tcbs i).map (fun t => dropEntry (postSetBits (returnContext s P i u) P u t.setm) P i)
    | none => none

def execEndTask (u : Nat) (s : State) := command u 4 0 (endTrapped u) s

/-- The kernel of core u: of the task it runs, or of one that was lost or stowed from it. -/
def kernelOf (s : State) (u : Nat) : Option KKey :=
  if (s.core u).task.isSome then some (s.core u).ctx.kern
  else ((s.cluster (clusterOf u)).tcbs.find? (fun (p : Nat × Task) =>
    ((p.2.status == .trapped || p.2.status == .torn) && p.2.lastOn == some u) || (savedRank p.2 u).isSome)).map (fun p => p.2.kern)

/-- The effect of KILLK: the kernel ends with the cause and PC of a mailbox slot; SILENT and POISON name the unit (R300, R348). -/
def killKernel (u slot : Nat) (s : State) : Option State :=
  match kernelOf s u, mfind (s.cluster (clusterOf u)).mailbox slot with
  | some k, some r => some (endKernel s k r.cause r.pc (if r.cause = .silent ∨ r.cause = .poison then r.unit else 0))
  | _, _ => none

def execKillk (u : Nat) (slot : BitVec 6) (s : State) := command u 5 (word slot.toNat) (killKernel u slot.toNat) s

/-- A parked core's task leaves it for a new admission: a gang with all its members. -/
def unseat (s : State) (P i u : Nat) : State :=
  let us := u :: (membersOf s P i).filter (fun v => v ≠ u)
  let s := us.foldl (fun s v => orphan (freeCore (releaseStopped (dropWait s v) v 4) v) v) s
  (gangTiles s P i).foldl (fun s t => s.modTile t (fun x => { x with gang := none })) s

/-- The effect of RESTART: a parked task, one stowed from the core, or a torn one, from its memory TCB with STATE 0; a torn activation from its
cache copy (R354). A torn task waits for the requests of its lost core (R340), until when the command does not fit. -/
def restartTask (u idx : Nat) (s : State) : Option State :=
  let P := clusterOf u
  match parkedOn s u, (s.core u).task with
  | some _, some i => readmit (unseat s P i u) P i
  | _, _ =>
    match stowedTrap s u with
    | some (i, _, _) => readmit (returnContext s P i u) P i
    | none =>
      (mfind (s.cluster P).tcbs idx).bind (fun t => if (t.lastOn.map (requestsDone s)).getD true then restartTorn s P idx else none)

def execRestart (u idx : Nat) (s : State) := command u 6 (word idx) (restartTask u idx) s

/-! ## LOAD (R348, R366) -/

/-- A handle that an image names, bound as R196 binds it; none where it does not fit. -/
def loadHandle (s : State) (P : Nat) (w : Word) : Option (Handle × State) :=
  let va := sext56 w
  let use := fld w 57 56
  if !bitAt w 63 then some (.unbound, s)
  else if use = 2 then if va = 0 then some (.drain, s) else none
  else if use = 3 ∨ inLocalWin va = false ∨ va.toNat % 16 ≠ 0 then none
  else (bindRing s P (va.toNat - localWin)).map (fun r => (.ring r.1 (va.toNat - localWin) use, r.2))

/-- The handles of an image, in order. -/
def loadHandles (s : State) (P : Nat) : List Word → Option (List Handle × State)
  | [] => some ([], s)
  | w :: t =>
    match loadHandle s P w with
    | none => none
    | some (h, s) => (loadHandles s P t).map (fun r => (h :: r.1, r.2))

/-- The task of an image: with the fields of its memory TCB, or, for a fork child, without one. -/
def loadedTask (s : State) (u : Nat) (img : List Byte) (kern : KKey) (tenant det : Nat) : Option (Task × State) :=
  let P := clusterOf u
  let tcba := sext56 (imageDw img 0x5B8)
  let bound := if det = 1 then some (inCluster u) else none
  if tcba = 0 then
    some ({ activation s kern tenant det (imageDw img 0x520) [] (imageDw img 0x580)
              { st := 0, start := [], msg := none, sender := 0, window := none, nrst := false } with
            kind := .child, act := none, bound := bound }, s)
  else
    match deviceRead s (engineWho none P) tcba 192 with
    | none => none
    | some (bs, s) =>
      let t : Tcb := ⟨dwordsOf bs 24⟩
      if t.gang ≠ 0 then none
      else some (t.task s P kern tenant det (word (fld (imageDw img 0x598) 31 0)) tcba bound, s)

/-- The effect of LOAD: a task starts on a free core, reserved or not, from a STOW image, whose KID names a kernel that runs on a queue of the image's level. A core
that a saved gang member returns to is not free (log entry 67). -/
def loadTask (u : Nat) (addr : Word) (s : State) : Option State := do
  let P := clusterOf u
  if (s.core u).status ≠ .free ∨ savingTile s (tileOf u) = true ∨ keptSeat s u = true then none
  let i ← freeEntry (s.cluster P)
  let (img, s) ← deviceRead s (engineWho none P) addr 1536
  let kid : BitVec 32 := BitVec.ofNat 32 (fld (imageDw img 0x5E8) 31 0)
  let (n, q) ← s.queues.find? (fun p => p.2.kern.any (fun k => k.kid == kid && !k.ended))
  let det := q.desc.det
  if bitAt (imageDw img 0x5C0) 0 ∨ imageDw img 0x5A0 ≠ word det then none
  let (t, s) ← loadedTask s u img ⟨n, kid⟩ q.desc.dom det
  let (hs, s) ← loadHandles s P ((below 8).map (fun k => imageDw img (0x540 + 8 * k)))
  let s := s.modCluster P (fun c => { c with tcbs := mset c.tcbs i { t with status := .running, lastOn := some u, lastAt := s.now } })
  let s := s.modCore u (fun c =>
    let c := (c.started t i (contextVa s P i) s.now).fromImage img
    let c := if det = 1 then c.setKernSeq t.kern c.ctx.seq else c
    { c with h := Vector.ofFn (fun (k : Fin 8) => hs.getD k.val .unbound) })
  some (begun (countMember s t.kern) u)

def execLoad (u : Nat) (addr : Word) (s : State) := command u 7 addr (loadTask u addr) s

/-- What a command word asks of core u; none for a code that names no command (R348). -/
def ccmdEffect (u : Nat) (v : Word) (s : State) : Option State :=
  let operand := fld v 63 8
  match fld v 3 0 with
  | 1 => resumeTrap u s
  | 2 => stowOutTrap u s
  | 3 => readyTask u operand s
  | 4 => endTrapped u s
  | 5 => killKernel u (operand % 64) s
  | 6 => restartTask u operand s
  | 7 => loadTask u (sext56 (word operand)) s
  | _ => none

/-- The supervisor writes core u's command register with any word (R348; log entry 30). -/
def ccmdWrite (u : Nat) (v : Word) (s : State) : State := commanded u (fld v 3 0) (word (fld v 63 8)) (ccmdEffect u v) s

/-! ## The watchdog (R352) -/

/-- WATCHDOG_EXPIRY (R352, R353): the waiting instruction is discarded and traps; one that awaits a reply, or a stow that is under way, latches the expiry. -/
def execWatchdogExpiry (u : Nat) (s : State) : Host.Outcome State Fault Refusal :=
  let c := s.core u
  .next (
    if c.status ≠ .running ∨ s.now < c.wdStart + 2 ^ c.ctx.wdt then s
    else if c.awaitsReply || c.stowing.isSome then s.modCore u (fun c => { c with ctx := { c.ctx with latched := true } })
    else takeTrap s u (.plain .watchdog))

/-! ## Margin and checker (R23 to R25, R355 to R357) -/

/-- A count that stays at its largest value. -/
def saturate (x : BitVec 32) : BitVec 32 := if x = BitVec.allOnes 32 then x else x + 1

/-- A silent error: the kernel is killed with the core's unit ID, the core is quarantined at once, and the record is written (R25, R345). -/
def silentEnd (s : State) (u : Nat) : State :=
  let c := s.core u
  let r := trapRecord s u { cause := .silent, rpc := .zero }
  let s := endKernel s c.ctx.kern .silent c.pc (s.unitId u)
  writeOwed (sealCore s u) u r

/-- The events of the last 2^24 cycles (R356). -/
def recentEvents (l : List Nat) (now : Nat) : List Nat := l.filter (fun t => now < t + 2 ^ 24)

/-- A step back by one: one MGNST event, and regulator settling; the eighth event within 2^24 cycles pins the core at step 0 (R355, R356, R372). -/
def Margin.stepBack (m : Margin) (now : Nat) : Margin :=
  let recent := recentEvents m.recent now ++ [now]
  let pin := decide (8 ≤ recent.length)
  let step := if pin then 0 else m.step - 1
  { m with step := step, pin := m.pin || pin, total := m.total + 1, last := step, recent := recent, replays := 0, settling := true,
           armed := m.armed || pin }

/-- Whether core u runs an instruction that can be replayed. -/
def replayable (s : State) (u : Nat) : Bool := (s.core u).status == .running && (s.core u).task.isSome && !(s.core u).mgn.settling

/-- The step at which the instruction runs: 0 after its second mismatch, for it alone (R357). -/
def Margin.stepNow (m : Margin) : Nat := if 2 ≤ m.misses then 0 else m.step

/-- The sample of a BQS or BQC that a replay of core u keeps: the one taken, or one that its issue takes now or took before the memory accesses that
precede it (R71). -/
def replaySample (s : State) (u : Nat) : BitVec 16 :=
  let c := s.core u
  match c.sample, c.early, s.eager with
  | some b, _, _ => b
  | none, some b, false => if Config.freeBool s.freeCtr then b else queueConds s u
  | none, _, _ => queueConds s u

/-- The instruction of core u begins again: a queue condition that it has sampled stays (R71), a SWAIT that waits leaves its queue, to join it anew (R202), and the wait
of a GBAR, though not its arrival, is discarded (R312). -/
def replay (s : State) (u : Nat) (m : Margin) : State :=
  let b := replaySample s u
  let s := match (s.core u).wait with
    | .semaphore _ | .barrier => parkCore (leaveWait s u) u .none
    | _ => s
  s.tickFree.modCore u (fun c => { c with mgn := m, sample := some b })

/-- SHADOW_LATCH_REPLAY (R24, R355, R357). -/
def execShadowLatchReplay (u : Nat) (s : State) : Host.Outcome State Fault Refusal :=
  let m := (s.core u).mgn
  let m := { m with trepc := saturate m.trepc, replays := m.replays + 1 }
  .next (
    if replayable s u = false then s
    else if m.replays < 4 then replay s u m
    else if m.stepNow = 0 then silentEnd (s.modCore u (fun c => { c with mgn := { m with replays := 0 } })) u
    else replay s u (m.stepBack s.now))

/-- A checker replay discards the wait of an LDF, with a cancel notice, of a WAITA and of a RWAIT or RWAITF: the instruction runs again in full
(R109, R141, R198). -/
def dropParked (s : State) (u : Nat) : State :=
  match (s.core u).wait with
  | .future _ | .futureRetry _ _ | .sector _ | .ring _ | .drainRing => parkCore (leaveWait s u) u .none
  | _ => s

/-- CHECKER_MISMATCH (R25, R109, R357). -/
def execCheckerMismatch (u : Nat) (s : State) : Host.Outcome State Fault Refusal :=
  let m := (s.core u).mgn
  let m := { m with cmisc := saturate m.cmisc, misses := m.misses + 1 }
  .next (
    if replayable s u = false then s
    else if m.misses < 3 then dropParked (replay s u m) u
    else silentEnd (s.modCore u (fun c => { c with mgn := { m with misses := 0 } })) u)

/-- MGNST_RECENT_EXPIRY (R365): events older than 2^24 cycles leave the count. -/
def execMgnstRecentExpiry (u : Nat) (s : State) : Host.Outcome State Fault Refusal :=
  .next (s.modCore u (fun c => { c with mgn := { c.mgn with recent := recentEvents c.mgn.recent s.now } }))

/-- REGULATOR_SETTLING_END (R372). -/
def execRegulatorSettlingEnd (u : Nat) (s : State) : Host.Outcome State Fault Refusal :=
  .next (s.modCore u (fun c => { c with mgn := { c.mgn with settling := false } }))

/-- A write of MGN: PIN can be cleared and not set, and holds STEP at 0 (R356, R365). -/
def Margin.write (m : Margin) (v : Word) : Margin :=
  let pin := m.pin && bitAt v 4
  { m with pin := pin, step := if pin then 0 else fld v 3 0 }

/-- MGN_WRITE (R355), through the management path, which opens at step 6 of bring-up (R369); the reserved bits [63:5] are ignored (R4, R365). -/
def execMgnWrite (u : Nat) (v : Word) (s : State) : Host.Outcome State Fault Refusal :=
  .next (if s.sys.bring < 6 then s else s.modCore u (fun c => { c with mgn := c.mgn.write v }))

/-- CORRECTED_SOFT_ERROR (R358). -/
def execCorrectedSoftError (u : Nat) (s : State) : Host.Outcome State Fault Refusal :=
  .next (s.modCore u (fun c => { c with mgn := { c.mgn with soft := c.mgn.soft + 1 } }))

end Sys2Proof.Machine
end

