-- ==== Sys2Proof/Machine/Remap.lean ====
section
/-! DEFINITION. The quarantine of a cluster and the change of the logical map (R28, R30, R97, R283, R311, R323, R360). -/

namespace Sys2Proof.Machine

/-- Ends kernels with POISON because of a cluster, whose first core the records name (R300; log entry 66). -/
def endKernels (s : State) (P : Nat) (ks : List KKey) : State := ks.dedup.foldl (fun s k => endKernel s k .poison 0 (s.unitId (32 * P))) s

/-! ## Quarantine (R28, R311) -/

/-- Whether the parent of a fork child runs, is stowed, or is torn or admitted again, in a cluster with a TCB to restart from: a task of its kernel and join block whose
path goes on from the one that the child's fork left, or has started where that one goes on from (R308, R311). -/
def parentRuns (s : State) (P : Nat) (c : Task) : Bool :=
  let p := c.path &&& ~~~1
  let again := fun (t : Task) =>
    t.status == .torn || (t.lastOn.isSome && !t.stowed && (t.status == .ready || t.status == .waiting))
  let fits := fun (path jaddr : Word) => jaddr == c.jaddr && (below 63).any (fun k => path >>> k == p)
  p != 0 && ((coresOf P).any (fun u =>
    let x := s.core u
    x.task.isSome && x.ctx.kern == c.kern && x.ctx.tcba != 0 && fits x.ctx.path x.ctx.jaddr)
  || (s.cluster P).tcbs.any (fun (t : Nat × Task) =>
    t.2.kern == c.kern && t.2.tcba != 0 && (t.2.stowed &&
      (match readImage s P t.1 t.2 with
       | some (img, _) => fits (imageDw img 0x588) (imageDw img 0x590)
       | none => false)
      || again t.2 && t.2.jaddr == c.jaddr && (below 63).any (fun k => t.2.path <<< k == c.path >>> 1))))

/-- The fork children in a cluster's deques. -/
def dequeKids (s : State) (P : Nat) : List (Nat × Task) :=
  (coresOf P).flatMap (fun u => (s.core u).deque.filterMap (fun i => (mfind (s.cluster P).tcbs i).map (fun t => (i, t))))

/-- The kernels with a task that waits on a cluster's event bits, which are lost with it (R311). -/
def bitWaiters (s : State) (P : Nat) : List KKey :=
  ((coresOf P).filter (fun u => match (s.core u).wait with | .ebWait _ _ => true | _ => false)).map (fun u => (s.core u).ctx.kern)
    ++ ((s.cluster P).tcbs.filter (fun t => t.2.status == .waiting && t.2.wait != 0)).map (fun t => t.2.kern)

/-- The messages that core u holds, in its inbox and at its ports, join those of its cluster's buffer (R323). -/
def gatherMessages (s : State) (u : Nat) : State :=
  let c := s.core u
  let ms := (c.inbox ++ c.rxPorts.flatMap (fun p => p.2)).map (fun m => (⟨u, m, true⟩ : Buffered))
  (s.modCluster (clusterOf u) (fun k => { k with msgBuf := k.msgBuf ++ ms })).modCore u (fun c => { c with inbox := [], rxPorts := [] })

/-- A cluster is quarantined as a whole: its cores take no more work, its running and stowed tasks are torn, and a kernel ends where its fork
children or its waits cannot go on (R28, R311, R354). -/
def quarantine (s : State) (P : Nat) : State :=
  if s.quarCl.contains P ∨ s.lmap.contains P = false then s
  else
    let kids := dequeKids s P
    let gone := (kids.filter (fun k => !parentRuns s P k.2)).map (fun k => k.2.kern) ++ bitWaiters s P
    let s := (kids.filter (fun k => parentRuns s P k.2)).foldl (fun s k => dropEntry s P k.1) s
    let s := endKernels { s with quarCl := s.quarCl ++ [P] } P gone
    let s := (coresOf P).foldl gatherMessages s
    let stowed := ((s.cluster P).tcbs.filter (fun t => t.2.stowed))
    let s := stowed.foldl (fun s t => returnContext s P t.1 ((t.2.lastOn).getD (32 * P))) s
    let s := (coresOf P).foldl (fun s u => if (s.core u).status = .quarantined then s else loseCore s u true) s
    stowed.foldl (fun s t =>
      match mfind (s.cluster P).tcbs t.1 with
      | some x => if x.stowed then loseTask s P t.1 ((x.lastOn).getD (32 * P)) 0 true else s
      | none => s) s

/-- CLUSTER_QUARANTINE (R28). -/
def execClusterQuarantine (cl : Nat) (s : State) : Host.Outcome State Fault Refusal := .next (quarantine s cl)

/-- SLICE_ERROR (R28, R283): an uncorrectable error in a Millpond ends the kernels with stores and quarantines its cluster. -/
def execSliceError (cl : Nat) (s : State) : Host.Outcome State Fault Refusal := .next (quarantine (sliceFails s cl) cl)

/-- The kernels that run with a KID. -/
def kernelsWith (s : State) (kid : BitVec 32) : List KKey :=
  (s.queues.filter (fun q => q.2.kern.any (fun k => k.kid == kid && !k.ended))).map (fun q => ⟨q.1, kid⟩)

/-- SUPERVISOR_ERROR (R360): the mailbox is lost with what it held and what waited for it, and the kernels of those records end (log entry 31). -/
def execSupervisorError (cl : Nat) (s : State) : Host.Outcome State Fault Refusal :=
  let c := s.cluster cl
  let kids := c.mailbox.map (fun r => r.2.kid) ++ c.heldRecs.map (fun r => r.2.kid)
  let s := quarantine s cl
  let s := s.modCluster cl (fun c => { c with supLost := true, mailbox := [], heldRecs := [] })
  .next (endKernels s cl (kids.flatMap (kernelsWith s)))

/-! ## What the slices send when the map changes (R283) -/

/-- A pending entry, a record or a parked update on its way to the new home of its key: the old logical cluster, and the window of a parked one. -/
structure Moved where
  old  : Nat
  win  : Option Nat
  item : Item
  deriving DecidableEq, Repr

/-- The records of a segment from number n on. -/
def recordsFrom (P slot : Nat) (d : StoreDecl) (old : Nat) : List (Option Nat) → Nat → State → Except RecStop (List Moved × State)
  | [], _, s => .ok ([], s)
  | w :: t, n, s => do
    let (bs, s) ← readRecord s P d ((s.slice P slot).head + n)
    let (l, s) ← recordsFrom P slot d old t (n + 1) s
    pure (⟨old, w, itemOf bs⟩ :: l, s)

/-- Everything that a slice holds of a store. -/
def sliceItems (P slot : Nat) (d : StoreDecl) (old : Nat) (s : State) : Except RecStop (List Moved × State) := do
  let y := s.slice P slot
  let own : List Moved := y.entries.map (fun e => ⟨old, none, ⟨e.key, e.val, e.vmax, e.tag⟩⟩)
  let parked : List Moved := y.parked.map (fun p => ⟨old, some p.1, ⟨p.2.key, p.2.val, p.2.vt, p.2.tag⟩⟩)
  let (recs, s) ← recordsFrom P slot d old y.wins 0 s
  pure (own ++ recs ++ parked, s)

/-- Everything that the slices hold of a store, in order of the old logical clusters. -/
def storeItems (slot : Nat) (d : StoreDecl) : List (Nat × Nat) → State → Except RecStop (List Moved × State)
  | [], s => .ok ([], s)
  | (P, L) :: t, s => do
    let (a, s) ← sliceItems P slot d L s
    let (b, s) ← storeItems slot d t s
    pure (a ++ b, s)

/-- The phase that some slice is in for a store. -/
def busyPhase (s : State) (slot : Nat) : Option Nat :=
  s.clusters.foldl (fun b c => laterWindow b (mget c.2.slices slot SliceStore.empty).busy) none

/-- What is sent for one store: its slot and declaration, the phase that some slice is in, and what the slices held. -/
structure Sent where
  slot : Nat
  decl : StoreDecl
  busy : Option Nat
  held : List Moved
  deriving DecidableEq, Repr

/-- Everything of every store, in ascending order of old logical cluster and key. -/
def allItems : List (Nat × StoreDecl) → State → Except RecStop (List Sent × State)
  | [], s => .ok ([], s)
  | (slot, d) :: t, s => do
    let (a, s) ← storeItems slot d (s.lmap.zip (below s.nlive)) s
    let (b, s) ← allItems t s
    let order := fun (x y : Moved) => decide (x.old < y.old) || (x.old == y.old && decide (x.item.key < y.item.key))
    pure (⟨slot, d, busyPhase s slot, sortBy order a⟩ :: b, s)

/-- What has been sent reaches its new home: it folds, or is parked in its window; one that finds the segment full waits there, before what was sent after it (R258). -/
def placeMoved (d : StoreDecl) (s : State) (m : Moved) : State :=
  let Q := homeOf s d.st m.item.key
  let u : Update := { kern := d.kern, st := d.st, key := m.item.key, val := m.item.val, vt := m.item.vt, tag := m.item.tag, det := d.det,
                      core := 32 * Q, waits := true, moved := some m.win, since := s.now, reply := none }
  if s.upds.any (fun x => x.moved.isSome && homeOf s x.st x.key == Q) then { s with upds := s.upds ++ [u] }
  else (arrive s u).getD { s with upds := s.upds ++ [u] }

/-- A store on a slice that has sent everything it held; a phase that runs on some slice goes on at every one. -/
def SliceStore.emptied (y : SliceStore) (busy : Option Nat) : SliceStore :=
  { y with entries := [], parked := [], wins := [], head := y.tail, sealing := [], busy := busy }

/-- Every store at its new homes. -/
def rehomeStores (s : State) (items : List Sent) : State :=
  items.foldl (fun s x =>
    let s := s.lmap.foldl (fun s Q => s.modSlice Q x.slot (fun y => y.emptied x.busy)) s
    x.held.foldl (placeMoved x.decl) s) s

/-! ## The tasks of the cluster that leaves (R311) -/

/-- The cluster that a task of logical cluster q goes to when q leaves: where its TCB named one at its admission, by its path at D2 and above, at its key's new
home, in the place of q for what that cluster itself held, and by its queue's rule otherwise. -/
def newHome (s : State) (q : Nat) (t : Task) : Nat × State :=
  match t.act, t.named with
  | some a, _ => (if a.msg.isSome then physOf s q else homeOf s a.st (a.start.getD 0 0).toNat, s)
  | none, some L => (physOf s L, s)
  | none, none =>
    if 2 ≤ t.det then (physOf s (homeOfHash s (kh t.path)), s)
    else if t.kind = .child then (physOf s q, s)
    else match mfind s.queues t.kern.queue with
      | some x =>
        let r := placement s x ⟨List.replicate 8 0 ++ [t.path]⟩
        (physOf s r.1, s.modQueue t.kern.queue (fun x => { x with rot := r.2 }))
      | none => (physOf s q, s)

/-- A task of the cluster that has left: a torn one waits at its new cluster for its restart, another is admitted there again, or refused where that cluster has not
the cores it needs (R291); its wait has been met if it was ready. -/
def rehomeTask (q : Nat) (s : State) (t : Task) : State :=
  let (Q, s) := newHome s q t
  if t.status = .torn then admitTask s Q t
  else if gangFits s Q t.kind = false then refuseTask s t
  else admitTask s Q { t with wait := if t.status = .ready then 0 else t.wait, status := .waiting }

/-! ## CLUSTER_REMAP (R30) -/

/-- A logical number after the change in which q leaves and L = Nlive' takes its place. -/
def renumber (q L x : Nat) : Nat := if x = L then (if q = L then x % L else q) else x

/-- The map after the change. -/
def mapWithout (lmap : List Nat) (q L : Nat) : List Nat := (lmap.set q (lmap.getD L 0)).take L

/-- Messages on their way: those to a core of the cluster that leaves are lost, the others follow the new numbers (R319, R323). -/
def rerouteMessages (s : State) (q L : Nat) : State :=
  { s with msgs := s.msgs.map (fun (m : Msg) =>
      if !m.active && m.cl == q then { m with lost := true } else { m with cl := renumber q L m.cl }) }

/-- A cluster that has left the map. -/
def Cluster.left (c : Cluster) : Cluster :=
  { c with rings := c.rings.map (fun r => { r with broken := true }), holds := [], ebits := 0, ebq := [], tcbs := [], backlog := [], ready := [],
           reserv := [], admitted := [], slices := [], msgBuf := [], parkedM := [], spilled := [], forwards := [], depth := none }

/-- The new map, with what follows the numbers: parked messages, fan-out targets and forwarding entries, and the accesses that wait and have named L, which go on as
accesses to q (R97). -/
def renumbered (s : State) (P q L : Nat) : State :=
  let fans := s.fansOut.map (fun (f : FanSource) => { f with targets := (f.targets.filter (fun x => x ≠ q)).map (renumber q L) })
  let s := { s with lmap := mapWithout s.lmap q L, nlive := L, fansOut := fans.filter (fun f => !f.targets.isEmpty) }
  let s := s.mapCores (fun _ c => match c.wait with
    | .banks | .path _ _ _ _ =>
      { c with redirect := c.redirect.map (fun x => (x.1, renumber q L x.2)) ++ (if q < L then [(L, q)] else []) }
    | _ => c)
  (rerouteMessages s q L).mapClusters (fun _ c =>
    { c with parkedM := c.parkedM.map (fun (m : Msg) => { m with cl := renumber q L m.cl }), forwards := c.forwards.filter (fun f => f.dest ≠ P) })

/-- The binding counts of the cluster that has left join those of the one in its place (R311). -/
def moveCounts (s : State) (Q : Nat) (counts : AMap Nat) : State :=
  s.modCluster Q (fun c => { c with admitted := counts.foldl (fun m x => mset m x.1 (mget m x.1 0 + x.2)) c.admitted })

/-- The OVF and LATE flags of the slice that has left stay set for their stores, at the slice that stands in its place (R287). -/
def moveFlags (s : State) (Q : Nat) (slices : AMap SliceStore) : State :=
  slices.foldl (fun s x => s.modSlice Q x.1 (fun y => { y with ovf := y.ovf || x.2.ovf, late := y.late || x.2.late })) s

/-- The change of the map in which the physical cluster P, with logical number q, leaves. -/
def leaveMap (s : State) (P q : Nat) (items : List Sent) : State :=
  let L := s.nlive - 1
  let c := s.cluster P
  let held := c.msgBuf.map (fun b => b.msg.kern) ++ (c.parkedM.filter (fun m => !m.active)).map (fun m => m.kern)
  let again := (c.parkedM.filter (fun m => m.active)).map (fun (m : Msg) => { m with cl := m.named % L })
  let tasks := c.tcbs.map (fun t => t.2) ++ c.backlog
  let s := renumbered ((renameHeld s q L (renumber q L)).setCluster P c.left) P q L
  let s := rehomeStores (moveFlags { s with msgs := s.msgs ++ again } (physOf s q) c.slices) items
  let s := moveCounts s (physOf s q) c.admitted
  endKernels (tasks.foldl (rehomeTask q) s) P held

/-- CLUSTER_REMAP (R30, R283, R311, R323): a quarantined cluster leaves the map in one step of the hub, once the core messages that can still reach it have done
so and been discarded (R319). It waits while a record cannot be read, or while a backlog has no room for what it would admit (R296); a record that returns POISON ends the kernels with stores. The last cluster does not leave. -/
def execClusterRemap (cl : Nat) (s : State) : Host.Outcome State Fault Refusal :=
  .next (match s.logical cl with
    | none => s
    | some q =>
      let coming := s.msgs.any (fun m => !m.active && !m.lost && m.cl == q && !pathDown s (dieOf (clusterOf m.sender)) (dieOf cl))
      if s.quarCl.contains cl = false ∨ s.nlive ≤ 1 ∨ coming = true then s
      else match allItems s.stores s with
        | .ok (items, s') =>
          let t := leaveMap s' cl q items
          if t.clusters.all (fun c => decide (c.2.backlog.length ≤ 2 ^ 20)) then t else s
        | .error .poison => sliceFails s cl
        | .error .held => s)

end Sys2Proof.Machine
end

