-- ==== Sys2Proof/Machine/System.lean ====
section
/-! DEFINITION. The system instructions, the CSRs, bank modes, snapshots, and the management registers of the dies and links (R95, R96, R114, R331,
R352, R361 to R367). -/

namespace Sys2Proof.Machine

/-! ## Bank modes (R95, R96, R194) -/

/-- The mode that a bank will be in when the switches under way have ended. -/
def Cluster.modeAfter (c : Cluster) (b : Nat) : Nat :=
  (c.switching.foldl (fun m x => if x.1 = b then x.2 else m) (c.mode b).toNat)

/-- The switches that a value of BANKCFG asks for: bank and mode (R95, R96). -/
def bankSwitches (c : Cluster) (v : Word) : List (Nat × Nat) :=
  ((below 16).map (fun b => (b, fld v (2 * b + 1) (2 * b)))).filter (fun x => x.2 ≠ 3 && x.2 ≠ c.modeAfter x.1)

/-- Whether a location holds a byte or a tag of a bank. -/
def inBank (P b x : Nat) : Bool :=
  let a := sramLoc P (b * 2 ^ 18)
  (decide (a ≤ x) && decide (x < a + 2 ^ 18)) || (decide (tagLoc a ≤ x) && decide (x < tagLoc a + 2 ^ 13))

/-- A bank without contents: its bytes and tags read 0, and no sector of it is poisoned. -/
def wipeBank (m : Memory) (P b : Nat) : Memory :=
  let a := sramLoc P (b * 2 ^ 18)
  { cells := m.cells.filter (fun x => !inBank P b x.1),
    poison := m.poison.filter (fun n => !(decide (a / 64 ≤ n) && decide (n < a / 64 + 2 ^ 12))) }

/-- Performs the buffered stores to a bank, of every core. -/
def drainBank (s : State) (P b : Nat) : State :=
  s.cores.foldl (fun s p => drainThrough s p.1 (fun e => e.touches (sramLoc P (b * 2 ^ 18)) (2 ^ 18))) s

/-- A cache bank of cluster P is given up: its dirty sectors are written back and its lines dropped. Which sectors it held is free while another bank stays in
cache mode, and they are all that the cluster held when it was the last (R96, R122). -/
def emptyCache (s : State) (P b : Nat) : State :=
  let others := (below 16).any (fun k => k != b && (s.cluster P).mode k == 0)
  let n := Config.freeNat s.freeCtr
  flushUo s.tickFree (fun Q => Q == P) (fun sec => !others || Nat.testBit n sec)

/-- One bank changes its mode: dirty sectors are written back and lines dropped, contents are discarded, and the rings that it holds break. -/
def switchBank (P : Nat) (s : State) (x : Nat × Nat) : State :=
  let old := (s.cluster P).mode x.1
  if old.toNat = x.2 then s
  else
    let s := drainBank s P x.1
    let s := if old = 0 then emptyCache s P x.1 else s
    (s.renew (wipeBank s.mem P x.1) (inBank P x.1)).modCluster P (fun c =>
      { c with modes := if h : x.1 < 16 then c.modes.set x.1 (BitVec.ofNat 2 x.2) else c.modes,
               rings := c.rings.map (fun (r : RingEntry) => if r.overlaps (x.1 * 2 ^ 18) (2 ^ 18) then { r with broken := true } else r) })

/-- Every switch under way in a cluster ends; the accesses that stalled go on. -/
def switchBanks (s : State) (P : Nat) : State :=
  let s := ((s.cluster P).switching.foldl (switchBank P) s).modCluster P (fun c => { c with switching := [] })
  retryTcbWrites (s.mapCores (fun _ c => if c.wait = .banks then { c with wait := .none } else c))

/-- BANKCFG_SWITCH_DONE (R96): the switches end, and the CSRWs that asked for them retire. -/
def execBankcfgSwitchDone (cl : Nat) (s : State) : Host.Outcome State Fault Refusal :=
  let s := switchBanks s cl
  .next ((coresOf cl).foldl (fun s u => if (s.core u).wait = .bankSwitch then retireCore s u else s) s)

/-- The switches of a write of BANKCFG by core u begin. -/
def requestSwitches (s : State) (u : Nat) (v : Word) : State :=
  s.modCluster (clusterOf u) (fun c => { c with switching := c.switching ++ bankSwitches c v })

/-- Whether core u runs a member of a cluster gang. -/
def inClusterGang (s : State) (u : Nat) : Bool := ((s.taskOf u).map (fun t => t.kind == .clusterGang)).getD false

/-- BANKCFG_WRITE (R95; log entry 33). -/
def execBankcfgWrite (u : Nat) (v : Word) (s : State) : Host.Outcome State Fault Refusal :=
  .next (if inClusterGang s u then requestSwitches s u v else s)

/-! ## WDT and SNAPT (R352, R361) -/

/-- Whether a value of WDT lies in range; reserved bits are ignored (R4, R365). -/
def wdtOk (v : Word) : Bool := decide (16 ≤ fld v 5 0) && decide (fld v 5 0 ≤ 47)

/-- WDT takes a value, and the count returns to 0 (R352). -/
def setWdt (s : State) (u : Nat) (v : Word) : State :=
  s.modCore u (fun c => { c with ctx := { c.ctx with wdt := fld v 5 0 }, wdStart := s.now })

/-- WDT_WRITE (R352; log entry 33). -/
def execWdtWrite (u : Nat) (v : Word) (s : State) : Host.Outcome State Fault Refusal := .next (if wdtOk v then setWdt s u v else s)

/-- A snapshot trigger leaves, to arrive 64 cycles later with its tag (R361). -/
def launchTrigger (s : State) (v : Word) : State :=
  { s with snap := { s.snap with trigs := s.snap.trigs ++ [(s.now + 64, BitVec.ofNat 32 (fld v 31 0))] } }

/-- SNAPT_WRITE (R361; log entry 33). -/
def execSnaptWrite (_u : Nat) (v : Word) (s : State) : Host.Outcome State Fault Refusal := .next (launchTrigger s v)

/-- SNAPSHOT_LATCH (R361): the oldest trigger that has arrived latches every block, or is counted while the last snapshot has not been read. -/
def execSnapshotLatch (s : State) : Host.Outcome State Fault Refusal :=
  .next (match s.snap.trigs with
    | (t, tag) :: rest =>
      if s.now < t then s
      else if s.snap.pend then
        { s with snap := { s.snap with trigs := rest, ign := if s.snap.ign = BitVec.allOnes 16 then s.snap.ign else s.snap.ign + 1 } }
      else
        { s with snap :=
          { s.snap with trigs := rest, tag := tag, pend := true, cores := s.cores, tiles := s.tiles, clusters := s.clusters,
                        dies := s.dies, links := s.links, engines := s.engines, streamers := s.streamers } }
    | [] => s)

/-- SNAPSHOT_READ (R361), through the management path, which opens at step 6 of bring-up (R369). -/
def execSnapshotRead (s : State) : Host.Outcome State Fault Refusal :=
  .next (if s.sys.bring < 6 then s else { s with snap := { s.snap with pend := false } })

/-! ## CSRR and CSRW (R364, R365) -/

/-- MGNST as it reads (R365). -/
def mgnstValue (m : Margin) (now : Nat) : Word :=
  word (min 8 (recentEvents m.recent now).length + 16 * m.last + 2 ^ 16 * m.total.toNat)

/-- BANKCFG as it reads (R95). -/
def bankcfgValue (c : Cluster) : Word := word ((below 16).foldl (fun n b => n + (c.mode b).toNat * 4 ^ b) 0)

/-- The value of a CSR for core u; none for a number outside the map (R365). -/
def csrValue (s : State) (u n : Nat) : Option Word :=
  let c := s.core u
  let t := s.tile (tileOf u)
  let k := s.cluster (clusterOf u)
  match n with
  | 0x00 => some (word s.now)
  | 0x01 => some (word c.ctx.det)
  | 0x02 => some (word (fld c.ctx.tcba 55 0))
  | 0x03 => some (word (fld c.ctx.ctxb 55 0))
  | 0x04 => some (word c.ctx.wdt)
  | 0x08 => some (word (c.mgn.step + if c.mgn.pin then 16 else 0))
  | 0x09 => some (mgnstValue c.mgn s.now)
  | 0x0A => some (word c.mgn.trepc.toNat)
  | 0x0B => some (word c.mgn.cmisc.toNat)
  | 0x10 => some t.monb
  | 0x11 => some t.monc
  | 0x12 => some t.mrepl
  | 0x13 => some t.cncd
  | 0x18 => some (bankcfgValue k)
  | 0x19 => some (word (k.heldCnt.toNat + if k.heldRecs.isEmpty then 0 else 2 ^ 63))
  | 0x1A => some (word (s.snap.tag.toNat + 2 ^ 32 * s.snap.ign.toNat + if s.snap.pend then 2 ^ 63 else 0))
  | _ => none

/-- Whether a matrix command of core u has still to finish at its unit (R218). -/
def matrixBusy (s : State) (u : Nat) : Bool := (s.tile (tileOf u)).queue.any (fun c => c.core == u)

/-- CSRR (R364); one of MONC or MREPL waits for the core's matrix instructions, whose effects at the unit it acquires (R218). -/
def readCsr (d : GReg) (n : Nat) : M Flow := do
  let s ← get
  match csrValue s s.cur n with
  | none => trapM (.plain .illegalOp)
  | some v =>
    needM (n != 0 || (s.core s.cur).det == 0) (.plain .detLevel)
    let unit := n == 0x11 || n == 0x12
    if unit && matrixBusy s s.cur then pure .stay
    else
      if unit then set (acquire s s.cur)
      setG d v
      pure .next

def execCsrr (d : GReg) (csr : BitVec 7) (s : State) := runM (readCsr d csr.toNat) s

/-- Whether CSRW raises ILLEGAL_OP: a number outside the map, a register that tasks only read, a tile CSR outside a gang, or a field's value
outside its range (R215, R364, R365). -/
def csrwIllegal (s : State) (u n : Nat) (v : Word) : Bool :=
  match n with
  | 0x04 => !wdtOk v
  | 0x10 | 0x12 | 0x13 => !inTileGang s u
  | 0x18 | 0x1A => false
  | _ => true

/-- A write of MONB or CNCD travels through the queue of the core's matrix unit (R218). -/
def queueCsr (s : State) (u : Nat) (op : MOp) : State :=
  let c := s.core u
  s.modTile (tileOf u) (fun t => { t with queue := t.queue ++
    [{ op := op, core := u, seq := 0, pc := c.pc, tenant := c.ctx.tenant, kid := c.ctx.kern.kid, owned := false }] })

/-- MREPL takes a count (R218). -/
def setMrepl (s : State) (tile : Nat) (v : Word) : State := s.modTile tile (fun t => { t with mrepl := v, mrepl0 := v })

/-- MREPL_WRITE (R218). -/
def execMreplWrite (tile : Nat) (v : Word) (s : State) : Host.Outcome State Fault Refusal := .next (setMrepl s tile v)

/-- CSRW (R364): a write of BANKCFG that switches banks retires when they have switched (R96). -/
def writeCsr (n : Nat) (v : Word) : M Flow := do
  let s ← get
  let u := s.cur
  needM (!csrwIllegal s u n v) (.plain .illegalOp)
  match n with
  | 0x04 =>
    set (setWdt s u v)
    pure .next
  | 0x12 =>
    set (setMrepl s (tileOf u) v)
    pure .next
  | 0x18 =>
    needM (inClusterGang s u) (.plain .plbDeny)
    if (bankSwitches (s.cluster (clusterOf u)) v).isEmpty then pure .next
    else
      let s := requestSwitches s u v
      set (if s.eager then switchBanks s (clusterOf u) else parkCore s u .bankSwitch)
      pure (if s.eager then .next else .stay)
  | 0x1A =>
    set (launchTrigger s v)
    pure .next
  | _ =>
    if !unitOpen s u then pure .stay
    else
      set (queueCsr s u (if n = 0x10 then .monb (word (fld v 49 0)) else .cncd (word (fld v 5 0))))
      pure .next

def execCsrw (csr : BitVec 7) (d : GReg) (s : State) := runM (writeCsr csr.toNat (s.rg d)) s

/-! ## TRAP, HALT, STOW (R363, R366, R367) -/

/-- The cause that TRAP names (R363). -/
def trapCause (n : Nat) : Option Cause := if n = 0x0F then some .soft else if 0x40 ≤ n then some (.hook (BitVec.ofNat 6 n)) else none

/-- TRAP: earlier accesses released at cluster scope, then the trap. -/
def softTrap (n : Nat) : M Flow :=
  match trapCause n with
  | none => trapM (.plain .illegalOp)
  | some c => do
    modify (fun s => releaseTo s s.cur 2)
    pure (.trapped { cause := c, rpc := .next })

def execTrap (cause : BitVec 7) (s : State) := runM (softTrap cause.toNat) s

/-- HALT: an activation loses its outbox and can no longer be restarted; the core parks on a record that nothing resumes. -/
def haltTask : M Flow := do
  modify (fun s => (markNrst s s.cur).modCore s.cur (fun c => { c with outbox := [] }))
  pure (.trapped { cause := .soft, sub := 1, rpc := .zero })

def execHalt (s : State) := runM haltTask s

/-- Whether core u runs a task in the sense of STOW: no gang member, core thread or activation (R18, R366). -/
def runsTask (s : State) (u : Nat) : Bool :=
  match s.taskOf u with
  | some t => t.kind == .task || t.kind == .child
  | none => false

/-- STOW: every byte checked, then the image, performed at package scope before it retires. -/
def stowCheckpoint (va : Word) : M Flow := do
  let s ← get
  needM (runsTask s s.cur) (.plain .illegalOp)
  aligned va 64
  let ps ← resolve s.me .sector va 1536
  ringsFree ps
  noDead ps
  modify (fun s => flushTo s s.cur 5)
  let s ← get
  storeSectors s.me (fun _ => 0) 24 0 va (stowImage s s.cur s.nextPc false false 0)
  modify (fun s => releaseTo s s.cur 4)
  pure .next

def execStow (a : GReg) (s : State) := runM (stowCheckpoint (s.rg a)) s

/-! ## Management registers (R114, R331) -/

/-- A register of the management space: of a link's module, or of a die. -/
inductive MgmtReg where
  | link (m off : Nat)
  | die (d off : Nat)
  deriving DecidableEq, Repr

/-- The register at an offset, if the tables list one. Links are numbered 0 to 3 at the hub, 4 + 3d + m at die d. -/
def regAt (off : Nat) : Option MgmtReg :=
  let dieOff := (off - 0x100000) % 0x10000
  let listed := fun (o : Nat) => o % 8 == 0 && decide (o ≤ 0x20)
  if off < 0x100 then if listed (off % 0x40) then some (.link (off / 0x40) (off % 0x40)) else none
  else if off < 0x100000 ∨ 0x140000 ≤ off then none
  else if dieOff ≤ 0x28 ∧ dieOff % 8 = 0 then some (.die ((off - 0x100000) / 0x10000) dieOff)
  else if 0x100 ≤ dieOff ∧ dieOff < 0x1C0 ∧ listed (dieOff % 0x40) = true then
    some (.link (4 + 3 * ((off - 0x100000) / 0x10000) + (dieOff - 0x100) / 0x40) (dieOff % 0x40))
  else none

/-- LSTAT as it reads (R331). -/
def lstatValue (l : Link) : Word :=
  word (l.lanes + (if l.upper then 2 ^ 7 else 0) + (if l.up then 2 ^ 8 else 0) + 2 ^ 16 * (l.repaired % 256))

/-- A register as it reads. -/
def regRead (s : State) (r : MgmtReg) : Word :=
  match r with
  | .link m o =>
    let l := s.link m
    match o with
    | 0x00 => word l.lctl.toNat
    | 0x08 => lstatValue l
    | 0x10 => word l.ethr.toNat
    | 0x18 => word l.ecnt.toNat
    | _ => l.rplc
  | .die d o =>
    let x := s.die d
    match o with
    | 0x00 => x.ptroot
    | 0x08 => flagWord x.flush
    | 0x10 => x.rgbase
    | 0x18 => word x.rgcnt.toNat
    | 0x20 => x.rsbase
    | _ => word x.rslog.toNat

/-- LCTL takes a value; hardware alone clears a retrain request (R331). -/
def Link.control (l : Link) (v : Word) : Link :=
  { l with lctl := BitVec.ofNat 2 ((if bitAt v 0 || l.lctl.getLsbD 0 then 1 else 0) + (if bitAt v 1 then 2 else 0)) }

/-- A base address of a table in the page-mapped region. -/
def tableBase (v : Word) : Bool := canonical v && v.toNat % 16 == 0

/-- Whether the slices of die d translate a page. -/
def TcEntry.onDie (e : TcEntry) (d : Nat) : Bool := homeDie (word (e.page * if e.big then 2 ^ 25 else 2 ^ 16)) == d

/-- The flush of a die's translation caches begins: the second step of R91 for the pages whose lines INVAL has dropped. -/
def beginFlush (s : State) (d : Nat) : State :=
  { s.setDie d { s.die d with flush := true } with
    tcache := s.tcache.map (fun (e : TcEntry) => if e.onDie d && e.stage == 1 then { e with stage := 2 } else e) }

/-- A write of a register; none where the value breaks its fields, or the register is read-only (R114, R331). A write of 0 to TCFLUSH does nothing (log entry
70). -/
def regWrite (s : State) (r : MgmtReg) (v : Word) : Option State :=
  match r with
  | .link m o =>
    let l := s.link m
    match o with
    | 0x00 => if fld v 63 2 = 0 then some (s.setLink m (l.control v)) else none
    | 0x08 => none
    | 0x10 => if fld v 63 16 = 0 then some (s.setLink m { l with ethr := BitVec.ofNat 16 v.toNat }) else none
    | 0x18 => if fld v 63 32 = 0 then some (s.setLink m { l with ecnt := BitVec.ofNat 32 v.toNat }) else none
    | _ => some (s.setLink m { l with rplc := v })
  | .die d o =>
    let x := s.die d
    match o with
    | 0x00 => if v.toNat % 128 = 0 ∧ inHbm v.toNat 128 = true then some (s.setDie d { x with ptroot := v }) else none
    | 0x08 => if fld v 63 1 = 0 then some (if v = 1 then beginFlush s d else s) else none
    | 0x10 => if tableBase v then some (s.setDie d { x with rgbase := v }) else none
    | 0x18 => if fld v 63 16 = 0 then some (s.setDie d { x with rgcnt := BitVec.ofNat 16 v.toNat }) else none
    | 0x20 => if tableBase v then some (s.setDie d { x with rsbase := v }) else none
    | _ => if 4 ≤ v.toNat ∧ v.toNat ≤ 20 then some (s.setDie d { x with rslog := BitVec.ofNat 5 v.toNat }) else none

/-- The answer of a management access: a value, or an error. -/
def mgmtAnswer (s : State) (r : Option Word) : State := { s with sys := { s.sys with mgmtReply := some r } }

/-- One access of a management register, with its answer; an error changes nothing (R114). -/
def mgmtAccess (s : State) (off : Nat) (write : Option Word) : State :=
  match regAt off, write with
  | none, _ => mgmtAnswer s none
  | some r, none => mgmtAnswer s (some (regRead s r))
  | some r, some v =>
    match regWrite s r v with
    | some s => mgmtAnswer s (some 0)
    | none => mgmtAnswer s none

/-- REGISTER_WRITE (R114), by the system controller. -/
def execRegisterWrite (off : Nat) (v : Word) (s : State) : Host.Outcome State Fault Refusal := .next (mgmtAccess s off (some v))

/-- A child of the Beacon tree before its first record: it holds B and Q at 0 (R336). -/
def ChildRec.silent (round : Nat) : ChildRec :=
  { last := { b := 0, q := false, sent := 0, performed := 0, round := 0, epoch := 0 }, seen := round, lost := false }

/-- An entry of the endpoint table takes its place, and the device's place in the Beacon tree with it: one parent, and up to 192 children (R333, R336). -/
def loadEndpoint (n : SysNet) (e : Nat) (x : Endpoint) : Option SysNet :=
  let kids := mdel n.children e
  let up := n.parent.filter (fun p => p != e)
  if e = 0 ∨ 2 ^ 15 ≤ e ∨ (x.role = .child ∧ 192 ≤ kids.length) ∨ (x.role = .parent ∧ up.isSome = true) then none
  else some { n with endpoints := mset n.endpoints e x,
                     parent := if x.role = .parent then some e else up,
                     children := if x.role = .child then mset kids e ((mfind n.children e).getD (ChildRec.silent n.round)) else kids }

/-- A value that the management path takes or refuses. -/
def mgmtTake (s : State) (o : Option State) : State :=
  match o with
  | some s' => mgmtAnswer s' (some 0)
  | none => mgmtAnswer s none

/-- What a request of the management path does, with its answer; what it names and does not take is an error (log entry 13). -/
def mgmtRequest (s : State) (p : MgmtPlace) (write : Option MgmtData) : State :=
  let count := fun (ok : Bool) (n : Nat) => mgmtAnswer s (if ok then some (word n) else none)
  match p, write with
  | .register off, none => mgmtAccess s off none
  | .register off, some (.word v) => mgmtAccess s off (some v)
  | .endpoint e, some (.entry x) => mgmtTake s ((loadEndpoint s.net e x).map (fun n => { s with net := n }))
  | .ownNumber, none => count true s.net.own
  | .ownNumber, some (.word v) => mgmtTake s (if v.toNat < 2 ^ 15 then some { s with net := { s.net with own := v.toNat } } else none)
  | .powerLimit, none => count true s.sys.limit
  | .powerLimit, some (.word v) =>
    mgmtTake s (if 800 ≤ v.toNat ∧ v.toNat ≤ 1600 then some { s with sys := { s.sys with limit := v.toNat } } else none)
  | .discarded P, none => count (decide (P < 64)) (s.cluster P).discard
  | .trepc u, none => count (decide (u < 2048)) (s.core u).mgn.trepc.toNat
  | .cmisc u, none => count (decide (u < 2048)) (s.core u).mgn.cmisc.toNat
  | .softErrors u, none => count (decide (u < 2048)) (s.core u).mgn.soft
  | .ccmd u, none => mgmtAnswer s (if u < 2048 then some (s.core u).ccmdValue else none)
  | .ccmd u, some (.word v) => mgmtTake s (if u < 2048 then some (ccmdWrite u v s) else none)
  | _, _ => mgmtAnswer s none

/-- MANAGEMENT_REQUEST (R114, R333, R371), once the path is open (R369). -/
def execManagementRequest (p : MgmtPlace) (write : Option MgmtData) (s : State) : Host.Outcome State Fault Refusal :=
  .next (if s.sys.bring < 6 then s else mgmtRequest s p write)

/-- TCFLUSH_WRITE (R114). -/
def execTcflushWrite (d : Nat) (v : Word) (s : State) : Host.Outcome State Fault Refusal := .next ((regWrite s (.die d 0x08) v).getD s)

/-- TCFLUSH_COMPLETE (R91, R114): the second step of R91 ends for the pages for which it had begun. -/
def execTcflushComplete (d : Nat) (s : State) : Host.Outcome State Fault Refusal :=
  .next (
    if (s.die d).flush then
      { s.setDie d { s.die d with flush := false } with
        tcache := s.tcache.map (fun (e : TcEntry) => if e.onDie d && e.stage == 2 then { e with stage := 3 } else e) }
    else s)

/-- LCTL_RETRAIN_REQUEST and LCTL_FORCE_X32 (R331). -/
def execLctlRetrainRequest (m : Nat) (s : State) : Host.Outcome State Fault Refusal :=
  .next (s.setLink m { s.link m with lctl := (s.link m).lctl ||| 1 })
def execLctlForceX32 (m : Nat) (on : Bool) (s : State) : Host.Outcome State Fault Refusal :=
  .next (s.setLink m { s.link m with lctl := if on then (s.link m).lctl ||| 2 else (s.link m).lctl &&& 1 })

end Sys2Proof.Machine
end

