-- ==== Sys2Proof/Machine/Links.lean ====
section
/-! DEFINITION. The UCIe links (R328 to R331, R338, R339), and the Beacon between devices with the recovery from a lost one (R336, R368). -/

namespace Sys2Proof.Machine

/-! ## Flits (R328, R339) -/

/-- Byte k of a flit, byte 0 in the low bits. -/
def flitByte (f : BitVec 2048) (k : Nat) : Byte := f.extractLsb' (8 * k) 8

/-- One bit of the CRC-64 of ECMA-182. -/
def crcBit (c : BitVec 64) : BitVec 64 := if c.getLsbD 63 then (c <<< 1) ^^^ 0x42F0E1EBA9EA3693 else c <<< 1
/-- One byte of it, its high bit first. -/
def crcByte (c : BitVec 64) (b : Byte) : BitVec 64 :=
  (below 8).foldl (fun c _ => crcBit c) (c ^^^ (b.setWidth 64 <<< 56))
/-- The CRC of a list of bytes that follow a value. The value is a number, and the function looks at it before it goes on, so that the kernel too
works byte by byte. -/
def crcOver : List Byte → Nat → BitVec 64
  | [], c => BitVec.ofNat 64 c
  | b :: bs, 0 => crcOver bs (crcByte 0 b).toNat
  | b :: bs, c + 1 => crcOver bs (crcByte (BitVec.ofNat 64 (c + 1)) b).toNat
/-- The CRC over bytes 0 to 247, initial value 0. -/
def flitCrc (f : BitVec 2048) : BitVec 64 := crcOver ((below 248).map (flitByte f)) 0

/-- The fields of a flit; its CRC in bytes 248 to 255, low byte first (log entry 34). -/
def flitSeq (f : BitVec 2048) : BitVec 12 := f.extractLsb' 0 12
def flitKind (f : BitVec 2048) : Nat := (f.extractLsb' 12 4).toNat
def flitAck (f : BitVec 2048) : BitVec 12 := f.extractLsb' 16 12
def flitNak (f : BitVec 2048) : Bool := f.getLsbD 28
def flitPayload (f : BitVec 2048) : BitVec 1920 := f.extractLsb' 64 1920
def flitGood (f : BitVec 2048) : Bool := f.extractLsb' 1984 64 == flitCrc f

/-- A flit from its fields. -/
def makeFlit (seq : BitVec 12) (kind : Nat) (ack : BitVec 12) (nak : Bool) (payload : BitVec 1920) : BitVec 2048 :=
  let body : BitVec 2048 := BitVec.ofNat 2048 (seq.toNat + 2 ^ 12 * (kind % 16) + 2 ^ 16 * ack.toNat + (if nak then 2 ^ 28 else 0)
    + 2 ^ 64 * payload.toNat)
  body ||| ((flitCrc body).setWidth 2048 <<< 1984)

/-! ## Sending again (R329) -/

/-- An ACK covers the flits up to its number; the sender's timer starts anew when it covers any. -/
def Link.acked (l : Link) (ack : BitVec 12) (now : Nat) : Link :=
  let rest := l.replay.filter (fun f => !decide ((ack - f.seq).toNat < 2048))
  { l with replay := rest, resend := l.resend.filter (fun f => !decide ((ack - f.seq).toNat < 2048)),
           progress := if rest.length = l.replay.length then l.progress else now }

/-- Every flit after the last ACK is to be sent again, in order. -/
def Link.again (l : Link) : Link := { l with resend := l.replay }

/-- NAK_RECEIVE (R329). -/
def execNakReceive (m : Nat) (ack : BitVec 12) (s : State) : Host.Outcome State Fault Refusal :=
  .next (if (s.link m).up && !(s.link m).retrain then s.setLink m ((s.link m).acked ack s.now).again else s)

/-- REPLAY_TIMEOUT (R329, R338). -/
def execReplayTimeout (m : Nat) (s : State) : Host.Outcome State Fault Refusal :=
  let l := s.link m
  .next (if l.up ∧ l.timerOn = true ∧ l.retrain = false ∧ l.replay ≠ [] ∧ l.progress + 2048 ≤ s.now then
      s.setLink m { l.again with progress := s.now } else s)

/-! ## Retraining (R330, R331, R338) -/

/-- The module at the other end of a link (R6, R114). -/
def farEnd (m : Nat) : Nat :=
  if m < 4 then 4 + 3 * m + 2
  else
    let d := (m - 4) / 3
    match (m - 4) % 3 with
    | 0 => 4 + 3 * (d ^^^ 1)
    | 1 => 4 + 3 * (d ^^^ 2) + 1
    | _ => d

/-- Both ends of a link rewritten. -/
def bothEnds (s : State) (m : Nat) (f : Link → Link) : State :=
  let s := s.setLink m (f (s.link m))
  s.setLink (farEnd m) (f (s.link (farEnd m)))

/-- Whether the count of CRC failures has reached the threshold; a threshold of 0 disables fallback. -/
def Link.worn (l : Link) : Bool := l.ethr != 0 && decide (l.ethr.toNat ≤ l.ecnt.toNat)

/-- A retrain of both ends begins: requests are cleared, no NAK is sent, the timer stops. -/
def startRetrain (s : State) (m : Nat) : State :=
  let x32 := (s.link m).worn || (s.link (farEnd m)).worn || (s.link m).lctl.getLsbD 1 || (s.link (farEnd m)).lctl.getLsbD 1
  bothEnds s m (fun l => { l with retrain := true, toX32 := x32, lctl := l.lctl &&& 2, nakOwed := false, timerOn := false })

/-- LINK_RETRAIN (R330, R331): a requested retrain, or one that ECNT has brought. -/
def execLinkRetrain (m : Nat) (s : State) : Host.Outcome State Fault Refusal :=
  let l := s.link m
  .next (if l.retrain = false ∧ (l.lctl.getLsbD 0 || l.worn) = true then startRetrain s m else s)

/-- Whether every lane of a half works after repair. -/
def halfPasses (failed repaired : BitVec 64) (upper : Bool) : Bool :=
  (failed &&& ~~~repaired).extractLsb' (if upper then 32 else 0) 32 == 0

/-- What a module comes to at the end of a retrain. -/
def Link.retrained (l : Link) (failed repaired : BitVec 64) (now : Nat) : Link :=
  let lo := halfPasses failed repaired false
  let hi := halfPasses failed repaired true
  let wide := lo && hi && !l.toX32
  let l := if lo || hi then l.again else l
  { l with lanes := if wide then 64 else if lo || hi then 32 else 0, upper := !lo && hi, up := lo || hi,
           repaired := countOnes (failed &&& repaired) 64, ecnt := 0, lastCrc := now, retrain := false, toX32 := false, timerOn := true,
           progress := now }

/-- RETRAIN_COMPLETE (R330, R338); the device's accesses that waited for the link go on. -/
def execRetrainComplete (m : Nat) (failed repaired : BitVec 64) (s : State) : Host.Outcome State Fault Refusal :=
  .next (if (s.link m).retrain then retryTcbWrites (bothEnds s m (fun l => l.retrained failed repaired s.now)) else s)

/-- ECNT_QUIET_CLEAR (R330). -/
def execEcntQuietClear (m : Nat) (s : State) : Host.Outcome State Fault Refusal :=
  let l := s.link m
  .next (if l.lastCrc + 2 ^ 24 ≤ s.now then s.setLink m { l with ecnt := 0 } else s)

/-! ## Receiving and sending (R329, R338, R339) -/

/-- A good flit at a receiver: its ACK and NAK serve the other direction; a data flit is accepted in order, draws a NAK when it is ahead, and is a
duplicate when it is behind; idle and control flits bring no number (R339). -/
def Link.takeFlit (l : Link) (f : BitVec 2048) (now : Nat) : Link :=
  let l := l.acked (flitAck f) now
  let l := if flitNak f then l.again else l
  if flitKind f ≠ 1 then l
  else
    let d := (flitSeq f - l.rxExp).toNat
    if d = 0 then { l with rxExp := l.rxExp + 1, delivered := l.delivered ++ [flitPayload f] }
    else if d < 2048 then { l with nakOwed := true }
    else l

/-- FLIT_RECEIVE (R328, R329, R338). -/
def execFlitReceive (m : Nat) (flit : BitVec 2048) (s : State) : Host.Outcome State Fault Refusal :=
  let l := s.link m
  .next (
    if l.up = false ∨ l.retrain = true then s
    else if flitGood flit then (if flitKind flit ≤ 2 then s.setLink m (l.takeFlit flit s.now) else s)
    else
      let s := s.setLink m { l with ecnt := l.ecnt + 1, lastCrc := s.now, nakOwed := true }
      if (s.link m).worn then startRetrain s m else s)

/-- A module sends a flit, with the ACK and the NAK that it owes. -/
def Link.sends (l : Link) (seq : BitVec 12) (kind : Nat) (payload : BitVec 1920) : Link :=
  { l with out := makeFlit seq kind (l.rxExp - 1) l.nakOwed payload, nakOwed := false }

/-- A data flit takes the next number and enters the replay buffer; the timer starts with the first flit that is unacknowledged (R329, R339). -/
def Link.sendsData (l : Link) (payload : BitVec 1920) (now : Nat) : Link :=
  let l := { l with progress := if l.replay.isEmpty then now else l.progress }
  { l.sends l.txSeq 1 payload with txSeq := l.txSeq + 1, replay := l.replay ++ [⟨l.txSeq, 1, payload⟩] }

/-- IDLE_FLIT_SEND (R329, R339): the next flit that leaves a module: one that is to be sent again, which RPLC counts (R331); a new data flit where fewer than 128
are unacknowledged and the module owes one; or, by a free choice, another data flit, or a control flit (log entry 12); or, with nothing to send, an idle flit, which like a control flit has
the number of the next data flit. -/
def execIdleFlitSend (m : Nat) (s : State) : Host.Outcome State Fault Refusal :=
  let l := s.link m
  let n := Config.freeNat s.freeCtr
  let payload := BitVec.ofNat 1920 (Config.freeNat (s.freeCtr + 1))
  let s' := { s with freeCtr := s.freeCtr + 2 }
  .next (
    if l.up = false ∨ l.retrain = true then s
    else match l.resend with
      | f :: rest => s.setLink m { l.sends f.seq f.kind f.payload with resend := rest, rplc := l.rplc + 1 }
      | [] =>
        if 0 < l.owed ∧ l.replay.length < 128 then
          s'.setLink m { l.sendsData payload s.now with owed := if s.eager then l.owed - 1 else l.owed - (1 + n % 15) }
        else if s.eager ∨ n % 3 = 0 then s.setLink m (l.sends l.txSeq 0 0)
        else if n % 3 = 1 ∧ l.replay.length < 128 then s'.setLink m (l.sendsData payload s.now)
        else s'.setLink m (l.sends l.txSeq 2 payload))

/-! ## The Beacon between devices (R336) -/

/-- BEACON_RECORD (R336, R368): a child's record is kept, to be combined at the next publication, and the parent's brings the B and Q that the root has published. Either
carries the fault epoch. A device has at most 192 children. -/
def execBeaconRecord (child : Nat) (r : BeaconRec) (s : State) : Host.Outcome State Fault Refusal :=
  let known := mfind s.net.children child
  let net := { s.net with epoch := max s.net.epoch r.epoch }
  .next (
    if s.net.parent = some child then { s with net := { net with global := (r.b, r.q), heard := s.net.round } }
    else if known.isNone ∧ 192 ≤ s.net.children.length then s
    else
      let lost := (known.map (fun c => c.lost)).getD false
      { s with net := { net with children := mset s.net.children child ⟨r, s.net.round, lost⟩ } })

/-- A lost device raises the fault epoch, which every later record carries (R368). -/
def SysNet.loses (n : SysNet) (e : Nat) : SysNet := { n with lost := n.lost ++ [e], epoch := n.epoch + 1 }

/-- LOST_DEVICE_DETECT (R368): no record from a child, or from the parent, for 1,000 rounds. -/
def execLostDeviceDetect (child : Nat) (s : State) : Host.Outcome State Fault Refusal :=
  .next (match mfind s.net.children child with
    | some c =>
      if c.lost = false ∧ c.seen + 1000 ≤ s.net.round then
        { s with net := { s.net.loses child with children := mset s.net.children child { c with lost := true } } }
      else s
    | none =>
      if s.net.parent = some child ∧ s.net.lost.contains child = false ∧ s.net.heard + 1000 ≤ s.net.round then { s with net := s.net.loses child }
      else s)

/-- LOST_CONNECTION_DETECT (R368): the port reports 1 ms of retry without progress on the connection to an endpoint. -/
def execLostConnectionDetect (e : Nat) (s : State) : Host.Outcome State Fault Refusal :=
  .next (if s.net.lostConns.contains e then s
    else { s with net := { s.net with lostConns := s.net.lostConns ++ [e], epoch := s.net.epoch + 1 } })

/-- The kernels with a remote access outstanding to a lost device: a store or an atomic of a core, or a copy between devices (R206, R334, R368). -/
def stranded (s : State) : List KKey :=
  let away := fun (va : Word) => regionOf s 0 va == .mapped && s.net.isLost (endpointOf va)
  (s.reqs.filter (fun r => match r.kind with | .far e _ _ => s.net.isLost e && r.done.isNone | _ => false)).map (fun r => r.kern)
    ++ (s.engines.flatMap (fun e => e.2.filter (fun c => away (c.dw 0) || away (c.dw 1)))).flatMap (fun c => kernelsWith s c.kid)

/-- FAULT_EPOCH_STOP (R368): once an epoch has been announced, the kernels of the lost device's Beacon group, by their queues, and those with a remote access
outstanding to a lost device end with POISON; no core's error ended them, and their records name no unit. -/
def execFaultEpochStop (group : List Nat) (s : State) : Host.Outcome State Fault Refusal :=
  let ks := group.filterMap (fun q => ((mfind s.queues q).bind (fun x => x.kern)).map (fun k => (⟨q, k.kid⟩ : KKey))) ++ stranded s
  .next (if s.net.epoch = 0 then s else ks.dedup.foldl (fun s k => endKernel s k .poison 0 0) s)

end Sys2Proof.Machine
end

