-- ==== Sys2Proof/Machine/LoadStore.lean ====
section
/-! DEFINITION. The load and store class (R98 to R109). -/

namespace Sys2Proof.Machine

/-! ## Scalar loads and stores (R98, R99) -/

/-- A load of `size` bytes into gD, extended by `ext` (R99). -/
def loadG (size : Nat) (ext : Nat → Word) (d : GReg) (ea : Word) : M Flow := do
  let x ← loadScalar ea size
  setG d (ext x)
  pure .next

/-- A store of the low `size` bytes of gD (R99). -/
def storeG (size : Nat) (v ea : Word) : M Flow := do
  storeScalar ea size v false
  pure .next

def execLdB (d a : GReg) (off : Word) (s : State) := runM (loadG 1 (sext64 8) d (s.ea a off 1)) s
def execLdH (d a : GReg) (off : Word) (s : State) := runM (loadG 2 (sext64 16) d (s.ea a off 2)) s
def execLdW (d a : GReg) (off : Word) (s : State) := runM (loadG 4 (sext64 32) d (s.ea a off 4)) s
def execLdD (d a : GReg) (off : Word) (s : State) := runM (loadG 8 word d (s.ea a off 8)) s
def execLduB (d a : GReg) (off : Word) (s : State) := runM (loadG 1 word d (s.ea a off 1)) s
def execLduH (d a : GReg) (off : Word) (s : State) := runM (loadG 2 word d (s.ea a off 2)) s
def execLduW (d a : GReg) (off : Word) (s : State) := runM (loadG 4 word d (s.ea a off 4)) s
def execStB (d a : GReg) (off : Word) (s : State) := runM (storeG 1 (s.rg d) (s.ea a off 1)) s
def execStH (d a : GReg) (off : Word) (s : State) := runM (storeG 2 (s.rg d) (s.ea a off 2)) s
def execStW (d a : GReg) (off : Word) (s : State) := runM (storeG 4 (s.rg d) (s.ea a off 4)) s
def execStD (d a : GReg) (off : Word) (s : State) := runM (storeG 8 (s.rg d) (s.ea a off 8)) s

/-! ## Sectors (R102) -/

def execLdv (d : VReg) (a : GReg) (off : Word) (s : State) :=
  runM (do let x ← loadSector (s.ea a off 64); setV d x; pure .next) s
def execStv (d : VReg) (a : GReg) (off : Word) (s : State) :=
  runM (do storeSector (s.ea a off 64) (s.rv d); pure .next) s

/-! ## Packed runs (R103 to R107, R164) -/

/-- ⌈a / b⌉. -/
def ceilDiv (a b : Nat) : Nat := (a + b - 1) / b

/-- V, the bytes of header and mask of a run of N elements (R103). -/
def runHead (n : Nat) : Nat := 8 + 64 * ceilDiv n 512

/-- The register that follows an even base register (R105). -/
def pairHigh (a : GReg) : GReg := a + 1

/-- The cursor register's contents: E, Z and the element tag (R104). -/
def cursor (e z : Nat) (tag : Half) : Word := word e ||| word (65536 * z) ||| word (2 ^ 32 * tag.toNat)

/-- The header, the mask and the values of a run are accessed in parts that no register of a notify page accepts (R113). -/
def noNotify (ps : List Piece) : M Unit :=
  match ps.find? (fun p => match p.place with | .notify _ => true | _ => false) with
  | some p => trapM (.at .plbDeny p.va)
  | none => pure ()

/-- Reads bytes of a run. -/
def readRange (w : Who) (acc : Acc) (va : Word) (len : Nat) : M Nat := do
  let ps ← resolve w acc va len
  noNotify ps
  noPoison w ps
  let bs ← readPieces w ps
  pure (leNat bs)

/-- LDVX (R107). -/
def expandRun (d : VReg) (a : GReg) : M Flow := do
  let s ← get
  let base := s.rg a
  let cur := s.rg (pairHigh a)
  let e := fld cur 15 0
  let z := fld cur 31 16
  let tag : Half := BitVec.ofNat 16 (fld cur 47 32)
  let ps ← resolve s.me .load base 2
  noNotify ps
  match codeWidth (tagCode tag), fld cur 63 48 with
  | some w, 0 =>
    noPoison s.me ps
    let hb ← readPieces s.me ps
    let n := leNat hb
    let l := 512 / w
    if n ≤ e then
      setV d ⟨0, tag⟩
      pure .next
    else
      let cnt := min l (n - e)
      let mask ← readRange s.me .load (base + word (8 + e / 8)) ((e + cnt - 1) / 8 - e / 8 + 1)
      let bit := fun j => decide (j < cnt) && Nat.testBit mask (e % 8 + j)
      let nz := (below cnt).countP bit
      let lo := z * w / 8
      let vals ← if nz = 0 then pure 0
        else readRange s.me .load (base + word (runHead n + lo)) (ceilDiv ((z + nz) * w) 8 - lo)
      let elem := fun j => if bit j then vals / 2 ^ (z * w - lo * 8 + w * (below j).countP bit) % 2 ^ w else 0
      setV d ⟨lanes w elem, tag⟩
      setG (pairHigh a) (cursor (min (e + l) n) (z + nz) tag)
      pure .next
  | _, _ => trapM (.plain .formatFault)

/-- What STVP does to the run's mask and values: the elements handled so far, the nonzero values written, and whether the
capacity ran out (R106). -/
structure PackRun where
  e    : Nat
  z    : Nat
  mask : Nat
  vals : Nat
  full : Bool
  deriving DecidableEq, Repr

/-- The loop of R106 over `n` more lanes from lane j; `mask` has bit 0 at the first element's mask byte, `vals` at the first value
byte that may change. -/
def packLoop (w v cap lo e0 : Nat) (lane : Nat → Nat) : Nat → Nat → PackRun → PackRun
  | 0, _, r => r
  | n + 1, j, r =>
    let x := lane j
    let bit := r.e - e0 / 8 * 8
    if x = 0 then
      packLoop w v cap lo e0 lane n (j + 1)
        { r with e := r.e + 1, mask := if Nat.testBit r.mask bit then r.mask - 2 ^ bit else r.mask }
    else if cap < v + ceilDiv ((r.z + 1) * w) 8 then { r with full := true }
    else
      let at_ := r.z * w - lo * 8
      packLoop w v cap lo e0 lane n (j + 1)
        { r with e := r.e + 1, z := r.z + 1, mask := if Nat.testBit r.mask bit then r.mask else r.mask + 2 ^ bit,
                 vals := r.vals - r.vals / 2 ^ at_ % 2 ^ w * 2 ^ at_ + x * 2 ^ at_ }

/-- Writes bytes of a run, each sector it touches on a typed page tagged 0x5000 if it holds header or mask bytes, which lie
below `edge`, and 0x5100 otherwise (R106); `n` bounds the number of sectors. -/
def storeRun (w : Who) (edge : Nat) : Nat → Word → List Byte → M Unit
  | 0, _, _ => pure ()
  | n + 1, va, bs => do
    if bs = [] then pure ()
    else
      let room := 64 - va.toNat % 64
      let tag : Half := if va.toNat / 64 * 64 < edge then 0x5000 else 0x5100
      storeBytes w .sector va (bs.take room) (some tag) false
      storeRun w edge n (va + word room) (bs.drop room)

/-- STVP (R106): each order of R100 over every byte that it can touch, before it writes anything. -/
def packRun (a : GReg) (b : VReg) : M Flow := do
  let s ← get
  let w? := s.me
  let base := s.rg a
  let cur := s.rg (pairHigh a)
  let x := s.rv b
  let e := fld cur 15 0
  let z := fld cur 31 16
  let tag : Half := if e = 0 then x.tag else BitVec.ofNat 16 (fld cur 47 32)
  let ps ← resolve w? .sector base 8
  noNotify ps
  match codeWidth (tagCode tag), decide (x.tag = tag) && fld cur 63 48 == 0 with
  | some w, true =>
    ringsFree ps
    noPoison w? ps
    let hb ← readPieces w? ps
    let n := leNat (hb.take 2)
    let cap := leNat (hb.drop 4)
    let v := runHead n
    if n ≤ e then trapM (.at .packOverrun base)
    else if cap < v then trapM (.at .packOverrun (base + 4))
    else
      let l := 512 / w
      let r := min (n - e) (l - e % l)
      let mLo := e / 8
      let mLen := (e + r - 1) / 8 - mLo + 1
      let lo := z * w / 8
      let hi := min cap (v + ceilDiv ((z + r) * w) 8)
      let mParts := rangeParts (redirected w? (base + word (8 + mLo))) mLen
      let all ← resolveParts w? .sector (mParts ++ rangeParts (redirected w? (base + word (v + lo))) (hi - (v + lo)))
      noNotify all
      ringsFree all
      noPoison w? all
      let mps := all.take mParts.length
      let vps := all.drop mParts.length
      let mb ← readPieces w? mps
      let vb ← readPieces w? vps
      let out := packLoop w v cap lo e (laneOf x.bits w) r (e % l) ⟨e, z, leNat mb, leNat vb, false⟩
      let edge := base.toNat + v
      let mWr := if out.e = e then 0 else (out.e - 1) / 8 - mLo + 1
      let vWr := if out.z = z then 0 else ceilDiv (out.z * w) 8 - lo
      storeRun w? edge (mLen + 1) (base + word (8 + mLo)) (leBytes mWr out.mask)
      storeRun w? edge (vWr + 1) (base + word (v + lo)) (leBytes vWr out.vals)
      storeRun w? edge 2 (base + 2) (leBytes 2 out.z)
      setG (pairHigh a) (cursor out.e out.z tag)
      pure (if out.full then .trapped (.at .packOverrun (base + word (v + out.z * w / 8))) else .next)
  | _, _ => trapM (.plain .formatFault)

def execLdvx (d : VReg) (a : GReg) (s : State) := runM (expandRun d a) s
def execStvp (a : GReg) (b : VReg) (s : State) := runM (packRun a b) s

/-! ## Futures (R108, R109) -/

/-- The place of a future word: page-mapped memory of this device that is not replicated; anything else raises PLB_DENY (R108, R334). A page of the notify
aperture has no home slice and lists no such access, so it raises PLB_DENY too (log entry 50). -/
def futurePlace (ea : Word) (acc : Acc) : M (Piece × Nat) := do
  aligned ea 8
  let s ← get
  let ps ← resolve s.me acc ea 8
  match ps with
  | [p] =>
    match p.place with
    | .mem loc => if p.repl ∨ sramBase ≤ loc then trapM (.at .plbDeny ea) else pure (p, loc)
    | _ => trapM (.at .plbDeny ea)
  | _ => trapM (.at .plbDeny ea)

/-- The home slice reads or writes a future word after the core's own accesses to it: they are performed first (R101, R120), and what the
core and its cluster hold of a word of a UO page goes there. -/
def beforeFuture (p : Piece) (loc : Nat) : M Unit :=
  modify (fun s =>
    let so := p.kind == 0
    let s := drainThrough s s.cur (fun e => e.release || e.touches loc 8 || (so && e.so))
    let s := flushWhere s s.cur (fun r => (so && r.so) || r.touches loc 8)
    if p.kind = 2 then sendHome s s.cur (upFrom loc 8) else s)

/-- The number of deferral entries that a slice has taken (R109). -/
def State.deferred (s : State) (slice : Nat) : Nat := s.defers.countP (fun d => d.slice == slice)

/-- LDF: the value, or a deferral entry at the home slice, or, with no entry free, a negative acknowledgement (R108, R109). An answer
held in the pop buffer completes it. It acquires as LDA. -/
def loadFuture (d : GReg) (ea : Word) : M Flow := do
  let s ← get
  match (s.core s.cur).pop with
  | some (.val v) =>
    modify (fun s => acquire s s.cur)
    setG d v
    pure .next
  | _ =>
    let (p, loc) ← futurePlace ea .load
    noPoison s.me [p]
    beforeFuture p loc
    let s ← get
    let v := word (s.mem.nat loc 8)
    if v ≠ emptyWord then
      modify (fun s => acquire s s.cur)
      setG d v
      pure .next
    else if s.deferred (homeSlice ea) < 64 then
      modify (fun s => parkCore { s with defers := s.defers ++ [⟨homeSlice ea, loc, some s.cur⟩] } s.cur (.future loc))
      pure .stay
    else
      modify (fun s => parkCore s s.cur (.futureRetry loc s.now))
      pure .stay

/-- STF: a release store at the home slice, as STL (R108, R126). -/
def storeFuture (v ea : Word) : M Flow := do
  let (p, loc) ← futurePlace ea .store
  beforeFuture p loc
  modify (fun s => storeEntry s s.cur { va := ea, writes := writesAt loc (leBytes 8 v.toNat), so := p.kind == 0, uo := p.kind == 2,
                                         repl := false, release := true, sent := none, since := s.now })
  pure .next

def execLdf (d a : GReg) (off : Word) (s : State) := runM (loadFuture d (s.ea a off 8)) s
def execStf (d a : GReg) (off : Word) (s : State) := runM (storeFuture (s.rg d) (s.ea a off 8)) s

end Sys2Proof.Machine
end

