-- ==== Sys2Proof/Machine/Power.lean ====
section
/-! DEFINITION. Bring-up, secure boot, cold reset, and the clock (R23, R29, R32, R369 to R371). -/

namespace Sys2Proof.Machine

/-! ## Bring-up (R369, R370) -/

/-- Whether the root of trust accepts an image: its keys are the fused ones, both signatures verify, and its version is not below the rollback counter (R370). -/
def accepts (y : SysCtl) (i : FwImage) : Bool :=
  i.rsaKey == y.keys.1 && i.slhKey == y.keys.2 && i.rsaOk && i.slhOk && decide (y.rollback ≤ i.version)

/-- The first 64 bits of the fraction of the k-th root of p, as SHA-384 takes its constants from primes. -/
def rootBits (k p : Nat) : Word :=
  word ((below 70).reverse.foldl (fun r i => if (r + 2 ^ i) ^ k ≤ p * 2 ^ (64 * k) then r + 2 ^ i else r) 0)

/-- The first 80 primes. -/
def shaPrimes : List Nat := ((upFrom 2 408).filter (fun n => (upFrom 2 19).all (fun d => n % d != 0 || n == d)))

/-- The functions of SHA-384 on words, by their two rotations and a third rotation or shift. -/
def shaBig (a b c : Nat) (x : Word) : Word := x.rotateRight a ^^^ x.rotateRight b ^^^ x.rotateRight c
def shaSmall (a b c : Nat) (x : Word) : Word := x.rotateRight a ^^^ x.rotateRight b ^^^ (x >>> c)

/-- The message schedule of SHA-384, newest word first, after n more words. -/
def shaSchedule : Nat → List Word → List Word
  | 0, ws => ws
  | n + 1, ws => shaSchedule n ((shaSmall 19 61 6 (ws.getD 1 0) + ws.getD 6 0 + shaSmall 1 8 7 (ws.getD 14 0) + ws.getD 15 0) :: ws)

/-- A round of SHA-384 on the eight working words, with the sum of its constant and its message word. -/
def shaRound (h : List Word) (kw : Word) : List Word :=
  match h with
  | [a, b, c, d, e, f, g, z] =>
    let t := z + shaBig 14 18 41 e + ((e &&& f) ^^^ (~~~e &&& g)) + kw
    [t + shaBig 28 34 39 a + ((a &&& b) ^^^ (a &&& c) ^^^ (b &&& c)), a, b, c, d + t, e, f, g]
  | _ => h

/-- SHA-384 of 96 bytes, a register and the digest that extends it, which with their padding are one block (R370; log entry 47). -/
def extend (old new : BitVec 384) : BitVec 384 :=
  let block : BitVec 1024 := old ++ new ++ (0x80000000000000000000000000000000 : BitVec 128) ++ (768 : BitVec 128)
  let ws := (shaSchedule 64 ((below 16).reverse.map (fun k => word ((block.toNat / 2 ^ (64 * (15 - k))) % 2 ^ 64)))).reverse
  let init := ((shaPrimes.drop 8).take 8).map (rootBits 2)
  let final := (shaPrimes.zip ws).foldl (fun h p => shaRound h (rootBits 3 p.1 + p.2)) init
  BitVec.ofNat 384 ((((init.zip final).take 6).map (fun x => x.1 + x.2)).foldl (fun n x => n * 2 ^ 64 + x.toNat) 0)

/-- An accepted image extends a measurement register: 0 for first-stage firmware, 1 for that of the supervisors (R370; log entry 47). -/
def SysCtl.measured (y : SysCtl) (r : Nat) (i : FwImage) : SysCtl := { y with measure := y.measure.set r (extend (y.measure.getD r 0) i.digest) }

/-- The map of the clusters that are not quarantined, in ascending physical order (R30). -/
def withMap (s : State) (quar : List Nat) : State :=
  let live := (below 64).filter (fun P => !quar.contains P)
  { s with quarCl := quar, lmap := live, nlive := live.length }

/-- Step 2: every module trains, with its failed and its repaired lanes, to the width that R330 gives. -/
def trainLinks (s : State) (ms : List (Nat × BitVec 64 × BitVec 64)) : State :=
  ms.foldl (fun s m => s.setLink m.1 ((s.link m.1).retrained m.2.1 m.2.2 s.now)) s

/-- Step 3: clusters that fail the self-test leave the map, and each core takes its default margin step (R23, R29). -/
def selfTest (s : State) (pass : List Nat) (margins : List (Nat × Nat)) : State :=
  margins.foldl (fun s p => s.modCore p.1 (fun c => { c with mgn := { c.mgn with step := p.2 % 16, dflt := p.2 % 16 } }))
    (withMap s ((below 64).filter (fun P => !pass.contains P)))

/-- Step 4: stow frames and context buffers of the 64 clusters, and the page-table roots (R89, R296). -/
def reserveMemory (s : State) (frames ctxs : Nat) (ctxVa : Word) (roots : List Word) : State :=
  let s := (below 64).foldl (fun s P => s.modCluster P (fun c =>
    { c with frames := frames + P * (1024 * 1536), ctxs := ctxs + P * 2 ^ 21, ctxVa := ctxVa + word (P * 2 ^ 21) })) s
  (below 4).foldl (fun s d => s.setDie d { s.die d with ptroot := roots.getD d 0 }) s

/-- Steps 2 to 6, after the first-stage firmware has been accepted: supervisor firmware that is refused leaves the management path closed. -/
def bringUp (s : State) (b : BringUp) : State :=
  let s := reserveMemory (selfTest (trainLinks s b.lanes) b.pass b.margins) b.frameBase b.ctxBase b.ctxVa b.ptroots
  if accepts s.sys b.supervisor then { s with sys := { s.sys.measured 1 b.supervisor with bring := 6 } }
  else { s with sys := { s.sys with bring := 4 } }

/-- POWER_ON (R369): a first-stage image that is refused leaves the module in recovery mode. -/
def execPowerOn (b : BringUp) (s : State) : Host.Outcome State Fault Refusal :=
  .next (
    if s.sys.bring ≠ 0 ∨ s.sys.recovery = true then s
    else if accepts s.sys b.image then
      bringUp { s with sys := { s.sys.measured 0 b.image with fwVersion := b.image.version, bring := 1 } } b
    else { s with sys := { s.sys with recovery := true } })

/-- RECOVERY_FIRMWARE_IMAGE (R369): verified in the same way; an accepted image ends recovery mode, and bring-up can begin anew. -/
def execRecoveryFirmwareImage (img : FwImage) (s : State) : Host.Outcome State Fault Refusal :=
  .next (
    if s.sys.recovery && accepts s.sys img then
      { s with sys := { s.sys.measured 0 img with recovery := false, fwVersion := img.version } }
    else s)

/-- ATTESTATION_QUOTE (R370): a quote of the measurement registers, signed in both algorithms; the signatures are free values (log entry 47). -/
def execAttestationQuote (nonce : BitVec 384) (s : State) : Host.Outcome State Fault Refusal :=
  let q : Quote := { nonce := nonce, measure := s.sys.measure, rsa := BitVec.ofNat 3072 (Config.freeNat s.freeCtr),
                     slh := BitVec.ofNat 129792 (Config.freeNat (s.freeCtr + 1)) }
  .next { s with sys := { s.sys with quotes := s.sys.quotes ++ [q] }, freeCtr := s.freeCtr + 2 }

/-! ## COLD_RESET (R28, R29, R30) -/

/-- COLD_RESET: every unit as at reset; a quarantined cluster rejoins the map if it passes the self-test. Memory keeps its contents, and the rollback counter
and the digests of the keys are fused (log entry 35). -/
def execColdReset (pass : List Nat) (s : State) : Host.Outcome State Fault Refusal :=
  .next (withMap { State.reset with
      mem := s.mem, backing := s.backing, freeFrames := s.freeFrames, sys := { SysCtl.reset with rollback := s.sys.rollback, keys := s.sys.keys }, cur := s.cur,
      moves := s.moves, eager := s.eager, freeCtr := s.freeCtr }
    (s.quarCl.filter (fun P => !pass.contains P)))

/-! ## The clock (R32, R371) -/

/-- The clock one step of 100 MHz lower or higher, at most 3.3 GHz; it is not lowered below 100 MHz, a floor that the spec does not give (log entry 68). -/
def SysCtl.slower (y : SysCtl) : SysCtl := { y with clock := max 100 (y.clock - 100) }
def SysCtl.faster (y : SysCtl) : SysCtl := { y with clock := min 3300 (y.clock + 100) }

/-- THERMAL_THROTTLE (R32): the junction temperature of one millisecond. Once it has exceeded 100 °C the clock goes down until it falls below that. -/
def execThermalThrottle (temp : Nat) (s : State) : Host.Outcome State Fault Refusal :=
  let y := { s.sys with temp := temp, hot := decide (100 < temp) || (s.sys.hot && temp == 100) }
  .next { s with sys := if y.hot then y.slower else y.faster }

/-- THERMAL_SHUTDOWN (R32): at 110 °C all dies stop, and the management path reports the shutdown. -/
def execThermalShutdown (temp : Nat) (s : State) : Host.Outcome State Fault Refusal :=
  .next (if 110 ≤ temp then { s with sys := { s.sys with temp := temp, shutdown := true, reported := true } } else s)

/-- POWER_LIMIT_THROTTLE (R371): the power averaged over one millisecond; the clock is restored where the temperature allows it. -/
def execPowerLimitThrottle (watts : Nat) (s : State) : Host.Outcome State Fault Refusal :=
  .next { s with sys := if s.sys.limit < watts then s.sys.slower else if s.sys.hot then s.sys else s.sys.faster }

end Sys2Proof.Machine
end

