-- ==== Sys2Proof/Machine/Requests.lean ====
section
/-! DEFINITION. Requests on their way (R26, R135, R138, R139, R279) and accesses from other devices (R332 to R335). -/

namespace Sys2Proof.Machine

/-! ## ATOMIC_PERFORM, REQUEST_REPLY, REQUEST_TIMEOUT -/

/-- Whether request a, sent first, is performed before request b: atomics of one core on one word take effect in program order (R138), and a ROD connection
delivers in order (R332, R334). -/
def performsFirst (a b : Req) : Bool :=
  match a.kind, b.kind with
  | .atomic _, .atomic _ => a.sender == b.sender && a.loc / 8 == b.loc / 8
  | .far e true _, .far e' true _ => e == e'
  | _, _ => false

/-- A request's effect at its home, and the reply (R135, R279, R334). -/
def reqEffect (s : State) (r : Req) : Reply × State :=
  match r.kind with
  | .atomic op => homeReply s op r.sender r.va r.loc r.repl r.b r.a
  | .peek st key kern => (.val (peekValue s kern st key), s.roundTrip (dieOf (clusterOf r.sender)) (dieOf (homeOf s st key)))
  | .far _ _ op => farReply s r.va op

/-- A request that has its reply: one whose instruction has retired leaves, and reports a cause late; one whose core was killed leaves; any other holds the
reply for its core (R135, R139). -/
def settleReq (s : State) (k : Nat) (r : Req) (x : Reply) : State :=
  let gone := { s with reqs := dropAt s.reqs k }
  if r.retired then settleLate gone r x
  else if r.core.isNone then gone
  else { s with reqs := s.reqs.set k { r with done := some x } }

/-- Whether the path of a request has failed; an EVPEEK's goes to the home of its key (R279, R330). -/
def reqPathDown (s : State) (r : Req) : Bool :=
  match r.kind with
  | .peek st key _ => pathDown s (dieOf (clusterOf r.sender)) (dieOf (homeOf s st key))
  | _ => r.cut s

/-- ATOMIC_PERFORM (R135, R138): the k-th request reaches its home, over a path that is up, and takes effect there, once; or the cause that it has found is
reported, where the network interface held a record before (R347). -/
def execAtomicPerform (k : Nat) (s : State) : Host.Outcome State Fault Refusal :=
  .next (match s.reqs[k]? with
    | none => s
    | some r =>
      match r.done with
      | some x =>
        if r.retired && !s.holdsRecord (.net (clusterOf r.sender)) then settleLate { s with reqs := dropAt s.reqs k } r x else s
      | none =>
        if reqPathDown s r ∨ (s.reqs.take k).any (fun x => x.done.isNone && performsFirst x r) = true then s
        else
          let (x, s') := reqEffect s r
          settleReq s' k r x)

/-- The reply of core u's request, with its place. -/
def replyFor (s : State) (u : Nat) : Option (Nat × Req × Reply) :=
  ((below s.reqs.length).zip s.reqs).findSome? (fun (p : Nat × Req) =>
    if p.2.core = some u ∧ p.2.retired = false then p.2.done.map (fun x => (p.1, p.2, x)) else none)

/-- REQUEST_REPLY (R26, R135, R277, R279): the reply of an atomic, of EVPEEK or of EVUPDT lets the instruction retire, or trap. The network interface
takes no response in while it holds a record (R347). -/
def execRequestReply (u : Nat) (s : State) : Host.Outcome State Fault Refusal :=
  .next (
    if (s.core u).wait ≠ .request ∨ s.holdsRecord (.net (clusterOf u)) = true then s
    else match (s.core u).pop, replyFor s u with
      | some (.val _), _ => retireCore (noteSent (bumpSeq s u) u) u
      | some (.fail c sub fa tag data seq), _ =>
        takeTrap s u { cause := c, sub := sub, faddr := fa, tag := tag, data := data, seq := seq }
      | none, some (k, r, .val v) => retireCore ({ s with reqs := dropAt s.reqs k }.modCore u (fun c => c.wg r.d v)) u
      | none, some (k, _, .fail c _ fa _ _ _) => takeTrap { s with reqs := dropAt s.reqs k } u (.at c fa)
      | none, none => s)

/-- A request of the k-th place whose path has failed, 2^20 cycles after it left: it completes with POISON, and its effect at the home is unknown (R138). -/
def requestExpires (s : State) (k : Nat) (r : Req) : State :=
  let s' := if Config.freeBool s.freeCtr then (reqEffect s r).2 else s
  settleReq s'.tickFree k r (.fail .poison 0 r.va 0 0 0)

/-- Core u's access whose path has failed: it goes on when the path is up again, and completes with POISON 2^20 cycles after it left; an instruction fetch
raises FETCH_FAULT (R51, R138, R330; log entry 51). -/
def accessExpires (s : State) (u : Nat) : State :=
  let c := s.core u
  match c.wait with
  | .path va src dst since =>
    if pathDown s src dst = false then parkCore s u .none
    else if s.now < since + 2 ^ 20 then s
    else if c.fetchWait then takeTrap s u (s.fetchTrap u va)
    else takeTrap s u (.at .poison va)
  | .request =>
    match s.upds.findIdx? (fun x => x.reply == some u && x.cut s && decide (x.since + 2 ^ 20 ≤ s.now)) with
    | some j =>
      let lost : List Update := if Config.freeBool s.freeCtr then dropAt s.upds j
        else s.upds.map (fun (x : Update) => if x.reply = some u then { x with reply := none } else x)
      takeTrap { s.tickFree with upds := lost } u (.at .poison 0)
    | none => s
  | _ => s

/-- The n-th update on its way, for which no core waits, or source, counted on from there, completes 2^20 cycles after its path has failed, without a record; whether
it has taken effect is unknown (R138, R340; log entry 84). -/
def trafficExpires (s : State) (n : Nat) : State :=
  let due := fun (since : Nat) => decide (since + 2 ^ 20 ≤ s.now)
  match s.upds[n]? with
  | some x =>
    if x.reply.isNone && x.cut s && due x.since then
      let rest := { s.tickFree with upds := dropAt s.upds n }
      if Config.freeBool s.freeCtr then (arrive rest x).getD rest else rest
    else s
  | none =>
    match s.fansOut[n - s.upds.length]? with
    | some f =>
      match f.targets.find? (fun L => pathDown s (dieOf (clusterOf f.core)) (dieOf (physOf s L))) with
      | some L => if due f.since then fanLeaves (if Config.freeBool s.freeCtr then fanReaches s.tickFree f (physOf s L) else s.tickFree) f L else s
      | none => s
    | none => s

/-- REQUEST_TIMEOUT (R138, R330): what waits on a path that has failed: the k-th request on its way, or, counted on from there, the access or the EVUPDT of one of
the 2,048 cores, the update of none, or a fan-out source. -/
def execRequestTimeout (k : Nat) (s : State) : Host.Outcome State Fault Refusal :=
  .next (match s.reqs[k]? with
    | none =>
      let n := k - s.reqs.length
      if n < 2048 then accessExpires s n else trafficExpires s (n - 2048)
    | some r =>
      if s.now < r.since + 2 ^ 20 ∨ reqPathDown s r = false ∨ r.done.isSome = true then s else requestExpires s k r)

/-! ## REMOTE_REQUEST (R334, R335) -/

/-- The address of a remote access at its home: E cleared (R334). -/
def homeAddress (va : Word) : Word := va &&& ~~~(word (0x7FFF * 2 ^ 40))

/-- The device performs an atomic for another one: at the word's home, or through the sequencer (R132, R134). -/
def atomicForPeer (s : State) (op : AtomOp) (loc : Nat) (repl : Bool) (b d : Word) : Word × State :=
  let home := loc / stackSize / 2
  let s := if repl then applyBelow s home s.seqNext else s
  let old := word (s.mem.nat loc (atomSize op))
  match atomApply op old b d with
  | none => (old, s)
  | some v =>
    let ws := writesAt loc (leBytes (atomSize op) v.toNat)
    (old, if repl then (let t := sequence s noCore ws
                        if s.eager then applyAll t else applyBelow t home t.seqNext)
          else performWrites s ws)

/-- A remote atomic at its home, checked as R136 gives. -/
def remoteAtHome (w : Who) (va : Word) (op : AtomOp) (b d : Word) : M (List Byte) := do
  aligned va (atomSize op)
  let ps ← resolve w .atomic va (atomSize op)
  match ps with
  | [p] =>
    needM (p.kind != 2 || p.repl) (.at .plbDeny va)
    ringsFree ps
    match p.place with
    | .mem loc =>
      let s ← get
      let tag := if p.typed then homeTag s p.repl loc else 0
      needM (op != .fadd || tagCode tag == 0 || tag == 0x1000) (.at .formatFault va)
      needM (!locPoisoned s loc) (.at .poison va)
      let r := atomicForPeer s op loc p.repl b d
      set r.2
      pure (leBytes (atomSize op) r.1.toNat)
    | _ => trapM (.at .plbDeny va)
  | _ => trapM (.at .plbDeny va)

/-- A sector and its tag, as their bytes. -/
def sectorBytes (x : Sector) : List Byte := leBytes 64 x.toNat

/-- One remote access, as the agent `w` performs it at the home, with its connection's rights. -/
def remoteAccess (w : Who) (r : RemoteReq) : M (List Byte) := do
  let va := homeAddress r.addr
  needM (!bitAt r.addr 55) (.at .plbDeny va)
  match r.op with
  | .atomic op b d => remoteAtHome w va op b d
  | .read n => loadBytes w va n
  | .write bs => do
    storeBytes w .store va bs none false
    pure []
  | .readSector => do
    aligned va 64
    let ps ← resolve w .load va 64
    noPoison w ps
    match ps with
    | [p] =>
      let (bs, t) ← readSectorPiece w p
      pure (bs ++ leBytes 2 t.toNat)
    | _ => pure []
  | .writeSector x t => do
    aligned va 64
    storeBytes w .sector va (sectorBytes x) (some t) false
    pure []

/-- An access that has ended: its answer, with the count of remote stores and atomics performed (R336). -/
def remoteDone (s : State) (r : RemoteReq) (x : PeerReply) : State :=
  let n := match x, r.op with
    | .data _, .read _ => 0
    | .data _, .readSector => 0
    | .data _, _ => 1
    | .fault _, _ => 0
  { s with net := { s.net with reply := some x, performed := s.net.performed + n, held := s.net.held.erase r } }

/-- An access that waits for a page, a bank or a path stays at the port until its step comes again. -/
def remoteHeld (s : State) (r : RemoteReq) : State :=
  if s.net.held.contains r then s else { s with net := { s.net with held := s.net.held ++ [r] } }

/-- REMOTE_REQUEST (R111, R334, R336): at the die of its home, performed and counted, answered with its cause, or held. -/
def execRemoteRequest (r : RemoteReq) (s : State) : Host.Outcome State Fault Refusal :=
  let d := homeDie (homeAddress r.addr)
  .next (if pathDown s d 4 then remoteHeld s r
    else match remoteAccess (engineWho (some r.tenant) (16 * d)) r s with
    | .ok (bs, s) => remoteDone s r (.data bs)
    | .error (.trap t) => remoteDone s r (.fault t.cause)
    | .error (.wait (.page va)) =>
      match faultRegen s va (some (.net 64)) with
      | (true, s) => remoteDone s r (.fault .pageFault)
      | (false, s) => remoteHeld s r
    | .error (.wait _) => remoteHeld s r)

/-- UE_CONNECTION_OPEN (R332): reliable-ordered and reliable-unordered connections open, and any other is refused. -/
def execUeConnectionOpen (mode : UeMode) (peer : Nat) (s : State) : Host.Outcome State Fault Refusal :=
  .next (match mode with
    | .other => { s with net := { s.net with reply := some (.fault .plbDeny) } }
    | m => { s with net := { s.net with conns := s.net.conns ++ [(m, peer)] } })

end Sys2Proof.Machine
end

