-- ==== Sys2Proof/Machine/Dispatch.lean ====
section
/-! DEFINITION. exec: one arm per constructor of Instr, each one call of its meaning. -/

namespace Sys2Proof.Machine

/-- The outcome of one instruction of the core whose turn it is, or of one step of another agent. -/
def exec (i : Instr) (s : State) : Host.Outcome State Fault Refusal :=
  match i with
  | .add d a b => Sys2Proof.Machine.execAdd d a b s
  | .addImm d a imm => Sys2Proof.Machine.execAddImm d a imm s
  | .sub d a b => Sys2Proof.Machine.execSub d a b s
  | .subImm d a imm => Sys2Proof.Machine.execSubImm d a imm s
  | .mul d a b => Sys2Proof.Machine.execMul d a b s
  | .mulImm d a imm => Sys2Proof.Machine.execMulImm d a imm s
  | .mulh d a b => Sys2Proof.Machine.execMulh d a b s
  | .mulhImm d a imm => Sys2Proof.Machine.execMulhImm d a imm s
  | .div d a b => Sys2Proof.Machine.execDiv d a b s
  | .divImm d a imm => Sys2Proof.Machine.execDivImm d a imm s
  | .divu d a b => Sys2Proof.Machine.execDivu d a b s
  | .divuImm d a imm => Sys2Proof.Machine.execDivuImm d a imm s
  | .rem d a b => Sys2Proof.Machine.execRem d a b s
  | .remImm d a imm => Sys2Proof.Machine.execRemImm d a imm s
  | .sel d a b => Sys2Proof.Machine.execSel d a b s
  | .selImm d a imm => Sys2Proof.Machine.execSelImm d a imm s
  | .and d a b => Sys2Proof.Machine.execAnd d a b s
  | .andImm d a imm => Sys2Proof.Machine.execAndImm d a imm s
  | .or d a b => Sys2Proof.Machine.execOr d a b s
  | .orImm d a imm => Sys2Proof.Machine.execOrImm d a imm s
  | .xor d a b => Sys2Proof.Machine.execXor d a b s
  | .xorImm d a imm => Sys2Proof.Machine.execXorImm d a imm s
  | .sra d a b => Sys2Proof.Machine.execSra d a b s
  | .sraImm d a imm => Sys2Proof.Machine.execSraImm d a imm s
  | .shl d a b => Sys2Proof.Machine.execShl d a b s
  | .shlImm d a imm => Sys2Proof.Machine.execShlImm d a imm s
  | .shr d a b => Sys2Proof.Machine.execShr d a b s
  | .shrImm d a imm => Sys2Proof.Machine.execShrImm d a imm s
  | .min d a b => Sys2Proof.Machine.execMin d a b s
  | .minImm d a imm => Sys2Proof.Machine.execMinImm d a imm s
  | .max d a b => Sys2Proof.Machine.execMax d a b s
  | .maxImm d a imm => Sys2Proof.Machine.execMaxImm d a imm s
  | .slt d a b => Sys2Proof.Machine.execSlt d a b s
  | .sltImm d a imm => Sys2Proof.Machine.execSltImm d a imm s
  | .sltu d a b => Sys2Proof.Machine.execSltu d a b s
  | .sltuImm d a imm => Sys2Proof.Machine.execSltuImm d a imm s
  | .clz d a => Sys2Proof.Machine.execClz d a s
  | .popc d a => Sys2Proof.Machine.execPopc d a s
  | .mov d a => Sys2Proof.Machine.execMov d a s
  | .jr d a => Sys2Proof.Machine.execJr d a s
  | .li d imm => Sys2Proof.Machine.execLi d imm s
  | .addpc d imm => Sys2Proof.Machine.execAddpc d imm s
  | .beq a b off => Sys2Proof.Machine.execBeq a b off s
  | .bne a b off => Sys2Proof.Machine.execBne a b off s
  | .blt a b off => Sys2Proof.Machine.execBlt a b off s
  | .bge a b off => Sys2Proof.Machine.execBge a b off s
  | .bltu a b off => Sys2Proof.Machine.execBltu a b off s
  | .bgeu a b off => Sys2Proof.Machine.execBgeu a b off s
  | .bqs q off => Sys2Proof.Machine.execBqs q off s
  | .bqc q off => Sys2Proof.Machine.execBqc q off s
  | .j off => Sys2Proof.Machine.execJ off s
  | .jal off => Sys2Proof.Machine.execJal off s
  | .rep a n => Sys2Proof.Machine.execRep a n s
  | .ldB d a off => Sys2Proof.Machine.execLdB d a off s
  | .ldH d a off => Sys2Proof.Machine.execLdH d a off s
  | .ldW d a off => Sys2Proof.Machine.execLdW d a off s
  | .ldD d a off => Sys2Proof.Machine.execLdD d a off s
  | .lduB d a off => Sys2Proof.Machine.execLduB d a off s
  | .lduH d a off => Sys2Proof.Machine.execLduH d a off s
  | .lduW d a off => Sys2Proof.Machine.execLduW d a off s
  | .stB d a off => Sys2Proof.Machine.execStB d a off s
  | .stH d a off => Sys2Proof.Machine.execStH d a off s
  | .stW d a off => Sys2Proof.Machine.execStW d a off s
  | .stD d a off => Sys2Proof.Machine.execStD d a off s
  | .ldv d a off => Sys2Proof.Machine.execLdv d a off s
  | .stv d a off => Sys2Proof.Machine.execStv d a off s
  | .ldvx d a => Sys2Proof.Machine.execLdvx d a s
  | .stvp a b => Sys2Proof.Machine.execStvp a b s
  | .ldf d a off => Sys2Proof.Machine.execLdf d a off s
  | .stf d a off => Sys2Proof.Machine.execStf d a off s
  | .fence scope => Sys2Proof.Machine.execFence scope s
  | .lda d a off => Sys2Proof.Machine.execLda d a off s
  | .stl d a off => Sys2Proof.Machine.execStl d a off s
  | .aadd d a b => Sys2Proof.Machine.execAadd d a b s
  | .aand d a b => Sys2Proof.Machine.execAand d a b s
  | .aor d a b => Sys2Proof.Machine.execAor d a b s
  | .axor d a b => Sys2Proof.Machine.execAxor d a b s
  | .amin d a b => Sys2Proof.Machine.execAmin d a b s
  | .amax d a b => Sys2Proof.Machine.execAmax d a b s
  | .aminu d a b => Sys2Proof.Machine.execAminu d a b s
  | .amaxu d a b => Sys2Proof.Machine.execAmaxu d a b s
  | .aswp d a b => Sys2Proof.Machine.execAswp d a b s
  | .afadd d a b => Sys2Proof.Machine.execAfadd d a b s
  | .acas d a b => Sys2Proof.Machine.execAcas d a b s
  | .waita d a b => Sys2Proof.Machine.execWaita d a b s
  | .vwid d a part => Sys2Proof.Machine.execVwid d a part s
  | .vnb16 d a part => Sys2Proof.Machine.execVnb16 d a part s
  | .vnh16S d a part => Sys2Proof.Machine.execVnh16S d a part s
  | .vnh16X d a part => Sys2Proof.Machine.execVnh16X d a part s
  | .vn8S d a part => Sys2Proof.Machine.execVn8S d a part s
  | .vn8X d a part => Sys2Proof.Machine.execVn8X d a part s
  | .vn8wS d a part => Sys2Proof.Machine.execVn8wS d a part s
  | .vn4S d a part => Sys2Proof.Machine.execVn4S d a part s
  | .vni8S d a part => Sys2Proof.Machine.execVni8S d a part s
  | .vfi32 d a => Sys2Proof.Machine.execVfi32 d a s
  | .vif32 d a => Sys2Proof.Machine.execVif32 d a s
  | .vscl d a b => Sys2Proof.Machine.execVscl d a b s
  | .vtag d a b => Sys2Proof.Machine.execVtag d a b s
  | .vgtag d a => Sys2Proof.Machine.execVgtag d a s
  | .vpackz d a b => Sys2Proof.Machine.execVpackz d a b s
  | .vexpz d a b => Sys2Proof.Machine.execVexpz d a b s
  | .vfadd d a b => Sys2Proof.Machine.execVfadd d a b s
  | .vfsub d a b => Sys2Proof.Machine.execVfsub d a b s
  | .vfmul d a b => Sys2Proof.Machine.execVfmul d a b s
  | .vfma d a b => Sys2Proof.Machine.execVfma d a b s
  | .vfmat d a b => Sys2Proof.Machine.execVfmat d a b s
  | .vfred d a => Sys2Proof.Machine.execVfred d a s
  | .vfmin d a b => Sys2Proof.Machine.execVfmin d a b s
  | .vfmax d a b => Sys2Proof.Machine.execVfmax d a b s
  | .vfcmp d a b => Sys2Proof.Machine.execVfcmp d a b s
  | .vcmpb d a b => Sys2Proof.Machine.execVcmpb d a b s
  | .vadd d a b => Sys2Proof.Machine.execVadd d a b s
  | .vmul d a b => Sys2Proof.Machine.execVmul d a b s
  | .vand d a b => Sys2Proof.Machine.execVand d a b s
  | .vor d a b => Sys2Proof.Machine.execVor d a b s
  | .vxor d a b => Sys2Proof.Machine.execVxor d a b s
  | .vsh d a b => Sys2Proof.Machine.execVsh d a b s
  | .vminu d a b => Sys2Proof.Machine.execVminu d a b s
  | .vmaxu d a b => Sys2Proof.Machine.execVmaxu d a b s
  | .vfind d a b => Sys2Proof.Machine.execVfind d a b s
  | .vhash d a => Sys2Proof.Machine.execVhash d a s
  | .vnfa d a b => Sys2Proof.Machine.execVnfa d a b s
  | .vperm d a b => Sys2Proof.Machine.execVperm d a b s
  | .vbcast d a width => Sys2Proof.Machine.execVbcast d a width s
  | .vext d a lane => Sys2Proof.Machine.execVext d a lane s
  | .cp fn y d a b => Sys2Proof.Machine.execCp fn y d a b s
  | .engineReply u => Sys2Proof.Machine.execEngineReply u s
  | .copy eng => Sys2Proof.Machine.execCopy eng s
  | .copyf eng => Sys2Proof.Machine.execCopyf eng s
  | .copym eng => Sys2Proof.Machine.execCopym eng s
  | .gath eng => Sys2Proof.Machine.execGath eng s
  | .scat eng => Sys2Proof.Machine.execScat eng s
  | .fill eng => Sys2Proof.Machine.execFill eng s
  | .wback eng => Sys2Proof.Machine.execWback eng s
  | .inval eng => Sys2Proof.Machine.execInval eng s
  | .subs str => Sys2Proof.Machine.execSubs str s
  | .unsubs str => Sys2Proof.Machine.execUnsubs str s
  | .pull str => Sys2Proof.Machine.execPull str s
  | .pullf str => Sys2Proof.Machine.execPullf str s
  | .streamerElementWrite str sub => Sys2Proof.Machine.execStreamerElementWrite str sub s
  | .copymFollowOnEnter tile k => Sys2Proof.Machine.execCopymFollowOnEnter tile k s
  | .rbind d a b => Sys2Proof.Machine.execRbind d a b s
  | .rslot d a b => Sys2Proof.Machine.execRslot d a b s
  | .rwait d a b => Sys2Proof.Machine.execRwait d a b s
  | .rwaitf d a b => Sys2Proof.Machine.execRwaitf d a b s
  | .ringWaitWake u => Sys2Proof.Machine.execRingWaitWake u s
  | .radvh a b => Sys2Proof.Machine.execRadvh a b s
  | .radvt a b => Sys2Proof.Machine.execRadvt a b s
  | .spost d a => Sys2Proof.Machine.execSpost d a s
  | .swait d a => Sys2Proof.Machine.execSwait d a s
  | .semaphoreGrant tile sem => Sys2Proof.Machine.execSemaphoreGrant tile sem s
  | .stryw d a b => Sys2Proof.Machine.execStryw d a b s
  | .mldb b a => Sys2Proof.Machine.execMldb b a s
  | .mldbL b a => Sys2Proof.Machine.execMldbL b a s
  | .msel d slot => Sys2Proof.Machine.execMsel d slot s
  | .mz d => Sys2Proof.Machine.execMz d s
  | .macc d a => Sys2Proof.Machine.execMacc d a s
  | .mmaN4 d a => Sys2Proof.Machine.execMmaN4 d a s
  | .mmaN8 d a => Sys2Proof.Machine.execMmaN8 d a s
  | .mmaW16 d a => Sys2Proof.Machine.execMmaW16 d a s
  | .mmaL d a => Sys2Proof.Machine.execMmaL d a s
  | .mdrn a => Sys2Proof.Machine.execMdrn a s
  | .eoutN8 d a b => Sys2Proof.Machine.execEoutN8 d a b s
  | .eoutF32 d a b => Sys2Proof.Machine.execEoutF32 d a b s
  | .eoutB16 d a b => Sys2Proof.Machine.execEoutB16 d a b s
  | .matrixRingBind u => Sys2Proof.Machine.execMatrixRingBind u s
  | .matrixCommandExecute tile => Sys2Proof.Machine.execMatrixCommandExecute tile s
  | .epilogueOutput tile => Sys2Proof.Machine.execEpilogueOutput tile s
  | .tileSave tile => Sys2Proof.Machine.execTileSave tile s
  | .tileSaveRefused tile => Sys2Proof.Machine.execTileSaveRefused tile s
  | .tileReload tile => Sys2Proof.Machine.execTileReload tile s
  | .monbWrite tile => Sys2Proof.Machine.execMonbWrite tile s
  | .cncdWrite tile => Sys2Proof.Machine.execCncdWrite tile s
  | .mreplWrite u v => Sys2Proof.Machine.execMreplWrite u v s
  | .evdecl st a => Sys2Proof.Machine.execEvdecl st a s
  | .evdrop st a => Sys2Proof.Machine.execEvdrop st a s
  | .evupd st a b => Sys2Proof.Machine.execEvupd st a b s
  | .evupdt st a b => Sys2Proof.Machine.execEvupdt st a b s
  | .evfan st a b => Sys2Proof.Machine.execEvfan st a b s
  | .evpeek d a st => Sys2Proof.Machine.execEvpeek d a st s
  | .evstat d sel => Sys2Proof.Machine.execEvstat d sel s
  | .evdone => Sys2Proof.Machine.execEvdone s
  | .vtset a => Sys2Proof.Machine.execVtset a s
  | .vtget d => Sys2Proof.Machine.execVtget d s
  | .vtlow d => Sys2Proof.Machine.execVtlow d s
  | .updateArrival k => Sys2Proof.Machine.execUpdateArrival k s
  | .fanoutSourceArrival cl k => Sys2Proof.Machine.execFanoutSourceArrival cl k s
  | .sluiceSeal cl => Sys2Proof.Machine.execSluiceSeal cl s
  | .refill cl slot => Sys2Proof.Machine.execRefill cl slot s
  | .windowPhase cl slot => Sys2Proof.Machine.execWindowPhase cl slot s
  | .activationStart u => Sys2Proof.Machine.execActivationStart u s
  | .beaconPublication => Sys2Proof.Machine.execBeaconPublication s
  | .sliceError cl => Sys2Proof.Machine.execSliceError cl s
  | .spawn d a => Sys2Proof.Machine.execSpawn d a s
  | .join a => Sys2Proof.Machine.execJoin a s
  | .fork off => Sys2Proof.Machine.execFork off s
  | .exit => Sys2Proof.Machine.execExit s
  | .yield => Sys2Proof.Machine.execYield s
  | .gbar => Sys2Proof.Machine.execGbar s
  | .gbarComplete u => Sys2Proof.Machine.execGbarComplete u s
  | .ebset a => Sys2Proof.Machine.execEbset a s
  | .ebclr a => Sys2Proof.Machine.execEbclr a s
  | .ebwait a => Sys2Proof.Machine.execEbwait a s
  | .tpath d => Sys2Proof.Machine.execTpath d s
  | .gid d sel => Sys2Proof.Machine.execGid d sel s
  | .eventBitCycle cl => Sys2Proof.Machine.execEventBitCycle cl s
  | .taskPlace u => Sys2Proof.Machine.execTaskPlace u s
  | .taskAging cl idx => Sys2Proof.Machine.execTaskAging cl idx s
  | .gangReserve cl => Sys2Proof.Machine.execGangReserve cl s
  | .gangStart cl => Sys2Proof.Machine.execGangStart cl s
  | .depthPublication cl => Sys2Proof.Machine.execDepthPublication cl s
  | .forwardingExpiry cl => Sys2Proof.Machine.execForwardingExpiry cl s
  | .send a b => Sys2Proof.Machine.execSend a b s
  | .sendp port b => Sys2Proof.Machine.execSendp port b s
  | .recv d => Sys2Proof.Machine.execRecv d s
  | .recvp d port => Sys2Proof.Machine.execRecvp d port s
  | .messageDelivery k => Sys2Proof.Machine.execMessageDelivery k s
  | .portTransfer u port => Sys2Proof.Machine.execPortTransfer u port s
  | .trap cause => Sys2Proof.Machine.execTrap cause s
  | .csrr d csr => Sys2Proof.Machine.execCsrr d csr s
  | .csrw csr d => Sys2Proof.Machine.execCsrw csr d s
  | .stow a => Sys2Proof.Machine.execStow a s
  | .halt => Sys2Proof.Machine.execHalt s
  | .bankcfgWrite u v => Sys2Proof.Machine.execBankcfgWrite u v s
  | .bankcfgSwitchDone cl => Sys2Proof.Machine.execBankcfgSwitchDone cl s
  | .wdtWrite u v => Sys2Proof.Machine.execWdtWrite u v s
  | .snaptWrite u v => Sys2Proof.Machine.execSnaptWrite u v s
  | .snapshotLatch => Sys2Proof.Machine.execSnapshotLatch s
  | .snapshotRead => Sys2Proof.Machine.execSnapshotRead s
  | .registerWrite off v => Sys2Proof.Machine.execRegisterWrite off v s
  | .managementRequest place write => Sys2Proof.Machine.execManagementRequest place write s
  | .tcflushWrite die v => Sys2Proof.Machine.execTcflushWrite die v s
  | .tcflushComplete die => Sys2Proof.Machine.execTcflushComplete die s
  | .mgnWrite u v => Sys2Proof.Machine.execMgnWrite u v s
  | .lctlRetrainRequest m => Sys2Proof.Machine.execLctlRetrainRequest m s
  | .lctlForceX32 m on => Sys2Proof.Machine.execLctlForceX32 m on s
  | .queueCreate q desc => Sys2Proof.Machine.execQueueCreate q desc s
  | .notifyTailWrite q v => Sys2Proof.Machine.execNotifyTailWrite q v s
  | .notifyErrRead q => Sys2Proof.Machine.execNotifyErrRead q s
  | .creadWrite q v => Sys2Proof.Machine.execCreadWrite q v s
  | .scheduleStepWrite die v => Sys2Proof.Machine.execScheduleStepWrite die v s
  | .scheduleTailWrite die v => Sys2Proof.Machine.execScheduleTailWrite die v s
  | .scheduleErrRead die => Sys2Proof.Machine.execScheduleErrRead die s
  | .residencyEntryPerform die => Sys2Proof.Machine.execResidencyEntryPerform die s
  | .frameWaitTimeout u => Sys2Proof.Machine.execFrameWaitTimeout u s
  | .tcbAdmission q => Sys2Proof.Machine.execTcbAdmission q s
  | .kernelComplete q => Sys2Proof.Machine.execKernelComplete q s
  | .completionRecordWrite q => Sys2Proof.Machine.execCompletionRecordWrite q s
  | .contextShip u => Sys2Proof.Machine.execContextShip u s
  | .regenerationComplete die k => Sys2Proof.Machine.execRegenerationComplete die k s
  | .requestReply u => Sys2Proof.Machine.execRequestReply u s
  | .storeBufferDrain u k => Sys2Proof.Machine.execStoreBufferDrain u k s
  | .atomicPerform k => Sys2Proof.Machine.execAtomicPerform k s
  | .requestTimeout k => Sys2Proof.Machine.execRequestTimeout k s
  | .replicaUpdateApply die => Sys2Proof.Machine.execReplicaUpdateApply die s
  | .waitaWake u => Sys2Proof.Machine.execWaitaWake u s
  | .ldfReissue u => Sys2Proof.Machine.execLdfReissue u s
  | .ldfCancelNotice slice k => Sys2Proof.Machine.execLdfCancelNotice slice k s
  | .remoteRequest r => Sys2Proof.Machine.execRemoteRequest r s
  | .ueConnectionOpen mode peer => Sys2Proof.Machine.execUeConnectionOpen mode peer s
  | .flitReceive m flit => Sys2Proof.Machine.execFlitReceive m flit s
  | .nakReceive m ack => Sys2Proof.Machine.execNakReceive m ack s
  | .replayTimeout m => Sys2Proof.Machine.execReplayTimeout m s
  | .idleFlitSend m => Sys2Proof.Machine.execIdleFlitSend m s
  | .linkRetrain m => Sys2Proof.Machine.execLinkRetrain m s
  | .retrainComplete m failed repaired => Sys2Proof.Machine.execRetrainComplete m failed repaired s
  | .ecntQuietClear m => Sys2Proof.Machine.execEcntQuietClear m s
  | .beaconRecord child r => Sys2Proof.Machine.execBeaconRecord child r s
  | .lostDeviceDetect child => Sys2Proof.Machine.execLostDeviceDetect child s
  | .lostConnectionDetect e => Sys2Proof.Machine.execLostConnectionDetect e s
  | .faultEpochStop group => Sys2Proof.Machine.execFaultEpochStop group s
  | .preciseTrap u => Sys2Proof.Machine.execPreciseTrap u s
  | .heldRecordEnter cl => Sys2Proof.Machine.execHeldRecordEnter cl s
  | .mbstatFree cl slot => Sys2Proof.Machine.execMbstatFree cl slot s
  | .resume u => Sys2Proof.Machine.execResume u s
  | .stowout u => Sys2Proof.Machine.execStowout u s
  | .ready u idx => Sys2Proof.Machine.execReady u idx s
  | .endTask u => Sys2Proof.Machine.execEndTask u s
  | .killk u slot => Sys2Proof.Machine.execKillk u slot s
  | .restart u idx => Sys2Proof.Machine.execRestart u idx s
  | .load u addr => Sys2Proof.Machine.execLoad u addr s
  | .preemptStow u => Sys2Proof.Machine.execPreemptStow u s
  | .taskResume u => Sys2Proof.Machine.execTaskResume u s
  | .stowTear u => Sys2Proof.Machine.execStowTear u s
  | .watchdogExpiry u => Sys2Proof.Machine.execWatchdogExpiry u s
  | .shadowLatchReplay u => Sys2Proof.Machine.execShadowLatchReplay u s
  | .checkerMismatch u => Sys2Proof.Machine.execCheckerMismatch u s
  | .coreKill u => Sys2Proof.Machine.execCoreKill u s
  | .taskRestart cl idx => Sys2Proof.Machine.execTaskRestart cl idx s
  | .clusterQuarantine cl => Sys2Proof.Machine.execClusterQuarantine cl s
  | .supervisorError cl => Sys2Proof.Machine.execSupervisorError cl s
  | .clusterRemap cl => Sys2Proof.Machine.execClusterRemap cl s
  | .thermalThrottle temp => Sys2Proof.Machine.execThermalThrottle temp s
  | .thermalShutdown temp => Sys2Proof.Machine.execThermalShutdown temp s
  | .powerLimitThrottle watts => Sys2Proof.Machine.execPowerLimitThrottle watts s
  | .powerOn b => Sys2Proof.Machine.execPowerOn b s
  | .recoveryFirmwareImage img => Sys2Proof.Machine.execRecoveryFirmwareImage img s
  | .attestationQuote nonce => Sys2Proof.Machine.execAttestationQuote nonce s
  | .coldReset pass => Sys2Proof.Machine.execColdReset pass s
  | .mgnstRecentExpiry u => Sys2Proof.Machine.execMgnstRecentExpiry u s
  | .correctedSoftError u => Sys2Proof.Machine.execCorrectedSoftError u s
  | .queueDestroy q => Sys2Proof.Machine.execQueueDestroy q s
  | .regulatorSettlingEnd u => Sys2Proof.Machine.execRegulatorSettlingEnd u s

end Sys2Proof.Machine
end

