-- ==== Sys2Proof/Machine/Legal.lean ====
section
/-! DEFINITION. The ILLEGAL_OPs that an instruction raises after decode, by the state it meets: the same tests for an executed instruction and for one
that the skipping state passes over (R79). -/

namespace Sys2Proof.Machine

/-- Whether an instruction raises ILLEGAL_OP in the state it meets: R78 and R80 for the loop, R215 for the matrix unit, R18, R261, R308, R312 and R326 for
the unit of work, R280, R313, R363, R364 and R366 for operands. -/
def opIllegal (s : State) (i : Instr) : Bool :=
  let u := s.cur
  match i with
  | .rep _ _ | .fork _ => !(s.core u).loopIdle
  | .cp .copym _ _ _ _ | .mldb _ _ | .mldbL _ _ | .mmaN4 _ _ | .mmaN8 _ _ | .mmaW16 _ _ | .mmaL _ _ | .msel _ _ | .mz _ | .macc _ _ | .mdrn _
  | .eoutN8 _ _ _ | .eoutF32 _ _ _ | .eoutB16 _ _ _ => !inTileGang s u
  | .sendp _ _ | .recvp _ _ | .gbar => !inGang s u
  | .evdone => !isAct s u
  | .evstat _ sel => (statValue s u sel.toNat).isNone
  | .join _ => isAct s u || inGang s u || !(s.core u).loopIdle
  | .exit => isAct s u
  | .gid _ sel => (gidValue s u sel.toNat).isNone
  | .csrr _ n => (csrValue s u n.toNat).isNone
  | .csrw n d => csrwIllegal s u n.toNat (s.rg d)
  | .trap c => (trapCause c.toNat).isNone
  | .stow _ => !runsTask s u
  | _ => false

end Sys2Proof.Machine
end

