-- ==== Sys2Proof/Machine/Fetch.lean ====
section
/-! DEFINITION. From the program counter to an instruction: fetching halfword by halfword (R33, R52, R56), the skipping state
(R79), the traps that fall between instructions, and the time a step takes. -/

namespace Sys2Proof.Machine

/-- The halfword at a location as it stood before the newest `d` performed writes. -/
def State.halfBack (s : State) (d loc : Nat) : Half := BitVec.ofNat 16 (leNat [s.peekBack d loc, s.peekBack d (loc + 1)])

/-- How many of the newest performed writes core u's fetch of the halfword at a location may be ahead of: those after the newest one to it that the core must
fetch, which is an engine's (R130), one that stood before a FENCE of its core that the last taken transfer answered to (R56), or one before an INVAL (R208). What another device stores counts as an engine's (log entry 83). -/
def State.oldFetch (s : State) (u a : Nat) : Nat :=
  let n := s.past.length
  let fresh := fun (x : Nat × Replaced) =>
    let i := n - 1 - x.1
    x.2.touches a && (decide (i < mget s.icSec (sectorOf a) 0) || (match x.2.core with
      | none => true
      | some v => decide (i < mget (s.core u).icFrom v 0)))
  (((below n).zip s.past).find? fresh).elim n (fun x => x.1)

/-- The halfword of a location as instruction fetch finds it beyond the instruction cache, of one instant and not from the store buffer: on a UO page as R122
allows, and elsewhere at any time since the newest store to it that the core must fetch (R56). -/
def fetchBytes (w : Who) (p : Piece) (u loc : Nat) : M Half := fun s =>
  if p.kind = 2 ∧ p.repl = false then
    match uoBytes w (upFrom loc 2) s with
    | .ok (bs, s) => .ok (BitVec.ofNat 16 (leNat bs), s)
    | .error x => .error x
  else
    let a := p.readLoc w loc
    let k := s.oldFetch u a
    if s.eager || k == 0 then .ok (s.halfBack 0 a, s) else .ok (s.halfBack (Config.freeNat s.freeCtr % (k + 1)) a, s.tickFree)

/-- The halfword that core u's instruction cache gives: the old one, where it holds one that memory no longer holds, or the new
one (R56). -/
def cachedHalf (u loc : Nat) (new : Half) : M Half := fun s =>
  match mfind (s.core u).icache loc with
  | some old => if old = new then .ok (new, s) else .ok (if Config.freeBool s.freeCtr then old else new, s.tickFree)
  | none => .ok (new, s.modCore u (fun c => { c with icache := mset c.icache loc new }))

/-- Where an instruction's halfword stands. A fetch that the page, the rights or the bank do not allow, or whose sector returns POISON, is a FETCH_FAULT at
that halfword (R51, R93; log entry 51). -/
def fetchPiece (va : Word) : M Piece := fun s =>
  match (do let ps ← resolve s.me .fetch va 2; noPoison s.me ps; pure ps : M (List Piece)) s with
  | .ok ([p], s') => .ok (p, s')
  | .ok (_, _) => .error (.trap (s.fetchTrap s.cur va))
  | .error (.wait w) => .error (.wait w)
  | .error (.trap _) => .error (.trap (s.fetchTrap s.cur va))

/-- One halfword of an instruction (R33, R51). -/
def fetchHalf (va : Word) : M Half := do
  let p ← fetchPiece va
  let s ← get
  match p.place with
  | .mem loc =>
    let h ← fetchBytes s.me p s.cur loc
    cachedHalf s.cur (p.readLoc s.me loc) h
  | _ => trapM (s.fetchTrap s.cur va)

/-- The instruction at an address, halfword by halfword: an illegal one raises ILLEGAL_OP as soon as the halfwords so far make
it so, before a later one is fetched (R52). `n` bounds the halfwords that remain. -/
def fetchFrom : Nat → Prefixes → Word → M (Instr × Nat)
  | 0, _, _ => trapM (.plain .illegalOp)
  | n + 1, p, va => do
    let h ← fetchHalf va
    match decodeNext p h with
    | .more p' => fetchFrom n p' (va + 2)
    | .done i len => pure (i, len)
    | .bad _ => trapM (.plain .illegalOp)

/-- The instruction at the program counter of the core whose turn it is. -/
def fetchInstr : M (Instr × Nat) := do
  let s ← get
  fetchFrom 5 Prefixes.none s.pc

/-- The time that a step takes: one cycle and a free number more (log entry 6). -/
def tick (s : State) : State := { s with now := s.now + 1 + Config.freeNat s.freeCtr, freeCtr := s.freeCtr + 1 }

/-- What a core's turn comes to: a state without an instruction of its own (an idle core, a trap, a skipped instruction), or an
instruction to run. -/
inductive Turn where
  | done (s : State)
  | run (i : Instr) (s : State)
  deriving DecidableEq, Repr

/-- Whether a core can run an instruction: it runs a task that no stow has stopped, waits for nothing, and its regulator has settled (R346, R350, R372). -/
def Core.canRun (c : Core) : Bool := c.status == .running && c.wait == .none && c.stowing.isNone && !c.mgn.settling

/-- A latched watchdog expiry, and the MARGIN trap, are taken before the next instruction (R352, R353, R356). -/
def pendingTrap (s : State) (u : Nat) : Option State :=
  let c := s.core u
  if c.ctx.latched then
    some (takeTrap (s.modCore u (fun c => { c with ctx := { c.ctx with latched := false } })) u (.plain .watchdog))
  else if c.mgn.trapDue then
    some (takeTrap (s.modCore u (fun c => { c with mgn := { c.mgn with trapDue := false } })) u
      { cause := .margin, pc := some c.lastPc })
  else none

/-- Whether an instruction accesses memory, or ends the run of instructions before which a later BQS or BQC may take its sample (R71): what acts on the
queues that a condition shows, and what ends the core's run. A control transfer orders no sample. -/
def memoryOrBreak (i : Instr) : Option Bool :=
  match i with
  | .ldB _ _ _ | .ldH _ _ _ | .ldW _ _ _ | .ldD _ _ _ | .lduB _ _ _ | .lduH _ _ _ | .lduW _ _ _ | .stB _ _ _ | .stH _ _ _ | .stW _ _ _ | .stD _ _ _
  | .ldv _ _ _ | .stv _ _ _ | .ldvx _ _ | .stvp _ _ | .ldf _ _ _ | .stf _ _ _ | .lda _ _ _ | .stl _ _ _ | .aadd _ _ _ | .aand _ _ _ | .aor _ _ _
  | .axor _ _ _ | .amin _ _ _ | .amax _ _ _ | .aminu _ _ _ | .amaxu _ _ _ | .aswp _ _ _ | .afadd _ _ _ | .acas _ _ _ | .waita _ _ _ | .vnfa _ _ _ =>
    some true
  | .fork _ | .send _ _ | .sendp _ _
  | .recv _ | .recvp _ _ | .spost _ _ | .swait _ _ | .stryw _ _ _ | .gbar | .trap _ | .stow _ => some false
  | _ => none

/-- The issue of instruction i of core u: its length, and the queue conditions before the memory accesses that a later BQS or BQC follows (R71). -/
def noteIssue (s : State) (u : Nat) (i : Instr) (len : Nat) : State :=
  let s := s.modCore u (fun c => { c with ilen := len, fetchWait := false })
  if s.eager then s
  else match memoryOrBreak i, (s.core u).early with
    | some true, none => s.modCore u (fun c => { c with early := some (queueConds s u) })
    | some true, some b => s.tickFree.modCore u (fun c => { c with early := some (if Config.freeBool s.freeCtr then queueConds s u else b) })
    | some false, _ => s.modCore u (fun c => { c with early := none })
    | none, _ => s

/-- Whether an instruction of the core whose turn it is would come after a retired request that a path has cut off: one that releases it, or that follows it on its
word or its page. It waits until the path is up again or the request has ended with POISON (R138, R330; log entry 84). -/
def heldBack (s : State) (i : Instr) : Bool :=
  let off := s.reqs.filter (fun r => r.pendingOf s.cur && r.cut s)
  !off.isEmpty && (match exec i s with
    | .next t => off.any (fun r => !t.reqs.contains r)
    | _ => false)

/-- The turn of the core whose turn it is: the instruction at its program counter, or what comes before it. In the skipping
state the instruction is decoded and not executed, and raises the ILLEGAL_OPs and the FETCH_FAULTs that an executed one would, and nothing else (R79). -/
def coreTurn (s : State) : Turn :=
  if !(s.core s.cur).canRun then .done s
  else match pendingTrap s s.cur with
    | some s' => .done s'
    | none =>
      match fetchInstr s with
      | .error (.trap t) => .done (takeTrap s s.cur t)
      | .error (.wait w) => .done ((parkCore s s.cur w).modCore s.cur (fun c => { c with fetchWait := true }))
      | .ok ((i, len), s') =>
        let s' := noteIssue s' s.cur i len
        if (s'.core s.cur).skipping then
          .done (if opIllegal s' i then takeTrap s' s.cur (.plain .illegalOp) else retire s')
        else if heldBack s' i then .done s
        else .run i s'

/-- The next move: the head of `moves`, or the core whose turn it is (log entry 6). A move that names an instruction of a core
is no move of another agent and passes. -/
def nextTurn (s : State) : Turn :=
  let s := tick s
  match s.moves with
  | [] => coreTurn s
  | .core u :: t => coreTurn { s with moves := t, cur := u }
  | .event i :: t => if hasWords i then .done { s with moves := t } else .run i { s with moves := t }

/-! ## Placing an instruction where the next step fetches it -/

/-- Window offset of the code that withFetchWord places. -/
def fetchOff : Nat := 0x100

/-- The state in which the next step fetches and runs the instruction of an opcode-table word: its halfwords lie in scratchpad
bank 0 of the cluster of the core whose turn it is, and that core runs there (log entry 10). -/
def placeWord (s : State) (nbits w : Nat) : State :=
  let u := s.cur
  let P := clusterOf u
  let hs := tableHalves nbits w
  let bs := (hs ++ List.replicate (5 - hs.length) 0).flatMap (fun (h : Half) => leBytes 2 h.toNat)
  let dom := 4032 + s.logicalNo P
  let tenant := (s.core u).ctx.tenant
  let key := 4096 * tenant + dom
  let loc := sramLoc P fetchOff
  let s := { s with mem := { (s.mem.pokes (writesAt loc bs)) with poison := s.mem.poison.filter (fun n => n ≠ loc / 64) },
                    rights := mset s.rights key (mget s.rights key 0 ||| 4),
                    icSec := mset s.icSec (loc / 64) s.past.length, quarCl := s.quarCl.filter (fun q => q ≠ P), moves := [], sys := { s.sys with shutdown := false } }
  let s := s.modCluster P (fun c => { c with modes := c.modes.set 0 1, switching := c.switching.filter (fun x => x.1 ≠ 0) })
  s.modCore u (fun c =>
    { c with pc := localVa fetchOff, status := .running, wait := .none, stowing := none, lcnt := 0, lend := 0, icache := [], redirect := [], fetchWait := false, plb := c.plb.filter (fun p => p.1 ≠ dom), ctx := { c.ctx with latched := false },
             mgn := { c.mgn with settling := false, trapDue := false } })

end Sys2Proof.Machine
end

