-- ==== Sys2Proof/Machine/Step.lean ====
section
/-! DEFINITION. One step of the module: the agent whose turn it is moves once. -/

namespace Sys2Proof.Machine

/-- One step: the next turn is taken, and its instruction or step of another agent runs whole. After a thermal shutdown nothing moves (R32) but a cold
reset. -/
def step (s : State) : Host.Outcome State Fault Refusal :=
  if s.sys.shutdown then
    match s.moves with
    | .event (.coldReset pass) :: t => execColdReset pass { s with moves := t }
    | _ => .fault .shutDown
  else match nextTurn s with
    | .done s' => .next s'
    | .run i s' => exec i s'

/-- The state in which the next step fetches and runs the instruction whose opcode-table word is `w`. -/
def State.withFetchWord (s : State) (nbits w : Nat) : State := placeWord s nbits w

end Sys2Proof.Machine
end

