-- ==== Sys2Proof/WellFormed.lean ====
section
/-! DEFINITION. The checks that the spec puts on an instruction beyond the widths of its fields (R38 to R50, R105, R204, R280,
R313, R363, R365), and the ranges of the unit numbers that the steps of other agents carry (R3, R5, R8, R9, R113, R114). -/

namespace Sys2Proof

/-- An immediate beside a field of `f` bits: with at least `least` XIs and `others` other prefixes, four prefixes in all hold it
(R38, R39). -/
def immOk (f least others : Nat) (v : Word) : Bool :=
  (upFrom least (5 - others - least)).any (fun n => fits (10 * n + f) v)

/-- The XR that high register parts call for: one prefix, or none where all are 0 (R41). -/
def xrs (hs : List Nat) : Nat := if hs.all (fun h => h == 0) then 0 else 1

/-- The base register of a pair: even and not g0 (R105). -/
def pairBase (a : GReg) : Bool := a.toNat % 2 == 0 && a != 0

/-- A remote access of RDMA: a read or a write of at least one byte, an aligned sector, or an aligned atomic of 8 bytes, or 4 for AFADD (R102, R136, R334). -/
def RemoteReq.wf (r : RemoteReq) : Bool :=
  match r.op with
  | .read n => decide (0 < n)
  | .write bs => !bs.isEmpty
  | .readSector | .writeSector _ _ => r.addr.toNat % 64 == 0
  | .atomic op _ _ => r.addr.toNat % (if op = .fadd then 4 else 8) == 0

/-- A management request names a unit or an endpoint that exists (R3, R317, R333, R359). -/
def MgmtPlace.wf (p : MgmtPlace) (write : Option MgmtData) : Bool :=
  match p, write with
  | .register _, _ | .powerLimit, _ => true
  | .endpoint e, _ => decide (e < 2 ^ 15)
  | .ownNumber, some (.word v) => decide (v.toNat < 2 ^ 15)
  | .ownNumber, _ => true
  | .discarded cl, _ => decide (cl < 64)
  | .trepc u, _ | .cmisc u, _ | .softErrors u, _ | .ccmd u, _ => decide (u < 2048)

/-- What bring-up meets names links, clusters and cores that exist (R3, R6, R369). -/
def BringUp.wf (b : BringUp) : Bool :=
  b.lanes.all (fun p => decide (p.1 < 16)) && b.pass.all (fun P => decide (P < 64)) && b.margins.all (fun p => decide (p.1 < 2048))

/-- Whether an instruction or step is well formed. -/
def wellFormed (i : Instr) : Bool :=
  match i with
  | .add _ _ _ => true
  | .addImm d a imm => immOk 3 1 (xrs [hi5 d, hi5 a]) imm
  | .sub _ _ _ => true
  | .subImm d a imm => immOk 3 1 (xrs [hi5 d, hi5 a]) imm
  | .mul _ _ _ => true
  | .mulImm d a imm => immOk 3 1 (xrs [hi5 d, hi5 a]) imm
  | .mulh _ _ _ => true
  | .mulhImm d a imm => immOk 3 1 (xrs [hi5 d, hi5 a]) imm
  | .div _ _ _ => true
  | .divImm d a imm => immOk 3 1 (xrs [hi5 d, hi5 a]) imm
  | .divu _ _ _ => true
  | .divuImm d a imm => immOk 3 1 (xrs [hi5 d, hi5 a]) imm
  | .rem _ _ _ => true
  | .remImm d a imm => immOk 3 1 (xrs [hi5 d, hi5 a]) imm
  | .sel _ _ _ => true
  | .selImm d a imm => immOk 3 1 (xrs [hi5 d, hi5 a]) imm
  | .and _ _ _ => true
  | .andImm d a imm => immOk 3 1 (xrs [hi5 d, hi5 a]) imm
  | .or _ _ _ => true
  | .orImm d a imm => immOk 3 1 (xrs [hi5 d, hi5 a]) imm
  | .xor _ _ _ => true
  | .xorImm d a imm => immOk 3 1 (xrs [hi5 d, hi5 a]) imm
  | .sra _ _ _ => true
  | .sraImm d a imm => immOk 3 1 (xrs [hi5 d, hi5 a]) imm
  | .shl _ _ _ => true
  | .shlImm d a imm => immOk 3 1 (xrs [hi5 d, hi5 a]) imm
  | .shr _ _ _ => true
  | .shrImm d a imm => immOk 3 1 (xrs [hi5 d, hi5 a]) imm
  | .min _ _ _ => true
  | .minImm d a imm => immOk 3 1 (xrs [hi5 d, hi5 a]) imm
  | .max _ _ _ => true
  | .maxImm d a imm => immOk 3 1 (xrs [hi5 d, hi5 a]) imm
  | .slt _ _ _ => true
  | .sltImm d a imm => immOk 3 1 (xrs [hi5 d, hi5 a]) imm
  | .sltu _ _ _ => true
  | .sltuImm d a imm => immOk 3 1 (xrs [hi5 d, hi5 a]) imm
  | .clz _ _ | .popc _ _ | .mov _ _ | .jr _ _ => true
  | .li d imm | .addpc d imm => immOk 7 0 (xrs [hi5 d]) imm
  | .beq a b off | .bne a b off | .blt a b off | .bge a b off | .bltu a b off | .bgeu a b off => immOk 4 0 (xrs [hi5 a, hi5 b]) off
  | .bqs _ off | .bqc _ off => immOk 6 0 0 off
  | .j off | .jal off => immOk 10 0 0 off
  | .rep _ n => n != 0
  | .ldB d a off | .ldH d a off | .ldW d a off | .ldD d a off | .lduB d a off | .lduH d a off | .lduW d a off | .stB d a off
  | .stH d a off | .stW d a off | .stD d a off => immOk 4 0 (xrs [hi5 d, hi5 a]) off
  | .ldv d a off | .stv d a off => immOk 4 0 (xrs [hi4 d, hi5 a]) off
  | .ldvx _ a | .stvp a _ => pairBase a
  | .ldf d a off | .stf d a off => immOk 4 0 (xrs [hi5 d, hi5 a]) off
  | .fence scope => decide (scope.toNat ≤ 5)
  | .lda d a off | .stl d a off => immOk 4 0 (xrs [hi5 d, hi5 a]) off
  | .aadd _ _ _ | .aand _ _ _ | .aor _ _ _ | .axor _ _ _ | .amin _ _ _ | .amax _ _ _ | .aminu _ _ _ | .amaxu _ _ _ | .aswp _ _ _
  | .afadd _ _ _ | .acas _ _ _ | .waita _ _ _ => true
  | .vwid _ _ part => decide (part.toNat ≤ 7)
  | .vnb16 _ _ part | .vnh16S _ _ part | .vnh16X _ _ part => decide (part.toNat ≤ 1)
  | .vn8S _ _ part | .vn8X _ _ part | .vn8wS _ _ part => decide (part.toNat ≤ 3)
  | .vn4S _ _ part => decide (part.toNat ≤ 7)
  | .vni8S _ _ part => decide (part.toNat ≤ 3)
  | .vfi32 _ _ | .vif32 _ _ | .vscl _ _ _ | .vtag _ _ _ | .vgtag _ _ | .vpackz _ _ _ | .vexpz _ _ _ | .vfadd _ _ _ | .vfsub _ _ _
  | .vfmul _ _ _ | .vfma _ _ _ | .vfmat _ _ _ | .vfred _ _ | .vfmin _ _ _ | .vfmax _ _ _ | .vfcmp _ _ _ | .vcmpb _ _ _ | .vadd _ _ _
  | .vmul _ _ _ | .vand _ _ _ | .vor _ _ _ | .vxor _ _ _ | .vsh _ _ _ | .vminu _ _ _ | .vmaxu _ _ _ | .vfind _ _ _ | .vhash _ _
  | .vnfa _ _ _ | .vperm _ _ _ => true
  | .vbcast _ _ width => decide (width.toNat ≤ 6)
  | .vext _ _ _ => true
  | .cp fn y d _ _ => (y || d == 0) && (y || fn != .subs)
  | .engineReply u => decide (u < 2048)
  | .copy eng | .copyf eng | .copym eng | .gath eng | .scat eng | .fill eng | .wback eng | .inval eng => decide (eng < 16)
  | .subs str | .unsubs str | .pull str | .pullf str => decide (str < 32)
  | .streamerElementWrite str sub => decide (str < 32) && decide (sub < 16)
  | .copymFollowOnEnter tile _ => decide (tile < 512)
  | .rbind _ _ _ | .rslot _ _ _ | .rwait _ _ _ | .rwaitf _ _ _ => true
  | .ringWaitWake u => decide (u < 2048)
  | .radvh _ _ | .radvt _ _ | .spost _ _ | .swait _ _ => true
  | .semaphoreGrant tile sem => decide (tile < 512) && decide (sem < 16)
  | .stryw _ _ _ | .mldb _ _ | .mldbL _ _ | .msel _ _ | .mz _ | .macc _ _ | .mmaN4 _ _ | .mmaN8 _ _ | .mmaW16 _ _ | .mmaL _ _ | .mdrn _
  | .eoutN8 _ _ _ | .eoutF32 _ _ _ | .eoutB16 _ _ _ => true
  | .matrixRingBind u => decide (u < 2048)
  | .matrixCommandExecute tile | .epilogueOutput tile | .tileSave tile | .tileSaveRefused tile | .tileReload tile | .monbWrite tile
  | .cncdWrite tile => decide (tile < 512)
  | .mreplWrite u _ => decide (u < 2048)
  | .evdecl _ _ | .evdrop _ _ | .evupd _ _ _ | .evupdt _ _ _ | .evfan _ _ _ | .evpeek _ _ _ => true
  | .evstat _ sel => evstatSel sel.toNat
  | .evdone | .vtset _ | .vtget _ | .vtlow _ | .updateArrival _ => true
  | .fanoutSourceArrival cl _ | .sluiceSeal cl => decide (cl < 64)
  | .refill cl slot | .windowPhase cl slot => decide (cl < 64) && decide (slot < 64)
  | .activationStart u => decide (u < 2048)
  | .beaconPublication => true
  | .sliceError cl => decide (cl < 64)
  | .spawn _ _ | .join _ => true
  | .fork off => immOk 10 0 1 off
  | .exit | .yield | .gbar => true
  | .gbarComplete u => decide (u < 2048)
  | .ebset _ | .ebclr _ | .ebwait _ | .tpath _ => true
  | .gid _ sel => decide (sel.toNat ≤ 6)
  | .eventBitCycle cl => decide (cl < 64)
  | .taskPlace u => decide (u < 2048)
  | .taskAging cl idx => decide (cl < 64) && decide (idx < 1024)
  | .gangReserve cl | .gangStart cl | .depthPublication cl | .forwardingExpiry cl => decide (cl < 64)
  | .send _ _ | .sendp _ _ | .recv _ | .recvp _ _ | .messageDelivery _ => true
  | .portTransfer u _ => decide (u < 2048)
  | .trap cause => causeAllowed cause.toNat
  | .csrr _ csr | .csrw csr _ => csrNumbers.contains csr.toNat
  | .stow _ | .halt => true
  | .bankcfgWrite u _ => decide (u < 2048)
  | .bankcfgSwitchDone cl => decide (cl < 64)
  | .wdtWrite u _ | .snaptWrite u _ => decide (u < 2048)
  | .snapshotLatch | .snapshotRead | .registerWrite _ _ => true
  | .managementRequest place write => place.wf write
  | .tcflushWrite die _ | .tcflushComplete die => decide (die < 4)
  | .mgnWrite u _ => decide (u < 2048)
  | .lctlRetrainRequest m | .lctlForceX32 m _ => decide (m < 16)
  | .queueCreate q desc => decide (q < 65536) && decide (desc.dom < 4096)
  | .notifyTailWrite q _ | .notifyErrRead q | .creadWrite q _ => decide (q < 65536)
  | .scheduleStepWrite die _ | .scheduleTailWrite die _ | .scheduleErrRead die | .residencyEntryPerform die => decide (die < 4)
  | .frameWaitTimeout u => decide (u < 2048)
  | .tcbAdmission q | .kernelComplete q | .completionRecordWrite q => decide (q < 65536)
  | .contextShip u => decide (u < 2048)
  | .regenerationComplete die _ => decide (die < 4)
  | .requestReply u | .storeBufferDrain u _ => decide (u < 2048)
  | .atomicPerform _ | .requestTimeout _ => true
  | .replicaUpdateApply die => decide (die < 4)
  | .waitaWake u | .ldfReissue u => decide (u < 2048)
  | .ldfCancelNotice slice _ => decide (slice < 128)
  | .remoteRequest r => r.wf
  | .ueConnectionOpen _ _ => true
  | .flitReceive m _ | .nakReceive m _ | .replayTimeout m | .idleFlitSend m | .linkRetrain m | .retrainComplete m _ _ | .ecntQuietClear m => decide (m < 16)
  | .beaconRecord _ _ | .lostDeviceDetect _ | .lostConnectionDetect _ | .faultEpochStop _ => true
  | .preciseTrap u => decide (u < 2048)
  | .heldRecordEnter cl | .mbstatFree cl _ => decide (cl < 64)
  | .resume u | .stowout u => decide (u < 2048)
  | .ready u idx => decide (u < 2048) && decide (idx < 1024)
  | .endTask u | .killk u _ => decide (u < 2048)
  | .restart u idx => decide (u < 2048) && decide (idx < 1024)
  | .load u _ | .preemptStow u | .taskResume u | .stowTear u | .watchdogExpiry u | .shadowLatchReplay u | .checkerMismatch u
  | .coreKill u => decide (u < 2048)
  | .taskRestart cl idx => decide (cl < 64) && decide (idx < 1024)
  | .clusterQuarantine cl | .supervisorError cl | .clusterRemap cl => decide (cl < 64)
  | .thermalThrottle _ | .thermalShutdown _ | .powerLimitThrottle _ => true
  | .powerOn b => b.wf
  | .recoveryFirmwareImage _ | .attestationQuote _ => true
  | .coldReset pass => pass.all (fun P => decide (P < 64))
  | .mgnstRecentExpiry u | .correctedSoftError u => decide (u < 2048)
  | .queueDestroy q => decide (q < 65536)
  | .regulatorSettlingEnd u => decide (u < 2048)

end Sys2Proof
end

