-- ==== Sys2Proof/Safety.lean ====
section
/-! DEFINITION. What counts as a safe run, in the terms that claims use: every step answers a next state, and the invariants of
the state hold along the way. -/

namespace Sys2Proof

open Sys2Proof.Machine

/-- Memory is in its canonical form: locations rise strictly and no listed byte is the one an unlisted location reads as, so equal
memories are equal data. -/
def MemoryInv (s : State) : Prop := s.mem.wf = true

/-- The map of clusters (R28, R30): Nlive counts the logical numbers, and no physical cluster has two of them. -/
def MapInv (s : State) : Prop := s.nlive = s.lmap.length ∧ s.lmap.Nodup

/-- A step is safe when it answers a next state. -/
def SafeStep (s : State) : Prop := ∃ t, step s = .next t

/-- A run of `n` safe steps. -/
def SafeRun : Nat → State → Prop
  | 0, _ => True
  | n + 1, s => ∃ t, step s = .next t ∧ SafeRun n t

/-- An invariant that every step keeps. -/
def Kept (P : State → Prop) : Prop := ∀ s t, P s → step s = .next t → P t

/-- A kept invariant holds at the end of every run of safe steps that starts where it holds. -/
theorem Kept.run {P : State → Prop} (hk : Kept P) : ∀ (n : Nat) (s : State), P s → SafeRun n s →
    ∃ t, core.run n s = .next t ∧ P t
  | 0, s, hs, _ => ⟨s, rfl, hs⟩
  | n + 1, s, hs, ⟨t, ht, hr⟩ => by
    obtain ⟨t', h', hp⟩ := Kept.run hk n t (hk s t hs ht) hr
    exact ⟨t', by simpa [Host.Core.run, core, ht] using h', hp⟩

/-! ## What an instruction changes and what it leaves -/

/-- Of the whole module, nothing but core u differs. -/
def OnlyCore (s t : State) (u : Nat) : Prop := t = { s with cores := t.cores } ∧ ∀ v, v ≠ u → t.core v = s.core v

/-- A core after an instruction that retired in sequence or by a transfer (R58): nothing differs but the register files, the PC and the
from-address, the loop's count and end, the counts that retirement starts again (R352, R355, R357) with the MARGIN trap it may
make due (R356), and what was held for the instruction's wait and its replays (R26, R71, R97). -/
def RetiredFrom (c c' : Core) (now : Nat) : Prop :=
  c' = { c with g := c'.g, v := c'.v, pc := c'.pc, from_ := c'.from_, lcnt := c'.lcnt, lend := c'.lend, wdStart := now,
                lastPc := c.pc, pop := none, wait := .none, redirect := [], sample := none,
                mgn := { c.mgn with replays := 0, misses := 0, armed := false, trapDue := c.mgn.trapDue || c.mgn.armed } }

/-- The PC, the loop registers and the from-address after an instruction that did not transfer control (R33, R78, R83): on in sequence, or
at the end of a loop's body back to its first instruction, with the last body instruction as the from-address. -/
def Sequenced (c c' : Core) : Prop :=
  let next := c.pc + word c.ilen
  let firstPass := bitAt c.lend 0
  let lend := if firstPass then (if c.lend = 3 then sext56 next else c.lend - 2) else c.lend
  if c.lcnt = 0 ∧ firstPass = false then c'.pc = next ∧ c'.lcnt = c.lcnt ∧ c'.lend = c.lend ∧ c'.from_ = 0
  else c'.lend = lend ∧
    (if bitAt lend 0 = false ∧ sext56 next = lend then
      (if 1 < c.lcnt.toNat then c'.lcnt = c.lcnt - 1 ∧ c'.pc = c.lbeg ∧ c'.from_ = c.pc
       else c'.lcnt = 0 ∧ c'.pc = lend ∧ c'.from_ = 0)
     else c'.lcnt = c.lcnt ∧ c'.pc = next ∧ c'.from_ = 0)

/-- A core after a taken transfer of control (R56, R80, R83): at the target, with the transferring instruction as the from-address; a loop that
was not idle has ended; the instruction cache answers to the FENCEs that have covered the core. Register files are left open. -/
def Transferred (s : State) (u : Nat) (c c' : Core) (target : Word) : Prop :=
  c'.pc = target ∧ c'.from_ = c.pc
    ∧ (if c.lcnt = 0 ∧ bitAt c.lend 0 = false then c'.lcnt = c.lcnt ∧ c'.lend = c.lend else c'.lcnt = 0 ∧ c'.lend = 0)
    ∧ RetiredFrom (c.refetch s u) c' s.now

/-- An instruction of the core whose turn it is completes: its operation leaves state s', and then it writes a general register (nothing, where that
is g0: R45) and retires in sequence, as if from state s: beyond s', memory, every other unit, every other core and every other register stay as they
were. -/
def CompletesG (i : Instr) (s s' : State) (d : GReg) (w : Word) : Prop :=
  ∃ t, exec i s = .next t ∧ OnlyCore s' t s.cur ∧ RetiredFrom (s'.core s.cur) (t.core s.cur) s.now
    ∧ Sequenced (s.core s.cur) (t.core s.cur)
    ∧ (∀ r, (t.core s.cur).rg r = if r = d ∧ d ≠ 0 then w else s.rg r) ∧ (t.core s.cur).v = (s.core s.cur).v

/-- The same for an instruction that writes a vector register with its tag. -/
def CompletesV (i : Instr) (s s' : State) (d : VReg) (x : VVal) : Prop :=
  ∃ t, exec i s = .next t ∧ OnlyCore s' t s.cur ∧ RetiredFrom (s'.core s.cur) (t.core s.cur) s.now
    ∧ Sequenced (s.core s.cur) (t.core s.cur)
    ∧ (∀ r, (t.core s.cur).rv r = if r = d then x else s.rv r) ∧ (t.core s.cur).g = (s.core s.cur).g

/-- An instruction of the core whose turn it is completes in sequence, writes no register, and leaves what its operation left. -/
def Completes (i : Instr) (s s' : State) : Prop := CompletesG i s s' 0 0

/-- An instruction that only writes a general register and retires in sequence. -/
def WritesG (i : Instr) (s : State) (d : GReg) (w : Word) : Prop := CompletesG i s s d w

/-- An instruction that only writes a vector register and retires in sequence. -/
def WritesV (i : Instr) (s : State) (d : VReg) (x : VVal) : Prop := CompletesV i s s d x

/-- An instruction of the core whose turn it is completes by going to a target, and besides that only writes `link` to a general register
`d` (nothing where d is g0). -/
def TransfersTo (i : Instr) (s : State) (target : Word) (d : GReg) (link : Word) : Prop :=
  ∃ t, exec i s = .next t ∧ OnlyCore s t s.cur ∧ Transferred s s.cur (s.core s.cur) (t.core s.cur) target
    ∧ (∀ r, (t.core s.cur).rg r = if r = d ∧ d ≠ 0 then link else s.rg r) ∧ (t.core s.cur).v = (s.core s.cur).v

/-- An instruction of the core whose turn it is completes in sequence and writes no register. -/
def FallsThrough (i : Instr) (s : State) : Prop := WritesG i s 0 0

/-- A core beside which memory was accessed: nothing differs but its store buffer, its unfenced UO bytes and those it has seen, how far back its loads may
reach, its PLB and instruction cache, and the wait that an answered LDF ends with the value in the pop buffer. -/
def CoreAside (c c' : Core) : Prop :=
  c' = { c with storeBuf := c'.storeBuf, acq := c'.acq, floors := c'.floors, uoDirty := c'.uoDirty, uoSeen := c'.uoSeen, seqSeen := c'.seqSeen,
                plb := c'.plb, icache := c'.icache, pop := c'.pop, wait := c'.wait }

/-- A cluster beside which memory was accessed: nothing differs but the UO bytes that its cache holds or that a FENCE has made visible in its tiles, and the records in
its mailbox. -/
def ClusterAside (k k' : Cluster) : Prop :=
  k' = { k with uoCache := k'.uoCache, uoFenced := k'.uoFenced, mailbox := k'.mailbox, heldRecs := k'.heldRecs, heldCnt := k'.heldCnt }

/-- What accesses to memory may change of the module beside memory itself: what its bytes held before, translations held, the registers of a notify page, stores, atomics and updates
on their way, the links they cross, deferred LDFs, and of cores and clusters what CoreAside and ClusterAside name. No register file, no PC, no tile, no task;
and memory stays canonical. -/
def Accessed (s t : State) : Prop :=
  t = { s with cores := t.cores, clusters := t.clusters, mem := t.mem, past := t.past, tcache := t.tcache, dies := t.dies,
               queues := t.queues, net := t.net, links := t.links, seqOrder := t.seqOrder, seqNext := t.seqNext, defers := t.defers, reqs := t.reqs,
               freeCtr := t.freeCtr }
    ∧ (∀ u, CoreAside (s.core u) (t.core u)) ∧ (∀ P, ClusterAside (s.cluster P) (t.cluster P)) ∧ (MemoryInv s → MemoryInv t)

/-- The record of a precise trap of core u (R343, R345) with the cause and the fields that the cause fills: PC is the trapping
instruction's, and addresses stand in [55:0]. -/
def PreciseRecord (s : State) (u : Nat) (r : TrapRecord) (cause : Cause) (faddr : Word) : Prop :=
  r.cause = cause ∧ r.faddr = rec56 faddr ∧ r.pc = rec56 (s.core u).pc ∧ r.rpc = rec56 (s.core u).pc ∧ r.unit = s.unitId u ∧ r.late = false
    ∧ r.held = false ∧ r.kid = (s.core u).ctx.kern.kid ∧ r.cyc = BitVec.ofNat 32 s.now

/-- An instruction of the core whose turn it is traps precisely (R345, R346): the record stands in the core's reserved mailbox slot and the core parks
with it, or the slot is in use and the core stalls with the record; every register of the core, its PC and loop registers, all of memory and
every other core are as they were (R58). -/
def TrapsWith (i : Instr) (s : State) (cause : Cause) (faddr : Word) : Prop :=
  ∃ t r, exec i s = .next t ∧ PreciseRecord s s.cur r cause faddr
    ∧ (let P := clusterOf s.cur
       let k := inCluster s.cur
       if mfind (s.cluster P).mailbox k = none then
         mfind (t.cluster P).mailbox k = some r ∧ (t.core s.cur).status = .trapped r
       else mfind (t.cluster P).mailbox k = mfind (s.cluster P).mailbox k ∧ (t.core s.cur).status = .stall r)
    ∧ t.mem = s.mem ∧ (∀ v, v ≠ s.cur → t.core v = s.core v)
    ∧ (t.core s.cur).g = (s.core s.cur).g ∧ (t.core s.cur).v = (s.core s.cur).v ∧ (t.core s.cur).pc = (s.core s.cur).pc
    ∧ (t.core s.cur).lcnt = (s.core s.cur).lcnt ∧ (t.core s.cur).lbeg = (s.core s.cur).lbeg
    ∧ (t.core s.cur).lend = (s.core s.cur).lend ∧ (t.core s.cur).h = (s.core s.cur).h

end Sys2Proof
end

