-- ==== Sys2Proof/Certificates/Slice0/Obligations.lean ====
section
/-! DEFINITION. The statements for the provers, from the numbered rules of the spec. -/

open Sys2Proof Sys2Proof.Machine

/-! ## What a statement asks of a state -/

/-- No retired atomic or remote store of core u is still to be performed (R135). -/
def NonePending (s : State) (u : Nat) : Prop := ∀ r ∈ s.reqs, r.pendingOf u = false

/-- Nothing of core u is on its way: its store buffer is empty, and no retired atomic or remote store of it is still to be performed (R101, R135). -/
def Quiet (s : State) (u : Nat) : Prop := (s.core u).storeBuf = [] ∧ NonePending s u

/-- Nothing that core u has stored or seen is still to be performed or made visible: besides what is on its way, its bytes of UO pages and updates of replicated pages
(R122, R124, R131). -/
def Settled (s : State) (u : Nat) : Prop := Quiet s u ∧ (s.core u).uoDirty = [] ∧ (s.core u).uoSeen = [] ∧ s.seqOrder = []

/-- No link is down (R330). -/
def LinksUp (s : State) : Prop := ∀ m, linkDown s m = false

/-- The loads of core u are performed in their turn (R121): the step performs its requests (log entry 6), or the core's last acquire came after every performed
write. -/
def ReadsNow (s : State) (u : Nat) : Prop := s.eager = true ∨ s.past.length ≤ (s.core u).acq

/-! ## Words and the decoder -/

/-- R379, R38, R39, R46 to R49: decoding the words of a well-formed instruction gives that instruction, with every operand at every value that
its encoding admits, and its length in bytes. -/
def Obligations.DecodeAfterEncode : Prop :=
  ∀ i, hasWords i = true → wellFormed i = true → decode (encode i) = .ok (i, 2 * (encode i).length)

/-- Words that the spec's listings print decode to the instructions beside them: at least one of every form on each of the four pages (R46 to R49). -/
def ListedWordsDecode : Prop :=
  decode [0x2188] = .ok (.slt 3 0 4, 2)
    ∧ decode [0xF000, 0x0DC3] = .ok (.selImm 3 4 1, 4)
    ∧ decode [0xF100, 0x2E00] = .ok (.li 4 0x8000, 4)
    ∧ decode [0x5B80] = .ok (.jal (-128), 2)
    ∧ decode [0x5E83] = .ok (.rep 5 3, 2)
    ∧ decode [0x6F40] = .ok (.ldD 6 4 0, 2)
    ∧ decode [0x2811] = .ok (.jr 0 1, 2)
    ∧ decode [0xF3FF, 0x3904] = .ok (.bne 2 0 (-12), 4)
    ∧ decode [0xF801, 0x3502] = .ok (.vfadd 2 0 1, 4)
    ∧ decode [0xF801, 0x0220] = .ok (.vwid 4 2 0, 4)
    ∧ decode [0xF802, 0xFC00, 0x0351] = .ok (.cp .copy true 6 5 0, 6)
    ∧ decode [0xF802, 0x0B14] = .ok (.rwait 6 1 2, 4)
    ∧ decode [0xF802, 0x1A58] = .ok (.mldbL 1 3, 4)
    ∧ decode [0xF802, 0x1C04] = .ok (.msel 0 4, 4)
    ∧ decode [0xF803, 0x0406] = .ok (.fork 6, 4)
    ∧ decode [0xF803, 0x0041] = .ok (.join 4, 4)
    ∧ decode [0xF803, 0x1E84] = .ok (.gid 5 4, 4)
    ∧ decode [0xF803, 0x0800] = .ok (.exit, 4)

/-- R52: a fifth prefix makes the halfwords so far illegal, whatever follows it. -/
def FifthPrefixIllegal : Prop :=
  ∀ (a b c d e : Half) (rest : List Half), 0xF000 ≤ a.toNat → 0xF000 ≤ b.toNat → 0xF000 ≤ c.toNat → 0xF000 ≤ d.toNat → 0xF000 ≤ e.toNat →
    ∃ r, decode (a :: b :: c :: d :: e :: rest) = .error r ∧ r ≠ .truncated

/-- R46 to R52: words written out from the encodings decode to the instructions they stand for, and a fifth prefix before one raises ILLEGAL_OP. -/
def Obligations.WordsOfTheSpecDecode : Prop := ListedWordsDecode ∧ FifthPrefixIllegal

/-! ## Reset and the step -/

/-- R28 to R30, R77, R193, R201, R212, R218, R301, R331, R365: what cold reset leaves, of the values the spec gives. -/
def Obligations.ResetValues : Prop :=
  let s := State.reset
  s.now = 0 ∧ s.nlive = 64 ∧ (∀ P, P < 64 → s.logical P = some P ∧ s.physical P = some P)
    ∧ (∀ u, (s.core u).status = .free ∧ (s.core u).lcnt = 0 ∧ (s.core u).lbeg = 0 ∧ (s.core u).lend = 0 ∧ (s.core u).seqNo = 0
        ∧ (∀ h, (s.core u).rh h = .unbound) ∧ (s.core u).ctx.wdt = 26)
    ∧ (∀ n, (∀ k, (s.tile n).rs k = 0) ∧ (s.tile n).monb = 0 ∧ (s.tile n).monc = 0 ∧ (s.tile n).mrepl = 0 ∧ (s.tile n).cncd = 24)
    ∧ (∀ P, (s.cluster P).ebits = 0 ∧ (∀ b, b < 16 → (s.cluster P).modes[b]? = some 0) ∧ (s.cluster P).mailbox = [])
    ∧ (∀ m, (s.link m).lctl = 0 ∧ (s.link m).ethr = 16 ∧ (s.link m).ecnt = 0 ∧ (s.link m).rplc = 0)
    ∧ (∀ d, (s.die d).ptroot = 0) ∧ s.snap.pend = false ∧ s.sys.clock = 3300

/-- Memory is canonical at reset. What an unlisted byte reads as is the
model's choice (log entry 2). -/
def Obligations.ResetMemoryCanonical : Prop := MemoryInv State.reset

/-- Every step keeps memory in its canonical form, from every state, not only from those a run reaches. What an unlisted
byte reads as is the model's choice (log entry 2). -/
def Obligations.StepKeepsMemoryCanonical : Prop := Kept MemoryInv

/-- Every instruction, and every step of another agent, answers a next state from every state: no arm of exec stops the machine. What stops it is a
thermal shutdown alone (R32), after which step answers the fault shutDown until a cold reset. That a row whose condition does not hold changes
nothing is the model's reading (log entry 49). -/
def Obligations.OnlyShutdownStops : Prop :=
  (∀ i s, ∃ t, exec i s = .next t)
    ∧ (∀ s, s.sys.shutdown = false → ∃ t, step s = .next t)
    ∧ (∀ s, s.sys.shutdown = true → (∀ p m, s.moves ≠ .event (.coldReset p) :: m) → step s = .fault .shutDown)

/-- The halfwords that fetch reads one after another from an address, and the state after them. -/
def FetchesHalves : List Half → Word → State → State → Prop
  | [], _, s, s' => s' = s
  | h :: t, va, s, s' => ∃ s1, fetchHalf va s = .ok (h, s1) ∧ FetchesHalves t (va + 2) s1 s'

/-- R33, R34, R52: when the halfwords from the program counter on decode to an instruction, the step of a running core is exec of that
instruction, after the time of the step and the fetch; exec sees the instruction's length in `ilen`. What else the issue notes of the core is that it does not wait
for a fetch, and the queue conditions that a later BQS may have sampled early (R71). A core of whose retired requests a failed path has cut one off goes on in the same
way, but for an instruction that would perform such a request: before that one it waits, with nothing fetched (R138, R330; the model's reading, log entry 84). -/
def Obligations.StepRunsDecoded : Prop :=
  ∀ (s s1 : State) (hs : List Half) (i : Instr),
    s.sys.shutdown = false → s.moves = [] → (s.core s.cur).canRun = true → pendingTrap (tick s) s.cur = none →
    decode hs = .ok (i, 2 * hs.length) → FetchesHalves hs (s.core s.cur).pc (tick s) s1 → (s1.core s.cur).skipping = false →
    let s2 := noteIssue s1 s.cur i (2 * hs.length)
    let lost := fun (t : State) => ∃ r ∈ s1.reqs, r.pendingOf s.cur = true ∧ r.cut s1 = true ∧ r ∉ t.reqs
    (∀ t, exec i s2 = .next t → lost t → step s = .next (tick s))
    ∧ ((∀ t, exec i s2 = .next t → ¬ lost t) → step s = exec i s2)
    ∧ (s1.eager = true → (∀ r ∈ s1.reqs, r.pendingOf s.cur = true → r.cut s1 = false) → step s = exec i (s1.modCore s.cur (fun c => { c with ilen := 2 * hs.length, fetchWait := false })))
    ∧ s2 = { s1 with cores := s2.cores, freeCtr := s2.freeCtr } ∧ (∀ v, v ≠ s.cur → s2.core v = s1.core v)
    ∧ s2.core s.cur = { s1.core s.cur with ilen := 2 * hs.length, fetchWait := false, early := (s2.core s.cur).early }

/-- Whether core u must fetch what a performed write, the `i`-th newest, has stored to the halfword at a location: an engine stored it (R130), or an INVAL of the
sector came after it (R208), or a FENCE of its own core that the last taken transfer of core u has answered to (R56). -/
def MustFetch (s : State) (u loc i : Nat) (r : Replaced) : Prop :=
  let k := s.past.length - 1 - i
  k < mget s.icSec (sectorOf loc) 0 ∨ match r.core with
    | none => True
    | some v => k < mget (s.core u).icFrom v 0

/-- A halfword of code in a scratchpad bank of the fetching core's cluster, read through the local window, that the core's instruction cache does not hold (R33, R56,
R86): it is the two bytes of memory at its place, low byte first, as they stand or, where the step does not perform its requests, as they stood before some of the
stores to it that the core need not fetch yet; and fetching it changes nothing but what the core's instruction cache and PLB hold. -/
def Obligations.FetchReadsScratchpad : Prop :=
  ∀ (s : State) (off : Nat), off % 2 = 0 → off < 2 ^ 22 →
    let P := clusterOf s.cur
    let loc := sramLoc P off
    (s.cluster P).modes[off / 2 ^ 18]? = some 1 → (s.cluster P).switching = [] → s.quarCl.contains P = false →
    s.mem.poison.contains (loc / 64) = false → mfind (s.core s.cur).icache loc = none →
    (∃ w s0, rightsM s.me (4032 + s.logicalNo P) s = .ok (w, s0) ∧ w.getLsbD 2 = true) →
    ∃ s1 h n, fetchHalf (localVa off) s = .ok (h, s1)
      ∧ h = BitVec.ofNat 16 ((s.peekBack n loc).toNat + 256 * (s.peekBack n (loc + 1)).toNat) ∧ n ≤ s.past.length
      ∧ (∀ i r, i < n → s.past[i]? = some r → r.touches loc = true → ¬ MustFetch s s.cur loc i r)
      ∧ (s.eager = true ∨ (∀ i r, s.past[i]? = some r → r.touches loc = true → MustFetch s s.cur loc i r) →
          h = BitVec.ofNat 16 ((s.mem.peek loc).toNat + 256 * (s.mem.peek (loc + 1)).toNat))
      ∧ s1.mem = s.mem ∧ s1.tiles = s.tiles ∧ s1.clusters = s.clusters ∧ (∀ v, v ≠ s.cur → s1.core v = s.core v)
      ∧ s1.core s.cur = { s.core s.cur with icache := (s1.core s.cur).icache, plb := (s1.core s.cur).plb }

/-- A step in which another agent moves runs that agent's row of the table and nothing else; a step in which a core's number stands there gives that
core its turn; a move that names an instruction of a core passes (the model's choice of who moves: log entry 6). -/
def Obligations.StepRunsMove : Prop :=
  ∀ (s : State) (i : Instr) (u : Nat) (m : List Move), s.sys.shutdown = false →
    let passed : State := { s with moves := m, now := s.now + 1 + Config.freeNat s.freeCtr, freeCtr := s.freeCtr + 1 }
    (s.moves = .event i :: m → hasWords i = false → step s = exec i passed)
    ∧ (s.moves = .event i :: m → hasWords i = true → step s = .next passed)
    ∧ (s.moves = .core u :: m →
        (∀ t, coreTurn { passed with cur := u } = .done t → step s = .next t)
        ∧ (∀ j t, coreTurn { passed with cur := u } = .run j t → step s = exec j t)
        ∧ (m = [] → step s = step { s with moves := [], cur := u }))

/-! ## Scalar instructions -/

/-- R63: the value that each three-register instruction writes, register and immediate form, from the values its sources held; and its frame. -/
def ScalarArithmeticResults : Prop :=
  ∀ (s : State) (d a b : GReg) (v : Word),
    let x := s.rg a
    let y := s.rg b
    let quot := fun (p q : Word) => if q = 0 then (0 : Word) else p.sdiv q
    let high := fun (p q : Word) => ((p.signExtend 128 * q.signExtend 128) >>> 64).setWidth 64
    (WritesG (.add d a b) s d (x + y) ∧ WritesG (.addImm d a v) s d (x + v))
    ∧ (WritesG (.sub d a b) s d (x - y) ∧ WritesG (.subImm d a v) s d (x - v))
    ∧ (WritesG (.mul d a b) s d (x * y) ∧ WritesG (.mulImm d a v) s d (x * v))
    ∧ (WritesG (.mulh d a b) s d (high x y) ∧ WritesG (.mulhImm d a v) s d (high x v))
    ∧ (WritesG (.div d a b) s d (quot x y) ∧ WritesG (.divImm d a v) s d (quot x v))
    ∧ (WritesG (.divu d a b) s d (if y = 0 then 0 else x / y) ∧ WritesG (.divuImm d a v) s d (if v = 0 then 0 else x / v))
    ∧ (WritesG (.rem d a b) s d (if y = 0 then 0 else x - y * quot x y)
      ∧ WritesG (.remImm d a v) s d (if v = 0 then 0 else x - v * quot x v))
    ∧ (WritesG (.sel d a b) s d (if s.rg d = 0 then y else x) ∧ WritesG (.selImm d a v) s d (if s.rg d = 0 then v else x))
    ∧ (WritesG (.and d a b) s d (x &&& y) ∧ WritesG (.andImm d a v) s d (x &&& v))
    ∧ (WritesG (.or d a b) s d (x ||| y) ∧ WritesG (.orImm d a v) s d (x ||| v))
    ∧ (WritesG (.xor d a b) s d (x ^^^ y) ∧ WritesG (.xorImm d a v) s d (x ^^^ v))

/-- R63: shifts by the low six bits of the second operand, minimum, maximum and comparisons; and their frame. -/
def ScalarShiftsAndComparisons : Prop :=
  ∀ (s : State) (d a b : GReg) (v : Word),
    let x := s.rg a
    let y := s.rg b
    let amt := fun (q : Word) => (q.setWidth 6).toNat
    (WritesG (.sra d a b) s d (x.sshiftRight (amt y)) ∧ WritesG (.sraImm d a v) s d (x.sshiftRight (amt v)))
    ∧ (WritesG (.shl d a b) s d (x <<< amt y) ∧ WritesG (.shlImm d a v) s d (x <<< amt v))
    ∧ (WritesG (.shr d a b) s d (x >>> amt y) ∧ WritesG (.shrImm d a v) s d (x >>> amt v))
    ∧ (WritesG (.min d a b) s d (if y.slt x then y else x) ∧ WritesG (.minImm d a v) s d (if v.slt x then v else x))
    ∧ (WritesG (.max d a b) s d (if x.slt y then y else x) ∧ WritesG (.maxImm d a v) s d (if x.slt v then v else x))
    ∧ (WritesG (.slt d a b) s d (if x.slt y then 1 else 0) ∧ WritesG (.sltImm d a v) s d (if x.slt v then 1 else 0))
    ∧ (WritesG (.sltu d a b) s d (if x < y then 1 else 0) ∧ WritesG (.sltuImm d a v) s d (if x < v then 1 else 0))

/-- R63: every scalar instruction of two sources completes with its result. -/
def Obligations.ScalarTwoSource : Prop := ScalarArithmeticResults ∧ ScalarShiftsAndComparisons

/-- R65, R66: CLZ counts the zero bits above the highest set bit (64 for 0), POPC the set bits, MOV copies, LI writes its immediate, ADDPC the
instruction's address plus twice its offset. -/
def Obligations.SingleSource : Prop :=
  ∀ (s : State) (d a : GReg) (v : Word),
    let x := s.rg a
    WritesG (.clz d a) s d (BitVec.ofNat 64 (if x = 0 then 64 else 63 - x.toNat.log2))
    ∧ WritesG (.popc d a) s d (BitVec.ofNat 64 ((List.range 64).countP (fun k => x.getLsbD k)))
    ∧ WritesG (.mov d a) s d x ∧ WritesG (.li d v) s d v ∧ WritesG (.addpc d v) s d (s.pc + v + v)

/-- R68, R69, R71, R80, R83: a branch goes to its address plus twice the offset when its condition holds, falls through otherwise, and writes no
register; a taken one ends a repeat loop. BQS and BQC go by the bit that a replay has kept, or by the condition as it stands; where the step does not perform
its requests, also by the condition as it stood before the memory accesses that the branch follows (whether a step performs its requests is the model's: log entry 6). -/
def BranchResults : Prop :=
  ∀ (s : State) (a b : GReg) (q : QReg) (off : Word),
    let x := s.rg a
    let y := s.rg b
    let goal := s.pc + off + off
    let goes := fun (i : Instr) (p : Prop) => (p → TransfersTo i s goal 0 0) ∧ (¬ p → FallsThrough i s)
    let c := s.core s.cur
    let early := fun (i : Instr) (p : Bool → Bool) => ∀ w, s.eager = false → c.sample = none → c.early = some w → ∃ t, exec i s = .next t
      ∧ (t.core s.cur).g = c.g ∧ (t.core s.cur).v = c.v ∧ (∀ u, u ≠ s.cur → t.core u = s.core u) ∧ t.mem = s.mem
      ∧ ((p (w.getLsbD q.toNat) = true ∨ p (queueCond s s.cur q.toNat) = true) ∧ (t.core s.cur).pc = goal
          ∨ (p (w.getLsbD q.toNat) = false ∨ p (queueCond s s.cur q.toNat) = false) ∧ Sequenced c (t.core s.cur))
    goes (.beq a b off) (x = y) ∧ goes (.bne a b off) (x ≠ y) ∧ goes (.blt a b off) (x.toInt < y.toInt)
    ∧ goes (.bge a b off) (y.toInt ≤ x.toInt) ∧ goes (.bltu a b off) (x.toNat < y.toNat) ∧ goes (.bgeu a b off) (y.toNat ≤ x.toNat)
    ∧ (c.sample = none → s.eager = true ∨ c.early = none →
        goes (.bqs q off) (queueCond s s.cur q.toNat = true) ∧ goes (.bqc q off) (queueCond s s.cur q.toNat = false))
    ∧ (∀ w, c.sample = some w → goes (.bqs q off) (w.getLsbD q.toNat = true) ∧ goes (.bqc q off) (w.getLsbD q.toNat = false))
    ∧ early (.bqs q off) id ∧ early (.bqc q off) not

/-- R70: what the sixteen queue conditions are: the inbox, the receive sides and send sides of the four ports, and the first six semaphores. -/
def QueueConditionResults : Prop :=
  ∀ (s : State) (u : Nat),
    (queueCond s u 0 = true ↔ (s.core u).inbox ≠ []) ∧ (queueCond s u 1 = true ↔ (s.core u).inbox.length = 16)
    ∧ (∀ p, p < 4 → (queueCond s u (2 + p) = true ↔ mget (s.core u).rxPorts p [] ≠ [])
        ∧ (queueCond s u (6 + p) = true ↔ (mget (s.core u).txPorts p []).length = 4))
    ∧ (∀ k, k < 6 → (queueCond s u (10 + k) = true ↔ (s.tile (tileOf u)).rs (BitVec.ofNat 4 k) ≠ 0))

/-- R68 to R70, R80, R83: branches, and the conditions on the queues. -/
def Obligations.BranchesAndQueueConditions : Prop := BranchResults ∧ QueueConditionResults

/-- R74, R75: J goes to its target; JAL first writes the address after itself to g1; JR goes to the address that gA held and writes the address after
itself to gD; an odd target of JR raises ALIGN, with no link written. -/
def Obligations.JumpsAndLinks : Prop :=
  ∀ (s : State) (d a : GReg) (off : Word),
    TransfersTo (.j off) s (s.pc + off + off) 0 0 ∧ TransfersTo (.jal off) s (s.pc + off + off) 1 (s.pc + word (s.core s.cur).ilen)
    ∧ ((s.rg a).getLsbD 0 = false → TransfersTo (.jr d a) s (s.rg a) d (s.pc + word (s.core s.cur).ilen))
    ∧ ((s.rg a).getLsbD 0 = true → TrapsWith (.jr d a) s .align (s.rg a))

/-- R78: REP in the idle state sets the count, the first body address and twice the body's length plus one, and goes on at the body; inside a body it
raises ILLEGAL_OP. -/
def RepeatSetup : Prop :=
  ∀ (s : State) (a : GReg) (n : BitVec 7),
    let c := s.core s.cur
    (c.lcnt = 0 → bitAt c.lend 0 = false →
      ∃ t, exec (.rep a n) s = .next t ∧ OnlyCore s t s.cur ∧ (t.core s.cur).lcnt = s.rg a
        ∧ (t.core s.cur).lbeg = sext56 (c.pc + word c.ilen) ∧ (t.core s.cur).lend = word (2 * n.toNat + 1)
        ∧ (t.core s.cur).pc = c.pc + word c.ilen ∧ (t.core s.cur).g = c.g ∧ (t.core s.cur).v = c.v
        ∧ RetiredFrom { c with lbeg := (t.core s.cur).lbeg } (t.core s.cur) s.now)
    ∧ (c.lcnt ≠ 0 ∨ bitAt c.lend 0 = true → TrapsWith (.rep a n) s .illegalOp 0)

/-- R79: in the skipping state a body instruction that is legal is fetched and decoded and has no effect but on the loop registers and the PC. -/
def SkippedBody : Prop :=
  ∀ (s s1 : State) (i : Instr) (n : Nat),
    s.sys.shutdown = false → s.moves = [] → (s.core s.cur).canRun = true → pendingTrap (tick s) s.cur = none →
    fetchInstr (tick s) = .ok ((i, n), s1) → (s1.core s.cur).skipping = true →
    let s2 := noteIssue s1 s.cur i n
    opIllegal s2 i = false →
    ∃ t, step s = .next t ∧ OnlyCore s2 t s.cur ∧ RetiredFrom (s2.core s.cur) (t.core s.cur) s1.now ∧ (s2.core s.cur).ilen = n ∧ s2.mem = s1.mem
      ∧ Sequenced (s2.core s.cur) (t.core s.cur) ∧ (t.core s.cur).g = (s.core s.cur).g
      ∧ (t.core s.cur).v = (s.core s.cur).v

/-- R78, R79: REP begins a loop, and a body that is skipped has no effect. -/
def Obligations.RepeatLoops : Prop := RepeatSetup ∧ SkippedBody

/-! ## Loads and stores -/

/-- R99, R101: a scalar load whose checks pass and whose bytes are read completes: it writes those bytes, little-endian, sign- or zero-extended, to gD
and nothing else of the core's registers; it stores nothing, so with nothing of the core on its way every byte of memory reads as before. -/
def Obligations.ScalarLoads : Prop :=
  ∀ (s s1 : State) (d a : GReg) (off : Word) (bs : List Byte),
    let ea := fun (n : Nat) => s.rg a + off * word n
    let reads := fun (n : Nat) => (ea n).toNat % n = 0 ∧ loadBytes s.me (ea n) n s = .ok (bs, s1)
    let kept := Accessed s s1 ∧ (Quiet s s.cur → ∀ x, s1.mem.peek x = s.mem.peek x)
    (reads 1 → CompletesG (.ldB d a off) s s1 d ((BitVec.ofNat 8 (leNat bs)).signExtend 64)
      ∧ CompletesG (.lduB d a off) s s1 d (word (leNat bs)) ∧ kept)
    ∧ (reads 2 → CompletesG (.ldH d a off) s s1 d ((BitVec.ofNat 16 (leNat bs)).signExtend 64)
      ∧ CompletesG (.lduH d a off) s s1 d (word (leNat bs)) ∧ kept)
    ∧ (reads 4 → CompletesG (.ldW d a off) s s1 d ((BitVec.ofNat 32 (leNat bs)).signExtend 64)
      ∧ CompletesG (.lduW d a off) s s1 d (word (leNat bs)) ∧ kept)
    ∧ (reads 8 → CompletesG (.ldD d a off) s s1 d (word (leNat bs)) ∧ kept)

/-- The conditions under which a core reaches `n` bytes at offset `off` of its own cluster's scratchpad through the local window (R86, R93, R95, R100):
within one 64 KiB piece, the bank in scratchpad mode and not being switched, the cluster not quarantined, the right held. -/
def ReachesScratchpad (s : State) (off n right : Nat) : Prop :=
  let P := clusterOf s.cur
  0 < n ∧ off % 65536 + n ≤ 65536 ∧ off < 2 ^ 22 ∧ (s.cluster P).modes[off / 2 ^ 18]? = some 1 ∧ (s.cluster P).switching = []
    ∧ s.quarCl.contains P = false ∧ ∃ w s0, rightsM s.me (4032 + s.logicalNo P) s = .ok (w, s0) ∧ w.getLsbD right = true

/-- R86, R99, R100, R121: a load through the local window reads the bytes of the cluster's SRAM, in ascending order, as they stand, or as they stood at one time
since the core's last acquire of them; a sector comes with its tag (R94, R102). It changes nothing of memory. -/
def ScratchpadIsRead : Prop :=
  ∀ (s : State) (off n : Nat), ReachesScratchpad s off n 0 → n ≤ 64 → off % 64 + n ≤ 64 → Quiet s s.cur →
    let loc := sramLoc (clusterOf s.cur) off
    s.mem.poison.contains (loc / 64) = false →
    ∃ s1 k, loadBytes s.me (localVa off) n s = .ok ((upFrom loc n).map (s.peekBack k), s1) ∧ k ≤ s.past.length - (s.core s.cur).acq ∧ s1.mem = s.mem
      ∧ Accessed s s1 ∧ (ReadsNow s s.cur → (upFrom loc n).map (s.peekBack k) = s.mem.bytes loc n)
      ∧ (n = 64 → ∃ s2 x, loadSector (localVa off) s = .ok (x, s2) ∧ s2.mem = s.mem ∧ Accessed s s2
          ∧ (ReadsNow s s.cur → x = ⟨BitVec.ofNat 512 (leNat (s.mem.bytes loc 64)), s.mem.tag loc⟩))

/-- R86, R99, R101: a store through the local window to bytes that hold no bound ring's descriptor, with no atomic of the core on its way, is performed on the cluster's SRAM, byte for byte,
and every byte outside it reads as before; where the store waits instead, it is the youngest entry of the core's store buffer and no byte changes. -/
def ScratchpadIsWritten : Prop :=
  ∀ (s : State) (off : Nat) (bs : List Byte), ReachesScratchpad s off bs.length 1 → (s.cluster (clusterOf s.cur)).rings = [] →
    let loc := sramLoc (clusterOf s.cur) off
    ∃ s1, storeBytes s.me .store (localVa off) bs none false s = .ok ((), s1) ∧ Accessed s s1
      ∧ (s.eager = true → NonePending s s.cur → s1.mem.bytes loc bs.length = bs ∧ ∀ x, x < loc ∨ loc + bs.length ≤ x → s1.mem.peek x = s.mem.peek x)
      ∧ (s.eager = false → (s.core s.cur).storeBuf.length < 16 → NonePending s s.cur → s1.mem = s.mem
          ∧ ∃ e, (s1.core s.cur).storeBuf = (s.core s.cur).storeBuf ++ [e] ∧ e.writes = writesAt loc bs ∧ e.release = false)

/-- An agent that is no core reaches `n` bytes of a cluster's SRAM through a window (R86, R93, R97, R192): the cluster P and the offset that the address names, under the
number of a cluster renumbered while the access waited, the bank in scratchpad or FIFO mode and not being switched, the cluster not quarantined, the right held, no sector
returning POISON, the links up. -/
def EngineReaches (s : State) (w : Who) (addr : Word) (n right P off : Nat) : Prop :=
  let va := redirected w addr
  w.core = none ∧ 0 < n ∧ off % 65536 + n ≤ 65536 ∧ off < 2 ^ 22 ∧ va.toNat % 65536 = off % 65536 ∧ LinksUp s ∧ s.quarCl.contains P = false
    ∧ ((s.cluster P).modes[off / 2 ^ 18]? = some 1 ∨ (s.cluster P).modes[off / 2 ^ 18]? = some 2) ∧ (s.cluster P).switching = []
    ∧ (∀ k, k < n → s.mem.poison.contains (sramLoc P (off + k) / 64) = false)
    ∧ ∃ dom, regionOf s w.cl va = .window P off dom ∧ (w.tenant = none ∨ ∃ t, w.tenant = some t ∧ (s.rightsOf t dom).getLsbD right = true)

/-- R86, R111, R192: an engine, or the device itself, reads the bytes of a window as they stand and changes nothing, and writes them, one by one and no other, where
no bound ring has its descriptor. -/
def WindowIsMemoryForEngines : Prop :=
  ∀ (s : State) (w : Who) (va : Word) (n P off : Nat) (bs : List Byte),
    (EngineReaches s w va n 0 P off → loadBytes w va n s = .ok (s.mem.bytes (sramLoc P off) n, s)
      ∧ deviceRead s w va n = some (s.mem.bytes (sramLoc P off) n, s))
    ∧ (EngineReaches s w va bs.length 1 P off → (s.cluster P).rings = [] → ∃ t, storeBytes w .store va bs none false s = .ok ((), t)
      ∧ recordStore w va bs s = .ok ((), t)
      ∧ t.mem.bytes (sramLoc P off) bs.length = bs ∧ ∀ x, x < sramLoc P off ∨ sramLoc P off + bs.length ≤ x → t.mem.peek x = s.mem.peek x)

/-- R86, R96, R99, R192: a bank in scratchpad mode is memory: a load reads its bytes, and a store writes its bytes and no other. That a load may be performed before
its turn where the step does not perform its requests is the model's way to show R121 (log entry 53). -/
def Obligations.ScratchpadIsMemory : Prop := ScratchpadIsRead ∧ ScratchpadIsWritten ∧ WindowIsMemoryForEngines

/-- R99, R101: a scalar store whose checks pass completes and writes no register: its low bytes, little-endian, have gone where its address lands. Where
that is one place of memory of an ordered page, the step performs its requests and no atomic of the core is on its way, the bytes stand there, and every byte outside
them reads as before. -/
def Obligations.ScalarStores : Prop :=
  ∀ (s s1 : State) (d a : GReg) (off : Word),
    let ea := fun (n : Nat) => s.rg a + off * word n
    let stores := fun (i : Instr) (n : Nat) =>
      (ea n).toNat % n = 0 → storeBytes s.me .store (ea n) (leBytes n (s.rg d).toNat) none false s = .ok ((), s1) →
        Completes i s s1 ∧ Accessed s s1
          ∧ ∀ (p : Piece) (s0 : State) (loc : Nat), resolve s.me .store (ea n) n s = .ok ([p], s0) → p.place = .mem loc → p.kind ≠ 2 →
              p.repl = false → s.eager = true → LinksUp s → NonePending s s.cur →
              s1.mem.nat loc n = (s.rg d).toNat % 256 ^ n ∧ ∀ x, x < loc ∨ loc + n ≤ x → s1.mem.peek x = s.mem.peek x
    stores (.stB d a off) 1 ∧ stores (.stH d a off) 2 ∧ stores (.stW d a off) 4 ∧ stores (.stD d a off) 8

/-- R99, R100, R102, R126, R134, R137: an access of 2, 4, 8 or 64 bytes at an address that is no multiple of its size raises ALIGN with that address,
and neither a register nor memory changes. -/
def MisalignedAccessTraps : Prop :=
  ∀ (s : State) (d a b : GReg) (v : VReg) (off : Word),
    let ea := fun (n : Nat) => s.rg a + off * word n
    ((ea 2).toNat % 2 ≠ 0 → ∀ i ∈ [Instr.ldH d a off, .lduH d a off, .stH d a off], TrapsWith i s .align (ea 2))
    ∧ ((ea 4).toNat % 4 ≠ 0 → ∀ i ∈ [Instr.ldW d a off, .lduW d a off, .stW d a off], TrapsWith i s .align (ea 4))
    ∧ ((ea 8).toNat % 8 ≠ 0 → ∀ i ∈ [Instr.ldD d a off, .stD d a off, .lda d a off, .stl d a off, .stf d a off], TrapsWith i s .align (ea 8))
    ∧ ((ea 8).toNat % 8 ≠ 0 → (s.core s.cur).pop = none → TrapsWith (.ldf d a off) s .align (ea 8))
    ∧ ((ea 64).toNat % 64 ≠ 0 → ∀ i ∈ [Instr.ldv v a off, .stv v a off], TrapsWith i s .align (ea 64))
    ∧ ((s.rg a).toNat % 8 ≠ 0 → ∀ i ∈ [Instr.aadd d a b, .aand d a b, .aor d a b, .axor d a b, .amin d a b, .amax d a b, .aminu d a b,
        .amaxu d a b, .aswp d a b, .acas d a b, .waita d a b], TrapsWith i s .align (s.rg a))
    ∧ ((s.rg a).toNat % 4 ≠ 0 → TrapsWith (.afadd d a b) s .align (s.rg a))

/-- R86, R93, R100: an aligned scalar access to the local window without its right (RD for a load, W for a store) raises PLB_DENY with its address, and
neither a register nor memory changes. -/
def AccessWithoutRightTraps : Prop :=
  ∀ (s : State) (d a : GReg) (off : Word) (o : Nat) (r : Byte) (s0 : State),
    let P := clusterOf s.cur
    let ea := fun (n : Nat) => s.rg a + off * word n
    let at_ := fun (n : Nat) => ea n = localVa o ∧ o % n = 0
    o < 2 ^ 22 → rightsM s.me (4032 + s.logicalNo P) s = .ok (r, s0) →
    (r.getLsbD 0 = false →
      (at_ 1 → ∀ i ∈ [Instr.ldB d a off, .lduB d a off], TrapsWith i s .plbDeny (ea 1))
      ∧ (at_ 2 → ∀ i ∈ [Instr.ldH d a off, .lduH d a off], TrapsWith i s .plbDeny (ea 2))
      ∧ (at_ 4 → ∀ i ∈ [Instr.ldW d a off, .lduW d a off], TrapsWith i s .plbDeny (ea 4))
      ∧ (at_ 8 → TrapsWith (.ldD d a off) s .plbDeny (ea 8)))
    ∧ (r.getLsbD 1 = false →
      (at_ 1 → TrapsWith (.stB d a off) s .plbDeny (ea 1)) ∧ (at_ 2 → TrapsWith (.stH d a off) s .plbDeny (ea 2))
      ∧ (at_ 4 → TrapsWith (.stW d a off) s .plbDeny (ea 4)) ∧ (at_ 8 → TrapsWith (.stD d a off) s .plbDeny (ea 8)))

/-- R99, R100: the checks of an access, alignment before rights. -/
def Obligations.AccessChecks : Prop := MisalignedAccessTraps ∧ AccessWithoutRightTraps

/-- R102: LDV writes the sector it reads, with its tag, to vD; STV completes with its sector and tag gone where its address lands. -/
def SectorsMove : Prop :=
  ∀ (s s1 : State) (d : VReg) (a : GReg) (off : Word) (x : VVal),
    let ea := s.rg a + off * 64
    (loadSector ea s = .ok (x, s1) → CompletesV (.ldv d a off) s s1 d x ∧ Accessed s s1)
    ∧ (storeSector ea (s.rv d) s = .ok ((), s1) → Completes (.stv d a off) s s1 ∧ Accessed s s1)

/-- R86, R93, R94, R102: LDV and STV of an aligned sector of the core's own scratchpad complete: with the right RD, vD gets a sector and its tag, those that stand there
where the core reads in its turn; with W and T, and no bound ring in the cluster, the sector and its tag are written, at once in a step that performs its requests
while no atomic of the core is on its way, and no other byte of memory. -/
def SectorsOfTheScratchpad : Prop :=
  ∀ (s : State) (d : VReg) (a : GReg) (off : Word) (o : Nat),
    let loc := sramLoc (clusterOf s.cur) o
    s.rg a + off * 64 = localVa o → o % 64 = 0 →
    (ReachesScratchpad s o 64 0 → Quiet s s.cur → s.mem.poison.contains (loc / 64) = false → ∃ s1 x, CompletesV (.ldv d a off) s s1 d x ∧ Accessed s s1
      ∧ s1.mem = s.mem ∧ (ReadsNow s s.cur → x = ⟨BitVec.ofNat 512 (leNat (s.mem.bytes loc 64)), s.mem.tag loc⟩))
    ∧ (ReachesScratchpad s o 64 1 → ReachesScratchpad s o 64 3 → (s.cluster (clusterOf s.cur)).rings = [] →
      ∃ s1, Completes (.stv d a off) s s1 ∧ Accessed s s1 ∧ (s.eager = true → NonePending s s.cur → s1.mem.bytes loc 64 = leBytes 64 (s.rv d).bits.toNat ∧ s1.mem.tag loc = (s.rv d).tag
        ∧ ∀ x, x < loc ∨ loc + 64 ≤ x → x ≠ tagLoc loc → x ≠ tagLoc loc + 1 → s1.mem.peek x = s.mem.peek x))

/-- R94, R102: sectors and their tags are loaded and stored. -/
def Obligations.SectorAccess : Prop := SectorsMove ∧ SectorsOfTheScratchpad

/-- R107: LDVX expands the next elements of a run into vD, an element for each set bit of the mask in order and zero for the others, takes the run's tag,
and moves the cursor in g(A+1) past them; at the end of the run it gives zeros and leaves the cursor. A run on a notify page raises PLB_DENY (R113). -/
def Obligations.RunIsExpanded : Prop :=
  ∀ (s s1 s2 s3 : State) (d : VReg) (a : GReg) (ps : List Piece) (hb : List Byte) (w mask vals : Nat),
    let cur := s.rg (pairHigh a)
    let e := fld cur 15 0
    let z := fld cur 31 16
    let tag : Half := BitVec.ofNat 16 (fld cur 47 32)
    let n := leNat hb
    let cnt := min (512 / w) (n - e)
    let set := fun (j : Nat) => j < cnt ∧ Nat.testBit mask (e % 8 + j) = true
    let nz := (below cnt).countP (fun j => decide (set j))
    (∀ p s', resolve s.me .load (s.rg a) 2 s = .ok (ps, s') → ps.find? (fun p => match p.place with | .notify _ => true | _ => false) = some p →
      TrapsWith (.ldvx d a) s .plbDeny p.va) ∧
    (codeWidth (tagCode tag) = some w → fld cur 63 48 = 0 →
    resolve s.me .load (s.rg a) 2 s = .ok (ps, s1) → noNotify ps s1 = .ok ((), s1) → noPoison s.me ps s1 = .ok ((), s1) → readPieces s.me ps s1 = .ok (hb, s2) →
    (n ≤ e → CompletesV (.ldvx d a) s s2 d ⟨0, tag⟩)
    ∧ (e < n → readRange s.me .load (s.rg a + word (8 + e / 8)) ((e + cnt - 1) / 8 - e / 8 + 1) s2 = .ok (mask, s3) → nz = 0 →
        ∃ t, exec (.ldvx d a) s = .next t ∧ (t.core s.cur).rv d = ⟨0, tag⟩ ∧ (∀ r, r ≠ d → (t.core s.cur).rv r = s.rv r)
          ∧ t.rg (pairHigh a) = (if pairHigh a = 0 then 0 else cursor (min (e + 512 / w) n) z tag))
    ∧ (e < n → ∀ s4, readRange s.me .load (s.rg a + word (8 + e / 8)) ((e + cnt - 1) / 8 - e / 8 + 1) s2 = .ok (mask, s3) → nz ≠ 0 →
        readRange s.me .load (s.rg a + word (runHead n + z * w / 8)) (ceilDiv ((z + nz) * w) 8 - z * w / 8) s3 = .ok (vals, s4) →
        ∃ t, exec (.ldvx d a) s = .next t ∧ ((t.core s.cur).rv d).tag = tag ∧ (∀ r, r ≠ d → (t.core s.cur).rv r = s.rv r)
          ∧ (∀ j, j < 512 / w → laneOf ((t.core s.cur).rv d).bits w j =
              if j < cnt ∧ Nat.testBit mask (e % 8 + j) = true then
                vals / 2 ^ (z * w % 8 + w * (below j).countP (fun k => decide (set k))) % 2 ^ w
              else 0)
          ∧ t.rg (pairHigh a) = (if pairHigh a = 0 then 0 else cursor (min (e + 512 / w) n) (z + nz) tag)))

/-- R105, R106: STVP whose operation runs through completes: the cursor in g(A+1) has moved on past the elements handled, and no other register has changed;
where capacity runs out it traps PACK_OVERRUN at its own address and keeps what it has stored and the cursor. -/
def RunGoesOn : Prop :=
  ∀ (s s1 : State) (a : GReg) (b : VReg),
    (packRun a b s = .ok (.next, s1) → ∃ t e z tag, exec (.stvp a b) s = .next t ∧ t.mem = s1.mem ∧ t.rg (pairHigh a) = s1.rg (pairHigh a)
      ∧ s1.rg (pairHigh a) = (if pairHigh a = 0 then 0 else cursor e z tag) ∧ fld (s.rg (pairHigh a)) 15 0 ≤ e ∧ fld (s.rg (pairHigh a)) 31 16 ≤ z
      ∧ (∀ r, r ≠ pairHigh a → (t.core s.cur).rg r = s.rg r) ∧ (t.core s.cur).v = (s.core s.cur).v ∧ Sequenced (s.core s.cur) (t.core s.cur))
    ∧ (∀ tr, packRun a b s = .ok (.trapped tr, s1) → tr.cause = .packOverrun ∧ ∃ t, exec (.stvp a b) s = .next t ∧ t.mem = s1.mem
      ∧ t.rg (pairHigh a) = s1.rg (pairHigh a) ∧ (t.core s.cur).pc = (s.core s.cur).pc)

/-- R103 to R106: STVP on a run in the core's own scratchpad, of N elements with room for all that the register holds, completes: it handles r elements from lane E mod L
on, the rest of the register or of the run; the cursor counts them and those of them that are not zero, the run's mask has their bits, the values of those that are not
zero follow the earlier ones, bit by bit from the value array on, the header counts them, every sector that it writes has the tag of R106, and no byte outside the run and no other register
changes. -/
def RunInTheScratchpad : Prop :=
  ∀ (s : State) (a : GReg) (b : VReg) (o w : Nat),
    let P := clusterOf s.cur
    let loc := sramLoc P o
    let cur := s.rg (pairHigh a)
    let x := s.rv b
    let e := fld cur 15 0
    let z := fld cur 31 16
    let tag : Half := if e = 0 then x.tag else BitVec.ofNat 16 (fld cur 47 32)
    let n := s.mem.nat loc 2
    let cap := s.mem.nat (loc + 4) 4
    let r := min (n - e) (512 / w - e % (512 / w))
    let before := fun (j : Nat) => (List.range j).countP (fun k => laneOf x.bits w (e % (512 / w) + k) != 0)
    let nz := before r
    let v := runHead n
    let len := ceilDiv ((z + nz) * w) 8
    let stored := fun (y : Nat) => y = 2 ∨ y = 3 ∨ 8 + e / 8 ≤ y ∧ y ≤ 8 + (e + r - 1) / 8 ∨ 0 < nz ∧ v + z * w / 8 ≤ y ∧ y < v + len
    s.eager = true → Quiet s s.cur → (s.cluster P).rings = [] → pairBase a = true → s.rg a = localVa o → o + cap ≤ 2 ^ 22 →
    (∀ k, k < cap → (∀ right ∈ [0, 1, 3], ReachesScratchpad s (o + k) 1 right) ∧ s.mem.poison.contains ((loc + k) / 64) = false) →
    codeWidth (tagCode tag) = some w → x.tag = tag → fld cur 63 48 = 0 → e < n → v + len ≤ cap →
    ∃ t, exec (.stvp a b) s = .next t ∧ t.rg (pairHigh a) = cursor (e + r) (z + nz) tag ∧ (∀ q, q ≠ pairHigh a → t.rg q = s.rg q)
      ∧ (t.core s.cur).v = (s.core s.cur).v ∧ Sequenced (s.core s.cur) (t.core s.cur)
      ∧ (∀ j, j < r → Nat.testBit (t.mem.peek (loc + 8 + (e + j) / 8)).toNat ((e + j) % 8) = (laneOf x.bits w (e % (512 / w) + j) != 0))
      ∧ (∀ j, j < r → laneOf x.bits w (e % (512 / w) + j) ≠ 0 → t.mem.nat (loc + v) len / 2 ^ (w * (z + before j)) % 2 ^ w = laneOf x.bits w (e % (512 / w) + j))
      ∧ t.mem.nat (loc + v) len % 2 ^ (w * z) = s.mem.nat (loc + v) len % 2 ^ (w * z) ∧ t.mem.nat (loc + 2) 2 = (z + nz) % 2 ^ 16
      ∧ (∀ y, stored y → t.mem.tag ((loc + y) / 64 * 64) = if (loc + y) / 64 * 64 < loc + v then 0x5000 else 0x5100)
      ∧ ∀ y, y < tagBase → y < loc ∨ loc + cap ≤ y → t.mem.peek y = s.mem.peek y

/-- R103 to R106: STVP appends the elements of a register to a run. -/
def Obligations.RunIsAppended : Prop := RunGoesOn ∧ RunInTheScratchpad

/-! ## Ordering, futures and atomics -/

/-- R126, R141: LDA reads and STL stores an 8-byte word of an ordered page, and WAITA completes when the word equals gB and otherwise parks on its sector;
an unordered page raises PLB_DENY. -/
def Obligations.AcquireAndRelease : Prop :=
  ∀ (s s0 s1 : State) (d a b : GReg) (off : Word) (ps : List Piece) (bs : List Byte),
    let ea := s.rg a + off * 8
    let ordered := ps.all (fun p => p.kind != 2 || p.repl) = true
    (ea.toNat % 8 = 0 → resolve s.me .load ea 8 s = .ok (ps, s0) → ordered → noPoison s.me ps s0 = .ok ((), s0) →
      readPieces s.me ps (acquire (beforeAcquire s0 s.cur ps) s.cur) = .ok (bs, s1) →
      CompletesG (.lda d a off) s (crossLinks s1 ps) d (word (leNat bs)) ∧ Accessed s (crossLinks s1 ps))
    ∧ (ea.toNat % 8 = 0 → resolve s.me .load ea 8 s = .ok (ps, s0) → ¬ ordered → TrapsWith (.lda d a off) s .plbDeny ea)
    ∧ (ea.toNat % 8 = 0 → resolve s.me .store ea 8 s = .ok (ps, s0) → ordered → ringsFree ps s0 = .ok ((), s0) → noDead ps s0 = .ok ((), s0) →
      writePieces s.me none true ps (leBytes 8 (s.rg d).toNat) s0 = .ok ((), s1) → Completes (.stl d a off) s s1 ∧ Accessed s s1)
    ∧ (ea.toNat % 8 = 0 → resolve s.me .store ea 8 s = .ok (ps, s0) → ¬ ordered → TrapsWith (.stl d a off) s .plbDeny ea)
    ∧ ((s.rg a).toNat % 8 = 0 → inLocalWin (s.rg a) = true → resolve s.me .load (s.rg a) 8 s = .ok (ps, s0) → noPoison s.me ps s0 = .ok ((), s0) →
      readPieces s.me ps (acquire (beforeAcquire s0 s.cur ps) s.cur) = .ok (bs, s1) →
      (word (leNat bs) = s.rg b → CompletesG (.waita d a b) s s1 d (s.rg b))
      ∧ (word (leNat bs) ≠ s.rg b → ∃ t, exec (.waita d a b) s = .next t ∧ OnlyCore s1 t s.cur
          ∧ t.core s.cur = { s1.core s.cur with wait := .sector (sramLoc (clusterOf s.cur) ((s.rg a).toNat - localWin)) }))

/-- R108, R109: LDF takes an answer that waits in the pop buffer; else it reads a full word, is deferred at the home slice while one of its 64 entries is
free, and is turned back while none is; STF completes as a release store of the word. -/
def Obligations.Futures : Prop :=
  ∀ (s s1 : State) (d a : GReg) (off v : Word) (p : Piece) (loc : Nat),
    let ea := s.rg a + off * 8
    let c := s.core s.cur
    (c.pop = some (.val v) → CompletesG (.ldf d a off) s (acquire s s.cur) d v)
    ∧ (c.pop = none → futurePlace ea .load s = .ok ((p, loc), s1) → noPoison s.me [p] s1 = .ok ((), s1) → Quiet s s.cur → p.kind ≠ 2 →
      (word (s.mem.nat loc 8) ≠ emptyWord → ∃ s2, CompletesG (.ldf d a off) s s2 d (word (s.mem.nat loc 8)) ∧ s2.mem = s.mem ∧ Accessed s s2)
      ∧ (word (s.mem.nat loc 8) = emptyWord → ∃ t, exec (.ldf d a off) s = .next t ∧ t.mem = s.mem ∧ (t.core s.cur).g = c.g
          ∧ (t.core s.cur).pc = c.pc
          ∧ (if s1.defers.countP (fun x => x.slice == homeSlice ea) < 64 then
               t.defers = s1.defers ++ [⟨homeSlice ea, loc, some s.cur⟩] ∧ (t.core s.cur).wait = .future loc
             else t.defers = s1.defers ∧ (t.core s.cur).wait = .futureRetry loc s.now)))
    ∧ (futurePlace ea .store s = .ok ((p, loc), s1) → Quiet s s.cur → p.kind ≠ 2 → s.eager = true → LinksUp s → s.seqOrder = [] →
      ∃ s2, Completes (.stf d a off) s s2 ∧ s2.mem.nat loc 8 = (s.rg d).toNat
        ∧ ∀ x, x < loc ∨ loc + 8 ≤ x → s2.mem.peek x = s.mem.peek x)

/-- R134, R137: the new value that each atomic writes to its word, from the old one and gB; ACAS writes gB where the word equals gD and nothing
otherwise. -/
def newValue (op : AtomOp) (old b d : Word) : Option Word :=
  match op with
  | .add => some (old + b) | .and => some (old &&& b) | .or => some (old ||| b) | .xor => some (old ^^^ b)
  | .min => some (if b.slt old then b else old) | .max => some (if old.slt b then b else old)
  | .minu => some (if b < old then b else old) | .maxu => some (if old < b then b else old)
  | .swp => some b
  | .fadd => some (word (rneF32 ((f32 (old.toNat % 2 ^ 32)).add (f32 (b.toNat % 2 ^ 32)))))
  | .cas => if old = d then some b else none

/-- The instruction of an atomic operation. -/
def atomicInstr (op : AtomOp) (d a b : GReg) : Instr :=
  match op with
  | .add => .aadd d a b | .and => .aand d a b | .or => .aor d a b | .xor => .axor d a b | .min => .amin d a b | .max => .amax d a b
  | .minu => .aminu d a b | .maxu => .amaxu d a b | .swp => .aswp d a b | .fadd => .afadd d a b | .cas => .acas d a b

/-- R134 to R137: an atomic on an ordered, unreplicated page, with nothing of the core on its way and the links up, in a step that performs its requests: the word holds
the new value, gD the old one, and no other byte and no other register changes; all eleven. A step that leaves its requests on their way sends it, and the
instruction waits for the reply, or retires at once where D = 0. -/
def Obligations.Atomics : Prop :=
  ∀ (s s1 : State) (op : AtomOp) (d a b : GReg) (p : Piece) (loc : Nat),
    let ea := s.rg a
    let n := atomSize op
    let old := word (s.mem.nat loc n)
    ea.toNat % n = 0 → resolve s.me .atomic ea n s = .ok ([p], s1) → p.place = .mem loc → p.kind ≠ 2 → p.repl = false →
    ringsFree [p] s1 = .ok ((), s1) → locPoisoned s loc = false → Quiet s s.cur → LinksUp s →
    s.holdsRecord (.net (clusterOf s.cur)) = false →
    (op = .fadd → (s.core s.cur).ctx.det = 0 ∧ (p.typed = true → tagCode (s.mem.tag loc) = 0 ∨ s.mem.tag loc = 0x1000)) →
    (s.eager = true → ∃ s2, CompletesG (atomicInstr op d a b) s s2 d old ∧ Accessed s s2
      ∧ (∀ v, newValue op old (s.rg b) (s.rg d) = some v → s2.mem.nat loc n = v.toNat % 256 ^ n)
      ∧ (newValue op old (s.rg b) (s.rg d) = none → ∀ x, s2.mem.peek x = s.mem.peek x)
      ∧ ∀ x, x < loc ∨ loc + n ≤ x → s2.mem.peek x = s.mem.peek x)
    ∧ (s.eager = false → ∃ t r, exec (atomicInstr op d a b) s = .next t ∧ t.mem = s.mem ∧ t.reqs = s.reqs ++ [r] ∧ r.kind = .atomic op
      ∧ r.loc = loc ∧ r.core = some s.cur ∧ r.d = d ∧ r.a = s.rg d ∧ r.b = s.rg b ∧ r.done = none ∧ (t.core s.cur).g = (s.core s.cur).g
      ∧ (if d = 0 then Sequenced (s.core s.cur) (t.core s.cur) else (t.core s.cur).wait = .request ∧ (t.core s.cur).pc = (s.core s.cur).pc))

/-- R26, R135, R138, R330: a request on its way is performed at its home once, its reply lets the instruction retire with the old value in gD, and a request whose
path has failed completes with POISON after 2^20 cycles, an access that waits for its path among them. When a request is performed is left to the steps (log entry 6). -/
def Obligations.RequestsOnTheirWay : Prop :=
  ∀ (s : State) (k u : Nat) (r : Req) (op : AtomOp) (v : Word),
    (s.reqs[k]? = some r → r.done = none → r.kind = .atomic op → r.repl = false → locPoisoned s r.loc = false → r.d ≠ 0 → r.core = some u →
      reqPathDown s r = false → (s.reqs.take k).any (fun x => x.done.isNone && performsFirst x r) = false →
      let old := word (s.mem.nat r.loc (atomSize op))
      ∃ t, exec (.atomicPerform k) s = .next t ∧ t.reqs = s.reqs.set k { r with done := some (.val old) }
        ∧ (∀ x, newValue op old r.b r.a = some x → t.mem.nat r.loc (atomSize op) = x.toNat % 256 ^ (atomSize op))
        ∧ (∀ x, x < r.loc ∨ r.loc + (atomSize op) ≤ x → t.mem.peek x = s.mem.peek x)
        ∧ ∀ w, (t.core w).g = (s.core w).g ∧ (t.core w).pc = (s.core w).pc)
    ∧ ((s.core u).wait = .request → (s.core u).pop = none → s.holdsRecord (.net (clusterOf u)) = false →
      replyFor s u = some (k, r, .val v) →
      ∃ t, exec (.requestReply u) s = .next t ∧ t.reqs = s.reqs.eraseIdx k ∧ t.mem = s.mem ∧ Sequenced (s.core u) (t.core u)
        ∧ (t.core u).wait = .none ∧ (∀ q, (t.core u).rg q = if q = r.d ∧ r.d ≠ 0 then v else (s.core u).rg q)
        ∧ ∀ w, w ≠ u → t.core w = s.core w)
    ∧ (s.reqs[k]? = some r → r.since + 2 ^ 20 ≤ s.now → reqPathDown s r = true → r.d ≠ 0 → r.core = some u → r.done = none →
      ∃ t, exec (.requestTimeout k) s = .next t ∧ (t.reqs[k]?).bind (fun x => x.done) = some (.fail .poison 0 r.va 0 0 0)
        ∧ ∀ w, (t.core w).g = (s.core w).g ∧ (t.core w).pc = (s.core w).pc)
    ∧ (s.reqs[k]? = some r → s.now < r.since + 2 ^ 20 ∨ reqPathDown s r = false → exec (.requestTimeout k) s = .next s)
    ∧ (∀ va x y since, s.reqs.length ≤ k → u = k - s.reqs.length → u < 2048 → (s.core u).wait = .path va x y since →
      (pathDown s x y = false → ∃ t, exec (.requestTimeout k) s = .next t ∧ OnlyCore s t u ∧ t.core u = { s.core u with wait := .none })
      ∧ (pathDown s x y = true → since + 2 ^ 20 ≤ s.now → (s.core u).fetchWait = false → mfind (s.cluster (clusterOf u)).mailbox (inCluster u) = none →
          ∃ t z, exec (.requestTimeout k) s = .next t ∧ (t.core u).status = .trapped z ∧ PreciseRecord s u z .poison va ∧ (t.core u).g = (s.core u).g
            ∧ (t.core u).pc = (s.core u).pc ∧ t.mem = s.mem))

/-- R101, R109, R121, R131, R141: a store that waits is performed when it leaves its buffer; a die applies the next update of the sequencer's order to its own
copy; a write to its sector wakes a parked WAITA; a turned-back LDF is issued again after 256 cycles and not before; a cancel notice frees the entry. -/
def MemorySystemSteps : Prop :=
  ∀ (s : State) (u k d : Nat) (e : SbEntry) (x : SeqUpdate) (f : Deferral) (loc since : Nat),
    (canDrain s u k = true → (s.core u).storeBuf[k]? = some e → e.uo = false → e.repl = false → e.release = false → LinksUp s →
      ∃ t, exec (.storeBufferDrain u k) s = .next t ∧ t.mem = s.mem.pokes e.writes ∧ (t.core u).storeBuf = (s.core u).storeBuf.eraseIdx k
        ∧ (t.core u).g = (s.core u).g ∧ (t.core u).pc = (s.core u).pc)
    ∧ (s.seqOrder.find? (fun y => !y.applied.contains d) = some x → pathDown s d 4 = false →
      ∃ t, exec (.replicaUpdateApply d) s = .next t ∧ t.mem = s.mem.pokes (x.writes.map (fun w => (replicaLoc d w.1, w.2))))
    ∧ ((s.core u).wait = .sector loc → ∃ t, exec (.waitaWake u) s = .next t ∧ OnlyCore s t u ∧ t.core u = { s.core u with wait := .none })
    ∧ ((s.core u).wait = .futureRetry loc since → since + 256 ≤ s.now →
      ∃ t, exec (.ldfReissue u) s = .next t ∧ OnlyCore s t u ∧ t.core u = { s.core u with wait := .none })
    ∧ ((s.core u).wait = .futureRetry loc since → s.now < since + 256 → exec (.ldfReissue u) s = .next s)
    ∧ ((s.defers.filter (fun y => y.slice == d))[k]? = some f → f.core = none →
      ∃ t, exec (.ldfCancelNotice d k) s = .next t ∧ t = { s with defers := s.defers.erase f })

/-- R56, R124: FENCE performs every store that waits in the core's buffer, writes back its unfenced UO bytes beyond core scope, makes a core in scope answer, at its
next taken transfer, for every store that this core had performed before the FENCE, so that it fetches it, and completes in sequence with no register written; with plain stores in the buffer and nothing
else of the core on its way, memory is as those stores leave it. -/
def FenceCompletes : Prop :=
  ∀ (s : State) (scope : BitVec 3),
    ∃ t, exec (.fence scope) s = .next t ∧ Sequenced (s.core s.cur) (t.core s.cur) ∧ (t.core s.cur).g = (s.core s.cur).g
      ∧ (t.core s.cur).v = (s.core s.cur).v ∧ (t.core s.cur).storeBuf = []
      ∧ (scope ≠ 0 → (t.core s.cur).uoDirty = [])
      ∧ (∀ w a, inScope s.cur scope.toNat w = true → t.past.length ≤ mget ((transferCore t w a).core w).icFrom s.cur 0)
      ∧ ((∀ e ∈ (s.core s.cur).storeBuf, e.uo = false ∧ e.repl = false ∧ e.sent = none) → (s.core s.cur).uoDirty = [] → s.reqs = [] → s.seqOrder = [] → LinksUp s →
          (∀ P, (s.cluster P).uoCache = [] ∧ (s.cluster P).uoFenced = []) → t.mem = s.mem.pokes ((s.core s.cur).storeBuf.flatMap (fun e => e.writes)))

/-- R124, R131: the steps of the memory system, and FENCE. -/
def Obligations.MemorySystemStepsAndFence : Prop := MemorySystemSteps ∧ FenceCompletes


/-! ## Number formats, conversions and vectors -/

/-- R148 to R150, R152, R153: the one rounding is to nearest with ties to even, and narrowing the value of a code of any of the seven floating formats gives
that code again, signed zeros, subnormals and infinities included. -/
def Obligations.RoundingToNearestEven : Prop :=
  (∀ n k : Nat, 2 * ((n : Int) - shiftRne n k * 2 ^ k).natAbs ≤ 2 ^ k
      ∧ (2 * ((n : Int) - shiftRne n k * 2 ^ k).natAbs = 2 ^ k → shiftRne n k % 2 = 0))
    ∧ ∀ f ∈ [fmtF32, fmtB16, fmtH16, fmtN8, fmtN8S, fmtN8W, fmtN4], ∀ code, code < 2 ^ f.width → f.value code ≠ .nan →
        f.narrow false (f.value code) = code

/-- A vector instruction of the core whose turn it is traps with a cause, no address, the lowest of the faulting lanes and the mask of all of them (R158,
R173), and nothing changes but what taking the trap changes. -/
def TrapsInLanes (i : Instr) (s : State) (cause : Cause) (bad : Nat → Bool) : Prop :=
  TrapsWith i s cause 0 ∧ ∃ t r, exec i s = .next t ∧ ((t.core s.cur).status = .trapped r ∨ (t.core s.cur).status = .stall r)
    ∧ bad r.lane.toNat = true ∧ (∀ j, j < r.lane.toNat → bad j = false)
    ∧ ∀ j, j < 64 → r.data.getLsbD j = (decide (j < 16) && bad j)

/-- The seven narrowings to a floating format (R157): instruction, format, code, and whether a value beyond the largest finite one saturates. -/
def floatNarrowings : List ((VReg → VReg → BitVec 4 → Instr) × Fmt × Nat × Bool) :=
  [(.vnb16, fmtB16, 0x11, false), (.vnh16S, fmtH16, 0x12, true), (.vnh16X, fmtH16, 0x12, false), (.vn8S, fmtN8, 0x20, true),
   (.vn8X, fmtN8S, 0x21, false), (.vn8wS, fmtN8W, 0x22, true), (.vn4S, fmtN4, 0x30, true)]

/-- R157, R158: a narrowing writes the 16 lanes of vA, rescaled to vD's scale and narrowed, to elements 16·part on, keeps vD's other elements and its scale,
and takes the target's code; it raises FORMAT_FAULT on a source that is not F32 or a refused destination tag, and FP_INVALID with the lanes that are NaN
where the target has none. That a destination tag with the code 0x50 or 0x51 at scale 0 is none of the refused is the model's choice (log entry 69). -/
def Obligations.Narrowings : Prop :=
  ∀ (s : State) (d a : VReg) (part : BitVec 4),
    let x := s.rv a
    let y := s.rv d
    let v := fun (j : Nat) => (f32 (laneOf x.bits 32 j)).scale (tagScale x.tag - tagScale y.tag)
    let nan := fun (j : Nat) => v j == .nan
    let formats := tagCode x.tag = 0x10 ∧ tagRefused y.tag = false
    (∀ n ∈ floatNarrowings,
      (formats → (n.2.1.spec = .finite → ∀ j, j < 16 → nan j = false) → ∃ z, WritesV (n.1 d a part) s d z
        ∧ z.tag = mkTag n.2.2.1 (tagScale y.tag)
        ∧ ∀ k, k < 512 / n.2.1.width → laneOf z.bits n.2.1.width k =
            if k / 16 = part.toNat then n.2.1.narrow n.2.2.2 (v (k % 16)) else laneOf y.bits n.2.1.width k)
      ∧ (¬ formats → TrapsWith (n.1 d a part) s .formatFault 0)
      ∧ (formats → n.2.1.spec = .finite → (∃ j, j < 16 ∧ nan j = true) → TrapsInLanes (n.1 d a part) s .fpInvalid nan))
    ∧ (formats → (∀ j, j < 16 → nan j = false) → ∃ z, WritesV (.vni8S d a part) s d z ∧ z.tag = mkTag 0x40 (tagScale y.tag)
        ∧ ∀ k, k < 64 → laneOf z.bits 8 k =
            if k / 16 = part.toNat then (BitVec.ofInt 8 (satInt (-128) 127 (v (k % 16)))).toNat else laneOf y.bits 8 k)
    ∧ (¬ formats → TrapsWith (.vni8S d a part) s .formatFault 0)
    ∧ (formats → (∃ j, j < 16 ∧ nan j = true) → TrapsInLanes (.vni8S d a part) s .fpInvalid nan)

/-- R156, R159: VWID widens 16 elements of a numeric format to F32, VFI32 rounds F32 lanes to signed integers with saturation, VIF32 converts signed integers;
each writes its tag, and traps on a format it does not take, VFI32 also on NaN lanes. -/
def Obligations.WideningAndIntegers : Prop :=
  ∀ (s : State) (d a : VReg) (part : BitVec 4) (w : Nat),
    let x := s.rv a
    let c := tagCode x.tag
    let nan := fun (j : Nat) => laneF32 x j == .nan
    (codeWidth c = some w → c ≠ 0 → 16 * part.toNat < 512 / w → ∃ z, WritesV (.vwid d a part) s d z ∧ z.tag = 0x1000
      ∧ ∀ j, j < 16 → laneOf z.bits 32 j = clampF32 ((elemValue c (laneOf x.bits w (16 * part.toNat + j))).scale (tagScale x.tag)))
    ∧ ((codeWidth c = none ∨ c = 0 ∨ codeWidth c = some w ∧ 512 / w ≤ 16 * part.toNat) → TrapsWith (.vwid d a part) s .formatFault 0)
    ∧ (c = 0x10 → (∀ j, j < 16 → nan j = false) → ∃ z, WritesV (.vfi32 d a) s d z ∧ z.tag = 0
      ∧ ∀ j, j < 16 → laneOf z.bits 32 j = (BitVec.ofInt 32 (satInt (-2 ^ 31) (2 ^ 31 - 1) (laneF32 x j))).toNat)
    ∧ (c = 0x10 → (∃ j, j < 16 ∧ nan j = true) → TrapsInLanes (.vfi32 d a) s .fpInvalid nan)
    ∧ (c ≠ 0x10 → TrapsWith (.vfi32 d a) s .formatFault 0)
    ∧ (c = 0 → ∃ z, WritesV (.vif32 d a) s d z ∧ z.tag = 0x1000
      ∧ ∀ j, j < 16 → laneOf z.bits 32 j =
          clampF32 ((numOfInt (BitVec.ofNat 32 (laneOf x.bits 32 j)).toInt).scale (tagScale x.tag)))
    ∧ (c ≠ 0 → TrapsWith (.vif32 d a) s .formatFault 0)

/-- R146, R160, R161, R163: VSCL, VTAG and VGTAG act on tags alone, VPACKZ moves the masked nonzero elements to the front and VEXPZ the front ones to the
masked places; expanding a packed register under the mask of its nonzero elements gives it back; and each but VGTAG refuses the tags that R160 and R161
name. -/
def Obligations.TagsAndPacking : Prop :=
  ∀ (s : State) (d a : VReg) (g b : GReg) (w : Nat),
    let x := s.rv a
    let m := s.rg b
    let c := tagCode x.tag
    let sum := tagScale x.tag + m.toInt
    let packs := codeWidth c = some w ∧ w ≠ 4
    let kept := ((below (512 / w)).filter (fun j => m.getLsbD j && laneOf x.bits w j != 0)).map (laneOf x.bits w)
    ((codeWidth c ≠ none ∧ -128 ≤ sum ∧ sum ≤ 127 → WritesV (.vscl d a b) s d ⟨x.bits, mkTag c sum⟩)
      ∧ (codeWidth c = none ∨ sum < -128 ∨ 127 < sum → TrapsWith (.vscl d a b) s .formatFault 0))
    ∧ (m.toNat < 65536 ∧ tagRefused (m.setWidth 16) = false → WritesV (.vtag d a b) s d ⟨x.bits, m.setWidth 16⟩)
    ∧ (65536 ≤ m.toNat ∨ tagRefused (m.setWidth 16) = true → TrapsWith (.vtag d a b) s .formatFault 0)
    ∧ WritesG (.vgtag g a) s g (x.tag.setWidth 64)
    ∧ (packs → (∃ z, WritesV (.vpackz d a b) s d z ∧ z.tag = x.tag ∧ ∀ k, k < 512 / w → laneOf z.bits w k = kept.getD k 0)
      ∧ ∃ z, WritesV (.vexpz d a b) s d z ∧ z.tag = x.tag ∧ ∀ j, j < 512 / w → laneOf z.bits w j =
          if m.getLsbD j = true then laneOf x.bits w ((List.range j).countP (fun i => m.getLsbD i)) else 0)
    ∧ (codeWidth c = none ∨ codeWidth c = some 4 →
        TrapsWith (.vpackz d a b) s .formatFault 0 ∧ TrapsWith (.vexpz d a b) s .formatFault 0)
    ∧ (packs → ∀ y z nz, packNonzero x y = .ok z → findDiff x ⟨0, 0⟩ = .ok nz → y = nz → expandMask z nz = .ok x)

/-- R170 to R173, R175: the F32 lanes: sum, difference, product, fused product and sum rounded once, minimum, maximum, relation code, and the four-level tree of
VFRED; each requires code 0x10 of every source it reads, ignores no scale, and writes tag 0x1000, or 0 for VFCMP; VFMAT writes as VFMA, or traps with the
lowest faulting lane, its cause and the mask. -/
def Obligations.FloatLanes : Prop :=
  ∀ (s : State) (d a b : VReg),
    let x := laneF32 (s.rv a)
    let y := laneF32 (s.rv b)
    let c := laneF32 (s.rv d)
    let f := fun (r : VReg) => tagCode (s.rv r).tag = 0x10
    let writes := fun (i : Instr) (tag : Half) (g : Nat → Nat) =>
      ∃ z, WritesV i s d z ∧ z.tag = tag ∧ ∀ j, j < 16 → laneOf z.bits 32 j = g j
    let fma := fun (j : Nat) => (c j).add ((x j).mul (y j))
    let least := fun (p q : Machine.Num) => if p = .nan then q else if q = .nan then p else if q.below p then q else p
    let most := fun (p q : Machine.Num) => if p = .nan then q else if q = .nan then p else if p.below q then q else p
    let invalid := fun (j : Nat) => fma j == .nan
    let overflow := fun (j : Nat) => (c j).isFinite && (x j).isFinite && (y j).isFinite && !(f32 (rneF32 (fma j))).isFinite
    let bad := fun (j : Nat) => invalid j || overflow j
    let node := fun (u v : Machine.Num) => f32 (rneF32 (u.add v))
    let pair := fun (j : Nat) => node (x (2 * j)) (x (2 * j + 1))
    let quad := fun (j : Nat) => node (pair (2 * j)) (pair (2 * j + 1))
    (f a → f b → writes (.vfadd d a b) 0x1000 (fun j => rneF32 ((x j).add (y j)))
      ∧ writes (.vfsub d a b) 0x1000 (fun j => rneF32 ((x j).add (y j).neg))
      ∧ writes (.vfmul d a b) 0x1000 (fun j => rneF32 ((x j).mul (y j)))
      ∧ writes (.vfmin d a b) 0x1000 (fun j => rneF32 (least (x j) (y j)))
      ∧ writes (.vfmax d a b) 0x1000 (fun j => rneF32 (most (x j) (y j)))
      ∧ writes (.vfcmp d a b) 0 (fun j => if x j = .nan ∨ y j = .nan then 8 else if (x j).cmp (y j) < 0 then 1
          else if (x j).cmp (y j) = 0 then 2 else 4))
    ∧ (f d → f a → f b → writes (.vfma d a b) 0x1000 (fun j => rneF32 (fma j))
      ∧ ((∀ j, j < 16 → bad j = false) → writes (.vfmat d a b) 0x1000 (fun j => rneF32 (fma j)))
      ∧ ∀ j, j < 16 → bad j = true → (∀ k, k < j → bad k = false) →
          TrapsInLanes (.vfmat d a b) s (if invalid j = true then .fpInvalid else .fpOverflow) bad)
    ∧ (f a → writes (.vfred d a) 0x1000 (fun j => if j = 0 then
        rneF32 ((node (quad 0) (quad 1)).add (node (quad 2) (quad 3))) else 0))
    ∧ (¬ f a → TrapsWith (.vfred d a) s .formatFault 0)
    ∧ (¬ (f a ∧ f b) → ∀ i ∈ [Instr.vfadd d a b, .vfsub d a b, .vfmul d a b, .vfmin d a b, .vfmax d a b, .vfcmp d a b],
        TrapsWith i s .formatFault 0)
    ∧ (¬ (f d ∧ f a ∧ f b) → ∀ i ∈ [Instr.vfma d a b, .vfmat d a b], TrapsWith i s .formatFault 0)

/-- R176 to R179, R184 to R186: integer lanes modulo their width, shifts under the control byte, bits, byte classes, differing elements, permutation,
broadcast and extraction; and the traps of the integer lanes and of VFIND on other tags. -/
def Obligations.IntegerLanesAndBytes : Prop :=
  ∀ (s : State) (d a b : VReg) (g h : GReg) (w : Nat) (l : BitVec 4),
    let x := s.rv a
    let y := s.rv b
    let e := laneOf x.bits w
    let o := laneOf y.bits w
    let k := fun (j : Nat) => o j % 32
    let code := tagCode x.tag
    let writes := fun (i : Instr) (u : Nat) (tag : Half) (f : Nat → Nat) =>
      ∃ z, WritesV i s d z ∧ z.tag = tag ∧ ∀ j, j < 512 / u → laneOf z.bits u j = f j
    (code = 0 ∧ w = 32 ∨ code = 0x40 ∧ w = 8 →
      writes (.vadd d a b) w x.tag (fun j => (e j + o j) % 2 ^ w) ∧ writes (.vmul d a b) w x.tag (fun j => e j * o j % 2 ^ w)
      ∧ writes (.vminu d a b) w x.tag (fun j => if e j ≤ o j then e j else o j)
      ∧ writes (.vmaxu d a b) w x.tag (fun j => if e j ≤ o j then o j else e j)
      ∧ writes (.vsh d a b) w x.tag (fun j =>
          let v := BitVec.ofNat w (e j)
          match o j / 32 % 4 with
          | 0 => (v <<< k j).toNat | 1 => (v >>> k j).toNat | 2 => (v.sshiftRight (k j)).toNat | _ => (v.rotateLeft (k j)).toNat))
    ∧ (code ≠ 0 ∧ code ≠ 0x40 → ∀ i ∈ [Instr.vadd d a b, .vmul d a b, .vminu d a b, .vmaxu d a b, .vsh d a b],
        TrapsWith i s .formatFault 0)
    ∧ WritesV (.vand d a b) s d ⟨x.bits &&& y.bits, x.tag⟩ ∧ WritesV (.vor d a b) s d ⟨x.bits ||| y.bits, x.tag⟩
    ∧ WritesV (.vxor d a b) s d ⟨x.bits ^^^ y.bits, x.tag⟩
    ∧ writes (.vcmpb d a b) 8 0 (fun j => if y.bits.getLsbD (laneOf x.bits 8 j) then 0xFF else 0)
    ∧ writes (.vperm d a b) 8 x.tag (fun j =>
        if 128 ≤ laneOf y.bits 8 j then 0 else laneOf x.bits 8 (laneOf y.bits 8 j % 64))
    ∧ (codeWidth code = some w → w ≠ 4 → ∃ m, WritesG (.vfind g a b) s g m
        ∧ ∀ j, j < 64 → m.getLsbD j = decide (j < 512 / w ∧ e j ≠ o j))
    ∧ (codeWidth code = none ∨ codeWidth code = some 4 → TrapsWith (.vfind g a b) s .formatFault 0)
    ∧ WritesG (.vext g a l) s g (((x.bits >>> (32 * l.toNat)).setWidth 32).setWidth 64)
    ∧ (∀ p ∈ [((0 : BitVec 4), 8, (0 : Half)), (1, 8, 0x4000), (2, 16, 0), (3, 16, 0x1100), (4, 32, 0), (5, 32, 0x1000), (6, 64, 0)],
        writes (.vbcast d h p.1) p.2.1 p.2.2 (fun _ => (s.rg h).toNat % 2 ^ p.2.1))

/-- R180 to R182: VHASH chains KH over the eight doublewords of vA; VNFA shifts each of eight states left by one, brings in its start bit and keeps the bits
that the table's mask for its byte keeps; its whole table is checked first, with ALIGN and PLB_DENY. -/
def Obligations.HashingAndAutomata : Prop :=
  ∀ (s : State) (g b : GReg) (d a : VReg) (off : Nat),
    let mix := fun (x : Word) =>
      let p := (x ^^^ 0x3C5A9E71D2F0486B) * 0x8F3A61C52B97D40B
      let q := (p ^^^ (p >>> 31)) * 0x5C1E93A70D46B2E9
      q ^^^ (q >>> 29)
    let dw := fun (r : VReg) (k : Nat) => ((s.rv r).bits >>> (64 * k)).setWidth 64
    let t := s.rg b
    WritesG (.vhash g a) s g
        (mix (mix (mix (mix (mix (mix (mix (mix (dw a 0) ^^^ dw a 1) ^^^ dw a 2) ^^^ dw a 3) ^^^ dw a 4) ^^^ dw a 5) ^^^ dw a 6) ^^^ dw a 7))
    ∧ (t = localVa off → off % 64 = 0 → off + 16384 ≤ 2 ^ 22 → Quiet s s.cur → ReadsNow s s.cur →
        (∀ n, n < 16384 → ReachesScratchpad s (off + n) 1 0 ∧ s.mem.poison.contains (sramLoc (clusterOf s.cur) (off + n) / 64) = false) →
        ∃ s1 z, CompletesV (.vnfa d a b) s s1 d z ∧ Accessed s s1 ∧ s1.mem = s.mem ∧ z.tag = 0
          ∧ ∀ k, k < 8 → (z.bits >>> (64 * k)).setWidth 64 =
              ((dw d k <<< 1) ||| (dw a k >>> 8 &&& 1))
                &&& word (s.mem.nat (sramLoc (clusterOf s.cur) (off + 64 * ((dw a k).toNat % 256) + 8 * k)) 8))
    ∧ (t.toNat % 64 ≠ 0 → TrapsWith (.vnfa d a b) s .align t)
    ∧ (t.toNat % 64 = 0 → inLocalWin t = false → TrapsWith (.vnfa d a b) s .plbDeny t)


/-! ## Rings and semaphores -/

/-- R191, R193, R194, R196: RBIND unbinds gA = gB = 0, binds the drain ring for use 2, and otherwise binds a valid descriptor in the local window, through the
ring table: one more reference to an entry it already holds unbroken, else a new entry with the descriptor's first doubleword. It raises RING_FAULT on a use
above 2, on an address beside use 2, on an invalid descriptor and on a full table, and ALIGN on an address that is no multiple of 16. -/
def Obligations.RingBinding : Prop :=
  ∀ (s s0 s1 : State) (d : HReg) (a b : GReg) (off id : Nat) (ps : List Piece),
    let P := clusterOf s.cur
    let va := s.rg a
    let use := s.rg b
    let old := (s.core s.cur).rh d
    let table := (s.cluster P).rings
    let held := ∃ r ∈ table, r.addr = off ∧ r.broken = false
    (va = 0 → use = 0 → Completes (.rbind d a b) s ((releaseHandle s P old).modCore s.cur (fun c => c.wh d .unbound)))
    ∧ (va = 0 → use = 2 → Completes (.rbind d a b) s ((releaseHandle s P old).modCore s.cur (fun c => c.wh d .drain)))
    ∧ (2 < use.toNat ∨ use = 2 ∧ va ≠ 0 → TrapsWith (.rbind d a b) s .ringFault 0)
    ∧ (use.toNat < 2 → va.toNat % 16 ≠ 0 → TrapsWith (.rbind d a b) s .align va)
    ∧ (use.toNat < 2 → va = localVa off → off % 16 = 0 → off < 2 ^ 22 → old = .unbound → resolve s.me .load va 16 s = .ok (ps, s0) →
        noPoison s.me ps s0 = .ok ((), s0) → Quiet s0 s.cur →
        (bindRing s0 P off = some (id, s1) →
          Completes (.rbind d a b) s (s1.modCore s.cur (fun c => c.wh d (.ring id off use.toNat))) ∧ s1.mem = s0.mem)
        ∧ (bindRing s0 P off = none → TrapsWith (.rbind d a b) s .ringFault 0))
    ∧ (bindRing s P off = none ↔ ¬ held ∧ (ringValid s P off = false ∨ 64 ≤ table.length))
    ∧ ((table.map (fun r => r.id)).Nodup → (∀ r ∈ table, r.id < (s.cluster P).ringNext) → bindRing s P off = some (id, s1) →
        s1 = s.setCluster P { s.cluster P with rings := (s1.cluster P).rings, ringNext := (s1.cluster P).ringNext }
        ∧ (∀ j, j ≠ id → ringEntry s1 P j = ringEntry s P j)
        ∧ (held → ∃ r, ringEntry s P id = some r ∧ r.addr = off ∧ r.broken = false ∧ ringEntry s1 P id = some { r with count := r.count + 1 })
        ∧ (¬ held → ringEntry s1 P id = some ⟨id, off, word (s.mem.nat (sramLoc P off) 8), 1, false⟩))

/-- R189, R190, R196 to R199, R229: through a handle bound to an unbroken ring: RSLOT gives the address of a slot counted from HEAD or TAIL, RWAIT and RWAITF
give the fill and the free slots at once or park, RADVH and RADVT advance HEAD and TAIL by gB and change no other byte; each raises RING_FAULT past the ring's
bounds, and on a handle that is unbound or broken; a wake lets a parked wait test again. That a ring is free up to the first slot that a command holds is the model's
reading of R229 (log entry 81). -/
def Obligations.RingCounters : Prop :=
  ∀ (s : State) (g b : GReg) (h : HReg) (r : RingEntry) (addr use u : Nat),
    let P := clusterOf s.cur
    let n := (s.rg b).toNat
    let x := s.rg b
    let slots := 2 ^ fld r.dw0 30 26
    let base := fld r.dw0 21 0
    let at_ := sramLoc P r.addr
    let head := s.mem.nat (at_ + 8) 4
    let tail := s.mem.nat (at_ + 12) 4
    let fill := (BitVec.ofNat 32 tail - BitVec.ofNat 32 head).toNat
    let held := ((s.cluster P).holds.filter (fun h => h.addr == r.addr)).map (fun h => (BitVec.ofNat 32 h.x - BitVec.ofNat 32 tail).toNat % slots)
    let open_ := held.foldl min (slots - fill)
    let parks := fun (i : Instr) (w : Wait) => ∃ t, exec i s = .next t ∧ OnlyCore s t s.cur ∧ t.core s.cur = { s.core s.cur with wait := w }
    let waits := fun (i : Instr) (after : State) (have_ all : Nat) (w : Wait) =>
      (n ≤ all → n ≤ have_ → CompletesG i s after g (word have_)) ∧ (n ≤ all → have_ < n → parks i w) ∧ (all < n → TrapsWith i s .ringFault 0)
    let dfill := ((s.tile (tileOf s.cur)).dtail - (s.tile (tileOf s.cur)).dhead).toNat
    ((s.core s.cur).rh h = .ring r.id addr use → ringEntry s P r.id = some r → r.broken = false →
      (x.toNat < 2 ^ 33 → WritesG (.rslot g h b) s g
          (localVa (base + ((if x.getLsbD 32 then tail else head) + x.toNat % 2 ^ 32) % slots * 2 ^ fld r.dw0 25 22)))
      ∧ (2 ^ 33 ≤ x.toNat → TrapsWith (.rslot g h b) s .ringFault 0)
      ∧ waits (.rwait g h b) (acquireElements s s.cur P r (BitVec.ofNat 32 head) fill) fill slots (.ring r.id)
      ∧ waits (.rwaitf g h b) (acquireElements s s.cur P r (BitVec.ofNat 32 tail) open_) open_ slots (.ring r.id)
      ∧ (n ≤ fill → ∃ s1, Completes (.radvh h b) s s1 ∧ Accessed s s1 ∧ s1.mem.nat (at_ + 8) 4 = (head + n) % 2 ^ 32
          ∧ ∀ y, y < at_ + 8 ∨ at_ + 12 ≤ y → s1.mem.peek y = s.mem.peek y)
      ∧ (fill < n → TrapsWith (.radvh h b) s .ringFault 0)
      ∧ (n ≤ open_ → ∃ s1, Completes (.radvt h b) s s1 ∧ Accessed s s1
          ∧ s1.mem.nat (at_ + 12) 4 = ((releaseTo s s.cur 2).mem.nat (at_ + 12) 4 + n) % 2 ^ 32
          ∧ ∀ y, y < at_ + 12 ∨ at_ + 16 ≤ y → s1.mem.peek y = (releaseTo s s.cur 2).mem.peek y)
      ∧ (open_ < n → TrapsWith (.radvt h b) s .ringFault 0))
    ∧ ((s.core s.cur).rh h = .drain → dfill ≤ 8 →
        waits (.rwait g h b) s dfill 8 .drainRing ∧ waits (.rwaitf g h b) s (8 - dfill) 8 .drainRing
        ∧ ∀ i ∈ [Instr.rslot g h b, .radvh h b, .radvt h b], TrapsWith i s .ringFault 0)
    ∧ (((s.core s.cur).rh h = .unbound ∨ (s.core s.cur).rh h = .ring r.id addr use ∧ ringEntry s P r.id = some { r with broken := true }) →
        ∀ i ∈ [Instr.rslot g h b, .rwait g h b, .rwaitf g h b, .radvh h b, .radvt h b], TrapsWith i s .ringFault 0)
    ∧ ((∃ id, (s.core u).wait = .ring id) ∨ (s.core u).wait = .drainRing →
        ∃ t, exec (.ringWaitWake u) s = .next t ∧ OnlyCore s t u ∧ t.core u = { s.core u with wait := .none })

/-- R201, R202: a semaphore is 16 bits: SPOST adds to it, SWAIT takes from it when no other SWAIT waits and enough remains and joins its queue otherwise, STRYW
reads it and takes when SWAIT would, and the head of the queue takes and retires once enough remains; a value past 65,535 raises RING_FAULT. -/
def Obligations.Semaphores : Prop :=
  ∀ (s : State) (k : SReg) (d a : GReg) (u n : Nat) (rest : List (Nat × Nat)),
    let T := tileOf s.cur
    let v := ((s.tile T).rs k).toNat
    let m := (s.rg a).toNat
    let queue := mget (s.tile T).semq k.toNat []
    let took := fun (s1 : State) (w : Nat) => (s1.tile T).rs k = BitVec.ofNat 16 w ∧ (∀ j, j ≠ k → (s1.tile T).rs j = (s.tile T).rs j)
      ∧ s1.tile T = { s.tile T with sems := (s1.tile T).sems } ∧ ∀ y, y ≠ T → s1.tile y = s.tile y
    let onlySems := fun (s1 : State) => s1 = { s with tiles := s1.tiles, cores := s1.cores } ∧ ∀ w, s1.core w = (acquire s s.cur).core w
    (v + m ≤ 65535 → ∃ s1, Completes (.spost k a) s s1 ∧ took s1 (v + m) ∧ s1.mem = (releaseTo s s.cur 1).mem)
    ∧ (65535 < v + m → TrapsWith (.spost k a) s .ringFault 0)
    ∧ (queue = [] → m ≤ v → ∃ s1, Completes (.swait k a) s s1 ∧ took s1 (v - m) ∧ onlySems s1)
    ∧ (m ≤ 65535 → queue ≠ [] ∨ v < m → ∃ t, exec (.swait k a) s = .next t ∧ t.mem = s.mem
        ∧ t.core s.cur = { s.core s.cur with wait := .semaphore k.toNat } ∧ (∀ w, w ≠ s.cur → t.core w = s.core w)
        ∧ mget (t.tile T).semq k.toNat [] = queue ++ [(s.cur, m)] ∧ (t.tile T).sems = (s.tile T).sems)
    ∧ (65535 < m → TrapsWith (.swait k a) s .ringFault 0)
    ∧ (m ≤ v → queue = [] → ∃ s1, CompletesG (.stryw d k a) s s1 d (word v) ∧ took s1 (v - m) ∧ onlySems s1)
    ∧ (v < m ∨ queue ≠ [] → WritesG (.stryw d k a) s d (word v))
    ∧ (queue = (u, n) :: rest → n ≤ v → ∃ t, exec (.semaphoreGrant T k.toNat) s = .next t
        ∧ (t.tile T).rs k = BitVec.ofNat 16 (v - n) ∧ mget (t.tile T).semq k.toNat [] = rest ∧ Sequenced (s.core u) (t.core u)
        ∧ RetiredFrom ((acquire s u).core u) (t.core u) s.now ∧ (t.core u).g = (s.core u).g ∧ (t.core u).v = (s.core u).v
        ∧ (∀ w, w ≠ u → t.core w = s.core w) ∧ t.mem = s.mem)
    ∧ (queue = (u, n) :: rest → v < n → exec (.semaphoreGrant T k.toNat) s = .next s)


/-! ## Copy engines and tile streamers -/

/-- R204 to R206, R212, R213: a CP takes the next engine-log number, logs itself and puts its command with its descriptor at the end of its engine's queue; with
Y = 0 it retires, with Y = 1 it waits until ENGINE_REPLY gives it the reply in gD or traps ENGINE_FAULT. COPYM is for gang members; its follow-on takes a second
number. A CP that its queue cannot take stays as it is. That a CP with Y = 1 takes its number when its command leaves, before it retires, is the model's choice (log
entry 77). -/
def Obligations.CommandsAreIssued : Prop :=
  ∀ (s s0 : State) (fn : CpFn) (y : Bool) (d a b : GReg) (desc : List Word) (h : HReg) (i : Instr) (id addr use u : Nat) (v fa tag data : Word)
    (seq : BitVec 16) (sub : Nat),
    let me := s.cur
    let c := s.core me
    let P := clusterOf me
    let next := fun (x : BitVec 16) => if x = 0xFFFF then (1 : BitVec 16) else x + 1
    let n := next c.seqNo
    let gang := (s.taskOf me).any (fun t => t.kind.gang) = true
    let reads := if fn = .unsubs then desc = [] ∧ s0 = s else readDescriptor (s.rg a) s = .ok (desc, s0)
    let cmd := fun (follow : Option RingRef) => ({
      fn := fn, y := y, core := if y then some me else none, sender := me, d := d, desc := desc,
      descVa := if fn = .unsubs then 0 else s.rg a, tag := s.rg b, seq := n, pc := c.pc, cl := P, tenant := c.ctx.tenant,
      kid := c.ctx.kern.kid, follow := follow, moved := [] } : CpCmd)
    let queueOf := fun (x : CpCmd) (t : State) => if toStreamer fn then (t.streamer (streamerFor x)).queue else mget t.engines (4 * dieOf P + P % 4) []
    let issued := fun (x : CpCmd) (t : State) => queueOf x t = queueOf x s0 ++ [x] ∧ t.mem = (releaseTo s0 me 4).mem
      ∧ (t.core me).g = c.g ∧ (t.core me).v = c.v
      ∧ mfind (t.core me).elog (n.toNat % 32) = some ⟨if toStreamer fn then 1 else 0, c.pc, if fn = .unsubs then 0 else (s.rg a).toNat - localWin, y, cpFn7 fn, n⟩
      ∧ (y = false → Sequenced c (t.core me)) ∧ (y = true → (t.core me).wait = .command d ∧ (t.core me).pc = c.pc)
    (fn ≠ .copym → reads → queueOpen s0 (cmd none) = true → ∃ t, exec (.cp fn y d a b) s = .next t ∧ issued (cmd none) t ∧ (t.core me).seqNo = n)
    ∧ (fn = .copym → gang → reads → queueOpen s0 (cmd none) = true → followInstr (BitVec.ofNat 16 (fld (desc.getD 4 0) 15 0)) = some i →
        followHandle i = some h → (s0.core me).rh h = .ring id addr use →
        ∃ t, exec (.cp fn y d a b) s = .next t ∧ issued (cmd (some ⟨P, id, addr, 0⟩)) t ∧ (t.core me).seqNo = next n
          ∧ mfind (t.core me).elog ((next n).toNat % 32) = some ⟨2, c.pc, 0, false, matrixCode i, next n⟩)
    ∧ (fn = .copym → ¬ gang → TrapsWith (.cp fn y d a b) s .illegalOp 0)
    ∧ (fn ≠ .unsubs → (fn = .copym → gang) → (s.rg a).toNat % 64 ≠ 0 → TrapsWith (.cp fn y d a b) s .align (s.rg a))
    ∧ ((fn = .copym → gang) → reads → queueOpen s0 (cmd none) = false → exec (.cp fn y d a b) s = .next s0)
    ∧ ((s.core u).wait = .command d → (s.core u).pop = some (.val v) → ∃ t, exec (.engineReply u) s = .next t ∧ Sequenced (s.core u) (t.core u)
        ∧ RetiredFrom ((acquire s u).core u) (t.core u) s.now ∧ (∀ r, (t.core u).rg r = if r = d ∧ d ≠ 0 then v else (s.core u).rg r)
        ∧ (t.core u).v = (s.core u).v ∧ OnlyCore s t u)
    ∧ ((s.core u).wait = .command d → (s.core u).pop = some (.fail .engineFault sub fa tag data seq) →
        mfind (s.cluster (clusterOf u)).mailbox (inCluster u) = none →
        ∃ t r, exec (.engineReply u) s = .next t ∧ (t.core u).status = .trapped r ∧ PreciseRecord s u r .engineFault fa ∧ r.sub = sub ∧ r.tag = tag
          ∧ r.data = data ∧ r.seq = seq ∧ (t.core u).g = (s.core u).g ∧ t.mem = s.mem)

/-- A chain of n steps from one state to another. -/
def Stepwise (f : Nat → State → State → Prop) (n : Nat) (s t : State) : Prop :=
  ∃ st : Nat → State, st 0 = s ∧ st n = t ∧ ∀ k, k < n → f k (st k) (st (k + 1))

/-- One sector or element read by an agent and written elsewhere, with its tag where it is a whole sector at a typed sector with the right T (R208). -/
def Moves (w : Who) (size : Nat) (src dst : Word) (x z : State) : Prop :=
  ∃ y bs, if size = 64 then ∃ tag, engineSector w src x = .ok ((bs, tag), y) ∧ engineStore w .sector dst bs (some tag) y = .ok ((), z)
    else loadBytes w src size x = .ok (bs, y) ∧ engineStore w .sector dst bs none y = .ok ((), z)

/-- R204, R207 to R209, R213: a copy engine runs the command at the head of its queue: COPY, COPYF and COPYM move sectors in order, GATH and SCAT move elements through
their index list, FILL repeats a doubleword, WBACK and INVAL write back and drop copies; then the reply is the count of bytes or elements, COPYF writes its
flag last, and COPYM sends its follow-on, or reports RING_FAULT for one whose handle named no ring. A refused field or a misaligned address ends any of the eight with
ENGINE_FAULT and nothing done, and lets go of the ring that a follow-on would have used. That a command waits as a whole and that commands run one after another is the
model's choice (log entries 20 and 76). -/
def Obligations.CopyEngineCommands : Prop :=
  ∀ (s t s1 : State) (eng k : Nat) (c : CpCmd) (rest : List CpCmd) (ring : RingRef),
    let n := c.len / 64
    let cnt := fld (c.dw 7) 31 0
    let done := fun (i : Instr) (count : Nat) => ∃ z, exec i s = .next z ∧ mget z.engines eng [] = rest ∧ z.mem = t.mem
      ∧ (∀ u, (z.core u).g = (t.core u).g ∧ (z.core u).pc = (t.core u).pc)
      ∧ (c.core = none → z = { t with engines := mset t.engines eng rest })
      ∧ ∀ u, c.core = some u → (z.core u).pop = some (.val (word count))
    let index := fun (j : Nat) (x : State) (m : State) (v : Nat) =>
      ∃ bs, loadBytes (c.at_ j).who (c.dw 6 + word (4 * j)) 4 x = .ok (bs, m) ∧ leNat bs = v
    let copies := Stepwise (fun j x z => Moves (c.at_ j).who 64 (c.dw 0 + word (64 * j)) (c.dw 1 + word (64 * j)) x z) n s
    let back := fun (drop : Bool) => Stepwise (fun j x z => backSector drop (c.at_ j) j x = .ok ((), z)) n s
    mget s.engines eng [] = c :: rest → s.holdsRecord (.copyEng eng) = false →
    (fieldFault c = none → misaligned c = none →
      (c.fn = .copy → copies t → done (.copy eng) (64 * n))
      ∧ (c.fn = .copyf → copies s1 → writeFlag (c.at_ n) s1 = .ok ((), t) → done (.copyf eng) (64 * n))
      ∧ (c.fn = .gath → Stepwise (fun j x z => ∃ m v, index j x m v
            ∧ Moves (c.at_ j).who c.esz (c.dw 0 + word v * word c.esz) (c.dw 1 + word (j * c.esz)) m z) cnt s t → done (.gath eng) cnt)
      ∧ (c.fn = .scat → Stepwise (fun j x z => ∃ m v, index j x m v
            ∧ Moves (c.at_ j).who c.esz (c.dw 0 + word (j * c.esz)) (c.dw 1 + word v * word c.esz) m z) cnt s t → done (.scat eng) cnt)
      ∧ (c.fn = .fill → Stepwise (fun j x z => engineStore (c.at_ j).who .sector (c.dw 1 + word (64 * j))
            (List.replicate 8 (leBytes 8 (c.dw 5).toNat)).flatten (some (BitVec.ofNat 16 (fld (c.dw 2) 47 32))) x = .ok ((), z)) n s t →
          done (.fill eng) (64 * n))
      ∧ (c.fn = .wback → back false t → done (.wback eng) (64 * n))
      ∧ (c.fn = .inval → back true s1 → t = invalPages s1 (c.dw 1) c.len → done (.inval eng) (64 * n))
      ∧ (c.fn = .copym → c.follow = some ring → copies s1 → ∃ z, exec (.copym eng) s = .next z ∧ mget z.engines eng [] = rest ∧ z.mem = s1.mem
          ∧ (z.tile (tileOf c.sender)).follow = (s1.tile (tileOf c.sender)).follow ++ [⟨BitVec.ofNat 16 (fld (c.dw 4) 15 0), ring, c.dw 5, c.sender,
              seqAfter c.seq, c.pc, c.tenant, c.kid⟩]
          ∧ ∀ u, c.core = some u → (z.core u).pop = some (.val (word (64 * n))))
      ∧ (c.fn = .copym → c.follow = none → s.holdsRecord (.matrix (tileOf c.sender)) = false → copies s1 →
          t = postShared s1 (clusterOf c.sender) (.matrix (tileOf c.sender))
            (lateRecord s1 c.sender Cause.ringFault.code (seqAfter c.seq) c.pc 0 0 0 c.kid) → done (.copym eng) (64 * n)))
    ∧ (∀ p ∈ [(CpFn.copy, Instr.copy eng), (.copyf, .copyf eng), (.gath, .gath eng), (.scat, .scat eng), (.fill, .fill eng),
          (.wback, .wback eng), (.inval, .inval eng), (.copym, .copym eng)], c.fn = p.1 → ∀ (cause : Cause) (fa : Word) (base : State),
        (fieldFault c = some k ∧ cause = .formatFault ∧ fa = c.descVa + word (8 * k)
          ∨ fieldFault c = none ∧ misaligned c = some fa ∧ cause = .align) →
        (c.fn = .copym → c.follow = none → s.holdsRecord (.matrix (tileOf c.sender)) = false) →
        base = (if c.fn = .copym then c.follow.elim s (fun r => ringUnref s r.cl r.id) else s) →
        ∃ z, exec p.2 s = .next z ∧ mget z.engines eng [] = rest ∧ z.mem = s.mem
          ∧ (∀ u, c.core = some u → (z.core u).pop = some (.fail .engineFault cause.code fa c.tag 0 c.seq))
          ∧ (c.core = none → z = postShared { base with engines := mset base.engines eng rest } (clusterOf c.sender) (.copyEng eng)
              (lateRecord { base with engines := mset base.engines eng rest } c.sender cause.code c.seq c.pc fa c.tag 0 c.kid)))

/-- R208: an engine's write that passes its checks on one place of memory of an ordered, unreplicated page leaves its bytes there, a whole sector's tag beside
them, and every other byte of memory as it was. -/
def Obligations.EngineWritesLand : Prop :=
  ∀ (s s0 s1 : State) (w : Who) (acc : Acc) (va : Word) (bs : List Byte) (tag : Half) (p : Piece) (loc : Nat),
    w.core = none → resolve w acc va bs.length s = .ok ([p], s0) → p.place = .mem loc → p.kind ≠ 2 → p.repl = false →
    loc + bs.length ≤ tagBase →
    (engineStore w acc va bs none s = .ok ((), s1) → s1.mem.bytes loc bs.length = bs ∧ Accessed s s1
      ∧ ∀ x, x < loc ∨ loc + bs.length ≤ x → s1.mem.peek x = s.mem.peek x)
    ∧ (bs.length = 64 → loc % 64 = 0 → p.typed = true → engineStore w .sector va bs (some tag) s = .ok ((), s1) → acc = .sector →
        s1.mem.bytes loc 64 = bs ∧ s1.mem.tag loc = tag
        ∧ ∀ x, (x < loc ∨ loc + 64 ≤ x) → x ≠ tagLoc loc → x ≠ tagLoc loc + 1 → s1.mem.peek x = s.mem.peek x)

/-- An engine may write `n` bytes at an address that names offset `off` of cluster P's scratchpad: rights W and T, and neither a bound ring's descriptor nor a broken
ring there (R191, R194, R208). -/
def EngineMayWrite (s : State) (w : Who) (va : Word) (n P off : Nat) : Prop :=
  EngineReaches s w va n 1 P off ∧ EngineReaches s w va n 3 P off
    ∧ ∀ r ∈ (s.cluster P).rings, (r.addr + 16 ≤ off ∨ off + n ≤ r.addr) ∧ (r.broken = false ∨ r.overlaps off n = false)

/-- An engine reads the 64 bytes at a page-mapped address from location `loc`: a 64 KiB page of the device's own memory, mapped, with no translation of its older
entry held, not replicated, of kind SO or RC, the right RD, the links up, no POISON (R87 to R93, R330). -/
def EngineReadsPage (s : State) (w : Who) (va : Word) (loc : Nat) (pte : Word) : Prop :=
  w.core = none ∧ va.toNat % 64 = 0 ∧ regionOf s w.cl va = .mapped ∧ endpointOf va = 0 ∧ LinksUp s ∧ walk s va = .leaf pte false
    ∧ (∀ e ∈ s.tcache, e.covers va = true → e.pte = pte ∧ e.big = false) ∧ loc = ptePa pte + va.toNat % 65536 ∧ inHbm loc 64 = true
    ∧ bitAt pte 5 = false ∧ pteKind pte < 2 ∧ s.mem.poison.contains (loc / 64) = false
    ∧ ∃ t, w.tenant = some t ∧ (s.rightsOf t (pteDom pte)).getLsbD 0 = true

/-- Binding the descriptor at offset `off` of cluster Q gives table entry `id`: one that holds it unbroken, or a new one of a valid descriptor (R190, R191, R194). -/
def Binds (s : State) (Q off id : Nat) : Prop :=
  let table := (s.cluster Q).rings
  (∃ r, table.find? (fun r => r.addr == off && !r.broken) = some r ∧ r.id = id)
    ∨ ((∀ r ∈ table, r.addr = off → r.broken = true) ∧ ringValid s Q off = true ∧ table.length < 64 ∧ (s.cluster Q).ringNext = id)

/-- The conditions of SUBS on its descriptor: a region in one 32 MiB frame of the device's own memory, and a ring in a scratchpad window that the task may read, of
entry `id` once bound (R205, R210). -/
def SubsSound (s : State) (c : CpCmd) (Q off id : Nat) : Prop :=
  (c.dw 0).toNat % 64 = 0 ∧ regionOf s c.cl (c.dw 0) = .mapped ∧ endpointOf (c.dw 0) = 0 ∧ (c.dw 0).toNat % 2 ^ 25 + c.len ≤ 2 ^ 25 ∧ c.len ≠ 0
    ∧ globalWin ≤ (redirected c.who (c.dw 1)).toNat ∧ s.quarCl.contains Q = false ∧ (s.cluster Q).switching = [] ∧ Binds s Q off id
    ∧ ∃ dom, regionOf s c.cl (redirected c.who (c.dw 1)) = .window Q off dom ∧ (s.rightsOf c.tenant dom).getLsbD 0 = true

/-- The conditions under which one element of a subscription with one ring goes to slot offset `at_` for a command's task, its k-th sector from location `loc k`: a free slot
in an unbroken ring, and every sector readable there and writable here (R208, R211). -/
def FeedsElement (s : State) (c : CpCmd) (y : Sub) (r : RingRef) (e : RingEntry) (at_ : Nat) (loc : Nat → Nat) : Prop :=
  y.rings = [r] ∧ ringEntry s r.cl r.id = some e ∧ e.addr = r.addr ∧ e.broken = false ∧ s.quarCl.contains r.cl = false ∧ 1 ≤ ringFree s r.cl e ∧ y.size % 64 = 0
    ∧ r.cl < 64 ∧ r.addr + 16 ≤ 2 ^ 22 ∧ at_ = (geomOf e.dw0).slot (ringTail s r.cl r.addr).toNat ∧ at_ + y.size ≤ 2 ^ 22
    ∧ ∀ k, k < y.size / 64 → EngineMayWrite s c.who (globalise s r.cl (localVa at_) + word (64 * k)) 64 r.cl (at_ + 64 * k)
        ∧ ∃ pte, EngineReadsPage s c.who (y.src + word (y.cursor + 64 * k)) (loc k) pte

/-- R210, R211, R213: SUBS makes a subscription of a region with one ring, or adds a ring to one, and replies its ID; UNSUBS lets its rings go once no pull runs, and
waits its turn otherwise; PULL and PULLF join the subscription's pulls, and go on as far as the rings have room; one element is read once, written to the tail of
every ring when all have room, and moves the cursor on; after its last element a pull writes its flag, if it has one, and replies the count. That a command for an ID that
is no subscription's ends with FORMAT_FAULT, at its descriptor's doubleword 0 or, for UNSUBS, at 0, is the model's choice (log entry 73). -/
def Obligations.StreamersFeedRings : Prop :=
  ∀ (s s1 : State) (str k Q off id at_ fP fo : Nat) (c : CpCmd) (rest : List CpCmd) (y : Sub) (j : PullJob) (jobs : List PullJob) (r : RingRef) (en : RingEntry)
    (loc : Nat → Nat),
    let x := s.streamer str
    let s0 := s.setStreamer str { x with queue := rest }
    let count := fld (c.dw 2) 31 0
    let replied := fun (t : State) (d : CpCmd) (v : Word) => ∀ u, d.core = some u → (t.core u).pop = some (.val v)
    let ring : RingRef := ⟨Q, id, off, 0⟩
    let size := slotSize s ring
    let named := subSlot str c.tag = some k ∧ mfind x.subs k = some y
    let sub := fun (t : State) => mfind (t.streamer str).subs k
    let moved := (y.cursor + y.size) % y.len
    let fed := fun (t : State) => t.mem.nat (sramLoc r.cl r.addr + 12) 4 = (s.mem.nat (sramLoc r.cl r.addr + 12) 4 + 1) % 2 ^ 32
      ∧ ∀ i, i < y.size / 64 → t.mem.bytes (sramLoc r.cl (at_ + 64 * i)) 64 = s.mem.bytes (loc i) 64
    let outside := fun (t : State) => ∀ a, a < tagBase → (a < sramLoc r.cl at_ ∨ sramLoc r.cl at_ + y.size ≤ a) →
      (a < sramLoc r.cl r.addr + 12 ∨ sramLoc r.cl r.addr + 16 ≤ a) → t.mem.peek a = s.mem.peek a
    s.holdsRecord (.streamer str) = false →
    (x.queue = c :: rest →
      (c.fn = .subs → SubsSound s c Q off id → c.tag = 0xFFFF → lowestFree (x.subs.map (fun p => p.1)) 16 = some k → c.len % size = 0 →
        ∃ t, exec (.subs str) s = .next t ∧ (t.streamer str).queue = rest ∧ replied t c (word (16 * str + k)) ∧ t.mem = s.mem
          ∧ sub t = some ⟨c.dw 0, c.len, size, 0, [ring], []⟩)
      ∧ (c.fn = .subs → SubsSound s c Q off id → c.tag ≠ 0xFFFF → named → y.src = c.dw 0 → y.len = c.len → y.rings.length < 8 → size = y.size →
        ∃ t, exec (.subs str) s = .next t ∧ (t.streamer str).queue = rest ∧ replied t c c.tag ∧ t.mem = s.mem
          ∧ sub t = some { y with rings := y.rings ++ [ring] })
      ∧ (c.fn = .unsubs → named → y.jobs = [] → ∃ t, exec (.unsubs str) s = .next t ∧ (t.streamer str).queue = rest ∧ replied t c 0
          ∧ sub t = none ∧ t.mem = s.mem)
      ∧ (c.fn = .unsubs → named → y.jobs ≠ [] → ∃ t, exec (.unsubs str) s = .next t ∧ (t.streamer str).queue = rest ∧ t.mem = s.mem
          ∧ sub t = some { y with jobs := y.jobs ++ [⟨c, 0⟩] } ∧ ∀ u, t.core u = s.core u)
      ∧ (c.fn = .pull → named → y.jobs = [] → count = 0 → ∃ t, exec (.pull str) s = .next t ∧ (t.streamer str).queue = rest ∧ replied t c 0
          ∧ sub t = some y ∧ t.mem = s.mem)
      ∧ (c.fn = .pull → named → y.jobs = [] → count = 1 → FeedsElement s c y r en at_ loc → ∃ t, exec (.pull str) s = .next t
          ∧ (t.streamer str).queue = rest ∧ replied t c 1 ∧ sub t = some { y with cursor := moved } ∧ fed t ∧ outside t)
      ∧ (c.fn = .pullf → named → y.jobs = [] → count = 0 → (c.dw 4).toNat % 8 = 0 → fo < 2 ^ 22 → EngineMayWrite s c.who (c.dw 4) 8 fP fo →
        ∃ t, exec (.pullf str) s = .next t ∧ (t.streamer str).queue = rest ∧ replied t c 0 ∧ sub t = some y
          ∧ t.mem.nat (sramLoc fP fo) 8 = (c.dw 5).toNat ∧ ∀ a, a < sramLoc fP fo ∨ sramLoc fP fo + 8 ≤ a → t.mem.peek a = s.mem.peek a)
      ∧ (c.fn = .pullf → named → y.jobs = [] → count = 1 → (c.dw 4).toNat % 8 = 0 → fP < 64 → fo < 2 ^ 22 → EngineMayWrite s c.who (c.dw 4) 8 fP fo →
        FeedsElement s c y r en at_ loc → sramLoc fP fo + 8 ≤ sramLoc r.cl at_ ∨ sramLoc r.cl at_ + y.size ≤ sramLoc fP fo →
        ∃ t, exec (.pullf str) s = .next t ∧ (t.streamer str).queue = rest ∧ replied t c 1 ∧ sub t = some { y with cursor := moved } ∧ fed t
          ∧ t.mem.nat (sramLoc fP fo) 8 = (c.dw 5).toNat)
      ∧ (named → y.jobs ≠ [] ∨ 0 < count ∧ roomInAll s0 y = false →
        (c.fn = .pull → ∃ t, exec (.pull str) s = .next t ∧ (t.streamer str).queue = rest ∧ sub t = some { y with jobs := y.jobs ++ [⟨c, count⟩] } ∧ t.mem = s.mem)
        ∧ (c.fn = .pullf → ∃ t, exec (.pullf str) s = .next t ∧ (t.streamer str).queue = rest ∧ sub t = some { y with jobs := y.jobs ++ [⟨c, count⟩] }
            ∧ t.mem = s.mem))
      ∧ ((∀ i z, subSlot str c.tag = some i → mfind x.subs i ≠ some z) → ∀ p ∈ [(CpFn.unsubs, Instr.unsubs str, (0 : Word)), (.pull, .pull str, c.descVa), (.pullf, .pullf str, c.descVa)],
        c.fn = p.1 → ∃ t, exec p.2.1 s = .next t ∧ (t.streamer str).queue = rest ∧ t.mem = s.mem
          ∧ ∀ u, c.core = some u → (t.core u).pop = some (.fail .engineFault Cause.formatFault.code p.2.2 c.tag 0 c.seq)))
    ∧ (mfind x.subs k = some y → y.jobs = j :: jobs → j.cmd.fn = .pull →
        (1 ≤ j.left → FeedsElement s j.cmd y r en at_ loc → ∃ t, exec (.streamerElementWrite str k) s = .next t ∧ fed t ∧ outside t
          ∧ (1 < j.left → sub t = some { y with cursor := moved, jobs := { j with left := j.left - 1 } :: jobs })
          ∧ (j.left = 1 → sub t = some { y with cursor := moved, jobs := jobs } ∧ replied t j.cmd (word (fld (j.cmd.dw 2) 31 0))))
        ∧ (1 ≤ j.left → roomInAll s y = true → pullElement j.cmd y s = .ok ⟨s1, 0, none⟩ →
          (1 < j.left → ∃ t, exec (.streamerElementWrite str k) s = .next t ∧ t.mem = s1.mem ∧ (∀ u, t.core u = s1.core u)
            ∧ sub t = some { y with cursor := moved, jobs := { j with left := j.left - 1 } :: jobs })
          ∧ (j.left = 1 → ∃ t, exec (.streamerElementWrite str k) s = .next t ∧ t.mem = s1.mem
            ∧ replied t j.cmd (word (fld (j.cmd.dw 2) 31 0)) ∧ sub t = some { y with cursor := moved, jobs := jobs }))
        ∧ (1 ≤ j.left → roomInAll s y = false → exec (.streamerElementWrite str k) s = .next s))
    ∧ (mfind x.subs k = some y → y.jobs = j :: jobs → j.cmd.fn = .unsubs →
        ∃ t, exec (.streamerElementWrite str k) s = .next t ∧ sub t = none ∧ replied t j.cmd 0
          ∧ (t.streamer str).queue = jobs.map (fun q => q.cmd) ++ x.queue ∧ t.mem = s.mem)


/-! ## The matrix unit -/

/-- R191, R215, R226 to R232, R236: a matrix instruction of a gang member retires when its command has entered its tile's queue of 16 under the core's next engine-log
number. MLDB and the MMAs bind the element at their ring's head and hold its slot, or park until one arrives; the EOUTs first release the core's stores at tile
scope; a command with a ring counts a reference to it. It raises ILLEGAL_OP outside a gang, RING_FAULT on an unusable handle and FORMAT_FAULT on a refused register, and
stays while the queue is full. -/
def Obligations.MatrixCommandsAreIssued : Prop :=
  ∀ (s : State) (d x : TReg) (slot : BitVec 7) (h : HReg) (a b : GReg) (r : RingEntry) (addr use u o : Nat) (op : MOp),
    let me := s.cur
    let c := s.core me
    let P := clusterOf me
    let T := tileOf me
    let n := seqAfter c.seqNo
    let gang := (s.taskOf me).any (fun t => t.kind.gang) = true
    let room := (s.tile T).queue.length < 16 ∧ s.holdsRecord (.matrix T) = false
    let bound := c.rh h = .ring r.id addr use ∧ ringEntry s P r.id = some r ∧ r.broken = false
    let head := s.mem.nat (sramLoc P r.addr + 8) 4
    let tail := s.mem.nat (sramLoc P r.addr + 12) 4
    let elem : RingRef := ⟨P, r.id, r.addr, head⟩
    let free : RingRef := ⟨P, r.id, r.addr, 0⟩
    let queued := fun (t : State) (code : Nat) (q : MOp) => (t.tile T).queue = (s.tile T).queue ++ [⟨q, me, n, c.pc, c.ctx.tenant, c.ctx.kern.kid, q.ring.isSome⟩]
      ∧ t.tile T = { s.tile T with queue := (t.tile T).queue } ∧ (∀ y, y ≠ T → t.tile y = s.tile y)
      ∧ (∀ e, q.ring = some e → ringEntry s P e.id = some r → (t.cluster P).rings =
          (s.cluster P).rings.map (fun k => if k.id = e.id then { k with count := k.count + 1 } else k))
      ∧ (t.core me).seqNo = n ∧ mfind (t.core me).elog (n.toNat % 32) = some ⟨2, c.pc, 0, false, code, n⟩
      ∧ Sequenced c (t.core me) ∧ (t.core me).g = c.g ∧ (t.core me).v = c.v
    let enters := fun (i : Instr) (code : Nat) (q : MOp) (held : List RingRef) => ∃ t, exec i s = .next t ∧ queued t code q ∧ t.mem = s.mem
      ∧ (t.cluster P).uoFenced = (s.cluster P).uoFenced ∧ (t.cluster P).holds = (s.cluster P).holds ++ held
    let leaves := fun (i : Instr) (code : Nat) (q : MOp) => ∃ t, exec i s = .next t ∧ queued t code q ∧ (t.cluster P).holds = (s.cluster P).holds
    let parks := fun (i : Instr) (q : MOp) => ∃ t, exec i s = .next t ∧ OnlyCore s t me ∧ t.core me = { c with wait := .matrixRing q }
    let biasOk := s.rg b = 0 ∨ s.rg b = localVa o ∧ o % 64 = 0 ∧ o + 256 ≤ 2 ^ 22 ∧ ∀ k, k < 256 → ReachesScratchpad s (o + k) 1 0
    let all := [Instr.msel d slot, .mz d, .macc d x, .mdrn x, .mmaN4 d h, .mmaN8 d h, .mmaW16 d h, .mmaL d h, .mldb h a, .mldbL h a, .eoutN8 h a b, .eoutF32 h a b,
      .eoutB16 h a b]
    (gang → room →
      enters (.msel d slot) 14 (.msel d.toNat slot.toNat) [] ∧ enters (.mz d) 16 (.mz d.toNat) []
      ∧ enters (.macc d x) 17 (.macc d.toNat x.toNat) [] ∧ enters (.mdrn x) 22 (.mdrn x.toNat) [])
    ∧ (gang → room → bound → head ≠ tail →
      enters (.mmaN4 d h) 18 (.mma (some .n4) d.toNat elem) [elem] ∧ enters (.mmaN8 d h) 19 (.mma (some .n8) d.toNat elem) [elem]
      ∧ enters (.mmaW16 d h) 20 (.mma (some .w16) d.toNat elem) [elem] ∧ enters (.mmaL d h) 21 (.mma none d.toNat elem) [elem]
      ∧ (mldbOk (s.rg a) false = true → enters (.mldb h a) 12 (.mldb false elem (s.rg a).toNat) [elem])
      ∧ (mldbOk (s.rg a) true = true → enters (.mldbL h a) 12 (.mldb true elem (s.rg a).toNat) [elem]))
    ∧ (gang → bound → head = tail →
      parks (.mmaN4 d h) (.mma (some .n4) d.toNat free) ∧ parks (.mmaN8 d h) (.mma (some .n8) d.toNat free)
      ∧ parks (.mmaW16 d h) (.mma (some .w16) d.toNat free) ∧ parks (.mmaL d h) (.mma none d.toNat free)
      ∧ (mldbOk (s.rg a) false = true → parks (.mldb h a) (.mldb false free (s.rg a).toNat))
      ∧ (mldbOk (s.rg a) true = true → parks (.mldbL h a) (.mldb true free (s.rg a).toNat)))
    ∧ (gang → bound → (mldbOk (s.rg a) false = false → TrapsWith (.mldb h a) s .formatFault 0)
      ∧ (mldbOk (s.rg a) true = false → TrapsWith (.mldbL h a) s .formatFault 0))
    ∧ (gang → room → bound → (s.rg a).toNat < 512 → biasOk →
      leaves (.eoutN8 h a b) 23 (.eout .n8 free (s.rg a) (s.rg b)) ∧ leaves (.eoutF32 h a b) 24 (.eout .f32 free (s.rg a) (s.rg b))
      ∧ leaves (.eoutB16 h a b) 25 (.eout .b16 free (s.rg a) (s.rg b)))
    ∧ (gang → bound → 512 ≤ (s.rg a).toNat → ∀ i ∈ [Instr.eoutN8 h a b, .eoutF32 h a b, .eoutB16 h a b], TrapsWith i s .formatFault 0)
    ∧ (gang → (c.rh h = .unbound ∨ c.rh h = .drain) → ∀ i ∈ all.drop 4, TrapsWith i s .ringFault 0)
    ∧ (¬ gang → ∀ i ∈ all, TrapsWith i s .illegalOp 0)
    ∧ (gang → ¬ room → ∀ i ∈ all.take 4, exec i s = .next s)
    ∧ (let Q := clusterOf u
       let w := s.core u
       let now : RingRef := ⟨Q, r.id, r.addr, s.mem.nat (sramLoc Q r.addr + 8) 4⟩
       w.wait = .matrixRing op → op.ring = some ⟨Q, r.id, r.addr, 0⟩ → ringEntry s Q r.id = some r → r.broken = false →
       s.mem.nat (sramLoc Q r.addr + 8) 4 ≠ s.mem.nat (sramLoc Q r.addr + 12) 4 →
       (s.tile (tileOf u)).queue.length < 16 → s.holdsRecord (.matrix (tileOf u)) = false →
       ∃ t, exec (.matrixRingBind u) s = .next t ∧ Sequenced w (t.core u) ∧ (t.core u).wait = .none ∧ (t.core u).g = w.g
         ∧ (op.holds = true → (t.cluster Q).holds = (s.cluster Q).holds ++ [now]
           ∧ (t.tile (tileOf u)).queue = (s.tile (tileOf u)).queue ++ [⟨op.withRing now, u, seqAfter w.seqNo, w.pc, w.ctx.tenant, w.ctx.kern.kid, true⟩])
         ∧ t.mem = s.mem)

/-- Accumulator element (t, m, n) of a unit. -/
def accAt (x : Tile) (t m n : Nat) : BitVec 32 := mget x.acc (4096 * t + 64 * m + n) 0

/-- The slot of a bound element holds an element: its ring is in the table and unbroken, all its sectors return their bytes and carry one matrix code, and they fit in
the slot (R219, R220, R230). -/
def HoldsElement (s : State) (r : RingRef) (e : Element) (bs : List Byte) : Prop :=
  ∃ en w, ringEntry s r.cl r.id = some en ∧ en.broken = false ∧ codeWidth e.code = some w ∧ e.code ≠ 0 ∧ e.code ≠ 0x40
    ∧ (let a := sramLoc r.cl ((geomOf en.dw0).slot r.x)
       512 * w ≤ 2 ^ (geomOf en.dw0).lsz ∧ (∀ k, k < 8 * w → tagCode (s.mem.tag (a + 64 * k)) = e.code ∧ locPoisoned s (a + 64 * k) = false)
       ∧ bs = s.mem.bytes a (512 * w) ∧ e.rows = rowsFrom w bs ∧ e.scales = (List.range (8 * w)).map (fun k => tagScale (s.mem.tag (a + 64 * k))))

/-- R216 to R218, R221, R223 to R225, R227, R232, R235, R236: what the unit's commands do when they reach the head of its queue: MSEL sets a selection, MZ clears an
accumulator, MACC adds one to another, an MMA rounds each old element plus its 64 exact products once, an MMA.L does so at the first rung whose saturations, underflows
and cancellations stay within MONB, each narrower rung being squashed and counted in MREPL, and at the widest at the latest; MLDB fills a block or an accumulator, MDRN
copies an accumulator to the drain ring, EOUT claims a drain element; and the writes of MONB and CNCD take effect in their place. That the unit's own arrays are sound
(`bad` is empty) is a condition of the state (log entry 64); that an MMA.L may stop between two rungs, that an EOUT waits for an element at the head of the queue, and
where a laddered block's rungs lie are the model's choices (log entries 6, 80 and 85). -/
def Obligations.MatrixCommandsExecute : Prop :=
  ∀ (s : State) (T : Nat) (c : MCmd) (rest : List MCmd) (d a y m n : Nat) (g first : Rung) (e : Element) (bs : List Byte) (r : RingRef) (o b w : Word)
    (fmt : OutFmt),
    let x := s.tile T
    let after := fun (i : Instr) (p : Tile → Prop) => ∃ t, exec i s = .next t ∧ p (t.tile T) ∧ (t.tile T).queue = rest ∧ t.mem = s.mem
      ∧ (∀ k, k ≠ T → t.tile k = s.tile k) ∧ ∀ u, t.core u = s.core u
    let others := fun (z : Tile) (k : Nat) => ∀ j, j < 4096 * k ∨ 4096 * k + 4096 ≤ j → mget z.acc j 0 = mget x.acc j 0
    let run := fun (p : Tile → Prop) => after (.matrixCommandExecute T) p
    let at2 := fun (l : List (List Machine.Num)) (i j : Nat) => (l.getD i []).getD j (.zero false)
    let sl := mget x.slots (x.sel.toList.getD d 0).toNat Slot.invalid
    let stepped := fun (z : Tile) (A B : List (List Machine.Num)) => others z d
      ∧ (accAt z d m n).toNat = clampF32 ((below 64).foldl (fun t k => t.add ((at2 A m k).mul (at2 B k n))) (f32 (accAt x d m n).toNat))
    x.queue = c :: rest → s.holdsRecord (.matrix T) = false → x.bad = [] →
    (c.op = .msel d y → d < 8 → run (fun z => (∀ k, k < 8 → z.sel.toList[k]? = if k = d then some (BitVec.ofNat 7 y) else x.sel.toList[k]?)
        ∧ z.acc = x.acc))
    ∧ (c.op = .mz d → run (fun z => (∀ i j, i < 64 → j < 64 → accAt z d i j = 0) ∧ others z d))
    ∧ (c.op = .macc d a → m < 64 → n < 64 → run (fun z => others z d
        ∧ (accAt z d m n).toNat = clampF32 ((f32 (accAt x d m n).toNat).add (f32 (accAt x a m n).toNat))))
    ∧ (c.op = .mma (some g) d r → HoldsElement s r e bs → d < 8 → m < 64 → n < 64 →
        (mmaAccepts (some g) e.code sl = true → run (fun z =>
          stepped z (e.values id) ((x.block (x.sel.toList.getD d 0).toNat).values (if sl.kind = 7 then g.convert else id))
          ∧ z.monc.toNat / 2 ^ 48 % 4 = g.code ∧ z.monc.toNat / 2 ^ 50 % 4 = g.code ∧ z.monc.toNat % 2 ^ 32 = 0))
        ∧ (mmaAccepts (some g) e.code sl = false → ∃ t, exec (.matrixCommandExecute T) s = .next t ∧ (t.tile T).acc = x.acc
             ∧ (t.tile T).queue = rest ∧ t.mem = s.mem))
    ∧ (c.op = .mma none d r → HoldsElement s r e bs → d < 8 → m < 64 → n < 64 → mmaAccepts none e.code sl = true → x.rungs = some (first, .w16) →
        run (fun z => stepped z (e.values id) ((x.block (x.sel.toList.getD d 0).toNat).values id)
          ∧ z.monc.toNat / 2 ^ 48 % 4 = 2 ∧ z.monc.toNat / 2 ^ 50 % 4 = first.code ∧ z.rungs = none ∧ z.mrepl = x.mrepl))
    ∧ (c.op = .mma none d r → HoldsElement s r e bs → d < 8 → m < 64 → n < 64 → mmaAccepts none e.code sl = true →
        let start := if sl.nan || e.hasNan then Rung.w16 else rungOf (fld x.monb 49 48)
        let at_ := x.rungs.getD (start, start)
        let A := e.values at_.2.convert
        let B := (x.block (x.sel.toList.getD d 0).toNat).values at_.2.convert
        let cnc := cancelCount (fld x.cncd 5 0) (allProducts A B)
        let sat := match at_.2 with | .n4 => e.sats .n4 + sl.sat4 | .n8 => e.sats .n8 + sl.sat8 | .w16 => 0
        let und := match at_.2 with | .n4 => e.unds .n4 + sl.und4 | .n8 => e.unds .n8 + sl.und8 | .w16 => 0
        let squashed := at_.2 ≠ .w16 ∧ (fld x.monb 15 0 < sat ∨ fld x.monb 31 16 < und ∨ fld x.monb 47 32 < cnc)
        (¬ squashed → run (fun z => stepped z A B ∧ z.monc = word (at_.1.code * 2 ^ 50 + at_.2.code * 2 ^ 48 + cnc * 2 ^ 32 + und * 2 ^ 16 + sat)
          ∧ z.rungs = none ∧ z.mrepl = x.mrepl))
        ∧ (squashed → s.eager = false → ∃ t, exec (.matrixCommandExecute T) s = .next t ∧ t.mem = s.mem
          ∧ t.tile T = { x with mrepl := x.mrepl + 1, mrepl0 := if x.rungs.isNone then x.mrepl else x.mrepl0,
                                rungs := some (at_.1, if at_.2 = .n4 then .n8 else .w16) }))
    ∧ (c.op = .mldb false r y → HoldsElement s r e bs →
        (256 ≤ y → e.code = 0x10 → m < 64 → n < 64 → run (fun z => others z (y % 8)
          ∧ (accAt z (y % 8) m n).toNat = clampF32 (at2 (e.values id) m n)))
        ∧ (y < 128 → ∀ kind, kindOfCode e.code = some kind → y % kindSlots kind = 0 → scalesClose e.scales = true →
            run (fun z => (z.slot y).kind = kind ∧ (z.slot y).code = e.code ∧ (z.slot y).scales = e.scales ∧ z.acc = x.acc
              ∧ ∀ k, k < bs.length → mget z.blocks (4096 * y + k) 0 = bs.getD k 0)))
    ∧ (c.op = .mldb true r y → HoldsElement s r e bs → e.code = 0x11 → y < 128 → y % 4 = 0 → scalesClose e.scales = true →
        run (fun z => (z.slot y).kind = 7 ∧ (z.slot y).scales = e.scales ∧ (z.slot y).sat4 = e.sats .n4 ∧ (z.slot y).und8 = e.unds .n8
          ∧ (z.slot y).nan = e.hasNan ∧ z.acc = x.acc ∧ (∀ k, k < bs.length → mget z.blocks (4096 * y + k) 0 = bs.getD k 0)
          ∧ (∀ k, k < 4096 → mget z.blocks (4096 * (y + 2) + k) 0 = (e.rungBytes .n8).getD k 0)
          ∧ ∀ k, k < 2048 → mget z.blocks (4096 * (y + 3) + k) 0 = (e.rungBytes .n4).getD k 0))
    ∧ (c.op = .mdrn a → drainFill x < 8 → run (fun z => z.dtail = x.dtail + 1 ∧ z.acc = x.acc
        ∧ ∀ k, k < 4096 → mget z.drain (4096 * (x.dtail.toNat % 8) + k) 0 = mget x.acc (4096 * a + k) 0))
    ∧ (c.op = .mdrn a → 8 ≤ drainFill x → exec (.matrixCommandExecute T) s = .next s)
    ∧ (c.op = .eout fmt r o b → x.dtail ≠ x.dclaim → run (fun z => z.dclaim = x.dclaim + 1 ∧ z.dhead = x.dhead ∧ z.acc = x.acc ∧ z.drain = x.drain
        ∧ ∃ j, z.jobs = x.jobs ++ [j] ∧ j.x = x.dclaim ∧ j.fmt = fmt ∧ j.ring = r ∧ j.opts = o ∧ j.bias = b))
    ∧ (c.op = .eout fmt r o b → x.dtail = x.dclaim → exec (.matrixCommandExecute T) s = .next s)
    ∧ (c.op = .monb w → after (.monbWrite T) (fun z => z = { x with queue := rest, monb := w }))
    ∧ (c.op = .cncd w → after (.cncdWrite T) (fun z => z = { x with queue := rest, cncd := w }))

/-- R191, R209, R236: the epilogue engine reads the drain element of its oldest job, and drain HEAD moves on; it writes the output to the tail slot of the job's ring
with its tag, and TAIL moves on; an element is the drain element, with the bias of its column added and rounded where the job has one, RELU applied where asked, rescaled
and narrowed; with no free slot the output waits, formed, and goes there when one is free. A COPYM follow-on whose ring has an element enters the queue with the element held. -/
def Obligations.EpilogueAndFollowOns : Prop :=
  ∀ (s : State) (T k : Nat) (j : EpiJob) (jobs : List EpiJob) (e : RingEntry) (f : FollowOn) (op : MOp),
    let x := s.tile T
    let P := j.ring.cl
    let tail := s.mem.nat (sramLoc P e.addr + 12) 4
    let off := fld e.dw0 21 0 + tail % 2 ^ fld e.dw0 30 26 * 2 ^ fld e.dw0 25 22
    let n := 512 * j.fmt.width
    let sd := (BitVec.ofNat 8 j.opts.toNat).toInt
    let a := sramLoc P off
    let head := s.mem.nat (sramLoc f.ring.cl e.addr + 8) 4
    let bias := sramLoc (T / 8) (j.bias.toNat - localWin)
    let biased := fun (i : Nat) =>
      let v := f32 (mget x.drain (4096 * (j.x.toNat % 8) + i) 0).toNat
      if j.bias = 0 then v
      else f32 (rneF32 (v.add ((f32 (s.mem.nat (bias + 4 * (i % 64)) 4)).scale (tagScale (s.mem.tag (bias + 64 * (i % 64 / 16)))))))
    let out := fun (i : Nat) =>
      (if j.opts.getLsbD 8 = true then (match biased i with
        | .inf true | .zero true => .zero false
        | .fin p q => if p < 0 then .zero false else .fin p q
        | z => z) else biased i).scale (-sd)
    let rings := off + n ≤ 2 ^ 22 ∧ P < 64 ∧ e.addr + 16 ≤ 2 ^ 22
      ∧ ∀ q ∈ (s.cluster P).rings, (q.addr + 16 ≤ off ∨ off + n ≤ q.addr) ∧ (q.broken = false ∨ q.overlaps off n = false)
    let lands := fun (t : State) => t.mem.nat (sramLoc P e.addr + 12) 4 = (tail + 1) % 2 ^ 32
      ∧ (∀ i, i < n / 64 → t.mem.tag (a + 64 * i) = mkTag j.fmt.code sd)
      ∧ (∀ y, y < tagBase → (y < a ∨ a + n ≤ y) → (y < sramLoc P e.addr + 12 ∨ sramLoc P e.addr + 16 ≤ y) → t.mem.peek y = s.mem.peek y)
    (x.jobs = j :: jobs → j.out = none → s.holdsRecord (.matrix T) = false → ringEntry s P j.ring.id = some e → e.broken = false → n ≤ 2 ^ fld e.dw0 25 22 →
      (j.bias = 0 ∨ ∀ i, i < 4 → tagCode (s.mem.tag (bias + 64 * i)) = 0x10 ∧ locPoisoned s (bias + 64 * i) = false) →
      (j.fmt = .n8 → ∀ i, i < 4096 → out i ≠ .nan) → rings →
      (ringFree s P e ≠ 0 → ∃ t, exec (.epilogueOutput T) s = .next t ∧ (t.tile T).jobs = jobs ∧ (t.tile T).dhead = x.dhead + 1
        ∧ (∀ i, i < 4096 → t.mem.nat (a + j.fmt.width / 8 * i) (j.fmt.width / 8) = j.fmt.narrow (out i)) ∧ lands t)
      ∧ (ringFree s P e = 0 → ∃ t bs, exec (.epilogueOutput T) s = .next t ∧ (t.tile T).jobs = { j with out := some bs } :: jobs
        ∧ (t.tile T).dhead = x.dhead + 1 ∧ t.mem = s.mem ∧ bs.length = n
        ∧ ∀ i, i < 4096 → leNat ((bs.drop (j.fmt.width / 8 * i)).take (j.fmt.width / 8)) = j.fmt.narrow (out i)))
    ∧ (∀ bs, x.jobs = j :: jobs → j.out = some bs → bs.length = n → s.holdsRecord (.matrix T) = false → ringEntry s P j.ring.id = some e →
      e.broken = false → n ≤ 2 ^ fld e.dw0 25 22 → rings →
      (ringFree s P e ≠ 0 → ∃ t, exec (.epilogueOutput T) s = .next t ∧ (t.tile T).jobs = jobs ∧ (t.tile T).dhead = x.dhead
        ∧ t.mem.bytes a n = bs ∧ lands t)
      ∧ (ringFree s P e = 0 → ∃ t, exec (.epilogueOutput T) s = .next t ∧ (∀ i, t.tile i = s.tile i) ∧ t.mem = s.mem))
    ∧ (x.follow[k]? = some f → ringEntry s f.ring.cl f.ring.id = some e → e.broken = false → head ≠ s.mem.nat (sramLoc f.ring.cl e.addr + 12) 4 →
      x.queue.length < 16 → s.holdsRecord (.matrix T) = false → followOp f ⟨f.ring.cl, e.id, e.addr, head⟩ = some op →
      ∃ t, exec (.copymFollowOnEnter T k) s = .next t ∧ (t.tile T).queue = x.queue ++ [⟨op, f.core, f.seq, f.pc, f.tenant, f.kid, true⟩]
        ∧ (t.tile T).follow = x.follow.eraseIdx k ∧ t.mem = s.mem ∧ (∀ u, t.core u = s.core u)
        ∧ (t.cluster f.ring.cl).holds = (s.cluster f.ring.cl).holds ++ [⟨f.ring.cl, e.id, e.addr, head⟩])


/-! ## The Millpond -/

/-- A step that leaves core u retired in sequence with its register files as they were. -/
def RetiresAs (i : Instr) (s : State) (p : State → Prop) : Prop :=
  ∃ t, exec i s = .next t ∧ Sequenced (s.core s.cur) (t.core s.cur) ∧ (t.core s.cur).g = (s.core s.cur).g
    ∧ (t.core s.cur).v = (s.core s.cur).v ∧ (∀ w, w ≠ s.cur → t.core w = s.core w) ∧ p t

/-- R252, R260, R274, R277 to R282: the event instructions. EVUPD and EVFAN send outside an activation and join its outbox inside one, where a full outbox first leaves in
program order and the activation can be restarted no more; EVUPDT waits for the home's answer,
or traps on a full outbox or segment; EVPEEK gives the value pending for a key; EVDONE ends an activation after its outbox; VTSET raises VT, VTGET, VTLOW and
EVSTAT read; and the checks of R274 in their order. -/
def Obligations.EventInstructions : Prop :=
  ∀ (s s1 : State) (d a b : GReg) (st : BitVec 3) (sel : BitVec 7) (slot : Nat) (x : StoreDecl) (bs : List Byte),
    let me := s.cur
    let c := s.core me
    let P := clusterOf me
    let S := st.toNat
    let k := s.rg a
    let key := k.toNat % 2 ^ 40
    let val := if x.opr = 2 ∨ x.opr = 8 then s.rg b else word ((s.rg b).toNat % 2 ^ 32)
    let found := findStore s c.ctx.kern S = some (slot, x)
    let level := c.ctx.det ≠ 3 ∨ x.opr ≠ 0
    let act := isAct s me = true
    let upd := updateOf s me S key val c.vt none
    let updT := updateOf s me S key val c.vt (some me)
    let joins := fun (t : State) (e : OutEntry) => (t.core me).outbox = c.outbox ++ [e] ∧ t.upds = s.upds ∧ t.fansOut = s.fansOut ∧ t.mem = s.mem
    let y := s.slice (homeOf s S key) slot
    let n := seqAfter c.seqNo
    let pending := match y.entries.find? (fun e => e.key == key) with | some e => extendValue x.opr e.val | none => absentValue x.opr
    (found → k.toNat < 2 ^ 40 → level →
      (¬ act → RetiresAs (.evupd st a b) s (fun t => t.upds = s.upds ++ [upd] ∧ t.mem = s.mem ∧ (t.core me).outbox = c.outbox))
      ∧ (act → c.outbox.length < 128 → RetiresAs (.evupd st a b) s (fun t => joins t (.update S key val c.vt))
          ∧ RetiresAs (.evupdt st a b) s (fun t => joins t (.update S key val c.vt)))
      ∧ (act → 128 ≤ c.outbox.length → TrapsWith (.evupdt st a b) s .outboxFull 0)
      ∧ (¬ act → s.eager = false → ∃ t, exec (.evupdt st a b) s = .next t ∧ t.upds = s.upds ++ [updT] ∧ t.mem = s.mem
          ∧ (t.core me).wait = .request ∧ (t.core me).pc = c.pc ∧ (t.core me).g = c.g)
      ∧ (¬ act → s.eager = true → LinksUp s → aheadOf s s.upds.length updT = [] → fanBefore s updT = false →
          (homeFull s updT = false → arrive s updT = some s1 →
            ∃ t, exec (.evupdt st a b) s = .next t ∧ Sequenced c (t.core me) ∧ (t.core me).g = c.g ∧ t.clusters = s1.clusters ∧ t.mem = s1.mem
              ∧ t.upds = s.upds)
          ∧ (homeFull s updT = false → x.det = 0 → y.entries.any (fun e => e.key == key) = true →
            RetiresAs (.evupdt st a b) s (fun t => t.upds = s.upds ∧ t.mem = s.mem ∧ t.slice (homeOf s S key) slot =
              { y with entries := y.entries.map (fun e => if e.key = key then foldEntry x.opr e ⟨key, val, c.vt, updT.tag⟩ else e) }))
          ∧ (homeFull s updT = true → TrapsWith (.evupdt st a b) s .evOverflow 0)))
    ∧ (found → k.toNat < 2 ^ 32 → level → x.ftab ≠ 0 →
      (act → c.outbox.length < 128 → RetiresAs (.evfan st a b) s (fun t => joins t (.fan S k.toNat (s.rg b) c.vt c.pc n)
          ∧ (t.core me).seqNo = n ∧ mfind (t.core me).elog (n.toNat % 32) = some ⟨3, c.pc, 0, false, 30, n⟩))
      ∧ (¬ act → s.holdsRecord (.fanout P) = false → loadBytes (clusterWho (some c.ctx.tenant) P) (x.ftab + word (8 * k.toNat)) 8 s = .ok (bs, s1) →
          (let targets := (List.range s.nlive).filter (fun j => Nat.testBit (leNat bs) j)
           let f : FanSource := ⟨c.ctx.kern, S, k.toNat, s.rg b, c.vt, senderTag s me, c.ctx.det, me, n, c.pc, c.ctx.tenant, c.ctx.kern.kid, targets, s.now⟩
           ∃ t, exec (.evfan st a b) s = .next t ∧ Sequenced c (t.core me) ∧ (t.core me).g = c.g ∧ t.mem = s1.mem ∧ (t.core me).seqNo = n
             ∧ t.fansOut = if targets = [] then s.fansOut else s.fansOut ++ [f])))
    ∧ (found → k.toNat < 2 ^ 40 → c.ctx.det = 0 → s.eager = true → LinksUp s → WritesG (.evpeek d a st) s d pending)
    ∧ (found → k.toNat < 2 ^ 40 → c.ctx.det = 0 → s.eager = false → ∃ t r, exec (.evpeek d a st) s = .next t ∧ t.reqs = s.reqs ++ [r]
        ∧ r.kind = .peek S key c.ctx.kern ∧ r.core = some me ∧ r.d = d ∧ (t.core me).wait = .request ∧ (t.core me).g = c.g ∧ t.mem = s.mem)
    ∧ (findStore s c.ctx.kern S = none → ∀ i ∈ [Instr.evupd st a b, .evupdt st a b, .evfan st a b, .evpeek d a st], TrapsWith i s .formatFault 0)
    ∧ (found → 2 ^ 40 ≤ k.toNat → ∀ i ∈ [Instr.evupd st a b, .evupdt st a b, .evpeek d a st], TrapsWith i s .formatFault 0)
    ∧ (found → (x.ftab = 0 ∨ 2 ^ 32 ≤ k.toNat) → TrapsWith (.evfan st a b) s .formatFault 0)
    ∧ (found → k.toNat < 2 ^ 40 → c.ctx.det ≠ 0 → TrapsWith (.evpeek d a st) s .detLevel 0)
    ∧ (found → k.toNat < 2 ^ 40 → ¬ level → ∀ i ∈ [Instr.evupd st a b, .evupdt st a b], TrapsWith i s .detLevel 0)
    ∧ (found → x.ftab ≠ 0 → k.toNat < 2 ^ 32 → ¬ level → TrapsWith (.evfan st a b) s .detLevel 0)
    ∧ (found → level → act → 128 ≤ c.outbox.length → (∀ e ∈ c.outbox, ∃ S' K v vt, e = .update S' K v vt) →
        let early := fun (e : OutEntry) (t : State) => (t.core me).outbox = [e] ∧ t.mem = s.mem ∧ t.fansOut = s.fansOut
          ∧ t.upds.take s.upds.length = s.upds ∧ (t.upds.drop s.upds.length).map (fun q => OutEntry.update q.st q.key q.val q.vt) = c.outbox
          ∧ ∀ z, t.taskOf me = some z → z.act.any (fun q => q.nrst) = true
        (k.toNat < 2 ^ 40 → RetiresAs (.evupd st a b) s (early (.update S key val c.vt)))
        ∧ (x.ftab ≠ 0 → k.toNat < 2 ^ 32 → RetiresAs (.evfan st a b) s (fun t => early (.fan S k.toNat (s.rg b) c.vt c.pc n) t ∧ (t.core me).seqNo = n)))
    ∧ (act → c.outbox = [] → ∃ t, exec .evdone s = .next t ∧ (t.core me).status = .free ∧ (t.core me).task = none ∧ t.upds = s.upds)
    ∧ (act → ∀ K v vt, c.outbox = [.update S K v vt] → ∃ t, exec .evdone s = .next t ∧ (t.core me).status = .free
        ∧ t.upds = s.upds ++ [updateOf s me S K v vt none])
    ∧ (¬ act → TrapsWith .evdone s .illegalOp 0)
    ∧ Completes (.vtset a) s (s.modCore me (fun z => { z with vt := if c.vt.toNat < k.toNat then k else c.vt }))
    ∧ WritesG (.vtget d) s d c.vt ∧ WritesG (.vtlow d) s d s.beaconB
    ∧ (sel = 0 → s.beaconQ = true ∧ c.sentSince = false → CompletesG (.evstat d sel) s (acquire s me) d 1)
    ∧ (sel = 0 → s.beaconQ = false ∨ c.sentSince = true → WritesG (.evstat d sel) s d 0)
    ∧ (sel = 1 → WritesG (.evstat d sel) s d s.beaconB)
    ∧ (sel.toNat = 8 + S → (found → (s.slice P slot).entries.length < 2 ^ 32 → ∃ w, WritesG (.evstat d sel) s d w ∧ w.getLsbD 63 = true
          ∧ w.getLsbD 62 = (s.slice P slot).ovf ∧ w.getLsbD 61 = (s.slice P slot).late
          ∧ w.toNat % 2 ^ 61 = (s.slice P slot).recs % 2 ^ 29 * 2 ^ 32 + (s.slice P slot).entries.length)
        ∧ (findStore s c.ctx.kern S = none → WritesG (.evstat d sel) s d 0))
    ∧ (sel.toNat = 16 + S → found → WritesG (.evstat d sel) s d (match (s.slice P slot).phase with | some p => word p | none => -1))
    ∧ ((2 ≤ sel.toNat ∧ sel.toNat < 8 ∨ 24 ≤ sel.toNat) → TrapsWith (.evstat d sel) s .illegalOp 0)

/-- An address at which an overflow segment may lie for the task of the core whose turn it is: page-mapped memory of this device, mapped, with no translation of an older
entry held, neither UO nor replicated, the rights RD and W in the table and in what the core's PLB holds of it (R92, R275). -/
def SegmentAt (s : State) (va : Word) : Prop :=
  let c := s.core s.cur
  let ok := fun (r : Byte) => r.getLsbD 0 = true ∧ r.getLsbD 1 = true
  regionOf s (clusterOf s.cur) va = .mapped ∧ endpointOf va = 0 ∧ ∃ pte big, walk s va = .leaf pte big
    ∧ (∀ e ∈ s.tcache, e.covers va = true → e.pte = pte ∧ e.big = big) ∧ inHbm (ptePa pte + va.toNat % (if big then 2 ^ 25 else 2 ^ 16)) 1 = true
    ∧ pteKind pte ≠ 2 ∧ bitAt pte 5 = false ∧ ok (s.rightsOf c.ctx.tenant (pteDom pte)) ∧ ∀ p ∈ c.plb, p.1 = pteDom pte → ok p.2

/-- R246, R247, R275, R276: EVDECL reads a declaration of 64 bytes, checks it, the levels, the places and the overflow segment, and declares the store for its kernel
in a free slot; EVDROP waits until nothing of the store is on its way, removes it and writes the count of what it held. -/
def Obligations.StoresAreDeclared : Prop :=
  ∀ (s s0 s1 s2 : State) (st : BitVec 3) (a : GReg) (ps : List Piece) (bs : List Byte) (slot o : Nat) (x : StoreDecl),
    let me := s.cur
    let c := (s.core me).ctx
    let va := s.rg a
    let w := dwordsOf bs 8
    let d := declOf c st.toNat w
    let loc := sramLoc (clusterOf me) o
    let read := va.toNat % 64 = 0 ∧ inLocalWin va = true ∧ resolve s.me .load va 64 s = .ok (ps, s0) ∧ noPoison s.me ps s0 = .ok ((), s0)
      ∧ readPieces s.me ps s0 = .ok (bs, s1)
    let fresh := declOk w = true ∧ findStore s1 c.kern st.toNat = none
    let level := ∀ y ∈ s.stores, y.2.kern = c.kern ∨ c.det = 0 ∧ y.2.det = 0
    let room := s.stores.length < 64 ∧ s.stores.foldl (fun n y => n + y.2.cap) d.cap ≤ 16384
    let free := lowestFree (s.stores.map (fun y => y.1)) 64 = some slot
    let held := findStore s c.kern st.toNat = some (slot, x)
    let idle := storeIdle s slot x = true ∧ (x.det ≠ 0 → (storesOf s c.kern).length = 1 → messagesIdle s c.kern = true)
    let gone := dropStores s (fun y => y.kern == c.kern && y.st == st.toNat)
    (va = localVa o → o % 64 = 0 → ReachesScratchpad s o 64 0 → Quiet s me → ReadsNow s me → s.mem.poison.contains (loc / 64) = false →
        bs = s.mem.bytes loc 64 → declOk w = true → findStore s c.kern st.toNat = none → level → room → free →
        (∀ k, k < 64 * 2 ^ d.lseg → SegmentAt s (d.ovb + word k)) →
        ∃ s3, Completes (.evdecl st a) s { s3 with stores := mset s.stores slot d } ∧ Accessed s s3 ∧ s3.mem = s.mem)
    ∧ (read → fresh → level → room → checkSegments s.me (rangeParts d.ovb (64 * 2 ^ d.lseg)) s1 = .ok ((), s2) → free →
        Completes (.evdecl st a) s { s2 with stores := mset s.stores slot d } ∧ s2.mem = s1.mem)
    ∧ (read → ¬ fresh → TrapsWith (.evdecl st a) s .formatFault 0)
    ∧ (read → fresh → ¬ level → TrapsWith (.evdecl st a) s .detLevel 0)
    ∧ (read → fresh → level → ¬ room → TrapsWith (.evdecl st a) s .evOverflow 0)
    ∧ (va.toNat % 64 ≠ 0 → TrapsWith (.evdecl st a) s .align va)
    ∧ (va.toNat % 64 = 0 → inLocalWin va = false → TrapsWith (.evdecl st a) s .plbDeny va)
    ∧ (findStore s c.kern st.toNat = none → TrapsWith (.evdrop st a) s .formatFault 0)
    ∧ (held → va = 0 → idle → Completes (.evdrop st a) s gone ∧ findStore gone c.kern st.toNat = none ∧ gone.mem = s.mem)
    ∧ (held → va = 0 → ¬ idle → exec (.evdrop st a) s = .next s)
    ∧ (held → va ≠ 0 → idle → va.toNat % 8 = 0 → inLocalWin va = true → resolve s.me .store va 8 s = .ok (ps, s) → ringsFree ps s = .ok ((), s) →
        noDead ps s = .ok ((), s) → storeScalar va 8 (word (storeHeld s slot)) false gone = .ok ((), s1) → Completes (.evdrop st a) s s1)

/-- R250 to R257, R259, R262 to R264, R267, R270, R271, R277, R283: what the Millpond does by itself. An update at its home folds into the entry of its key or becomes a
new one, or is parked in its window at D1 and above, and an EVUPDT is answered; the Sluice seals the eligible entry of highest priority as an activation; a window's
phase folds what was parked; a store below half capacity refills; a fan-out source brings its updates; a free core starts an activation; an error ends the
kernels with a store and quarantines its cluster. The refusal of an EVUPDT at a full home is the model's reading (log entry 41). -/
def Obligations.MillpondMoves : Prop :=
  ∀ (s s1 s2 : State) (k slot P i L w0 : Nat) (u : Update) (x : StoreDecl) (e : Entry) (win : Option Nat) (f : FanSource) (task : Task) (it : Item)
    (blk : Word),
    let home := homeOf s u.st u.key
    let y := s.slice home slot
    let item : Item := ⟨u.key, u.val, u.vt, u.tag⟩
    let first := aheadOf s k u = [] ∧ fanBefore s u = false ∧ LinksUp s ∧ u.moved = none
    let at_ := s.upds[k]? = some u ∧ first ∧ findStore s u.kern u.st = some (slot, x) ∧ (u.reply.isSome = true → homeFull s u = false)
    let answered := fun (t : State) => t.upds = s.upds.eraseIdx k ∧ t.mem = s.mem ∧ (∀ v, u.reply = some v → (t.core v).pop = some (.val 0))
      ∧ ∀ v, (t.core v).g = (s.core v).g ∧ (t.core v).pc = (s.core v).pc
    let z := s.slice P slot
    (at_ → x.det = 0 → y.entries.any (fun n => n.key == u.key) = true → ∃ t, exec (.updateArrival k) s = .next t ∧ answered t
        ∧ t.slice home slot = { y with entries := y.entries.map (fun n => if n.key = u.key then foldEntry x.opr n item else n) })
    ∧ (at_ → x.det = 0 → y.entries.any (fun n => n.key == u.key) = false → y.entries.length < x.cap →
        ∃ t, exec (.updateArrival k) s = .next t ∧ answered t ∧ t.slice home slot = { y with nextIns := y.nextIns + 1, entries := y.entries ++
          [⟨u.key, if (x.opr = 0 ∨ x.opr = 4 ∨ x.opr = 6) ∧ f32 u.val.toNat = .nan then 0x7FC00000 else u.val, u.vt, u.tag, y.nextIns⟩] })
    ∧ (at_ → x.det ≠ 0 → windowClosed s.beaconB.toNat x.win (u.vt.toNat / x.win) = false → parkedCount s home < 4096 →
        ∃ t, exec (.updateArrival k) s = .next t ∧ answered t ∧ t.slice home slot = { y with parked := y.parked ++ [(u.vt.toNat / x.win, u)] })
    ∧ (s.upds[k]? = some u → first → u.reply.isSome = true → homeFull s u = true → ∃ t, exec (.updateArrival k) s = .next t
        ∧ t.upds = s.upds.eraseIdx k ∧ t.clusters = s.clusters ∧ ∀ v, u.reply = some v → (t.core v).pop = some (.fail .evOverflow 0 0 0 0 0))
    ∧ (∀ v q : Word, foldValue 1 v q = word ((v + q).toNat % 2 ^ 32) ∧ foldValue 2 v q = v + q ∧ foldValue 7 v q = v ||| q
        ∧ foldValue 3 v q = (if ((v.setWidth 32).toInt ≤ (q.setWidth 32).toInt) then v else q)
        ∧ foldValue 5 v q = (if ((v.setWidth 32).toInt ≤ (q.setWidth 32).toInt) then q else v))
    ∧ ((s.cluster P).rotate % 64 = slot → mfind s.stores slot = some x → nextSeal s P slot x = some (e, win) → freeEntry (s.cluster P) = some i →
        ∃ t a, exec (.sluiceSeal P) s = .next t ∧ (t.slice P slot).entries = z.entries.filter (fun n => n.key ≠ e.key) ∧ t.mem = s.mem
          ∧ mfind (t.cluster P).tcbs i = some a ∧ a.kind = .activation ∧ a.entry = x.hpc ∧ a.kern = x.kern
          ∧ a.args = [word e.key, extendValue x.opr e.val, word x.st, word (priorityOf x.opr e.val)]
          ∧ (∀ j, j ≠ i → mfind (t.cluster P).tcbs j = mfind (s.cluster P).tcbs j) ∧ ∀ v, t.core v = s.core v)
    ∧ (x.det = 0 → nextSeal s P slot x = some (e, win) → e ∈ z.entries ∧ eligible x e = true
        ∧ (x.opr ≠ 8 → ∀ n ∈ z.entries, eligible x n = true → priorityOf x.opr n.val ≤ priorityOf x.opr e.val))
    ∧ (mfind s.stores slot = some x → x.det = 0 → x.cap / 2 ≤ z.entries.length → exec (.refill P slot) s = .next s)
    ∧ (mfind s.stores slot = some x → x.det = 0 → z.entries.length < x.cap / 2 → z.wins[0]? = some none → 0 < z.recs →
        takeRecord s P slot x 0 = .ok (it, s1) → foldIn s1 P slot x it = some s2 → x.cap / 2 ≤ (s2.slice P slot).entries.length →
        exec (.refill P slot) s = .next s2)
    ∧ (mfind s.stores slot = some x → x.det ≠ 0 → (s.cluster P).parkedM = [] → z.sealing = [] → z.busy = none → z.wins = [] → z.tail = z.head →
        (s.cluster P).slices.any (fun q => q.2.busy.isSome) = false → (∀ q ∈ s.stores, q.1 = slot ∨ q.2.det = 0 ∨ (s.slice P q.1).windows = []) →
        (z.parked = [] → z.entries.any (eligible x) = false → ∃ t, exec (.windowPhase P slot) s = .next t
          ∧ t.slice P slot = { z with phase := laterWindow z.phase (lastClosed s.beaconB.toNat x.win) } ∧ t.mem = s.mem)
        ∧ (z.parked = [(w0, u)] → z.entries = [] → 0 < x.cap → windowClosed s.beaconB.toNat x.win w0 = true →
            ∃ t n, exec (.windowPhase P slot) s = .next t ∧ (t.slice P slot).parked = [] ∧ (t.slice P slot).entries = [n] ∧ n.key = u.key
              ∧ n.tag = u.tag ∧ n.vmax = u.vt
              ∧ (if eligible x n = true then (t.slice P slot).busy = some w0 ∧ (t.slice P slot).sealing = [n.key]
                 else (t.slice P slot).busy = none ∧ (t.slice P slot).phase = some w0)))
    ∧ ((s.fansOut.filter (fun q => q.targets.contains (s.logicalNo P)))[k]? = some f → s.holdsRecord (.fanout P) = false → LinksUp s →
        findStore s f.kern f.st = some (slot, x) →
        (let gone := { s with fansOut := (s.fansOut.map (fun (q : FanSource) =>
           if q = f then { q with targets := q.targets.erase (s.logicalNo P) } else q)).filter (fun q => !q.targets.isEmpty) }
         let who := clusterWho (some f.tenant) P
         let start := if x.dlog = 0 then 0 else (kh (word f.src)).toNat / 2 ^ (64 - x.dlog)
         (findSource who x.dir x.dlog f.src (2 ^ x.dlog) start gone = .ok (none, s1) → exec (.fanoutSourceArrival P k) s = .next s1)
         ∧ (findSource who x.dir x.dlog f.src (2 ^ x.dlog) start gone = .ok (some blk, s1) →
             fanUpdates who x f (fld blk 21 0) (fld blk 47 32) 0 s1 = (.ok (), s2) → exec (.fanoutSourceArrival P k) s = .next s2)))
    ∧ (turnOf s L = true → pickWork s L = some i → mfind (s.cluster (clusterOf L)).tcbs i = some task → task.act.isSome = true →
        task.stowed = false → ∃ t, exec (.activationStart L) s = .next t ∧ (t.core L).status = .running ∧ (t.core L).task = some i
          ∧ (t.core L).pc = task.entry ∧ (t.core L).vt = task.vt ∧ t.mem = s.mem
          ∧ ∀ r, (t.core L).rg r = if 2 ≤ r.toNat ∧ r.toNat < 8 then task.args.getD (r.toNat - 2) 0 else 0)
    ∧ (P ∈ s.lmap → ∃ t, exec (.sliceError P) s = .next t ∧ t.quarCl.contains P = true)
    ∧ (s.stores = [] → exec (.sliceError P) s = exec (.clusterQuarantine P) s)
    ∧ (∀ q, mfind s.stores slot = some x → (mfind s.queues x.kern.queue).bind (fun y => y.kern) = some q → q.kid = x.kern.kid → q.ended = false →
        s.stores = [(slot, x)] → ∃ t, exec (.sliceError P) s = .next t ∧ t.stores = [] ∧ findStore t x.kern x.st = none)

/-- R22, R266, R267, R269, R280, R336: a publication: B is 0 without a declared store and otherwise never falls; on a device without a parent it is no more than the virtual
time of any running task of a kernel with a store, and Q holds exactly when the package and its children are quiescent and the counts of remote accesses agree in two rounds; a device
with a parent takes both from the root; its own record goes up; every core counts its sendings anew. What parked traffic adds to B is the model's reading (log entry 40). -/
def Obligations.BeaconPublishes : Prop :=
  ∀ (s : State) (u : Nat),
    let r := ownRecord s
    ∃ t, exec .beaconPublication s = .next t ∧ (s.stores = [] → t.beaconB = 0)
      ∧ (s.net.parent = none → (t.beaconQ = true ↔ quiescent s = true ∧ r.sent = r.performed ∧ remoteTotals s = s.net.totals))
      ∧ (s.net.parent ≠ none → t.beaconQ = s.net.global.2 ∧ (s.stores ≠ [] → t.beaconB.toNat = max s.beaconB.toNat s.net.global.1.toNat))
      ∧ (s.stores ≠ [] → s.beaconB.toNat ≤ t.beaconB.toNat)
      ∧ (s.net.parent = none → s.stores ≠ [] → mfind s.cores u ≠ none → (s.core u).task.isSome = true → holdsStore s (s.core u).ctx.kern = true →
          t.beaconB.toNat ≤ max s.beaconB.toNat (s.core u).vt.toNat)
      ∧ t.net.up = some r ∧ (r.sent, r.performed) = remoteTotals s ∧ r.q = quiescent s
      ∧ (∀ v, t.core v = { s.core v with sentSince := false }) ∧ t.mem = s.mem ∧ t.clusters = s.clusters ∧ t.upds = s.upds


/-! ## Tasks -/

/-- The registers of a core that starts a task afresh (R292): ENTRY, the arguments in g2 to g7, all other general registers 0, its virtual time. -/
def StartsAt (c : Core) (i : Nat) (x : Task) : Prop :=
  c.status = .running ∧ c.task = some i ∧ c.pc = x.entry ∧ c.vt = x.vt ∧ c.lcnt = 0 ∧ c.lend = 0
    ∧ ∀ r, c.rg r = if 2 ≤ r.toNat ∧ r.toNat < 8 then x.args.getD (r.toNat - 2) 0 else 0

/-- R301 to R304: EBSET and EBCLR send a range of event bits to the cluster's scheduler and retire when it has applied them, EBWAIT retires when every bit of its range
holds, clearing them if it consumes; a task that waits for bits becomes ready with them, consuming unless it keeps. A register that holds no range raises
FORMAT_FAULT. -/
def Obligations.EventBits : Prop :=
  ∀ (s : State) (a : GReg) (u i : Nat) (task : Task) (m : BitVec 256),
    let me := s.cur
    let P := clusterOf me
    let x := (s.rg a).toNat
    let first := x % 256
    let count := x / 256 % 256 + 1
    let range := x < 2 ^ 17 ∧ first + count ≤ 256
    let mask := BitVec.ofNat 256 ((2 ^ count - 1) * 2 ^ first)
    let consume := (s.rg a).getLsbD 16
    let bits := (s.cluster P).ebits
    let noneWaits := fun (K : Nat) => ∀ p ∈ (s.cluster K).tcbs, p.2.status ≠ .waiting
    let alone := noneWaits P ∧ (s.cluster P).ebq = [] ∧ ∀ v, v ≠ me → ∀ n k, (s.core v).wait ≠ .ebWait n k
    let Q := clusterOf u
    (range → consume = false → s.eager = false →
      (∃ t, exec (.ebset a) s = .next t ∧ (t.cluster P).ebq = (s.cluster P).ebq ++ [⟨me, true, mask⟩] ∧ (t.core me).wait = .ebApply
          ∧ (t.cluster P).ebits = bits ∧ t.mem = (releaseTo s me 2).mem ∧ (t.core me).g = (s.core me).g)
      ∧ (∃ t, exec (.ebclr a) s = .next t ∧ (t.cluster P).ebq = (s.cluster P).ebq ++ [⟨me, false, mask⟩] ∧ (t.core me).wait = .ebApply
          ∧ (t.cluster P).ebits = bits ∧ t.mem = s.mem ∧ (t.core me).g = (s.core me).g))
    ∧ (range → consume = false → s.eager = true → alone →
      (∃ t, exec (.ebset a) s = .next t ∧ Sequenced (s.core me) (t.core me) ∧ (t.core me).g = (s.core me).g ∧ (t.cluster P).ebits = bits ||| mask)
      ∧ RetiresAs (.ebclr a) s (fun t => (t.cluster P).ebits = bits &&& ~~~mask ∧ t.mem = s.mem))
    ∧ (range → s.eager = false → ∃ t, exec (.ebwait a) s = .next t ∧ OnlyCore s t me
        ∧ t.core me = { s.core me with wait := .ebWait mask consume })
    ∧ (range → s.eager = true → alone → bits &&& mask = mask →
        RetiresAs (.ebwait a) s (fun t => (t.cluster P).ebits = (if consume then bits &&& ~~~mask else bits) ∧ t.mem = s.mem))
    ∧ (¬ range → ∀ j ∈ [Instr.ebset a, .ebclr a, .ebwait a], TrapsWith j s .formatFault 0)
    ∧ (range → consume = true → ∀ j ∈ [Instr.ebset a, .ebclr a], TrapsWith j s .formatFault 0)
    ∧ ((s.cluster Q).ebq = [⟨u, true, m⟩] → (s.core u).wait = .ebApply → noneWaits Q → parkedEbwaits s Q = [] →
        ∃ t, exec (.eventBitCycle Q) s = .next t ∧ (t.cluster Q).ebits = (s.cluster Q).ebits ||| m ∧ (t.cluster Q).ebq = []
          ∧ Sequenced (s.core u) (t.core u) ∧ (t.core u).wait = .none ∧ (∀ v, v ≠ u → t.core v = s.core v) ∧ t.mem = s.mem)
    ∧ ((s.cluster P).ebq = [] → mwf (s.cluster P).tcbs = true → mfind (s.cluster P).tcbs i = some task → task.status = .waiting →
        (∀ p ∈ (s.cluster P).tcbs, p.2.status = .waiting → p.1 = i) → parkedEbwaits s P = [] →
        ∃ t y, exec (.eventBitCycle P) s = .next t ∧ mfind (t.cluster P).tcbs i = some y ∧ (∀ v, t.core v = s.core v)
          ∧ (bits &&& task.wait = task.wait → y.status = .ready ∧ (t.cluster P).ebits = (if task.keep then bits else bits &&& ~~~task.wait)
              ∧ mget (t.cluster P).ready task.pri [] = mget (s.cluster P).ready task.pri [] ++ [i])
          ∧ (bits &&& task.wait ≠ task.wait → y = task ∧ (t.cluster P).ebits = bits))

/-- R291, R296, R308, R309, R312, R313: SPAWN admits a checked TCB, FORK makes a child on the core's deque or at the home of its path and counts an arm, JOIN goes on
with the last arm and else ends like EXIT, EXIT frees the core, YIELD gives way to ready work, GBAR waits for its gang, TPATH and GID read; each with its traps. That
FORK waits for a cache entry before it counts its arm is the model's reading (log entry 23). -/
def Obligations.TaskInstructions : Prop :=
  ∀ (s s1 s2 : State) (d a : GReg) (off : Word) (sel : BitVec 7) (i k o : Nat) (task : Task) (bs : List Byte) (old : Word) (v : Word),
    let me := s.cur
    let c := s.core me
    let P := clusterOf me
    let va := s.rg a
    let act := isAct s me = true
    let runs := c.task = some i ∧ mfind (s.cluster P).tcbs i = some task
    let kids := fun (p : Option Task) => (p.map (fun x => x.kind.lower)).getD false
    let child := fun (t : State) (k : Nat) (Q : Nat) (o : Word) => ∃ y, mfind (t.cluster Q).tcbs k = some y ∧ y.kind = .child ∧ y.entry = s.pc + off + off
      ∧ y.args = [c.rg 2, c.rg 3, c.rg 4, c.rg 5, c.rg 6, c.rg 7] ∧ y.path = c.ctx.path <<< 1 ||| 1 ∧ y.jaddr = c.ctx.jaddr ∧ y.kern = c.ctx.kern
      ∧ y.det = c.ctx.det ∧ y.ord = BitVec.ofNat 32 (o.toNat / 2 ^ 32) ∧ y.vt = c.vt
    let forks := fun (t : State) => Sequenced c (t.core me) ∧ (t.core me).g = c.g ∧ (t.core me).ctx.path = c.ctx.path <<< 1
    let idle := c.lcnt = 0 ∧ bitAt c.lend 0 = false
    let counted := if c.ctx.jaddr = 0 then old = 0 ∧ s1 = s else joinAccess c.ctx.jaddr joinMore s = .ok (old, s1)
    let mayJoin := ¬ act ∧ kids (s.taskOf me) = false ∧ idle
    let tcb : Tcb := ⟨dwordsOf bs 24⟩
    let home := match tcb.named with | some L => physOf s L | none => P
    let spawned := bindCore s1 c.ctx.kern.queue home c.ctx.det tcb.gang
    let kidHome := physOf s (homeOfHash s (kh (c.ctx.path <<< 1 ||| 1)))
    let loc := sramLoc P o
    (idle → bitAt c.ctx.path 62 = false → counted → c.ctx.det ≤ 1 → kids (s.taskOf me) = false → (s1.core me).deque.length < 32 →
        freeEntry (s.cluster P) = some k → ∃ t, exec (.fork off) s = .next t ∧ forks t ∧ child t k P old ∧ t.mem = s1.mem
          ∧ (t.core me).deque = k :: (s1.core me).deque)
    ∧ (idle → bitAt c.ctx.path 62 = false → counted → 2 ≤ c.ctx.det → freeEntry (s.cluster kidHome) = some k →
        ∃ t, exec (.fork off) s = .next t ∧ forks t ∧ child t k kidHome old ∧ t.mem = s1.mem)
    ∧ (idle → bitAt c.ctx.path 62 = false → freeEntry (s.cluster (if 2 ≤ c.ctx.det then kidHome else P)) = none → exec (.fork off) s = .next s)
    ∧ (¬ idle → TrapsWith (.fork off) s .illegalOp 0)
    ∧ (idle → bitAt c.ctx.path 62 = true → TrapsWith (.fork off) s .formatFault 0)
    ∧ (mayJoin → joinAccess va joinLess (releaseTo s me 5) = .ok (old, s1) →
        (old.toNat % 2 ^ 32 = 1 → Completes (.join a) s (acquire s1 me))
        ∧ (old.toNat % 2 ^ 32 ≠ 1 → ∃ t, exec (.join a) s = .next t ∧ (t.core me).status = .free ∧ (t.core me).task = none))
    ∧ (mayJoin → va = localVa o → o % 8 = 0 → (∀ right ∈ [0, 1, 4], ReachesScratchpad s o 8 right) → Settled s me → (s.cluster P).rings = [] →
        s.mem.poison.contains (loc / 64) = false → s.holdsRecord (.net P) = false → old = word (s.mem.nat loc 8) →
        (old.toNat % 2 ^ 32 = 1 → ∃ t, exec (.join a) s = .next t ∧ Sequenced c (t.core me) ∧ (t.core me).g = c.g ∧ (t.core me).v = c.v
          ∧ t.mem.nat loc 8 = old.toNat - 1 ∧ ∀ x, x < loc ∨ loc + 8 ≤ x → t.mem.peek x = s.mem.peek x)
        ∧ (1 < old.toNat % 2 ^ 32 → ∃ t, exec (.join a) s = .next t ∧ (t.core me).status = .free ∧ (t.core me).task = none)
        ∧ (old.toNat % 2 ^ 32 = 0 → TrapsWith (.join a) s .formatFault va))
    ∧ (¬ mayJoin → TrapsWith (.join a) s .illegalOp 0)
    ∧ (∀ p loc, va.toNat % 8 = 0 → resolve s.me .atomic va 8 s = .ok ([p], s1) → p.place = .mem loc → p.kind ≠ 2 → p.repl = false →
        ringsFree [p] s1 = .ok ((), s1) → p.cut = none → s.holdsRecord (.net P) = false → locPoisoned s loc = false → Quiet s me → joinLess (word (s.mem.nat loc 8)) = some v →
        ∃ t, joinAccess va joinLess s = .ok (word (s.mem.nat loc 8), t) ∧ t.mem.nat loc 8 = v.toNat
          ∧ ∀ x, x < loc ∨ loc + 8 ≤ x → t.mem.peek x = s.mem.peek x)
    ∧ (∀ w : Word, joinMore w = some (w + 0x100000001) ∧ (w.toNat % 2 ^ 32 ≠ 0 → joinLess w = some (w - 1)) ∧ (w.toNat % 2 ^ 32 = 0 → joinLess w = none))
    ∧ (va.toNat % 64 = 0 → loadBytes s.me va 192 s = .ok (bs, s1) → tcb.ok s1 home = true → (s.cluster home).backlog.length < 2 ^ 20 → tcb.dw 9 = 0 →
        CompletesG (.spawn d a) s (admitTask spawned.2 home (tcb.task spawned.2 P c.ctx.kern c.ctx.tenant c.ctx.det (tcb.dw 15) va spawned.1)) d 0)
    ∧ (va.toNat % 64 = 0 → loadBytes s.me va 192 s = .ok (bs, s1) → tcb.ok s1 home = true → (s1.cluster home).backlog.length < 2 ^ 20 → tcb.dw 9 ≠ 0 →
        joinAccess (tcb.dw 9) joinMore s1 = .ok (old, s2) →
        (let b := bindCore s2 c.ctx.kern.queue home c.ctx.det tcb.gang
         CompletesG (.spawn d a) s (admitTask b.2 home (tcb.task b.2 P c.ctx.kern c.ctx.tenant c.ctx.det (old >>> 32) va b.1)) d (old >>> 32)))
    ∧ (va = localVa o → o % 64 = 0 → o + 192 ≤ 2 ^ 22 → (∀ k, k < 192 → ReachesScratchpad s (o + k) 1 0 ∧ s.mem.poison.contains ((loc + k) / 64) = false) →
        Quiet s me → ReadsNow s me → bs = s.mem.bytes loc 192 → tcb.ok s home = true → (s.cluster home).backlog.length < 2 ^ 20 → tcb.dw 9 = 0 →
        ∃ s3, Accessed s s3 ∧ s3.mem = s.mem ∧ (let b := bindCore s3 c.ctx.kern.queue home c.ctx.det tcb.gang
          CompletesG (.spawn d a) s (admitTask b.2 home (tcb.task b.2 P c.ctx.kern c.ctx.tenant c.ctx.det (tcb.dw 15) va b.1)) d 0))
    ∧ (va.toNat % 64 ≠ 0 → TrapsWith (.spawn d a) s .formatFault 0)
    ∧ (va.toNat % 64 = 0 → loadBytes s.me va 192 s = .ok (bs, s1) → tcb.ok s1 home = false → TrapsWith (.spawn d a) s .formatFault 0)
    ∧ ((s.cluster P).backlog = [] → freeEntry (s.cluster P) = some i → ∃ y, mfind ((admitTask s P task).cluster P).tcbs i = some y
        ∧ y = { task with status := y.status, since := y.since } ∧ y.status = (if task.wait = 0 then .ready else .waiting))
    ∧ (¬ act → ∃ t, exec .exit s = .next t ∧ (t.core me).status = .free ∧ (t.core me).task = none)
    ∧ (¬ act → runs → task.kind.gang = false → s.eager = false → (s.cluster P).backlog = [] → ∃ t, exec .exit s = .next t
        ∧ mfind (t.cluster P).tcbs i = none
        ∧ (t.cluster P).ebq = (s.cluster P).ebq ++ (if task.setm = 0 then [] else [⟨me, true, task.setm⟩]))
    ∧ (act → TrapsWith .exit s .illegalOp 0)
    ∧ (runs → task.act ≠ none ∨ task.kind.lower = true ∨ readyFor s me task.pri = false → FallsThrough .yield s)
    ∧ (runs → task.act = none → task.kind.lower = false → readyFor s me task.pri = true → s.eager = true → cutOff (retire s) me = false →
        stowArea (retire s) P i task = (false, retire s) → stowOn (retire s) me none = some s2 →
        ∃ t y, exec .yield s = .next t ∧ (t.core me).status = .free ∧ mfind (t.cluster P).tcbs i = some y ∧ y.stowed = true ∧ y.status = .ready
          ∧ t.mem = s2.mem ∧ mget (t.cluster P).ready task.pri [] = mget (s2.cluster P).ready task.pri [] ++ [i])
    ∧ (runs → task.kind = .thread → FallsThrough .gbar s)
    ∧ (runs → task.kind.gang = true → s.eager = false → ∃ t, exec .gbar s = .next t ∧ (t.core me).wait = .barrier ∧ (t.core me).pc = c.pc
        ∧ (t.core me).g = c.g ∧ (t.core me).ctx.arrived = true ∧ (t.core me).ctx.gbar = if c.ctx.arrived then c.ctx.gbar else c.ctx.gbar + 1)
    ∧ (kids (s.taskOf me) = false → TrapsWith .gbar s .illegalOp 0)
    ∧ (c.task = some i → c.wait = .barrier → barrierDone s me = true → ∃ t, exec (.gbarComplete me) s = .next t ∧ t.mem = s.mem ∧ ∀ w ∈ membersOf s P i,
        (s.core w).wait = .barrier → (s.core w).ctx.gbar = c.ctx.gbar → Sequenced (s.core w) (t.core w) ∧ (t.core w).wait = .none ∧ (t.core w).g = (s.core w).g)
    ∧ (barrierDone s me = false → exec (.gbarComplete me) s = .next s)
    ∧ WritesG (.tpath d) s d c.ctx.path
    ∧ (∀ p ∈ [((0 : BitVec 7), word (s.unitId me)), (1, word c.ctx.rank), (2, word (((s.taskOf me).map (fun x => x.kind.size)).getD 1)),
        (3, word c.ctx.kern.kid.toNat), (4, word c.ctx.ord.toNat), (5, word (((s.taskOf me).map (fun x => x.pri)).getD 0)), (6, word s.nlive)],
        WritesG (.gid d p.1) s d p.2)
    ∧ (7 ≤ sel.toNat → TrapsWith (.gid d sel) s .illegalOp 0)

/-- R292, R305, R306, R310, R351: what the scheduler does by itself: a free core takes the head of the highest level that holds work for it and starts it, or restores
it from its image; a task that has waited 2^20 cycles moves up a level; a gang reserves its cores and starts on them together; a cluster publishes its depth; and
old forwarding entries go. -/
def Obligations.SchedulerMoves : Prop :=
  ∀ (s : State) (u i j l P : Nat) (task : Task) (r : Reservation) (us : List Nat),
    let Q := clusterOf u
    let picks := turnOf s u = true ∧ pickWork s u = some i ∧ mfind (s.cluster Q).tcbs i = some task
    let img := s.mem.bytes (frameLoc s Q i) 1536
    (picks → task.stowed = false → ∃ t, exec (.taskPlace u) s = .next t ∧ StartsAt (t.core u) i task ∧ t.mem = s.mem
        ∧ (∀ v, v ≠ u → (t.core v).g = (s.core v).g ∧ (t.core v).status = (s.core v).status)
        ∧ ∃ y, mfind (t.cluster Q).tcbs i = some y ∧ y.status = .running ∧ y.lastOn = some u)
    ∧ (picks → task.stowed = true → task.stowa = 0 → ∃ t, exec (.taskResume u) s = .next t ∧ (t.core u).status = .running
        ∧ (t.core u).task = some i ∧ (t.core u).pc = imageDw img 0x520 ∧ (t.core u).lcnt = imageDw img 0x528 ∧ (t.core u).lbeg = sext56 (imageDw img 0x530)
        ∧ (t.core u).lend = sext56 (imageDw img 0x538) ∧ (t.core u).vt = imageDw img 0x580 ∧ (t.core u).ctx.path = imageDw img 0x588 ∧ t.mem = s.mem
        ∧ (∀ g, (t.core u).rg g = if g = 0 then 0 else imageDw img (0x400 + 8 * g.toNat))
        ∧ (∀ v, ((t.core u).rv v).bits = BitVec.ofNat 512 (leNat ((img.drop (64 * v.toNat)).take 64)))
        ∧ ∃ y, mfind (t.cluster Q).tcbs i = some y ∧ y.status = .running ∧ y.stowed = false)
    ∧ (turnOf s u = false ∨ pickWork s u = none → exec (.taskPlace u) s = .next s ∧ exec (.taskResume u) s = .next s)
    ∧ (levelPick s u = some (l, j) → mayTake s u j = true ∧ j ∈ mget (s.cluster Q).ready l []
        ∧ ∀ h, l < h → h < 8 → ∀ k ∈ mget (s.cluster Q).ready h [], mayTake s u k = false)
    ∧ (turnOf s u = true → ∀ v, clusterOf v = Q → v < u → canTake s v = true → pickWork s v = none)
    ∧ ((s.core u).deque = [] → levelPick s u = some (l, j) → pickWork s u = some j)
    ∧ (mfind (s.cluster P).tcbs i = some task → i ∈ mget (s.cluster P).ready task.pri [] → task.since + 2 ^ 20 ≤ s.now → task.pri < 7 →
        i ∉ mget (s.cluster P).ready (task.pri + 1) [] →
        ∃ t y, exec (.taskAging P i) s = .next t ∧ mfind (t.cluster P).tcbs i = some y ∧ y.pri = task.pri + 1 ∧ y.since = s.now
          ∧ mget (t.cluster P).ready (task.pri + 1) [] = mget (s.cluster P).ready (task.pri + 1) [] ++ [i]
          ∧ mget (t.cluster P).ready task.pri [] = (mget (s.cluster P).ready task.pri []).filter (fun x => x ≠ i) ∧ ∀ v, t.core v = s.core v)
    ∧ (mfind (s.cluster P).tcbs i = some task → s.now < task.since + 2 ^ 20 ∨ 7 ≤ task.pri → exec (.taskAging P i) s = .next s)
    ∧ (l < 8 → headGang s P l = some i → (mfind (s.cluster P).tcbs i).bind (gangCores s P) = some us →
        (∀ h, l < h → h < 8 → ∀ k, headGang s P h = some k → (mfind (s.cluster P).tcbs k).bind (gangCores s P) = none) → ∃ t, exec (.gangReserve P) s = .next t
        ∧ (t.cluster P).reserv = (s.cluster P).reserv ++ [⟨i, us, s.now⟩] ∧ (∀ v, t.core v = s.core v) ∧ t.mem = s.mem)
    ∧ ((s.cluster P).reserv = [r] → mfind (s.cluster P).tcbs r.idx = some task → task.status = .ready → task.kind.gang = true → task.stowed = false →
        r.cores ≠ [] → r.cores.Nodup → (∀ v ∈ r.cores, (s.core v).status = .free ∧ clusterOf v = P ∧ (s.tile (tileOf v)).gang = none
          ∧ (s.tile (tileOf v)).atRest = true) →
        ∃ t, exec (.gangStart P) s = .next t ∧ t.mem = s.mem ∧ (t.cluster P).reserv = []
          ∧ (∀ k v, r.cores[k]? = some v → StartsAt (t.core v) r.idx task ∧ (t.core v).ctx.rank = k
              ∧ (t.tile (tileOf v)).gang = some r.idx ∧ (t.tile (tileOf v)).acc = [] ∧ (t.tile (tileOf v)).sems = (s.tile (tileOf v)).sems)
          ∧ ∀ v, v ∉ r.cores → (t.core v).g = (s.core v).g ∧ (t.core v).status = (s.core v).status)
    ∧ (s.now < (s.cluster P).depthAt + 4096 → exec (.depthPublication P) s = .next s)
    ∧ ((s.cluster P).depthAt + 4096 ≤ s.now → ∃ t, exec (.depthPublication P) s = .next t ∧ (t.cluster P).depth = some (readyDepth s P)
        ∧ (t.cluster P).depthAt = s.now
        ∧ (readyDepth s P < 2 → t.mem = s.mem ∧ (t.cluster P).tcbs = (s.cluster P).tcbs ∧ ∀ v, t.core v = s.core v))
    ∧ (∃ t, exec (.forwardingExpiry P) s = .next t
        ∧ t = s.setCluster P { s.cluster P with forwards := (s.cluster P).forwards.filter (fun f => s.now < f.from_ + 65536) })


/-! ## Messages -/

/-- R315 to R321, R324, R326, R327: SEND checks its descriptor, releases and puts a message with the sender's header in flight, in order per target; RECV takes the oldest
of the inbox or parks; a delivery puts a core message in its claimant's inbox or the cluster's buffer, makes an active one an activation, and parks one that
carries a window; SENDP and RECVP use the sides of a port, of four messages each, and a transfer moves a message across; each with its stalls and traps. A message whose target has left the map is discarded, with the record of a
sealed target. Where buffered messages stay, and the entry PC of an activation, are the model's readings (log entries 44 and 46). -/
def Obligations.Messages : Prop :=
  ∀ (s : State) (d b : VReg) (a : GReg) (port : BitVec 2) (k i w n : Nat) (m : Msg) (rest : List Msg) (u : Nat),
    let me := s.cur
    let c := s.core me
    let P := clusterOf me
    let x := (s.rg a).toNat
    let kind := x / 2 ^ 62
    let cl := x / 32 % 64
    let unit := x % 32
    let w0 := ((s.rv b).bits.setWidth 64).toNat
    let shaped := x % 2 ^ 62 < 2 ^ 11 ∧ cl < s.nlive
    let target := 32 * physOf s cl + unit
    let core := shaped ∧ kind = 0
    let active := shaped ∧ kind = 1 ∧ unit = 0 ∧ w0 < 2 ^ 56 ∧ w0 % 2 = 0
    let level := c.ctx.det = 0 ∨ storesOf s c.ctx.kern ≠ []
    let clear := s.holdsRecord (.net P) = false ∧ s.msgs.countP (fun y => y.sender == me) < 8
    let sends := fun (y : Msg) (scope : Nat) => ∃ t, exec (.send a b) s = .next t ∧ t.msgs = s.msgs ++ [y] ∧ t.mem = (releaseTo s me scope).mem
      ∧ Sequenced c (t.core me) ∧ (t.core me).g = c.g ∧ (t.core me).v = c.v
    let p := port.toNat
    let tx := mget c.txPorts p []
    let rx := mget c.rxPorts p []
    let gang := inGang s me = true
    let opened := portClosed s me p = false
    let first := s.msgs[k]? = some m ∧ m.lost = false ∧ (s.msgs.take k).any (fun y => sameRoute y m) = false ∧ s.holdsRecord (.net (physOf s m.cl)) = false ∧ LinksUp s
    let Q := physOf s m.cl
    let v := targetOf s m
    let away := fun (t : State) => t.msgs = s.msgs.eraseIdx k
    let peer := portPeer u p
    (core → sealedCore s target = false → level → clear →
        sends (messageOf s me (s.rv b) false cl unit) (scopeToCore me target))
    ∧ (active → level → clear → sends (messageOf s me (s.rv b) true cl 0) (scopeToCluster me (physOf s cl)))
    ∧ (¬ (shaped ∧ kind < 2) ∨ (shaped ∧ kind = 1 ∧ ¬ active) → TrapsWith (.send a b) s .formatFault 0)
    ∧ (core → sealedCore s target = true → TrapsWith (.send a b) s .poison 0)
    ∧ (active → ¬ level → TrapsWith (.send a b) s .detLevel 0)
    ∧ (active → level → ¬ clear → exec (.send a b) s = .next s)
    ∧ (c.inbox = m :: rest → (∀ K, (s.cluster K).msgBuf = []) → ∃ t, exec (.recv d) s = .next t ∧ (t.core me).inbox = rest ∧ Sequenced c (t.core me)
        ∧ (∀ r, (t.core me).rv r = if r = d then m.val else c.rv r) ∧ (t.core me).g = c.g ∧ t.mem = s.mem ∧ ∀ y, y ≠ me → t.core y = s.core y)
    ∧ (c.inbox = [] → ∃ t, exec (.recv d) s = .next t ∧ OnlyCore s t me ∧ t.core me = { c with wait := .inbox })
    ∧ (first → m.window = none → m.active = false → sealedCore s v = false → (s.cluster Q).buffered < 1024 → clusterOf v = Q →
        (s.cluster Q).msgBuf.any (fun y => y.core == v && y.msg.kern == m.kern) = false →
        (claimantOf s v m.kern = .running → (s.core v).inbox.length < 16 → ∃ t, exec (.messageDelivery k) s = .next t ∧ away t ∧ t.mem = s.mem
          ∧ t.core v = { s.core v with inbox := (s.core v).inbox ++ [m], wait := if (s.core v).wait = .inbox then .none else (s.core v).wait }
          ∧ ∀ y, y ≠ v → t.core y = s.core y)
        ∧ (claimantOf s v m.kern = .nobody → ∃ t, exec (.messageDelivery k) s = .next t ∧ away t ∧ t.mem = s.mem ∧ (∀ y, t.core y = s.core y)
          ∧ (t.cluster Q).msgBuf = (s.cluster Q).msgBuf ++ [⟨v, m, false⟩]))
    ∧ (first → m.window = none → m.active = true → (s.cluster Q).buffered < 1024 → freeEntry (s.cluster Q) = some i → ∃ t y, exec (.messageDelivery k) s = .next t ∧ away t
        ∧ mfind (t.cluster Q).tcbs i = some y ∧ y.kind = .activation ∧ y.kern = m.kern ∧ y.entry = sext56 ((m.val.bits.setWidth 64))
        ∧ y.args = [m.dw 1, m.dw 2, m.dw 3, m.dw 4, m.dw 5, m.dw 6] ∧ t.mem = s.mem)
    ∧ (first → m.window = some (n, w) → windowClosed s.beaconB.toNat w n = false → (s.cluster Q).buffered < 1024 →
        ∃ t, exec (.messageDelivery k) s = .next t ∧ away t ∧ (t.cluster Q).parkedM = (s.cluster Q).parkedM ++ [m] ∧ t.mem = s.mem)
    ∧ (first → m.window = none → m.active = true ∨ sealedCore s v = false → 1024 ≤ (s.cluster Q).buffered → exec (.messageDelivery k) s = .next s)
    ∧ (first → m.window = none → m.active = false → sealedCore s v = true → s.holdsRecord (.net (clusterOf m.sender)) = false → ∃ t, exec (.messageDelivery k) s = .next t
        ∧ t = lostMessage { s with msgs := s.msgs.eraseIdx k } m)
    ∧ (s.msgs[k]? = some m → m.lost = true → exec (.messageDelivery k) s =
        .next (if s.holdsRecord (.net (clusterOf m.sender)) then s else lostMessage { s with msgs := s.msgs.eraseIdx k } m))
    ∧ (gang → opened → tx.length < 4 → s.holdsRecord (.net P) = false → ∃ t y, exec (.sendp port b) s = .next t
        ∧ mget (t.core me).txPorts p [] = tx ++ [y] ∧ y.val = s.rv b ∧ y.kern = c.ctx.kern ∧ y.sender = me ∧ Sequenced c (t.core me)
        ∧ (t.core me).g = c.g ∧ (t.core me).v = c.v ∧ t.mem = (releaseTo s me 3).mem)
    ∧ (gang → opened → 4 ≤ tx.length → ∃ t, exec (.sendp port b) s = .next t ∧ OnlyCore s t me ∧ t.core me = { c with wait := .sendPort p })
    ∧ (gang → opened → rx = m :: rest → ∃ t, exec (.recvp d port) s = .next t ∧ mget (t.core me).rxPorts p [] = rest ∧ Sequenced c (t.core me)
        ∧ (∀ r, (t.core me).rv r = if r = d then m.val else c.rv r) ∧ (t.core me).g = c.g ∧ OnlyCore s t me)
    ∧ (gang → opened → rx = [] → ∃ t, exec (.recvp d port) s = .next t ∧ OnlyCore s t me ∧ t.core me = { c with wait := .recvPort p })
    ∧ (¬ gang → TrapsWith (.sendp port b) s .illegalOp 0 ∧ TrapsWith (.recvp d port) s .illegalOp 0)
    ∧ (gang → ¬ opened → TrapsWith (.sendp port b) s .ringFault 0 ∧ TrapsWith (.recvp d port) s .ringFault 0)
    ∧ (mget (s.core u).txPorts p [] = m :: rest → portClosed s u p = false → (mget (s.core peer.1).rxPorts peer.2 []).length < 4 →
        inGang s peer.1 = true → (s.core peer.1).ctx.kern = m.kern → s.holdsRecord (.net (clusterOf peer.1)) = false →
        ∃ t, exec (.portTransfer u port) s = .next t ∧ mget (t.core u).txPorts p [] = rest
          ∧ mget (t.core peer.1).rxPorts peer.2 [] = mget (s.core peer.1).rxPorts peer.2 [] ++ [m] ∧ t.mem = s.mem
          ∧ ∀ y, y ≠ u → y ≠ peer.1 → t.core y = s.core y)
    ∧ (mget (s.core u).txPorts p [] = [] → exec (.portTransfer u port) s = .next s)


/-! ## System instructions and control registers -/

/-- R95, R96, R343, R352, R361, R363 to R367: TRAP releases and parks the core with its cause and the next instruction as RPC; HALT parks it for good; CSRR reads and
CSRW writes the registers of the CSR map, with their traps; STOW writes the task's image, from which every register of the task can be restored; and the write of
BANKCFG switches banks before it retires. A record's eight doublewords hold its fields where R343 puts them. -/
def Obligations.SystemInstructions : Prop :=
  ∀ (s s1 s2 s3 : State) (n : BitVec 7) (d a : GReg) (ps : List Piece) (i o : Nat) (task : Task) (pc : Word) (latched trapped : Bool) (msgs b m : Nat) (z : Core),
    let me := s.cur
    let c := s.core me
    let P := clusterOf me
    let T := tileOf me
    let tile := s.tile T
    let va := s.rg a
    let N := n.toNat
    let named := N = 0x0F ∨ 0x40 ≤ N
    let slotFree := fun (x : State) => mfind (x.cluster P).mailbox (inCluster me) = none
    let parks := fun (j : Instr) (x : State) (sub : Nat) (code : Nat) (rpc : Word) => ∃ t r, exec j s = .next t ∧ (t.core me).status = .trapped r
      ∧ mfind (t.cluster P).mailbox (inCluster me) = some r ∧ r.cause.code = code ∧ r.sub = sub ∧ r.pc = rec56 c.pc ∧ r.rpc = rec56 rpc ∧ r.unit = s.unitId me
      ∧ r.kid = c.ctx.kern.kid ∧ r.faddr = 0 ∧ t.mem = x.mem ∧ (t.core me).g = c.g ∧ (t.core me).v = c.v ∧ (t.core me).pc = c.pc
    let runs := c.task = some i ∧ mfind (s.cluster P).tcbs i = some task
    let gang := runs ∧ task.kind.gang = true
    let readable := [((0x01 : BitVec 7), word c.ctx.det), (0x02, word (c.ctx.tcba.toNat % 2 ^ 56)), (0x03, word (c.ctx.ctxb.toNat % 2 ^ 56)), (0x04, word c.ctx.wdt),
      (0x08, word (c.mgn.step + if c.mgn.pin then 16 else 0)), (0x0A, word c.mgn.trepc.toNat), (0x0B, word c.mgn.cmisc.toNat), (0x10, tile.monb), (0x13, tile.cncd),
      (0x19, word ((s.cluster P).heldCnt.toNat + if (s.cluster P).heldRecs.isEmpty then 0 else 2 ^ 63)),
      (0x1A, word (s.snap.tag.toNat + 2 ^ 32 * s.snap.ign.toNat + if s.snap.pend then 2 ^ 63 else 0))]
    let inMap := N ≤ 0x04 ∨ 0x08 ≤ N ∧ N ≤ 0x0B ∨ 0x10 ≤ N ∧ N ≤ 0x13 ∨ 0x18 ≤ N ∧ N ≤ 0x1A
    let matrixCmd := fun (op : MOp) => (s.modTile T (fun x => { x with queue := x.queue ++
      [{ op := op, core := me, seq := 0, pc := c.pc, tenant := c.ctx.tenant, kid := c.ctx.kern.kid, owned := false }] }))
    let flushed := flushTo s2 me 5
    let image := stowImage flushed me (c.pc + word c.ilen) false false 0
    let img := stowImage s me pc latched trapped msgs
    let back := z.fromImage img
    (named → slotFree (releaseTo s me 2) → parks (.trap n) (releaseTo s me 2) 0 N (c.pc + word c.ilen))
    ∧ (¬ named → TrapsWith (.trap n) s .illegalOp 0)
    ∧ (slotFree s → parks .halt s 1 0x0F 0 ∧ ∀ t, exec .halt s = .next t → (t.core me).outbox = [])
    ∧ (∀ p ∈ readable, WritesG (.csrr d p.1) s d p.2)
    ∧ (c.ctx.det = 0 → WritesG (.csrr d 0x00) s d (word s.now))
    ∧ (c.ctx.det ≠ 0 → TrapsWith (.csrr d 0x00) s .detLevel 0)
    ∧ (∃ w, WritesG (.csrr d 0x09) s d w ∧ w.toNat % 16 = min 8 (c.mgn.recent.filter (fun t => s.now < t + 2 ^ 24)).length
        ∧ (c.mgn.last < 16 → w.toNat / 2 ^ 4 % 16 = c.mgn.last) ∧ (c.mgn.last < 16 → c.mgn.total.toNat = w.toNat / 2 ^ 16))
    ∧ (∃ w, WritesG (.csrr d 0x18) s d w ∧ ∀ k, k < 16 → w.toNat / 4 ^ k % 4 = ((s.cluster P).mode k).toNat)
    ∧ ((∀ q ∈ tile.queue, q.core ≠ me) → CompletesG (.csrr d 0x11) s (acquire s me) d tile.monc ∧ CompletesG (.csrr d 0x12) s (acquire s me) d tile.mrepl)
    ∧ ((∃ q ∈ tile.queue, q.core = me) → exec (.csrr d 0x11) s = .next s ∧ exec (.csrr d 0x12) s = .next s)
    ∧ (¬ inMap → TrapsWith (.csrr d n) s .illegalOp 0 ∧ TrapsWith (.csrw n a) s .illegalOp 0)
    ∧ (N ∈ [0x00, 0x01, 0x02, 0x03, 0x08, 0x09, 0x0A, 0x0B, 0x11, 0x19] → TrapsWith (.csrw n a) s .illegalOp 0)
    ∧ (16 ≤ va.toNat % 64 → va.toNat % 64 ≤ 47 →
        Completes (.csrw 0x04 a) s (s.modCore me (fun x => { x with ctx := { x.ctx with wdt := va.toNat % 64 } })))
    ∧ ((va.toNat % 64 < 16 ∨ 47 < va.toNat % 64) → TrapsWith (.csrw 0x04 a) s .illegalOp 0)
    ∧ (gang → Completes (.csrw 0x12 a) s (s.modTile T (fun x => { x with mrepl := va, mrepl0 := va })))
    ∧ (gang → unitOpen s me = true → Completes (.csrw 0x10 a) s (matrixCmd (.monb (word (va.toNat % 2 ^ 50))))
        ∧ Completes (.csrw 0x13 a) s (matrixCmd (.cncd (word (va.toNat % 2 ^ 6)))))
    ∧ (gang → unitOpen s me = false → exec (.csrw 0x10 a) s = .next s ∧ exec (.csrw 0x13 a) s = .next s)
    ∧ (runs → task.kind.gang = false → ∀ k ∈ [(0x10 : BitVec 7), 0x12, 0x13], TrapsWith (.csrw k a) s .illegalOp 0)
    ∧ Completes (.csrw 0x1A a) s { s with snap := { s.snap with trigs := s.snap.trigs ++ [(s.now + 64, BitVec.ofNat 32 va.toNat)] } }
    ∧ (runs → task.kind ≠ .clusterGang → TrapsWith (.csrw 0x18 a) s .plbDeny 0)
    ∧ (runs → task.kind = .clusterGang → bankSwitches (s.cluster P) va = [] → FallsThrough (.csrw 0x18 a) s)
    ∧ (runs → task.kind = .clusterGang → bankSwitches (s.cluster P) va ≠ [] → s.eager = false → ∃ t, exec (.csrw 0x18 a) s = .next t ∧ t.mem = s.mem
        ∧ (t.cluster P).switching = (s.cluster P).switching ++ bankSwitches (s.cluster P) va ∧ (t.core me).wait = .bankSwitch ∧ (t.core me).pc = c.pc
        ∧ (t.core me).g = c.g ∧ ∀ u, u ≠ me → t.core u = s.core u)
    ∧ ((s.cluster P).switching = [] → ∀ p, p ∈ bankSwitches (s.cluster P) va ↔
        p.1 < 16 ∧ p.2 = va.toNat / 4 ^ p.1 % 4 ∧ p.2 ≠ 3 ∧ p.2 ≠ ((s.cluster P).mode p.1).toNat)
    ∧ ((s.cluster P).switching = [(b, m)] → b < 16 → m < 3 → m ≠ ((s.cluster P).mode b).toNat → (∀ u, (s.core u).storeBuf = []) → s.defers = [] →
        (∀ k ∈ s.clusters, k.2.tcbWrites = []) → ∃ t, exec (.bankcfgSwitchDone P) s = .next t ∧ (t.cluster P).switching = []
          ∧ (∀ k, k < 16 → ((t.cluster P).mode k).toNat = if k = b then m else ((s.cluster P).mode k).toNat)
          ∧ (∀ x, b * 2 ^ 18 ≤ x → x < (b + 1) * 2 ^ 18 → t.mem.peek (sramLoc P x) = 0 ∧ t.mem.tag (sramLoc P x) = 0)
          ∧ (∀ u, (t.core u).g = (s.core u).g)
          ∧ (∀ u, clusterOf u = P → (s.core u).wait = .bankSwitch → Sequenced (s.core u) (t.core u) ∧ (t.core u).wait = .none)
          ∧ ∀ r ∈ (s.cluster P).rings, r.overlaps (b * 2 ^ 18) (2 ^ 18) = true → { r with broken := true } ∈ (t.cluster P).rings)
    ∧ (runs → task.kind = .task ∨ task.kind = .child → va.toNat % 64 = 0 → resolve s.me .sector va 1536 s = .ok (ps, s1) → ringsFree ps s1 = .ok ((), s1) →
        noDead ps s1 = .ok ((), s2) → storeSectors flushed.me (fun _ => 0) 24 0 va image flushed = .ok ((), s3) → Completes (.stow a) s (releaseTo s3 me 4))
    ∧ (runs → task.kind = .task ∨ task.kind = .child → s.eager = true → Settled s me → va = localVa o → o % 64 = 0 → (s.cluster P).rings = [] →
        (∀ k, k < 24 → ReachesScratchpad s (o + 64 * k) 64 1 ∧ ReachesScratchpad s (o + 64 * k) 64 3) →
        ∃ t, exec (.stow a) s = .next t ∧ t.mem.bytes (sramLoc P o) 1536 = stowImage s me (c.pc + word c.ilen) false false 0 ∧ Sequenced c (t.core me)
          ∧ (t.core me).g = c.g ∧ (t.core me).v = c.v
          ∧ ∀ x, x < tagBase → x < sramLoc P o ∨ sramLoc P o + 1536 ≤ x → t.mem.peek x = s.mem.peek x)
    ∧ (runs → task.kind ≠ .task → task.kind ≠ .child → TrapsWith (.stow a) s .illegalOp 0)
    ∧ (runs → task.kind = .task ∨ task.kind = .child → va.toNat % 64 ≠ 0 → TrapsWith (.stow a) s .align va)
    ∧ (img.length = 1536 ∧ (∀ r, back.rg r = c.rg r) ∧ (∀ r, back.rv r = c.rv r) ∧ back.pc = pc ∧ back.lcnt = c.lcnt ∧ (sext56 c.lbeg = c.lbeg → back.lbeg = c.lbeg)
        ∧ (sext56 c.lend = c.lend → back.lend = c.lend) ∧ back.vt = c.vt ∧ back.ctx.path = c.ctx.path ∧ back.ctx.jaddr = c.ctx.jaddr ∧ back.ctx.ord = c.ctx.ord
        ∧ back.ctx.tcba = c.ctx.tcba ∧ (imageDw img 0x5C0).getLsbD 2 = latched ∧ (imageDw img 0x5C0).getLsbD 3 = trapped
        ∧ (c.ctx.wdt < 64 → back.ctx.wdt = c.ctx.wdt) ∧ (c.ctx.det < 4 → back.ctx.det = c.ctx.det))
    ∧ (∀ r : TrapRecord, r.sub < 2 ^ 8 → r.unit < 2 ^ 11 → ∃ w0,
        r.dwords = [w0, rec56 r.pc, rec56 r.from_, rec56 r.faddr, rec56 r.rpc, r.tag, r.data, word (r.kid.toNat + 2 ^ 32 * r.cyc.toNat)]
          ∧ w0.toNat % 2 ^ 8 = r.cause.code ∧ w0.toNat / 2 ^ 8 % 2 ^ 8 = r.sub ∧ w0.toNat / 2 ^ 16 % 2 ^ 11 = r.unit ∧ w0.getLsbD 27 = r.late
          ∧ w0.getLsbD 28 = r.held ∧ w0.getLsbD 29 = r.nrst ∧ w0.toNat / 2 ^ 30 % 4 = 0 ∧ w0.toNat / 2 ^ 32 % 2 ^ 16 = r.seq.toNat
          ∧ w0.toNat / 2 ^ 48 % 2 ^ 4 = r.lane.toNat ∧ w0.toNat / 2 ^ 52 = 0)

/-- R91, R95, R114, R218, R330, R331, R352, R355, R356, R361: the registers as events reach them: a write of BANKCFG, WDT, SNAPT, MREPL and MGN; the latching and reading of a
snapshot; one access of the management space, with its errors; the flushing of a die's translation caches; and the control register of a link. What the rows of register writes do,
what a write of MGN does with its bits, the management places that are no register (endpoint table, own number, power limit, counts, command registers) with what they refuse, and what a
snapshot holds are the model's choices (log entries 13, 15, 30, 33 and 48). -/
def Obligations.RegistersAndEvents : Prop :=
  ∀ (s : State) (u off die m tile : Nat) (v : Word) (ask : MgmtPlace) (give : Option MgmtData) (at_ : Nat) (tag : BitVec 32) (rest : List (Nat × BitVec 32)) (i n : Nat) (task : Task) (on : Bool)
    (ep : Endpoint),
    let c := s.core u
    let P := clusterOf u
    let runs := c.task = some i ∧ mfind (s.cluster P).tcbs i = some task
    let l := s.link m
    let x := s.die die
    let dieAt := 0x100000 + 0x10000 * die
    let answers := fun (t : State) (r : Option Word) => { t with sys := { t.sys with mgmtReply := some r } }
    let reads := fun (o : Nat) (w : Word) => exec (.managementRequest (.register o) none) s = .next (answers s (some w))
    let writes := fun (o : Nat) (t : State) => exec (.registerWrite o v) s = .next (answers t (some 0))
      ∧ (6 ≤ s.sys.bring → exec (.managementRequest (.register o) (some (.word v))) s = .next (answers t (some 0)))
    let fails := fun (o : Nat) => exec (.registerWrite o v) s = .next (answers s none)
      ∧ (6 ≤ s.sys.bring → exec (.managementRequest (.register o) (some (.word v))) s = .next (answers s none))
    let linkAt := if m < 4 then 0x40 * m else 0x100100 + 0x10000 * ((m - 4) / 3) + 0x40 * ((m - 4) % 3)
    let base := canonical v = true ∧ v.toNat % 16 = 0
    let does := fun (q : MgmtPlace) (d : MgmtData) (t : State) => exec (.managementRequest q (some d)) s = .next (answers t (some 0))
    let refused := fun (q : MgmtPlace) (d : Option MgmtData) => exec (.managementRequest q d) s = .next (answers s none)
    let counts := fun (q : MgmtPlace) (w : Nat) => exec (.managementRequest q none) s = .next (answers s (some (word w)))
    (runs → task.kind = .clusterGang → exec (.bankcfgWrite u v) s =
        .next (s.modCluster P (fun k => { k with switching := k.switching ++ bankSwitches k v })))
    ∧ (runs → task.kind ≠ .clusterGang → exec (.bankcfgWrite u v) s = .next s)
    ∧ (16 ≤ v.toNat % 64 → v.toNat % 64 ≤ 47 → ∃ t, exec (.wdtWrite u v) s = .next t ∧ OnlyCore s t u
        ∧ t.core u = { c with ctx := { c.ctx with wdt := v.toNat % 64 }, wdStart := s.now })
    ∧ ((v.toNat % 64 < 16 ∨ 47 < v.toNat % 64) → exec (.wdtWrite u v) s = .next s)
    ∧ exec (.snaptWrite u v) s = .next { s with snap := { s.snap with trigs := s.snap.trigs ++ [(s.now + 64, BitVec.ofNat 32 v.toNat)] } }
    ∧ (s.snap.trigs = (at_, tag) :: rest → s.now < at_ → exec .snapshotLatch s = .next s)
    ∧ (s.snap.trigs = (at_, tag) :: rest → at_ ≤ s.now → s.snap.pend = false → exec .snapshotLatch s =
        .next { s with snap :=
          { tag := tag, ign := s.snap.ign, pend := true, trigs := rest, cores := s.cores, tiles := s.tiles, clusters := s.clusters,
            dies := s.dies, links := s.links, engines := s.engines, streamers := s.streamers } })
    ∧ (s.snap.trigs = (at_, tag) :: rest → at_ ≤ s.now → s.snap.pend = true → ∃ t, exec .snapshotLatch s = .next t ∧ t = { s with snap := t.snap }
        ∧ t.snap.trigs = rest ∧ t.snap.ign.toNat = min (s.snap.ign.toNat + 1) 0xFFFF ∧ t.snap.tag = s.snap.tag ∧ t.snap.cores = s.snap.cores)
    ∧ (6 ≤ s.sys.bring → exec .snapshotRead s = .next { s with snap := { s.snap with pend := false } })
    ∧ (s.sys.bring < 6 → exec .snapshotRead s = .next s ∧ exec (.managementRequest ask give) s = .next s ∧ exec (.mgnWrite u v) s = .next s)
    ∧ exec (.mreplWrite tile v) s = .next (s.setTile tile { s.tile tile with mrepl := v, mrepl0 := v })
    ∧ (6 ≤ s.sys.bring → ∃ t, exec (.mgnWrite u v) s = .next t ∧ OnlyCore s t u ∧ t.core u = { c with mgn := (t.core u).mgn }
        ∧ (t.core u).mgn.pin = (c.mgn.pin && v.getLsbD 4) ∧ (t.core u).mgn.step = (if c.mgn.pin && v.getLsbD 4 then 0 else v.toNat % 16)
        ∧ (t.core u).mgn.total = c.mgn.total)
    ∧ (6 ≤ s.sys.bring → m < 16 → die < 4 →
        reads linkAt (word l.lctl.toNat) ∧ reads (linkAt + 0x10) (word l.ethr.toNat) ∧ reads (linkAt + 0x18) (word l.ecnt.toNat) ∧ reads (linkAt + 0x20) l.rplc
        ∧ (l.lanes ≤ 64 → ∃ w : Word, reads (linkAt + 8) w ∧ w.toNat % 2 ^ 7 = l.lanes ∧ w.getLsbD 7 = l.upper ∧ w.getLsbD 8 = l.up ∧ w.toNat / 2 ^ 16 = l.repaired % 256)
        ∧ reads dieAt x.ptroot ∧ reads (dieAt + 8) (if x.flush then 1 else 0) ∧ reads (dieAt + 0x10) x.rgbase ∧ reads (dieAt + 0x18) (word x.rgcnt.toNat)
        ∧ reads (dieAt + 0x20) x.rsbase ∧ reads (dieAt + 0x28) (word x.rslog.toNat))
    ∧ (die < 4 →
        (v.toNat % 128 = 0 → inHbm v.toNat 128 = true → writes dieAt (s.setDie die { x with ptroot := v }))
        ∧ ((v.toNat % 128 ≠ 0 ∨ inHbm v.toNat 128 = false) → fails dieAt)
        ∧ (v = 1 → writes (dieAt + 8) (beginFlush s die) ∧ exec (.tcflushWrite die v) s = .next (beginFlush s die))
        ∧ (beginFlush s die).die die = { x with flush := true }
        ∧ (∀ e ∈ s.tcache, e.onDie die = true → e.stage = 1 → { e with stage := 2 } ∈ (beginFlush s die).tcache)
        ∧ (1 < v.toNat → fails (dieAt + 8) ∧ exec (.tcflushWrite die v) s = .next s)
        ∧ (base → writes (dieAt + 0x10) (s.setDie die { x with rgbase := v }) ∧ writes (dieAt + 0x20) (s.setDie die { x with rsbase := v }))
        ∧ (¬ base → fails (dieAt + 0x10) ∧ fails (dieAt + 0x20))
        ∧ (v.toNat < 2 ^ 16 → writes (dieAt + 0x18) (s.setDie die { x with rgcnt := BitVec.ofNat 16 v.toNat }))
        ∧ (2 ^ 16 ≤ v.toNat → fails (dieAt + 0x18))
        ∧ (4 ≤ v.toNat → v.toNat ≤ 20 → writes (dieAt + 0x28) (s.setDie die { x with rslog := BitVec.ofNat 5 v.toNat }))
        ∧ ((v.toNat < 4 ∨ 20 < v.toNat) → fails (dieAt + 0x28)))
    ∧ (m < 16 →
        (v.toNat < 4 → ∃ t, writes linkAt t ∧ t = s.setLink m { l with lctl := (t.link m).lctl }
          ∧ (t.link m).lctl.getLsbD 0 = (v.getLsbD 0 || l.lctl.getLsbD 0) ∧ (t.link m).lctl.getLsbD 1 = v.getLsbD 1)
        ∧ fails (linkAt + 8)
        ∧ (v.toNat < 2 ^ 16 → writes (linkAt + 0x10) (s.setLink m { l with ethr := BitVec.ofNat 16 v.toNat }))
        ∧ (4 ≤ v.toNat → fails linkAt) ∧ (2 ^ 16 ≤ v.toNat → fails (linkAt + 0x10)))
    ∧ (6 ≤ s.sys.bring →
        (0 < n → n < 2 ^ 15 → ep.role = .parent → s.net.parent = none ∨ s.net.parent = some n → does (.endpoint n) (.entry ep)
            { s with net := { s.net with endpoints := mset s.net.endpoints n ep, parent := some n, children := mdel s.net.children n } })
        ∧ (0 < n → n < 2 ^ 15 → ep.role = .child → s.net.parent ≠ some n → mfind s.net.children n = none → s.net.children.length < 192 →
            ∃ t, does (.endpoint n) (.entry ep) t ∧ t = { s with net := { s.net with endpoints := mset s.net.endpoints n ep, children := t.net.children } }
              ∧ ∃ k, mfind t.net.children n = some k ∧ k.last.b = 0 ∧ k.last.q = false ∧ k.lost = false)
        ∧ ((n = 0 ∨ 2 ^ 15 ≤ n) → refused (.endpoint n) (some (.entry ep)))
        ∧ (v.toNat < 2 ^ 15 → does .ownNumber (.word v) { s with net := { s.net with own := v.toNat } })
        ∧ (2 ^ 15 ≤ v.toNat → refused .ownNumber (some (.word v)))
        ∧ (800 ≤ v.toNat → v.toNat ≤ 1600 → does .powerLimit (.word v) { s with sys := { s.sys with limit := v.toNat } })
        ∧ (v.toNat < 800 ∨ 1600 < v.toNat → refused .powerLimit (some (.word v)))
        ∧ counts .ownNumber s.net.own ∧ counts .powerLimit s.sys.limit ∧ refused (.register off) (some (.entry ep)) ∧ refused (.endpoint n) none
        ∧ (n < 64 → counts (.discarded n) (s.cluster n).discard) ∧ (u < 2048 → counts (.trepc u) c.mgn.trepc.toNat ∧ counts (.cmisc u) c.mgn.cmisc.toNat
            ∧ counts (.softErrors u) c.mgn.soft ∧ counts (.ccmd u) c.ccmdValue.toNat ∧ does (.ccmd u) (.word v) (ccmdWrite u v s))
        ∧ (2048 ≤ u → refused (.ccmd u) none ∧ refused (.ccmd u) (some (.word v))))
    ∧ ((off % 8 ≠ 0 ∨ 0x100 ≤ off ∧ off < 0x100000 ∨ 0x140000 ≤ off ∨ off % 0x10000 = 0x30) → fails off
        ∧ (6 ≤ s.sys.bring → exec (.managementRequest (.register off) none) s = .next (answers s none)))
    ∧ (x.flush = true → ∃ t, exec (.tcflushComplete die) s = .next t ∧ (t.die die).flush = false ∧ t.mem = s.mem ∧ (∀ w, t.core w = s.core w)
        ∧ ∀ e ∈ s.tcache, (e.onDie die = true → e.stage = 2 → { e with stage := 3 } ∈ t.tcache) ∧ (e.stage ≠ 2 → e ∈ t.tcache))
    ∧ (x.flush = false → exec (.tcflushComplete die) s = .next s)
    ∧ (∃ t, exec (.lctlRetrainRequest m) s = .next t ∧ t = s.setLink m { l with lctl := (t.link m).lctl } ∧ (t.link m).lctl.getLsbD 0 = true
        ∧ (t.link m).lctl.getLsbD 1 = l.lctl.getLsbD 1)
    ∧ (∃ t, exec (.lctlForceX32 m on) s = .next t ∧ t = s.setLink m { l with lctl := (t.link m).lctl } ∧ (t.link m).lctl.getLsbD 1 = on
        ∧ (t.link m).lctl.getLsbD 0 = l.lctl.getLsbD 0)


/-! ## Queues and pages -/

/-- R291, R294, R295, R299, R300, R335: a queue is created and destroyed; the registers of its notify page; the admission of the TCB at HEAD to the cluster that the TCB or the
placement rule names, and its refusal; the arrival order of notify stores across queues, where a remap has held a TCB; the completion of a kernel, and the
writing of its record, which waits where the access does. What becomes of the TCBs of an ended kernel and of an unreadable slot, and the count of members, are the
model's readings (log entries 24, 36 and 42). -/
def Obligations.QueuesAndKernels : Prop :=
  ∀ (s s1 s2 : State) (q : Nat) (desc : QueueDesc) (x : Queue) (v : Word) (bs : List Byte) (k : Kernel) (r : CompRec) (rest : List CompRec) (L : Nat) (w0 : Wait) (t0 : Trap),
    let good := desc.ring.toNat % 64 = 0 ∧ desc.lslot ≤ 16 ∧ desc.lcomp ≤ 16 ∧ desc.det ≤ 3 ∧ desc.place ≤ 2
      ∧ (desc.det = 0 ∨ 12 ≤ desc.lms ∧ desc.lms ≤ 24 ∧ desc.msb.toNat % 2 ^ desc.lms = 0)
    let opened := q < 65536 ∧ mfind s.queues q = some x
    let becomes := fun (i : Instr) (y : Queue) => exec i s = .next { s with queues := mset s.queues q y }
    let new := BitVec.ofNat 32 v.toNat
    let tailGood := (new - x.head).toNat ≤ 2 ^ x.desc.lslot ∧ (x.tail - x.head).toNat ≤ (new - x.head).toNat
    let answers := fun (t : State) (a : PeerReply) => { t with net := { t.net with reply := some a } }
    let slot := x.head.toNat % 2 ^ x.desc.lslot
    let va := x.desc.ring + word (192 * slot)
    let tcb : Tcb := ⟨dwordsOf bs 24⟩
    let who := engineWho (some x.desc.dom) 0
    let turn := mfind s.queues q = some x ∧ x.head ≠ x.tail ∧ laterThanHeld s q x = false
    let reads := turn ∧ loadBytes who va 192 s = .ok (bs, s1) ∧ mfind s1.queues q = some x
    let took := { x with head := x.head + 1, tails := x.tails.filter (fun y => y.1 != x.head + 1), held := none }
    let takes := fun (y : Queue) => exec (.tcbAdmission q) s = .next { s1 with queues := mset s1.queues q y }
    let pl := placement s1 x tcb
    let P := physOf s1 pl.1
    let enters := fun (after : Kernel) =>
      let taken : State := { s1 with queues := mset s1.queues q { took with rot := pl.2, kern := some after } }
      let b := bindCore taken q P x.desc.det tcb.gang
      exec (.tcbAdmission q) s = .next (admitTask b.2 P (tcb.task b.2 0 ⟨q, tcb.kid⟩ x.desc.dom x.desc.det (tcb.dw 15) va b.1))
    let refused := fun (kid : BitVec 32) => { took with err := x.err ||| 1, waiting := x.waiting ++ [⟨0, .formatFault, kid, 0, word slot⟩] }
    let whole := P ∉ s1.quarCl
    let room := (s1.cluster P).backlog.length < 2 ^ 20
    let fresh := x.kern = none ∨ x.kern = some k ∧ k.kid = tcb.kid ∧ k.ended = false
    let member := (∃ c ∈ s.clusters, (∃ t ∈ c.2.tcbs, t.2.kern = ⟨q, k.kid⟩) ∨ (∃ t ∈ c.2.backlog, t.kern = ⟨q, k.kid⟩)
        ∨ ∃ m ∈ c.2.parkedM, m.active = true ∧ m.kern = ⟨q, k.kid⟩) ∨ ∃ m ∈ s.msgs, m.active = true ∧ m.kern = ⟨q, k.kid⟩
    let depth := fun (j : Nat) => ((s.cluster (physOf s j)).depth).getD 0
    let writes := x.waiting = r :: rest ∧ x.blocked = false ∧ mfind s.queues q = some x
    let full := 2 ^ x.desc.lcomp ≤ (x.written - x.cread).toNat
    let place := x.desc.cring + word (32 * (x.written.toNat % 2 ^ x.desc.lcomp))
    (q < 65536 → mfind s.queues q = none → good → 6 ≤ s.sys.bring → becomes (.queueCreate q desc)
        { desc := desc, head := 0, tail := 0, tails := [], held := none, err := 0, cread := 0, written := 0, waiting := [], blocked := false, rot := 0, kern := none })
    ∧ (65536 ≤ q ∨ mfind s.queues q ≠ none ∨ ¬ good ∨ s.sys.bring < 6 → exec (.queueCreate q desc) s = .next s)
    ∧ (∃ t, exec (.queueDestroy q) s = .next t ∧ t = { s with queues := t.queues } ∧ ∀ j, mfind t.queues j = if j = q then none else mfind s.queues j)
    ∧ (opened → 6 ≤ s.sys.bring →
        (tailGood → becomes (.notifyTailWrite q v) { x with blocked := false, tail := new, tails := x.tails ++ [(new, s.now)] })
        ∧ (¬ tailGood → becomes (.notifyTailWrite q v) { x with blocked := false, err := x.err ||| 2 })
        ∧ becomes (.creadWrite q v) { x with blocked := false, cread := new })
    ∧ (mfind s.queues q = none → q < 65536 → exec (.notifyTailWrite q v) s = .next s ∧ exec (.creadWrite q v) s = .next s
        ∧ exec (.notifyErrRead q) s = .next (answers s (.fault .plbDeny)))
    ∧ (opened → exec (.notifyErrRead q) s =
        .next (answers { s with queues := mset s.queues q { x with err := 0 } } (.data (leBytes 8 x.err.toNat))))
    ∧ (mfind s.queues q = some x → x.head = x.tail → exec (.tcbAdmission q) s = .next s)
    ∧ (mfind s.queues q = some x → laterThanHeld s q x = true → exec (.tcbAdmission q) s = .next s)
    ∧ (turn → loadBytes who va 192 s = .error (.trap t0) → exec (.tcbAdmission q) s = .next { s with queues := mset s.queues q (refused 0) })
    ∧ (turn → loadBytes who va 192 s = .error (.wait w0) → (∀ p, w0 ≠ .page p) → exec (.tcbAdmission q) s = .next s)
    ∧ (reads → x.kern = none → whole → tcb.ok s1 P = true → room → enters ⟨tcb.kid, tcb.lastk, 0, false, tcb.pri⟩)
    ∧ (reads → x.kern = some k → k.kid = tcb.kid → k.ended = false → whole → tcb.ok s1 P = true → room → enters { k with lastk := k.lastk || tcb.lastk })
    ∧ (reads → fresh → ¬ whole → takes { x with held := some P })
    ∧ (reads → fresh → whole → tcb.ok s1 P = false → takes (refused tcb.kid))
    ∧ (reads → fresh → whole → tcb.ok s1 P = true → ¬ room → takes { x with held := none })
    ∧ (reads → x.kern = some k → k.kid ≠ tcb.kid → exec (.tcbAdmission q) s = .next s1)
    ∧ (reads → x.kern = some k → k.kid = tcb.kid → k.ended = true → takes { took with kern := if tcb.lastk then none else some k })
    ∧ (tcb.named = some L → placement s x tcb = (L % s.nlive, x.rot))
    ∧ (tcb.named = none → x.desc.place = 0 → (let turn := if x.rot < s.nlive then x.rot else 0
        placement s x tcb = (turn, (turn + 1) % s.nlive)))
    ∧ (tcb.named = none → x.desc.place = 1 → 0 < s.nlive → (placement s x tcb).1 < s.nlive ∧ ∀ j, j < s.nlive →
        depth (placement s x tcb).1 ≤ depth j ∧ (depth j = depth (placement s x tcb).1 → (placement s x tcb).1 ≤ j))
    ∧ (tcb.named = none → x.desc.place = 2 → placement s x tcb = (homeOfHash s (kh (tcb.dw 8)), x.rot))
    ∧ (mfind s.queues q = some x → x.kern = some k → k.lastk = true → k.ended = false → ¬ member → (∀ d ∈ s.stores, d.2.kern ≠ ⟨q, k.kid⟩) →
        (∀ z ∈ s.reqs, z.kern = ⟨q, k.kid⟩ → z.done ≠ none) →
        ∃ t, exec (.kernelComplete q) s = .next t ∧ t.mem = s.mem
          ∧ mfind t.queues q = some { x with kern := none, waiting := x.waiting ++ [⟨0, .none, k.kid, k.run, 0⟩] }
          ∧ ∀ j, j ≠ q → mfind t.queues j = mfind s.queues j)
    ∧ (mfind s.queues q = some x → x.kern = some k → k.lastk = false ∨ k.ended = true ∨ member ∨ (∃ z ∈ s.reqs, z.kern = ⟨q, k.kid⟩ ∧ z.done = none) →
        exec (.kernelComplete q) s = .next s)
    ∧ (writes → ¬ full → recordStore who place (recordBytes r) s = .ok ((), s2) → mfind s2.queues q = some x →
        exec (.completionRecordWrite q) s = .next { s2 with queues := mset s2.queues q { x with written := x.written + 1, waiting := rest } })
    ∧ (writes → full → becomes (.completionRecordWrite q) { x with err := x.err ||| 4 })
    ∧ (writes → ¬ full → recordStore who place (recordBytes r) s = .error (.wait w0) → (∀ p, w0 ≠ .page p) → exec (.completionRecordWrite q) s = .next s)
    ∧ (writes → ¬ full → recordStore who place (recordBytes r) s = .error (.trap t0) →
        becomes (.completionRecordWrite q) { x with err := x.err ||| 8, blocked := true })
    ∧ (mfind s.queues q = some x → x.blocked = true → exec (.completionRecordWrite q) s = .next s)
    ∧ (r.unit < 2048 → r.members < 2 ^ 64 → (recordBytes r).length = 32 ∧ leNat ((recordBytes r).take 4) = r.kid.toNat
        ∧ leNat (((recordBytes r).drop 4).take 1) = r.cause.code ∧ leNat (((recordBytes r).drop 6).take 2) = r.unit
        ∧ leNat (((recordBytes r).drop 8).take 8) = r.members ∧ leNat (((recordBytes r).drop 16).take 8) = r.pc.toNat
        ∧ leNat ((recordBytes r).drop 24) = 0)

/-- R110 to R113, R332, R334, R336: the schedule page of a die and the residency schedule; what becomes of an access that waits for a page: it goes on, traps, waits for a
frame, joins a regeneration or launches one, and the end of the regeneration, on which a waiting fetch raises FETCH_FAULT; a task that ships; and what this device answers to remote accesses. The free choice with which a stow ends, the least-loaded cluster, the backing of a page
and a launch that fails are the model's readings (log entries 21, 22, 29, 42 and 60). -/
def Obligations.PagesAndRemoteAccesses : Prop :=
  ∀ (s s1 s2 s3 : State) (die u n i j : Nat) (v va pte : Word) (big : Bool) (bs tb : List Byte) (q : Queue) (r : RegenWait) (since : Nat) (req : RemoteReq)
    (a : Nat) (e w0 w1 : Word) (Q : Nat) (task : Task) (t0 : Trap) (peer : Nat) (op : AtomOp) (p0 : Piece) (sec : Sector) (tag : Half),
    let x := s.die die
    let step := fun (i : Instr) (y : Die) => exec i s = .next (s.setDie die y)
    let new := BitVec.ofNat 32 v.toNat
    let tailGood := (new - x.head).toNat ≤ 2 ^ x.rslog.toNat ∧ (x.tail - x.head).toNat ≤ (new - x.head).toNat
    let answers := fun (t : State) (a : PeerReply) => { t with net := { t.net with reply := some a } }
    let next := { x with head := x.head + 1 }
    let entry := x.head ≠ x.tail ∧ loadBytes (engineWho none (16 * die)) (x.rsbase + word (16 * (x.head.toNat % 2 ^ x.rslog.toNat))) 16 s = .ok (bs, s1)
      ∧ leNat (bs.take 8) = w0.toNat ∧ leNat (bs.drop 8) = w1.toNat ∧ s1.die die = x
    let due := entry ∧ w1.toNat ≤ x.step.toNat ∧ w0.toNat / 2 ^ 56 % 32 = 0
    let action := w0.toNat / 2 ^ 62
    let size := if w0.getLsbD 61 then 2 ^ 25 else 2 ^ 16
    let page := word ((sext56 w0).toNat / size * size)
    let frames := if big then 512 else 1
    let waits := (s.core u).wait = .page va
    let loads := (s.core u).fetchWait = false
    let stays := shippable s u = false
    let base := word (va.toNat / (if big then 2 ^ 25 else 2 ^ 16) * (if big then 2 ^ 25 else 2 ^ 16))
    let y := s.die (homeDie base)
    let slotFree := mfind (s.cluster (clusterOf u)).mailbox (inCluster u) = none
    let noWrites := fun (t : State) => ∀ k ∈ t.clusters, k.2.tcbWrites = []
    let P := clusterOf u
    let leaves := (s.core u).wait = .ship va ∧ (s.eager = true ∨ (s.core u).stowing ≠ none) ∧ cutOff s u = false
    let faults := fun (i : Instr) => ∃ t r, exec i s = .next t ∧ (t.core u).status = .trapped r ∧ PreciseRecord s u r .pageFault va ∧ t.mem = s.mem
      ∧ (t.core u).g = (s.core u).g ∧ (t.core u).pc = (s.core u).pc ∧ ∀ w, w ≠ u → t.core w = s.core w
    let fetchFaults := fun (i : Instr) => ∃ t r, exec i s = .next t ∧ (t.core u).status = .trapped r ∧ PreciseRecord s u r .fetchFault va
      ∧ r.from_ = rec56 (s.core u).from_ ∧ t.mem = s.mem ∧ (t.core u).g = (s.core u).g ∧ (t.core u).pc = (s.core u).pc
    let ships := fun (i : Instr) => ∃ t, exec i s = .next t ∧ (t.core u).wait = .ship va ∧ t.mem = s.mem ∧ (t.core u).g = (s.core u).g
      ∧ (t.core u).pc = (s.core u).pc
    let ended := (s.regens.filter (fun r => homeDie r.page == die))[j]? = some r ∧ regenDone s r = true ∧ r.failed = false
    let local_ := req.addr &&& ~~~(word (0x7FFF * 2 ^ 40))
    let who := engineWho (some req.tenant) (16 * homeDie local_)
    let near := LinksUp s ∧ req.addr.getLsbD 55 = false
    let done := fun (t : State) (rep : PeerReply) (count : Nat) => exec (.remoteRequest req) s =
      .next { t with net := { t.net with reply := some rep, performed := t.net.performed + count, held := t.net.held.erase req } }
    (die < 4 → 6 ≤ s.sys.bring →
      (x.step.toNat ≤ v.toNat → step (.scheduleStepWrite die v) { x with step := v })
      ∧ (v.toNat < x.step.toNat → step (.scheduleStepWrite die v) { x with err := x.err ||| 1 })
      ∧ (tailGood → step (.scheduleTailWrite die v) { x with tail := new })
      ∧ (¬ tailGood → step (.scheduleTailWrite die v) { x with err := x.err ||| 2 }))
    ∧ (die < 4 → exec (.scheduleErrRead die) s = .next (answers (s.setDie die { x with err := 0 }) (.data (leBytes 8 x.err.toNat))))
    ∧ (x.head = x.tail → exec (.residencyEntryPerform die) s = .next s)
    ∧ (due → action = 2 → exec (.residencyEntryPerform die) s = .next ({ s1 with pinned := page :: s1.pinned }.setDie die next))
    ∧ (due → action = 3 → exec (.residencyEntryPerform die) s = .next ({ s1 with pinned := s1.pinned.filter (fun p => p ≠ page) }.setDie die next))
    ∧ (due → action = 0 → isPinned s1 page size = true → exec (.residencyEntryPerform die) s = .next (s1.setDie die next))
    ∧ (due → noWrites s1 → action = 0 → isPinned s1 page size = false → pageEntry s1 page (w0.getLsbD 61) = some (a, e) → e.getLsbD 0 = true →
        ∃ t, exec (.residencyEntryPerform die) s = .next t ∧ t.mem.nat a 8 = e.toNat - 1 ∧ (∀ b, b < a ∨ a + 8 ≤ b → t.mem.peek b = s1.mem.peek b)
          ∧ (t.die die).head = x.head + 1 ∧ t.freeFrames = s1.freeFrames + size / 2 ^ 16
          ∧ (e.getLsbD 6 = true → t.backing = s1.backing)
          ∧ (e.getLsbD 6 = false → mfind t.backing (page.toNat / 2 ^ 16) = some (frameCells s1 (ptePa e) size)))
    ∧ (due → noWrites s1 → action = 1 → pageEntry s1 page (w0.getLsbD 61) = some (a, e) → e.getLsbD 0 = false → e.getLsbD 6 = false →
        (s1.freeFrames < size / 2 ^ 16 → exec (.residencyEntryPerform die) s = .next s1)
        ∧ (size / 2 ^ 16 ≤ s1.freeFrames → ∃ t, exec (.residencyEntryPerform die) s = .next t ∧ t.mem.nat a 8 = e.toNat + 1 ∧ (t.die die).head = x.head + 1
            ∧ t.freeFrames = s1.freeFrames - size / 2 ^ 16 ∧ mfind t.backing (page.toNat / 2 ^ 16) = none))
    ∧ (entry →
        (x.step.toNat < w1.toNat → exec (.residencyEntryPerform die) s = .next s1)
        ∧ (w1.toNat ≤ x.step.toNat → w0.toNat / 2 ^ 56 % 32 ≠ 0 →
            ∃ t, exec (.residencyEntryPerform die) s = .next t ∧ t.die die = { next with err := x.err ||| 4 } ∧ t.mem = s1.mem))
    ∧ (waits → walk s va = .leaf pte big → ∃ t, exec (.contextShip u) s = .next t ∧ OnlyCore s t u ∧ t.core u = { s.core u with wait := .none })
    ∧ (waits → walk s va = .fail → loads → stays → slotFree → faults (.contextShip u))
    ∧ (waits → walk s va = .fail → loads → ¬ stays → ships (.contextShip u))
    ∧ (waits → walk s va = .fail → ¬ loads → slotFree → fetchFaults (.contextShip u))
    ∧ (waits → walk s va = .regen i big → (∀ r ∈ s.regens, r.page ≠ base) → s.freeFrames < frames →
        ∃ t, exec (.contextShip u) s = .next t ∧ OnlyCore s t u ∧ t.core u = { s.core u with wait := .frame va s.now })
    ∧ (waits → walk s va = .regen i big → s.regens = [r] → r.page = base → r.big = big → r.failed = false →
        r.engines.Nodup → exec (.contextShip u) s = .next s)
    ∧ (waits → walk s va = .regen i big → (∀ r ∈ s.regens, r.page ≠ base) → frames ≤ s.freeFrames →
        deviceRead s (engineWho none 0) (y.rgbase + word (16 * i)) 16 = some (bs, s1) → queueAt s1 (word (leNat (bs.take 8))) = some n →
        mfind s1.queues n = some q → deviceRead s1 (engineWho none 0) (word (leNat (bs.drop 8))) 192 = some (tb, s2) →
        (q.tail - q.head).toNat < 2 ^ q.desc.lslot →
        deviceWrite s2 (engineWho none 0) (q.desc.ring + word (192 * (q.tail.toNat % 2 ^ q.desc.lslot)))
          (tb.take 16 ++ leBytes 8 base.toNat ++ leBytes 8 i ++ tb.drop 32) = some s3 → mfind s3.queues n = some q →
        ∃ t, exec (.contextShip u) s = .next t ∧ t.mem = s3.mem
          ∧ mfind t.queues n = some { q with tail := q.tail + 1, tails := q.tails ++ [(q.tail + 1, s3.now)] }
          ∧ t.freeFrames = s3.freeFrames - frames ∧ ∃ g, t.regens = s3.regens ++ [g] ∧ g.page = base ∧ g.big = big ∧ g.index = i ∧ g.failed = false)
    ∧ (leaves → leastLoaded s (homeDie va) = some P → slotFree → faults (.contextShip u))
    ∧ (leaves → leastLoaded s (homeDie va) = some Q → Q ≠ P → (s.core u).task = some n → mfind (s.cluster P).tcbs n = some task → task.stowa = 0 →
        (s.cluster P).forwards.length < 64 → freeEntry (s.cluster Q) = some j → s.holdsRecord (.net Q) = false →
        ∃ t y z, exec (.contextShip u) s = .next t ∧ (t.core u).status = .free ∧ (t.core u).task = none
          ∧ mfind (t.cluster Q).tcbs j = some y ∧ y.kern = task.kern ∧ y.path = task.path ∧ y.stowed = true ∧ y.status = .trapped ∧ y.trapRec = some z
          ∧ PreciseRecord s u z .pageFault va
          ∧ (task.tcba = 0 → Settled s u → (s.core u).spilled = [] →
              t.mem.bytes ((s.cluster Q).frames + 1536 * j) 1536 = stowImage s u (s.core u).pc ((latchExpired s u).core u).ctx.latched true 0)
          ∧ ∀ k, 32 ≤ k → k < 64 → mfind (s.cluster Q).mailbox k = none → (∀ l, 32 ≤ l → l < k → mfind (s.cluster Q).mailbox l ≠ none) →
              (s.cluster Q).supLost = false → mfind (t.cluster Q).mailbox k = some z)
    ∧ (leaves → leastLoaded s (homeDie va) = some Q → Q ≠ P → (s.core u).task ≠ none → s.holdsRecord (.net Q) = true → ∃ t, exec (.contextShip u) s = .next t
        ∧ t.mem = s.mem ∧ (t.core u).stowing ≠ none ∧ (t.core u).g = (s.core u).g ∧ (t.core u).pc = (s.core u).pc)
    ∧ (leastLoaded s die = some Q → Q ∈ s.lmap ∧ Q / 16 = die ∧ ∀ P ∈ s.lmap, P / 16 = die →
        (s.cluster Q).tcbs.length ≤ (s.cluster P).tcbs.length ∧ ((s.cluster P).tcbs.length = (s.cluster Q).tcbs.length → Q ≤ P))
    ∧ ((s.core u).wait = .frame va since → walk s va = .regen i big →
        (frames ≤ s.freeFrames → ∃ t, exec (.frameWaitTimeout u) s = .next t ∧ OnlyCore s t u ∧ t.core u = { s.core u with wait := .page va })
        ∧ (s.freeFrames < frames → s.now < since + 2 ^ 20 → exec (.frameWaitTimeout u) s = .next s)
        ∧ (s.freeFrames < frames → since + 2 ^ 20 ≤ s.now → loads → stays → slotFree → faults (.frameWaitTimeout u))
        ∧ (s.freeFrames < frames → since + 2 ^ 20 ≤ s.now → loads → ¬ stays → ships (.frameWaitTimeout u)))
    ∧ (ended → noWrites s → walk s r.page = .leaf pte big → waits → pageBase va r.big = r.page →
        ∃ t, exec (.regenerationComplete die j) s = .next t ∧ (t.core u).wait = .none ∧ (t.core u).pc = (s.core u).pc ∧ (t.core u).g = (s.core u).g
          ∧ (t.core u).status = (s.core u).status ∧ t.mem = s.mem ∧ t.regens = s.regens.erase r ∧ t.freeFrames = s.freeFrames)
    ∧ (ended → noWrites s → (∀ p b, walk s r.page ≠ .leaf p b) → waits → pageBase va r.big = r.page → (∀ w z, w ≠ u → (s.core w).wait ≠ .page z) → slotFree →
        (loads → stays → faults (.regenerationComplete die j)) ∧ (¬ loads → fetchFaults (.regenerationComplete die j)))
    ∧ (ended → noWrites s → (∀ p b, walk s r.page ≠ .leaf p b) → r.engines ≠ [] → ∃ t, exec (.regenerationComplete die j) s = .next t
        ∧ t.regens = s.regens.erase r ++ [{ r with failed := true }] ∧ t.freeFrames = s.freeFrames + framesOf r.big)
    ∧ ((s.regens.filter (fun r => homeDie r.page == die))[j]? = some r → regenDone s r = false → exec (.regenerationComplete die j) s = .next s)
    ∧ (near → req.op = .read n → loadBytes who local_ n s = .ok (bs, s1) → done s1 (.data bs) 0)
    ∧ (near → req.op = .write bs → storeBytes who .store local_ bs none false s = .ok ((), s1) → done s1 (.data []) 1)
    ∧ (near → req.op = .atomic op v e → remoteAtHome who local_ op v e s = .ok (bs, s1) → done s1 (.data bs) 1)
    ∧ (near → req.op = .readSector → local_.toNat % 64 = 0 → resolve who .load local_ 64 s = .ok ([p0], s1) → noPoison who [p0] s1 = .ok ((), s1) →
        readSectorPiece who p0 s1 = .ok ((bs, tag), s2) → done s2 (.data (bs ++ leBytes 2 tag.toNat)) 0)
    ∧ (near → req.op = .writeSector sec tag → local_.toNat % 64 = 0 → storeBytes who .sector local_ (leBytes 64 sec.toNat) (some tag) false s = .ok ((), s1) →
        done s1 (.data []) 1)
    ∧ (near → remoteAccess who req s = .error (.wait (.page va)) →
        (faultRegen s va (some (.net 64)) = (false, s1) → req ∉ s1.net.held →
          exec (.remoteRequest req) s = .next { s1 with net := { s1.net with held := s1.net.held ++ [req] } })
        ∧ (faultRegen s va (some (.net 64)) = (true, s1) → done s1 (.fault .pageFault) 0))
    ∧ (near → req.op = .read n → loadBytes who local_ n s = .error (.trap t0) → done s (.fault t0.cause) 0)
    ∧ (LinksUp s → ¬ near → done s (.fault .plbDeny) 0)
    ∧ (∀ m ∈ [UeMode.rod, .rud], exec (.ueConnectionOpen m peer) s = .next { s with net := { s.net with conns := s.net.conns ++ [(m, peer)] } })
    ∧ exec (.ueConnectionOpen .other peer) s = .next (answers s (.fault .plbDeny))


/-! ## Links, other devices, power -/

/-- R328 to R331, R336, R338, R339, R368: what a link does with a flit, with a NAK and with its timer; retraining, at the widths of R330; what leaves a module; and the records of
a device's children and its parent, with the detection of lost devices and connections and, at a fault epoch, the stop of a group and of the kernels with an access
outstanding to a lost device. The byte order of the CRC and when a data flit leaves, and the unit and the PC of the completion record of a kernel that a fault epoch stops, are the model's readings (log entries 12, 34 and 66). -/
def Obligations.LinksAndDevices : Prop :=
  ∀ (s : State) (m : Nat) (flit : BitVec 2048) (ack seq : BitVec 12) (kind : Nat) (nak : Bool) (payload : BitVec 1920) (failed repaired : BitVec 64) (f : Flit)
    (rest : List Flit) (child e : Nat) (r : BeaconRec) (c : ChildRec) (group : List Nat) (q : Nat) (x : Queue) (k : Kernel) (key : KKey)
    (z : Req) (rod : Bool) (rop : Option AtomOp),
    let l := s.link m
    let far := s.link (farEnd m)
    let live := l.up = true ∧ l.retrain = false
    let sets := fun (i : Instr) (l' : Link) => exec i s = .next (s.setLink m l')
    let left := fun (a : BitVec 12) => l.replay.filter (fun g => !decide ((a - g.seq).toNat < 2048))
    let worn := fun (y : Link) (n : Nat) => y.ethr ≠ 0 ∧ y.ethr.toNat ≤ n
    let retrains := fun (i : Instr) (before : Link) => ∃ t, exec i s = .next t ∧ t.mem = s.mem ∧
      ∀ p ∈ [(m, before), (farEnd m, far)], (t.link p.1).retrain = true ∧ (t.link p.1).nakOwed = false ∧ (t.link p.1).timerOn = false
        ∧ (t.link p.1).lctl.getLsbD 0 = false ∧ (t.link p.1).lctl.getLsbD 1 = p.2.lctl.getLsbD 1 ∧ (t.link p.1).replay = p.2.replay
        ∧ (t.link p.1).rxExp = p.2.rxExp ∧ (t.link p.1).delivered = p.2.delivered
        ∧ ((t.link p.1).toX32 = true ↔ worn before before.ecnt.toNat ∨ worn far far.ecnt.toNat ∨ l.lctl.getLsbD 1 = true ∨ far.lctl.getLsbD 1 = true)
    let good := live ∧ flitGood flit = true
    let data := good ∧ flitKind flit = 1 ∧ flitNak flit = false
    let ahead := (flitSeq flit - l.rxExp).toNat
    let made := makeFlit seq kind ack nak payload
    let owes := 0 < l.owed ∧ l.replay.length < 128
    let dataFlit := fun (body : BitVec 1920) =>
      { l with out := makeFlit l.txSeq 1 (l.rxExp - 1) l.nakOwed body, nakOwed := false, txSeq := l.txSeq + 1,
               replay := l.replay ++ [⟨l.txSeq, 1, body⟩], progress := if l.replay.isEmpty then s.now else l.progress }
    let lower := ∀ j, j < 32 → failed.getLsbD j = true → repaired.getLsbD j = true
    let upper := ∀ j, 32 ≤ j → j < 64 → failed.getLsbD j = true → repaired.getLsbD j = true
    (good → flitNak flit = false → ∃ t, exec (.flitReceive m flit) s = .next t ∧ t.mem = s.mem ∧ (∀ p, p ≠ m → t.link p = s.link p) ∧
        (flitKind flit ≤ 2 → (t.link m).replay = left (flitAck flit))
        ∧ (flitKind flit ≠ 1 → (t.link m).rxExp = l.rxExp ∧ (t.link m).delivered = l.delivered ∧ (t.link m).nakOwed = l.nakOwed)
        ∧ (t.link m).ecnt = l.ecnt)
    ∧ (data → ∃ t, exec (.flitReceive m flit) s = .next t
        ∧ (ahead = 0 → (t.link m).rxExp = l.rxExp + 1 ∧ (t.link m).delivered = l.delivered ++ [flitPayload flit] ∧ (t.link m).nakOwed = l.nakOwed)
        ∧ (ahead ≠ 0 → (t.link m).rxExp = l.rxExp ∧ (t.link m).delivered = l.delivered ∧ (t.link m).nakOwed = (l.nakOwed || decide (ahead < 2048))))
    ∧ (good → flitKind flit ≤ 2 → flitNak flit = true → ∃ t, exec (.flitReceive m flit) s = .next t ∧ (t.link m).replay = left (flitAck flit)
        ∧ (t.link m).resend = left (flitAck flit) ∧ (t.link m).rplc = l.rplc)
    ∧ (live → flitGood flit = false → ¬ worn l (l.ecnt + 1).toNat →
        sets (.flitReceive m flit) { l with ecnt := l.ecnt + 1, lastCrc := s.now, nakOwed := true })
    ∧ (m < 16 → live → flitGood flit = false → worn l (l.ecnt + 1).toNat →
        retrains (.flitReceive m flit) { l with ecnt := l.ecnt + 1, lastCrc := s.now, nakOwed := true })
    ∧ (¬ live → ∀ i ∈ [Instr.flitReceive m flit, .nakReceive m ack, .idleFlitSend m], exec i s = .next s)
    ∧ (live → ∃ t, exec (.nakReceive m ack) s = .next t ∧ t = s.setLink m (t.link m) ∧ (t.link m).replay = left ack ∧ (t.link m).resend = left ack
        ∧ (t.link m).rplc = l.rplc ∧ (t.link m).rxExp = l.rxExp ∧ (t.link m).delivered = l.delivered)
    ∧ (live → l.timerOn = true → l.replay ≠ [] → l.progress + 2048 ≤ s.now →
        sets (.replayTimeout m) { l with resend := l.replay, progress := s.now })
    ∧ (¬ live ∨ l.timerOn = false ∨ l.replay = [] ∨ s.now < l.progress + 2048 → exec (.replayTimeout m) s = .next s)
    ∧ (live → l.resend = [] → owes → ∃ t body, exec (.idleFlitSend m) s = .next t ∧ t.mem = s.mem ∧ (∀ p, p ≠ m → t.link p = s.link p)
        ∧ t.link m = { dataFlit body with owed := (t.link m).owed } ∧ (t.link m).owed < l.owed ∧ (s.eager = true → (t.link m).owed + 1 = l.owed))
    ∧ (live → l.resend = [] → ¬ owes → s.eager = true → sets (.idleFlitSend m) { l with out := makeFlit l.txSeq 0 (l.rxExp - 1) l.nakOwed 0, nakOwed := false })
    ∧ (live → l.resend = [] → ¬ owes → s.eager = false → ∃ t body, exec (.idleFlitSend m) s = .next t ∧ t.mem = s.mem ∧ (∀ p, p ≠ m → t.link p = s.link p)
        ∧ (t.link m = { l with out := makeFlit l.txSeq 0 (l.rxExp - 1) l.nakOwed 0, nakOwed := false }
          ∨ t.link m = { l with out := makeFlit l.txSeq 2 (l.rxExp - 1) l.nakOwed body, nakOwed := false }
          ∨ l.replay.length < 128 ∧ t.link m = dataFlit body))
    ∧ (live → l.resend = f :: rest →
        sets (.idleFlitSend m)
          { l with out := makeFlit f.seq f.kind (l.rxExp - 1) l.nakOwed f.payload, nakOwed := false, resend := rest, rplc := l.rplc + 1 })
    ∧ (kind < 16 → flitSeq made = seq ∧ flitKind made = kind ∧ flitAck made = ack ∧ flitNak made = nak ∧ flitPayload made = payload ∧ flitGood made = true)
    ∧ (m < 16 → farEnd m < 16 ∧ farEnd m ≠ m ∧ farEnd (farEnd m) = m)
    ∧ (m < 16 → l.retrain = false → (l.lctl.getLsbD 0 = true ∨ worn l l.ecnt.toNat) → retrains (.linkRetrain m) l)
    ∧ (l.retrain = true ∨ l.lctl.getLsbD 0 = false ∧ ¬ worn l l.ecnt.toNat → exec (.linkRetrain m) s = .next s)
    ∧ (l.retrain = false → exec (.retrainComplete m failed repaired) s = .next s)
    ∧ (m < 16 → l.retrain = true → (∀ k ∈ s.clusters, k.2.tcbWrites = []) → ∃ t, exec (.retrainComplete m failed repaired) s = .next t ∧ t.mem = s.mem ∧
        ∀ p ∈ [(m, l), (farEnd m, far)],
          (t.link p.1).ecnt = 0 ∧ (t.link p.1).retrain = false ∧ (t.link p.1).timerOn = true ∧ (t.link p.1).progress = s.now
          ∧ (t.link p.1).rxExp = p.2.rxExp ∧ (t.link p.1).replay = p.2.replay
          ∧ (t.link p.1).repaired = ((List.range 64).filter (fun j => failed.getLsbD j && repaired.getLsbD j)).length
          ∧ ((t.link p.1).up = true ↔ lower ∨ upper)
          ∧ (lower → upper → p.2.toX32 = false → (t.link p.1).lanes = 64 ∧ (t.link p.1).upper = false)
          ∧ (lower → ¬ upper ∨ p.2.toX32 = true → (t.link p.1).lanes = 32 ∧ (t.link p.1).upper = false)
          ∧ (¬ lower → upper → (t.link p.1).lanes = 32 ∧ (t.link p.1).upper = true)
          ∧ (lower ∨ upper → (t.link p.1).resend = p.2.replay ∧ (t.link p.1).rplc = p.2.rplc))
    ∧ (l.lastCrc + 2 ^ 24 ≤ s.now → sets (.ecntQuietClear m) { l with ecnt := 0 })
    ∧ (s.now < l.lastCrc + 2 ^ 24 → exec (.ecntQuietClear m) s = .next s)
    ∧ (s.net.parent = some child → exec (.beaconRecord child r) s =
        .next { s with net := { s.net with epoch := max s.net.epoch r.epoch, global := (r.b, r.q), heard := s.net.round } })
    ∧ (s.net.parent ≠ some child → (mfind s.net.children child ≠ none ∨ s.net.children.length < 192) → ∃ t c', exec (.beaconRecord child r) s = .next t ∧ t = { s with net := t.net }
        ∧ mfind t.net.children child = some c' ∧ c'.last = r ∧ c'.seen = s.net.round ∧ (t.net.epoch = max s.net.epoch r.epoch)
        ∧ (mfind s.net.children child = none → c'.lost = false) ∧ ∀ j, j ≠ child → mfind t.net.children j = mfind s.net.children j)
    ∧ (s.net.parent ≠ some child → mfind s.net.children child = none → 192 ≤ s.net.children.length → exec (.beaconRecord child r) s = .next s)
    ∧ (mfind s.net.children child = some c → c.lost = false → c.seen + 1000 ≤ s.net.round → ∃ t, exec (.lostDeviceDetect child) s = .next t
        ∧ t = { s with net := t.net } ∧ mfind t.net.children child = some { c with lost := true } ∧ t.net.epoch = s.net.epoch + 1
        ∧ t.net.lost = s.net.lost ++ [child])
    ∧ (mfind s.net.children child = none → s.net.parent = some child → child ∉ s.net.lost → s.net.heard + 1000 ≤ s.net.round →
        exec (.lostDeviceDetect child) s = .next { s with net := { s.net with lost := s.net.lost ++ [child], epoch := s.net.epoch + 1 } })
    ∧ (mfind s.net.children child = some c → c.lost = true ∨ s.net.round < c.seen + 1000 → exec (.lostDeviceDetect child) s = .next s)
    ∧ (e ∉ s.net.lostConns → exec (.lostConnectionDetect e) s =
        .next { s with net := { s.net with lostConns := s.net.lostConns ++ [e], epoch := s.net.epoch + 1 } })
    ∧ (e ∈ s.net.lostConns → exec (.lostConnectionDetect e) s = .next s)
    ∧ (s.net.epoch = 0 → exec (.faultEpochStop group) s = .next s)
    ∧ (s.net.epoch ≠ 0 → stranded s = [] → mfind s.queues q = some x → x.kern = some k →
        exec (.faultEpochStop [q]) s = .next (endKernel s ⟨q, k.kid⟩ .poison 0 0))
    ∧ (s.net.epoch ≠ 0 → stranded s = [key] → exec (.faultEpochStop []) s = .next (endKernel s key .poison 0 0))
    ∧ (s.reqs = [z] → s.engines = [] → z.kind = .far e rod rop → z.done = none → stranded s = if s.net.lost.contains e || s.net.lostConns.contains e then [z.kern] else [])

/-- R28 to R30, R32, R369 to R371: power-on brings the module up if both firmware images are accepted; recovery; attestation; cold reset; and the clock under heat and the power
limit, with the shutdown at 110 degrees. The results of signatures and self-tests are arguments, the limit is data, and what a cold reset keeps, how a
measurement register is extended and the floor of the clock are the model's readings (log entries 13, 35, 47 and 68). -/
def Obligations.PowerAndReset : Prop :=
  ∀ (s : State) (b : BringUp) (img : FwImage) (nonce m0 m1 : BitVec 384) (pass : List Nat) (temp watts P d u : Nat) (failed repaired : BitVec 64),
    let y := s.sys
    let signed := fun (i : FwImage) => i.rsaKey = y.keys.1 ∧ i.slhKey = y.keys.2 ∧ i.rsaOk = true ∧ i.slhOk = true ∧ y.rollback ≤ i.version
    let off := y.bring = 0 ∧ y.recovery = false
    let slower := max 100 (y.clock - 100)
    let faster := min 3300 (y.clock + 100)
    let keeps := fun (i : Instr) (t : State) => exec i s = .next t ∧ t = { s with sys := t.sys }
    let lower := ∀ j, j < 32 → failed.getLsbD j = true → repaired.getLsbD j = true
    let upper := ∀ j, 32 ≤ j → j < 64 → failed.getLsbD j = true → repaired.getLsbD j = true
    let hot := 100 < temp ∨ y.hot = true ∧ temp = 100
    (off → signed b.image → b.margins = [(u, d)] → b.lanes = [(P, failed, repaired)] → (s.link P).toX32 = false → y.measure = [m0, m1] → ∃ t, exec (.powerOn b) s = .next t ∧ t.mem = s.mem
        ∧ (∀ X, X ∈ t.lmap ↔ X < 64 ∧ X ∈ b.pass) ∧ t.lmap.Pairwise (· < ·) ∧ t.nlive = t.lmap.length
        ∧ (t.core u).mgn.step = d % 16 ∧ (t.core u).mgn.dflt = d % 16 ∧ (t.core u).g = (s.core u).g
        ∧ ((t.link P).up = true ↔ lower ∨ upper) ∧ (lower → upper → (t.link P).lanes = 64) ∧ (lower → ¬ upper → (t.link P).lanes = 32 ∧ (t.link P).upper = false)
        ∧ (¬ lower → upper → (t.link P).lanes = 32 ∧ (t.link P).upper = true)
        ∧ (∀ X, X < 64 → (t.cluster X).frames = b.frameBase + X * 1572864 ∧ (t.cluster X).ctxs = b.ctxBase + X * 2 ^ 21
            ∧ (t.cluster X).ctxVa = b.ctxVa + word (X * 2 ^ 21))
        ∧ (∀ k, k < 4 → (t.die k).ptroot = b.ptroots.getD k 0)
        ∧ (signed b.supervisor → t.sys.bring = 6 ∧ t.sys.measure = [extend m0 b.image.digest, extend m1 b.supervisor.digest])
        ∧ (¬ signed b.supervisor → t.sys.bring = 4 ∧ t.sys.measure = [extend m0 b.image.digest, m1]))
    ∧ (off → ¬ signed b.image → exec (.powerOn b) s = .next { s with sys := { y with recovery := true } })
    ∧ (¬ off → exec (.powerOn b) s = .next s)
    ∧ (y.recovery = true → signed img → y.measure = [m0, m1] → exec (.recoveryFirmwareImage img) s =
        .next { s with sys := { y with recovery := false, fwVersion := img.version, measure := [extend m0 img.digest, m1] } })
    ∧ (y.recovery = false ∨ ¬ signed img → exec (.recoveryFirmwareImage img) s = .next s)
    ∧ (∃ t z, exec (.attestationQuote nonce) s = .next t ∧ t = { s with sys := { y with quotes := y.quotes ++ [z] }, freeCtr := t.freeCtr }
        ∧ z.nonce = nonce ∧ z.measure = y.measure)
    ∧ (∃ t, exec (.coldReset pass) s = .next t ∧ t.mem = s.mem ∧ (∀ X, X ∈ t.quarCl ↔ X ∈ s.quarCl ∧ X ∉ pass)
        ∧ (∀ X, X ∈ t.lmap ↔ X < 64 ∧ (X ∉ s.quarCl ∨ X ∈ pass)) ∧ t.nlive = t.lmap.length ∧ t.now = 0
        ∧ (∀ v, t.core v = State.reset.core v) ∧ (∀ X, t.cluster X = State.reset.cluster X) ∧ (∀ X, t.tile X = State.reset.tile X)
        ∧ t.queues = [] ∧ t.stores = [] ∧ t.msgs = [] ∧ t.sys.bring = 0 ∧ t.sys.rollback = y.rollback ∧ t.sys.keys = y.keys)
    ∧ (∃ t, keeps (.thermalThrottle temp) t ∧ t.sys.temp = temp
        ∧ (hot → t.sys.hot = true ∧ t.sys.clock = slower) ∧ (¬ hot → t.sys.hot = false ∧ t.sys.clock = faster))
    ∧ (110 ≤ temp → ∃ t, keeps (.thermalShutdown temp) t ∧ t.sys.shutdown = true ∧ t.sys.reported = true ∧ t.sys.temp = temp
        ∧ ((∀ p ms, s.moves ≠ .event (.coldReset p) :: ms) → step t = .fault .shutDown))
    ∧ (temp < 110 → exec (.thermalShutdown temp) s = .next s)
    ∧ (∃ t, keeps (.powerLimitThrottle watts) t
        ∧ t.sys.clock = if y.limit < watts then slower else if y.hot = true then y.clock else faster)


/-! ## The supervisor, pre-emption, errors -/

/-- R342, R346 to R349, R366, R373: the commands of a supervisor, each on the core or stowed task that it fits, and CCMD[6] where it fits none; and the mailbox: a slot is freed, a record
that waited is written, a held record enters; READY of a task that TRAP SOFT with SUB 0 stopped goes on at the address in its g1, or ends the kernel; and a word that names no
command. CCMD[6] after a command that fits, the unit of a record under KILLK, the commands after STOWOUT, the freeing of slots, the entry PCs, where members' images lie, the members of
a gang that runs on and the requeue at READY are the model's readings (log entries 17, 18, 30, 32, 43, 44, 58, 67 and 86). -/
def Obligations.SupervisorCommands : Prop :=
  ∀ (s s1 s2 : State) (u i idx k n W o : Nat) (slot : BitVec 6) (addr : Word) (r rr : TrapRecord) (task : Task) (member : Member) (key : KKey) (x : Queue)
    (kk : Kernel) (img bs : List Byte) (q : Queue) (src : Source) (rest : List (Source × TrapRecord)),
    let P := clusterOf u
    let c := s.core u
    let idle := P ∉ s.quarCl ∧ c.ccmdBusy = false
    let parked := c.status = .trapped r
    let notParked := ∀ y, c.status ≠ .trapped y
    let holds := c.task = some i ∧ mfind (s.cluster P).tcbs i = some task
    let put := fun (v : Nat) => s.modCore u (fun y => { y with ccmd := word v })
    let refuses := fun (j : Instr) (v : Nat) => ∃ t, exec j s = .next t ∧ OnlyCore s t u ∧ t.core u = { c with ccmd := word (v + 64) }
    let frame := fun (j : Nat) => (s.cluster P).frames + 1536 * j
    let atHead := fun (t : State) (j v : Nat) => ∃ y l, mfind (t.cluster P).tcbs j = some y ∧ y.status = .ready ∧ y.stowed = task.stowed ∧ y.pri = task.pri
      ∧ mget (t.cluster P).ready task.pri [] = j :: l ∧ (t.core u).ccmd = word v ∧ (t.mem.peek (frame j + 0x5C0)).getLsbD 3 = false
    let after := r.cause.code = 0x0F ∨ 0x40 ≤ r.cause.code
    let freed := fun (t : State) (v : Nat) => (t.core u).status = .free ∧ (t.core u).task = none ∧ (t.core u).ccmd = word v
    let tcb : Tcb := ⟨dwordsOf bs 24⟩
    let kid : BitVec 32 := BitVec.ofNat 32 ((imageDw img 0x5E8).toNat % 2 ^ 32)
    let box := (s.cluster P).mailbox
    let here := put (7 + 256 * addr.toNat)
    let seatFree := c.status = .free ∧ savingTile s (tileOf u) = false ∧ keptSeat s u = false
    let g1 := word (s.mem.nat (frame idx + 0x408) 8)
    let loads := seatFree ∧ freeEntry (s.cluster P) = some i
      ∧ (deviceRead here (engineWho none P) addr 1536 = some (img, s1)
        ∨ EngineReaches s (engineWho none P) addr 1536 0 W o ∧ img = s.mem.bytes (sramLoc W o) 1536 ∧ s1 = here)
      ∧ s1.queues.find? (fun p => p.2.kern.any (fun y => y.kid == kid && !y.ended)) = some (n, q)
    (P ∈ s.quarCl → ∀ j ∈ [Instr.resume u, .stowout u, .ready u idx, .endTask u, .killk u slot, .restart u idx, .load u addr], exec j s = .next s)
    ∧ (P ∉ s.quarCl → c.ccmdBusy = true → refuses (.resume u) 1 ∧ refuses (.stowout u) 2 ∧ refuses (.ready u idx) (3 + 256 * idx) ∧ refuses (.endTask u) 4
        ∧ refuses (.killk u slot) (5 + 256 * slot.toNat) ∧ refuses (.restart u idx) (6 + 256 * idx) ∧ refuses (.load u addr) (7 + 256 * addr.toNat))
    ∧ (c.ccmdValue = if c.ccmdBusy then c.ccmd ||| 128 else c.ccmd)
    ∧ (idle → parked → c.stowing = none → r.rpc ≠ 0 → ∃ t, exec (.resume u) s = .next t ∧ OnlyCore s t u ∧ (t.core u).status = .running
        ∧ (t.core u).wait = .none ∧ (t.core u).wdStart = s.now ∧ (t.core u).ccmd = 1 ∧ (t.core u).g = c.g ∧ (t.core u).v = c.v ∧ (t.core u).h = c.h
        ∧ (¬ after → (t.core u).pc = sext56 r.rpc ∧ (t.core u).lcnt = c.lcnt ∧ (t.core u).lbeg = c.lbeg ∧ (t.core u).lend = c.lend)
        ∧ (after → c.lcnt = 0 → c.lend.getLsbD 0 = false → (t.core u).pc = sext56 r.rpc))
    ∧ (idle → parked → r.rpc = 0 ∨ c.stowing ≠ none → refuses (.resume u) 1)
    ∧ (idle → notParked → refuses (.stowout u) 2)
    ∧ (idle → notParked → stowedTrap s u = none → refuses (.resume u) 1 ∧ refuses (.endTask u) 4)
    ∧ (idle → notParked → stowedTrap s u = some (i, r, none) → mfind (s.cluster P).tcbs i = some task → task.stowa = 0 → r.rpc ≠ 0 →
        ∃ t, exec (.resume u) s = .next t ∧ atHead t i 1 ∧ (¬ after → t.mem.nat (frame i + 0x520) 8 = (sext56 r.rpc).toNat))
    ∧ (idle → notParked → stowedTrap s u = some (i, r, some k) → mfind (s.cluster P).tcbs i = some task → mfind task.members k = some member → r.rpc ≠ 0 → k ≠ 0 →
        ∃ t y, exec (.resume u) s = .next t ∧ mfind (t.cluster P).tcbs i = some y ∧ t.mem = s.mem
          ∧ mfind y.members k = some { member with image := resumedImage r member.image, trapRec := none })
    ∧ (idle → parked → c.stowing = none → s.eager = true → cutOff s u = false → holds → task.kind.gang = false → task.act = none → task.stowa = 0 →
        ∃ t y, exec (.stowout u) s = .next t ∧ freed t 2 ∧ mfind (t.cluster P).tcbs i = some y ∧ y.stowed = true ∧ y.status = .trapped
          ∧ (task.tcba = 0 → Settled s u → c.spilled = [] → t.mem.bytes (frame i) 1536 = stowImage s u c.pc c.ctx.latched true 0
            ∧ ∀ z, z < frame i ∨ frame i + 1536 ≤ z → t.mem.peek z = s.mem.peek z))
    ∧ (idle → parked → c.stowing = none → s.eager = true → cutOff s u = false → holds → task.kind.gang = true → c.ctx.rank ≠ 0 →
        ∃ t y m, exec (.stowout u) s = .next t ∧ freed t 2 ∧ mfind (t.cluster P).tcbs i = some y ∧ y.status = task.status
          ∧ mfind y.members c.ctx.rank = some m ∧ m.trapRec = some r ∧ m.handles = c.h.toList ∧ m.msgs = c.inbox ∧ m.ports = c.rxPorts
          ∧ imageDw m.image 0x520 = c.pc)
    ∧ (idle → c.status = .free → mfind (s.cluster P).tcbs idx = some task → task.stowed = true → task.kind.gang = false → task.stowa = 0 →
        (softRecord task.trapRec = false → ∃ t, exec (.ready u idx) s = .next t ∧ atHead t idx (3 + 256 * idx))
        ∧ (softRecord task.trapRec = true → g1 ≠ 0 → g1.toNat % 2 = 0 → ∃ t, exec (.ready u idx) s = .next t ∧ atHead t idx (3 + 256 * idx)
            ∧ t.mem.nat (frame idx + 0x520) 8 = g1.toNat ∧ t.mem.nat (frame idx + 0x408) 8 = 0
            ∧ ∀ z, z < frame idx + 0x528 → ¬ (frame idx + 0x408 ≤ z ∧ z < frame idx + 0x410 ∨ frame idx + 0x520 ≤ z) → t.mem.peek z = s.mem.peek z)
        ∧ (task.trapRec = some rr → rr.cause = .soft → rr.sub = 0 → g1 = 0 ∨ g1.toNat % 2 = 1 →
            exec (.ready u idx) s = .next (endKernel (put (3 + 256 * idx)) task.kern .soft rr.pc 0)))
    ∧ (idle → c.status = .free → mfind (s.cluster P).tcbs idx = some task → task.kind.gang = true → task.status = .trapped → task.members = [(k, member)] →
        k ≠ 0 → softRecord member.trapRec = false → ∃ t y, exec (.ready u idx) s = .next t ∧ mfind (t.cluster P).tcbs idx = some y ∧ y.status = .ready
          ∧ y.members = [(k, { member with image := clearedImage member.image, trapRec := none })])
    ∧ (idle → (c.status ≠ .free ∨ mfind (s.cluster P).tcbs idx = none ∨ mfind (s.cluster P).tcbs idx = some task
          ∧ (task.kind.gang = false ∧ task.stowed = false ∨ task.kind.gang = true ∧ task.status ≠ .trapped ∧ task.members = [])) →
        refuses (.ready u idx) (3 + 256 * idx))
    ∧ (idle → parked → ∃ t, exec (.endTask u) s = .next t ∧ freed t 4)
    ∧ (idle → mfind box slot.toNat = some r → c.task ≠ none → c.ctx.kern = key → mfind s.queues key.queue = some x → x.kern = some kk → kk.kid = key.kid →
        kk.ended = false → ∃ t y, exec (.killk u slot) s = .next t ∧ mfind t.queues key.queue = some y
          ∧ y.waiting = x.waiting ++ [⟨if r.cause = .silent ∨ r.cause = .poison then r.unit else 0, r.cause, key.kid, kk.run, r.pc⟩]
          ∧ y.kern = (if kk.lastk then none else some { kk with ended := true })
          ∧ (∀ v, (t.core v).task ≠ none → (t.core v).ctx.kern ≠ key) ∧ (∀ Q j z, mfind (t.cluster Q).tcbs j = some z → z.kern ≠ key)
          ∧ (∀ d ∈ t.stores, d.2.kern ≠ key) ∧ ∀ m ∈ t.msgs, m.kern ≠ key)
    ∧ (idle → (mfind box slot.toNat = none ∨ kernelOf s u = none) → refuses (.killk u slot) (5 + 256 * slot.toNat))
    ∧ (idle → notParked → stowedTrap s u = none → mfind (s.cluster P).tcbs idx = some task → task.status = .torn → task.tcba = 0 →
        (∀ v, task.lastOn = some v → requestsDone s v = true) →
        ∃ t y, exec (.restart u idx) s = .next t ∧ mfind (t.cluster P).tcbs idx = some y ∧ y.status = .ready
          ∧ mget (t.cluster P).ready task.pri [] = mget (s.cluster P).ready task.pri [] ++ [idx])
    ∧ (idle → notParked → stowedTrap s u = none → mfind (s.cluster P).tcbs idx = some task → task.status = .torn → task.tcba ≠ 0 → idx < 1024 →
        (∀ v, task.lastOn = some v → requestsDone s v = true) → writeTcbState (put (6 + 256 * idx)) P task.tcba 0 = s1 →
        deviceRead s1 (engineWho none P) task.tcba 192 = some (bs, s2) → tcb.named = none → tcb.ok s2 P = true →
        (s2.cluster P).backlog = [] → ∃ t j y, exec (.restart u idx) s = .next t ∧ mfind (t.cluster P).tcbs j = some y ∧ y.entry = sext56 (tcb.dw 0)
          ∧ y.kern = task.kern ∧ y.ord = task.ord ∧ y.bound = task.bound ∧ y.stowed = false ∧ t.mem = s2.mem)
    ∧ (idle → notParked → stowedTrap s u = none → (mfind (s.cluster P).tcbs idx = none ∨ mfind (s.cluster P).tcbs idx = some task
          ∧ (task.status ≠ .torn ∨ ∃ v, task.lastOn = some v ∧ requestsDone s v = false)) → refuses (.restart u idx) (6 + 256 * idx))
    ∧ (idle → loads → (imageDw img 0x5C0).getLsbD 0 = false →
        imageDw img 0x5A0 = word q.desc.det → sext56 (imageDw img 0x5B8) = 0 → (∀ j, j < 8 → (imageDw img (0x540 + 8 * j)).getLsbD 63 = false) →
        ∃ t y, exec (.load u addr) s = .next t ∧ (t.core u).status = .running ∧ (t.core u).task = some i ∧ (t.core u).pc = imageDw img 0x520
          ∧ (t.core u).lcnt = imageDw img 0x528 ∧ (t.core u).lbeg = sext56 (imageDw img 0x530) ∧ (t.core u).lend = sext56 (imageDw img 0x538)
          ∧ (t.core u).vt = imageDw img 0x580 ∧ (t.core u).ctx.path = imageDw img 0x588 ∧ (t.core u).ctx.kern = ⟨n, kid⟩
          ∧ (t.core u).ccmd = word (7 + 256 * addr.toNat) ∧ (∀ g, (t.core u).rg g = if g = 0 then 0 else imageDw img (0x400 + 8 * g.toNat))
          ∧ (∀ v, ((t.core u).rv v).bits = BitVec.ofNat 512 (leNat ((img.drop (64 * v.toNat)).take 64)))
          ∧ mfind (t.cluster P).tcbs i = some y ∧ y.kind = .child ∧ y.status = .running ∧ t.mem = s1.mem)
    ∧ (idle → loads → imageDw img 0x5A0 ≠ word q.desc.det → refuses (.load u addr) (7 + 256 * addr.toNat))
    ∧ (idle → ¬ seatFree → refuses (.load u addr) (7 + 256 * addr.toNat))
    ∧ (∀ v : Word, P ∉ s.quarCl → c.ccmdBusy = true ∨ v.toNat % 16 = 0 ∨ 8 ≤ v.toNat % 16 →
        ccmdWrite u v s = put (v.toNat % 16 + 64 + 256 * (v.toNat / 256)))
    ∧ exec (.resume u) s = .next (ccmdWrite u 1 s) ∧ exec (.stowout u) s = .next (ccmdWrite u 2 s) ∧ exec (.endTask u) s = .next (ccmdWrite u 4 s)
    ∧ exec (.killk u slot) s = .next (ccmdWrite u (word (5 + 256 * slot.toNat)) s)
    ∧ (idx < 2 ^ 56 → exec (.ready u idx) s = .next (ccmdWrite u (word (3 + 256 * idx)) s)
        ∧ exec (.restart u idx) s = .next (ccmdWrite u (word (6 + 256 * idx)) s))
    ∧ (sext56 addr = addr → exec (.load u addr) s = .next (ccmdWrite u (word (7 + 256 * addr.toNat)) s))
    ∧ (∃ t, exec (.mbstatFree P slot) s = .next t ∧ (∀ j, mfind (t.cluster P).mailbox j = if j = slot.toNat then none else mfind box j)
        ∧ ∀ v, t.core v = s.core v)
    ∧ ((s.cluster P).heldRecs = (src, rr) :: rest → 32 ≤ k → k < 64 → mfind box k = none → (∀ j, 32 ≤ j → j < k → mfind box j ≠ none) →
        ∃ t, exec (.heldRecordEnter P) s = .next t ∧ mfind (t.cluster P).mailbox k = some { rr with held := true } ∧ (t.cluster P).heldRecs = rest
          ∧ ∀ j, j ≠ k → mfind (t.cluster P).mailbox j = mfind box j)
    ∧ ((s.cluster P).heldRecs = [] ∨ (∀ j, 32 ≤ j → j < 64 → mfind box j ≠ none) → exec (.heldRecordEnter P) s = .next s)
    ∧ (c.status = .stall r → mfind box (inCluster u) = none → ∃ t, exec (.preciseTrap u) s = .next t ∧ mfind (t.cluster P).mailbox (inCluster u) = some r
        ∧ t.core u = { c with status := .trapped r } ∧ t.mem = s.mem ∧ ∀ v, v ≠ u → t.core v = s.core v)
    ∧ (c.status = .stall r → mfind box (inCluster u) ≠ none → ∃ t, exec (.preciseTrap u) s = .next t ∧ OnlyCore s t u ∧ t.core u = c)
    ∧ ((∀ y, c.status ≠ .stall y) → c.owed = some r → mfind box (inCluster u) = none → ∃ t, exec (.preciseTrap u) s = .next t
        ∧ mfind (t.cluster P).mailbox (inCluster u) = some r ∧ t.core u = { c with owed := none } ∧ t.mem = s.mem)
    ∧ ((∀ y, c.status ≠ .stall y) → c.owed = none → exec (.preciseTrap u) s = .next s)

/-- R239, R306, R350, R353, R354: a task whose core is reserved for a gang above it is stowed and stands at the head of its level; a gang member leaves its core, and with the last
the tiles begin to be saved; a tile's unit that has come to rest is saved, a save that cannot begin is refused, and a saved tile is loaded back, as it was; a stow that
takes too long tears the task. The scales beside an image and the places of a cluster gang's images, the refused stow, the members' images, the save that meets a struck array and the
unit it names are the model's readings (log entries 28, 29, 58, 64 and 66). -/
def Obligations.PreemptionAndTiles : Prop :=
  ∀ (s s1 : State) (u i tile since g : Nat) (task : Task) (t0 : Tile) (member : Member) (k W o : Nat) (r : Reservation) (bs : List Byte) (why : StowWhy),
    let P := clusterOf u
    let c := s.core u
    let Q := tile / 8
    let x := s.tile tile
    let holds := c.task = some i ∧ mfind (s.cluster P).tcbs i = some task
    let saving := x.saveFrom = some since ∧ x.gang = some i ∧ mfind (s.cluster Q).tcbs i = some task
    let noTrap := ∀ m ∈ task.members, m.2.trapped = false
    let img := tileImage t0
    let back := Tile.loaded img (fun j => (t0.slot j).scales) g
    let begins := c.stowing = none ∧ c.owed = none ∧ c.status = .running ∧ c.awaitsReply = false ∧ s.eager = true ∧ cutOff s u = false
    let frame := (s.cluster P).frames + 1536 * i
    let late := c.stowing = some (why, since) ∧ since + 4096 ≤ s.now
    let fits := (s.cluster Q).reserv = [r] ∧ (∀ v, v / 4 = tile → v ∈ r.cores ∧ (s.core v).status = .free) ∧ mfind (s.cluster Q).tcbs r.idx = some task
      ∧ task.kind.gang = true ∧ task.stowed = true ∧ task.status = .ready ∧ x.atRest = true ∧ x.queue = []
    let at_ := task.tsave + word (790528 * if task.kind = .clusterGang then tile % 8 else 0)
    let first := 4 * tile
    let inWindow := (∀ j, j < 12352 → EngineReaches s (engineWho none Q) (at_ + word (64 * j)) 64 1 W (o + 64 * j)) ∧ (s.cluster W).rings = []
    (c.stowing = none → preempted s u = false ∨ canStow s u = false ∨ c.owed ≠ none → exec (.preemptStow u) s = .next s)
    ∧ (holds → task.kind.gang = false → task.act = none → reservedAbove s u = true → begins →
        task.stowa = 0 ∨ stowArea s P i task = (false, s) ∧ stowOn s u none ≠ none →
        ∃ t y, exec (.preemptStow u) s = .next t ∧ (t.core u).status = .free ∧ (t.core u).task = none
          ∧ mfind (t.cluster P).tcbs i = some y ∧ y.stowed = true ∧ y.status = .ready
          ∧ mget (t.cluster P).ready task.pri [] = i :: mget (s.cluster P).ready task.pri []
          ∧ (task.stowa = 0 → task.tcba = 0 → Settled s u → c.spilled = [] →
            t.mem.bytes frame 1536 = stowImage s u c.pc ((latchExpired s u).core u).ctx.latched false 0
            ∧ ∀ z, z < frame ∨ frame + 1536 ≤ z → t.mem.peek z = s.mem.peek z))
    ∧ (holds → task.kind.gang = false → task.act = none → reservedAbove s u = true → begins → stowArea s P i task = (false, s) → stowOn s u none = none →
        mfind (s.cluster P).mailbox (inCluster u) = none → ∃ t z, exec (.preemptStow u) s = .next t ∧ (t.core u).status = .running ∧ (t.core u).task = some i
          ∧ mfind (t.cluster P).mailbox (inCluster u) = some z ∧ z.cause = .preempt ∧ z.sub = 0 ∧ ∀ y ∈ (t.cluster P).reserv, u ∉ y.cores)
    ∧ (c.status = .running → ((latchExpired s u).core u).ctx.latched = (c.ctx.latched || decide (c.wdStart + 2 ^ c.ctx.wdt ≤ s.now)))
    ∧ (holds → task.kind.gang = true → preempted s u = true → begins → c.ctx.rank ≠ 0 ∨ task.stowa = 0 →
        ∃ t y m, exec (.preemptStow u) s = .next t ∧ (t.core u).status = .free ∧ (t.core u).task = none ∧ mfind (t.cluster P).tcbs i = some y
          ∧ y.status = .stowed ∧ mfind y.members c.ctx.rank = some m ∧ m.handles = c.h.toList ∧ m.msgs = c.inbox ∧ m.ports = c.rxPorts ∧ m.trapRec = none
          ∧ imageDw m.image 0x520 = c.pc ∧ (∀ a, imageDw m.image (0x400 + 8 * a.toNat) = c.rg a)
          ∧ (∀ a, leNat ((m.image.drop (64 * a.toNat)).take 64) = (c.rv a).bits.toNat)
          ∧ ((∀ v, v ≠ u → clusterOf v = P → (s.core v).task ≠ some i) → ∀ T, T / 8 = P → (s.tile T).gang = some i → (t.tile T).saveFrom = some s.now))
    ∧ (saving → tileQuiet s tile = false → exec (.tileSave tile) s = .next s)
    ∧ (x.saveFrom = none ∨ x.gang = none → exec (.tileSave tile) s = .next s ∧ exec (.tileSaveRefused tile) s = .next s)
    ∧ (saving → tileQuiet s tile = true → x.bad = [] →
        storeSectors (engineWho none Q) tileImageTag 12352 0 at_ (tileImage x) s = .ok ((), s1) ∨ inWindow →
        ∃ t y, exec (.tileSave tile) s = .next t ∧ (t.tile tile).saveFrom = none ∧ (t.tile tile).acc = x.acc ∧ mfind (t.cluster Q).tcbs i = some y
          ∧ (inWindow → task.tcba = 0 → t.mem.bytes (sramLoc W o) 790528 = tileImage x)
          ∧ ((∀ T, T / 8 = Q → T ≠ tile → (s.tile T).gang ≠ some i) → (t.tile tile).gang = none ∧ y.stowed = true
              ∧ (noTrap → y.status = .ready ∧ ∃ l, mget (t.cluster Q).ready task.pri [] = i :: l)))
    ∧ (saving → tileQuiet s tile = true → x.bad ≠ [] → exec (.tileSave tile) s = .next (endKernel s task.kern .poison 0 (s.unitId first)))
    ∧ (img.length = 790528 ∧ (∀ j, j < 32768 → mget back.acc j 0 = mget t0.acc j 0 ∧ mget back.drain j 0 = mget t0.unclaimed j 0)
        ∧ (∀ j, j < 524288 → mget back.blocks j 0 = mget t0.blocks j 0) ∧ back.sel = t0.sel ∧ back.sems = t0.sems ∧ (t0.monb.toNat < 2 ^ 50 → back.monb = t0.monb)
        ∧ (t0.cncd.toNat < 2 ^ 6 → back.cncd = t0.cncd) ∧ (t0.monc.toNat < 2 ^ 52 → back.monc = t0.monc)
        ∧ back.mrepl = t0.mrepl ∧ back.dhead = t0.dhead ∧ back.dclaim = t0.dhead ∧ back.dtail = t0.dtail ∧ back.gang = some g
        ∧ ∀ j, j < 128 → (t0.slot j).kind < 16 → (back.slot j).kind = (t0.slot j).kind ∧ (back.slot j).nan = (t0.slot j).nan)
    ∧ (saving → s.now < since + 2 ^ 20 ∨ (s.core first).owed ≠ none → exec (.tileSaveRefused tile) s = .next s)
    ∧ (saving → since + 2 ^ 20 ≤ s.now → (s.core first).owed = none → task.members = [(k, member)] → k ≠ 0 → member.trapRec = none →
        mfind (s.cluster Q).mailbox (inCluster first) = none →
        ∃ t y z, exec (.tileSaveRefused tile) s = .next t ∧ (t.tile tile).saveFrom = none ∧ mfind (t.cluster Q).tcbs i = some y ∧ y.status = .running
          ∧ y.members = [] ∧ mfind (t.cluster Q).mailbox (inCluster first) = some z ∧ z.cause = .preempt ∧ z.sub = 1
          ∧ (let v := task.lastOn.getD (32 * Q) + k
             (t.core v).status = .running ∧ (t.core v).task = some i ∧ (t.core v).pc = imageDw member.image 0x520
             ∧ ∀ a, (t.core v).rg a = if a = 0 then 0 else imageDw member.image (0x400 + 8 * a.toNat)))
    ∧ (fits → x.gang = none → loadBytes (engineWho none Q) at_ 790528 s = .ok (bs, s1)
          ∨ (∀ j, j < 790528 → EngineReaches s (engineWho none Q) (at_ + word j) 1 0 W (o + j)) ∧ bs = s.mem.bytes (sramLoc W o) 790528 ∧ s1 = s →
        ∃ t, exec (.tileReload tile) s = .next t ∧ t = s1.setTile tile (t.tile tile)
        ∧ (t.tile tile).gang = some r.idx ∧ (t.tile tile).saveFrom = none ∧ (t.tile tile).monb = word ((imageDw bs 0xA0408).toNat % 2 ^ 50)
        ∧ ∀ j, j < 32768 → mget (t.tile tile).acc j 0 = BitVec.ofNat 32 (leNat ((bs.drop (4 * j)).take 4)))
    ∧ (x.gang ≠ none → exec (.tileReload tile) s = .next s)
    ∧ (holds → late → task.tcba ≠ 0 → task.kind.gang = false →
        ∃ t y, exec (.stowTear u) s = .next t ∧ (t.core u).status = .quarantined ∧ (t.core u).task = none ∧ mfind (t.cluster P).tcbs i = some y
          ∧ y.status = .torn ∧ y.stowed = false)
    ∧ (c.stowing = none ∨ c.stowing = some (why, since) ∧ s.now < since + 4096 → exec (.stowTear u) s = .next s)

/-- R24, R25, R27, R28, R30, R340, R352, R355 to R360, R365, R372: the watchdog; the shadow latch's ladder with the margin's steps and its pin; the checker; the corrected errors; the
killing of a core; the quarantine of a cluster, the loss of its supervisor, and the change of the map when it leaves. Which waits expire, LAST at a pin, and the
single steps of a quarantine and a remap are the model's readings (log entries 11, 14, 17 and 39). -/
def Obligations.ErrorsAndQuarantine : Prop :=
  ∀ (s s1 : State) (u i q cl : Nat) (task : Task) (items : List Sent),
    let P := clusterOf u
    let c := s.core u
    let m := c.mgn
    let holds := c.task = some i ∧ mfind (s.cluster P).tcbs i = some task
    let slotFree := mfind (s.cluster P).mailbox (inCluster u) = none
    let due := c.status = .running ∧ c.wdStart + 2 ^ c.ctx.wdt ≤ s.now
    let runs := c.status = .running ∧ c.task ≠ none ∧ m.settling = false
    let requeues := (∃ k, c.wait = .semaphore k) ∨ c.wait = .barrier
    let parked := (∃ l, c.wait = .future l) ∨ (∃ l b, c.wait = .futureRetry l b) ∨ (∃ l, c.wait = .sector l) ∨ (∃ k, c.wait = .ring k) ∨ c.wait = .drainRing
    let replays := fun (j : Instr) (m' : Margin) (drops : Prop) => ∃ t, exec j s = .next t ∧ t.mem = s.mem ∧ (∀ v, v ≠ u → t.core v = s.core v)
      ∧ t.core u = { c with mgn := m', sample := some (replaySample s u), wait := (t.core u).wait }
      ∧ (drops → (t.core u).wait = .none) ∧ (¬ drops → (t.core u).wait = c.wait)
      ∧ ∀ k, c.wait = .semaphore k → ∀ p ∈ mget (t.tile (tileOf u)).semq k [], p.1 ≠ u
    let changes := fun (j : Instr) (m' : Margin) => ∃ t, exec j s = .next t ∧ OnlyCore s t u ∧ t.core u = { c with mgn := m' }
    let count := fun (n : BitVec 32) => if n = 0xFFFFFFFF then n else n + 1
    let near := m.recent.filter (fun t => s.now < t + 2 ^ 24)
    let pins := 7 ≤ near.length
    let newStep := if pins then 0 else m.step - 1
    let killed := fun (j : Instr) (cause : Cause) (sub : Nat) => ∃ t r, exec j s = .next t ∧ (t.core u).status = .quarantined ∧ (t.core u).task = none
      ∧ (mfind (t.cluster P).mailbox (inCluster u) = some r ∨ (t.core u).owed = some r) ∧ r.cause = cause ∧ r.sub = sub ∧ r.pc = rec56 c.pc ∧ r.rpc = 0
      ∧ r.unit = s.unitId u ∧ r.kid = c.ctx.kern.kid
    let last := s.nlive - 1
    let room := fun (t : State) => ∀ x ∈ t.clusters, x.2.backlog.length ≤ 2 ^ 20
    (due → c.awaitsReply = true ∨ c.stowing ≠ none → ∃ t, exec (.watchdogExpiry u) s = .next t ∧ OnlyCore s t u ∧ t.core u = { c with ctx := { c.ctx with latched := true } })
    ∧ (due → c.awaitsReply = false → c.stowing = none → slotFree → ∃ t r, exec (.watchdogExpiry u) s = .next t ∧ (t.core u).status = .trapped r
        ∧ mfind (t.cluster P).mailbox (inCluster u) = some r ∧ PreciseRecord s u r .watchdog 0 ∧ (t.core u).wait = .none ∧ t.mem = s.mem ∧ (t.core u).g = c.g
        ∧ (t.core u).pc = c.pc ∧ ∀ v, v ≠ u → t.core v = s.core v)
    ∧ (¬ due → exec (.watchdogExpiry u) s = .next s)
    ∧ (¬ runs → exec (.shadowLatchReplay u) s = .next s ∧ exec (.checkerMismatch u) s = .next s)
    ∧ (runs → m.replays < 3 → replays (.shadowLatchReplay u) { m with trepc := count m.trepc, replays := m.replays + 1 } requeues)
    ∧ (replaySample s u = c.sample.getD (queueConds s u) ∨ c.sample = none ∧ c.early = some (replaySample s u) ∧ s.eager = false)
    ∧ (runs → m.replays = 3 → m.step ≠ 0 → m.misses < 2 → replays (.shadowLatchReplay u)
        { m with trepc := count m.trepc, replays := 0, step := newStep, pin := m.pin || decide pins, total := m.total + 1, last := newStep,
                 recent := near ++ [s.now], settling := true, armed := m.armed || decide pins } requeues)
    ∧ (runs → m.replays = 3 → m.step = 0 ∨ 2 ≤ m.misses → killed (.shadowLatchReplay u) .silent 0)
    ∧ (runs → m.misses < 2 → replays (.checkerMismatch u) { m with cmisc := count m.cmisc, misses := m.misses + 1 } (requeues ∨ parked))
    ∧ (runs → m.misses < 2 → ∀ l, c.wait = .future l → ∃ t, exec (.checkerMismatch u) s = .next t ∧ (t.core u).wait = .none ∧ (t.core u).g = c.g
        ∧ (t.core u).pc = c.pc ∧ (t.core u).mgn.misses = m.misses + 1 ∧ (∀ d ∈ t.defers, d.core ≠ some u) ∧ t.defers.length = s.defers.length ∧ t.mem = s.mem)
    ∧ (runs → m.misses = 2 → killed (.checkerMismatch u) .silent 0)
    ∧ changes (.mgnstRecentExpiry u) { m with recent := near }
    ∧ changes (.regulatorSettlingEnd u) { m with settling := false }
    ∧ changes (.correctedSoftError u) { m with soft := m.soft + 1 }
    ∧ (c.status = .quarantined ∨ P ∈ s.quarCl → exec (.coreKill u) s = .next s)
    ∧ (c.status ≠ .quarantined → P ∉ s.quarCl → mwf s.cores = true → killed (.coreKill u) .poison 1)
    ∧ (c.status ≠ .quarantined → P ∉ s.quarCl → mwf s.cores = true → holds → task.tcba ≠ 0 → task.kind.gang = false → ∃ t y, exec (.coreKill u) s = .next t
        ∧ mfind (t.cluster P).tcbs i = some y ∧ y.status = .torn)
    ∧ (mfind (s.cluster cl).tcbs i = some task → task.status = .torn → task.tcba = 0 → task.lastOn = none ∨ (∃ v, task.lastOn = some v ∧ requestsDone s v = true) →
        ∃ t y, exec (.taskRestart cl i) s = .next t ∧ mfind (t.cluster cl).tcbs i = some y ∧ y.status = .ready
          ∧ mget (t.cluster cl).ready task.pri [] = mget (s.cluster cl).ready task.pri [] ++ [i])
    ∧ (mfind (s.cluster cl).tcbs i = some task → task.status ≠ .torn ∨ (∃ v, task.lastOn = some v ∧ requestsDone s v = false) →
        exec (.taskRestart cl i) s = .next s)
    ∧ (cl ∈ s.lmap → cl ∉ s.quarCl → mwf s.cores = true → (∀ v, (s.core v).status = .quarantined → (s.core v).task = none) → ∃ t, exec (.clusterQuarantine cl) s = .next t ∧ t.quarCl = s.quarCl ++ [cl]
        ∧ t.lmap = s.lmap ∧ ∀ v, clusterOf v = cl → (t.core v).status = .quarantined)
    ∧ (cl ∉ s.lmap ∨ cl ∈ s.quarCl → exec (.clusterQuarantine cl) s = .next s)
    ∧ (∃ t, exec (.supervisorError cl) s = .next t ∧ (t.cluster cl).supLost = true ∧ (t.cluster cl).mailbox = [] ∧ (cl ∈ s.lmap → cl ∈ t.quarCl))
    ∧ (MapInv s → s.lmap[q]? = some cl → cl ∈ s.quarCl → 1 < s.nlive → (∀ y ∈ s.msgs, y.active = true ∨ y.lost = true ∨ y.cl ≠ q) →
        allItems s.stores s = .ok (items, s1) ∧ room (leaveMap s1 cl q items)
          ∨ s.stores = [] ∧ (s.cluster cl).tcbs = [] ∧ (s.cluster cl).backlog = [] ∧ room s → ∃ t, exec (.clusterRemap cl) s = .next t
        ∧ MapInv t ∧ t.nlive = last ∧ cl ∉ t.lmap ∧ (∀ p, p < last → p ≠ q → t.lmap[p]? = s.lmap[p]?) ∧ (q < last → t.lmap[q]? = s.lmap[last]?))
    ∧ (MapInv s → s.lmap[q]? = some cl → allItems s.stores s = .ok (items, s1) → ¬ room (leaveMap s1 cl q items) → exec (.clusterRemap cl) s = .next s)
    ∧ (cl ∉ s.lmap ∨ cl ∉ s.quarCl ∨ s.nlive ≤ 1 → exec (.clusterRemap cl) s = .next s)
end

