-- ==== Sys2Proof/Laws/Maps.lean ====
section
/-! SUPPORT. The laws of maps: a read after a write, and that every operation keeps the keys rising. -/

namespace Sys2Proof

variable {α : Type}

@[simp] theorem mget_nil (k : Nat) (d : α) : mget [] k d = d := rfl
@[simp] theorem mfind_nil (k : Nat) : mfind ([] : AMap α) k = none := rfl

@[simp] theorem mget_mset_self (m : AMap α) (k : Nat) (v d : α) : mget (mset m k v) k d = v := by
  induction m with
  | nil => simp [mset, mget]
  | cons p t ih => obtain ⟨k', v'⟩ := p; simp only [mset]; split_ifs with h1 h2 <;> simp_all [mget]

@[simp] theorem mfind_mset_self (m : AMap α) (k : Nat) (v : α) : mfind (mset m k v) k = some v := by
  induction m with
  | nil => simp [mset, mfind]
  | cons p t ih => obtain ⟨k', v'⟩ := p; simp only [mset]; split_ifs with h1 h2 <;> simp_all [mfind]

theorem mget_mset_ne (m : AMap α) {k j : Nat} (h : j ≠ k) (v d : α) : mget (mset m k v) j d = mget m j d := by
  induction m with
  | nil => simp [mset, mget, h]
  | cons p t ih =>
    obtain ⟨k', v'⟩ := p
    simp only [mset]
    split_ifs with h1 h2
    · simp [mget, h]
    · subst h2; simp [mget, h]
    · simp [mget, ih]

theorem mfind_mset_ne (m : AMap α) {k j : Nat} (h : j ≠ k) (v : α) : mfind (mset m k v) j = mfind m j := by
  induction m with
  | nil => simp [mset, mfind, h]
  | cons p t ih =>
    obtain ⟨k', v'⟩ := p
    simp only [mset]
    split_ifs with h1 h2
    · simp [mfind, h]
    · subst h2; simp [mfind, h]
    · simp [mfind, ih]

/-- A read after a write, of the same key or of another. -/
theorem mget_mset (m : AMap α) (k j : Nat) (v d : α) : mget (mset m k v) j d = if j = k then v else mget m j d := by
  split_ifs with h
  · subst h; exact mget_mset_self m j v d
  · exact mget_mset_ne m h v d

theorem mfind_mset (m : AMap α) (k j : Nat) (v : α) : mfind (mset m k v) j = if j = k then some v else mfind m j := by
  split_ifs with h
  · subst h; exact mfind_mset_self m j v
  · exact mfind_mset_ne m h v

theorem mget_mdel (m : AMap α) (k j : Nat) (d : α) : mget (mdel m k) j d = if j = k then d else mget m j d := by
  induction m with
  | nil => simp [mdel]
  | cons p t ih =>
    obtain ⟨k', v'⟩ := p
    simp only [mdel, ne_eq, List.filter_cons, decide_not] at ih ⊢
    by_cases h : k' = k
    · subst h
      by_cases hj : j = k'
      · subst hj; simpa using ih
      · simpa [mget, hj] using ih
    · by_cases hj : j = k'
      · subst hj; simp [h, mget]
      · simp [h, mget, hj, ih]

theorem mfind_mdel (m : AMap α) (k j : Nat) : mfind (mdel m k) j = if j = k then none else mfind m j := by
  induction m with
  | nil => simp [mdel]
  | cons p t ih =>
    obtain ⟨k', v'⟩ := p
    simp only [mdel, ne_eq, List.filter_cons, decide_not] at ih ⊢
    by_cases h : k' = k
    · subst h
      by_cases hj : j = k'
      · subst hj; simpa using ih
      · simpa [mfind, hj] using ih
    · by_cases hj : j = k'
      · subst hj; simp [h, mfind]
      · simp [h, mfind, hj, ih]

/-! ## The keys rise -/

/-- Every key of the map lies above a bound. -/
def keysAbove (b : Nat) (m : AMap α) : Prop := ∀ p ∈ m, b < p.1

theorem mwf_cons (k : Nat) (v : α) (t : AMap α) : mwf ((k, v) :: t) = true ↔ keysAbove k t ∧ mwf t = true := by
  induction t generalizing k v with
  | nil => simp [mwf, keysAbove]
  | cons p t ih =>
    obtain ⟨k', v'⟩ := p
    rw [mwf, Bool.and_eq_true, decide_eq_true_eq, ih k' v']
    constructor
    · rintro ⟨h, ha, hw⟩
      refine ⟨?_, ha, hw⟩
      intro q hq
      rcases List.mem_cons.1 hq with rfl | hq
      · exact h
      · exact Nat.lt_trans h (ha q hq)
    · rintro ⟨h, ha, hw⟩
      exact ⟨h (k', v') (List.mem_cons_self ..), ha, hw⟩

theorem keysAbove_mset {b : Nat} {m : AMap α} {k : Nat} (v : α) (hm : keysAbove b m) (hk : b < k) :
    keysAbove b (mset m k v) := by
  induction m with
  | nil => intro p hp; simp [mset] at hp; subst hp; exact hk
  | cons q t ih =>
    obtain ⟨k', v'⟩ := q
    have ht : keysAbove b t := fun p hp => hm p (List.mem_cons_of_mem _ hp)
    have hk' : b < k' := hm (k', v') (List.mem_cons_self ..)
    simp only [mset]
    split_ifs with h1 h2 <;> intro p hp
    · rcases List.mem_cons.1 hp with rfl | hp
      · exact hk
      · exact hm p hp
    · rcases List.mem_cons.1 hp with rfl | hp
      · exact hk
      · exact ht p hp
    · rcases List.mem_cons.1 hp with rfl | hp
      · exact hk'
      · exact ih ht p hp

/-- A write keeps the keys rising. -/
theorem mwf_mset (m : AMap α) (k : Nat) (v : α) (h : mwf m = true) : mwf (mset m k v) = true := by
  induction m with
  | nil => rfl
  | cons p t ih =>
    obtain ⟨k', v'⟩ := p
    obtain ⟨ha, hw⟩ := (mwf_cons k' v' t).1 h
    simp only [mset]
    split_ifs with h1 h2
    · refine (mwf_cons k v _).2 ⟨?_, h⟩
      intro q hq
      rcases List.mem_cons.1 hq with rfl | hq
      · exact h1
      · exact Nat.lt_trans h1 (ha q hq)
    · subst h2; exact (mwf_cons k v t).2 ⟨ha, hw⟩
    · exact (mwf_cons k' v' _).2 ⟨keysAbove_mset v ha (by omega), ih hw⟩

/-- Taking entries out keeps the keys rising. -/
theorem mwf_filter (m : AMap α) (f : Nat × α → Bool) (h : mwf m = true) : mwf (m.filter f) = true := by
  induction m with
  | nil => rfl
  | cons p t ih =>
    obtain ⟨k', v'⟩ := p
    obtain ⟨ha, hw⟩ := (mwf_cons k' v' t).1 h
    rw [List.filter_cons]
    split_ifs
    · exact (mwf_cons k' v' _).2 ⟨fun q hq => ha q (List.mem_of_mem_filter hq), ih hw⟩
    · exact ih hw

theorem mwf_mdel (m : AMap α) (k : Nat) (h : mwf m = true) : mwf (mdel m k) = true := mwf_filter m _ h

theorem mem_mset {m : AMap α} {k : Nat} {v : α} {p : Nat × α} (h : p ∈ mset m k v) : p = (k, v) ∨ p ∈ m := by
  induction m with
  | nil => simpa [mset] using h
  | cons q t ih =>
    obtain ⟨k', v'⟩ := q
    simp only [mset] at h
    split_ifs at h with h1 h2
    · exact List.mem_cons.1 h
    · rcases List.mem_cons.1 h with h | h
      · exact .inl h
      · exact .inr (List.mem_cons_of_mem _ h)
    · rcases List.mem_cons.1 h with h | h
      · exact .inr (h ▸ List.mem_cons_self ..)
      · rcases ih h with h | h
        · exact .inl h
        · exact .inr (List.mem_cons_of_mem _ h)

/-- What every step of a fold keeps, the fold keeps. -/
theorem foldl_keeps {σ β : Type} {P : σ → Prop} {f : σ → β → σ} (hf : ∀ s b, P s → P (f s b)) :
    ∀ (l : List β) (s : σ), P s → P (l.foldl f s)
  | [], _, h => h
  | b :: t, s, h => foldl_keeps hf t (f s b) (hf s b h)

end Sys2Proof
end

