-- ==== Sys2Proof/Laws/Memory.lean ====
section
/-! SUPPORT. The laws of memory: what a byte reads as after a write, and that every operation keeps the canonical form. -/

namespace Sys2Proof.Machine

/-- A byte after a write: the written one at its location, the old one elsewhere. -/
theorem Memory.peek_poke (m : Memory) (a j : Nat) (b : Byte) : (m.poke a b).peek j = if j = a then b else m.peek j := by
  unfold Memory.poke Memory.peek
  by_cases hb : b = 0
  · simp only [hb, if_true, mget_mdel]
  · simp only [hb, if_false, mget_mset]

/-- A write keeps the canonical form. -/
theorem Memory.wf_poke (m : Memory) (a : Nat) (b : Byte) (h : m.wf = true) : (m.poke a b).wf = true := by
  unfold Memory.wf at h ⊢
  rw [Bool.and_eq_true, List.all_eq_true] at h ⊢
  obtain ⟨hk, hz⟩ := h
  unfold Memory.poke
  by_cases hb : b = 0
  · simp only [hb, if_true]
    exact ⟨mwf_mdel _ _ hk, fun p hp => hz p (List.mem_of_mem_filter hp)⟩
  · simp only [hb, if_false]
    refine ⟨mwf_mset _ _ _ hk, fun p hp => ?_⟩
    rcases mem_mset hp with rfl | hp
    · simpa using hb
    · exact hz p hp

@[simp] theorem Memory.pokes_nil (m : Memory) : m.pokes [] = m := rfl
@[simp] theorem Memory.pokes_cons (m : Memory) (w : Nat × Byte) (ws : List (Nat × Byte)) :
    m.pokes (w :: ws) = (m.poke w.1 w.2).pokes ws := rfl

theorem Memory.wf_pokes (ws : List (Nat × Byte)) : ∀ (m : Memory), m.wf = true → (m.pokes ws).wf = true := by
  induction ws with
  | nil => exact fun _ h => h
  | cons w t ih => exact fun m h => ih _ (m.wf_poke _ _ h)

/-- A location that a list of writes does not name reads as before. -/
theorem Memory.peek_pokes_ne (ws : List (Nat × Byte)) (a : Nat) (h : ∀ w ∈ ws, w.1 ≠ a) :
    ∀ m : Memory, (m.pokes ws).peek a = m.peek a := by
  induction ws with
  | nil => exact fun _ => rfl
  | cons w t ih =>
    intro m
    rw [Memory.pokes_cons, ih (fun x hx => h x (List.mem_cons_of_mem _ hx)), Memory.peek_poke,
      if_neg (fun e => h w (List.mem_cons_self ..) e.symm)]

@[simp] theorem upFrom_length (a n : Nat) : (upFrom a n).length = n := by
  induction n generalizing a with
  | zero => rfl
  | succ n ih => simp [upFrom, ih]

theorem mem_upFrom {a n k : Nat} : k ∈ upFrom a n ↔ a ≤ k ∧ k < a + n := by
  induction n generalizing a with
  | zero => simp [upFrom]
  | succ n ih => simp only [upFrom, List.mem_cons, ih]; omega

@[simp] theorem leBytes_length (n x : Nat) : (leBytes n x).length = n := by
  induction n generalizing x with
  | zero => rfl
  | succ n ih => simp [leBytes, ih]

/-- A multi-byte store at a location names the locations from it upward alone. -/
theorem mem_writesAt {a k : Nat} {b : Byte} {bs : List Byte} (h : (k, b) ∈ writesAt a bs) : a ≤ k ∧ k < a + bs.length :=
  mem_upFrom.1 (List.of_mem_zip h).1

/-- A store of bytes leaves every location outside them as it was. -/
theorem Memory.peek_writesAt_outside (m : Memory) (a k : Nat) (bs : List Byte) (h : k < a ∨ a + bs.length ≤ k) :
    (m.pokes (writesAt a bs)).peek k = m.peek k := by
  refine Memory.peek_pokes_ne _ _ ?_ m
  rintro ⟨j, b⟩ hw rfl
  have := mem_writesAt hw
  omega

/-- A store of bytes is read back, byte for byte. -/
theorem Memory.bytes_writesAt (bs : List Byte) : ∀ (m : Memory) (a : Nat), (m.pokes (writesAt a bs)).bytes a bs.length = bs := by
  induction bs with
  | nil => intro m a; rfl
  | cons b t ih =>
    intro m a
    have h0 : writesAt a (b :: t) = (a, b) :: writesAt (a + 1) t := rfl
    have h1 : ((m.poke a b).pokes (writesAt (a + 1) t)).peek a = b := by
      rw [Memory.peek_writesAt_outside _ _ _ _ (.inl (Nat.lt_succ_self a)), Memory.peek_poke, if_pos rfl]
    have h2 := ih (m.poke a b) (a + 1)
    rw [h0, Memory.pokes_cons]
    simp only [Memory.bytes, List.length_cons, upFrom, List.map_cons, h1] at h2 ⊢
    rw [h2]

/-- Little-endian bytes hold the value they were made of, modulo their width (R99). -/
theorem leNat_leBytes (n x : Nat) : leNat (leBytes n x) = x % 256 ^ n := by
  induction n generalizing x with
  | zero => simp [leBytes, leNat, Nat.mod_one]
  | succ n ih =>
    have h : 256 ^ (n + 1) = 256 * 256 ^ n := by rw [Nat.pow_succ, Nat.mul_comm]
    simp only [leBytes, leNat, ih, h, Nat.mod_mul, BitVec.toNat_ofNat]

/-- A doubleword stored is read back (R99). -/
theorem Memory.nat_writesAt (m : Memory) (a n x : Nat) : (m.pokes (writesAt a (leBytes n x))).nat a n = x % 256 ^ n := by
  have h := Memory.bytes_writesAt (leBytes n x) m a
  rw [leBytes_length] at h
  rw [Memory.nat, h, leNat_leBytes]

/-- The reset memory is canonical. -/
theorem Memory.wf_empty : Memory.empty.wf = true := rfl

/-! ## The operations on the state that write memory -/

/-- Answering deferred LDFs writes no memory. -/
theorem answerFutures_mem (s : State) (ws : List (Nat × Byte)) : (answerFutures s ws).mem = s.mem := by
  unfold answerFutures
  refine foldl_keeps (P := fun (t : State) => t.mem = s.mem) (fun t d h => ?_) _ _ rfl
  cases d.core <;> exact h

theorem performFor_mem (c : Option Nat) (s : State) (ws : List (Nat × Byte)) : (performFor c s ws).mem = s.mem.pokes ws := by
  unfold performFor; rw [answerFutures_mem]

theorem performFor_wf (c : Option Nat) (s : State) (ws : List (Nat × Byte)) (h : s.mem.wf = true) : (performFor c s ws).mem.wf = true := by
  rw [performFor_mem]; exact Memory.wf_pokes ws _ h

theorem performWrites_wf (s : State) (ws : List (Nat × Byte)) (h : s.mem.wf = true) : (performWrites s ws).mem.wf = true :=
  performFor_wf none s ws h

theorem modCore_mem (s : State) (u : Nat) (f : Core → Core) : (s.modCore u f).mem = s.mem := rfl
theorem mapCores_mem (s : State) (f : Nat → Core → Core) : (s.mapCores f).mem = s.mem := rfl
theorem modTile_mem (s : State) (t : Nat) (f : Tile → Tile) : (s.modTile t f).mem = s.mem := rfl
theorem modCluster_mem (s : State) (P : Nat) (f : Cluster → Cluster) : (s.modCluster P f).mem = s.mem := rfl

theorem raiseFloor_mem (s : State) (u a n k : Nat) : (s.raiseFloor u a n k).mem = s.mem := by
  unfold State.raiseFloor; split <;> rfl

theorem performBy_wf (s : State) (u : Nat) (ws : List (Nat × Byte)) (h : s.mem.wf = true) : (performBy s u ws).mem.wf = true :=
  foldl_keeps (P := fun (t : State) => t.mem.wf = true) (fun t w ht => by rw [raiseFloor_mem]; exact ht) _ _ (performFor_wf _ s ws h)

theorem applyNext_wf (s : State) (d : Nat) (h : s.mem.wf = true) : (applyNext s d).mem.wf = true := by
  unfold applyNext
  split
  · exact h
  · simp only
    split <;> exact performFor_wf _ _ _ h

theorem applyBelow_wf (s : State) (d k : Nat) (h : s.mem.wf = true) : (applyBelow s d k).mem.wf = true :=
  foldl_keeps (P := fun (t : State) => t.mem.wf = true) (fun t _ ht => applyNext_wf t _ ht) _ s h

theorem applyAll_wf (s : State) (h : s.mem.wf = true) : (applyAll s).mem.wf = true :=
  foldl_keeps (P := fun (t : State) => t.mem.wf = true) (fun t _ ht => applyNext_wf t _ ht) _ s h

theorem applySeen_wf (s : State) (u scope : Nat) (h : s.mem.wf = true) : (applySeen s u scope).mem.wf = true :=
  foldl_keeps (P := fun (t : State) => t.mem.wf = true) (fun t _ ht => applyBelow_wf t _ _ ht) _ s h

theorem sequenceBy_wf (s : State) (u : Nat) (ws : List (Nat × Byte)) (h : s.mem.wf = true) : (sequenceBy s u ws).mem.wf = true := by
  unfold sequenceBy
  simp only
  split
  · exact applyAll_wf _ h
  · exact applyBelow_wf _ _ _ h

/-! ## Atomics on their way -/

theorem atomicAtHome_wf (s : State) (op : AtomOp) (loc : Nat) (repl : Bool) (u : Nat) (b d : Word) (h : s.mem.wf = true) :
    (atomicAtHome s op loc repl u b d).2.mem.wf = true := by
  unfold atomicAtHome
  simp only
  split
  · simp only
    split
    · exact applyBelow_wf _ _ _ h
    · rw [raiseFloor_mem]; exact h
  · simp only
    split
    · exact applyBelow_wf _ _ _ (sequenceBy_wf _ _ _ (applyBelow_wf _ _ _ h))
    · exact performBy_wf _ _ _ h

/-- A round trip over the links writes no memory. -/
theorem roundTrip_mem (s : State) (d e : Nat) : (s.roundTrip d e).mem = s.mem :=
  foldl_keeps (P := fun (t : State) => t.mem = s.mem) (fun (t : State) m ht => (show (t.setLink m _).mem = s.mem from ht)) _ _ rfl

theorem homeReply_wf (s : State) (op : AtomOp) (u : Nat) (va : Word) (loc : Nat) (repl : Bool) (b d : Word) (h : s.mem.wf = true) :
    (homeReply s op u va loc repl b d).2.mem.wf = true := by
  unfold homeReply
  simp only
  have h0 := h
  rw [← roundTrip_mem s (dieOf (clusterOf u)) (if repl then 4 else locDie loc)] at h0
  generalize s.roundTrip (dieOf (clusterOf u)) (if repl then 4 else locDie loc) = s0 at h0 ⊢
  split
  · exact h0
  · exact atomicAtHome_wf _ op loc repl u b d h0

theorem settleLate_mem (s : State) (r : Req) (x : Reply) : (settleLate s r x).mem = s.mem := by
  unfold settleLate
  split
  · rfl
  · split <;> rfl

theorem performPending_wf (s : State) (r : Req) (h : s.mem.wf = true) : (performPending s r).mem.wf = true := by
  have h0 : (if r.cut s then s.tickFree else s).mem.wf = true := by split <;> exact h
  unfold performPending
  simp only
  split
  · rw [settleLate_mem]; exact h0
  · split
    · rw [settleLate_mem]; exact homeReply_wf _ _ _ _ _ _ _ _ h0
    · rw [settleLate_mem]; exact h0
    · exact h

theorem flushWhere_wf (s : State) (u : Nat) (p : Req → Bool) (h : s.mem.wf = true) : (flushWhere s u p).mem.wf = true :=
  foldl_keeps (P := fun (t : State) => t.mem.wf = true) (fun t r ht => performPending_wf t r ht) _ _ h

theorem flushTo_wf (s : State) (u scope : Nat) (h : s.mem.wf = true) : (flushTo s u scope).mem.wf = true := flushWhere_wf _ _ _ h

/-! ## The store buffer -/

theorem performEntry_wf (s : State) (u : Nat) (e : SbEntry) (h : s.mem.wf = true) : (performEntry s u e).mem.wf = true := by
  have h0 : (if e.release = true then applySeen (flushWhere s u (fun r => decide (r.since ≤ e.since))) u 4 else s).mem.wf = true := by
    split
    · exact applySeen_wf _ _ _ (flushWhere_wf _ _ _ h)
    · exact h
  unfold performEntry
  generalize (if e.release = true then applySeen (flushWhere s u (fun r => decide (r.since ≤ e.since))) u 4 else s) = s1 at h0 ⊢
  simp only
  split
  · exact h0
  · split
    · exact h0
    · split
      · exact sequenceBy_wf _ _ _ h0
      · split
        · exact performBy_wf _ _ _ h0
        · exact performBy_wf _ _ _ h0

theorem drainFirst_wf (s : State) (u n : Nat) (h : s.mem.wf = true) : (drainFirst s u n).mem.wf = true := by
  refine foldl_keeps (P := fun (t : State) => t.mem.wf = true) (fun t e ht => ?_) _ _ h
  split
  · exact applyBelow_wf _ _ _ ht
  · exact performEntry_wf _ _ _ ht

theorem drainAll_wf (s : State) (u : Nat) (h : s.mem.wf = true) : (drainAll s u).mem.wf = true := drainFirst_wf s u _ h
theorem drainThrough_wf (s : State) (u : Nat) (p : SbEntry → Bool) (h : s.mem.wf = true) :
    (drainThrough s u p).mem.wf = true := drainFirst_wf s u _ h

theorem storeEntry_wf (s : State) (u : Nat) (e : SbEntry) (h : s.mem.wf = true) : (storeEntry s u e).mem.wf = true := by
  have h0 := flushWhere_wf s u (fun r => (e.so && r.so) || (!r.isFar && e.touches (r.loc / 8 * 8) 8)) h
  unfold storeEntry
  simp only
  split
  · exact performEntry_wf _ _ _ h0
  · show (State.modCore _ _ _).mem.wf = true
    split
    · exact drainFirst_wf _ _ _ h0
    · exact h0

/-! ## UO pages, releases and FENCE -/

theorem dropUo_mem (s : State) (P : Nat) (p : Nat → Bool) : (dropUo s P p).mem = s.mem := rfl

theorem writeBackSector_wf (s : State) (u n : Nat) (h : s.mem.wf = true) : (writeBackSector s u n).mem.wf = true := performFor_wf _ _ _ h

theorem dropCopies_mem (s : State) (u scope : Nat) (secs : List Nat) (seen : AMap Byte) : (dropCopies s u scope secs seen).mem = s.mem := rfl

theorem uoWriteBack_wf (s : State) (u n : Nat) (h : s.mem.wf = true) : (uoWriteBack s u n).mem.wf = true := by
  unfold uoWriteBack
  dsimp only
  split
  · exact h
  · split
    · split <;> exact h
    · split <;> exact performFor_wf _ _ _ h

theorem flushUo_wf (s : State) (cl sec : Nat → Bool) (h : s.mem.wf = true) : (flushUo s cl sec).mem.wf = true := by
  have hd : ∀ (Ps : List Nat), (Ps.foldl (fun (s : State) P => dropUo s P (fun a => sec (sectorOf a))) s).mem.wf = true := fun Ps =>
    foldl_keeps (P := fun (x : State) => x.mem.wf = true) (fun x P hx => by rw [dropUo_mem]; exact hx) _ _ h
  unfold flushUo
  dsimp only
  split
  · rw [mapCores_mem]; exact hd _
  · exact performWrites_wf _ _ (by rw [mapCores_mem]; exact hd _)

theorem engineWriteUo_wf (s : State) (ws : List (Nat × Byte)) (h : s.mem.wf = true) : (engineWriteUo s ws).mem.wf = true :=
  performWrites_wf _ _ (flushUo_wf _ _ _ h)

theorem releaseTo_wf (s : State) (u n : Nat) (h : s.mem.wf = true) : (releaseTo s u n).mem.wf = true :=
  uoWriteBack_wf _ _ _ (applySeen_wf _ _ _ (drainAll_wf _ _ (flushTo_wf _ _ _ h)))

theorem acquire_mem (s : State) (u : Nat) : (acquire s u).mem = s.mem := by
  unfold acquire; split <;> rfl

theorem fenceAt_wf (s : State) (u n : Nat) (h : s.mem.wf = true) : (fenceAt s u n).mem.wf = true := by
  unfold fenceAt
  have h0 : (acquire (noteFence (releaseTo s u n) u n) u).mem.wf = true := by
    rw [acquire_mem]; exact releaseTo_wf s u n h
  simp only
  split <;> exact h0

end Sys2Proof.Machine
end

