-- ==== Sys2Proof/Laws/State.lean ====
section
/-! SUPPORT. What every update of the state changes and what it leaves: one lemma per field per update, so that no later proof
unfolds a record update. -/

namespace Sys2Proof.Machine

/-! ## Updates of one unit -/

@[simp] theorem State.setCore_tiles (s : State) (u : Nat) (c : Core) : (s.setCore u c).tiles = s.tiles := rfl
@[simp] theorem State.setCore_clusters (s : State) (u : Nat) (c : Core) : (s.setCore u c).clusters = s.clusters := rfl
@[simp] theorem State.setCore_dies (s : State) (u : Nat) (c : Core) : (s.setCore u c).dies = s.dies := rfl
@[simp] theorem State.setCore_links (s : State) (u : Nat) (c : Core) : (s.setCore u c).links = s.links := rfl
@[simp] theorem State.setCore_engines (s : State) (u : Nat) (c : Core) : (s.setCore u c).engines = s.engines := rfl
@[simp] theorem State.setCore_streamers (s : State) (u : Nat) (c : Core) : (s.setCore u c).streamers = s.streamers := rfl
@[simp] theorem State.setCore_queues (s : State) (u : Nat) (c : Core) : (s.setCore u c).queues = s.queues := rfl
@[simp] theorem State.setCore_stores (s : State) (u : Nat) (c : Core) : (s.setCore u c).stores = s.stores := rfl
@[simp] theorem State.setCore_mem (s : State) (u : Nat) (c : Core) : (s.setCore u c).mem = s.mem := rfl
@[simp] theorem State.setCore_past (s : State) (u : Nat) (c : Core) : (s.setCore u c).past = s.past := rfl
@[simp] theorem State.setCore_fences (s : State) (u : Nat) (c : Core) : (s.setCore u c).fences = s.fences := rfl
@[simp] theorem State.setCore_icSec (s : State) (u : Nat) (c : Core) : (s.setCore u c).icSec = s.icSec := rfl
@[simp] theorem State.setCore_rights (s : State) (u : Nat) (c : Core) : (s.setCore u c).rights = s.rights := rfl
@[simp] theorem State.setCore_tcache (s : State) (u : Nat) (c : Core) : (s.setCore u c).tcache = s.tcache := rfl
@[simp] theorem State.setCore_frameWaits (s : State) (u : Nat) (c : Core) : (s.setCore u c).frameWaits = s.frameWaits := rfl
@[simp] theorem State.setCore_pinned (s : State) (u : Nat) (c : Core) : (s.setCore u c).pinned = s.pinned := rfl
@[simp] theorem State.setCore_backing (s : State) (u : Nat) (c : Core) : (s.setCore u c).backing = s.backing := rfl
@[simp] theorem State.setCore_freeFrames (s : State) (u : Nat) (c : Core) : (s.setCore u c).freeFrames = s.freeFrames := rfl
@[simp] theorem State.setCore_regens (s : State) (u : Nat) (c : Core) : (s.setCore u c).regens = s.regens := rfl
@[simp] theorem State.setCore_defers (s : State) (u : Nat) (c : Core) : (s.setCore u c).defers = s.defers := rfl
@[simp] theorem State.setCore_seqOrder (s : State) (u : Nat) (c : Core) : (s.setCore u c).seqOrder = s.seqOrder := rfl
@[simp] theorem State.setCore_seqNext (s : State) (u : Nat) (c : Core) : (s.setCore u c).seqNext = s.seqNext := rfl
@[simp] theorem State.setCore_upds (s : State) (u : Nat) (c : Core) : (s.setCore u c).upds = s.upds := rfl
@[simp] theorem State.setCore_fansOut (s : State) (u : Nat) (c : Core) : (s.setCore u c).fansOut = s.fansOut := rfl
@[simp] theorem State.setCore_msgs (s : State) (u : Nat) (c : Core) : (s.setCore u c).msgs = s.msgs := rfl
@[simp] theorem State.setCore_reqs (s : State) (u : Nat) (c : Core) : (s.setCore u c).reqs = s.reqs := rfl
@[simp] theorem State.setCore_beaconB (s : State) (u : Nat) (c : Core) : (s.setCore u c).beaconB = s.beaconB := rfl
@[simp] theorem State.setCore_beaconQ (s : State) (u : Nat) (c : Core) : (s.setCore u c).beaconQ = s.beaconQ := rfl
@[simp] theorem State.setCore_nlive (s : State) (u : Nat) (c : Core) : (s.setCore u c).nlive = s.nlive := rfl
@[simp] theorem State.setCore_lmap (s : State) (u : Nat) (c : Core) : (s.setCore u c).lmap = s.lmap := rfl
@[simp] theorem State.setCore_quarCl (s : State) (u : Nat) (c : Core) : (s.setCore u c).quarCl = s.quarCl := rfl
@[simp] theorem State.setCore_sys (s : State) (u : Nat) (c : Core) : (s.setCore u c).sys = s.sys := rfl
@[simp] theorem State.setCore_net (s : State) (u : Nat) (c : Core) : (s.setCore u c).net = s.net := rfl
@[simp] theorem State.setCore_snap (s : State) (u : Nat) (c : Core) : (s.setCore u c).snap = s.snap := rfl
@[simp] theorem State.setCore_now (s : State) (u : Nat) (c : Core) : (s.setCore u c).now = s.now := rfl
@[simp] theorem State.setCore_cur (s : State) (u : Nat) (c : Core) : (s.setCore u c).cur = s.cur := rfl
@[simp] theorem State.setCore_moves (s : State) (u : Nat) (c : Core) : (s.setCore u c).moves = s.moves := rfl
@[simp] theorem State.setCore_eager (s : State) (u : Nat) (c : Core) : (s.setCore u c).eager = s.eager := rfl
@[simp] theorem State.setCore_freeCtr (s : State) (u : Nat) (c : Core) : (s.setCore u c).freeCtr = s.freeCtr := rfl

@[simp] theorem State.setTile_cores (s : State) (n : Nat) (x : Tile) : (s.setTile n x).cores = s.cores := rfl
@[simp] theorem State.setTile_clusters (s : State) (n : Nat) (x : Tile) : (s.setTile n x).clusters = s.clusters := rfl
@[simp] theorem State.setTile_dies (s : State) (n : Nat) (x : Tile) : (s.setTile n x).dies = s.dies := rfl
@[simp] theorem State.setTile_links (s : State) (n : Nat) (x : Tile) : (s.setTile n x).links = s.links := rfl
@[simp] theorem State.setTile_engines (s : State) (n : Nat) (x : Tile) : (s.setTile n x).engines = s.engines := rfl
@[simp] theorem State.setTile_streamers (s : State) (n : Nat) (x : Tile) : (s.setTile n x).streamers = s.streamers := rfl
@[simp] theorem State.setTile_queues (s : State) (n : Nat) (x : Tile) : (s.setTile n x).queues = s.queues := rfl
@[simp] theorem State.setTile_stores (s : State) (n : Nat) (x : Tile) : (s.setTile n x).stores = s.stores := rfl
@[simp] theorem State.setTile_mem (s : State) (n : Nat) (x : Tile) : (s.setTile n x).mem = s.mem := rfl
@[simp] theorem State.setTile_past (s : State) (n : Nat) (x : Tile) : (s.setTile n x).past = s.past := rfl
@[simp] theorem State.setTile_fences (s : State) (n : Nat) (x : Tile) : (s.setTile n x).fences = s.fences := rfl
@[simp] theorem State.setTile_icSec (s : State) (n : Nat) (x : Tile) : (s.setTile n x).icSec = s.icSec := rfl
@[simp] theorem State.setTile_rights (s : State) (n : Nat) (x : Tile) : (s.setTile n x).rights = s.rights := rfl
@[simp] theorem State.setTile_tcache (s : State) (n : Nat) (x : Tile) : (s.setTile n x).tcache = s.tcache := rfl
@[simp] theorem State.setTile_frameWaits (s : State) (n : Nat) (x : Tile) : (s.setTile n x).frameWaits = s.frameWaits := rfl
@[simp] theorem State.setTile_pinned (s : State) (n : Nat) (x : Tile) : (s.setTile n x).pinned = s.pinned := rfl
@[simp] theorem State.setTile_backing (s : State) (n : Nat) (x : Tile) : (s.setTile n x).backing = s.backing := rfl
@[simp] theorem State.setTile_freeFrames (s : State) (n : Nat) (x : Tile) : (s.setTile n x).freeFrames = s.freeFrames := rfl
@[simp] theorem State.setTile_regens (s : State) (n : Nat) (x : Tile) : (s.setTile n x).regens = s.regens := rfl
@[simp] theorem State.setTile_defers (s : State) (n : Nat) (x : Tile) : (s.setTile n x).defers = s.defers := rfl
@[simp] theorem State.setTile_seqOrder (s : State) (n : Nat) (x : Tile) : (s.setTile n x).seqOrder = s.seqOrder := rfl
@[simp] theorem State.setTile_seqNext (s : State) (n : Nat) (x : Tile) : (s.setTile n x).seqNext = s.seqNext := rfl
@[simp] theorem State.setTile_upds (s : State) (n : Nat) (x : Tile) : (s.setTile n x).upds = s.upds := rfl
@[simp] theorem State.setTile_fansOut (s : State) (n : Nat) (x : Tile) : (s.setTile n x).fansOut = s.fansOut := rfl
@[simp] theorem State.setTile_msgs (s : State) (n : Nat) (x : Tile) : (s.setTile n x).msgs = s.msgs := rfl
@[simp] theorem State.setTile_reqs (s : State) (n : Nat) (x : Tile) : (s.setTile n x).reqs = s.reqs := rfl
@[simp] theorem State.setTile_beaconB (s : State) (n : Nat) (x : Tile) : (s.setTile n x).beaconB = s.beaconB := rfl
@[simp] theorem State.setTile_beaconQ (s : State) (n : Nat) (x : Tile) : (s.setTile n x).beaconQ = s.beaconQ := rfl
@[simp] theorem State.setTile_nlive (s : State) (n : Nat) (x : Tile) : (s.setTile n x).nlive = s.nlive := rfl
@[simp] theorem State.setTile_lmap (s : State) (n : Nat) (x : Tile) : (s.setTile n x).lmap = s.lmap := rfl
@[simp] theorem State.setTile_quarCl (s : State) (n : Nat) (x : Tile) : (s.setTile n x).quarCl = s.quarCl := rfl
@[simp] theorem State.setTile_sys (s : State) (n : Nat) (x : Tile) : (s.setTile n x).sys = s.sys := rfl
@[simp] theorem State.setTile_net (s : State) (n : Nat) (x : Tile) : (s.setTile n x).net = s.net := rfl
@[simp] theorem State.setTile_snap (s : State) (n : Nat) (x : Tile) : (s.setTile n x).snap = s.snap := rfl
@[simp] theorem State.setTile_now (s : State) (n : Nat) (x : Tile) : (s.setTile n x).now = s.now := rfl
@[simp] theorem State.setTile_cur (s : State) (n : Nat) (x : Tile) : (s.setTile n x).cur = s.cur := rfl
@[simp] theorem State.setTile_moves (s : State) (n : Nat) (x : Tile) : (s.setTile n x).moves = s.moves := rfl
@[simp] theorem State.setTile_eager (s : State) (n : Nat) (x : Tile) : (s.setTile n x).eager = s.eager := rfl
@[simp] theorem State.setTile_freeCtr (s : State) (n : Nat) (x : Tile) : (s.setTile n x).freeCtr = s.freeCtr := rfl

@[simp] theorem State.setCluster_cores (s : State) (P : Nat) (c : Cluster) : (s.setCluster P c).cores = s.cores := rfl
@[simp] theorem State.setCluster_tiles (s : State) (P : Nat) (c : Cluster) : (s.setCluster P c).tiles = s.tiles := rfl
@[simp] theorem State.setCluster_dies (s : State) (P : Nat) (c : Cluster) : (s.setCluster P c).dies = s.dies := rfl
@[simp] theorem State.setCluster_links (s : State) (P : Nat) (c : Cluster) : (s.setCluster P c).links = s.links := rfl
@[simp] theorem State.setCluster_engines (s : State) (P : Nat) (c : Cluster) : (s.setCluster P c).engines = s.engines := rfl
@[simp] theorem State.setCluster_streamers (s : State) (P : Nat) (c : Cluster) : (s.setCluster P c).streamers = s.streamers := rfl
@[simp] theorem State.setCluster_queues (s : State) (P : Nat) (c : Cluster) : (s.setCluster P c).queues = s.queues := rfl
@[simp] theorem State.setCluster_stores (s : State) (P : Nat) (c : Cluster) : (s.setCluster P c).stores = s.stores := rfl
@[simp] theorem State.setCluster_mem (s : State) (P : Nat) (c : Cluster) : (s.setCluster P c).mem = s.mem := rfl
@[simp] theorem State.setCluster_past (s : State) (P : Nat) (c : Cluster) : (s.setCluster P c).past = s.past := rfl
@[simp] theorem State.setCluster_fences (s : State) (P : Nat) (c : Cluster) : (s.setCluster P c).fences = s.fences := rfl
@[simp] theorem State.setCluster_icSec (s : State) (P : Nat) (c : Cluster) : (s.setCluster P c).icSec = s.icSec := rfl
@[simp] theorem State.setCluster_rights (s : State) (P : Nat) (c : Cluster) : (s.setCluster P c).rights = s.rights := rfl
@[simp] theorem State.setCluster_tcache (s : State) (P : Nat) (c : Cluster) : (s.setCluster P c).tcache = s.tcache := rfl
@[simp] theorem State.setCluster_frameWaits (s : State) (P : Nat) (c : Cluster) : (s.setCluster P c).frameWaits = s.frameWaits := rfl
@[simp] theorem State.setCluster_pinned (s : State) (P : Nat) (c : Cluster) : (s.setCluster P c).pinned = s.pinned := rfl
@[simp] theorem State.setCluster_backing (s : State) (P : Nat) (c : Cluster) : (s.setCluster P c).backing = s.backing := rfl
@[simp] theorem State.setCluster_freeFrames (s : State) (P : Nat) (c : Cluster) : (s.setCluster P c).freeFrames = s.freeFrames := rfl
@[simp] theorem State.setCluster_regens (s : State) (P : Nat) (c : Cluster) : (s.setCluster P c).regens = s.regens := rfl
@[simp] theorem State.setCluster_defers (s : State) (P : Nat) (c : Cluster) : (s.setCluster P c).defers = s.defers := rfl
@[simp] theorem State.setCluster_seqOrder (s : State) (P : Nat) (c : Cluster) : (s.setCluster P c).seqOrder = s.seqOrder := rfl
@[simp] theorem State.setCluster_seqNext (s : State) (P : Nat) (c : Cluster) : (s.setCluster P c).seqNext = s.seqNext := rfl
@[simp] theorem State.setCluster_upds (s : State) (P : Nat) (c : Cluster) : (s.setCluster P c).upds = s.upds := rfl
@[simp] theorem State.setCluster_fansOut (s : State) (P : Nat) (c : Cluster) : (s.setCluster P c).fansOut = s.fansOut := rfl
@[simp] theorem State.setCluster_msgs (s : State) (P : Nat) (c : Cluster) : (s.setCluster P c).msgs = s.msgs := rfl
@[simp] theorem State.setCluster_reqs (s : State) (P : Nat) (c : Cluster) : (s.setCluster P c).reqs = s.reqs := rfl
@[simp] theorem State.setCluster_beaconB (s : State) (P : Nat) (c : Cluster) : (s.setCluster P c).beaconB = s.beaconB := rfl
@[simp] theorem State.setCluster_beaconQ (s : State) (P : Nat) (c : Cluster) : (s.setCluster P c).beaconQ = s.beaconQ := rfl
@[simp] theorem State.setCluster_nlive (s : State) (P : Nat) (c : Cluster) : (s.setCluster P c).nlive = s.nlive := rfl
@[simp] theorem State.setCluster_lmap (s : State) (P : Nat) (c : Cluster) : (s.setCluster P c).lmap = s.lmap := rfl
@[simp] theorem State.setCluster_quarCl (s : State) (P : Nat) (c : Cluster) : (s.setCluster P c).quarCl = s.quarCl := rfl
@[simp] theorem State.setCluster_sys (s : State) (P : Nat) (c : Cluster) : (s.setCluster P c).sys = s.sys := rfl
@[simp] theorem State.setCluster_net (s : State) (P : Nat) (c : Cluster) : (s.setCluster P c).net = s.net := rfl
@[simp] theorem State.setCluster_snap (s : State) (P : Nat) (c : Cluster) : (s.setCluster P c).snap = s.snap := rfl
@[simp] theorem State.setCluster_now (s : State) (P : Nat) (c : Cluster) : (s.setCluster P c).now = s.now := rfl
@[simp] theorem State.setCluster_cur (s : State) (P : Nat) (c : Cluster) : (s.setCluster P c).cur = s.cur := rfl
@[simp] theorem State.setCluster_moves (s : State) (P : Nat) (c : Cluster) : (s.setCluster P c).moves = s.moves := rfl
@[simp] theorem State.setCluster_eager (s : State) (P : Nat) (c : Cluster) : (s.setCluster P c).eager = s.eager := rfl
@[simp] theorem State.setCluster_freeCtr (s : State) (P : Nat) (c : Cluster) : (s.setCluster P c).freeCtr = s.freeCtr := rfl

@[simp] theorem State.setDie_cores (s : State) (d : Nat) (x : Die) : (s.setDie d x).cores = s.cores := rfl
@[simp] theorem State.setDie_tiles (s : State) (d : Nat) (x : Die) : (s.setDie d x).tiles = s.tiles := rfl
@[simp] theorem State.setDie_clusters (s : State) (d : Nat) (x : Die) : (s.setDie d x).clusters = s.clusters := rfl
@[simp] theorem State.setDie_links (s : State) (d : Nat) (x : Die) : (s.setDie d x).links = s.links := rfl
@[simp] theorem State.setDie_engines (s : State) (d : Nat) (x : Die) : (s.setDie d x).engines = s.engines := rfl
@[simp] theorem State.setDie_streamers (s : State) (d : Nat) (x : Die) : (s.setDie d x).streamers = s.streamers := rfl
@[simp] theorem State.setDie_queues (s : State) (d : Nat) (x : Die) : (s.setDie d x).queues = s.queues := rfl
@[simp] theorem State.setDie_stores (s : State) (d : Nat) (x : Die) : (s.setDie d x).stores = s.stores := rfl
@[simp] theorem State.setDie_mem (s : State) (d : Nat) (x : Die) : (s.setDie d x).mem = s.mem := rfl
@[simp] theorem State.setDie_past (s : State) (d : Nat) (x : Die) : (s.setDie d x).past = s.past := rfl
@[simp] theorem State.setDie_fences (s : State) (d : Nat) (x : Die) : (s.setDie d x).fences = s.fences := rfl
@[simp] theorem State.setDie_icSec (s : State) (d : Nat) (x : Die) : (s.setDie d x).icSec = s.icSec := rfl
@[simp] theorem State.setDie_rights (s : State) (d : Nat) (x : Die) : (s.setDie d x).rights = s.rights := rfl
@[simp] theorem State.setDie_tcache (s : State) (d : Nat) (x : Die) : (s.setDie d x).tcache = s.tcache := rfl
@[simp] theorem State.setDie_frameWaits (s : State) (d : Nat) (x : Die) : (s.setDie d x).frameWaits = s.frameWaits := rfl
@[simp] theorem State.setDie_pinned (s : State) (d : Nat) (x : Die) : (s.setDie d x).pinned = s.pinned := rfl
@[simp] theorem State.setDie_backing (s : State) (d : Nat) (x : Die) : (s.setDie d x).backing = s.backing := rfl
@[simp] theorem State.setDie_freeFrames (s : State) (d : Nat) (x : Die) : (s.setDie d x).freeFrames = s.freeFrames := rfl
@[simp] theorem State.setDie_regens (s : State) (d : Nat) (x : Die) : (s.setDie d x).regens = s.regens := rfl
@[simp] theorem State.setDie_defers (s : State) (d : Nat) (x : Die) : (s.setDie d x).defers = s.defers := rfl
@[simp] theorem State.setDie_seqOrder (s : State) (d : Nat) (x : Die) : (s.setDie d x).seqOrder = s.seqOrder := rfl
@[simp] theorem State.setDie_seqNext (s : State) (d : Nat) (x : Die) : (s.setDie d x).seqNext = s.seqNext := rfl
@[simp] theorem State.setDie_upds (s : State) (d : Nat) (x : Die) : (s.setDie d x).upds = s.upds := rfl
@[simp] theorem State.setDie_fansOut (s : State) (d : Nat) (x : Die) : (s.setDie d x).fansOut = s.fansOut := rfl
@[simp] theorem State.setDie_msgs (s : State) (d : Nat) (x : Die) : (s.setDie d x).msgs = s.msgs := rfl
@[simp] theorem State.setDie_reqs (s : State) (d : Nat) (x : Die) : (s.setDie d x).reqs = s.reqs := rfl
@[simp] theorem State.setDie_beaconB (s : State) (d : Nat) (x : Die) : (s.setDie d x).beaconB = s.beaconB := rfl
@[simp] theorem State.setDie_beaconQ (s : State) (d : Nat) (x : Die) : (s.setDie d x).beaconQ = s.beaconQ := rfl
@[simp] theorem State.setDie_nlive (s : State) (d : Nat) (x : Die) : (s.setDie d x).nlive = s.nlive := rfl
@[simp] theorem State.setDie_lmap (s : State) (d : Nat) (x : Die) : (s.setDie d x).lmap = s.lmap := rfl
@[simp] theorem State.setDie_quarCl (s : State) (d : Nat) (x : Die) : (s.setDie d x).quarCl = s.quarCl := rfl
@[simp] theorem State.setDie_sys (s : State) (d : Nat) (x : Die) : (s.setDie d x).sys = s.sys := rfl
@[simp] theorem State.setDie_net (s : State) (d : Nat) (x : Die) : (s.setDie d x).net = s.net := rfl
@[simp] theorem State.setDie_snap (s : State) (d : Nat) (x : Die) : (s.setDie d x).snap = s.snap := rfl
@[simp] theorem State.setDie_now (s : State) (d : Nat) (x : Die) : (s.setDie d x).now = s.now := rfl
@[simp] theorem State.setDie_cur (s : State) (d : Nat) (x : Die) : (s.setDie d x).cur = s.cur := rfl
@[simp] theorem State.setDie_moves (s : State) (d : Nat) (x : Die) : (s.setDie d x).moves = s.moves := rfl
@[simp] theorem State.setDie_eager (s : State) (d : Nat) (x : Die) : (s.setDie d x).eager = s.eager := rfl
@[simp] theorem State.setDie_freeCtr (s : State) (d : Nat) (x : Die) : (s.setDie d x).freeCtr = s.freeCtr := rfl

@[simp] theorem State.setLink_cores (s : State) (m : Nat) (x : Link) : (s.setLink m x).cores = s.cores := rfl
@[simp] theorem State.setLink_tiles (s : State) (m : Nat) (x : Link) : (s.setLink m x).tiles = s.tiles := rfl
@[simp] theorem State.setLink_clusters (s : State) (m : Nat) (x : Link) : (s.setLink m x).clusters = s.clusters := rfl
@[simp] theorem State.setLink_dies (s : State) (m : Nat) (x : Link) : (s.setLink m x).dies = s.dies := rfl
@[simp] theorem State.setLink_engines (s : State) (m : Nat) (x : Link) : (s.setLink m x).engines = s.engines := rfl
@[simp] theorem State.setLink_streamers (s : State) (m : Nat) (x : Link) : (s.setLink m x).streamers = s.streamers := rfl
@[simp] theorem State.setLink_queues (s : State) (m : Nat) (x : Link) : (s.setLink m x).queues = s.queues := rfl
@[simp] theorem State.setLink_stores (s : State) (m : Nat) (x : Link) : (s.setLink m x).stores = s.stores := rfl
@[simp] theorem State.setLink_mem (s : State) (m : Nat) (x : Link) : (s.setLink m x).mem = s.mem := rfl
@[simp] theorem State.setLink_past (s : State) (m : Nat) (x : Link) : (s.setLink m x).past = s.past := rfl
@[simp] theorem State.setLink_fences (s : State) (m : Nat) (x : Link) : (s.setLink m x).fences = s.fences := rfl
@[simp] theorem State.setLink_icSec (s : State) (m : Nat) (x : Link) : (s.setLink m x).icSec = s.icSec := rfl
@[simp] theorem State.setLink_rights (s : State) (m : Nat) (x : Link) : (s.setLink m x).rights = s.rights := rfl
@[simp] theorem State.setLink_tcache (s : State) (m : Nat) (x : Link) : (s.setLink m x).tcache = s.tcache := rfl
@[simp] theorem State.setLink_frameWaits (s : State) (m : Nat) (x : Link) : (s.setLink m x).frameWaits = s.frameWaits := rfl
@[simp] theorem State.setLink_pinned (s : State) (m : Nat) (x : Link) : (s.setLink m x).pinned = s.pinned := rfl
@[simp] theorem State.setLink_backing (s : State) (m : Nat) (x : Link) : (s.setLink m x).backing = s.backing := rfl
@[simp] theorem State.setLink_freeFrames (s : State) (m : Nat) (x : Link) : (s.setLink m x).freeFrames = s.freeFrames := rfl
@[simp] theorem State.setLink_regens (s : State) (m : Nat) (x : Link) : (s.setLink m x).regens = s.regens := rfl
@[simp] theorem State.setLink_defers (s : State) (m : Nat) (x : Link) : (s.setLink m x).defers = s.defers := rfl
@[simp] theorem State.setLink_seqOrder (s : State) (m : Nat) (x : Link) : (s.setLink m x).seqOrder = s.seqOrder := rfl
@[simp] theorem State.setLink_seqNext (s : State) (m : Nat) (x : Link) : (s.setLink m x).seqNext = s.seqNext := rfl
@[simp] theorem State.setLink_upds (s : State) (m : Nat) (x : Link) : (s.setLink m x).upds = s.upds := rfl
@[simp] theorem State.setLink_fansOut (s : State) (m : Nat) (x : Link) : (s.setLink m x).fansOut = s.fansOut := rfl
@[simp] theorem State.setLink_msgs (s : State) (m : Nat) (x : Link) : (s.setLink m x).msgs = s.msgs := rfl
@[simp] theorem State.setLink_reqs (s : State) (m : Nat) (x : Link) : (s.setLink m x).reqs = s.reqs := rfl
@[simp] theorem State.setLink_beaconB (s : State) (m : Nat) (x : Link) : (s.setLink m x).beaconB = s.beaconB := rfl
@[simp] theorem State.setLink_beaconQ (s : State) (m : Nat) (x : Link) : (s.setLink m x).beaconQ = s.beaconQ := rfl
@[simp] theorem State.setLink_nlive (s : State) (m : Nat) (x : Link) : (s.setLink m x).nlive = s.nlive := rfl
@[simp] theorem State.setLink_lmap (s : State) (m : Nat) (x : Link) : (s.setLink m x).lmap = s.lmap := rfl
@[simp] theorem State.setLink_quarCl (s : State) (m : Nat) (x : Link) : (s.setLink m x).quarCl = s.quarCl := rfl
@[simp] theorem State.setLink_sys (s : State) (m : Nat) (x : Link) : (s.setLink m x).sys = s.sys := rfl
@[simp] theorem State.setLink_net (s : State) (m : Nat) (x : Link) : (s.setLink m x).net = s.net := rfl
@[simp] theorem State.setLink_snap (s : State) (m : Nat) (x : Link) : (s.setLink m x).snap = s.snap := rfl
@[simp] theorem State.setLink_now (s : State) (m : Nat) (x : Link) : (s.setLink m x).now = s.now := rfl
@[simp] theorem State.setLink_cur (s : State) (m : Nat) (x : Link) : (s.setLink m x).cur = s.cur := rfl
@[simp] theorem State.setLink_moves (s : State) (m : Nat) (x : Link) : (s.setLink m x).moves = s.moves := rfl
@[simp] theorem State.setLink_eager (s : State) (m : Nat) (x : Link) : (s.setLink m x).eager = s.eager := rfl
@[simp] theorem State.setLink_freeCtr (s : State) (m : Nat) (x : Link) : (s.setLink m x).freeCtr = s.freeCtr := rfl

@[simp] theorem State.setStreamer_cores (s : State) (n : Nat) (x : Streamer) : (s.setStreamer n x).cores = s.cores := rfl
@[simp] theorem State.setStreamer_tiles (s : State) (n : Nat) (x : Streamer) : (s.setStreamer n x).tiles = s.tiles := rfl
@[simp] theorem State.setStreamer_clusters (s : State) (n : Nat) (x : Streamer) : (s.setStreamer n x).clusters = s.clusters := rfl
@[simp] theorem State.setStreamer_dies (s : State) (n : Nat) (x : Streamer) : (s.setStreamer n x).dies = s.dies := rfl
@[simp] theorem State.setStreamer_links (s : State) (n : Nat) (x : Streamer) : (s.setStreamer n x).links = s.links := rfl
@[simp] theorem State.setStreamer_engines (s : State) (n : Nat) (x : Streamer) : (s.setStreamer n x).engines = s.engines := rfl
@[simp] theorem State.setStreamer_queues (s : State) (n : Nat) (x : Streamer) : (s.setStreamer n x).queues = s.queues := rfl
@[simp] theorem State.setStreamer_stores (s : State) (n : Nat) (x : Streamer) : (s.setStreamer n x).stores = s.stores := rfl
@[simp] theorem State.setStreamer_mem (s : State) (n : Nat) (x : Streamer) : (s.setStreamer n x).mem = s.mem := rfl
@[simp] theorem State.setStreamer_past (s : State) (n : Nat) (x : Streamer) : (s.setStreamer n x).past = s.past := rfl
@[simp] theorem State.setStreamer_fences (s : State) (n : Nat) (x : Streamer) : (s.setStreamer n x).fences = s.fences := rfl
@[simp] theorem State.setStreamer_icSec (s : State) (n : Nat) (x : Streamer) : (s.setStreamer n x).icSec = s.icSec := rfl
@[simp] theorem State.setStreamer_rights (s : State) (n : Nat) (x : Streamer) : (s.setStreamer n x).rights = s.rights := rfl
@[simp] theorem State.setStreamer_tcache (s : State) (n : Nat) (x : Streamer) : (s.setStreamer n x).tcache = s.tcache := rfl
@[simp] theorem State.setStreamer_frameWaits (s : State) (n : Nat) (x : Streamer) : (s.setStreamer n x).frameWaits = s.frameWaits := rfl
@[simp] theorem State.setStreamer_pinned (s : State) (n : Nat) (x : Streamer) : (s.setStreamer n x).pinned = s.pinned := rfl
@[simp] theorem State.setStreamer_backing (s : State) (n : Nat) (x : Streamer) : (s.setStreamer n x).backing = s.backing := rfl
@[simp] theorem State.setStreamer_freeFrames (s : State) (n : Nat) (x : Streamer) : (s.setStreamer n x).freeFrames = s.freeFrames := rfl
@[simp] theorem State.setStreamer_regens (s : State) (n : Nat) (x : Streamer) : (s.setStreamer n x).regens = s.regens := rfl
@[simp] theorem State.setStreamer_defers (s : State) (n : Nat) (x : Streamer) : (s.setStreamer n x).defers = s.defers := rfl
@[simp] theorem State.setStreamer_seqOrder (s : State) (n : Nat) (x : Streamer) : (s.setStreamer n x).seqOrder = s.seqOrder := rfl
@[simp] theorem State.setStreamer_seqNext (s : State) (n : Nat) (x : Streamer) : (s.setStreamer n x).seqNext = s.seqNext := rfl
@[simp] theorem State.setStreamer_upds (s : State) (n : Nat) (x : Streamer) : (s.setStreamer n x).upds = s.upds := rfl
@[simp] theorem State.setStreamer_fansOut (s : State) (n : Nat) (x : Streamer) : (s.setStreamer n x).fansOut = s.fansOut := rfl
@[simp] theorem State.setStreamer_msgs (s : State) (n : Nat) (x : Streamer) : (s.setStreamer n x).msgs = s.msgs := rfl
@[simp] theorem State.setStreamer_reqs (s : State) (n : Nat) (x : Streamer) : (s.setStreamer n x).reqs = s.reqs := rfl
@[simp] theorem State.setStreamer_beaconB (s : State) (n : Nat) (x : Streamer) : (s.setStreamer n x).beaconB = s.beaconB := rfl
@[simp] theorem State.setStreamer_beaconQ (s : State) (n : Nat) (x : Streamer) : (s.setStreamer n x).beaconQ = s.beaconQ := rfl
@[simp] theorem State.setStreamer_nlive (s : State) (n : Nat) (x : Streamer) : (s.setStreamer n x).nlive = s.nlive := rfl
@[simp] theorem State.setStreamer_lmap (s : State) (n : Nat) (x : Streamer) : (s.setStreamer n x).lmap = s.lmap := rfl
@[simp] theorem State.setStreamer_quarCl (s : State) (n : Nat) (x : Streamer) : (s.setStreamer n x).quarCl = s.quarCl := rfl
@[simp] theorem State.setStreamer_sys (s : State) (n : Nat) (x : Streamer) : (s.setStreamer n x).sys = s.sys := rfl
@[simp] theorem State.setStreamer_net (s : State) (n : Nat) (x : Streamer) : (s.setStreamer n x).net = s.net := rfl
@[simp] theorem State.setStreamer_snap (s : State) (n : Nat) (x : Streamer) : (s.setStreamer n x).snap = s.snap := rfl
@[simp] theorem State.setStreamer_now (s : State) (n : Nat) (x : Streamer) : (s.setStreamer n x).now = s.now := rfl
@[simp] theorem State.setStreamer_cur (s : State) (n : Nat) (x : Streamer) : (s.setStreamer n x).cur = s.cur := rfl
@[simp] theorem State.setStreamer_moves (s : State) (n : Nat) (x : Streamer) : (s.setStreamer n x).moves = s.moves := rfl
@[simp] theorem State.setStreamer_eager (s : State) (n : Nat) (x : Streamer) : (s.setStreamer n x).eager = s.eager := rfl
@[simp] theorem State.setStreamer_freeCtr (s : State) (n : Nat) (x : Streamer) : (s.setStreamer n x).freeCtr = s.freeCtr := rfl

@[simp] theorem State.mapCores_tiles (s : State) (f : Nat → Core → Core) : (s.mapCores f).tiles = s.tiles := rfl
@[simp] theorem State.mapCores_clusters (s : State) (f : Nat → Core → Core) : (s.mapCores f).clusters = s.clusters := rfl
@[simp] theorem State.mapCores_dies (s : State) (f : Nat → Core → Core) : (s.mapCores f).dies = s.dies := rfl
@[simp] theorem State.mapCores_links (s : State) (f : Nat → Core → Core) : (s.mapCores f).links = s.links := rfl
@[simp] theorem State.mapCores_engines (s : State) (f : Nat → Core → Core) : (s.mapCores f).engines = s.engines := rfl
@[simp] theorem State.mapCores_streamers (s : State) (f : Nat → Core → Core) : (s.mapCores f).streamers = s.streamers := rfl
@[simp] theorem State.mapCores_queues (s : State) (f : Nat → Core → Core) : (s.mapCores f).queues = s.queues := rfl
@[simp] theorem State.mapCores_stores (s : State) (f : Nat → Core → Core) : (s.mapCores f).stores = s.stores := rfl
@[simp] theorem State.mapCores_mem (s : State) (f : Nat → Core → Core) : (s.mapCores f).mem = s.mem := rfl
@[simp] theorem State.mapCores_past (s : State) (f : Nat → Core → Core) : (s.mapCores f).past = s.past := rfl
@[simp] theorem State.mapCores_fences (s : State) (f : Nat → Core → Core) : (s.mapCores f).fences = s.fences := rfl
@[simp] theorem State.mapCores_icSec (s : State) (f : Nat → Core → Core) : (s.mapCores f).icSec = s.icSec := rfl
@[simp] theorem State.mapCores_rights (s : State) (f : Nat → Core → Core) : (s.mapCores f).rights = s.rights := rfl
@[simp] theorem State.mapCores_tcache (s : State) (f : Nat → Core → Core) : (s.mapCores f).tcache = s.tcache := rfl
@[simp] theorem State.mapCores_frameWaits (s : State) (f : Nat → Core → Core) : (s.mapCores f).frameWaits = s.frameWaits := rfl
@[simp] theorem State.mapCores_pinned (s : State) (f : Nat → Core → Core) : (s.mapCores f).pinned = s.pinned := rfl
@[simp] theorem State.mapCores_backing (s : State) (f : Nat → Core → Core) : (s.mapCores f).backing = s.backing := rfl
@[simp] theorem State.mapCores_freeFrames (s : State) (f : Nat → Core → Core) : (s.mapCores f).freeFrames = s.freeFrames := rfl
@[simp] theorem State.mapCores_regens (s : State) (f : Nat → Core → Core) : (s.mapCores f).regens = s.regens := rfl
@[simp] theorem State.mapCores_defers (s : State) (f : Nat → Core → Core) : (s.mapCores f).defers = s.defers := rfl
@[simp] theorem State.mapCores_seqOrder (s : State) (f : Nat → Core → Core) : (s.mapCores f).seqOrder = s.seqOrder := rfl
@[simp] theorem State.mapCores_seqNext (s : State) (f : Nat → Core → Core) : (s.mapCores f).seqNext = s.seqNext := rfl
@[simp] theorem State.mapCores_upds (s : State) (f : Nat → Core → Core) : (s.mapCores f).upds = s.upds := rfl
@[simp] theorem State.mapCores_fansOut (s : State) (f : Nat → Core → Core) : (s.mapCores f).fansOut = s.fansOut := rfl
@[simp] theorem State.mapCores_msgs (s : State) (f : Nat → Core → Core) : (s.mapCores f).msgs = s.msgs := rfl
@[simp] theorem State.mapCores_reqs (s : State) (f : Nat → Core → Core) : (s.mapCores f).reqs = s.reqs := rfl
@[simp] theorem State.mapCores_beaconB (s : State) (f : Nat → Core → Core) : (s.mapCores f).beaconB = s.beaconB := rfl
@[simp] theorem State.mapCores_beaconQ (s : State) (f : Nat → Core → Core) : (s.mapCores f).beaconQ = s.beaconQ := rfl
@[simp] theorem State.mapCores_nlive (s : State) (f : Nat → Core → Core) : (s.mapCores f).nlive = s.nlive := rfl
@[simp] theorem State.mapCores_lmap (s : State) (f : Nat → Core → Core) : (s.mapCores f).lmap = s.lmap := rfl
@[simp] theorem State.mapCores_quarCl (s : State) (f : Nat → Core → Core) : (s.mapCores f).quarCl = s.quarCl := rfl
@[simp] theorem State.mapCores_sys (s : State) (f : Nat → Core → Core) : (s.mapCores f).sys = s.sys := rfl
@[simp] theorem State.mapCores_net (s : State) (f : Nat → Core → Core) : (s.mapCores f).net = s.net := rfl
@[simp] theorem State.mapCores_snap (s : State) (f : Nat → Core → Core) : (s.mapCores f).snap = s.snap := rfl
@[simp] theorem State.mapCores_now (s : State) (f : Nat → Core → Core) : (s.mapCores f).now = s.now := rfl
@[simp] theorem State.mapCores_cur (s : State) (f : Nat → Core → Core) : (s.mapCores f).cur = s.cur := rfl
@[simp] theorem State.mapCores_moves (s : State) (f : Nat → Core → Core) : (s.mapCores f).moves = s.moves := rfl
@[simp] theorem State.mapCores_eager (s : State) (f : Nat → Core → Core) : (s.mapCores f).eager = s.eager := rfl
@[simp] theorem State.mapCores_freeCtr (s : State) (f : Nat → Core → Core) : (s.mapCores f).freeCtr = s.freeCtr := rfl

@[simp] theorem State.mapTiles_cores (s : State) (f : Nat → Tile → Tile) : (s.mapTiles f).cores = s.cores := rfl
@[simp] theorem State.mapTiles_clusters (s : State) (f : Nat → Tile → Tile) : (s.mapTiles f).clusters = s.clusters := rfl
@[simp] theorem State.mapTiles_dies (s : State) (f : Nat → Tile → Tile) : (s.mapTiles f).dies = s.dies := rfl
@[simp] theorem State.mapTiles_links (s : State) (f : Nat → Tile → Tile) : (s.mapTiles f).links = s.links := rfl
@[simp] theorem State.mapTiles_engines (s : State) (f : Nat → Tile → Tile) : (s.mapTiles f).engines = s.engines := rfl
@[simp] theorem State.mapTiles_streamers (s : State) (f : Nat → Tile → Tile) : (s.mapTiles f).streamers = s.streamers := rfl
@[simp] theorem State.mapTiles_queues (s : State) (f : Nat → Tile → Tile) : (s.mapTiles f).queues = s.queues := rfl
@[simp] theorem State.mapTiles_stores (s : State) (f : Nat → Tile → Tile) : (s.mapTiles f).stores = s.stores := rfl
@[simp] theorem State.mapTiles_mem (s : State) (f : Nat → Tile → Tile) : (s.mapTiles f).mem = s.mem := rfl
@[simp] theorem State.mapTiles_past (s : State) (f : Nat → Tile → Tile) : (s.mapTiles f).past = s.past := rfl
@[simp] theorem State.mapTiles_fences (s : State) (f : Nat → Tile → Tile) : (s.mapTiles f).fences = s.fences := rfl
@[simp] theorem State.mapTiles_icSec (s : State) (f : Nat → Tile → Tile) : (s.mapTiles f).icSec = s.icSec := rfl
@[simp] theorem State.mapTiles_rights (s : State) (f : Nat → Tile → Tile) : (s.mapTiles f).rights = s.rights := rfl
@[simp] theorem State.mapTiles_tcache (s : State) (f : Nat → Tile → Tile) : (s.mapTiles f).tcache = s.tcache := rfl
@[simp] theorem State.mapTiles_frameWaits (s : State) (f : Nat → Tile → Tile) : (s.mapTiles f).frameWaits = s.frameWaits := rfl
@[simp] theorem State.mapTiles_pinned (s : State) (f : Nat → Tile → Tile) : (s.mapTiles f).pinned = s.pinned := rfl
@[simp] theorem State.mapTiles_backing (s : State) (f : Nat → Tile → Tile) : (s.mapTiles f).backing = s.backing := rfl
@[simp] theorem State.mapTiles_freeFrames (s : State) (f : Nat → Tile → Tile) : (s.mapTiles f).freeFrames = s.freeFrames := rfl
@[simp] theorem State.mapTiles_regens (s : State) (f : Nat → Tile → Tile) : (s.mapTiles f).regens = s.regens := rfl
@[simp] theorem State.mapTiles_defers (s : State) (f : Nat → Tile → Tile) : (s.mapTiles f).defers = s.defers := rfl
@[simp] theorem State.mapTiles_seqOrder (s : State) (f : Nat → Tile → Tile) : (s.mapTiles f).seqOrder = s.seqOrder := rfl
@[simp] theorem State.mapTiles_seqNext (s : State) (f : Nat → Tile → Tile) : (s.mapTiles f).seqNext = s.seqNext := rfl
@[simp] theorem State.mapTiles_upds (s : State) (f : Nat → Tile → Tile) : (s.mapTiles f).upds = s.upds := rfl
@[simp] theorem State.mapTiles_fansOut (s : State) (f : Nat → Tile → Tile) : (s.mapTiles f).fansOut = s.fansOut := rfl
@[simp] theorem State.mapTiles_msgs (s : State) (f : Nat → Tile → Tile) : (s.mapTiles f).msgs = s.msgs := rfl
@[simp] theorem State.mapTiles_reqs (s : State) (f : Nat → Tile → Tile) : (s.mapTiles f).reqs = s.reqs := rfl
@[simp] theorem State.mapTiles_beaconB (s : State) (f : Nat → Tile → Tile) : (s.mapTiles f).beaconB = s.beaconB := rfl
@[simp] theorem State.mapTiles_beaconQ (s : State) (f : Nat → Tile → Tile) : (s.mapTiles f).beaconQ = s.beaconQ := rfl
@[simp] theorem State.mapTiles_nlive (s : State) (f : Nat → Tile → Tile) : (s.mapTiles f).nlive = s.nlive := rfl
@[simp] theorem State.mapTiles_lmap (s : State) (f : Nat → Tile → Tile) : (s.mapTiles f).lmap = s.lmap := rfl
@[simp] theorem State.mapTiles_quarCl (s : State) (f : Nat → Tile → Tile) : (s.mapTiles f).quarCl = s.quarCl := rfl
@[simp] theorem State.mapTiles_sys (s : State) (f : Nat → Tile → Tile) : (s.mapTiles f).sys = s.sys := rfl
@[simp] theorem State.mapTiles_net (s : State) (f : Nat → Tile → Tile) : (s.mapTiles f).net = s.net := rfl
@[simp] theorem State.mapTiles_snap (s : State) (f : Nat → Tile → Tile) : (s.mapTiles f).snap = s.snap := rfl
@[simp] theorem State.mapTiles_now (s : State) (f : Nat → Tile → Tile) : (s.mapTiles f).now = s.now := rfl
@[simp] theorem State.mapTiles_cur (s : State) (f : Nat → Tile → Tile) : (s.mapTiles f).cur = s.cur := rfl
@[simp] theorem State.mapTiles_moves (s : State) (f : Nat → Tile → Tile) : (s.mapTiles f).moves = s.moves := rfl
@[simp] theorem State.mapTiles_eager (s : State) (f : Nat → Tile → Tile) : (s.mapTiles f).eager = s.eager := rfl
@[simp] theorem State.mapTiles_freeCtr (s : State) (f : Nat → Tile → Tile) : (s.mapTiles f).freeCtr = s.freeCtr := rfl

@[simp] theorem State.mapClusters_cores (s : State) (f : Nat → Cluster → Cluster) : (s.mapClusters f).cores = s.cores := rfl
@[simp] theorem State.mapClusters_tiles (s : State) (f : Nat → Cluster → Cluster) : (s.mapClusters f).tiles = s.tiles := rfl
@[simp] theorem State.mapClusters_dies (s : State) (f : Nat → Cluster → Cluster) : (s.mapClusters f).dies = s.dies := rfl
@[simp] theorem State.mapClusters_links (s : State) (f : Nat → Cluster → Cluster) : (s.mapClusters f).links = s.links := rfl
@[simp] theorem State.mapClusters_engines (s : State) (f : Nat → Cluster → Cluster) : (s.mapClusters f).engines = s.engines := rfl
@[simp] theorem State.mapClusters_streamers (s : State) (f : Nat → Cluster → Cluster) : (s.mapClusters f).streamers = s.streamers := rfl
@[simp] theorem State.mapClusters_queues (s : State) (f : Nat → Cluster → Cluster) : (s.mapClusters f).queues = s.queues := rfl
@[simp] theorem State.mapClusters_stores (s : State) (f : Nat → Cluster → Cluster) : (s.mapClusters f).stores = s.stores := rfl
@[simp] theorem State.mapClusters_mem (s : State) (f : Nat → Cluster → Cluster) : (s.mapClusters f).mem = s.mem := rfl
@[simp] theorem State.mapClusters_past (s : State) (f : Nat → Cluster → Cluster) : (s.mapClusters f).past = s.past := rfl
@[simp] theorem State.mapClusters_fences (s : State) (f : Nat → Cluster → Cluster) : (s.mapClusters f).fences = s.fences := rfl
@[simp] theorem State.mapClusters_icSec (s : State) (f : Nat → Cluster → Cluster) : (s.mapClusters f).icSec = s.icSec := rfl
@[simp] theorem State.mapClusters_rights (s : State) (f : Nat → Cluster → Cluster) : (s.mapClusters f).rights = s.rights := rfl
@[simp] theorem State.mapClusters_tcache (s : State) (f : Nat → Cluster → Cluster) : (s.mapClusters f).tcache = s.tcache := rfl
@[simp] theorem State.mapClusters_frameWaits (s : State) (f : Nat → Cluster → Cluster) : (s.mapClusters f).frameWaits = s.frameWaits := rfl
@[simp] theorem State.mapClusters_pinned (s : State) (f : Nat → Cluster → Cluster) : (s.mapClusters f).pinned = s.pinned := rfl
@[simp] theorem State.mapClusters_backing (s : State) (f : Nat → Cluster → Cluster) : (s.mapClusters f).backing = s.backing := rfl
@[simp] theorem State.mapClusters_freeFrames (s : State) (f : Nat → Cluster → Cluster) : (s.mapClusters f).freeFrames = s.freeFrames := rfl
@[simp] theorem State.mapClusters_regens (s : State) (f : Nat → Cluster → Cluster) : (s.mapClusters f).regens = s.regens := rfl
@[simp] theorem State.mapClusters_defers (s : State) (f : Nat → Cluster → Cluster) : (s.mapClusters f).defers = s.defers := rfl
@[simp] theorem State.mapClusters_seqOrder (s : State) (f : Nat → Cluster → Cluster) : (s.mapClusters f).seqOrder = s.seqOrder := rfl
@[simp] theorem State.mapClusters_seqNext (s : State) (f : Nat → Cluster → Cluster) : (s.mapClusters f).seqNext = s.seqNext := rfl
@[simp] theorem State.mapClusters_upds (s : State) (f : Nat → Cluster → Cluster) : (s.mapClusters f).upds = s.upds := rfl
@[simp] theorem State.mapClusters_fansOut (s : State) (f : Nat → Cluster → Cluster) : (s.mapClusters f).fansOut = s.fansOut := rfl
@[simp] theorem State.mapClusters_msgs (s : State) (f : Nat → Cluster → Cluster) : (s.mapClusters f).msgs = s.msgs := rfl
@[simp] theorem State.mapClusters_reqs (s : State) (f : Nat → Cluster → Cluster) : (s.mapClusters f).reqs = s.reqs := rfl
@[simp] theorem State.mapClusters_beaconB (s : State) (f : Nat → Cluster → Cluster) : (s.mapClusters f).beaconB = s.beaconB := rfl
@[simp] theorem State.mapClusters_beaconQ (s : State) (f : Nat → Cluster → Cluster) : (s.mapClusters f).beaconQ = s.beaconQ := rfl
@[simp] theorem State.mapClusters_nlive (s : State) (f : Nat → Cluster → Cluster) : (s.mapClusters f).nlive = s.nlive := rfl
@[simp] theorem State.mapClusters_lmap (s : State) (f : Nat → Cluster → Cluster) : (s.mapClusters f).lmap = s.lmap := rfl
@[simp] theorem State.mapClusters_quarCl (s : State) (f : Nat → Cluster → Cluster) : (s.mapClusters f).quarCl = s.quarCl := rfl
@[simp] theorem State.mapClusters_sys (s : State) (f : Nat → Cluster → Cluster) : (s.mapClusters f).sys = s.sys := rfl
@[simp] theorem State.mapClusters_net (s : State) (f : Nat → Cluster → Cluster) : (s.mapClusters f).net = s.net := rfl
@[simp] theorem State.mapClusters_snap (s : State) (f : Nat → Cluster → Cluster) : (s.mapClusters f).snap = s.snap := rfl
@[simp] theorem State.mapClusters_now (s : State) (f : Nat → Cluster → Cluster) : (s.mapClusters f).now = s.now := rfl
@[simp] theorem State.mapClusters_cur (s : State) (f : Nat → Cluster → Cluster) : (s.mapClusters f).cur = s.cur := rfl
@[simp] theorem State.mapClusters_moves (s : State) (f : Nat → Cluster → Cluster) : (s.mapClusters f).moves = s.moves := rfl
@[simp] theorem State.mapClusters_eager (s : State) (f : Nat → Cluster → Cluster) : (s.mapClusters f).eager = s.eager := rfl
@[simp] theorem State.mapClusters_freeCtr (s : State) (f : Nat → Cluster → Cluster) : (s.mapClusters f).freeCtr = s.freeCtr := rfl

@[simp] theorem State.tickFree_cores (s : State) : (s.tickFree).cores = s.cores := rfl
@[simp] theorem State.tickFree_tiles (s : State) : (s.tickFree).tiles = s.tiles := rfl
@[simp] theorem State.tickFree_clusters (s : State) : (s.tickFree).clusters = s.clusters := rfl
@[simp] theorem State.tickFree_dies (s : State) : (s.tickFree).dies = s.dies := rfl
@[simp] theorem State.tickFree_links (s : State) : (s.tickFree).links = s.links := rfl
@[simp] theorem State.tickFree_engines (s : State) : (s.tickFree).engines = s.engines := rfl
@[simp] theorem State.tickFree_streamers (s : State) : (s.tickFree).streamers = s.streamers := rfl
@[simp] theorem State.tickFree_queues (s : State) : (s.tickFree).queues = s.queues := rfl
@[simp] theorem State.tickFree_stores (s : State) : (s.tickFree).stores = s.stores := rfl
@[simp] theorem State.tickFree_mem (s : State) : (s.tickFree).mem = s.mem := rfl
@[simp] theorem State.tickFree_past (s : State) : (s.tickFree).past = s.past := rfl
@[simp] theorem State.tickFree_fences (s : State) : (s.tickFree).fences = s.fences := rfl
@[simp] theorem State.tickFree_icSec (s : State) : (s.tickFree).icSec = s.icSec := rfl
@[simp] theorem State.tickFree_rights (s : State) : (s.tickFree).rights = s.rights := rfl
@[simp] theorem State.tickFree_tcache (s : State) : (s.tickFree).tcache = s.tcache := rfl
@[simp] theorem State.tickFree_frameWaits (s : State) : (s.tickFree).frameWaits = s.frameWaits := rfl
@[simp] theorem State.tickFree_pinned (s : State) : (s.tickFree).pinned = s.pinned := rfl
@[simp] theorem State.tickFree_backing (s : State) : (s.tickFree).backing = s.backing := rfl
@[simp] theorem State.tickFree_freeFrames (s : State) : (s.tickFree).freeFrames = s.freeFrames := rfl
@[simp] theorem State.tickFree_regens (s : State) : (s.tickFree).regens = s.regens := rfl
@[simp] theorem State.tickFree_defers (s : State) : (s.tickFree).defers = s.defers := rfl
@[simp] theorem State.tickFree_seqOrder (s : State) : (s.tickFree).seqOrder = s.seqOrder := rfl
@[simp] theorem State.tickFree_seqNext (s : State) : (s.tickFree).seqNext = s.seqNext := rfl
@[simp] theorem State.tickFree_upds (s : State) : (s.tickFree).upds = s.upds := rfl
@[simp] theorem State.tickFree_fansOut (s : State) : (s.tickFree).fansOut = s.fansOut := rfl
@[simp] theorem State.tickFree_msgs (s : State) : (s.tickFree).msgs = s.msgs := rfl
@[simp] theorem State.tickFree_reqs (s : State) : (s.tickFree).reqs = s.reqs := rfl
@[simp] theorem State.tickFree_beaconB (s : State) : (s.tickFree).beaconB = s.beaconB := rfl
@[simp] theorem State.tickFree_beaconQ (s : State) : (s.tickFree).beaconQ = s.beaconQ := rfl
@[simp] theorem State.tickFree_nlive (s : State) : (s.tickFree).nlive = s.nlive := rfl
@[simp] theorem State.tickFree_lmap (s : State) : (s.tickFree).lmap = s.lmap := rfl
@[simp] theorem State.tickFree_quarCl (s : State) : (s.tickFree).quarCl = s.quarCl := rfl
@[simp] theorem State.tickFree_sys (s : State) : (s.tickFree).sys = s.sys := rfl
@[simp] theorem State.tickFree_net (s : State) : (s.tickFree).net = s.net := rfl
@[simp] theorem State.tickFree_snap (s : State) : (s.tickFree).snap = s.snap := rfl
@[simp] theorem State.tickFree_now (s : State) : (s.tickFree).now = s.now := rfl
@[simp] theorem State.tickFree_cur (s : State) : (s.tickFree).cur = s.cur := rfl
@[simp] theorem State.tickFree_moves (s : State) : (s.tickFree).moves = s.moves := rfl
@[simp] theorem State.tickFree_eager (s : State) : (s.tickFree).eager = s.eager := rfl

@[simp] theorem State.modCore_eq (s : State) (u : Nat) (f : Core → Core) : s.modCore u f = s.setCore u (f (s.core u)) := rfl
@[simp] theorem State.modTile_eq (s : State) (n : Nat) (f : Tile → Tile) : s.modTile n f = s.setTile n (f (s.tile n)) := rfl
@[simp] theorem State.modCluster_eq (s : State) (P : Nat) (f : Cluster → Cluster) :
    s.modCluster P f = s.setCluster P (f (s.cluster P)) := rfl

/-! ## A unit after an update -/

theorem State.setCore_core (s : State) (k j : Nat) (x : Core) : (s.setCore k x).core j = if j = k then x else s.core j := mget_mset ..
@[simp] theorem State.setCore_core_self (s : State) (k : Nat) (x : Core) : (s.setCore k x).core k = x := mget_mset_self ..
@[simp] theorem State.setTile_core (s : State) (k j : Nat) (x : Tile) : (s.setTile k x).core j = s.core j := rfl
@[simp] theorem State.setCluster_core (s : State) (k j : Nat) (x : Cluster) : (s.setCluster k x).core j = s.core j := rfl
@[simp] theorem State.setDie_core (s : State) (k j : Nat) (x : Die) : (s.setDie k x).core j = s.core j := rfl
@[simp] theorem State.setLink_core (s : State) (k j : Nat) (x : Link) : (s.setLink k x).core j = s.core j := rfl
@[simp] theorem State.setStreamer_core (s : State) (k j : Nat) (x : Streamer) : (s.setStreamer k x).core j = s.core j := rfl
@[simp] theorem State.setCore_tile (s : State) (k j : Nat) (x : Core) : (s.setCore k x).tile j = s.tile j := rfl
theorem State.setTile_tile (s : State) (k j : Nat) (x : Tile) : (s.setTile k x).tile j = if j = k then x else s.tile j := mget_mset ..
@[simp] theorem State.setTile_tile_self (s : State) (k : Nat) (x : Tile) : (s.setTile k x).tile k = x := mget_mset_self ..
@[simp] theorem State.setCluster_tile (s : State) (k j : Nat) (x : Cluster) : (s.setCluster k x).tile j = s.tile j := rfl
@[simp] theorem State.setDie_tile (s : State) (k j : Nat) (x : Die) : (s.setDie k x).tile j = s.tile j := rfl
@[simp] theorem State.setLink_tile (s : State) (k j : Nat) (x : Link) : (s.setLink k x).tile j = s.tile j := rfl
@[simp] theorem State.setStreamer_tile (s : State) (k j : Nat) (x : Streamer) : (s.setStreamer k x).tile j = s.tile j := rfl
@[simp] theorem State.setCore_cluster (s : State) (k j : Nat) (x : Core) : (s.setCore k x).cluster j = s.cluster j := rfl
@[simp] theorem State.setTile_cluster (s : State) (k j : Nat) (x : Tile) : (s.setTile k x).cluster j = s.cluster j := rfl
theorem State.setCluster_cluster (s : State) (k j : Nat) (x : Cluster) : (s.setCluster k x).cluster j = if j = k then x else s.cluster j := mget_mset ..
@[simp] theorem State.setCluster_cluster_self (s : State) (k : Nat) (x : Cluster) : (s.setCluster k x).cluster k = x := mget_mset_self ..
@[simp] theorem State.setDie_cluster (s : State) (k j : Nat) (x : Die) : (s.setDie k x).cluster j = s.cluster j := rfl
@[simp] theorem State.setLink_cluster (s : State) (k j : Nat) (x : Link) : (s.setLink k x).cluster j = s.cluster j := rfl
@[simp] theorem State.setStreamer_cluster (s : State) (k j : Nat) (x : Streamer) : (s.setStreamer k x).cluster j = s.cluster j := rfl
@[simp] theorem State.setCore_die (s : State) (k j : Nat) (x : Core) : (s.setCore k x).die j = s.die j := rfl
@[simp] theorem State.setTile_die (s : State) (k j : Nat) (x : Tile) : (s.setTile k x).die j = s.die j := rfl
@[simp] theorem State.setCluster_die (s : State) (k j : Nat) (x : Cluster) : (s.setCluster k x).die j = s.die j := rfl
theorem State.setDie_die (s : State) (k j : Nat) (x : Die) : (s.setDie k x).die j = if j = k then x else s.die j := mget_mset ..
@[simp] theorem State.setDie_die_self (s : State) (k : Nat) (x : Die) : (s.setDie k x).die k = x := mget_mset_self ..
@[simp] theorem State.setLink_die (s : State) (k j : Nat) (x : Link) : (s.setLink k x).die j = s.die j := rfl
@[simp] theorem State.setStreamer_die (s : State) (k j : Nat) (x : Streamer) : (s.setStreamer k x).die j = s.die j := rfl
@[simp] theorem State.setCore_link (s : State) (k j : Nat) (x : Core) : (s.setCore k x).link j = s.link j := rfl
@[simp] theorem State.setTile_link (s : State) (k j : Nat) (x : Tile) : (s.setTile k x).link j = s.link j := rfl
@[simp] theorem State.setCluster_link (s : State) (k j : Nat) (x : Cluster) : (s.setCluster k x).link j = s.link j := rfl
@[simp] theorem State.setDie_link (s : State) (k j : Nat) (x : Die) : (s.setDie k x).link j = s.link j := rfl
theorem State.setLink_link (s : State) (k j : Nat) (x : Link) : (s.setLink k x).link j = if j = k then x else s.link j := mget_mset ..
@[simp] theorem State.setLink_link_self (s : State) (k : Nat) (x : Link) : (s.setLink k x).link k = x := mget_mset_self ..
@[simp] theorem State.setStreamer_link (s : State) (k j : Nat) (x : Streamer) : (s.setStreamer k x).link j = s.link j := rfl
@[simp] theorem State.setCore_streamer (s : State) (k j : Nat) (x : Core) : (s.setCore k x).streamer j = s.streamer j := rfl
@[simp] theorem State.setTile_streamer (s : State) (k j : Nat) (x : Tile) : (s.setTile k x).streamer j = s.streamer j := rfl
@[simp] theorem State.setCluster_streamer (s : State) (k j : Nat) (x : Cluster) : (s.setCluster k x).streamer j = s.streamer j := rfl
@[simp] theorem State.setDie_streamer (s : State) (k j : Nat) (x : Die) : (s.setDie k x).streamer j = s.streamer j := rfl
@[simp] theorem State.setLink_streamer (s : State) (k j : Nat) (x : Link) : (s.setLink k x).streamer j = s.streamer j := rfl
theorem State.setStreamer_streamer (s : State) (k j : Nat) (x : Streamer) : (s.setStreamer k x).streamer j = if j = k then x else s.streamer j := mget_mset ..
@[simp] theorem State.setStreamer_streamer_self (s : State) (k : Nat) (x : Streamer) : (s.setStreamer k x).streamer k = x := mget_mset_self ..
@[simp] theorem State.tickFree_core (s : State) (j : Nat) : s.tickFree.core j = s.core j := rfl
@[simp] theorem State.tickFree_tile (s : State) (j : Nat) : s.tickFree.tile j = s.tile j := rfl
@[simp] theorem State.tickFree_cluster (s : State) (j : Nat) : s.tickFree.cluster j = s.cluster j := rfl
@[simp] theorem State.tickFree_die (s : State) (j : Nat) : s.tickFree.die j = s.die j := rfl
@[simp] theorem State.tickFree_link (s : State) (j : Nat) : s.tickFree.link j = s.link j := rfl
@[simp] theorem State.tickFree_streamer (s : State) (j : Nat) : s.tickFree.streamer j = s.streamer j := rfl

/-! ## Registers of a core -/

/-- Retirement in sequence changes the loop count, the loop end, the PC and the from-address alone (R78, R83). -/
theorem Core.seqNext_shape (c : Core) (n : Word) :
    ∃ lcnt lend pc from_, c.seqNext n = { c with lcnt := lcnt, lend := lend, pc := pc, from_ := from_ } := by
  unfold Core.seqNext
  simp only
  repeat' split
  all_goals exact ⟨_, _, _, _, rfl⟩

@[simp] theorem Core.wg_v (c : Core) (r : GReg) (v : Word) : (c.wg r v).v = c.v := by unfold Core.wg; split <;> rfl
@[simp] theorem Core.wg_pc (c : Core) (r : GReg) (v : Word) : (c.wg r v).pc = c.pc := by unfold Core.wg; split <;> rfl
@[simp] theorem Core.wg_ilen (c : Core) (r : GReg) (v : Word) : (c.wg r v).ilen = c.ilen := by unfold Core.wg; split <;> rfl
@[simp] theorem Core.wg_from_ (c : Core) (r : GReg) (v : Word) : (c.wg r v).from_ = c.from_ := by unfold Core.wg; split <;> rfl
@[simp] theorem Core.wg_lcnt (c : Core) (r : GReg) (v : Word) : (c.wg r v).lcnt = c.lcnt := by unfold Core.wg; split <;> rfl
@[simp] theorem Core.wg_lbeg (c : Core) (r : GReg) (v : Word) : (c.wg r v).lbeg = c.lbeg := by unfold Core.wg; split <;> rfl
@[simp] theorem Core.wg_lend (c : Core) (r : GReg) (v : Word) : (c.wg r v).lend = c.lend := by unfold Core.wg; split <;> rfl
@[simp] theorem Core.wg_h (c : Core) (r : GReg) (v : Word) : (c.wg r v).h = c.h := by unfold Core.wg; split <;> rfl
@[simp] theorem Core.wg_vt (c : Core) (r : GReg) (v : Word) : (c.wg r v).vt = c.vt := by unfold Core.wg; split <;> rfl
@[simp] theorem Core.wg_ctx (c : Core) (r : GReg) (v : Word) : (c.wg r v).ctx = c.ctx := by unfold Core.wg; split <;> rfl
@[simp] theorem Core.wg_task (c : Core) (r : GReg) (v : Word) : (c.wg r v).task = c.task := by unfold Core.wg; split <;> rfl
@[simp] theorem Core.wg_status (c : Core) (r : GReg) (v : Word) : (c.wg r v).status = c.status := by unfold Core.wg; split <;> rfl
@[simp] theorem Core.wg_owed (c : Core) (r : GReg) (v : Word) : (c.wg r v).owed = c.owed := by unfold Core.wg; split <;> rfl
@[simp] theorem Core.wg_wait (c : Core) (r : GReg) (v : Word) : (c.wg r v).wait = c.wait := by unfold Core.wg; split <;> rfl
@[simp] theorem Core.wg_stowing (c : Core) (r : GReg) (v : Word) : (c.wg r v).stowing = c.stowing := by unfold Core.wg; split <;> rfl
@[simp] theorem Core.wg_pop (c : Core) (r : GReg) (v : Word) : (c.wg r v).pop = c.pop := by unfold Core.wg; split <;> rfl
@[simp] theorem Core.wg_wdStart (c : Core) (r : GReg) (v : Word) : (c.wg r v).wdStart = c.wdStart := by unfold Core.wg; split <;> rfl
@[simp] theorem Core.wg_lastPc (c : Core) (r : GReg) (v : Word) : (c.wg r v).lastPc = c.lastPc := by unfold Core.wg; split <;> rfl
@[simp] theorem Core.wg_storeBuf (c : Core) (r : GReg) (v : Word) : (c.wg r v).storeBuf = c.storeBuf := by unfold Core.wg; split <;> rfl
@[simp] theorem Core.wg_acq (c : Core) (r : GReg) (v : Word) : (c.wg r v).acq = c.acq := by unfold Core.wg; split <;> rfl
@[simp] theorem Core.wg_floors (c : Core) (r : GReg) (v : Word) : (c.wg r v).floors = c.floors := by unfold Core.wg; split <;> rfl
@[simp] theorem Core.wg_icFrom (c : Core) (r : GReg) (v : Word) : (c.wg r v).icFrom = c.icFrom := by unfold Core.wg; split <;> rfl
@[simp] theorem Core.wg_uoDirty (c : Core) (r : GReg) (v : Word) : (c.wg r v).uoDirty = c.uoDirty := by unfold Core.wg; split <;> rfl
@[simp] theorem Core.wg_uoSeen (c : Core) (r : GReg) (v : Word) : (c.wg r v).uoSeen = c.uoSeen := by unfold Core.wg; split <;> rfl
@[simp] theorem Core.wg_seqSeen (c : Core) (r : GReg) (v : Word) : (c.wg r v).seqSeen = c.seqSeen := by unfold Core.wg; split <;> rfl
@[simp] theorem Core.wg_redirect (c : Core) (r : GReg) (v : Word) : (c.wg r v).redirect = c.redirect := by unfold Core.wg; split <;> rfl
@[simp] theorem Core.wg_fetchWait (c : Core) (r : GReg) (v : Word) : (c.wg r v).fetchWait = c.fetchWait := by unfold Core.wg; split <;> rfl
@[simp] theorem Core.wg_sample (c : Core) (r : GReg) (v : Word) : (c.wg r v).sample = c.sample := by unfold Core.wg; split <;> rfl
@[simp] theorem Core.wg_early (c : Core) (r : GReg) (v : Word) : (c.wg r v).early = c.early := by unfold Core.wg; split <;> rfl
@[simp] theorem Core.wg_inbox (c : Core) (r : GReg) (v : Word) : (c.wg r v).inbox = c.inbox := by unfold Core.wg; split <;> rfl
@[simp] theorem Core.wg_rxPorts (c : Core) (r : GReg) (v : Word) : (c.wg r v).rxPorts = c.rxPorts := by unfold Core.wg; split <;> rfl
@[simp] theorem Core.wg_txPorts (c : Core) (r : GReg) (v : Word) : (c.wg r v).txPorts = c.txPorts := by unfold Core.wg; split <;> rfl
@[simp] theorem Core.wg_outbox (c : Core) (r : GReg) (v : Word) : (c.wg r v).outbox = c.outbox := by unfold Core.wg; split <;> rfl
@[simp] theorem Core.wg_sentSince (c : Core) (r : GReg) (v : Word) : (c.wg r v).sentSince = c.sentSince := by unfold Core.wg; split <;> rfl
@[simp] theorem Core.wg_deque (c : Core) (r : GReg) (v : Word) : (c.wg r v).deque = c.deque := by unfold Core.wg; split <;> rfl
@[simp] theorem Core.wg_kseq (c : Core) (r : GReg) (v : Word) : (c.wg r v).kseq = c.kseq := by unfold Core.wg; split <;> rfl
@[simp] theorem Core.wg_seqNo (c : Core) (r : GReg) (v : Word) : (c.wg r v).seqNo = c.seqNo := by unfold Core.wg; split <;> rfl
@[simp] theorem Core.wg_elog (c : Core) (r : GReg) (v : Word) : (c.wg r v).elog = c.elog := by unfold Core.wg; split <;> rfl
@[simp] theorem Core.wg_mgn (c : Core) (r : GReg) (v : Word) : (c.wg r v).mgn = c.mgn := by unfold Core.wg; split <;> rfl
@[simp] theorem Core.wg_plb (c : Core) (r : GReg) (v : Word) : (c.wg r v).plb = c.plb := by unfold Core.wg; split <;> rfl
@[simp] theorem Core.wg_plbFor (c : Core) (r : GReg) (v : Word) : (c.wg r v).plbFor = c.plbFor := by unfold Core.wg; split <;> rfl
@[simp] theorem Core.wg_icache (c : Core) (r : GReg) (v : Word) : (c.wg r v).icache = c.icache := by unfold Core.wg; split <;> rfl
@[simp] theorem Core.wg_ccmd (c : Core) (r : GReg) (v : Word) : (c.wg r v).ccmd = c.ccmd := by unfold Core.wg; split <;> rfl
@[simp] theorem Core.wg_reqTag (c : Core) (r : GReg) (v : Word) : (c.wg r v).reqTag = c.reqTag := by unfold Core.wg; split <;> rfl

@[simp] theorem Core.wv_g (c : Core) (r : VReg) (x : VVal) : (c.wv r x).g = c.g := rfl
@[simp] theorem Core.wv_pc (c : Core) (r : VReg) (x : VVal) : (c.wv r x).pc = c.pc := rfl
@[simp] theorem Core.wv_ilen (c : Core) (r : VReg) (x : VVal) : (c.wv r x).ilen = c.ilen := rfl
@[simp] theorem Core.wv_from_ (c : Core) (r : VReg) (x : VVal) : (c.wv r x).from_ = c.from_ := rfl
@[simp] theorem Core.wv_lcnt (c : Core) (r : VReg) (x : VVal) : (c.wv r x).lcnt = c.lcnt := rfl
@[simp] theorem Core.wv_lbeg (c : Core) (r : VReg) (x : VVal) : (c.wv r x).lbeg = c.lbeg := rfl
@[simp] theorem Core.wv_lend (c : Core) (r : VReg) (x : VVal) : (c.wv r x).lend = c.lend := rfl
@[simp] theorem Core.wv_h (c : Core) (r : VReg) (x : VVal) : (c.wv r x).h = c.h := rfl
@[simp] theorem Core.wv_vt (c : Core) (r : VReg) (x : VVal) : (c.wv r x).vt = c.vt := rfl
@[simp] theorem Core.wv_ctx (c : Core) (r : VReg) (x : VVal) : (c.wv r x).ctx = c.ctx := rfl
@[simp] theorem Core.wv_task (c : Core) (r : VReg) (x : VVal) : (c.wv r x).task = c.task := rfl
@[simp] theorem Core.wv_status (c : Core) (r : VReg) (x : VVal) : (c.wv r x).status = c.status := rfl
@[simp] theorem Core.wv_owed (c : Core) (r : VReg) (x : VVal) : (c.wv r x).owed = c.owed := rfl
@[simp] theorem Core.wv_wait (c : Core) (r : VReg) (x : VVal) : (c.wv r x).wait = c.wait := rfl
@[simp] theorem Core.wv_stowing (c : Core) (r : VReg) (x : VVal) : (c.wv r x).stowing = c.stowing := rfl
@[simp] theorem Core.wv_pop (c : Core) (r : VReg) (x : VVal) : (c.wv r x).pop = c.pop := rfl
@[simp] theorem Core.wv_wdStart (c : Core) (r : VReg) (x : VVal) : (c.wv r x).wdStart = c.wdStart := rfl
@[simp] theorem Core.wv_lastPc (c : Core) (r : VReg) (x : VVal) : (c.wv r x).lastPc = c.lastPc := rfl
@[simp] theorem Core.wv_storeBuf (c : Core) (r : VReg) (x : VVal) : (c.wv r x).storeBuf = c.storeBuf := rfl
@[simp] theorem Core.wv_acq (c : Core) (r : VReg) (x : VVal) : (c.wv r x).acq = c.acq := rfl
@[simp] theorem Core.wv_floors (c : Core) (r : VReg) (x : VVal) : (c.wv r x).floors = c.floors := rfl
@[simp] theorem Core.wv_icFrom (c : Core) (r : VReg) (x : VVal) : (c.wv r x).icFrom = c.icFrom := rfl
@[simp] theorem Core.wv_uoDirty (c : Core) (r : VReg) (x : VVal) : (c.wv r x).uoDirty = c.uoDirty := rfl
@[simp] theorem Core.wv_uoSeen (c : Core) (r : VReg) (x : VVal) : (c.wv r x).uoSeen = c.uoSeen := rfl
@[simp] theorem Core.wv_seqSeen (c : Core) (r : VReg) (x : VVal) : (c.wv r x).seqSeen = c.seqSeen := rfl
@[simp] theorem Core.wv_redirect (c : Core) (r : VReg) (x : VVal) : (c.wv r x).redirect = c.redirect := rfl
@[simp] theorem Core.wv_fetchWait (c : Core) (r : VReg) (x : VVal) : (c.wv r x).fetchWait = c.fetchWait := rfl
@[simp] theorem Core.wv_sample (c : Core) (r : VReg) (x : VVal) : (c.wv r x).sample = c.sample := rfl
@[simp] theorem Core.wv_early (c : Core) (r : VReg) (x : VVal) : (c.wv r x).early = c.early := rfl
@[simp] theorem Core.wv_inbox (c : Core) (r : VReg) (x : VVal) : (c.wv r x).inbox = c.inbox := rfl
@[simp] theorem Core.wv_rxPorts (c : Core) (r : VReg) (x : VVal) : (c.wv r x).rxPorts = c.rxPorts := rfl
@[simp] theorem Core.wv_txPorts (c : Core) (r : VReg) (x : VVal) : (c.wv r x).txPorts = c.txPorts := rfl
@[simp] theorem Core.wv_outbox (c : Core) (r : VReg) (x : VVal) : (c.wv r x).outbox = c.outbox := rfl
@[simp] theorem Core.wv_sentSince (c : Core) (r : VReg) (x : VVal) : (c.wv r x).sentSince = c.sentSince := rfl
@[simp] theorem Core.wv_deque (c : Core) (r : VReg) (x : VVal) : (c.wv r x).deque = c.deque := rfl
@[simp] theorem Core.wv_kseq (c : Core) (r : VReg) (x : VVal) : (c.wv r x).kseq = c.kseq := rfl
@[simp] theorem Core.wv_seqNo (c : Core) (r : VReg) (x : VVal) : (c.wv r x).seqNo = c.seqNo := rfl
@[simp] theorem Core.wv_elog (c : Core) (r : VReg) (x : VVal) : (c.wv r x).elog = c.elog := rfl
@[simp] theorem Core.wv_mgn (c : Core) (r : VReg) (x : VVal) : (c.wv r x).mgn = c.mgn := rfl
@[simp] theorem Core.wv_plb (c : Core) (r : VReg) (x : VVal) : (c.wv r x).plb = c.plb := rfl
@[simp] theorem Core.wv_plbFor (c : Core) (r : VReg) (x : VVal) : (c.wv r x).plbFor = c.plbFor := rfl
@[simp] theorem Core.wv_icache (c : Core) (r : VReg) (x : VVal) : (c.wv r x).icache = c.icache := rfl
@[simp] theorem Core.wv_ccmd (c : Core) (r : VReg) (x : VVal) : (c.wv r x).ccmd = c.ccmd := rfl
@[simp] theorem Core.wv_reqTag (c : Core) (r : VReg) (x : VVal) : (c.wv r x).reqTag = c.reqTag := rfl

@[simp] theorem Core.wh_g (c : Core) (r : HReg) (x : Handle) : (c.wh r x).g = c.g := rfl
@[simp] theorem Core.wh_v (c : Core) (r : HReg) (x : Handle) : (c.wh r x).v = c.v := rfl
@[simp] theorem Core.wh_pc (c : Core) (r : HReg) (x : Handle) : (c.wh r x).pc = c.pc := rfl
@[simp] theorem Core.wh_ilen (c : Core) (r : HReg) (x : Handle) : (c.wh r x).ilen = c.ilen := rfl
@[simp] theorem Core.wh_from_ (c : Core) (r : HReg) (x : Handle) : (c.wh r x).from_ = c.from_ := rfl
@[simp] theorem Core.wh_lcnt (c : Core) (r : HReg) (x : Handle) : (c.wh r x).lcnt = c.lcnt := rfl
@[simp] theorem Core.wh_lbeg (c : Core) (r : HReg) (x : Handle) : (c.wh r x).lbeg = c.lbeg := rfl
@[simp] theorem Core.wh_lend (c : Core) (r : HReg) (x : Handle) : (c.wh r x).lend = c.lend := rfl
@[simp] theorem Core.wh_vt (c : Core) (r : HReg) (x : Handle) : (c.wh r x).vt = c.vt := rfl
@[simp] theorem Core.wh_ctx (c : Core) (r : HReg) (x : Handle) : (c.wh r x).ctx = c.ctx := rfl
@[simp] theorem Core.wh_task (c : Core) (r : HReg) (x : Handle) : (c.wh r x).task = c.task := rfl
@[simp] theorem Core.wh_status (c : Core) (r : HReg) (x : Handle) : (c.wh r x).status = c.status := rfl
@[simp] theorem Core.wh_owed (c : Core) (r : HReg) (x : Handle) : (c.wh r x).owed = c.owed := rfl
@[simp] theorem Core.wh_wait (c : Core) (r : HReg) (x : Handle) : (c.wh r x).wait = c.wait := rfl
@[simp] theorem Core.wh_stowing (c : Core) (r : HReg) (x : Handle) : (c.wh r x).stowing = c.stowing := rfl
@[simp] theorem Core.wh_pop (c : Core) (r : HReg) (x : Handle) : (c.wh r x).pop = c.pop := rfl
@[simp] theorem Core.wh_wdStart (c : Core) (r : HReg) (x : Handle) : (c.wh r x).wdStart = c.wdStart := rfl
@[simp] theorem Core.wh_lastPc (c : Core) (r : HReg) (x : Handle) : (c.wh r x).lastPc = c.lastPc := rfl
@[simp] theorem Core.wh_storeBuf (c : Core) (r : HReg) (x : Handle) : (c.wh r x).storeBuf = c.storeBuf := rfl
@[simp] theorem Core.wh_acq (c : Core) (r : HReg) (x : Handle) : (c.wh r x).acq = c.acq := rfl
@[simp] theorem Core.wh_floors (c : Core) (r : HReg) (x : Handle) : (c.wh r x).floors = c.floors := rfl
@[simp] theorem Core.wh_icFrom (c : Core) (r : HReg) (x : Handle) : (c.wh r x).icFrom = c.icFrom := rfl
@[simp] theorem Core.wh_uoDirty (c : Core) (r : HReg) (x : Handle) : (c.wh r x).uoDirty = c.uoDirty := rfl
@[simp] theorem Core.wh_uoSeen (c : Core) (r : HReg) (x : Handle) : (c.wh r x).uoSeen = c.uoSeen := rfl
@[simp] theorem Core.wh_seqSeen (c : Core) (r : HReg) (x : Handle) : (c.wh r x).seqSeen = c.seqSeen := rfl
@[simp] theorem Core.wh_redirect (c : Core) (r : HReg) (x : Handle) : (c.wh r x).redirect = c.redirect := rfl
@[simp] theorem Core.wh_fetchWait (c : Core) (r : HReg) (x : Handle) : (c.wh r x).fetchWait = c.fetchWait := rfl
@[simp] theorem Core.wh_sample (c : Core) (r : HReg) (x : Handle) : (c.wh r x).sample = c.sample := rfl
@[simp] theorem Core.wh_early (c : Core) (r : HReg) (x : Handle) : (c.wh r x).early = c.early := rfl
@[simp] theorem Core.wh_inbox (c : Core) (r : HReg) (x : Handle) : (c.wh r x).inbox = c.inbox := rfl
@[simp] theorem Core.wh_rxPorts (c : Core) (r : HReg) (x : Handle) : (c.wh r x).rxPorts = c.rxPorts := rfl
@[simp] theorem Core.wh_txPorts (c : Core) (r : HReg) (x : Handle) : (c.wh r x).txPorts = c.txPorts := rfl
@[simp] theorem Core.wh_outbox (c : Core) (r : HReg) (x : Handle) : (c.wh r x).outbox = c.outbox := rfl
@[simp] theorem Core.wh_sentSince (c : Core) (r : HReg) (x : Handle) : (c.wh r x).sentSince = c.sentSince := rfl
@[simp] theorem Core.wh_deque (c : Core) (r : HReg) (x : Handle) : (c.wh r x).deque = c.deque := rfl
@[simp] theorem Core.wh_kseq (c : Core) (r : HReg) (x : Handle) : (c.wh r x).kseq = c.kseq := rfl
@[simp] theorem Core.wh_seqNo (c : Core) (r : HReg) (x : Handle) : (c.wh r x).seqNo = c.seqNo := rfl
@[simp] theorem Core.wh_elog (c : Core) (r : HReg) (x : Handle) : (c.wh r x).elog = c.elog := rfl
@[simp] theorem Core.wh_mgn (c : Core) (r : HReg) (x : Handle) : (c.wh r x).mgn = c.mgn := rfl
@[simp] theorem Core.wh_plb (c : Core) (r : HReg) (x : Handle) : (c.wh r x).plb = c.plb := rfl
@[simp] theorem Core.wh_plbFor (c : Core) (r : HReg) (x : Handle) : (c.wh r x).plbFor = c.plbFor := rfl
@[simp] theorem Core.wh_icache (c : Core) (r : HReg) (x : Handle) : (c.wh r x).icache = c.icache := rfl
@[simp] theorem Core.wh_ccmd (c : Core) (r : HReg) (x : Handle) : (c.wh r x).ccmd = c.ccmd := rfl
@[simp] theorem Core.wh_reqTag (c : Core) (r : HReg) (x : Handle) : (c.wh r x).reqTag = c.reqTag := rfl

@[simp] theorem Core.retireCounts_g (c : Core) (now : Nat) : (c.retireCounts now).g = c.g := rfl
@[simp] theorem Core.retireCounts_v (c : Core) (now : Nat) : (c.retireCounts now).v = c.v := rfl
@[simp] theorem Core.retireCounts_pc (c : Core) (now : Nat) : (c.retireCounts now).pc = c.pc := rfl
@[simp] theorem Core.retireCounts_ilen (c : Core) (now : Nat) : (c.retireCounts now).ilen = c.ilen := rfl
@[simp] theorem Core.retireCounts_from_ (c : Core) (now : Nat) : (c.retireCounts now).from_ = c.from_ := rfl
@[simp] theorem Core.retireCounts_lcnt (c : Core) (now : Nat) : (c.retireCounts now).lcnt = c.lcnt := rfl
@[simp] theorem Core.retireCounts_lbeg (c : Core) (now : Nat) : (c.retireCounts now).lbeg = c.lbeg := rfl
@[simp] theorem Core.retireCounts_lend (c : Core) (now : Nat) : (c.retireCounts now).lend = c.lend := rfl
@[simp] theorem Core.retireCounts_h (c : Core) (now : Nat) : (c.retireCounts now).h = c.h := rfl
@[simp] theorem Core.retireCounts_vt (c : Core) (now : Nat) : (c.retireCounts now).vt = c.vt := rfl
@[simp] theorem Core.retireCounts_ctx (c : Core) (now : Nat) : (c.retireCounts now).ctx = c.ctx := rfl
@[simp] theorem Core.retireCounts_task (c : Core) (now : Nat) : (c.retireCounts now).task = c.task := rfl
@[simp] theorem Core.retireCounts_status (c : Core) (now : Nat) : (c.retireCounts now).status = c.status := rfl
@[simp] theorem Core.retireCounts_owed (c : Core) (now : Nat) : (c.retireCounts now).owed = c.owed := rfl
@[simp] theorem Core.retireCounts_stowing (c : Core) (now : Nat) : (c.retireCounts now).stowing = c.stowing := rfl
@[simp] theorem Core.retireCounts_storeBuf (c : Core) (now : Nat) : (c.retireCounts now).storeBuf = c.storeBuf := rfl
@[simp] theorem Core.retireCounts_acq (c : Core) (now : Nat) : (c.retireCounts now).acq = c.acq := rfl
@[simp] theorem Core.retireCounts_floors (c : Core) (now : Nat) : (c.retireCounts now).floors = c.floors := rfl
@[simp] theorem Core.retireCounts_icFrom (c : Core) (now : Nat) : (c.retireCounts now).icFrom = c.icFrom := rfl
@[simp] theorem Core.retireCounts_uoDirty (c : Core) (now : Nat) : (c.retireCounts now).uoDirty = c.uoDirty := rfl
@[simp] theorem Core.retireCounts_uoSeen (c : Core) (now : Nat) : (c.retireCounts now).uoSeen = c.uoSeen := rfl
@[simp] theorem Core.retireCounts_seqSeen (c : Core) (now : Nat) : (c.retireCounts now).seqSeen = c.seqSeen := rfl
@[simp] theorem Core.retireCounts_fetchWait (c : Core) (now : Nat) : (c.retireCounts now).fetchWait = c.fetchWait := rfl
@[simp] theorem Core.retireCounts_early (c : Core) (now : Nat) : (c.retireCounts now).early = c.early := rfl
@[simp] theorem Core.retireCounts_inbox (c : Core) (now : Nat) : (c.retireCounts now).inbox = c.inbox := rfl
@[simp] theorem Core.retireCounts_rxPorts (c : Core) (now : Nat) : (c.retireCounts now).rxPorts = c.rxPorts := rfl
@[simp] theorem Core.retireCounts_txPorts (c : Core) (now : Nat) : (c.retireCounts now).txPorts = c.txPorts := rfl
@[simp] theorem Core.retireCounts_outbox (c : Core) (now : Nat) : (c.retireCounts now).outbox = c.outbox := rfl
@[simp] theorem Core.retireCounts_sentSince (c : Core) (now : Nat) : (c.retireCounts now).sentSince = c.sentSince := rfl
@[simp] theorem Core.retireCounts_deque (c : Core) (now : Nat) : (c.retireCounts now).deque = c.deque := rfl
@[simp] theorem Core.retireCounts_kseq (c : Core) (now : Nat) : (c.retireCounts now).kseq = c.kseq := rfl
@[simp] theorem Core.retireCounts_seqNo (c : Core) (now : Nat) : (c.retireCounts now).seqNo = c.seqNo := rfl
@[simp] theorem Core.retireCounts_elog (c : Core) (now : Nat) : (c.retireCounts now).elog = c.elog := rfl
@[simp] theorem Core.retireCounts_plb (c : Core) (now : Nat) : (c.retireCounts now).plb = c.plb := rfl
@[simp] theorem Core.retireCounts_plbFor (c : Core) (now : Nat) : (c.retireCounts now).plbFor = c.plbFor := rfl
@[simp] theorem Core.retireCounts_icache (c : Core) (now : Nat) : (c.retireCounts now).icache = c.icache := rfl
@[simp] theorem Core.retireCounts_ccmd (c : Core) (now : Nat) : (c.retireCounts now).ccmd = c.ccmd := rfl
@[simp] theorem Core.retireCounts_reqTag (c : Core) (now : Nat) : (c.retireCounts now).reqTag = c.reqTag := rfl

@[simp] theorem Core.seqNext_g (c : Core) (n : Word) : (c.seqNext n).g = c.g := by obtain ⟨_, _, _, _, h⟩ := c.seqNext_shape n; rw [h]
@[simp] theorem Core.seqNext_v (c : Core) (n : Word) : (c.seqNext n).v = c.v := by obtain ⟨_, _, _, _, h⟩ := c.seqNext_shape n; rw [h]
@[simp] theorem Core.seqNext_ilen (c : Core) (n : Word) : (c.seqNext n).ilen = c.ilen := by obtain ⟨_, _, _, _, h⟩ := c.seqNext_shape n; rw [h]
@[simp] theorem Core.seqNext_lbeg (c : Core) (n : Word) : (c.seqNext n).lbeg = c.lbeg := by obtain ⟨_, _, _, _, h⟩ := c.seqNext_shape n; rw [h]
@[simp] theorem Core.seqNext_h (c : Core) (n : Word) : (c.seqNext n).h = c.h := by obtain ⟨_, _, _, _, h⟩ := c.seqNext_shape n; rw [h]
@[simp] theorem Core.seqNext_vt (c : Core) (n : Word) : (c.seqNext n).vt = c.vt := by obtain ⟨_, _, _, _, h⟩ := c.seqNext_shape n; rw [h]
@[simp] theorem Core.seqNext_ctx (c : Core) (n : Word) : (c.seqNext n).ctx = c.ctx := by obtain ⟨_, _, _, _, h⟩ := c.seqNext_shape n; rw [h]
@[simp] theorem Core.seqNext_task (c : Core) (n : Word) : (c.seqNext n).task = c.task := by obtain ⟨_, _, _, _, h⟩ := c.seqNext_shape n; rw [h]
@[simp] theorem Core.seqNext_status (c : Core) (n : Word) : (c.seqNext n).status = c.status := by obtain ⟨_, _, _, _, h⟩ := c.seqNext_shape n; rw [h]
@[simp] theorem Core.seqNext_owed (c : Core) (n : Word) : (c.seqNext n).owed = c.owed := by obtain ⟨_, _, _, _, h⟩ := c.seqNext_shape n; rw [h]
@[simp] theorem Core.seqNext_wait (c : Core) (n : Word) : (c.seqNext n).wait = c.wait := by obtain ⟨_, _, _, _, h⟩ := c.seqNext_shape n; rw [h]
@[simp] theorem Core.seqNext_stowing (c : Core) (n : Word) : (c.seqNext n).stowing = c.stowing := by obtain ⟨_, _, _, _, h⟩ := c.seqNext_shape n; rw [h]
@[simp] theorem Core.seqNext_pop (c : Core) (n : Word) : (c.seqNext n).pop = c.pop := by obtain ⟨_, _, _, _, h⟩ := c.seqNext_shape n; rw [h]
@[simp] theorem Core.seqNext_wdStart (c : Core) (n : Word) : (c.seqNext n).wdStart = c.wdStart := by obtain ⟨_, _, _, _, h⟩ := c.seqNext_shape n; rw [h]
@[simp] theorem Core.seqNext_lastPc (c : Core) (n : Word) : (c.seqNext n).lastPc = c.lastPc := by obtain ⟨_, _, _, _, h⟩ := c.seqNext_shape n; rw [h]
@[simp] theorem Core.seqNext_storeBuf (c : Core) (n : Word) : (c.seqNext n).storeBuf = c.storeBuf := by obtain ⟨_, _, _, _, h⟩ := c.seqNext_shape n; rw [h]
@[simp] theorem Core.seqNext_acq (c : Core) (n : Word) : (c.seqNext n).acq = c.acq := by obtain ⟨_, _, _, _, h⟩ := c.seqNext_shape n; rw [h]
@[simp] theorem Core.seqNext_floors (c : Core) (n : Word) : (c.seqNext n).floors = c.floors := by obtain ⟨_, _, _, _, h⟩ := c.seqNext_shape n; rw [h]
@[simp] theorem Core.seqNext_icFrom (c : Core) (n : Word) : (c.seqNext n).icFrom = c.icFrom := by obtain ⟨_, _, _, _, h⟩ := c.seqNext_shape n; rw [h]
@[simp] theorem Core.seqNext_uoDirty (c : Core) (n : Word) : (c.seqNext n).uoDirty = c.uoDirty := by obtain ⟨_, _, _, _, h⟩ := c.seqNext_shape n; rw [h]
@[simp] theorem Core.seqNext_uoSeen (c : Core) (n : Word) : (c.seqNext n).uoSeen = c.uoSeen := by obtain ⟨_, _, _, _, h⟩ := c.seqNext_shape n; rw [h]
@[simp] theorem Core.seqNext_seqSeen (c : Core) (n : Word) : (c.seqNext n).seqSeen = c.seqSeen := by obtain ⟨_, _, _, _, h⟩ := c.seqNext_shape n; rw [h]
@[simp] theorem Core.seqNext_redirect (c : Core) (n : Word) : (c.seqNext n).redirect = c.redirect := by obtain ⟨_, _, _, _, h⟩ := c.seqNext_shape n; rw [h]
@[simp] theorem Core.seqNext_fetchWait (c : Core) (n : Word) : (c.seqNext n).fetchWait = c.fetchWait := by obtain ⟨_, _, _, _, h⟩ := c.seqNext_shape n; rw [h]
@[simp] theorem Core.seqNext_sample (c : Core) (n : Word) : (c.seqNext n).sample = c.sample := by obtain ⟨_, _, _, _, h⟩ := c.seqNext_shape n; rw [h]
@[simp] theorem Core.seqNext_early (c : Core) (n : Word) : (c.seqNext n).early = c.early := by obtain ⟨_, _, _, _, h⟩ := c.seqNext_shape n; rw [h]
@[simp] theorem Core.seqNext_inbox (c : Core) (n : Word) : (c.seqNext n).inbox = c.inbox := by obtain ⟨_, _, _, _, h⟩ := c.seqNext_shape n; rw [h]
@[simp] theorem Core.seqNext_rxPorts (c : Core) (n : Word) : (c.seqNext n).rxPorts = c.rxPorts := by obtain ⟨_, _, _, _, h⟩ := c.seqNext_shape n; rw [h]
@[simp] theorem Core.seqNext_txPorts (c : Core) (n : Word) : (c.seqNext n).txPorts = c.txPorts := by obtain ⟨_, _, _, _, h⟩ := c.seqNext_shape n; rw [h]
@[simp] theorem Core.seqNext_outbox (c : Core) (n : Word) : (c.seqNext n).outbox = c.outbox := by obtain ⟨_, _, _, _, h⟩ := c.seqNext_shape n; rw [h]
@[simp] theorem Core.seqNext_sentSince (c : Core) (n : Word) : (c.seqNext n).sentSince = c.sentSince := by obtain ⟨_, _, _, _, h⟩ := c.seqNext_shape n; rw [h]
@[simp] theorem Core.seqNext_deque (c : Core) (n : Word) : (c.seqNext n).deque = c.deque := by obtain ⟨_, _, _, _, h⟩ := c.seqNext_shape n; rw [h]
@[simp] theorem Core.seqNext_kseq (c : Core) (n : Word) : (c.seqNext n).kseq = c.kseq := by obtain ⟨_, _, _, _, h⟩ := c.seqNext_shape n; rw [h]
@[simp] theorem Core.seqNext_seqNo (c : Core) (n : Word) : (c.seqNext n).seqNo = c.seqNo := by obtain ⟨_, _, _, _, h⟩ := c.seqNext_shape n; rw [h]
@[simp] theorem Core.seqNext_elog (c : Core) (n : Word) : (c.seqNext n).elog = c.elog := by obtain ⟨_, _, _, _, h⟩ := c.seqNext_shape n; rw [h]
@[simp] theorem Core.seqNext_mgn (c : Core) (n : Word) : (c.seqNext n).mgn = c.mgn := by obtain ⟨_, _, _, _, h⟩ := c.seqNext_shape n; rw [h]
@[simp] theorem Core.seqNext_plb (c : Core) (n : Word) : (c.seqNext n).plb = c.plb := by obtain ⟨_, _, _, _, h⟩ := c.seqNext_shape n; rw [h]
@[simp] theorem Core.seqNext_plbFor (c : Core) (n : Word) : (c.seqNext n).plbFor = c.plbFor := by obtain ⟨_, _, _, _, h⟩ := c.seqNext_shape n; rw [h]
@[simp] theorem Core.seqNext_icache (c : Core) (n : Word) : (c.seqNext n).icache = c.icache := by obtain ⟨_, _, _, _, h⟩ := c.seqNext_shape n; rw [h]
@[simp] theorem Core.seqNext_ccmd (c : Core) (n : Word) : (c.seqNext n).ccmd = c.ccmd := by obtain ⟨_, _, _, _, h⟩ := c.seqNext_shape n; rw [h]
@[simp] theorem Core.seqNext_reqTag (c : Core) (n : Word) : (c.seqNext n).reqTag = c.reqTag := by obtain ⟨_, _, _, _, h⟩ := c.seqNext_shape n; rw [h]

@[simp] theorem Core.dropped_g (c : Core) : (c.dropped).g = c.g := rfl
@[simp] theorem Core.dropped_v (c : Core) : (c.dropped).v = c.v := rfl
@[simp] theorem Core.dropped_pc (c : Core) : (c.dropped).pc = c.pc := rfl
@[simp] theorem Core.dropped_ilen (c : Core) : (c.dropped).ilen = c.ilen := rfl
@[simp] theorem Core.dropped_from_ (c : Core) : (c.dropped).from_ = c.from_ := rfl
@[simp] theorem Core.dropped_lcnt (c : Core) : (c.dropped).lcnt = c.lcnt := rfl
@[simp] theorem Core.dropped_lbeg (c : Core) : (c.dropped).lbeg = c.lbeg := rfl
@[simp] theorem Core.dropped_lend (c : Core) : (c.dropped).lend = c.lend := rfl
@[simp] theorem Core.dropped_h (c : Core) : (c.dropped).h = c.h := rfl
@[simp] theorem Core.dropped_vt (c : Core) : (c.dropped).vt = c.vt := rfl
@[simp] theorem Core.dropped_ctx (c : Core) : (c.dropped).ctx = c.ctx := rfl
@[simp] theorem Core.dropped_task (c : Core) : (c.dropped).task = c.task := rfl
@[simp] theorem Core.dropped_status (c : Core) : (c.dropped).status = c.status := rfl
@[simp] theorem Core.dropped_owed (c : Core) : (c.dropped).owed = c.owed := rfl
@[simp] theorem Core.dropped_stowing (c : Core) : (c.dropped).stowing = c.stowing := rfl
@[simp] theorem Core.dropped_wdStart (c : Core) : (c.dropped).wdStart = c.wdStart := rfl
@[simp] theorem Core.dropped_lastPc (c : Core) : (c.dropped).lastPc = c.lastPc := rfl
@[simp] theorem Core.dropped_storeBuf (c : Core) : (c.dropped).storeBuf = c.storeBuf := rfl
@[simp] theorem Core.dropped_acq (c : Core) : (c.dropped).acq = c.acq := rfl
@[simp] theorem Core.dropped_floors (c : Core) : (c.dropped).floors = c.floors := rfl
@[simp] theorem Core.dropped_icFrom (c : Core) : (c.dropped).icFrom = c.icFrom := rfl
@[simp] theorem Core.dropped_uoDirty (c : Core) : (c.dropped).uoDirty = c.uoDirty := rfl
@[simp] theorem Core.dropped_uoSeen (c : Core) : (c.dropped).uoSeen = c.uoSeen := rfl
@[simp] theorem Core.dropped_seqSeen (c : Core) : (c.dropped).seqSeen = c.seqSeen := rfl
@[simp] theorem Core.dropped_inbox (c : Core) : (c.dropped).inbox = c.inbox := rfl
@[simp] theorem Core.dropped_rxPorts (c : Core) : (c.dropped).rxPorts = c.rxPorts := rfl
@[simp] theorem Core.dropped_txPorts (c : Core) : (c.dropped).txPorts = c.txPorts := rfl
@[simp] theorem Core.dropped_outbox (c : Core) : (c.dropped).outbox = c.outbox := rfl
@[simp] theorem Core.dropped_sentSince (c : Core) : (c.dropped).sentSince = c.sentSince := rfl
@[simp] theorem Core.dropped_deque (c : Core) : (c.dropped).deque = c.deque := rfl
@[simp] theorem Core.dropped_kseq (c : Core) : (c.dropped).kseq = c.kseq := rfl
@[simp] theorem Core.dropped_seqNo (c : Core) : (c.dropped).seqNo = c.seqNo := rfl
@[simp] theorem Core.dropped_elog (c : Core) : (c.dropped).elog = c.elog := rfl
@[simp] theorem Core.dropped_plb (c : Core) : (c.dropped).plb = c.plb := rfl
@[simp] theorem Core.dropped_plbFor (c : Core) : (c.dropped).plbFor = c.plbFor := rfl
@[simp] theorem Core.dropped_icache (c : Core) : (c.dropped).icache = c.icache := rfl
@[simp] theorem Core.dropped_ccmd (c : Core) : (c.dropped).ccmd = c.ccmd := rfl
@[simp] theorem Core.dropped_reqTag (c : Core) : (c.dropped).reqTag = c.reqTag := rfl

@[simp] theorem Core.jump_g (c : Core) (n : Word) : (c.jump n).g = c.g := by unfold Core.jump; simp only; split <;> rfl
@[simp] theorem Core.jump_v (c : Core) (n : Word) : (c.jump n).v = c.v := by unfold Core.jump; simp only; split <;> rfl
@[simp] theorem Core.jump_ilen (c : Core) (n : Word) : (c.jump n).ilen = c.ilen := by unfold Core.jump; simp only; split <;> rfl
@[simp] theorem Core.jump_lbeg (c : Core) (n : Word) : (c.jump n).lbeg = c.lbeg := by unfold Core.jump; simp only; split <;> rfl
@[simp] theorem Core.jump_h (c : Core) (n : Word) : (c.jump n).h = c.h := by unfold Core.jump; simp only; split <;> rfl
@[simp] theorem Core.jump_vt (c : Core) (n : Word) : (c.jump n).vt = c.vt := by unfold Core.jump; simp only; split <;> rfl
@[simp] theorem Core.jump_ctx (c : Core) (n : Word) : (c.jump n).ctx = c.ctx := by unfold Core.jump; simp only; split <;> rfl
@[simp] theorem Core.jump_task (c : Core) (n : Word) : (c.jump n).task = c.task := by unfold Core.jump; simp only; split <;> rfl
@[simp] theorem Core.jump_status (c : Core) (n : Word) : (c.jump n).status = c.status := by unfold Core.jump; simp only; split <;> rfl
@[simp] theorem Core.jump_owed (c : Core) (n : Word) : (c.jump n).owed = c.owed := by unfold Core.jump; simp only; split <;> rfl
@[simp] theorem Core.jump_wait (c : Core) (n : Word) : (c.jump n).wait = c.wait := by unfold Core.jump; simp only; split <;> rfl
@[simp] theorem Core.jump_stowing (c : Core) (n : Word) : (c.jump n).stowing = c.stowing := by unfold Core.jump; simp only; split <;> rfl
@[simp] theorem Core.jump_pop (c : Core) (n : Word) : (c.jump n).pop = c.pop := by unfold Core.jump; simp only; split <;> rfl
@[simp] theorem Core.jump_wdStart (c : Core) (n : Word) : (c.jump n).wdStart = c.wdStart := by unfold Core.jump; simp only; split <;> rfl
@[simp] theorem Core.jump_lastPc (c : Core) (n : Word) : (c.jump n).lastPc = c.lastPc := by unfold Core.jump; simp only; split <;> rfl
@[simp] theorem Core.jump_storeBuf (c : Core) (n : Word) : (c.jump n).storeBuf = c.storeBuf := by unfold Core.jump; simp only; split <;> rfl
@[simp] theorem Core.jump_acq (c : Core) (n : Word) : (c.jump n).acq = c.acq := by unfold Core.jump; simp only; split <;> rfl
@[simp] theorem Core.jump_floors (c : Core) (n : Word) : (c.jump n).floors = c.floors := by unfold Core.jump; simp only; split <;> rfl
@[simp] theorem Core.jump_icFrom (c : Core) (n : Word) : (c.jump n).icFrom = c.icFrom := by unfold Core.jump; simp only; split <;> rfl
@[simp] theorem Core.jump_uoDirty (c : Core) (n : Word) : (c.jump n).uoDirty = c.uoDirty := by unfold Core.jump; simp only; split <;> rfl
@[simp] theorem Core.jump_uoSeen (c : Core) (n : Word) : (c.jump n).uoSeen = c.uoSeen := by unfold Core.jump; simp only; split <;> rfl
@[simp] theorem Core.jump_seqSeen (c : Core) (n : Word) : (c.jump n).seqSeen = c.seqSeen := by unfold Core.jump; simp only; split <;> rfl
@[simp] theorem Core.jump_redirect (c : Core) (n : Word) : (c.jump n).redirect = c.redirect := by unfold Core.jump; simp only; split <;> rfl
@[simp] theorem Core.jump_fetchWait (c : Core) (n : Word) : (c.jump n).fetchWait = c.fetchWait := by unfold Core.jump; simp only; split <;> rfl
@[simp] theorem Core.jump_sample (c : Core) (n : Word) : (c.jump n).sample = c.sample := by unfold Core.jump; simp only; split <;> rfl
@[simp] theorem Core.jump_early (c : Core) (n : Word) : (c.jump n).early = c.early := by unfold Core.jump; simp only; split <;> rfl
@[simp] theorem Core.jump_inbox (c : Core) (n : Word) : (c.jump n).inbox = c.inbox := by unfold Core.jump; simp only; split <;> rfl
@[simp] theorem Core.jump_rxPorts (c : Core) (n : Word) : (c.jump n).rxPorts = c.rxPorts := by unfold Core.jump; simp only; split <;> rfl
@[simp] theorem Core.jump_txPorts (c : Core) (n : Word) : (c.jump n).txPorts = c.txPorts := by unfold Core.jump; simp only; split <;> rfl
@[simp] theorem Core.jump_outbox (c : Core) (n : Word) : (c.jump n).outbox = c.outbox := by unfold Core.jump; simp only; split <;> rfl
@[simp] theorem Core.jump_sentSince (c : Core) (n : Word) : (c.jump n).sentSince = c.sentSince := by unfold Core.jump; simp only; split <;> rfl
@[simp] theorem Core.jump_deque (c : Core) (n : Word) : (c.jump n).deque = c.deque := by unfold Core.jump; simp only; split <;> rfl
@[simp] theorem Core.jump_kseq (c : Core) (n : Word) : (c.jump n).kseq = c.kseq := by unfold Core.jump; simp only; split <;> rfl
@[simp] theorem Core.jump_seqNo (c : Core) (n : Word) : (c.jump n).seqNo = c.seqNo := by unfold Core.jump; simp only; split <;> rfl
@[simp] theorem Core.jump_elog (c : Core) (n : Word) : (c.jump n).elog = c.elog := by unfold Core.jump; simp only; split <;> rfl
@[simp] theorem Core.jump_mgn (c : Core) (n : Word) : (c.jump n).mgn = c.mgn := by unfold Core.jump; simp only; split <;> rfl
@[simp] theorem Core.jump_plb (c : Core) (n : Word) : (c.jump n).plb = c.plb := by unfold Core.jump; simp only; split <;> rfl
@[simp] theorem Core.jump_plbFor (c : Core) (n : Word) : (c.jump n).plbFor = c.plbFor := by unfold Core.jump; simp only; split <;> rfl
@[simp] theorem Core.jump_icache (c : Core) (n : Word) : (c.jump n).icache = c.icache := by unfold Core.jump; simp only; split <;> rfl
@[simp] theorem Core.jump_ccmd (c : Core) (n : Word) : (c.jump n).ccmd = c.ccmd := by unfold Core.jump; simp only; split <;> rfl
@[simp] theorem Core.jump_reqTag (c : Core) (n : Word) : (c.jump n).reqTag = c.reqTag := by unfold Core.jump; simp only; split <;> rfl

/-- A general register after a write: g0 reads 0, and a write to it is discarded (R45). -/
theorem Core.wg_rg (c : Core) (r q : GReg) (v : Word) :
    (c.wg r v).rg q = if q = r ∧ r ≠ 0 then v else c.rg q := by
  unfold Core.wg Core.rg
  by_cases hr : r = 0
  · simp only [hr]; split <;> simp_all
  · by_cases hq : q = r
    · subst hq; simp only [if_neg hr]; simp; exact fun h => absurd h hr
    · have hn : ¬ r.toNat = q.toNat := fun h => hq (BitVec.eq_of_toNat_eq h.symm)
      simp only [if_neg hr, hq, false_and, if_false, Vector.getElem_set_ne _ _ hn]

@[simp] theorem Core.rg_zero (c : Core) : c.rg 0 = 0 := rfl

theorem Core.wv_rv (c : Core) (r q : VReg) (x : VVal) : (c.wv r x).rv q = if q = r then x else c.rv q := by
  by_cases hq : q = r
  · subst hq; simp [Core.wv, Core.rv]
  · have hn : ¬ r.toNat = q.toNat := fun h => hq (BitVec.eq_of_toNat_eq h.symm)
    simp [Core.wv, Core.rv, hq, Vector.getElem_set_ne _ _ hn]

theorem Core.wh_rh (c : Core) (r q : HReg) (x : Handle) : (c.wh r x).rh q = if q = r then x else c.rh q := by
  by_cases hq : q = r
  · subst hq; simp [Core.wh, Core.rh]
  · have hn : ¬ r.toNat = q.toNat := fun h => hq (BitVec.eq_of_toNat_eq h.symm)
    simp [Core.wh, Core.rh, hq, Vector.getElem_set_ne _ _ hn]

theorem Tile.ws_rs (t : Tile) (r q : SReg) (x : BitVec 16) : (t.ws r x).rs q = if q = r then x else t.rs q := by
  by_cases hq : q = r
  · subst hq; simp [Tile.ws, Tile.rs]
  · have hn : ¬ r.toNat = q.toNat := fun h => hq (BitVec.eq_of_toNat_eq h.symm)
    simp [Tile.ws, Tile.rs, hq, Vector.getElem_set_ne _ _ hn]

@[simp] theorem Tile.ws_acc (t : Tile) (r : SReg) (x : BitVec 16) : (t.ws r x).acc = t.acc := rfl
@[simp] theorem Tile.ws_sel (t : Tile) (r : SReg) (x : BitVec 16) : (t.ws r x).sel = t.sel := rfl
@[simp] theorem Tile.ws_slots (t : Tile) (r : SReg) (x : BitVec 16) : (t.ws r x).slots = t.slots := rfl
@[simp] theorem Tile.ws_blocks (t : Tile) (r : SReg) (x : BitVec 16) : (t.ws r x).blocks = t.blocks := rfl
@[simp] theorem Tile.ws_monb (t : Tile) (r : SReg) (x : BitVec 16) : (t.ws r x).monb = t.monb := rfl
@[simp] theorem Tile.ws_monc (t : Tile) (r : SReg) (x : BitVec 16) : (t.ws r x).monc = t.monc := rfl
@[simp] theorem Tile.ws_mrepl (t : Tile) (r : SReg) (x : BitVec 16) : (t.ws r x).mrepl = t.mrepl := rfl
@[simp] theorem Tile.ws_mrepl0 (t : Tile) (r : SReg) (x : BitVec 16) : (t.ws r x).mrepl0 = t.mrepl0 := rfl
@[simp] theorem Tile.ws_cncd (t : Tile) (r : SReg) (x : BitVec 16) : (t.ws r x).cncd = t.cncd := rfl
@[simp] theorem Tile.ws_dhead (t : Tile) (r : SReg) (x : BitVec 16) : (t.ws r x).dhead = t.dhead := rfl
@[simp] theorem Tile.ws_dclaim (t : Tile) (r : SReg) (x : BitVec 16) : (t.ws r x).dclaim = t.dclaim := rfl
@[simp] theorem Tile.ws_dtail (t : Tile) (r : SReg) (x : BitVec 16) : (t.ws r x).dtail = t.dtail := rfl
@[simp] theorem Tile.ws_drain (t : Tile) (r : SReg) (x : BitVec 16) : (t.ws r x).drain = t.drain := rfl
@[simp] theorem Tile.ws_queue (t : Tile) (r : SReg) (x : BitVec 16) : (t.ws r x).queue = t.queue := rfl
@[simp] theorem Tile.ws_follow (t : Tile) (r : SReg) (x : BitVec 16) : (t.ws r x).follow = t.follow := rfl
@[simp] theorem Tile.ws_jobs (t : Tile) (r : SReg) (x : BitVec 16) : (t.ws r x).jobs = t.jobs := rfl
@[simp] theorem Tile.ws_semq (t : Tile) (r : SReg) (x : BitVec 16) : (t.ws r x).semq = t.semq := rfl
@[simp] theorem Tile.ws_gang (t : Tile) (r : SReg) (x : BitVec 16) : (t.ws r x).gang = t.gang := rfl
@[simp] theorem Tile.ws_saveFrom (t : Tile) (r : SReg) (x : BitVec 16) : (t.ws r x).saveFrom = t.saveFrom := rfl
@[simp] theorem Tile.ws_rungs (t : Tile) (r : SReg) (x : BitVec 16) : (t.ws r x).rungs = t.rungs := rfl
@[simp] theorem Tile.ws_bad (t : Tile) (r : SReg) (x : BitVec 16) : (t.ws r x).bad = t.bad := rfl

@[simp] theorem Core.wv_rg (c : Core) (r : VReg) (x : VVal) (q : GReg) : (c.wv r x).rg q = c.rg q := rfl
@[simp] theorem Core.wh_rg (c : Core) (r : HReg) (x : Handle) (q : GReg) : (c.wh r x).rg q = c.rg q := rfl
@[simp] theorem Core.wg_rv (c : Core) (r : GReg) (v : Word) (q : VReg) : (c.wg r v).rv q = c.rv q := by simp [Core.rv]
@[simp] theorem Core.wh_rv (c : Core) (r : HReg) (x : Handle) (q : VReg) : (c.wh r x).rv q = c.rv q := rfl
@[simp] theorem Core.retireCounts_rg (c : Core) (n : Nat) (q : GReg) : (c.retireCounts n).rg q = c.rg q := rfl
@[simp] theorem Core.retireCounts_rv (c : Core) (n : Nat) (q : VReg) : (c.retireCounts n).rv q = c.rv q := rfl
@[simp] theorem Core.seqNext_rg (c : Core) (n : Word) (q : GReg) : (c.seqNext n).rg q = c.rg q := by simp [Core.rg]
@[simp] theorem Core.seqNext_rv (c : Core) (n : Word) (q : VReg) : (c.seqNext n).rv q = c.rv q := by simp [Core.rv]
@[simp] theorem Core.jump_rg (c : Core) (n : Word) (q : GReg) : (c.jump n).rg q = c.rg q := by simp [Core.rg]
@[simp] theorem Core.jump_rv (c : Core) (n : Word) (q : VReg) : (c.jump n).rv q = c.rv q := by simp [Core.rv]

end Sys2Proof.Machine
end

