-- ==== Sys2Proof/Laws/Ops.lean ====
section
/-! SUPPORT. What the shared operations do, said once: retirement, transfer, taking a trap, and the operations that may stop. -/

namespace Sys2Proof.Machine

/-! ## Operations that may stop -/

/-- A sequence of two operations, run: the second runs where the first has answered. -/
theorem M.bind_apply {α β : Type} (m : M α) (f : α → M β) (s : State) :
    (m >>= f) s = (match m s with | .ok p => f p.1 p.2 | .error e => .error e) := by
  show StateT.bind m f s = _
  unfold StateT.bind
  cases m s <;> rfl

theorem M.bind_ok {α β : Type} {m : M α} {f : α → M β} {s : State} {b : β} {t : State} :
    (m >>= f) s = .ok (b, t) ↔ ∃ a s', m s = .ok (a, s') ∧ f a s' = .ok (b, t) := by
  rw [M.bind_apply]
  cases m s with
  | error e => simp
  | ok p => obtain ⟨a, s'⟩ := p; simp

/-- An operation that runs after one that answers. -/
theorem M.bind_of_ok {α β : Type} {m : M α} {f : α → M β} {s s' : State} {a : α} (h : m s = .ok (a, s')) :
    (m >>= f) s = f a s' := by rw [M.bind_apply, h]

/-- An operation that runs after one that stops does not run. -/
theorem M.bind_of_error {α β : Type} {m : M α} {f : α → M β} {s : State} {e : Stop} (h : m s = .error e) :
    (m >>= f) s = .error e := by rw [M.bind_apply, h]

@[simp] theorem M.pure_apply {α : Type} (a : α) (s : State) : (pure a : M α) s = .ok (a, s) := rfl
@[simp] theorem M.get_apply (s : State) : (get : M State) s = .ok (s, s) := rfl
@[simp] theorem M.set_apply (s t : State) : (set t : M PUnit) s = .ok (⟨⟩, t) := rfl
@[simp] theorem M.modify_apply (f : State → State) (s : State) : (modify f : M PUnit) s = .ok (⟨⟩, f s) := rfl
@[simp] theorem trapM_apply {α : Type} (t : Trap) (s : State) : (trapM t : M α) s = .error (.trap t) := rfl
@[simp] theorem waitM_apply {α : Type} (w : Wait) (s : State) : (waitM w : M α) s = .error (.wait w) := rfl
@[simp] theorem needM_apply (b : Bool) (t : Trap) (s : State) :
    needM b t s = if b then .ok ((), s) else .error (.trap t) := by cases b <;> rfl

/-- An operation keeps a property of the state: whenever it answers, the property holds after it if it held before. -/
def Keeps {α : Type} (P : State → Prop) (m : M α) : Prop := ∀ s a t, P s → m s = .ok (a, t) → P t

theorem Keeps.pure {α : Type} {P : State → Prop} (a : α) : Keeps P (pure a : M α) := by
  intro s b t h e
  simp only [M.pure_apply, Except.ok.injEq, Prod.mk.injEq] at e
  exact e.2 ▸ h

theorem Keeps.bind {α β : Type} {P : State → Prop} {m : M α} {f : α → M β} (hm : Keeps P m) (hf : ∀ a, Keeps P (f a)) :
    Keeps P (m >>= f) := by
  intro s b t h e
  obtain ⟨a, s', h1, h2⟩ := M.bind_ok.1 e
  exact hf a s' b t (hm s a s' h h1) h2

theorem Keeps.get {P : State → Prop} : Keeps P (MonadState.get : M State) := by
  intro s a t h e
  simp only [MonadState.get, getThe, MonadStateOf.get, StateT.get, Pure.pure, Except.pure, Except.ok.injEq, Prod.mk.injEq] at e
  exact e.2 ▸ h

theorem Keeps.modify {P : State → Prop} {f : State → State} (hf : ∀ s, P s → P (f s)) : Keeps P (modify f : M PUnit) := by
  intro s a t h e
  simp only [M.modify_apply, Except.ok.injEq, Prod.mk.injEq] at e
  exact e.2 ▸ hf s h

theorem Keeps.trap {α : Type} {P : State → Prop} (t : Trap) : Keeps P (trapM t : M α) := by intro s a t h e; cases e
theorem Keeps.wait {α : Type} {P : State → Prop} (w : Wait) : Keeps P (waitM w : M α) := by intro s a t h e; cases e

theorem Keeps.need {P : State → Prop} (b : Bool) (t : Trap) : Keeps P (needM b t) := by
  cases b
  · exact Keeps.trap t
  · exact Keeps.pure ()

/-! ## What an instruction's operation leaves -/

theorem runM_next {m : M Flow} {s s' : State} (h : m s = .ok (.next, s')) : runM m s = .next (retireCore s' s.cur) := by
  simp [runM, finish, h]
theorem runM_goto {m : M Flow} {s s' : State} {a : Word} (h : m s = .ok (.goto a, s')) :
    runM m s = .next (transferCore s' s.cur a) := by simp [runM, finish, h]
theorem runM_stay {m : M Flow} {s s' : State} (h : m s = .ok (.stay, s')) : runM m s = .next s' := by simp [runM, finish, h]
theorem runM_trap {m : M Flow} {s : State} {t : Trap} (h : m s = .error (.trap t)) : runM m s = .next (takeTrap s s.cur t) := by
  simp [runM, finish, h]
theorem runM_wait {m : M Flow} {s : State} {w : Wait} (h : m s = .error (.wait w)) : runM m s = .next (parkCore s s.cur w) := by
  simp [runM, finish, h]

/-! ## Retirement and transfer -/

theorem retireCore_core_self (s : State) (u : Nat) :
    (retireCore s u).core u = ((s.core u).retireCounts s.now).seqNext (s.core u).nextPc := by simp [retireCore]

theorem retireCore_core_ne (s : State) {u v : Nat} (h : v ≠ u) : (retireCore s u).core v = s.core v := by
  simp [retireCore, State.setCore_core, h]

theorem transferCore_core_self (s : State) (u : Nat) (a : Word) :
    (transferCore s u a).core u = (((s.core u).retireCounts s.now).jump a).refetch s u := by simp [transferCore]

theorem transferCore_core_ne (s : State) {u v : Nat} (h : v ≠ u) (a : Word) : (transferCore s u a).core v = s.core v := by
  simp [transferCore, State.setCore_core, h]

theorem Core.loopIdle_iff (c : Core) : c.loopIdle = true ↔ c.lcnt = 0 ∧ bitAt c.lend 0 = false := by
  simp [Core.loopIdle]

theorem Core.seqNext_rule (c : Core) : Sequenced c (c.seqNext c.nextPc) := by
  have h2 : (c.lend - 2 = 1) ↔ c.lend = 3 := by
    constructor <;> intro h
    · have := congrArg (· + 2) h; simpa using this
    · rw [h]; rfl
  unfold Sequenced Core.seqNext
  simp only [← Core.loopIdle_iff, h2, Core.nextPc]
  cases c.loopIdle
  · simp only [Bool.false_eq_true, if_false, beq_iff_eq, Bool.and_eq_true, Bool.not_eq_true']
    generalize (if bitAt c.lend 0 = true then if c.lend = 3 then sext56 (c.pc + word c.ilen) else c.lend - 2 else c.lend) = l
    split
    · split <;> exact ⟨rfl, rfl, rfl, rfl⟩
    · exact ⟨rfl, rfl, rfl, rfl⟩
  · exact ⟨rfl, rfl, rfl, rfl⟩

/-- Retirement in sequence follows the rule of R78. -/
theorem Core.seqNext_sequenced (c : Core) (now : Nat) : Sequenced c ((c.retireCounts now).seqNext c.nextPc) :=
  (c.retireCounts now).seqNext_rule

/-- The rule of R78 reads of the core its PC, the length of its instruction and its loop registers alone. -/
theorem Sequenced.of_same {c d x : Core} (h : Sequenced c x) (h1 : d.pc = c.pc) (h2 : d.ilen = c.ilen) (h3 : d.lcnt = c.lcnt)
    (h4 : d.lend = c.lend) (h5 : d.lbeg = c.lbeg) : Sequenced d x := by
  unfold Sequenced at h ⊢
  rw [h1, h2, h3, h4, h5]
  exact h

/-- A taken transfer is as R80 and R83 say. -/
theorem Core.jump_transferred (c : Core) (s : State) (u : Nat) (a : Word) :
    Transferred s u c (((c.retireCounts s.now).jump a).refetch s u) a := by
  unfold Transferred RetiredFrom Core.jump Core.refetch
  simp only [← Core.loopIdle_iff]
  have hl : (c.retireCounts s.now).loopIdle = c.loopIdle := rfl
  simp only [hl]
  cases hi : c.loopIdle <;> simp [Core.retireCounts]

/-! ## Taking a trap -/

/-- Discarding a wait changes of the cores the trapping one alone, and of it what `Core.dropped` names; memory and the clusters stay. -/
theorem dropWait_spec (s : State) (u : Nat) :
    (dropWait s u).core u = (s.core u).dropped
    ∧ (∀ v, v ≠ u → (dropWait s u).core v = s.core v)
    ∧ (dropWait s u).mem = s.mem ∧ (dropWait s u).clusters = s.clusters ∧ (dropWait s u).lmap = s.lmap
    ∧ (dropWait s u).now = s.now ∧ (dropWait s u).cur = s.cur := by
  have key : (leaveWait s u).cores = s.cores ∧ (leaveWait s u).mem = s.mem ∧ (leaveWait s u).clusters = s.clusters
      ∧ (leaveWait s u).lmap = s.lmap ∧ (leaveWait s u).now = s.now ∧ (leaveWait s u).cur = s.cur := by
    unfold leaveWait
    split <;> exact ⟨rfl, rfl, rfl, rfl, rfl, rfl⟩
  obtain ⟨h1, h2, h3, h4, h5, h6⟩ := key
  have hc : ∀ v, (leaveWait s u).core v = s.core v := fun v => by simp only [State.core, h1]
  unfold dropWait
  refine ⟨?_, fun v hv => ?_, h2, h3, h4, h5, h6⟩
  · simp [hc]
  · simp [State.setCore_core, hv, hc]

theorem dropWait_taskOf (s : State) (u : Nat) : (dropWait s u).taskOf u = s.taskOf u := by
  obtain ⟨hc, _, _, hl, _⟩ := dropWait_spec s u
  simp only [State.taskOf, hc, State.cluster, hl, Core.dropped]

theorem dropWait_unitId (s : State) (u v : Nat) : (dropWait s u).unitId v = s.unitId v := by
  obtain ⟨_, _, _, _, hl, _⟩ := dropWait_spec s u
  simp only [State.unitId, State.logicalNo, State.logical, hl]

theorem dropWait_core_field {α : Type} (f : Core → α) (s : State) (u : Nat)
    (h : f (s.core u).dropped = f (s.core u)) :
    f ((dropWait s u).core u) = f (s.core u) := by rw [(dropWait_spec s u).1, h]

/-- The one way into a trap other than a page fault that ships: the record is formed and written or held back. -/
theorem takeTrap_eq (s : State) (u : Nat) (t : Trap) (h : t.cause ≠ .pageFault) :
    takeTrap s u t = writeReserved (dropWait s u) u (trapRecord (dropWait s u) u t) := by
  simp [takeTrap, h]

/-- What writing a record to the reserved slot does (R346). -/
theorem writeReserved_spec (s : State) (u : Nat) (r : TrapRecord) :
    (if mfind (s.cluster (clusterOf u)).mailbox (inCluster u) = none then
       mfind ((writeReserved s u r).cluster (clusterOf u)).mailbox (inCluster u) = some r
         ∧ (writeReserved s u r).core u = { s.core u with status := .trapped r }
     else (writeReserved s u r).clusters = s.clusters ∧ (writeReserved s u r).core u = { s.core u with status := .stall r })
    ∧ (∀ v, v ≠ u → (writeReserved s u r).core v = s.core v) ∧ (writeReserved s u r).mem = s.mem := by
  unfold writeReserved
  cases hm : mfind (s.cluster (clusterOf u)).mailbox (inCluster u) with
  | none =>
    refine ⟨?_, fun v hv => ?_, ?_⟩ <;> simp [hm]
    simp [State.setCore_core, hv]
  | some x =>
    refine ⟨?_, fun v hv => ?_, ?_⟩ <;> simp [hm]
    simp [State.setCore_core, hv]

theorem trapRecord_precise (s : State) (u : Nat) (t : Trap) (hp : t.pc = none) (hr : t.rpc = .same) :
    PreciseRecord s u (trapRecord (dropWait s u) u t) t.cause t.faddr := by
  obtain ⟨hc, _, _, _, _, hn, _⟩ := dropWait_spec s u
  refine ⟨rfl, rfl, ?_, ?_, dropWait_unitId s u u, rfl, rfl, ?_, ?_⟩
  · simp [trapRecord, hp, hc, Core.dropped]
  · simp [trapRecord, hr, hc, Core.dropped]
  · simp [trapRecord, hc, Core.dropped]
  · simp [trapRecord, hn]

/-- An instruction whose outcome is a trap that names no PC of its own and resumes at itself traps as R345 and R346 say. -/
theorem trapsWith_of {i : Instr} {s : State} {t : Trap} (h : exec i s = .next (takeTrap s s.cur t)) (hp : t.pc = none)
    (hr : t.rpc = .same) (hc : t.cause ≠ .pageFault) : TrapsWith i s t.cause t.faddr := by
  obtain ⟨h1, h2, h3, h4, _⟩ := dropWait_spec s s.cur
  have hcl : (dropWait s s.cur).cluster (clusterOf s.cur) = s.cluster (clusterOf s.cur) := by simp only [State.cluster, h4]
  refine ⟨_, _, h, trapRecord_precise s s.cur t hp hr, ?_⟩
  rw [takeTrap_eq s s.cur t hc]
  obtain ⟨w1, w2, w3⟩ := writeReserved_spec (dropWait s s.cur) s.cur (trapRecord (dropWait s s.cur) s.cur t)
  rw [hcl] at w1
  have hv : ∀ v, v ≠ s.cur → (writeReserved (dropWait s s.cur) s.cur (trapRecord (dropWait s s.cur) s.cur t)).core v = s.core v :=
    fun v hv => (w2 v hv).trans (h2 v hv)
  refine ⟨?_, w3.trans h3, hv, ?_⟩
  · simp only
    split at w1
    · rename_i hn; rw [if_pos hn]; exact ⟨w1.1, by rw [w1.2]⟩
    · rename_i hn; rw [if_neg hn]; refine ⟨?_, by rw [w1.2]⟩; simp only [State.cluster, w1.1, h4]
  · split at w1 <;> rw [w1.2, h1] <;> exact ⟨rfl, rfl, rfl, rfl, rfl, rfl, rfl⟩

/-! ## Register instructions -/

/-- A state in which the operation of an instruction has left the registers, the PC, the loop and the counts of the core whose turn it is. -/
def SameCore (s s' : State) : Prop :=
  s'.cur = s.cur ∧ s'.now = s.now ∧ (s'.core s.cur).g = (s.core s.cur).g ∧ (s'.core s.cur).v = (s.core s.cur).v
    ∧ (s'.core s.cur).pc = (s.core s.cur).pc ∧ (s'.core s.cur).ilen = (s.core s.cur).ilen ∧ (s'.core s.cur).lcnt = (s.core s.cur).lcnt
    ∧ (s'.core s.cur).lend = (s.core s.cur).lend ∧ (s'.core s.cur).lbeg = (s.core s.cur).lbeg

theorem SameCore.refl (s : State) : SameCore s s := ⟨rfl, rfl, rfl, rfl, rfl, rfl, rfl, rfl, rfl⟩

/-- An instruction whose outcome is a register write and retirement after its operation does as CompletesG says. -/
theorem completesG_of {i : Instr} {s s' : State} {d : GReg} {w : Word} (h : exec i s = .next (retire (s'.wg d w)))
    (hs : SameCore s s') : CompletesG i s s' d w := by
  obtain ⟨e1, e2, e3, e4, e5, e6, e7, e8, e9⟩ := hs
  have hw : (s'.wg d w).core s.cur = (s'.core s.cur).wg d w := by simp [State.wg, e1]
  have hc : (retire (s'.wg d w)).core s.cur = (((s'.core s.cur).wg d w).retireCounts s.now).seqNext (s'.core s.cur).nextPc := by
    have := retireCore_core_self (s'.wg d w) s.cur
    rw [hw] at this
    simpa [retire, State.wg, Core.nextPc, e1, e2] using this
  refine ⟨_, h, ⟨rfl, fun v hv => ?_⟩, ?_, ?_, fun r => ?_, ?_⟩
  · show (retireCore (s'.wg d w) (s'.wg d w).cur).core v = _
    have : (s'.wg d w).cur = s.cur := e1
    rw [this, retireCore_core_ne _ hv]; simp [State.wg, State.setCore_core, hv, e1]
  · rw [hc]
    obtain ⟨_, _, _, _, e⟩ := (((s'.core s.cur).wg d w).retireCounts s.now).seqNext_shape (s'.core s.cur).nextPc
    rw [e]; unfold RetiredFrom Core.wg Core.retireCounts; split <;> rfl
  · have := ((s'.core s.cur).wg d w).seqNext_sequenced s.now
    rw [hc]
    refine Sequenced.of_same (c := (s'.core s.cur).wg d w) ?_ (by simp [e5]) (by simp [e6]) (by simp [e7]) (by simp [e8]) (by simp [e9])
    simpa [Core.nextPc] using this
  · rw [hc]
    have := (s'.core s.cur).wg_rg d r w
    simp only [Core.seqNext_rg, Core.retireCounts_rg, this]
    simp only [State.rg, Core.rg, e3]
  · rw [hc]; simp [e4]

/-- The same for a vector register. -/
theorem completesV_of {i : Instr} {s s' : State} {d : VReg} {x : VVal} (h : exec i s = .next (retire (s'.wv d x)))
    (hs : SameCore s s') : CompletesV i s s' d x := by
  obtain ⟨e1, e2, e3, e4, e5, e6, e7, e8, e9⟩ := hs
  have hw : (s'.wv d x).core s.cur = (s'.core s.cur).wv d x := by simp [State.wv, e1]
  have hc : (retire (s'.wv d x)).core s.cur = (((s'.core s.cur).wv d x).retireCounts s.now).seqNext (s'.core s.cur).nextPc := by
    have := retireCore_core_self (s'.wv d x) s.cur
    rw [hw] at this
    simpa [retire, State.wv, Core.nextPc, e1, e2] using this
  refine ⟨_, h, ⟨rfl, fun v hv => ?_⟩, ?_, ?_, fun r => ?_, ?_⟩
  · show (retireCore (s'.wv d x) (s'.wv d x).cur).core v = _
    have : (s'.wv d x).cur = s.cur := e1
    rw [this, retireCore_core_ne _ hv]; simp [State.wv, State.setCore_core, hv, e1]
  · rw [hc]
    obtain ⟨_, _, _, _, e⟩ := (((s'.core s.cur).wv d x).retireCounts s.now).seqNext_shape (s'.core s.cur).nextPc
    rw [e]; rfl
  · have := ((s'.core s.cur).wv d x).seqNext_sequenced s.now
    rw [hc]
    refine Sequenced.of_same (c := (s'.core s.cur).wv d x) ?_ (by simp [e5]) (by simp [e6]) (by simp [e7]) (by simp [e8]) (by simp [e9])
    simpa [Core.nextPc] using this
  · rw [hc]
    have := (s'.core s.cur).wv_rv d r x
    simp only [Core.seqNext_rv, Core.retireCounts_rv, this]
    simp only [State.rv, Core.rv, e4]
  · rw [hc]; simp [e3]

theorem writesG_of {i : Instr} {s : State} {d : GReg} {w : Word} (h : exec i s = .next (retire (s.wg d w))) : WritesG i s d w :=
  completesG_of h (SameCore.refl s)
theorem writesV_of {i : Instr} {s : State} {d : VReg} {x : VVal} (h : exec i s = .next (retire (s.wv d x))) : WritesV i s d x :=
  completesV_of h (SameCore.refl s)

/-- An instruction whose outcome is a link and a transfer does as TransfersTo says. -/
theorem transfersTo_of {i : Instr} {s : State} {d : GReg} {link a : Word} (h : exec i s = .next (transfer (s.wg d link) a)) :
    TransfersTo i s a d link := by
  have hs : (s.wg d link).core s.cur = (s.core s.cur).wg d link := by simp [State.wg]
  have hc : (transfer (s.wg d link) a).core s.cur = ((((s.core s.cur).wg d link).retireCounts s.now).jump a).refetch (s.wg d link) s.cur := by
    have := transferCore_core_self (s.wg d link) s.cur a
    rw [hs] at this
    simpa [transfer, State.wg] using this
  have hf : ∀ c : Core, c.refetch (s.wg d link) s.cur = c.refetch s s.cur := fun c => by
    unfold Core.refetch State.staleHalf
    have : ((s.core s.cur).wg d link).uoDirty = (s.core s.cur).uoDirty := by simp
    simp only [hs, this]
    rfl
  refine ⟨_, h, ⟨rfl, fun v hv => ?_⟩, ?_, fun r => ?_, ?_⟩
  · show (transferCore (s.wg d link) s.cur a).core v = _
    rw [transferCore_core_ne _ hv]; simp [State.wg, State.setCore_core, hv]
  · have hj := ((s.core s.cur).wg d link).jump_transferred s s.cur a
    rw [hc, hf]
    refine ⟨hj.1, by simpa using hj.2.1, by simpa using hj.2.2.1, ?_⟩
    have h4 := hj.2.2.2
    unfold RetiredFrom at h4 ⊢
    rw [h4]
    unfold Core.wg Core.refetch; split <;> rfl
  · rw [hc, hf]; simpa [State.rg, Core.refetch, Core.rg] using (s.core s.cur).wg_rg d r link
  · rw [hc, hf]; simp [Core.refetch]

/-- A write of the same key twice is the second write. -/
theorem mset_mset {α : Type} (m : AMap α) (k : Nat) (v w : α) : mset (mset m k v) k w = mset m k w := by
  induction m with
  | nil => simp [mset]
  | cons p t ih => obtain ⟨k', v'⟩ := p; simp only [mset]; split_ifs <;> simp_all [mset]

/-- A write of g0 changes nothing (R45). -/
theorem retire_wg_zero (s : State) (w : Word) : retire (s.wg 0 w) = retire s := by
  have h0 : (s.core s.cur).wg 0 w = s.core s.cur := rfl
  simp only [retire, retireCore, State.wg, h0, State.modCore_eq, State.setCore_cur, State.setCore_core_self, State.setCore_now]
  simp only [State.setCore, mset_mset]

/-- An instruction that retires after its operation and writes no register. -/
theorem completes_of {i : Instr} {s s' : State} (h : exec i s = .next (retire s')) (hs : SameCore s s') : Completes i s s' :=
  completesG_of (by rw [retire_wg_zero]; exact h) hs

end Sys2Proof.Machine
end

