-- ==== Sys2Proof/Laws/Access.lean ====
section
/-! SUPPORT. What loads, stores, fetches and their checks do beside memory: each operation is `Accessed`, so no register file, PC, matrix unit or
task changes under it. -/

namespace Sys2Proof

open Sys2Proof.Machine

theorem CoreAside.refl (c : Core) : CoreAside c c := rfl
theorem CoreAside.trans {a b c : Core} (h : CoreAside a b) (h' : CoreAside b c) : CoreAside a c := by
  unfold CoreAside at h h' ⊢; rw [h', h]
theorem ClusterAside.refl (k : Cluster) : ClusterAside k k := rfl
theorem ClusterAside.trans {a b c : Cluster} (h : ClusterAside a b) (h' : ClusterAside b c) : ClusterAside a c := by
  unfold ClusterAside at h h' ⊢; rw [h', h]

/-- A state that has the cores, clusters and memory of another. -/
theorem Accessed.beside {s t : State}
    (h : t = { s with past := t.past, tcache := t.tcache, dies := t.dies, queues := t.queues, net := t.net, links := t.links, seqOrder := t.seqOrder,
                      seqNext := t.seqNext, defers := t.defers, reqs := t.reqs, freeCtr := t.freeCtr }) : Accessed s t := by
  rw [h]
  exact ⟨rfl, fun _ => rfl, fun _ => rfl, fun h => h⟩

theorem Accessed.refl (s : State) : Accessed s s := ⟨rfl, fun _ => rfl, fun _ => rfl, fun h => h⟩
theorem Accessed.trans {a b c : State} (h : Accessed a b) (h' : Accessed b c) : Accessed a c := by
  obtain ⟨h0, h1, h3, h4⟩ := h
  obtain ⟨k0, k1, k3, k4⟩ := h'
  refine ⟨?_, fun u => (h1 u).trans (k1 u), fun P => (h3 P).trans (k3 P), fun hm => k4 (h4 hm)⟩
  rw [k0, h0]

theorem Accessed.cur {s t : State} (h : Accessed s t) : t.cur = s.cur := by rw [h.1]
theorem Accessed.now {s t : State} (h : Accessed s t) : t.now = s.now := by rw [h.1]
theorem Accessed.g {s t : State} (h : Accessed s t) (u : Nat) : (t.core u).g = (s.core u).g := by rw [h.2.1 u]
theorem Accessed.v {s t : State} (h : Accessed s t) (u : Nat) : (t.core u).v = (s.core u).v := by rw [h.2.1 u]
theorem Accessed.pc {s t : State} (h : Accessed s t) (u : Nat) : (t.core u).pc = (s.core u).pc := by rw [h.2.1 u]
theorem Accessed.rg {s t : State} (h : Accessed s t) (u : Nat) (r : GReg) : (t.core u).rg r = (s.core u).rg r := by
  unfold Core.rg; rw [h.g u]
theorem Accessed.rv {s t : State} (h : Accessed s t) (u : Nat) (r : VReg) : (t.core u).rv r = (s.core u).rv r := by
  unfold Core.rv; rw [h.v u]

theorem Accessed.sameCore {s t : State} (h : Accessed s t) : SameCore s t := by
  have hc := h.2.1 s.cur
  refine ⟨h.cur, h.now, h.g _, h.v _, h.pc _, ?_, ?_, ?_, ?_⟩ <;> rw [hc]

/-- An update of one core beside its registers. -/
theorem Accessed.setCore {s : State} {u : Nat} {c : Core} (h : CoreAside (s.core u) c) : Accessed s (s.setCore u c) := by
  refine ⟨rfl, fun v => ?_, fun _ => rfl, fun h => h⟩
  rw [State.setCore_core]
  split
  · rename_i hv; subst hv; exact h
  · exact rfl

/-- An update of one cluster beside its state. -/
theorem Accessed.setCluster {s : State} {P : Nat} {k : Cluster} (h : ClusterAside (s.cluster P) k) : Accessed s (s.setCluster P k) := by
  refine ⟨rfl, fun _ => rfl, fun Q => ?_, fun h => h⟩
  rw [State.setCluster_cluster]
  split
  · rename_i hv; subst hv; exact h
  · exact rfl

theorem Accessed.modCore {s : State} {u : Nat} {f : Core → Core} (h : ∀ c, CoreAside c (f c)) : Accessed s (s.modCore u f) :=
  Accessed.setCore (h _)
theorem Accessed.modCluster {s : State} {P : Nat} {f : Cluster → Cluster} (h : ∀ k, ClusterAside k (f k)) :
    Accessed s (s.modCluster P f) := Accessed.setCluster (h _)

/-- What every step of a fold is, the fold is. -/
theorem Accessed.foldl {β : Type} {f : State → β → State} (hf : ∀ s b, Accessed s (f s b)) :
    ∀ (l : List β) (s : State), Accessed s (l.foldl f s)
  | [], s => Accessed.refl s
  | b :: t, s => (hf s b).trans (Accessed.foldl hf t (f s b))

/-- A list rewritten value by value, read at a key. -/
theorem mget_map {α : Type} {R : α → α → Prop} (d : α) (hd : R d d) (g : Nat × α → Nat × α) (hg : ∀ p, (g p).1 = p.1)
    (hR : ∀ p, R p.2 (g p).2) (k : Nat) : ∀ m : AMap α, R (mget m k d) (mget (m.map g) k d)
  | [] => hd
  | (j, v) :: t => by
    have h1 := hg (j, v)
    have h2 := hR (j, v)
    have ih := mget_map d hd g hg hR k t
    rw [List.map_cons]
    generalize hq : g (j, v) = q at h1 h2
    obtain ⟨a, b⟩ := q
    simp only at h1 h2
    subst h1
    simp only [mget]
    split
    · exact h2
    · exact ih

/-- An update of every core beside its registers. -/
theorem Accessed.mapCores {s : State} {f : Nat → Core → Core} (h : ∀ u c, CoreAside c (f u c)) : Accessed s (s.mapCores f) :=
  ⟨rfl, fun u => mget_map (R := CoreAside) Core.reset rfl (fun p => (p.1, f p.1 p.2)) (fun _ => rfl) (fun p => h p.1 p.2) u s.cores, fun _ => rfl, fun h => h⟩

theorem tickFree_accessed (s : State) : Accessed s s.tickFree := Accessed.beside (by rfl)

theorem answerFutures_accessed (s : State) (ws : List (Nat × Byte)) : Accessed s (answerFutures s ws) := by
  unfold answerFutures
  refine Accessed.trans (b := { s with defers := _ }) (Accessed.beside (by rfl)) (Accessed.foldl (fun t d => ?_) _ _)
  cases d.core with
  | none => exact Accessed.refl t
  | some u => exact Accessed.setCore rfl

theorem performFor_accessed (c : Option Nat) (s : State) (ws : List (Nat × Byte)) : Accessed s (performFor c s ws) :=
  Accessed.trans (b := { s with mem := s.mem.pokes ws, past := _ })
    ⟨rfl, fun _ => rfl, fun _ => rfl, fun h => Memory.wf_pokes ws _ h⟩ (answerFutures_accessed _ _)

theorem performWrites_accessed (s : State) (ws : List (Nat × Byte)) : Accessed s (performWrites s ws) := performFor_accessed none s ws

theorem raiseFloor_accessed (s : State) (u a n k : Nat) : Accessed s (s.raiseFloor u a n k) := by
  unfold State.raiseFloor
  split
  · exact Accessed.refl s
  · exact Accessed.setCore rfl

theorem acquire_accessed (s : State) (u : Nat) : Accessed s (acquire s u) := by
  unfold acquire
  split
  · exact Accessed.refl s
  · exact Accessed.setCore rfl

theorem performBy_accessed (s : State) (u : Nat) (ws : List (Nat × Byte)) : Accessed s (performBy s u ws) :=
  (performFor_accessed _ s ws).trans (Accessed.foldl (fun t _ => raiseFloor_accessed t ..) _ _)

/-! ## The sequencer -/

theorem applyNext_accessed (s : State) (d : Nat) : Accessed s (applyNext s d) := by
  unfold applyNext
  cases s.seqOrder.find? (fun x => !x.applied.contains d) with
  | none => exact Accessed.refl s
  | some x =>
    have h1 : Accessed s (applyReplica s d x.core x.writes) := performFor_accessed _ _ _
    simp only
    generalize applyReplica s d x.core x.writes = r at h1
    refine h1.trans ?_
    split
    · exact Accessed.trans (b := { r with seqOrder := _ }) (Accessed.beside (by rfl)) (Accessed.setCore rfl)
    · exact Accessed.beside (by rfl)

theorem applyBelow_accessed (s : State) (d k : Nat) : Accessed s (applyBelow s d k) := Accessed.foldl (fun t _ => applyNext_accessed t d) _ s
theorem applyAll_accessed (s : State) : Accessed s (applyAll s) := Accessed.foldl (fun t k => applyNext_accessed t (k % 4)) _ s
theorem applySeen_accessed (s : State) (u scope : Nat) : Accessed s (applySeen s u scope) :=
  Accessed.foldl (fun t d => applyBelow_accessed t d _) _ s
theorem sawUpdates_accessed (s : State) (u k : Nat) : Accessed s (sawUpdates s u k) := Accessed.modCore (fun _ => rfl)
theorem sequence_accessed (s : State) (u : Nat) (ws : List (Nat × Byte)) : Accessed s (sequence s u ws) := Accessed.beside (by rfl)

theorem sequenceBy_accessed (s : State) (u : Nat) (ws : List (Nat × Byte)) : Accessed s (sequenceBy s u ws) := by
  have h : Accessed s (sawUpdates (sequence s u ws) u (s.seqNext + 1)) := (sequence_accessed s u ws).trans (sawUpdates_accessed ..)
  unfold sequenceBy
  simp only
  split
  · exact h.trans (applyAll_accessed _)
  · exact h.trans (applyBelow_accessed ..)

/-! ## Atomics and remote stores on their way -/

theorem atomicAtHome_accessed (s : State) (op : AtomOp) (loc : Nat) (repl : Bool) (u : Nat) (b d : Word) :
    Accessed s (atomicAtHome s op loc repl u b d).2 := by
  unfold atomicAtHome
  simp only
  split
  · simp only
    split
    · exact (applyBelow_accessed ..).trans (sawUpdates_accessed ..)
    · exact raiseFloor_accessed ..
  · simp only
    split
    · exact (applyBelow_accessed ..).trans ((sequenceBy_accessed ..).trans (applyBelow_accessed ..))
    · exact performBy_accessed ..

theorem roundTrip_accessed (s : State) (d e : Nat) : Accessed s (s.roundTrip d e) := by
  unfold State.roundTrip
  exact Accessed.foldl (fun _ _ => Accessed.beside (by rfl)) _ _

theorem homeReply_accessed (s : State) (op : AtomOp) (u : Nat) (va : Word) (loc : Nat) (repl : Bool) (b d : Word) :
    Accessed s (homeReply s op u va loc repl b d).2 := by
  have h0 := roundTrip_accessed s (dieOf (clusterOf u)) (if repl then 4 else locDie loc)
  unfold homeReply
  simp only
  generalize s.roundTrip (dieOf (clusterOf u)) (if repl then 4 else locDie loc) = s0 at h0 ⊢
  split
  · exact h0
  · exact h0.trans (atomicAtHome_accessed ..)

theorem farReply_accessed (s : State) (va : Word) (op : Option AtomOp) : Accessed s (farReply s va op).2 := tickFree_accessed s

theorem postShared_accessed (s : State) (P : Nat) (src : Source) (r : TrapRecord) : Accessed s (postShared s P src r) := by
  refine Accessed.modCluster (fun k => ?_)
  split
  · exact ClusterAside.refl _
  · split <;> exact rfl

theorem settleLate_accessed (s : State) (r : Req) (x : Reply) : Accessed s (settleLate s r x) := by
  unfold settleLate
  cases x with
  | val _ => exact Accessed.refl s
  | fail c i fa j k l =>
    simp only
    split
    · exact Accessed.beside (by rfl)
    · exact postShared_accessed ..

theorem performPending_accessed (s : State) (r : Req) : Accessed s (performPending s r) := by
  have h0 : Accessed s (if r.cut s then s.tickFree else s) := by
    split
    · exact tickFree_accessed s
    · exact Accessed.refl s
  unfold performPending
  simp only
  split
  · exact h0.trans (settleLate_accessed ..)
  · split
    · exact h0.trans ((homeReply_accessed ..).trans (settleLate_accessed ..))
    · exact h0.trans ((farReply_accessed ..).trans (settleLate_accessed ..))
    · exact Accessed.refl s

theorem flushWhere_accessed (s : State) (u : Nat) (p : Req → Bool) : Accessed s (flushWhere s u p) :=
  Accessed.trans (b := { s with reqs := _ }) (Accessed.beside (by rfl)) (Accessed.foldl performPending_accessed _ _)
theorem flushTo_accessed (s : State) (u scope : Nat) : Accessed s (flushTo s u scope) := flushWhere_accessed ..

/-! ## The store buffer -/

theorem performEntry_accessed (s : State) (u : Nat) (e : SbEntry) : Accessed s (performEntry s u e) := by
  have h0 : Accessed s (if e.release then applySeen (flushWhere s u (fun r => decide (r.since ≤ e.since))) u 4 else s) := by
    split
    · exact (flushWhere_accessed ..).trans (applySeen_accessed ..)
    · exact Accessed.refl s
  unfold performEntry
  simp only
  generalize (if e.release then applySeen (flushWhere s u (fun r => decide (r.since ≤ e.since))) u 4 else s) = s0 at h0
  refine h0.trans ?_
  split
  · exact tickFree_accessed s0
  · split
    · exact Accessed.modCore (fun _ => rfl)
    · split
      · exact sequenceBy_accessed ..
      · split
        · exact (Accessed.modCluster (by intro _; rfl)).trans ((Accessed.modCore (by intro _; rfl)).trans (performBy_accessed ..))
        · exact performBy_accessed ..

theorem drainFirst_accessed (s : State) (u n : Nat) : Accessed s (drainFirst s u n) := by
  unfold drainFirst
  refine Accessed.trans (Accessed.setCore (u := u) (c := { s.core u with storeBuf := (s.core u).storeBuf.drop n }) rfl)
    (Accessed.foldl (fun t e => ?_) _ _)
  split
  · exact applyBelow_accessed ..
  · exact performEntry_accessed t u e

theorem drainThrough_accessed (s : State) (u : Nat) (p : SbEntry → Bool) : Accessed s (drainThrough s u p) := drainFirst_accessed s u _
theorem drainAll_accessed (s : State) (u : Nat) : Accessed s (drainAll s u) := drainFirst_accessed s u _

theorem storeEntry_accessed (s : State) (u : Nat) (e : SbEntry) : Accessed s (storeEntry s u e) := by
  have h0 := flushWhere_accessed s u (fun r => (e.so && r.so) || (!r.isFar && e.touches (r.loc / 8 * 8) 8))
  unfold storeEntry
  simp only
  split
  · exact h0.trans (performEntry_accessed ..)
  · split
    · exact h0.trans ((drainFirst_accessed _ u 1).trans (Accessed.setCore rfl))
    · exact h0.trans (Accessed.setCore rfl)

/-! ## UO pages, releases and FENCE -/

theorem fillSectors_accessed (s : State) (P : Nat) (locs : List Nat) : Accessed s (fillSectors s P locs) := by
  unfold fillSectors; exact Accessed.modCluster (fun _ => rfl)

theorem dropUo_accessed (s : State) (P : Nat) (p : Nat → Bool) : Accessed s (dropUo s P p) :=
  Accessed.modCluster (f := fun c => c.dropUo p) (fun _ => rfl)

theorem writeBackSector_accessed (s : State) (u n : Nat) : Accessed s (writeBackSector s u n) := by
  unfold writeBackSector
  dsimp only
  exact (dropUo_accessed ..).trans ((Accessed.modCluster (by intro _; rfl)).trans ((performFor_accessed ..).trans (Accessed.modCore (fun _ => rfl))))

theorem sendHome_accessed (s : State) (u : Nat) (locs : List Nat) : Accessed s (sendHome s u locs) := by
  unfold sendHome
  exact (dropUo_accessed ..).trans ((performFor_accessed ..).trans (Accessed.modCore (fun _ => rfl)))

theorem dropCopies_accessed (s : State) (u scope : Nat) (secs : List Nat) (seen : AMap Byte) : Accessed s (dropCopies s u scope secs seen) := by
  refine ⟨rfl, fun _ => rfl, fun P => ?_, fun h => h⟩
  refine mget_map (R := ClusterAside) Cluster.reset rfl _ (fun p => ?_) (fun p => ?_) P s.clusters
  · dsimp only; split <;> rfl
  · dsimp only; split <;> rfl

theorem uoWriteBack_accessed (s : State) (u n : Nat) : Accessed s (uoWriteBack s u n) := by
  have hc : ∀ t : State, Accessed t (t.modCore u (fun c => { c.saw c.uoDirty with uoDirty := [] })) := fun t => Accessed.modCore (fun _ => rfl)
  unfold uoWriteBack
  dsimp only
  split
  · exact Accessed.refl s
  · split
    · split
      · exact (hc s).trans (Accessed.modCluster (fun _ => rfl))
      · exact (hc s).trans ((dropUo_accessed ..).trans (Accessed.modCluster (fun _ => rfl)))
    · split
      · exact (hc s).trans ((dropUo_accessed ..).trans ((performFor_accessed ..).trans ((dropCopies_accessed ..).trans (Accessed.modCore (fun _ => rfl)))))
      · exact (hc s).trans ((dropUo_accessed ..).trans ((performFor_accessed ..).trans (dropCopies_accessed ..)))

theorem flushUo_accessed (s : State) (cl sec : Nat → Bool) : Accessed s (flushUo s cl sec) := by
  have hm : ∀ Ps : List Nat, Accessed s ((Ps.foldl (fun (s : State) P => dropUo s P (fun a => sec (sectorOf a))) s).mapCores
      (fun u c => if cl (clusterOf u) && c.uoDirty.any (fun w => sec (sectorOf w.1)) then
        { c.saw (c.uoDirty.filter (fun w => sec (sectorOf w.1))) with uoDirty := c.uoDirty.filter (fun w => !sec (sectorOf w.1)) } else c)) := fun Ps =>
    (Accessed.foldl (fun t P => dropUo_accessed t P _) Ps s).trans (Accessed.mapCores (fun u c => by split <;> exact rfl))
  unfold flushUo
  dsimp only
  split
  · exact hm _
  · exact (hm _).trans (performWrites_accessed ..)

theorem engineWriteUo_accessed (s : State) (ws : List (Nat × Byte)) : Accessed s (engineWriteUo s ws) :=
  (flushUo_accessed ..).trans (performWrites_accessed ..)

theorem releaseTo_accessed (s : State) (u n : Nat) : Accessed s (releaseTo s u n) :=
  (flushTo_accessed s u n).trans ((drainAll_accessed _ u).trans ((applySeen_accessed _ u n).trans (uoWriteBack_accessed _ u n)))

/-! ## Operations that may stop -/

/-- An operation that, whenever it answers, has accessed memory and no more. -/
def Accesses {α : Type} (m : M α) : Prop := ∀ s a t, m s = .ok (a, t) → Accessed s t

theorem Accesses.pure {α : Type} (a : α) : Accesses (pure a : M α) := by
  intro s b t h; cases h; exact Accessed.refl s
theorem Accesses.bind {α β : Type} {m : M α} {f : α → M β} (hm : Accesses m) (hf : ∀ a, Accesses (f a)) : Accesses (m >>= f) := by
  intro s b t h
  obtain ⟨a, s', h1, h2⟩ := M.bind_ok.1 h
  exact (hm s a s' h1).trans (hf a s' b t h2)
theorem Accesses.get : Accesses (get : M State) := by intro s a t h; cases h; exact Accessed.refl s
theorem Accesses.trap {α : Type} (t : Trap) : Accesses (trapM t : M α) := by intro s a u h; cases h
theorem Accesses.wait {α : Type} (w : Wait) : Accesses (waitM w : M α) := by intro s a u h; cases h
theorem Accesses.need (b : Bool) (t : Trap) : Accesses (needM b t) := by
  cases b
  · exact Accesses.trap t
  · exact Accesses.pure ()
theorem freeNatM_accesses : Accesses freeNatM := by intro s a t h; cases h; exact tickFree_accessed s
theorem freeWordM_accesses : Accesses freeWordM := by intro s a t h; cases h; exact tickFree_accessed s
theorem freeBoolM_accesses : Accesses freeBoolM := by intro s a t h; cases h; exact tickFree_accessed s

theorem noteWalk_accessed (s : State) (va : Word) (w : Walk) : Accessed s (noteWalk s va w) := by
  cases w with
  | leaf pte big =>
    unfold noteWalk
    dsimp only
    generalize (if big = true then va.toNat / 2 ^ 25 else va.toNat / 2 ^ 16) = page
    split
    · exact Accessed.refl s
    · exact Accessed.beside (by rfl)
  | regen _ _ => exact Accessed.refl s
  | fail => exact Accessed.refl s

theorem translate_accesses (va : Word) : Accesses (Machine.translate va) := by
  intro s a t h
  unfold Machine.translate at h
  dsimp only at h
  split at h
  · cases h; exact noteWalk_accessed ..
  · split at h <;> cases h
    · exact tickFree_accessed s
    · exact (noteWalk_accessed ..).trans (tickFree_accessed _)

theorem rightsM_accesses (w : Who) (dom : Nat) : Accesses (rightsM w dom) := by
  intro s a t h
  unfold rightsM at h
  split at h
  · cases h; exact Accessed.refl s
  · split at h
    · cases h; exact Accessed.refl s
    · split at h
      · cases h; exact Accessed.refl s
      · simp only at h
        split at h <;> cases h
        · exact Accessed.setCore rfl
        · exact (tickFree_accessed s).trans (Accessed.setCore rfl)

theorem pieceOf_accesses (w : Who) (va : Word) (n : Nat) : Accesses (pieceOf w va n) := by
  intro s a t h
  unfold pieceOf at h
  split at h
  · cases h
  · simp only [Except.ok.injEq, Prod.mk.injEq] at h
    obtain ⟨-, rfl⟩ := h
    exact Accessed.refl s
  · simp only at h
    split at h
    · generalize (if endpointOf va = s.net.own then none else mfind s.net.endpoints (endpointOf va)) = o at h
      cases o with
      | some x =>
        simp only [Except.ok.injEq, Prod.mk.injEq] at h
        obtain ⟨-, rfl⟩ := h
        exact Accessed.refl s
      | none => cases h
    · generalize ht : Machine.translate va s = r at h
      cases r with
      | error e => cases h
      | ok p =>
        obtain ⟨w', s'⟩ := p
        cases w' with
        | fail => cases h
        | regen _ _ => cases h
        | leaf pte big =>
          simp only [Except.ok.injEq, Prod.mk.injEq] at h
          obtain ⟨-, rfl⟩ := h
          exact translate_accesses va s _ _ ht

theorem piecesOf_accesses (w : Who) : ∀ l, Accesses (piecesOf w l)
  | [] => Accesses.pure _
  | (va, n) :: t =>
    Accesses.bind (pieceOf_accesses w va n) (fun _ => Accesses.bind (piecesOf_accesses w t) (fun _ => Accesses.pure _))

theorem rightsAll_accesses (w : Who) (acc : Acc) : ∀ l, Accesses (rightsAll w acc l)
  | [] => Accesses.pure _
  | p :: t => by
    unfold rightsAll
    refine Accesses.bind (rightsM_accesses w p.dom) (fun r => Accesses.bind (Accesses.need _ _) (fun _ => ?_))
    cases p.place <;> first | exact rightsAll_accesses w acc t | exact Accesses.trap _ | exact Accesses.wait _

theorem resolveParts_accesses (w : Who) (acc : Acc) (parts : List (Word × Nat)) : Accesses (resolveParts w acc parts) := by
  intro s a t h
  unfold resolveParts at h
  split at h
  · cases h
  · exact Accesses.bind (piecesOf_accesses w _)
      (fun ps => Accesses.bind (rightsAll_accesses w acc ps) (fun _ => Accesses.pure _)) s a t h

theorem resolve_accesses (w : Who) (acc : Acc) (va : Word) (n : Nat) : Accesses (resolve w acc va n) := fun s a t h => resolveParts_accesses _ _ _ s a t h

theorem noPoison_accesses (w : Who) : ∀ ps, Accesses (noPoison w ps)
  | [] => Accesses.pure _
  | p :: l => by
    intro s a t h
    unfold noPoison at h
    split at h
    · split at h <;> cases h
    · split at h
      · cases h
      · exact noPoison_accesses w l s a t h

theorem noDead_accesses (ps : List Piece) : Accesses (noDead ps) := by
  unfold noDead
  split
  · exact Accesses.trap _
  · exact Accesses.pure _

theorem ringsFree_accesses : ∀ ps, Accesses (ringsFree ps)
  | [] => Accesses.pure _
  | p :: t => by
    intro s a u h
    unfold ringsFree at h
    split at h
    · split at h
      · cases h
      · exact ringsFree_accesses t s a u h
    · exact ringsFree_accesses t s a u h

theorem uoBytes_accesses (w : Who) (locs : List Nat) : Accesses (uoBytes w locs) := by
  intro s a t h
  unfold uoBytes at h
  simp only [Except.ok.injEq, Prod.mk.injEq] at h
  obtain ⟨-, rfl⟩ := h
  have h1 : ∀ x : State, Accessed s x → Accessed s (if (w.near && (s.cluster w.cl).hasCache) = true then fillSectors x w.cl locs else x) := by
    intro x hx
    split
    · exact hx.trans (fillSectors_accessed ..)
    · exact hx
  have h2 : ∀ b : Bool, Accessed s (if b = true then s.tickFree else s) := by
    intro b
    split
    · exact tickFree_accessed s
    · exact Accessed.refl s
  cases w.core with
  | none => exact h1 _ (h2 _)
  | some u => exact (h1 _ (h2 _)).trans (Accessed.modCore (fun _ => rfl))

theorem loadAge_accesses (u : Nat) (spans : List (Nat × Nat)) : Accesses (loadAge u spans) := by
  intro s a t h
  unfold loadAge at h
  simp only at h
  split at h <;> cases h
  · exact Accessed.refl s
  · exact (tickFree_accessed s).trans (Accessed.foldl (fun t x => raiseFloor_accessed t ..) _ _)

theorem farBytes_accesses (w : Who) (p : Piece) (locs : List Nat) : Accesses (farBytes w p locs) := by
  intro s a t h
  unfold farBytes at h
  simp only at h
  split at h
  · simp only [Except.ok.injEq, Prod.mk.injEq] at h
    obtain ⟨-, rfl⟩ := h
    cases w.core with
    | none => exact Accessed.refl s
    | some u => exact sawUpdates_accessed ..
  · split at h
    · exact uoBytes_accesses w locs s a t h
    · split at h
      · split at h
        · rename_i hl; cases h; exact loadAge_accesses _ _ _ _ _ hl
        · cases h
      · cases h; exact Accessed.refl s

theorem seeBytes_accesses (w : Who) (p : Piece) (locs : List Nat) : Accesses (seeBytes w p locs) :=
  Accesses.bind (farBytes_accesses w p locs) (fun _ => Accesses.bind Accesses.get (fun _ => Accesses.pure _))

theorem notifyRead_accessed {s t : State} {pa : Nat} {v : Word} (h : notifyRead s pa = some (v, t)) : Accessed s t := by
  unfold notifyRead at h
  split at h
  · split at h
    · split at h
      · cases h; exact Accessed.refl s
      · split at h <;> cases h
        exact Accessed.beside (by rfl)
    · cases h
  · split at h
    · cases h; exact Accessed.refl s
    · split at h <;> cases h
      exact Accessed.beside (by rfl)
  · cases h

theorem notifyWrite_accessed {s t : State} {pa : Nat} {v : Word} (h : notifyWrite s pa v = some t) : Accessed s t := by
  unfold notifyWrite at h
  split at h
  · split at h
    · repeat' (first | (split at h) | (cases h))
      all_goals exact Accessed.beside (by rfl)
    · cases h
  · repeat' (first | (split at h) | (cases h))
    all_goals exact Accessed.beside (by rfl)
  · cases h

theorem remoteLoad_accesses (w : Who) (va : Word) (n : Nat) : Accesses (remoteLoad w va n) := by
  have hr : Accesses (do
      let k ← freeNatM
      match k % 4 with
      | 1 => trapM (.at .plbDeny va)
      | 2 => trapM (.at .pageFault va)
      | 3 => trapM (.at .poison va)
      | _ => do
        let v ← freeWordM
        pure (leBytes n v.toNat)) := by
    refine Accesses.bind freeNatM_accesses (fun k => ?_)
    split
    · exact Accesses.trap _
    · exact Accesses.trap _
    · exact Accesses.trap _
    · exact Accesses.bind freeWordM_accesses (fun _ => Accesses.pure _)
  refine Accesses.bind Accesses.get (fun s => ?_)
  dsimp only
  split
  · exact Accesses.bind (Accesses.wait _) (fun _ => hr)
  · exact hr

theorem beforeRead_accessed (s : State) (w : Who) (p : Piece) (loc n : Nat) : Accessed s (beforeRead s w p loc n) := by
  unfold beforeRead
  cases w.core with
  | none => exact Accessed.refl s
  | some u =>
    refine Accessed.trans ?_ (flushWhere_accessed ..)
    split
    · exact drainThrough_accessed ..
    · exact Accessed.refl s

theorem readPiece_accesses (w : Who) (p : Piece) : Accesses (readPiece w p) := by
  intro s a t h
  unfold readPiece at h
  split at h
  · exact (beforeRead_accessed ..).trans (seeBytes_accesses w p _ _ a t h)
  · split at h
    · split at h
      · rename_i hn; cases h; exact (beforeRead_accessed ..).trans (notifyRead_accessed hn)
      · cases h
    · cases h
  · exact remoteLoad_accesses _ _ _ s a t h
  · cases h

theorem readSectorPiece_accesses (w : Who) (p : Piece) : Accesses (readSectorPiece w p) := by
  intro s a t h
  unfold readSectorPiece at h
  split at h
  · exact (beforeRead_accessed ..).trans (Accesses.bind (seeBytes_accesses w p _) (fun _ => Accesses.pure _) _ a t h)
  · exact Accesses.bind (readPiece_accesses w p) (fun _ => Accesses.bind freeWordM_accesses (fun _ => Accesses.pure _)) s a t h
  · exact Accesses.bind (readPiece_accesses w p) (fun _ => Accesses.pure _) s a t h

theorem readPieces_accesses (w : Who) : ∀ l, Accesses (readPieces w l)
  | [] => Accesses.pure _
  | p :: t => Accesses.bind (readPiece_accesses w p) (fun _ => Accesses.bind (readPieces_accesses w t) (fun _ => Accesses.pure _))

theorem loadBytes_accesses (w : Who) (va : Word) (n : Nat) : Accesses (loadBytes w va n) :=
  Accesses.bind (resolve_accesses _ _ _ _) (fun ps => Accesses.bind (noPoison_accesses w ps) (fun _ => readPieces_accesses w ps))

theorem farStore_accessed (s : State) (u e : Nat) (va : Word) (rel : Bool) : Accessed s (farStore s u e va rel) := by
  unfold farStore
  dsimp only
  refine Accessed.trans (b := sendFar s { farReq s u e none none 0 va with release := rel }) (Accessed.beside (by rfl)) ?_
  split
  · exact flushWhere_accessed ..
  · exact Accessed.refl _

theorem dropHalves_accessed (s : State) (ws : List (Nat × Byte)) : Accessed s (dropHalves s ws) := by
  unfold dropHalves
  exact Accessed.mapCores (fun _ _ => rfl)

theorem writePiece_accesses (w : Who) (p : Piece) (bs : List Byte) (tag : Option Half) (rel : Bool) :
    Accesses (writePiece w p bs tag rel) := by
  have hr : ∀ s : State, Accessed s (match w.core with | some u => releaseTo s u 5 | none => s) := by
    intro s
    cases w.core with
    | none => exact Accessed.refl s
    | some u => exact releaseTo_accessed ..
  intro s a t h
  unfold writePiece at h
  split at h
  · simp only at h
    split at h <;> cases h
    · exact storeEntry_accessed ..
    · rename_i loc _ _ _
      generalize pieceWrites loc bs (if p.typed then tag else none) = ws
      refine (dropHalves_accessed s ws).trans ?_
      split
      · exact (sequence_accessed ..).trans (applyAll_accessed _)
      · split
        · exact engineWriteUo_accessed ..
        · exact performWrites_accessed ..
  · split at h
    · split at h
      · rename_i hn; cases h; exact (hr s).trans (notifyWrite_accessed hn)
      · cases h
    · cases h
  · split at h
    · cases h
    · split at h
      · cases h
        split
        · exact (tickFree_accessed s).trans ((releaseTo_accessed ..).trans (farStore_accessed ..))
        · exact (tickFree_accessed s).trans (farStore_accessed ..)
      · split at h
        · rename_i hf
          cases h
          have := farReply_accessed { s with net := { s.net with sent := s.net.sent + 1 } } p.va none
          rw [hf] at this
          exact Accessed.trans (b := { s with net := { s.net with sent := s.net.sent + 1 } }) (Accessed.beside (by rfl)) this
        · cases h
  · cases h

theorem writePieces_accesses (w : Who) (tag : Option Half) (rel : Bool) : ∀ l bs, Accesses (writePieces w tag rel l bs)
  | [], _ => Accesses.pure _
  | p :: t, _ => Accesses.bind (writePiece_accesses w p _ tag rel) (fun _ => writePieces_accesses w tag rel t _)

theorem storeBytes_accesses (w : Who) (acc : Acc) (va : Word) (bs : List Byte) (tag : Option Half) (rel : Bool) :
    Accesses (storeBytes w acc va bs tag rel) :=
  Accesses.bind (resolve_accesses _ _ _ _) (fun ps => Accesses.bind (ringsFree_accesses ps)
    (fun _ => Accesses.bind (noDead_accesses ps) (fun _ => writePieces_accesses w tag rel ps bs)))

theorem aligned_accesses (va : Word) (n : Nat) : Accesses (aligned va n) := Accesses.need _ _

theorem loadScalar_accesses (ea : Word) (n : Nat) : Accesses (loadScalar ea n) :=
  Accesses.bind (aligned_accesses ea n) (fun _ => Accesses.bind Accesses.get
    (fun s => Accesses.bind (loadBytes_accesses s.me ea n) (fun _ => Accesses.pure _)))

theorem storeScalar_accesses (ea : Word) (n : Nat) (v : Word) (rel : Bool) : Accesses (storeScalar ea n v rel) :=
  Accesses.bind (aligned_accesses ea n) (fun _ => Accesses.bind Accesses.get (fun _ => storeBytes_accesses _ _ _ _ _ _))

theorem storeSector_accesses (ea : Word) (x : VVal) : Accesses (storeSector ea x) :=
  Accesses.bind (aligned_accesses ea 64) (fun _ => Accesses.bind Accesses.get (fun _ => storeBytes_accesses _ _ _ _ _ _))

theorem loadSector_accesses (ea : Word) : Accesses (loadSector ea) := by
  refine Accesses.bind (aligned_accesses ea 64) (fun _ => Accesses.bind Accesses.get (fun s =>
    Accesses.bind (resolve_accesses _ _ _ _) (fun ps => Accesses.bind (noPoison_accesses _ ps) (fun _ => ?_))))
  split
  · exact Accesses.bind (readSectorPiece_accesses _ _) (fun _ => Accesses.pure _)
  · exact Accesses.trap _

/-! ## Fetching -/

theorem fetchBytes_accesses (w : Who) (p : Piece) (u loc : Nat) : Accesses (fetchBytes w p u loc) := by
  intro s a t e
  unfold fetchBytes at e
  split at e
  · split at e
    · rename_i hu; cases e; exact uoBytes_accesses _ _ _ _ _ hu
    · cases e
  · simp only at e
    split at e <;> cases e
    · exact Accessed.refl s
    · exact tickFree_accessed s

theorem cachedHalf_accesses (u loc : Nat) (h : Half) : Accesses (cachedHalf u loc h) := by
  intro s a t e
  unfold cachedHalf at e
  split at e
  · split at e <;> cases e
    · exact Accessed.refl s
    · exact tickFree_accessed s
  · cases e; exact Accessed.setCore rfl

theorem fetchPiece_accesses (va : Word) : Accesses (fetchPiece va) := by
  intro s a t h
  unfold fetchPiece at h
  split at h
  · rename_i hr
    cases h
    exact Accesses.bind (resolve_accesses _ _ _ _) (fun ps => Accesses.bind (noPoison_accesses _ ps) (fun _ => Accesses.pure _)) _ _ _ hr
  · cases h
  · cases h
  · cases h

theorem fetchHalf_accesses (va : Word) : Accesses (fetchHalf va) := by
  refine Accesses.bind (fetchPiece_accesses va) (fun p => Accesses.bind Accesses.get (fun s => ?_))
  cases p.place with
  | mem loc => exact Accesses.bind (fetchBytes_accesses _ _ _ _) (fun _ => cachedHalf_accesses _ _ _)
  | _ => exact Accesses.trap _

theorem fetchFrom_accesses : ∀ (n : Nat) (p : Prefixes) (va : Word), Accesses (fetchFrom n p va)
  | 0, _, _ => Accesses.trap _
  | n + 1, p, va => by
    refine Accesses.bind (fetchHalf_accesses va) (fun h => ?_)
    cases decodeNext p h with
    | more p' => exact fetchFrom_accesses n p' (va + 2)
    | done i l => exact Accesses.pure _
    | bad e => exact Accesses.trap _

theorem fetchInstr_accesses : Accesses fetchInstr := Accesses.bind Accesses.get (fun _ => fetchFrom_accesses _ _ _)

end Sys2Proof
end

