-- ==== Sys2Proof/Laws/Window.lean ====
section
/-! SUPPORT. The scratchpad window of a cluster whose banks are all scratchpad: a range of any length is stored there and loaded from there by the
device's own accesses (R86, R96, R192). -/

namespace Sys2Proof

open Sys2Proof.Machine

/-- A state in which every bank of cluster 0 is scratchpad, and nothing stands in the way of the device's own accesses there. -/
def Plain (s : State) : Prop :=
  s.quarCl = [] ∧ s.sys.bring = 0 ∧ s.defers = [] ∧ (s.cluster 0).switching = [] ∧ (s.cluster 0).rings = [] ∧ (s.cluster 0).modes = Vector.replicate 16 1

theorem localVa_toNat {off : Nat} (h : off < 4194304) : (localVa off).toNat = localWin + off := by
  unfold localVa word localWin; rw [BitVec.toNat_ofNat]; omega

theorem local_region (s : State) {off : Nat} (h : off < 4194304) : regionOf s 0 (localVa off) = .window 0 off (4032 + s.logicalNo 0) := by
  have hn := localVa_toNat h
  have hc : canonical (localVa off) = true := by
    unfold canonical sext56
    rw [beq_iff_eq, hn]
    apply BitVec.eq_of_toNat_eq
    rw [hn]
    unfold sext64 signedOf localWin
    rw [BitVec.toNat_ofInt]
    dsimp only
    split <;> omega
  unfold regionOf
  simp only [hn, hc]
  have h1 : ¬ localWin + off < localWin := by omega
  have h2 : localWin + off < localWin + sramSize := by unfold sramSize; omega
  simp [h1, h2]

/-- A part of the window as a piece. -/
def windowPiece (s : State) (off len : Nat) : Piece :=
  { va := localVa off, len := len, place := .mem (sramLoc 0 off), kind := 1, typed := true, repl := false, dom := 4032 + s.logicalNo 0,
    cut := none }

theorem local_piece {s : State} (hs : Plain s) {off : Nat} (h : off < 4194304) (len : Nat) :
    pieceOf (engineWho none 0) (localVa off) len s = .ok (windowPiece s off len, s) := by
  obtain ⟨h1, h2, -, h4, -, h6⟩ := hs
  have hd : pathDown s (dieOf 0) (dieOf 0) = false := rfl
  have hm : (s.cluster 0).modes[off / 2 ^ 18]? = some 1 := by
    rw [h6, Vector.getElem?_replicate, if_pos (by omega)]
  unfold pieceOf
  rw [show (engineWho none 0).cl = 0 from rfl, local_region s h]
  simp only [h1, hd, h4, hm]
  simp [windowPiece, bankOpen]

theorem local_rights (s : State) (acc : Acc) (off len : Nat) (ps : List Piece) (h : rightsAll (engineWho none 0) acc ps s = .ok ((), s)) :
    rightsAll (engineWho none 0) acc (windowPiece s off len :: ps) s = .ok ((), s) := by
  unfold rightsAll
  rw [M.bind_of_ok (show rightsM (engineWho none 0) _ s = .ok (0x1F, s) from rfl)]
  have : granted acc (windowPiece s off len).typed 0x1F = true := by cases acc <;> rfl
  rw [M.bind_of_ok (show needM _ _ s = .ok ((), s) by rw [this]; rfl)]
  exact h

/-- A state that differs in memory, in what its bytes held before, and in what cores hold (their instruction caches, R130), alone. -/
def MemoryOnly (s t : State) : Prop := t = { s with mem := t.mem, past := t.past, cores := t.cores }

theorem MemoryOnly.plain {s t : State} (h : MemoryOnly s t) (hs : Plain s) : Plain t := by
  unfold MemoryOnly at h; rw [h]; exact hs
theorem MemoryOnly.trans {s t u : State} (h : MemoryOnly s t) (h' : MemoryOnly t u) : MemoryOnly s u := by
  unfold MemoryOnly at h h' ⊢; rw [h', h]

/-- Writes answer no LDF where none is deferred. -/
theorem answerFutures_none (s : State) (ws : List (Nat × Byte)) (h : s.defers = []) : answerFutures s ws = s := by
  unfold answerFutures
  rw [h]
  show { s with defers := [] } = s
  rw [← h]

/-- The device stores up to 64 bytes at a multiple of 64, and nothing but memory changes. -/
theorem local_store {s : State} (hs : Plain s) {off : Nat} (h : off + 64 ≤ 4194304) (h64 : off % 64 = 0) (bs : List Byte) (hl : bs.length ≤ 64) (tag : Half) :
    ∃ t, storeBytes (engineWho none 0) .sector (localVa off) bs (some tag) false s = .ok ((), t) ∧ MemoryOnly s t := by
  have hn := localVa_toNat (off := off) (by omega)
  have hroom : ¬ 65536 - (localVa off).toNat % 65536 < 64 := by rw [hn]; unfold localWin; omega
  rcases Nat.eq_zero_or_pos bs.length with h0 | h0
  · have hp : rangeParts (localVa off) 0 = [] := rfl
    refine ⟨s, ?_, rfl⟩
    unfold storeBytes
    rw [h0, M.bind_of_ok (show resolve (engineWho none 0) .sector (localVa off) 0 s = .ok ([], s) by
      unfold resolve; rw [show redirected (engineWho none 0) (localVa off) = localVa off from rfl, hp]; rfl)]
    rfl
  · have hp : rangeParts (localVa off) bs.length = [(localVa off, bs.length)] := by
      unfold rangeParts
      rw [show bs.length / 65536 + 2 = 1 + 1 by omega]
      unfold splitRange
      rw [if_neg (by omega)]
      dsimp only
      rw [if_pos (by omega)]
    have hr : resolve (engineWho none 0) .sector (localVa off) bs.length s = .ok ([windowPiece s off bs.length], s) := by
      unfold resolve
      rw [show redirected (engineWho none 0) (localVa off) = localVa off from rfl, hp]
      have hf : (([(localVa off, bs.length)] : List (Word × Nat)).find? fun p => regionOf s (engineWho none 0).cl p.1 == .nothing) = none := by
        rw [List.find?_eq_none]
        intro p hp
        rw [List.mem_singleton.1 hp, show (engineWho none 0).cl = 0 from rfl, local_region s (by omega)]
        simp
      unfold resolveParts
      rw [hf]
      have hpc : piecesOf (engineWho none 0) [(localVa off, bs.length)] s = .ok ([windowPiece s off bs.length], s) := by
        unfold piecesOf
        rw [M.bind_of_ok (local_piece hs (by omega) _)]
        rfl
      dsimp only
      rw [M.bind_of_ok hpc, M.bind_of_ok (local_rights s .sector off _ [] rfl)]
      rfl
    have hg : ringGuard s (sramLoc 0 off) bs.length = none := by
      unfold ringGuard
      split
      · rfl
      · have : (sramLoc 0 off - sramBase) / sramSize = 0 := by unfold sramLoc sramSize; omega
        dsimp only
        rw [this, hs.2.2.2.2.1]
        rfl
    unfold storeBytes
    rw [M.bind_of_ok hr]
    rw [M.bind_of_ok (show ringsFree [windowPiece s off bs.length] s = .ok ((), s) by
      unfold ringsFree
      show (match ringGuard s (sramLoc 0 off) bs.length with | some _ => _ | none => _) = _
      rw [hg]; rfl)]
    rw [M.bind_of_ok (show noDead [windowPiece s off bs.length] s = .ok ((), s) from rfl)]
    unfold writePieces
    have hw : ∃ t, writePiece (engineWho none 0) (windowPiece s off bs.length) (bs.take bs.length) (some tag) false s = .ok ((), t) ∧ MemoryOnly s t := by
      refine ⟨performWrites (dropHalves s (pieceWrites (sramLoc 0 off) (bs.take bs.length) (some tag))) (pieceWrites (sramLoc 0 off) (bs.take bs.length) (some tag)), rfl, ?_⟩
      obtain ⟨-, -, h3, -⟩ := hs
      have : (dropHalves s (pieceWrites (sramLoc 0 off) (bs.take bs.length) (some tag))).defers = [] := h3
      unfold performWrites performFor MemoryOnly
      rw [answerFutures_none _ _ (by exact this)]
      rfl
    obtain ⟨t, ht, hm⟩ := hw
    exact ⟨t, (M.bind_of_ok (f := fun _ => writePieces (engineWho none 0) (some tag) false [] (bs.drop bs.length)) ht).trans rfl, hm⟩

/-- The device stores any number of sectors, each with its tag. -/
theorem local_sectors (tag : Nat → Half) : ∀ (n k off : Nat) (bs : List Byte) (s : State), Plain s → off + 64 * n ≤ 4194304 → off % 64 = 0 →
    ∃ t, storeSectors (engineWho none 0) tag n k (localVa off) bs s = .ok ((), t) ∧ MemoryOnly s t
  | 0, _, _, _, s, _, _, _ => ⟨s, rfl, rfl⟩
  | n + 1, k, off, bs, s, hs, h, h64 => by
    obtain ⟨t, hm, ht⟩ := local_store hs (off := off) (by omega) h64 (bs.take 64) (by rw [List.length_take]; omega) (tag k)
    obtain ⟨t', hm', ht'⟩ := local_sectors tag n (k + 1) (off + 64) (bs.drop 64) t (ht.plain hs) (by omega) (by omega)
    refine ⟨t', ?_, ht.trans ht'⟩
    unfold storeSectors
    rw [M.bind_of_ok hm]
    have : localVa off + 64 = localVa (off + 64) := by
      apply BitVec.eq_of_toNat_eq
      rw [BitVec.toNat_add, localVa_toNat (by omega)]
      rcases Nat.lt_or_ge (off + 64) 4194304 with h' | h'
      · rw [localVa_toNat h']; unfold localWin; show (_ + 64) % _ = _; omega
      · have : off + 64 = 4194304 := by omega
        rw [this]
        have : off = 4194240 := by omega
        subst this
        rfl
    rw [this]
    exact hm'

/-- The device loads any ranges of the window one after another. -/
theorem local_ranges {s : State} (hs : Plain s) (hp : s.mem.poison = []) : ∀ l : List (Nat × Nat), (∀ x ∈ l, x.1 < 4194304) →
    ∃ ps : List Piece, piecesOf (engineWho none 0) (l.map fun x => (localVa x.1, x.2)) s = .ok (ps, s) ∧ rightsAll (engineWho none 0) .load ps s = .ok ((), s)
      ∧ noPoison (engineWho none 0) ps s = .ok ((), s) ∧ ∃ bs, readPieces (engineWho none 0) ps s = .ok (bs, s)
  | [], _ => ⟨[], rfl, rfl, rfl, [], rfl⟩
  | x :: t, h => by
    obtain ⟨ps, h1, h2, h3, bs, h4⟩ := local_ranges hs hp t (fun y hy => h y (List.mem_cons_of_mem _ hy))
    refine ⟨windowPiece s x.1 x.2 :: ps, ?_, local_rights s .load _ _ ps h2, ?_, ?_⟩
    · rw [List.map_cons]
      unfold piecesOf
      rw [M.bind_of_ok (local_piece hs (h x List.mem_cons_self) _), M.bind_of_ok h1]
      rfl
    · have hf : (windowPiece s x.1 x.2).poisoned s (engineWho none 0) = none := by
        show Option.map _ (List.find? (fun n => s.mem.poison.contains n) _) = none
        rw [Option.map_eq_none_iff, List.find?_eq_none]
        intro n _
        rw [hp]
        simp
      unfold noPoison
      show (match (windowPiece s x.1 x.2).poisoned s (engineWho none 0) with | some _ => _ | none => _) = _
      rw [hf]
      exact h3
    · refine ⟨(upFrom (sramLoc 0 x.1) x.2).map s.mem.peek ++ bs, ?_⟩
      unfold readPieces
      rw [M.bind_of_ok (show readPiece (engineWho none 0) (windowPiece s x.1 x.2) s = .ok ((upFrom (sramLoc 0 x.1) x.2).map s.mem.peek, s) from rfl),
        M.bind_of_ok h4]
      rfl

/-- The parts of a tile's image at the start of the window, by 64 KiB pages. -/
def imageParts : List (Nat × Nat) := ((List.range 12).map fun k => (65536 * k, 65536)) ++ [(786432, 4096)]

/-- The device loads a tile's image from the start of the window. -/
theorem local_image {s : State} (hs : Plain s) (hp : s.mem.poison = []) : ∃ bs, loadBytes (engineWho none 0) (localVa 0) 790528 s = .ok (bs, s) := by
  have hr : rangeParts (localVa 0) 790528 = imageParts.map fun x => (localVa x.1, x.2) := by decide
  obtain ⟨ps, h1, h2, h3, bs, h4⟩ := local_ranges hs hp imageParts (by decide)
  refine ⟨bs, ?_⟩
  have hv : resolve (engineWho none 0) .load (localVa 0) 790528 s = .ok (ps, s) := by
    unfold resolve
    rw [show redirected (engineWho none 0) (localVa 0) = localVa 0 from rfl, hr]
    have hf : (imageParts.map fun x => (localVa x.1, x.2)).find?
        (fun p => regionOf s (engineWho none 0).cl p.1 == .nothing) = none := by
      rw [List.find?_eq_none]
      intro p hp
      obtain ⟨x, hx, rfl⟩ := List.mem_map.1 hp
      have : x.1 < 4194304 := (by decide : ∀ x ∈ imageParts, x.1 < 4194304) x hx
      rw [show (engineWho none 0).cl = 0 from rfl, local_region s this]
      simp
    unfold resolveParts
    rw [hf]
    dsimp only
    rw [M.bind_of_ok h1, M.bind_of_ok h2]
    rfl
  unfold loadBytes
  rw [M.bind_of_ok hv, M.bind_of_ok h3]
  exact h4

end Sys2Proof
end

