-- ==== Sys2Proof/Tests/Slice0.lean ====
section
/-! SUPPORT. Tests: words of the spec's encodings decoded, ill-formed terms refused, small tests whose results were worked out from the rules that their
comments name, and witnesses: for each obligation a concrete state and operands that meet its hypotheses. -/

namespace Sys2Proof.Tests

open Sys2Proof Sys2Proof.Machine

set_option Elab.async false

/-! ## A small state

Core 0 of cluster 0 runs task 0 of kernel 7 of queue 0 from the local scratchpad window: bank 0 is in scratchpad mode, and tenant 0 holds every right
there. Registers g1 to g7 hold small values. -/

def aTask : Task :=
  { kind := .task, kern := ⟨0, 7⟩, tenant := 0, det := 0, entry := localVa 0x1000, args := [1, 2, 3, 4, 5, 6], path := 1, jaddr := 0, ord := 0, footB := 0,
    footL := 0, stowa := 0, tsave := 0, vt := 0, wait := 0, setm := 0, keep := false, base := 3, pri := 3, since := 0, tcba := 0, named := none,
    bound := none, status := .running, stowed := false, act := none, lastOn := some 0, lastAt := 0, msgs := [], ports := [], handles := [], trapRec := none, slotMeta := [],
    members := [], exited := [] }

def aCore : Core :=
  { Core.reset with
    g := (Vector.ofFn (fun (k : Fin 32) => word k.val)).set 4 (localVa 0x40), pc := localVa 0x1000, ilen := 2, task := some 0, status := .running,
    ctx := { TaskCtx.none with kern := ⟨0, 7⟩, path := 1 } }

def aCluster : Cluster := { Cluster.reset with modes := Cluster.reset.modes.set 0 1, tcbs := [(0, aTask)] }

def base : State := { State.reset with cores := [(0, aCore)], clusters := [(0, aCluster)], rights := [(4032, 0x1F)], now := 100 }

/-- The state after an instruction or step. -/
def after (i : Instr) (s : State) : State :=
  match exec i s with
  | .next t => t
  | _ => State.reset

/-- A general register of core 0 after an instruction. -/
def g (i : Instr) (s : State) (r : GReg) : Word := ((after i s).core 0).rg r

/-- The cause of the trap that core 0 took. -/
def cause (i : Instr) (s : State) : Option Nat :=
  match ((after i s).core 0).status with
  | .trapped r => some r.cause.code
  | _ => none


/-! ## Decoding

Words written out from the encoding tables of spec/02 and the opcode table, with field values that differ from one another. -/

/-- Whether halfwords decode to an instruction and nothing is left of them. -/
def reads (hs : List Half) (i : Instr) : Bool :=
  match decode hs with
  | .ok (j, n) => decide (j = i) && n == 2 * hs.length
  | .error _ => false

theorem test_decode_page0_a :
    (reads [0x01CA] (.add 3 4 5) && reads [0xF3FE, 0x01CA] (.addImm 3 4 (-11)) && reads [0x01CB] (.sub 3 4 5) &&
      reads [0xF3FE, 0x01CB] (.subImm 3 4 (-11)) && reads [0x05CA] (.mul 3 4 5) && reads [0xF3FE, 0x05CA] (.mulImm 3 4 (-11)) &&
      reads [0x05CB] (.mulh 3 4 5) && reads [0xF3FE, 0x05CB] (.mulhImm 3 4 (-11)) && reads [0x09CA] (.div 3 4 5) &&
      reads [0xF3FE, 0x09CA] (.divImm 3 4 (-11)) && reads [0x09CB] (.divu 3 4 5) && reads [0xF3FE, 0x09CB] (.divuImm 3 4 (-11)) &&
      reads [0x0DCA] (.rem 3 4 5) && reads [0xF3FE, 0x0DCA] (.remImm 3 4 (-11)) && reads [0x0DCB] (.sel 3 4 5) &&
      reads [0xF3FE, 0x0DCB] (.selImm 3 4 (-11)) && reads [0x11CA] (.and 3 4 5) && reads [0xF3FE, 0x11CA] (.andImm 3 4 (-11)) &&
      reads [0x11CB] (.or 3 4 5) && reads [0xF3FE, 0x11CB] (.orImm 3 4 (-11))) = true := by decide +kernel

theorem test_decode_page0_b :
    (reads [0x15CA] (.xor 3 4 5) && reads [0xF3FE, 0x15CA] (.xorImm 3 4 (-11)) && reads [0x15CB] (.sra 3 4 5) &&
      reads [0xF3FE, 0x15CB] (.sraImm 3 4 (-11)) && reads [0x19CA] (.shl 3 4 5) && reads [0xF3FE, 0x19CA] (.shlImm 3 4 (-11)) &&
      reads [0x19CB] (.shr 3 4 5) && reads [0xF3FE, 0x19CB] (.shrImm 3 4 (-11)) && reads [0x1DCA] (.min 3 4 5) &&
      reads [0xF3FE, 0x1DCA] (.minImm 3 4 (-11)) && reads [0x1DCB] (.max 3 4 5) && reads [0xF3FE, 0x1DCB] (.maxImm 3 4 (-11)) &&
      reads [0x21CA] (.slt 3 4 5) && reads [0xF3FE, 0x21CA] (.sltImm 3 4 (-11)) && reads [0x21CB] (.sltu 3 4 5) &&
      reads [0xF3FE, 0x21CB] (.sltuImm 3 4 (-11)) && reads [0x25C0] (.clz 3 4) && reads [0x25C1] (.popc 3 4) && reads [0x29C0] (.mov 3 4) &&
      reads [0x29C1] (.jr 3 4)) = true := by decide +kernel

theorem test_decode_page0_c :
    (reads [0x2DD0] (.li 3 (-48)) && reads [0x31D0] (.addpc 3 (-48)) && reads [0x365A] (.beq 4 5 (-6)) && reads [0x3A5A] (.bne 4 5 (-6)) &&
      reads [0x3E5A] (.blt 4 5 (-6)) && reads [0x425A] (.bge 4 5 (-6)) && reads [0x465A] (.bltu 4 5 (-6)) &&
      reads [0x4A5A] (.bgeu 4 5 (-6)) && reads [0x4EFA] (.bqs 11 (-6)) && reads [0x52FA] (.bqc 11 (-6)) && reads [0x57FA] (.j (-6)) &&
      reads [0x5BFA] (.jal (-6)) && reads [0x5E50] (.rep 4 80) && reads [0x61C9] (.ldB 3 4 (-7)) && reads [0x65C9] (.ldH 3 4 (-7)) &&
      reads [0x69C9] (.ldW 3 4 (-7)) && reads [0x6DC9] (.ldD 3 4 (-7)) && reads [0x71C9] (.lduB 3 4 (-7)) &&
      reads [0x75C9] (.lduH 3 4 (-7)) && reads [0x79C9] (.lduW 3 4 (-7))) = true := by decide +kernel

theorem test_decode_page0_d :
    (reads [0x7DC9] (.stB 3 4 (-7)) && reads [0x81C9] (.stH 3 4 (-7)) && reads [0x85C9] (.stW 3 4 (-7)) && reads [0x89C9] (.stD 3 4 (-7)) &&
      reads [0x8DC9] (.ldv 3 4 (-7)) && reads [0x91C9] (.stv 3 4 (-7)) && reads [0x95C0] (.ldvx 3 4) && reads [0x944B] (.stvp 4 5) &&
      reads [0x99C9] (.ldf 3 4 (-7)) && reads [0x9DC9] (.stf 3 4 (-7)) && reads [0xA004] (.fence 4) && reads [0xA5C9] (.lda 3 4 (-7)) &&
      reads [0xA9C9] (.stl 3 4 (-7)) && reads [0xADCA] (.aadd 3 4 5) && reads [0xADCB] (.aand 3 4 5) && reads [0xB1CA] (.aor 3 4 5) &&
      reads [0xB1CB] (.axor 3 4 5) && reads [0xB5CA] (.amin 3 4 5) && reads [0xB5CB] (.amax 3 4 5) && reads [0xB9CA] (.aminu 3 4 5)) = true := by decide +kernel

theorem test_decode_page0_e :
    (reads [0xB9CB] (.amaxu 3 4 5) && reads [0xBDCA] (.aswp 3 4 5) && reads [0xBDCB] (.afadd 3 4 5) && reads [0xC1CA] (.acas 3 4 5) &&
      reads [0xC1CB] (.waita 3 4 5)) = true := by decide +kernel

theorem test_decode_page1_a :
    (reads [0xF801, 0x01C1] (.vwid 3 4 1) && reads [0xF801, 0x05C1] (.vnb16 3 4 1) && reads [0xF801, 0x09C1] (.vnh16S 3 4 1) &&
      reads [0xF801, 0x0DC1] (.vnh16X 3 4 1) && reads [0xF801, 0x11C1] (.vn8S 3 4 1) && reads [0xF801, 0x15C1] (.vn8X 3 4 1) &&
      reads [0xF801, 0x19C1] (.vn8wS 3 4 1) && reads [0xF801, 0x1DC1] (.vn4S 3 4 1) && reads [0xF801, 0x21C1] (.vni8S 3 4 1) &&
      reads [0xF801, 0x25C0] (.vfi32 3 4) && reads [0xF801, 0x25C1] (.vif32 3 4) && reads [0xF801, 0x29CA] (.vscl 3 4 5) &&
      reads [0xF801, 0x29CB] (.vtag 3 4 5) && reads [0xF801, 0x2DC0] (.vgtag 3 4) && reads [0xF801, 0x31CA] (.vpackz 3 4 5) &&
      reads [0xF801, 0x31CB] (.vexpz 3 4 5) && reads [0xF801, 0x35CA] (.vfadd 3 4 5) && reads [0xF801, 0x35CB] (.vfsub 3 4 5) &&
      reads [0xF801, 0x39CA] (.vfmul 3 4 5) && reads [0xF801, 0x39CB] (.vfma 3 4 5)) = true := by decide +kernel

theorem test_decode_page1_b :
    (reads [0xF801, 0x3DCA] (.vfmat 3 4 5) && reads [0xF801, 0x3DC1] (.vfred 3 4) && reads [0xF801, 0x41CA] (.vfmin 3 4 5) &&
      reads [0xF801, 0x41CB] (.vfmax 3 4 5) && reads [0xF801, 0x45CA] (.vfcmp 3 4 5) && reads [0xF801, 0x45CB] (.vcmpb 3 4 5) &&
      reads [0xF801, 0x49CA] (.vadd 3 4 5) && reads [0xF801, 0x49CB] (.vmul 3 4 5) && reads [0xF801, 0x4DCA] (.vand 3 4 5) &&
      reads [0xF801, 0x4DCB] (.vor 3 4 5) && reads [0xF801, 0x51CA] (.vxor 3 4 5) && reads [0xF801, 0x51CB] (.vsh 3 4 5) &&
      reads [0xF801, 0x55CA] (.vminu 3 4 5) && reads [0xF801, 0x55CB] (.vmaxu 3 4 5) && reads [0xF801, 0x59CA] (.vfind 3 4 5) &&
      reads [0xF801, 0x59C1] (.vhash 3 4) && reads [0xF801, 0x5DCA] (.vnfa 3 4 5) && reads [0xF801, 0x5DCB] (.vperm 3 4 5) &&
      reads [0xF801, 0x61C2] (.vbcast 3 4 2) && reads [0xF801, 0x65CD] (.vext 3 4 13)) = true := by decide +kernel

theorem test_decode_page2_a :
    (reads [0xF802, 0x05CA] (.rbind 3 4 5) && reads [0xF802, 0x05CB] (.rslot 3 4 5) && reads [0xF802, 0x09CA] (.rwait 3 4 5) &&
      reads [0xF802, 0x09CB] (.rwaitf 3 4 5) && reads [0xF802, 0x0C4A] (.radvh 4 5) && reads [0xF802, 0x0C4B] (.radvt 4 5) &&
      reads [0xF802, 0x11C0] (.spost 3 4) && reads [0xF802, 0x11C1] (.swait 3 4) && reads [0xF802, 0x15CA] (.stryw 3 4 5) &&
      reads [0xF802, 0x1960] (.mldb 5 4) && reads [0xF802, 0x1B60] (.mldbL 5 4) && reads [0xF802, 0x1DD0] (.msel 3 80) &&
      reads [0xF802, 0x2180] (.mz 3) && reads [0xF802, 0x21C1] (.macc 3 4) && reads [0xF802, 0x25C0] (.mmaN4 3 4) &&
      reads [0xF802, 0x25C1] (.mmaN8 3 4) && reads [0xF802, 0x29C0] (.mmaW16 3 4) && reads [0xF802, 0x29C1] (.mmaL 3 4) &&
      reads [0xF802, 0x2C40] (.mdrn 4) && reads [0xF802, 0x2DCB] (.eoutN8 3 4 5)) = true := by decide +kernel

theorem test_decode_page2_b :
    (reads [0xF802, 0x31CA] (.eoutF32 3 4 5) && reads [0xF802, 0x31CB] (.eoutB16 3 4 5) && reads [0xF802, 0x36C0] (.evdecl 5 4) &&
      reads [0xF802, 0x36C1] (.evdrop 5 4) && reads [0xF802, 0x3ACA] (.evupd 5 4 5) && reads [0xF802, 0x3ACB] (.evupdt 5 4 5) &&
      reads [0xF802, 0x3ECA] (.evfan 5 4 5) && reads [0xF802, 0x3DCB] (.evpeek 3 4 5) && reads [0xF802, 0x4189] (.evstat 3 9) &&
      reads [0xF802, 0x4400] (.evdone) && reads [0xF802, 0x4840] (.vtset 4) && reads [0xF802, 0x4981] (.vtget 3) &&
      reads [0xF802, 0x4D80] (.vtlow 3)) = true := by decide +kernel

theorem test_decode_page3_a :
    (reads [0xF803, 0x01C0] (.spawn 3 4) && reads [0xF803, 0x0041] (.join 4) && reads [0xF803, 0x07FA] (.fork (-6)) &&
      reads [0xF803, 0x0800] (.exit) && reads [0xF803, 0x0C00] (.yield) && reads [0xF803, 0x1000] (.gbar) &&
      reads [0xF803, 0x1440] (.ebset 4) && reads [0xF803, 0x1441] (.ebclr 4) && reads [0xF803, 0x1840] (.ebwait 4) &&
      reads [0xF803, 0x1981] (.tpath 3) && reads [0xF803, 0x1D84] (.gid 3 4) && reads [0xF803, 0x204A] (.send 4 5) &&
      reads [0xF803, 0x210B] (.sendp 2 5) && reads [0xF803, 0x2580] (.recv 3) && reads [0xF803, 0x2585] (.recvp 3 2) &&
      reads [0xF803, 0x2841] (.trap 65) && reads [0xF803, 0x2D92] (.csrr 3 18) && reads [0xF803, 0x3192] (.csrw 18 3) &&
      reads [0xF803, 0x3440] (.stow 4) && reads [0xF803, 0x3800] (.halt)) = true := by decide +kernel

/-- R204: the second halfword of CP names its function: COPY, COPYF, COPYM, GATH, SCAT, FILL, WBACK, INVAL, SUBS, UNSUBS, PULL, PULLF. -/
theorem test_decode_cp :
    ([(0xFC00, CpFn.copy), (0xFC08, .copyf), (0xFC10, .copym), (0xFC18, .gath), (0xFC20, .scat), (0xFC28, .fill), (0xFC30, .wback), (0xFC38, .inval), (0xFC01, .subs),
        (0xFC09, .unsubs), (0xFC11, .pull), (0xFC19, .pullf)].all (fun (p : Half × CpFn) => reads [0xF802, p.1, 0x0351] (.cp p.2 true 6 5 0))) = true := by decide +kernel


/-! ## Ill-formed terms, one for each check -/

theorem test_wf_refuses_immediates :
    ([Instr.addImm 1 2 (2 ^ 50), .subImm 9 2 (2 ^ 33), .mulImm 1 2 (2 ^ 50), .mulhImm 1 2 (2 ^ 50), .divImm 1 2 (2 ^ 50), .divuImm 1 2 (2 ^ 50),
      .remImm 1 2 (2 ^ 50), .selImm 1 2 (2 ^ 50), .andImm 1 2 (2 ^ 50), .orImm 1 2 (2 ^ 50), .xorImm 1 2 (2 ^ 50), .sraImm 1 2 (2 ^ 50),
      .shlImm 1 2 (2 ^ 50), .shrImm 1 2 (2 ^ 50), .minImm 1 2 (2 ^ 50), .maxImm 1 2 (2 ^ 50), .sltImm 1 2 (2 ^ 50), .sltuImm 1 2 (2 ^ 50),
      .li 1 (2 ^ 50), .addpc 1 (2 ^ 50), .beq 1 2 (2 ^ 50), .bqs 1 (2 ^ 50), .j (2 ^ 50), .rep 1 0, .fork (2 ^ 50)].all (fun i => !wellFormed i)) = true := by
  decide +kernel

theorem test_wf_refuses_operands :
    ([Instr.ldB 1 2 (2 ^ 50), .stD 1 2 (2 ^ 50), .ldv 1 2 (2 ^ 50), .ldvx 1 3, .ldvx 1 0, .stvp 5 1, .ldf 1 2 (2 ^ 50), .fence 6, .lda 1 2 (2 ^ 50),
      .vwid 1 2 8, .vnb16 1 2 2, .vnh16S 1 2 2, .vn8S 1 2 4, .vn4S 1 2 8, .vni8S 1 2 4, .vbcast 1 2 7, .cp .copy false 1 2 3, .cp .subs false 0 2 3,
      .evstat 1 3, .gid 1 7, .trap 0x10, .csrr 1 0x05, .csrw 0x1B 1].all (fun i => !wellFormed i)) = true := by decide +kernel

theorem test_wf_refuses_units :
    ([Instr.engineReply 2048, .copy 16, .subs 32, .streamerElementWrite 0 16, .streamerElementWrite 32 0, .copymFollowOnEnter 512 0, .ringWaitWake 2048,
      .semaphoreGrant 512 0, .semaphoreGrant 0 16, .matrixRingBind 2048, .tileSave 512, .mreplWrite 2048 0, .fanoutSourceArrival 64 0, .refill 0 64,
      .refill 64 0, .activationStart 2048, .sliceError 64, .gbarComplete 2048, .eventBitCycle 64, .taskPlace 2048, .taskAging 64 0, .taskAging 0 1024,
      .gangStart 64, .portTransfer 2048 0, .bankcfgWrite 2048 0, .bankcfgSwitchDone 64, .wdtWrite 2048 0].all (fun i => !wellFormed i)) = true := by
  decide +kernel

theorem test_wf_refuses_device :
    ([Instr.tcflushWrite 4 0, .mgnWrite 2048 0, .lctlRetrainRequest 16, .queueCreate 65536 ⟨0, 0, 0, 0, 0, 0, 0, 0, 0⟩,
      .queueCreate 0 ⟨0, 0, 0, 0, 0, 0, 4096, 0, 0⟩, .notifyErrRead 65536, .scheduleErrRead 4, .frameWaitTimeout 2048, .tcbAdmission 65536,
      .contextShip 2048, .regenerationComplete 4 0, .requestReply 2048, .replicaUpdateApply 4, .waitaWake 2048, .ldfCancelNotice 128 0,
      .remoteRequest ⟨.read 0, 0, 0⟩, .remoteRequest ⟨.write [], 0, 0⟩, .remoteRequest ⟨.atomic .add 1 0, 4, 0⟩, .remoteRequest ⟨.readSector, 8, 0⟩,
      .remoteRequest ⟨.writeSector 0 0, 32, 0⟩, .managementRequest (.endpoint 32768) (some (.entry ⟨0, 0, 0, true, 0, 0, .other⟩)), .managementRequest .ownNumber (some (.word 32768)),
      .managementRequest (.discarded 64) none, .managementRequest (.trepc 2048) none, .managementRequest (.cmisc 2048) none, .managementRequest (.softErrors 2048) none, .managementRequest (.ccmd 2048) none, .flitReceive 16 0, .preciseTrap 2048,
      .heldRecordEnter 64, .resume 2048, .ready 0 1024, .endTask 2048, .restart 0 1024, .load 2048 0, .taskRestart 64 0, .clusterRemap 64,
      .powerOn ⟨⟨0, 0, 0, 0, true, true⟩, [(16, 0, 0)], [], [], 0, 0, 0, [], ⟨0, 0, 0, 0, true, true⟩⟩, .coldReset [64], .mgnstRecentExpiry 2048, .queueDestroy 65536,
      .regulatorSettlingEnd 2048].all (fun i => !wellFormed i)) = true := by decide +kernel

/-! ## Words of the listings, with their prefixes -/

/-- The words that the spec's listings print beside these instructions. -/
theorem test_decode_listings :
    (reads [0xF500, 0xF009, 0xF068, 0x2CD6] (.li 9 0x123456) && reads [0xF620, 0x0233] (.sub 20 3 17) && reads [0xF440, 0xC01B] (.waita 0 9 5) &&
      reads [0xF3FF, 0x30A4] (.addpc 1 (-92)) && reads [0xF004, 0xAB40] (.stl 6 4 64) && reads [0xF001, 0x41FA] (.bge 3 7 26) &&
      reads [0xF440, 0x5C07] (.rep 8 7) && reads [0xF802, 0xFC00, 0x0351] (.cp .copy true 6 5 0) && reads [0xF802, 0x1A58] (.mldbL 1 3) &&
      reads [0xF802, 0x3180] (.eoutF32 3 0 0) && reads [0xF803, 0x280F] (.trap 0x0F) && reads [0xF802, 0x4180] (.evstat 3 0)) = true := by decide +kernel

/-- An undefined word of each page is refused, and so is an instruction that is cut short. -/
theorem test_decode_refuses :
    ((decode [0xF803, 0x7C00]).toOption.isNone && (decode [0xF801, 0xE000]).toOption.isNone && (decode [0xF802, 0xE000]).toOption.isNone &&
      (decode [0xF004]).toOption.isNone && (decode []).toOption.isNone) = true := by decide +kernel


/-! ## Scalar and control instructions -/

/-- Base with g2 = -7 and g3 = 2. -/
def neg : State := (base.wg 2 (-7)).wg 3 2

/-- R63 by hand: -7 and 2. -/
theorem test_scalar_two_source :
    ([Instr.add 1 2 3, .sub 1 2 3, .mul 1 2 3, .mulh 1 2 3, .div 1 2 3, .divu 1 2 3, .rem 1 2 3, .sel 1 2 3, .and 1 2 3, .or 1 2 3, .xor 1 2 3, .sra 1 2 3,
      .shl 1 2 3, .shr 1 2 3, .min 1 2 3, .max 1 2 3, .slt 1 2 3, .sltu 1 2 3].map (fun i => g i neg 1)) =
    [-5, -9, -14, -1, -3, 0x7FFFFFFFFFFFFFFC, -1, -7, 0, -5, -5, -2, -28, 0x3FFFFFFFFFFFFFFE, -7, 2, 1, 0] := by decide +kernel

theorem test_scalar_immediate :
    ([Instr.addImm 1 2 3, .subImm 1 2 3, .mulImm 1 2 3, .mulhImm 1 2 3, .divImm 1 2 0, .divuImm 1 2 0, .remImm 1 2 0, .selImm 0 2 3, .andImm 1 2 3, .orImm 1 2 3,
      .xorImm 1 2 3, .sraImm 1 2 65, .shlImm 1 2 64, .shrImm 1 2 63, .minImm 1 2 3, .maxImm 1 2 3, .sltImm 1 2 (-7), .sltuImm 1 3 (-1)].map (fun i => g i neg 1)) =
    [-4, -10, -21, -1, 0, 0, 0, 1, 1, -5, -6, -4, -7, 1, -7, 3, 0, 1] := by decide +kernel

/-- R63: the most negative number divided by -1 gives itself with remainder 0; SEL takes its second source where gD was 0. -/
theorem test_scalar_corners :
    (let s := (base.wg 2 (2 ^ 63)).wg 3 (-1)
     (g (.div 1 2 3) s 1, g (.rem 1 2 3) s 1, g (.mulh 1 2 3) s 1, g (.sel 1 2 3) (s.wg 1 0) 1, g (.add 0 2 3) s 0)) = (2 ^ 63, 0, 0, -1, 0) := by
  decide +kernel

theorem test_single_source :
    (g (.clz 1 3) base 1, g (.clz 1 0) base 1, g (.popc 1 2) neg 1, g (.mov 1 5) base 1, g (.li 1 (-2)) base 1, g (.addpc 1 (-1)) base 1) =
    (62, 64, 62, 5, -2, localVa 0xFFE) := by decide +kernel

/-- The program counter of core 0 after an instruction. -/
def pcOff (i : Instr) (s : State) : Word := ((after i s).core 0).pc - localVa 0x1000

/-- R68: each branch taken and not taken, with g2 = -7 and g3 = 2. -/
theorem test_branches_taken :
    ([Instr.beq 2 2 8, .bne 2 3 8, .blt 2 3 8, .bge 3 2 8, .bltu 3 2 8, .bgeu 2 3 (-4), .bqc 0 8].map (fun i => pcOff i neg)) = [16, 16, 16, 16, 16, -8, 16] := by
  decide +kernel
theorem test_branches_not_taken :
    ([Instr.beq 2 3 8, .bne 2 2 8, .blt 3 2 8, .bge 2 3 8, .bltu 2 3 8, .bgeu 3 2 8, .bqs 0 8].map (fun i => pcOff i neg)) = [2, 2, 2, 2, 2, 2, 2] := by
  decide +kernel

/-- BranchesAndQueueConditions: operands of which each condition holds, and operands of which it does not; -7 and 2 in g2 and g3. -/
theorem witness_BranchesAndQueueConditions :
    (let x := neg.rg 2
     let y := neg.rg 3
     (x ≠ y ∧ neg.rg 4 = neg.rg 4) ∧ (x.toInt < y.toInt ∧ ¬ y.toInt ≤ x.toInt) ∧ (y.toInt ≤ y.toInt ∧ ¬ y.toInt < x.toInt) ∧ (y.toNat ≤ x.toNat ∧ ¬ x.toNat < y.toNat)
       ∧ (¬ x.toNat ≤ y.toNat ∧ y.toNat < x.toNat) ∧ queueCond neg 0 0 = false
       ∧ queueCond (neg.modTile 0 (fun t => t.ws 5 1)) 0 15 = true ∧ neg.eager = true ∧ aCore.sample = none ∧ aCore.early = none
       ∧ pcOff (.bqs 3 8) (neg.modCore 0 (fun c => { c with sample := some 8 })) = 16 ∧ pcOff (.bqc 3 8) (neg.modCore 0 (fun c => { c with sample := some 8 })) = 2) := by
  decide +kernel

/-- A message for an inbox. -/
def aMsg (k : Nat) : Msg :=
  { val := ⟨BitVec.ofNat 512 k, 0⟩, active := false, cl := 0, unit := 0, sender := 1, kern := ⟨0, 7⟩, tenant := 0, vt := 0, tag := ⟨0, 0, 0⟩, det := 0,
    named := 0, window := none, lost := false }

/-- R70: BQS on a filled inbox, a full port and a semaphore. -/
theorem test_queue_conditions :
    (let s := base.modCore 0 (fun c => { c with inbox := List.replicate 16 (aMsg 1), rxPorts := [(1, [aMsg 1])], txPorts := [(3, List.replicate 4 (aMsg 1))] })
     let s := s.modTile 0 (fun t => t.ws 5 1)
     [Instr.bqs 0 8, .bqs 1 8, .bqs 3 8, .bqs 2 8, .bqs 9 8, .bqs 8 8, .bqs 15 8, .bqs 14 8].map (fun i => pcOff i s)) = [16, 16, 16, 2, 16, 2, 16, 2] := by
  decide +kernel

/-- R74, R75: targets and links; JumpsAndLinks: an even and an odd target of JR. -/
theorem test_jumps :
    (pcOff (.j (-2)) base, pcOff (.jal 4) base, g (.jal 4) base 1, pcOff (.jr 2 4) base, g (.jr 2 4) base 2) =
    (-4, 8, localVa 0x1002, localVa 0x40 - localVa 0x1000, localVa 0x1002) := by decide +kernel
theorem witness_JumpsAndLinks :
    (base.rg 4).getLsbD 0 = false ∧ (base.rg 3).getLsbD 0 = true ∧ cause (.jr 2 3) base = some 5 ∧ g (.jr 2 3) base 2 = 2 := by decide +kernel

/-- R78: REP in the idle state, and inside a body. -/
theorem test_rep :
    (let c := (after (.rep 5 3) base).core 0
     (c.lcnt, c.lbeg, c.lend, c.pc)) = (5, localVa 0x1002, 7, localVa 0x1002) := by decide +kernel
theorem witness_RepeatLoops_inside :
    (let s := base.modCore 0 (fun c => { c with lcnt := 2, lbeg := localVa 0x1000, lend := localVa 0x1008 })
     (s.core 0).lcnt ≠ 0 ∧ cause (.rep 5 3) s = some 1) := by decide +kernel

/-- Base with a word of the spec placed where the next step fetches it. -/
def placed (w : Nat) : State := base.withFetchWord 16 w

/-- R79: ADD g3,g4,g5 (0x01CA) in the skipping state. -/
theorem witness_RepeatLoops_skipped :
    (let s := (placed 0x01CA).modCore 0 (fun c => { c with lend := 3 })
     s.sys.shutdown = false ∧ s.moves = [] ∧ (s.core 0).canRun = true ∧ (pendingTrap (tick s) 0).isNone = true
       ∧ (match fetchInstr (tick s) with
          | .ok ((i, n), s1) => decide (i = .add 3 4 5) && n == 2 && (s1.core 0).skipping && !opIllegal (s1.modCore 0 (fun c => { c with ilen := n })) i
          | .error _ => false) = true
       ∧ (match step s with | .next t => (t.core 0).rg 3 == 3 && (t.core 0).pc == localVa 0x102 | _ => false) = true) := by decide +kernel

/-- R33, R34: the step at a placed word runs it. -/
theorem witness_StepRunsDecoded :
    (let s := placed 0x01CA
     s.sys.shutdown = false ∧ s.moves = [] ∧ (s.core 0).canRun = true ∧ (pendingTrap (tick s) 0).isNone = true
       ∧ (match decode [0x01CA] with | .ok (i, n) => decide (i = .add 3 4 5) && n == 2 | .error _ => false) = true
       ∧ (match fetchHalf (s.core 0).pc (tick s) with | .ok (h, s1) => h == 0x01CA && !(s1.core 0).skipping | .error _ => false) = true
       ∧ (match step s with | .next t => (t.core 0).rg 3 == localVa 0x45 | _ => false) = true) := by decide +kernel

/-- R86: the hypotheses of FetchReadsScratchpad hold at the first and at the last halfword of bank 0. -/
theorem witness_FetchReadsScratchpad :
    (let s := base
     (s.cluster 0).modes[0]? = some 1 ∧ (s.cluster 0).switching = [] ∧ s.quarCl.contains 0 = false ∧ mfind (s.core 0).icache (sramLoc 0 0x3FFFE) = none
       ∧ s.mem.poison = [] ∧ (match rightsM s.me (4032 + s.logicalNo 0) s with | .ok (w, _) => w.getLsbD 2 | .error _ => false) = true
       ∧ (match fetchHalf (localVa 0x3FFFE) { s with mem := s.mem.pokes [(sramLoc 0 0x3FFFE, 0x34), (sramLoc 0 0x3FFFF, 0x12)] } with
          | .ok (h, _) => h == 0x1234 | .error _ => false) = true) := by decide +kernel

/-- OnlyShutdownStops and StepRunsMove: a running module, one that has shut down, and a move of another agent. -/
theorem witness_OnlyShutdownStops :
    (let s := { base with sys := { base.sys with shutdown := true } }
     base.sys.shutdown = false ∧ s.sys.shutdown = true ∧ s.moves = []
       ∧ (match step s with | .fault f => decide (f = .shutDown) | _ => false) = true) := by decide +kernel
theorem witness_StepRunsMove :
    (let s := { base with moves := [.event (.attestationQuote 5)] }
     s.sys.shutdown = false ∧ hasWords (.attestationQuote 5) = false
       ∧ (match step s with | .next t => decide (t.sys.quotes.map (fun q => (q.nonce, q.measure)) = [(5, [0, 0])]) && t.moves == [] | _ => false) = true) := by decide +kernel
theorem witness_StepRunsMove_core :
    (let s := { placed 0x01CA with moves := [.core 0, .core 1] }
     let one := { s with moves := [.core 0] }
     let none_ := { s with moves := [.event (.add 3 4 5)] }
     hasWords (.add 3 4 5) = true
       ∧ (match step s with | .next t => (t.core 0).rg 3 == localVa 0x45 && decide (t.moves = [.core 1]) && t.cur == 0 | _ => false) = true
       ∧ (match step one, step { s with moves := [] } with | .next t, .next u => (t.core 0).pc == (u.core 0).pc && (u.core 0).rg 3 == localVa 0x45 | _, _ => false) = true
       ∧ (match step none_ with | .next t => (t.core 0).rg 3 == 3 && decide (t.moves = []) | _ => false) = true) := by decide +kernel

/-- DecodeAfterEncode: well-formed instructions with words; StepKeepsMemoryCanonical: a canonical memory that lists bytes. -/
theorem witness_DecodeAfterEncode :
    ([Instr.add 31 0 31, .li 1 (-1), .rep 0 127, .cp .copym true 31 31 31].all (fun i => hasWords i && wellFormed i
      && (match decode (encode i) with | .ok (j, n) => decide (j = i) && n == 2 * (encode i).length | .error _ => false))) = true := by decide +kernel
theorem witness_StepKeepsMemoryCanonical :
    (let s := placed 0x01CA
     MemoryInv s ∧ s.mem.cells.length = 2 ∧ (match step s with | .next t => t.mem.wf | _ => false) = true) := by
  unfold MemoryInv; decide +kernel


/-! ## Loads and stores -/

/-- Bytes of an integer, little-endian, at an offset of the local window of cluster 0. -/
def put (s : State) (off n v : Nat) : State := { s with mem := s.mem.pokes (writesAt (sramLoc 0 off) (leBytes n v)) }

/-- The integer of n bytes at an offset of the local window of cluster 0. -/
def got (s : State) (off n : Nat) : Nat := s.mem.nat (sramLoc 0 off) n

/-- Whether a computation answers a value. -/
def isOk {α : Type} (x : Except Stop α) : Bool :=
  match x with
  | .ok _ => true
  | .error _ => false

/-- A five-level page table whose page 0x10000 has a leaf entry and page 0x20000 an entry for regeneration; g8 holds 0x10000. Every right in domain 1. -/
def paged (leaf : Nat) : State :=
  let entry := fun (a e : Nat) => writesAt a (leBytes 8 e)
  { base.wg 8 0x10000 with
    mem := base.mem.pokes (entry 0x20000 0x30001 ++ entry 0x30000 0x40001 ++ entry 0x40000 0x50001 ++ entry 0x50000 0x60001 ++ entry 0x60008 leaf
      ++ entry 0x60010 0x40)
    dies := [(0, { Die.reset with ptroot := 0x20000, rgcnt := 1 })], rights := [(1, 0x1F), (4032, 0x1F)] }

/-- Leaf entries of frame 0x70000, domain 1: strongly ordered and typed, and unordered. -/
def orderedPage : State := paged 0x0001000000070013
def unorderedPage : State := paged 0x000100000007000B

/-- Base with 0x8081828384858687 at offset 0x40, where g4 points. -/
def loaded : State := put base 0x40 8 0x8081828384858687

theorem test_loads :
    ([Instr.ldB 1 4 0, .ldH 1 4 0, .ldW 1 4 0, .ldD 1 4 0, .lduB 1 4 7, .lduH 1 4 3, .lduW 1 4 1].map (fun i => g i loaded 1)) =
    [0xFFFFFFFFFFFFFF87, 0xFFFFFFFFFFFF8687, 0xFFFFFFFF84858687, 0x8081828384858687, 0x80, 0x8081, 0x80818283] := by decide +kernel

theorem test_stores :
    ([Instr.stB 4 4 1, .stH 4 4 1, .stW 4 4 1, .stD 4 4 1].map (fun i => (got (after i loaded) 0x40 8, got (after i loaded) 0x48 8))) =
    [(0x8081828384854087, 0), (0x8081828300408687, 0), (0x0000004084858687, 0), (0x8081828384858687, 0xFFFFFE0000000040)] := by decide +kernel

/-- ScalarLoads and ScalarStores: loads and stores at the last place of bank 0 of each size. -/
theorem witness_ScalarLoads :
    (let s := base.wg 4 (localVa 0x3FFF8)
     [1, 2, 4, 8].all (fun n => (s.rg 4 + 0 * word n).toNat % n == 0 && isOk (loadBytes s.me (s.rg 4 + 0 * word n) n s)) = true
       ∧ (s.core 0).storeBuf = []) := by decide +kernel
theorem witness_ScalarStores :
    (let s := base.wg 4 (localVa 0x3FFF8)
     [1, 2, 4, 8].all (fun n => isOk (storeBytes s.me .store (s.rg 4) (leBytes n (s.rg 5).toNat) none false s)
       && (match resolve s.me .store (s.rg 4) n s with
           | .ok ([p], _) => decide (p.place = .mem (sramLoc 0 0x3FFF8)) && p.kind != 2 && !p.repl
           | _ => false)) = true ∧ s.eager = true) := by decide +kernel

/-- LinksUp, ReadsNow, Quiet and Settled hold of base, and of a base whose links have trained; a link of the latter that is down. -/
theorem witness_settled :
    (∀ m, linkDown base m = false) ∧ base.eager = true ∧ base.past.length ≤ aCore.acq ∧ aCore.storeBuf = [] ∧ base.reqs = [] ∧ aCore.uoDirty = [] ∧ aCore.uoSeen = []
      ∧ base.seqOrder = [] ∧ linkDown { base with sys := { base.sys with bring := 6 } } 4 = true
      ∧ linkDown { base with sys := { base.sys with bring := 6 }, links := [(4, { Link.reset with up := true })] } 4 = false :=
  ⟨fun _ => rfl, by decide +kernel⟩

/-- ScratchpadIsMemory: one byte, and a sector at the end of bank 0, to read and to write, in a step that performs its requests and one that does not. -/
theorem witness_ScratchpadIsMemory :
    (let s := base
     (s.cluster 0).modes[0]? = some 1 ∧ (s.cluster 0).switching = [] ∧ s.quarCl.contains 0 = false ∧ (s.cluster 0).rings = [] ∧ s.mem.poison = []
       ∧ (match rightsM s.me (4032 + s.logicalNo 0) s with | .ok (w, _) => w.getLsbD 0 && w.getLsbD 1 | .error _ => false) = true
       ∧ (match loadSector (localVa 0x3FFC0) (put s 0x3FFFF 1 9) with | .ok (x, _) => laneOf x.bits 8 63 == 9 | .error _ => false) = true
       ∧ (let t := after (.stB 5 4 0) { s with eager := false }
          t.mem = s.mem ∧ ((t.core 0).storeBuf.map (fun e => (e.writes, e.release))) = [([(sramLoc 0 0x40, 5)], false)])) := by decide +kernel

/-- WindowIsMemoryForEngines: an engine of tenant 0, and the device, at the last byte of bank 0 in scratchpad mode and at the first of bank 1 in FIFO mode. -/
theorem witness_EngineReaches :
    (let s := base.modCluster 0 (fun c => { c with modes := c.modes.set 1 2 })
     let w := engineWho (some 0) 0
     [(0x3FFFF, 1), (0x40000, 2)].all (fun p => decide (regionOf s 0 (localVa p.1) = .window 0 p.1 4032) && (s.cluster 0).modes[p.1 / 2 ^ 18]? == some p.2
         && (localVa p.1).toNat % 65536 == p.1 % 65536) = true
       ∧ (s.rightsOf 0 4032).getLsbD 0 = true ∧ (s.rightsOf 0 4032).getLsbD 1 = true ∧ s.quarCl = [] ∧ (s.cluster 0).switching = [] ∧ (s.cluster 0).rings = []
       ∧ s.mem.poison = [] ∧ s.sys.bring = 0
       ∧ (match storeBytes w .store (localVa 0x40000) [7] none false s with
          | .ok (_, t) => (match loadBytes (engineWho none 0) (localVa 0x40000) 1 t with | .ok (bs, _) => bs == [7] | .error _ => false)
          | .error _ => false) = true) := by decide +kernel

/-- AccessChecks: an address one past a multiple of each size; and a tenant without rights at aligned addresses. -/
theorem witness_AccessChecks_align :
    (let s := (base.wg 4 (localVa 0x41)).modCore 0 (fun c => { c with pop := none })
     [Instr.ldH 1 4 0, .lduH 1 4 0, .stH 1 4 0, .ldW 1 4 0, .lduW 1 4 0, .stW 1 4 0, .ldD 1 4 0, .stD 1 4 0, .lda 1 4 0, .stl 1 4 0, .stf 1 4 0, .ldf 1 4 0, .ldv 1 4 0,
      .stv 1 4 0, .aadd 1 4 5, .aand 1 4 5, .aor 1 4 5, .axor 1 4 5, .amin 1 4 5, .amax 1 4 5, .aminu 1 4 5, .amaxu 1 4 5, .aswp 1 4 5, .acas 1 4 5, .waita 1 4 5,
      .afadd 1 4 5].all (fun i => cause i s == some 5) = true) := by decide +kernel
theorem witness_AccessChecks_rights :
    (let s := { base with rights := [] }
     (match rightsM s.me (4032 + s.logicalNo 0) s with | .ok (r, _) => !r.getLsbD 0 && !r.getLsbD 1 | .error _ => false) = true
       ∧ [Instr.ldB 1 4 0, .lduB 1 4 1, .ldH 1 4 0, .lduH 1 4 1, .ldW 1 4 0, .lduW 1 4 1, .ldD 1 4 1, .stB 1 4 0, .stH 1 4 0, .stW 1 4 0, .stD 1 4 0].all
           (fun i => cause i s == some 3) = true) := by decide +kernel

/-- R102: a sector and its tag go to vD and come back. -/
theorem test_sector_access :
    (let s := (base.wv 3 ⟨0x1234, 0x1000⟩).wg 5 (localVa 0x80)
     let t := after (.stv 3 5 1) s
     (got t 0xC0 8, t.mem.tag (sramLoc 0 0xC0), (((after (.ldv 6 5 1) t).core 0).rv 6))) = (0x1234, 0x1000, ⟨0x1234, 0x1000⟩) := by decide +kernel
theorem witness_SectorAccess :
    isOk (loadSector (localVa 0x3FFC0) base) = true ∧ isOk (storeSector (localVa 0x3FFC0) ⟨1, 0x1000⟩ base) = true
      ∧ (let s := base.wg 4 (localVa 0x3FF80)
         s.rg 4 + 1 * 64 = localVa 0x3FFC0 ∧ 0x3FFC0 % 64 = 0
           ∧ (match rightsM s.me (4032 + s.logicalNo 0) s with | .ok (w, _) => w.getLsbD 0 && w.getLsbD 1 && w.getLsbD 3 | .error _ => false) = true) := by decide +kernel

/-- A run of n elements of capacity cap at offset 0x400, where g10 points; the cursor in g11. -/
def run (n cap : Nat) (cur : Word) : State := ((put base 0x400 8 (n + cap * 2 ^ 32)).wg 10 (localVa 0x400)).wg 11 cur

/-- R105 to R107: 16 F32 elements, of which elements 1 and 15 are not zero, are appended and expanded again. -/
theorem test_runs :
    (let x : VVal := ⟨lanes 32 (fun j => if j = 1 then 0x11 else if j = 15 then 0x22 else 0), 0x1000⟩
     let t := after (.stvp 10 2) ((run 16 256 0).wv 2 x)
     let u := after (.ldvx 3 10) (t.wg 11 (cursor 0 0 0x1000))
     (got t 0x402 2, got t 0x408 2, got t 0x448 4, got t 0x44C 4, t.rg 11, (u.core 0).rv 3, u.rg 11)) =
    (2, 0x8002, 0x11, 0x22, cursor 16 2 0x1000, ⟨lanes 32 (fun j => if j = 1 then 0x11 else if j = 15 then 0x22 else 0), 0x1000⟩, cursor 16 2 0x1000) := by
  decide +kernel

/-- RunIsExpanded: past the end, an all-zero piece, and a piece with values. RunIsAppended: a run with room and one without. -/
theorem witness_RunIsExpanded :
    (codeWidth (tagCode 0x1000) = some 32
       ∧ ((((after (.ldvx 3 10) (run 16 256 (cursor 16 0 0x1000))).core 0).rv 3) = ⟨0, 0x1000⟩)
       ∧ (((after (.ldvx 3 10) (run 16 256 (cursor 0 0 0x1000))).rg 11) = cursor 16 0 0x1000)
       ∧ (((after (.ldvx 3 10) (put (run 17 256 (cursor 15 3 0x1000)) 0x408 3 0x18000)).rg 11) = cursor 17 5 0x1000)
       ∧ isOk (loadBytes base.me (localVa 0x400) 2 base) = true) := by decide +kernel
theorem witness_RunIsAppended :
    (let x : VVal := ⟨lanes 32 (fun _ => 7), 0x1000⟩
     (match packRun 10 2 ((run 16 256 0).wv 2 x) with | .ok (.next, _) => true | _ => false) = true
       ∧ (match packRun 10 2 ((run 16 76 0).wv 2 x) with | .ok (.trapped t, s) => decide (t.cause = .packOverrun) && s.rg 11 == cursor 1 1 0x1000 | _ => false) = true
       ∧ cause (.stvp 10 2) ((run 16 76 0).wv 2 x) = some 6)
    ∧ (let s := (run 17 256 (cursor 15 3 0x1000)).wv 2 ⟨lanes 32 (fun j => if j = 15 then 7 else 0), 0x1000⟩
       let t := after (.stvp 10 2) s
       (got t 0x400 2, got t 0x402 2, got t 0x404 4, got t 0x454 4, got t 0x458 8) = (17, 4, 256, 7, 0)
         ∧ (t.mem.tag (sramLoc 0 0x400), t.mem.tag (sramLoc 0 0x440)) = (0x5000, 0x5000))
    ∧ (let s := (run 17 256 (cursor 15 3 0x1000)).wv 2 ⟨lanes 32 (fun j => if j = 15 then 7 else 0), 0x1000⟩
       s.eager = true ∧ (s.cluster 0).rings = [] ∧ pairBase 10 = true ∧ s.rg 10 = localVa 0x400 ∧ got s 0x400 2 = 17 ∧ got s 0x404 4 = 256
         ∧ fld (s.rg 11) 63 48 = 0 ∧ fld (s.rg 11) 15 0 < 17 ∧ runHead 17 + ceilDiv ((3 + 1) * 32) 8 ≤ 256 ∧ (s.rv 2).tag = 0x1000
         ∧ (after (.stvp 10 2) s).rg 11 = cursor 16 4 0x1000) := by decide +kernel

/-! ## Ordering, futures and atomics -/

theorem test_acquire_release :
    (g (.lda 1 4 0) loaded 1, got (after (.stl 5 4 1) loaded) 0x48 8, g (.waita 1 4 5) (put base 0x40 8 5) 1, ((after (.waita 1 4 5) base).core 0).wait) =
    (0x8081828384858687, 5, 5, .sector (sramLoc 0 0x40)) := by decide +kernel
theorem witness_AcquireAndRelease :
    (let s := unorderedPage
     (match resolve s.me .load (s.rg 8) 8 s with | .ok (ps, _) => ps.all (fun p => p.kind != 2 || p.repl) | .error _ => true) = false
       ∧ cause (.lda 1 8 0) s = some 3 ∧ cause (.stl 1 8 0) s = some 3
       ∧ (match resolve base.me .store (base.rg 4) 8 base with
          | .ok (ps, s0) => ps.all (fun p => p.kind != 2 || p.repl) && isOk (ringsFree ps s0) && isOk (noDead ps s0) && isOk (noPoison base.me ps s0)
              && isOk (writePieces base.me none true ps (leBytes 8 5) s0) && isOk (readPieces base.me ps s0)
          | .error _ => false) = true ∧ inLocalWin (base.rg 4) = true) := by decide +kernel

/-- R108, R109: a full word is read, an empty one is deferred, and turned back when the slice has 64; an answer in the pop buffer completes. -/
theorem test_futures :
    (let s := orderedPage
     let e := { s with mem := s.mem.pokes (writesAt 0x70008 (leBytes 8 0x8000000000000000)) }
     let full := { e with defers := List.replicate 64 ⟨homeSlice 0x10008, 0x70008, none⟩ }
     (g (.ldf 1 8 0) (after (.stf 5 8 0) s) 1, ((after (.ldf 1 8 1) e).core 0).wait, (after (.ldf 1 8 1) e).defers,
      ((after (.ldf 1 8 1) full).core 0).wait, g (.ldf 1 8 1) (e.modCore 0 (fun c => { c with pop := some (.val 9) })) 1)) =
    (5, .future 0x70008, [⟨homeSlice 0x10008, 0x70008, some 0⟩], .futureRetry 0x70008 100, 9) := by decide +kernel
theorem witness_Futures :
    (let s := orderedPage
     (s.core 0).pop = none ∧ (s.core 0).storeBuf = [] ∧ s.eager = true
       ∧ (match futurePlace (s.rg 8) .load s with | .ok ((p, loc), s1) => loc == 0x70000 && p.kind == 0 && isOk (noPoison s.me [p] s1) | .error _ => false) = true
       ∧ isOk (futurePlace (s.rg 8) .store s) = true) := by decide +kernel

/-- R134: the word holds 12 and gB 10 (AFADD: 1.5 + 2.5); old value in gD. -/
theorem test_atomics :
    (let s := ((put base 0x40 8 12).wg 5 10).wg 1 12
     [Instr.aadd 1 4 5, .aand 1 4 5, .aor 1 4 5, .axor 1 4 5, .amin 1 4 5, .amax 1 4 5, .aminu 1 4 5, .amaxu 1 4 5, .aswp 1 4 5, .acas 1 4 5, .acas 2 4 5].map
       (fun i => got (after i s) 0x40 8)) = [22, 8, 14, 6, 10, 12, 10, 12, 10, 10, 12] := by decide +kernel
theorem test_atomic_add_f32 :
    (let s := (put base 0x40 4 0x3FC00000).wg 5 0x40200000
     (got (after (.afadd 1 4 5) s) 0x40 4, g (.afadd 1 4 5) s 1)) = (0x40800000, 0x3FC00000) := by decide +kernel
theorem witness_Atomics :
    (let s := base
     (match resolve s.me .atomic (s.rg 4) 8 s with
      | .ok ([p], s1) => decide (p.place = .mem (sramLoc 0 0x40)) && p.kind != 2 && !p.repl && isOk (ringsFree [p] s1) | _ => false) = true
       ∧ (s.rg 4).toNat % 8 = 0 ∧ locPoisoned s (sramLoc 0 0x40) = false ∧ (s.core 0).storeBuf = [] ∧ (s.core 0).ctx.det = 0 ∧ s.holdsRecord (.net 0) = false
       ∧ tagCode (s.mem.tag (sramLoc 0 0x40)) = 0
       ∧ (let t := after (.aadd 1 4 5) { s with eager := false }
          (t.reqs.map (fun r => (r.kind, r.loc, r.d, r.done))) = [(.atomic .add, sramLoc 0 0x40, 1, none)] ∧ (t.core 0).wait = .request
            ∧ pcOff (.aadd 0 4 5) { s with eager := false } = 2)) := by decide +kernel

/-- A request of core 0 on its way. -/
def inFlight : State := after (.aadd 1 4 5) { put base 0x40 8 12 with eager := false }

/-- StepRunsDecoded: a core of whose retired requests a failed path has cut one off runs ADD g3,g4,g5, which leaves it where it is. (FENCE 5, before which it would
wait, takes a free choice for such a request, so no test evaluates it.) -/
theorem witness_StepRunsDecoded_held :
    (let off := inFlight.reqs.map (fun (r : Req) => { r with loc := sramLoc 16 0, d := 0 })
     let at_ := fun (i : Instr) => { base.withFetchWord 16 ((encode i).headD 0).toNat with reqs := off, sys := { base.sys with bring := 6 } }
     off.all (fun r => r.pendingOf 0 && r.cut (at_ (.fence 5))) = true
       ∧ (match step (at_ (.add 3 4 5)) with | .next t => (t.core 0).rg 3 == localVa 0x45 && t.reqs.length == 1 | _ => false) = true) := by decide +kernel

/-- RequestsOnTheirWay: performed at its home, its reply taken, and a path that has failed. -/
theorem witness_RequestsOnTheirWay :
    (let s := inFlight
     let p := after (.atomicPerform 0) s
     let t := after (.requestReply 0) p
     (got p 0x40 8, (t.core 0).rg 1, t.reqs.length, (t.core 0).wait)) = (17, 12, 0, .none)
    ∧ (replyFor (after (.atomicPerform 0) inFlight) 0).isSome = true
    ∧ (inFlight.reqs.length = 1 ∧ inFlight.reqs.all (fun r => !reqPathDown inFlight r && r.d == 1 && r.core == some 0 && !r.repl && r.done.isNone) = true
       ∧ locPoisoned inFlight (sramLoc 0 0x40) = false
       ∧ inFlight.holdsRecord (.net 0) = false)
    ∧ (let s := { inFlight with now := 2 ^ 20 + 100, reqs := inFlight.reqs.map (fun (r : Req) => { r with loc := sramLoc 16 0 }), sys := { inFlight.sys with bring := 6 } }
       s.reqs.length = 1 ∧ s.reqs.all (fun r => reqPathDown s r && r.since == 100 && r.d == 1 && r.core == some 0 && r.done.isNone) = true)
    ∧ (let s := fun (bring now : Nat) => { base.modCore 0 (fun c => { c with wait := .path (localVa 0x40) 0 1 100 }) with sys := { base.sys with bring := bring }, now := now }
       pathDown (s 6 0) 0 1 = true ∧ pathDown (s 0 0) 0 1 = false ∧ ((after (.requestTimeout 0) (s 0 100)).core 0).wait = .none
         ∧ cause (.requestTimeout 0) (s 6 (2 ^ 20 + 100)) = some 16 ∧ cause (.requestTimeout 0) (s 6 (2 ^ 20 + 99)) = none
         ∧ aCore.fetchWait = false ∧ mfind (base.cluster 0).mailbox 0 = none) := by decide +kernel

/-- MemorySystemStepsAndFence: a store that waits, an update in the sequencer's order, and the three waits. -/
theorem witness_MemorySystemStepsAndFence :
    (let s := after (.stB 5 4 0) { base with eager := false }
     canDrain s 0 0 = true ∧ got (after (.storeBufferDrain 0 0) s) 0x40 1 = 5 ∧ got (after (.fence 5) s) 0x40 1 = 5
       ∧ (s.core 0).storeBuf.all (fun e => !e.uo && !e.repl && e.sent.isNone) = true)
    ∧ (let s := { base with seqOrder := [⟨0, [(0x100, 7)], 0, []⟩] }
       (after (.replicaUpdateApply 3) s).mem.peek (replicaLoc 3 0x100) = 7)
    ∧ (let w := fun (x : Wait) => base.modCore 0 (fun c => { c with wait := x })
       ((after (.waitaWake 0) (w (.sector 5))).core 0).wait = .none ∧ ((after (.ldfReissue 0) { w (.futureRetry 5 0) with now := 256 }).core 0).wait = .none
         ∧ ((after (.ldfReissue 0) { w (.futureRetry 5 0) with now := 255 }).core 0).wait = .futureRetry 5 0)
    ∧ pathDown base 3 4 = false
    ∧ (after (.ldfCancelNotice 2 0) { base with defers := [⟨2, 8, none⟩] }).defers = [] := by decide +kernel


/-! ## Number formats, conversions and vectors -/

/-- A vector register of F32 lanes, the first ones given and the others 0. -/
def f32v (l : List Nat) : VVal := ⟨lanes 32 (fun j => l.getD j 0), 0x1000⟩

/-- A vector register of core 0 after an instruction. -/
def v (i : Instr) (s : State) (r : VReg) : VVal := ((after i s).core 0).rv r

/-- Elements of a vector register. -/
def elems (x : VVal) (w n : Nat) : List Nat := (below n).map (laneOf x.bits w)

/-- The worked example under R160: N8 at scale -3 in v2, widened to v4, narrowed to N4 at scale -2 in v6. -/
def wide : State := after (.vtag 6 2 5) (after (.vwid 4 2 0) ((base.wv 2 ⟨0x017FC438, 0x20FD⟩).wg 5 0x30FE))

theorem test_widening : (elems ((wide.core 0).rv 4) 32 5, ((wide.core 0).rv 4).tag) = ([0x3E000000, 0xBEC00000, 0x42700000, 0x39800000, 0], 0x1000) := by
  decide +kernel
theorem test_narrowing_N4 :
    (let t := after (.vn4S 6 4 0) wide
     ((t.core 0).rv 6, g (.vgtag 3 6) t 3)) = (⟨0x07B1, 0x30FE⟩, 0x30FE) := by decide +kernel

/-- R148 to R152: 1.5, 1000 (above the largest N8 and N8S numbers, 480 and 448) and -0, narrowed to elements 0 to 2. -/
theorem test_narrowings :
    (let s := (base.wv 2 (f32v [0x3FC00000, 0x447A0000, 0x80000000])).wv 3 ⟨0, 0x1000⟩
     [(Instr.vnb16 3 2 0, 16), (.vnh16S 3 2 0, 16), (.vnh16X 3 2 0, 16), (.vn8S 3 2 0, 8), (.vn8X 3 2 0, 8), (.vn8wS 3 2 0, 8), (.vn4S 3 2 0, 4), (.vni8S 3 2 0, 8)].map
       (fun p => (elems (v p.1 s 3) p.2 3, (v p.1 s 3).tag))) =
    [([0x3FC0, 0x447A, 0x8000], 0x1100), ([0x3E00, 0x63D0, 0x8000], 0x1200), ([0x3E00, 0x63D0, 0x8000], 0x1200), ([0x3C, 0x7F, 0x80], 0x2000),
      ([0x3C, 0x7F, 0x80], 0x2100), ([0x3E, 0x64, 0x80], 0x2200), ([3, 7, 8], 0x3000), ([2, 127, 0], 0x4000)] := by decide +kernel

/-- Narrowings: a source that is not F32, a refused destination tag, and a NaN in lane 3 for the formats without one. -/
theorem witness_Narrowings :
    (let all := [Instr.vnb16 3 2 0, .vnh16S 3 2 0, .vnh16X 3 2 0, .vn8S 3 2 0, .vn8X 3 2 0, .vn8wS 3 2 0, .vn4S 3 2 0, .vni8S 3 2 0]
     let nan := base.wv 2 (f32v [0, 0, 0, 0x7FC00000])
     all.all (fun i => cause i (base.wv 2 ⟨0, 0⟩) == some 7 && cause i ((base.wv 2 (f32v [])).wv 3 ⟨0, 0x7700⟩) == some 7) = true
       ∧ [Instr.vn8S 3 2 0, .vn4S 3 2 0, .vni8S 3 2 0].all (fun i => cause i nan == some 9) = true
       ∧ [Instr.vnb16 3 2 0, .vn8X 3 2 0].all (fun i => cause i nan == none) = true
       ∧ (match ((after (.vn8S 3 2 0) nan).core 0).status with | .trapped r => decide (r.lane = 3) && r.data == 8 | _ => false) = true) := by decide +kernel

/-- RoundingToNearestEven: 2.5 and 3.5 units of the last place, and codes of each format. -/
theorem witness_RoundingToNearestEven :
    shiftRne 5 1 = 2 ∧ shiftRne 7 1 = 4 ∧ shiftRne 9 2 = 2
    ∧ [fmtF32, fmtB16, fmtH16, fmtN8, fmtN8S, fmtN8W, fmtN4].all (fun f => [0, 1, 2 ^ (f.width - 1), 2 ^ (f.width - 1) + 5].all (fun c =>
        decide (f.value c ≠ .nan) && f.narrow false (f.value c) == c)) = true := by decide +kernel

/-- The examples under R159: VFI32 of -2.5 is -2, VIF32 of 0x01000001 is a tie to even. -/
theorem test_integer_conversions :
    (elems (v (.vfi32 3 2) (base.wv 2 (f32v [0xC0200000, 0x7F800000])) 3) 32 2, elems (v (.vif32 3 2) (base.wv 2 ⟨0x01000001, 0⟩) 3) 32 1) =
    ([0xFFFFFFFE, 0x7FFFFFFF], [0x4B800000]) := by decide +kernel

/-- WideningAndIntegers: the last part of an N4 register, a part beyond it, a raw register, and NaN lanes. -/
theorem witness_WideningAndIntegers :
    (let s := base.wv 2 ⟨0, 0x3000⟩
     codeWidth (tagCode 0x3000) = some 4 ∧ cause (.vwid 3 2 7) s = none ∧ cause (.vwid 3 2 4) (base.wv 2 ⟨0, 0x2000⟩) = some 7 ∧ cause (.vwid 3 2 0) base = some 7
       ∧ cause (.vfi32 3 2) (base.wv 2 (f32v [0x7FC00000])) = some 9 ∧ cause (.vfi32 3 2) base = some 7 ∧ cause (.vif32 3 2) (base.wv 2 (f32v [])) = some 7) := by
  decide +kernel

/-- R160, R161: scales add; masked nonzero elements go to the front and back. -/
theorem test_tags_and_packing :
    (let s := ((base.wv 2 ⟨lanes 8 (fun j => if j = 1 then 7 else if j = 5 then 9 else 0), 0x2003⟩).wg 5 0x62).wg 6 (-4)
     let p := after (.vpackz 3 2 5) s
     ((v (.vscl 3 2 6) s 3).tag, (v (.vtag 3 2 5) s 3).tag, elems (v (.vpackz 3 2 5) s 3) 8 6, elems (v (.vexpz 4 3 6) (p.wg 6 0x22) 4) 8 6)) =
    (0x20FF, 0x0062, [7, 9, 0, 0, 0, 0], [0, 7, 0, 0, 0, 9]) := by decide +kernel

/-- TagsAndPacking: scales at both ends of the range, tags that VTAG takes and refuses, formats that VPACKZ and VEXPZ take and refuse. -/
theorem witness_TagsAndPacking :
    (let s := base.wv 2 ⟨0, 0x207F⟩
     cause (.vscl 3 2 0) s = none ∧ cause (.vscl 3 2 1) (s.wg 1 1) = some 7 ∧ cause (.vscl 3 2 1) (s.wg 1 (-256)) = some 7
       ∧ cause (.vtag 3 2 1) (s.wg 1 0x5100) = none ∧ cause (.vtag 3 2 1) (s.wg 1 0x5101) = some 7 ∧ cause (.vtag 3 2 1) (s.wg 1 65536) = some 7
       ∧ codeWidth (tagCode 0x207F) = some 8 ∧ [Instr.vpackz 3 2 1, .vexpz 3 2 1].all (fun i => cause i s == none) = true
       ∧ [0x3000, 0x5000].all (fun t => [Instr.vpackz 3 2 1, .vexpz 3 2 1].all (fun i => cause i (base.wv 2 ⟨0, t⟩) == some 7)) = true) := by decide +kernel

/-- R170 to R173: 1.5 and 2 in lane 0, and a NaN in lane 1 of the second source. -/
theorem test_float_lanes :
    (let s := ((base.wv 2 (f32v [0x3FC00000, 0x3F800000])).wv 3 (f32v [0x40000000, 0x7FC00000])).wv 4 (f32v [0x3F800000, 0])
     [Instr.vfadd 5 2 3, .vfsub 5 2 3, .vfmul 5 2 3, .vfmin 5 2 3, .vfmax 5 2 3, .vfcmp 5 2 3].map (fun i => elems (v i s 5) 32 2)
       ++ [elems (v (.vfma 4 2 3) s 4) 32 2]) =
    [[0x40600000, 0x7FC00000], [0xBF000000, 0x7FC00000], [0x40400000, 0x7FC00000], [0x3FC00000, 0x3F800000], [0x40000000, 0x3F800000], [1, 8],
      [0x40800000, 0x7FC00000]] := by decide +kernel

/-- R173, R175: VFMAT traps on the NaN in lane 1, and overflows in lane 0; VFRED sums 1 to 16 in its tree. -/
theorem test_fma_trapping :
    (let s := ((base.wv 2 (f32v [0x3F800000, 0x3F800000])).wv 3 (f32v [0x40000000, 0x7FC00000])).wv 4 (f32v [])
     let big := (base.wv 2 (f32v [0x7F7FFFFF])).wv 3 (f32v [0x40000000])
     (cause (.vfmat 4 2 3) s, cause (.vfmat 4 2 3) (big.wv 4 (f32v [])),
      match ((after (.vfmat 4 2 3) s).core 0).status with | .trapped r => (r.lane.toNat, r.data.toNat) | _ => (0, 0))) =
    (some 9, some 10, (1, 2)) := by decide +kernel
theorem test_reduction :
    (elems (v (.vfred 3 2) (base.wv 2 ⟨lanes 32 (fun j => rneF32 (numOfInt (j + 1))), 0x1000⟩) 3) 32 2, (v (.vfmat 4 2 3) (((base.wv 2 (f32v [0x3F800000])).wv 3
      (f32v [0x40000000])).wv 4 (f32v [])) 4).bits) = ([0x43080000, 0], 0x40000000) := by decide +kernel

/-- FloatLanes: sources that are F32, and sources that are not. -/
theorem witness_FloatLanes :
    (let s := (base.wv 2 (f32v [])).wv 3 (f32v [])
     tagCode ((s.core 0).rv 2).tag = 0x10 ∧ tagCode ((s.core 0).rv 3).tag = 0x10
       ∧ [Instr.vfadd 5 2 4, .vfsub 5 2 4, .vfmul 5 4 3, .vfmin 5 2 4, .vfmax 5 2 4, .vfcmp 5 4 3, .vfma 4 2 3, .vfmat 4 2 3, .vfred 5 4].all
            (fun i => cause i s == some 7) = true) := by decide +kernel

/-- R176, R177: bytes 0xF0 and 0x21 (a shift by 1, right logical), and raw words. -/
theorem test_integer_lanes :
    (let s := (base.wv 2 ⟨0xF0, 0x4000⟩).wv 3 ⟨0x21, 0x4000⟩
     let r := (base.wv 2 ⟨0xF0000000, 0⟩).wv 3 ⟨0x44, 0⟩
     ([Instr.vadd 5 2 3, .vmul 5 2 3, .vminu 5 2 3, .vmaxu 5 2 3, .vsh 5 2 3, .vand 5 2 3, .vor 5 2 3, .vxor 5 2 3].map (fun i => elems (v i s 5) 8 1),
      elems (v (.vsh 5 2 3) r 5) 32 1)) = ([[0x11], [0xF0], [0x21], [0xF0], [0x78], [0x20], [0xF1], [0xD1]], [0xFF000000]) := by decide +kernel

/-- The worked example under R179: the digits of "Claim 4 cites 17". -/
theorem test_first_digit :
    (let text : Nat := leNat [0x43, 0x6C, 0x61, 0x69, 0x6D, 0x20, 0x34, 0x20, 0x63, 0x69, 0x74, 0x65, 0x73, 0x20, 0x31, 0x37]
     let s := (base.wv 1 ⟨BitVec.ofNat 512 text, 0⟩).wv 2 ⟨0x03FF000000000000, 0⟩
     g (.vfind 3 3 0) (after (.vbcast 0 0 0) (after (.vcmpb 3 1 2) s)) 3) = 0xC040 := by decide +kernel

/-- R184 to R186: index bytes 1, 0x80 and 0x41; broadcasts; lane 15. -/
theorem test_bytes :
    (let s := ((base.wv 2 ⟨0xBBAA, 0⟩).wv 3 ⟨0x418001, 0⟩).wg 5 0x8001
     (elems (v (.vperm 5 2 3) s 5) 8 3, [0, 1, 2, 3, 4, 5, 6].map (fun w => ((v (.vbcast 5 5 w) s 5).tag, laneOf (v (.vbcast 5 5 w) s 5).bits 16 31)),
      g (.vext 1 2 15) (s.wv 2 ⟨BitVec.ofNat 512 (0x89ABCDEF * 2 ^ 480), 0⟩) 1)) =
    ([0xBB, 0, 0xBB], [(0, 0x0101), (0x4000, 0x0101), (0, 0x8001), (0x1100, 0x8001), (0, 0), (0x1000, 0), (0, 0)], 0x89ABCDEF) := by decide +kernel

/-- IntegerLanesAndBytes: tags that the integer lanes and VFIND refuse. -/
theorem witness_IntegerLanesAndBytes :
    (let s := base.wv 2 ⟨0, 0x3000⟩
     [Instr.vadd 5 2 3, .vmul 5 2 3, .vminu 5 2 3, .vmaxu 5 2 3, .vsh 5 2 3, .vfind 5 2 3].all (fun i => cause i s == some 7) = true
       ∧ codeWidth (tagCode 0x4000) = some 8 ∧ cause (.vfind 5 2 3) (base.wv 2 ⟨0, 0x5000⟩) = some 7) := by decide +kernel

/-- R180, R181, by hand: the doublewords 1 to 8. -/
theorem test_hash :
    g (.vhash 3 2) (base.wv 2 ⟨lanes 64 (fun k => k + 1), 0⟩) 3 = 0x333231D6B4F83DC := by decide +kernel
/-- R182: state 5 in lane 1, byte 0x41 with the start bit: 11 under the mask 0xA. -/
theorem test_automaton :
    (let s := ((put base (0x4000 + 64 * 0x41 + 8) 8 0xA).wg 5 (localVa 0x4000)).wv 2 ⟨BitVec.ofNat 512 (0x141 * 2 ^ 64), 0⟩
     elems (v (.vnfa 3 2 5) (s.wv 3 ⟨BitVec.ofNat 512 (5 * 2 ^ 64), 0x1000⟩) 3) 64 3) = [0, 0xA, 0] := by decide +kernel
theorem witness_HashingAndAutomata :
    (let s := base.wg 5 (localVa 0x3C000)
     s.rg 5 = localVa 0x3C000 ∧ (s.core 0).storeBuf = [] ∧ s.mem.poison = [] ∧ (s.cluster 0).modes[(0x3C000 + 16383) / 2 ^ 18]? = some 1
       ∧ cause (.vnfa 3 2 5) s = none ∧ cause (.vnfa 3 2 3) s = some 5 ∧ cause (.vnfa 3 2 0) s = some 3) := by decide +kernel


/-! ## Rings and semaphores -/

/-- A valid descriptor at offset 0x800: four slots of 64 bytes from 0x2000, HEAD and TAIL as given; g10 holds its address. -/
def described (head tail : Nat) : State :=
  (put (put (put base 0x800 8 (0x2000 + 6 * 2 ^ 22 + 2 * 2 ^ 26)) 0x808 4 head) 0x80C 4 tail).wg 10 (localVa 0x800)

/-- The same with h1 bound to it. -/
def ringed (head tail : Nat) : State := after (.rbind 1 10 0) (described head tail)

theorem test_rbind :
    (((ringed 0 0).core 0).rh 1, ((ringed 0 0).cluster 0).rings, ((after (.rbind 1 0 0) (ringed 0 0)).cluster 0).rings, ((after (.rbind 1 0 2) base).core 0).rh 1) =
    (.ring 0 0x800 0, [⟨0, 0x800, 0x9802000, 1, false⟩], [], .drain) := by decide +kernel

/-- RingBinding: uses 1, 2 and 3, an address beside use 2, misaligned and invalid descriptors, a full table, and a second binding of one entry. -/
theorem witness_RingBinding :
    (let s := described 0 4
     ringValid s 0 0x800 = true ∧ (bindRing s 0 0x800).isSome = true ∧ ((s.core 0).rh 1) = .unbound ∧ (s.core 0).storeBuf = []
       ∧ (match resolve s.me .load (s.rg 10) 16 s with | .ok (ps, s0) => isOk (noPoison s.me ps s0) | .error _ => false) = true
       ∧ ((after (.rbind 1 10 1) s).core 0).rh 1 = .ring 0 0x800 1 ∧ cause (.rbind 1 10 3) s = some 13 ∧ cause (.rbind 1 10 2) s = some 13
       ∧ cause (.rbind 1 5 1) s = some 5 ∧ bindRing s 0 0x700 = none ∧ cause (.rbind 1 4 0) s = some 13
       ∧ ((after (.rbind 2 10 1) (ringed 0 4)).cluster 0).rings.map (fun r => r.count) = [2]
       ∧ (let full := s.modCluster 0 (fun c => { c with rings := (below 64).map (fun k => ⟨k, 16 * k, 0, 1, false⟩), ringNext := 64 })
          bindRing full 0 0x800 = none ∧ cause (.rbind 1 10 0) full = some 13)) := by decide +kernel

/-- R189, R197 to R199: HEAD 5 and TAIL 7 of four slots. -/
theorem test_ring_counters :
    (let s := ringed 5 7
     (g (.rslot 2 1 0) s 2, g (.rslot 2 1 3) (s.wg 3 (2 ^ 32 + 2)) 2, g (.rwait 3 1 2) s 3, g (.rwaitf 3 1 2) s 3, got (after (.radvh 1 2) s) 0x808 4,
      got (after (.radvt 1 2) s) 0x80C 4)) = (localVa 0x2040, localVa 0x2040, 2, 2, 7, 9) := by decide +kernel

/-- RingCounters: the bounds of each, an unbound and a broken handle, the drain ring, and a parked wait. -/
theorem witness_RingCounters :
    (let s := ringed 5 7
     let broken := s.modCluster 0 (fun c => { c with rings := c.rings.map (fun r => { r with broken := true }) })
     let all := [Instr.rslot 3 1 2, .rwait 3 1 2, .rwaitf 3 1 2, .radvh 1 2, .radvt 1 2]
     (ringEntry s 0 0).isSome = true
       ∧ cause (.rslot 2 1 3) (s.wg 3 (2 ^ 33)) = some 13 ∧ cause (.rslot 2 1 3) (s.wg 3 (2 ^ 33 - 1)) = none
       ∧ ((after (.rwait 3 1 3) s).core 0).wait = .ring 0 ∧ ((after (.rwaitf 3 1 4) (s.wg 4 4)).core 0).wait = .ring 0
       ∧ cause (.rwait 3 1 5) s = some 13 ∧ cause (.rwaitf 3 1 5) s = some 13 ∧ cause (.radvh 1 3) s = some 13 ∧ cause (.radvt 1 3) s = some 13
       ∧ all.all (fun i => cause i base == some 13 && cause i broken == some 13) = true
       ∧ (let d := after (.rbind 1 0 2) (base.modTile 0 (fun t => { t with dtail := 8 }))
          g (.rwait 3 1 2) d 3 = 8 ∧ g (.rwaitf 3 1 0) d 3 = 0 ∧ ((after (.rwaitf 3 1 2) d).core 0).wait = .drainRing
            ∧ [Instr.rslot 3 1 2, .radvh 1 2, .radvt 1 2].all (fun i => cause i d == some 13) = true)
       ∧ (let h := s.modCluster 0 (fun c => { c with holds := [⟨0, 0, 0x800, 8⟩] })
          g (.rwaitf 3 1 1) (h.wg 1 1) 3 = 1 ∧ ((after (.rwaitf 3 1 2) h).core 0).wait = .ring 0 ∧ cause (.radvt 1 1) (h.wg 1 1) = none ∧ cause (.radvt 1 2) h = some 13)
       ∧ (let l := { s with eager := false }
          g (.rwait 3 1 2) l 3 = 2 ∧ g (.rwaitf 3 1 2) l 3 = 2)
       ∧ ((after (.ringWaitWake 0) (after (.rwait 3 1 3) s)).core 0).wait = .none) := by decide +kernel

/-- R201, R202: 5 in semaphore 2. -/
theorem test_semaphores :
    (let s := base.modTile 0 (fun t => t.ws 2 5)
     let sem := fun (i : Instr) => ((after i s).tile 0).rs 2
     (sem (.spost 2 3), sem (.swait 2 3), sem (.stryw 1 2 3), g (.stryw 1 2 3) s 1, sem (.stryw 1 2 6), g (.stryw 1 2 6) s 1, ((after (.swait 2 6) s).core 0).wait)) =
    (8, 2, 2, 5, 5, 5, .semaphore 2) := by decide +kernel

/-- Semaphores: the largest value, one past it, and the head of the queue with enough and with too little. -/
theorem witness_Semaphores :
    (let s := base.modTile 0 (fun t => t.ws 2 65534)
     let q := after (.swait 2 6) (base.modTile 0 (fun t => t.ws 2 5))
     ((after (.spost 2 1) s).tile 0).rs 2 = 65535 ∧ cause (.spost 2 2) s = some 13 ∧ cause (.swait 2 1) (s.wg 1 65536) = some 13
       ∧ mget (q.tile 0).semq 2 [] = [(0, 6)] ∧ after (.semaphoreGrant 0 2) q = q
       ∧ (let t := after (.semaphoreGrant 0 2) (q.modTile 0 (fun t => t.ws 2 6))
          (t.tile 0).rs 2 = 0 ∧ (t.core 0).wait = .none ∧ (t.core 0).pc = localVa 0x1002)) := by decide +kernel

/-! ## Copy engines and tile streamers -/

/-- Core 0 as a member of a gang of its tile. -/
def ganged (s : State) : State :=
  (s.modTile 0 (fun t => { t with gang := some 0 })).modCluster 0 (fun c => { c with tcbs := [(0, { aTask with kind := .tileGang })] })

/-- A descriptor of eight doublewords at 0x3000, where g12 points. -/
def desc (s : State) (l : List Nat) : State :=
  (s.wg 12 (localVa 0x3000)) |> fun s => { s with mem := s.mem.pokes (writesAt (sramLoc 0 0x3000) ((below 8).flatMap (fun k => leBytes 8 (l.getD k 0)))) }

/-- Window addresses as numbers. -/
def at_ (off : Nat) : Nat := localWin + off

/-- A command issued with Y = 1, run by its engine and answered: what core 0 holds in g1, and the state. -/
def command (fn : CpFn) (step : Instr) (s : State) : State := after (.engineReply 0) (after step (after (.cp fn true 1 12 13) s))

/-- R207, R208: each function of the copy engine, with the count that it replies. -/
theorem test_copy_functions :
    (let s := put (put base 0x4000 8 0x1122) 0x4040 8 0x3344
     let c := command .copy (.copy 0) (desc s [at_ 0x4000, at_ 0x5000, 128])
     let f := command .copyf (.copyf 0) (desc s [at_ 0x4000, at_ 0x5000, 64, 0, at_ 0x6000, 9])
     let l := command .fill (.fill 0) (desc s [0, at_ 0x5000, 64 + 0x1000 * 2 ^ 32, 0, 0, 0x77])
     ((got c 0x5000 8, got c 0x5040 8, c.rg 1), (got f 0x5000 8, got f 0x6000 8, f.rg 1), (got l 0x5038 8, l.mem.tag (sramLoc 0 0x5000), l.rg 1))) =
    ((0x1122, 0x3344, 128), (0x1122, 9, 64), (0x77, 0x1000, 64)) := by decide +kernel
theorem test_gather_scatter :
    (let s := put (put (put (put base 0x4000 8 10) 0x4008 8 11) 0x4010 8 12) 0x4100 8 (2 + 0 * 2 ^ 32)
     let a := command .gath (.gath 0) (desc s [at_ 0x4000, at_ 0x5000, 0, 6, 0, 0, at_ 0x4100, 2])
     let b := command .scat (.scat 0) (desc s [at_ 0x4000, at_ 0x5000, 0, 6, 0, 0, at_ 0x4100, 2])
     ([got a 0x5000 8, got a 0x5008 8, (a.rg 1).toNat], [got b 0x5000 8, got b 0x5010 8, (b.rg 1).toNat])) = ([12, 10, 2], [11, 10, 2]) := by decide +kernel
theorem test_write_back_and_invalidate :
    (let s := { orderedPage with clusters := [(0, aCluster), (1, { Cluster.reset with uoCache := [(0x70000, ⟨5, true⟩), (0x70001, ⟨0, false⟩)] })] }
     let w := command .wback (.wback 0) (desc s [0, 0x10000, 64])
     let i := command .inval (.inval 0) (desc s [0, 0x10000, 64])
     ((w.mem.peek 0x70000, (w.cluster 1).uoCache, w.rg 1), (i.mem.peek 0x70000, (i.cluster 1).uoCache, i.rg 1))) =
    ((5, [(0x70000, ⟨5, false⟩), (0x70001, ⟨0, false⟩)], 64), (5, [], 64)) := by decide +kernel

/-- A command of core 1 without a reply. -/
def aCmd (fn : CpFn) (d : List Word) : CpCmd :=
  { fn := fn, y := false, core := none, sender := 1, d := 0, desc := d, descVa := localVa 0x3000, tag := 0, seq := 1, pc := 0, cl := 0, tenant := 0, kid := 7,
    follow := none, moved := [] }

/-- CommandsAreIssued: each function with a descriptor, COPYM inside and outside a gang, misaligned, and with a full queue; replies and a refused field. -/
theorem witness_CommandsAreIssued :
    (let s := desc base [at_ 0x4000, at_ 0x5000, 64]
     let full := { s with engines := [(0, List.replicate 64 (aCmd .copy []))] }
     [CpFn.copy, .copyf, .gath, .scat, .fill, .wback, .inval, .subs, .unsubs, .pull, .pullf].all (fun f => pcOff (.cp f false 0 12 13) s == 2
       && decide (((after (.cp f true 1 12 13) s).core 0).wait = .command 1)) = true
       ∧ isOk (readDescriptor (s.rg 12) s) = true ∧ cause (.cp .copym false 0 12 13) s = some 1 ∧ cause (.cp .copy false 0 4 13) (s.wg 4 1) = some 5
       ∧ (after (.cp .copy false 0 12 13) full).engines = full.engines ∧ ((after (.cp .copy false 0 12 13) s).core 0).seqNo = 1
       ∧ cause (.engineReply 0) (after (.copy 0) (after (.cp .copy true 1 12 13) (desc base [at_ 0x4000, at_ 0x5000, 63]))) = some 14
       ∧ (let m := after (.cp .copym false 0 12 13) (ganged (desc (ringed 0 0) [at_ 0x4000, at_ 0x5000, 64, 0, 0x1858, 3]))
          (match followInstr 0x1858 with | some i => followHandle i == some 1 | none => false) = true ∧ (m.core 0).seqNo = 2
            ∧ ((mget m.engines 0 []).map (fun c => c.follow)) = [some ⟨0, 0, 0x800, 0⟩])) := by decide +kernel


/-- Copy engine 0 with one command of core 1 at its head. -/
def engined (s : State) (fn : CpFn) (l : List Nat) : State := { s with engines := [(0, [aCmd fn (l.map word)])] }

/-- CopyEngineCommands: commands of each function that end well, a refused field of each function, and misaligned addresses. -/
theorem witness_CopyEngineCommands :
    (let whole := [at_ 0x4000, at_ 0x5000, 64, 0, 0, 0, 0, 0]
     let dst := [0, at_ 0x5000, 64, 0, 0, 0, 0, 0]
     let elem := [at_ 0x4000, at_ 0x5000, 0, 6, 0, 0, at_ 0x4100, 1]
     let steps := [(CpFn.copy, Instr.copy 0), (.copyf, .copyf 0), (.gath, .gath 0), (.scat, .scat 0), (.fill, .fill 0), (.wback, .wback 0), (.inval, .inval 0)]
     let late : CpFn × Instr → List Nat → List (Cause × Nat) := fun p l =>
       ((after p.2 (engined base p.1 l)).cluster 0).mailbox.map (fun m => (m.2.cause, m.2.sub))
     [(CpFn.copy, whole), (.copym, [at_ 0x4000, at_ 0x5000, 64, 0, 0x1858, 3, 0, 0]), (.gath, elem), (.scat, elem), (.fill, dst), (.wback, dst), (.inval, dst)].all
         (fun p => (fieldFault (aCmd p.1 (p.2.map word))).isNone && (misaligned (aCmd p.1 (p.2.map word))).isNone) = true
       ∧ base.holdsRecord (.copyEng 0) = false
       ∧ steps.all (fun p => decide (late p [0, at_ 0x5000, 0, 0, 0, 0, 0, 2 ^ 32] = [(.engineFault, 7)])) = true
       ∧ late (.copy, .copy 0) [at_ 0x4001, at_ 0x5000, 64] = [(.engineFault, 5)]
       ∧ isOk (writeFlag (aCmd .copyf [word (at_ 0x4000), word (at_ 0x5000), 64, 0, word (at_ 0x6000), 9]) base) = true
       ∧ isOk (backSector true (aCmd .inval (dst.map word)) 0 base) = true
       ∧ (let t := after (.copym 0) { base with engines := [(0, [{ aCmd .copym [word (at_ 0x4000), word (at_ 0x5000), 64, 0, 0x1858, 3] with follow := some ⟨0, 0, 0x800, 0⟩ }])] }
          (t.tile 0).follow.map (fun f => (f.word, f.ring, f.a)) = [(0x1858, ⟨0, 0, 0x800, 0⟩, 3)])) := by decide +kernel
/-- A COPYM without a ring, with a refused field, and one that a core waits for. -/
theorem witness_CopyEngineCommands_copym :
    (let d := [word (at_ 0x4000), word (at_ 0x5000), 64, 0, 0x1858, 3]
     let at1 := fun (c : CpCmd) => after (.copym 0) { base with engines := [(0, [c])] }
     let records := fun (t : State) => (t.cluster 0).mailbox.map (fun m => (m.2.cause, m.2.sub))
     let ring : RingRef := ⟨0, 0, 0x800, 0⟩
     records (at1 (aCmd .copym d)) = [(.engineFault, 13)] ∧ mget (at1 (aCmd .copym d)).engines 0 [] = []
       ∧ records (at1 { aCmd .copym (d.set 2 (2 ^ 32)) with follow := some ring }) = [(.engineFault, 7)]
       ∧ records (at1 { aCmd .copym (d.set 0 (word (at_ 0x4001))) with follow := some ring }) = [(.engineFault, 5)]
       ∧ ((at1 { aCmd .copym d with follow := some ring, y := true, core := some 0 }).core 0).pop = some (.val 64)
       ∧ ((at1 { aCmd .copym d with y := true, core := some 0 }).core 0).pop = some (.val 64)) := by decide +kernel

/-- EngineWritesLand: bytes and a whole sector at the end of bank 0. -/
theorem witness_EngineWritesLand :
    (let w := engineWho (some 0) 0
     let bs := List.replicate 64 (1 : Byte)
     w.core = none
       ∧ (match resolve w .sector (localVa 0x3FFC0) 64 base with
          | .ok ([p], _) => decide (p.place = .mem (sramLoc 0 0x3FFC0)) && p.kind != 2 && !p.repl && p.typed | _ => false) = true
       ∧ isOk (engineStore w .sector (localVa 0x3FFC0) bs (some 0x1000) base) = true ∧ isOk (engineStore w .store (localVa 0x3FFFF) [7] none base) = true) := by
  decide +kernel

/-- A ring of cluster 0 bound, streamer 0 with a command of core 1, and the region of page 0x10000. -/
def streamed (fn : CpFn) (tag : Word) (l : List Nat) (subs : AMap Sub) : State :=
  let s := described 0 0
  { s with mem := s.mem.pokes (orderedPage.mem.cells ++ [(0x70000, 0x5A)]), dies := orderedPage.dies, rights := orderedPage.rights,
           streamers := [(0, { queue := [{ aCmd fn (l.map word) with tag := tag, core := some 0, y := true }], subs := subs })] }

/-- A subscription of the region with the ring's entry 0. -/
def aSub (jobs : List PullJob) : Sub := { src := 0x10000, len := 128, size := 64, cursor := 64, rings := [⟨0, 0, 0x800, 0⟩], jobs := jobs }

/-- R210: SUBS makes subscription 0 of streamer 0, and adds a ring; UNSUBS removes it. -/
theorem test_subscriptions :
    (let ring := globalWin + 0x800
     let a := after (.subs 0) (streamed .subs 0xFFFF [0x10000, ring, 128] [])
     let b := after (.subs 0) (streamed .subs 0 [0x10000, ring, 128] [(0, aSub [])])
     let c := after (.unsubs 0) (streamed .unsubs 0 [] [(0, aSub [])])
     (((a.streamer 0).subs.map (fun p => (p.1, p.2.size, p.2.rings.length)), (a.core 0).pop), ((b.streamer 0).subs.map (fun p => (p.1, p.2.size, p.2.rings.length)), (b.core 0).pop),
      ((c.streamer 0).subs.length, (c.core 0).pop))) =
    (([(0, 64, 1)], some (.val 0)), ([(0, 64, 2)], some (.val 0)), (0, some (.val 0))) := by decide +kernel

/-- R211: a pull of one element from the start of the region writes it to the ring's tail slot; its reply is the count. -/
theorem test_pull :
    (let s := after (.rbind 1 10 0) (streamed .pull 0 [0, 0, 1] [(0, { aSub [] with cursor := 0 })])
     let t := after (.pull 0) s
     let f := after (.pullf 0) (after (.rbind 1 10 0) (streamed .pullf 0 [0, 0, 1, 0, at_ 0x6000, 9] [(0, { aSub [] with cursor := 0 })]))
     (got t 0x2000 1, got t 0x80C 4, (t.core 0).pop, got f 0x2000 1, got f 0x6000 8, (f.core 0).pop)) = (0x5A, 1, some (.val 1), 0x5A, 9, some (.val 1)) := by
  decide +kernel

/-- StreamersFeedRings: a sound region, a subscription with and without pulls, no room in a ring, an ID of another streamer, and an element of a pull. -/
theorem witness_StreamersFeedRings :
    (let s := after (.rbind 1 10 0) (streamed .pull 0 [0, 0, 2] [(0, aSub [⟨aCmd .pull [0, 0, 2], 2⟩])])
     let full := after (.rbind 1 10 0) (put (streamed .pull 0 [0, 0, 2] [(0, aSub [])]) 0x80C 4 4)
     let t := after (.streamerElementWrite 0 0) s
     let ring := globalWin + 0x800
     regionOf s 0 (word 0x10000) = .mapped ∧ endpointOf (word 0x10000) = 0 ∧ regionOf s 0 (word ring) = .window 0 0x800 4032
       ∧ (bindRing (streamed .subs 0 [] []) 0 0x800).isSome = true ∧ slotSize s ⟨0, 0, 0x800, 0⟩ = 64 ∧ subSlot 0 0x0F = some 15 ∧ subSlot 0 0x10 = none
       ∧ roomInAll s (aSub []) = true ∧ roomInAll full (aSub []) = false ∧ (match pullElement (aCmd .pull [0, 0, 2]) (aSub []) s with | .ok r => r.bad.isNone | .error _ => false) = true
       ∧ (mfind (t.streamer 0).subs 0).map (fun y => (y.cursor, y.jobs.map (fun j => j.left))) = some (0, [1])
       ∧ (mfind (after (.pull 0) full).streamers 0).map (fun x => (x.queue, x.subs.map (fun y => y.2.jobs.length))) = some ([], [1])
       ∧ (let u := after (.unsubs 0) (streamed .unsubs 0 [] [(0, aSub [⟨aCmd .pull [0, 0, 2], 2⟩])])
          (u.streamer 0).queue = [] ∧ (mfind (u.streamer 0).subs 0).map (fun y => y.jobs.map (fun j => (j.cmd.fn, j.left))) = some [(.pull, 2), (.unsubs, 0)]
            ∧ (let v := after (.streamerElementWrite 0 0) (after (.streamerElementWrite 0 0) (after (.streamerElementWrite 0 0) { s with streamers := u.streamers }))
               (v.streamer 0).subs = [] ∧ (v.core 0).pop = some (.val 0)))
       ∧ ((after (.pull 0) (streamed .pull 0x10 [0, 0, 1] [])).core 0).pop = some (.fail .engineFault 7 (localVa 0x3000) 0x10 0 1)) := by decide +kernel


/-- SubsSound and FeedsElement: the ring's descriptor as SUBS finds it and as it stands bound; the page of the region, and the ring's slots and a flag's place in bank 0;
a flag that lies in a bank that is being switched holds PULLF. -/
theorem witness_FeedsElement :
    (let s := after (.rbind 1 10 0) (streamed .pull 0 [0, 0, 1] [(0, aSub [])])
     let pte : Word := 0x0001000000070013
     let slot := globalise s 0 (localVa 0x2000)
     regionOf s 0 slot = .window 0 0x2000 4032 ∧ walk s 0x10040 = .leaf pte false ∧ s.tcache = [] ∧ inHbm (ptePa pte + 0x40) 64 = true ∧ bitAt pte 5 = false
       ∧ pteKind pte = 0 ∧ (s.rightsOf 0 (pteDom pte)).getLsbD 0 = true ∧ (s.rightsOf 0 4032 &&& 0xA) = 0xA ∧ s.mem.poison = [] ∧ s.sys.bring = 0
       ∧ (ringEntry s 0 0).map (fun e => (e.addr, e.broken, ringFree s 0 e, (geomOf e.dw0).slot (ringTail s 0 0x800).toNat)) = some (0x800, false, 4, 0x2000)
       ∧ (s.cluster 0).rings.all (fun r => !r.overlaps 0x2000 64 && !r.overlaps 0x6000 8 || !r.broken) = true
       ∧ ringValid (streamed .subs 0 [] []) 0 0x800 = true ∧ ((streamed .subs 0 [] []).cluster 0).rings = [] ∧ ((streamed .subs 0 [] []).cluster 0).ringNext = 0
       ∧ (let w := after (.rbind 1 10 0) (streamed .pullf 0 [0, 0, 1, 0, at_ 0x40000, 9] [(0, { aSub [] with cursor := 0 })])
          let w := w.modCluster 0 (fun c => { c with switching := [(1, 1)] })
          let t := after (.pullf 0) w
          (t.core 0).pop = none ∧ (mfind (t.streamer 0).subs 0).map (fun y => y.jobs.map (fun j => j.left)) = some [0]
            ∧ (let z := t.modCluster 0 (fun c => { c with switching := [], modes := c.modes.set 1 1 })
               got (after (.streamerElementWrite 0 0) z) 0x40000 8 = 9 ∧ ((after (.streamerElementWrite 0 0) z).core 0).pop = some (.val 1)))) := by decide +kernel

/-! ## The matrix unit -/

/-- A gang member with h1 bound to a ring of two 2 KiB slots from 0x2000, of which one holds an element of format code 0x30 with 1.0 at (0, 0). -/
def elemented : State :=
  let s := (put (put (put base 0x800 8 (0x2000 + 11 * 2 ^ 22 + 1 * 2 ^ 26)) 0x80C 4 1) 0x2000 1 2).wg 10 (localVa 0x800)
  let s := { s with mem := s.mem.pokes ((below 32).flatMap (fun k => tagWrites (sramLoc 0 (0x2000 + 64 * k)) 0x3000)) }
  ganged (after (.rbind 1 10 0) s)

/-- The tile of core 0 with one command of core 0. -/
def commanded (s : State) (op : MOp) : State := s.modTile 0 (fun t => { t with queue := [⟨op, 0, 1, 0, 0, 7, false⟩] })

/-- Operations in tile 0's queue after an instruction. -/
def opsOf (i : Instr) (s : State) : List MOp := ((after i s).tile 0).queue.map (fun c => c.op)

theorem test_matrix_issue :
    (let s := elemented
     let e : RingRef := ⟨0, 0, 0x800, 0⟩
     [Instr.msel 2 5, .mz 3, .macc 1 2, .mdrn 4, .mldb 1 3, .mmaN4 2 1, .mmaN8 2 1, .mmaW16 2 1, .mmaL 2 1, .eoutN8 1 0 0, .eoutF32 1 0 0, .eoutB16 1 0 0,
       .mldbL 1 0].map (fun i => opsOf i s) =
     [[MOp.msel 2 5], [.mz 3], [.macc 1 2], [.mdrn 4], [.mldb false e 3], [.mma (some .n4) 2 e], [.mma (some .n8) 2 e], [.mma (some .w16) 2 e], [.mma none 2 e],
       [.eout .n8 e 0 0], [.eout .f32 e 0 0], [.eout .b16 e 0 0], [.mldb true e 0]]) := by decide +kernel

/-- MatrixCommandsAreIssued: an empty ring, refused registers, unusable handles, a core outside a gang, a full queue, and a parked command that binds. -/
theorem witness_MatrixCommandsAreIssued :
    (let s := elemented
     let e := put s 0x808 4 1
     let all := [Instr.mldb 1 3, .mldbL 1 0, .mmaN4 2 1, .mmaN8 2 1, .mmaW16 2 1, .mmaL 2 1, .eoutN8 1 0 0, .eoutF32 1 0 0, .eoutB16 1 0 0]
     let plain := [Instr.msel 2 5, .mz 3, .macc 1 2, .mdrn 4]
     let parked := after (.mmaN4 2 1) e
     (s.taskOf 0).any (fun t => t.kind.gang) = true ∧ (s.tile 0).queue.length < 16 ∧ s.holdsRecord (.matrix 0) = false ∧ ringEntry s 0 0 ≠ none
       ∧ mldbOk 127 false = true ∧ mldbOk 128 false = false ∧ mldbOk 0 true = true ∧ cause (.mldb 1 5) (s.wg 5 128) = some 7 ∧ cause (.mldbL 1 5) (s.wg 5 128) = some 7
       ∧ [Instr.eoutN8 1 5 0, .eoutF32 1 5 0, .eoutB16 1 5 0].all (fun i => cause i (s.wg 5 512) == some 7 && cause i (s.wg 5 511) == none) = true
       ∧ all.all (fun i => cause i (ganged base) == some 13) = true ∧ (plain ++ all).all (fun i => cause i base == some 1) = true
       ∧ plain.all (fun i => decide (opsOf i (s.modTile 0 (fun t => { t with queue := List.replicate 16 ⟨.mz 0, 0, 1, 0, 0, 7, false⟩ })) = List.replicate 16 (.mz 0))) = true
       ∧ (parked.core 0).wait = .matrixRing (.mma (some .n4) 2 ⟨0, 0, 0x800, 0⟩) ∧ ((parked.tile 0).queue = [])
       ∧ opsOf (.matrixRingBind 0) (put parked 0x80C 4 2) = [.mma (some .n4) 2 ⟨0, 0, 0x800, 1⟩]) := by decide +kernel

/-- R216, R217, R232: selection, clearing, and the block of the element in slot 5. -/
theorem test_matrix_commands :
    (let run := fun (op : MOp) (f : Tile → Tile) => (after (.matrixCommandExecute 0) ((commanded elemented op).modTile 0 f)).tile 0
     let l := run (.mldb false ⟨0, 0, 0x800, 0⟩ 5) id
     ((run (.msel 2 5) id).sel.toList, (run (.mz 1) (fun t => { t with acc := [(4096, 7), (8192, 8)] })).acc, (l.slot 5).kind, (l.slot 5).code, l.blocks)) =
    ([0, 0, 5, 0, 0, 0, 0, 0], [(8192, 8)], 1, 0x30, [(20480, 2)]) := by decide +kernel
theorem test_matrix_add_drain :
    (let run := fun (op : MOp) (f : Tile → Tile) => (after (.matrixCommandExecute 0) ((commanded elemented op).modTile 0 f)).tile 0
     let a := run (.macc 0 1) (fun t => { t with acc := [(5, 0x3F800000), (4101, 0x40000000)] })
     let d := run (.mdrn 0) (fun t => { t with acc := [(5, 0x3F800000)] })
     let e := run (.eout .f32 ⟨0, 0, 0x800, 0⟩ 0 0) (fun t => { t with drain := [(5, 0x3F800000)], dtail := 1 })
     (mget a.acc 5 0, mget d.drain 5 0, d.dtail, e.jobs.map (fun j => j.x), e.dhead, e.dclaim)) = (0x40400000, 0x3F800000, 1, [0], 0, 1) := by
  decide +kernel

/-- R218: MONB and CNCD are written in their place in the queue. -/
theorem test_matrix_registers :
    (((after (.monbWrite 0) (commanded base (.monb 5))).tile 0).monb, ((after (.cncdWrite 0) (commanded base (.cncd 9))).tile 0).cncd,
      ((after (.mreplWrite 0 3) base).tile 0).mrepl) = (5, 9, 3) := by decide +kernel

/-- MatrixCommandsExecute: an element in the ring, blocks that a step accepts and refuses, and the drain ring empty and full. -/
theorem witness_MatrixCommandsExecute :
    (let s := elemented
     let r : RingRef := ⟨0, 0, 0x800, 0⟩
     (match readElement s r with | .ok (e, bs) => e.code == 0x30 && bs.length == 2048 && e.scales.length == 32 && scalesClose e.scales | .error _ => false) = true
       ∧ kindOfCode 0x30 = some 1 ∧ 5 % kindSlots 1 = 0 ∧ mmaAccepts (some .n4) 0x30 { Slot.invalid with kind := 1 } = true
       ∧ mmaAccepts (some .n8) 0x20 { Slot.invalid with kind := 2 } = true ∧ mmaAccepts (some .w16) 0x11 { Slot.invalid with kind := 7 } = true
       ∧ mmaAccepts (some .n4) 0x30 Slot.invalid = false ∧ mmaAccepts none 0x11 { Slot.invalid with kind := 7 } = true ∧ (s.tile 0).bad = []
       ∧ (let full := (commanded s (.mdrn 0)).modTile 0 (fun t => { t with dtail := 8 })
          drainFill (full.tile 0) = 8 ∧ after (.matrixCommandExecute 0) full = full)
       ∧ after (.matrixCommandExecute 0) (commanded s (.eout .n8 r 0 0)) = commanded s (.eout .n8 r 0 0)
       ∧ (after (.matrixCommandExecute 0) (commanded s (.mma (some .n4) 0 r))).tile 0 = s.tile 0) := by decide +kernel
/-- The ladder of MMA.L: a B16 element of zeros in a ring of 8 KiB slots, and a block of which one element saturates at N4. -/
def laddered (f : Tile → Tile) : State :=
  let s := (put (put base 0x800 8 (0x2000 + 13 * 2 ^ 22 + 1 * 2 ^ 26)) 0x80C 4 1).wg 10 (localVa 0x800)
  let s := ganged (after (.rbind 1 10 0) { s with mem := s.mem.pokes ((below 128).flatMap (fun k => tagWrites (sramLoc 0 (0x2000 + 64 * k)) 0x1100)), eager := false })
  (commanded s (.mma none 0 ⟨0, 0, 0x800, 0⟩)).modTile 0
    (fun t => f { t with slots := [(0, { Slot.invalid with kind := 7, code := 0x11, sat4 := 1 })], mrepl := 5 })
/-- What the clauses about MMA.L assume: its element and its block; with the bound of 0 on saturations the rung N4 is squashed. -/
theorem witness_MatrixCommandsExecute_ladder :
    (let s := laddered id
     (match readElement s ⟨0, 0, 0x800, 0⟩ with | .ok (e, _) => e.code == 0x11 | .error _ => false) = true
       ∧ (s.tile 0).queue.length = 1 ∧ mmaAccepts none 0x11 ((s.tile 0).slot 0) = true ∧ fld (s.tile 0).monb 15 0 < ((s.tile 0).slot 0).sat4 ∧ s.eager = false) := by decide +kernel

/-- A job of the epilogue engine to the ring of two 4 KiB slots from 0x2000, for drain element 0. -/
def aJob (opts : Word) : EpiJob :=
  { fmt := .n8, ring := ⟨0, 0, 0x800, 0⟩, opts := opts, bias := 0, x := 0, core := 0, seq := 1, pc := 0, tenant := 0, kid := 7, out := none }

/-- A ring of two 4 KiB slots with h1 bound to it, a job, and its drain element with 1.5 at (0, 1) and -2 at (0, 2). -/
def jobbed (opts : Word) (tail : Nat) : State :=
  let s := (put (put base 0x800 8 (0x2000 + 12 * 2 ^ 22 + 1 * 2 ^ 26)) 0x80C 4 tail).wg 10 (localVa 0x800)
  (ganged (after (.rbind 1 10 0) s)).modTile 0 (fun t => { t with jobs := [aJob opts], drain := [(1, 0x3FC00000), (2, 0xC0000000)], dtail := 1, dclaim := 1 })

/-- R236: the output at scale 1 is 0.75 and -1 (N8 codes 0x34 and 0xB8), and the job is done. -/
theorem test_epilogue :
    (match epiOutput (jobbed 1 0) 0 (aJob 1) with | .ok bs => bs.take 3 | .error _ => []) = [0, 0x34, 0xB8]
    ∧ ((after (.epilogueOutput 0) (jobbed 1 0)).tile 0).jobs = [] ∧ ((after (.epilogueOutput 0) (jobbed 1 0)).tile 0).dhead = 1 := by decide +kernel

/-- The first part of an output that has waited on a full ring, when a slot is free. -/
theorem witness_waiting_output :
    (let waits := (jobbed 1 1).modTile 0 (fun t => { t with jobs := [{ aJob 1 with out := some (List.replicate 4096 5) }], dhead := 1 })
     let lands := after (.epilogueOutput 0) waits
     (waits.tile 0).jobs.length = 1 ∧ (lands.tile 0).jobs = [] ∧ (lands.tile 0).dhead = 1) := by decide +kernel

/-- EpilogueAndFollowOns: an output that waits on a full ring, its element gone, and goes there when a slot is free; an output without bias, RELU, and a follow-on that
finds its element. -/
theorem witness_EpilogueAndFollowOns :
    (let full := jobbed 1 2
     let waits := after (.epilogueOutput 0) full
     (match ringEntry full 0 0 with | some e => ringFree full 0 e == 0 && !e.broken | none => false) = true
       ∧ (waits.tile 0).jobs.map (fun j => (j.out.getD []).take 3) = [[0, 0x34, 0xB8]] ∧ (waits.tile 0).dhead = 1
       ∧ (match epiOutput (jobbed 0x100 0) 0 (aJob 0x100) with | .ok bs => bs.take 3 == [0, 0x3C, 0] && bs.length == 4096 | .error _ => false) = true)
    ∧ (let f : FollowOn := ⟨0x1858, ⟨0, 0, 0x800, 0⟩, 5, 0, 2, 0, 0, 7⟩
       let s := elemented.modTile 0 (fun t => { t with follow := [f] })
       opsOf (.copymFollowOnEnter 0 0) s = [.mldb false ⟨0, 0, 0x800, 0⟩ 5] ∧ ((after (.copymFollowOnEnter 0 0) s).tile 0).follow = []
         ∧ ((after (.copymFollowOnEnter 0 0) s).cluster 0).holds = [⟨0, 0, 0x800, 0⟩]) := by decide +kernel


/-! ## The Millpond -/

/-- A store of kernel 7: operator, level, threshold 10, capacity 4, windows of 10; its segment at 0x100000, its handler at 0x2000, its source table at 0x5000 of the
local window, its directory of four entries at 0x6000. -/
def aStore (opr det : Nat) : StoreDecl :=
  { kern := ⟨0, 7⟩, st := 0, tenant := 0, det := det, opr := opr, thresh := 10, cap := 4, win := 10, ovb := 0x100000, lseg := 12, hpc := 0x2000, ftab := localVa 0x5000,
    dir := 0x6000, dlog := 2, wb := 7, wsgn := true, wscale := 0 }

/-- Base with the store in slot 0; addresses below 2^25 are mapped to themselves by a page of 32 MiB. -/
def stored (opr det : Nat) : State :=
  let s := paged 0
  { s with mem := s.mem.pokes (writesAt 0x50000 (leBytes 8 0x0001000000000003)), stores := [(0, aStore opr det)] }

/-- Core 0 as an activation. -/
def acting (s : State) : State :=
  s.modCluster 0 (fun c => { c with tcbs := [(0, { aTask with kind := .activation, act := some ⟨0, [], none, 0, none, false⟩ })] })

/-- The home of key 5 of store 0, and store 0 there. -/
def home5 (s : State) : Nat := homeOf s 0 5

/-- R277: EVUPD with key 5 and value 6 leaves, arrives as an entry, and a second one is added to it (R251). -/
theorem test_updates :
    (let s := stored 1 0
     let a := after (.updateArrival 0) (after (.evupd 0 5 6) s)
     let b := after (.evupdt 0 5 6) a
     ((after (.evupd 0 5 6) s).upds.map (fun u => (u.key, u.val)), (a.slice (home5 a) 0).entries.map (fun e => (e.key, e.val)),
      (b.slice (home5 b) 0).entries.map (fun e => (e.key, e.val)), g (.evpeek 1 5 0) b 1, g (.evpeek 1 6 0) b 1)) =
    ([(5, 6)], [(5, 6)], [(5, 12)], 12, 0) := by decide +kernel

/-- R260, R281: in an activation both join the outbox, and EVDONE sends it and frees the core. -/
theorem test_outbox :
    (let s := acting (stored 1 0)
     let t := after (.evupdt 0 5 6) (after (.evupd 0 5 7) s)
     let d := after .evdone (after (.evupd 0 5 7) s)
     ((t.core 0).outbox.length, t.upds.length, d.upds.map (fun u => (u.key, u.val)), (d.core 0).task)) = (2, 0, [(5, 7)], none) := by decide +kernel

/-- R263, R278: EVFAN of source 3 reads its table entry (cluster 0); cluster 0 finds source 3 in its directory and forms one update of key 5, weight -2. -/
theorem test_fan_out :
    (let start := (kh (word 3)).toNat / 2 ^ 62
     let s := put (put (put (put (stored 1 0) 0x5018 8 1) (0x6000 + 16 * start) 8 (2 ^ 32 + 3)) (0x6008 + 16 * start) 8 (0x7000 + 2 ^ 32)) 0x7000 8 (5 + 0xFE * 2 ^ 40)
     let f := after (.evfan 0 3 6) s
     let t := after (.fanoutSourceArrival 0 0) f
     (f.fansOut.map (fun x => (x.src, x.targets)), t.fansOut.length, t.upds.map (fun u => (u.key, u.val)), (f.core 0).seqNo)) =
    ([(3, [0])], 0, [(5, 0xFFFFFFF4)], 1) := by decide +kernel

theorem test_virtual_time :
    (((after (.vtset 5) base).core 0).vt, ((after (.vtset 3) (base.modCore 0 (fun c => { c with vt := 4 }))).core 0).vt,
      g (.vtget 1) (base.modCore 0 (fun c => { c with vt := 4 })) 1, g (.vtlow 1) { base with beaconB := 9 } 1, g (.evstat 1 1) { base with beaconB := 9 } 1) =
    (5, 4, 4, 9, 9) := by decide +kernel
theorem test_evstat :
    (let s := (stored 1 0).modSlice 0 0 (fun y => { y with entries := [⟨5, 6, 0, ⟨0, 0, 0⟩, 0⟩], ovf := true, tail := 3, phase := some 2 })
     ([0, 8, 9, 16, 17].map (fun k => g (.evstat 1 k) { s with beaconQ := true } 1))) = [1, 0xC000000300000001, 0, 2, -1] := by decide +kernel

/-- EventInstructions: the checks of R274 in their order, a full outbox and segment, and both ends of the selectors that EVSTAT refuses. -/
theorem witness_EventInstructions :
    (let s := stored 1 0
     let all : List Instr := [.evupd 0 5 6, .evupdt 0 5 6, .evpeek 1 5 0]
     let at3 := fun (x : State) => x.modCore 0 (fun c => { c with ctx := { c.ctx with det := 3 } })
     let full := acting s |>.modCore 0 (fun c => { c with outbox := List.replicate 128 (.update 0 5 6 0) })
     findStore s ⟨0, 7⟩ 0 ≠ none ∧ isAct s 0 = false ∧ isAct (acting s) 0 = true ∧ s.eager = true
       ∧ (all ++ [Instr.evfan 0 5 6]).all (fun i => cause i base == some 7) = true ∧ all.all (fun i => cause i (s.wg 5 (2 ^ 40)) == some 7 && cause i (s.wg 5 (2 ^ 40 - 1)) == none) = true
       ∧ cause (.evfan 0 5 6) (s.wg 5 (2 ^ 32)) = some 7 ∧ cause (.evfan 0 5 6) { s with stores := [(0, { aStore 1 0 with ftab := 0 })] } = some 7
       ∧ cause (.evpeek 1 5 0) (at3 s) = some 8 ∧ [Instr.evupd 0 5 6, .evupdt 0 5 6].all (fun i => cause i (at3 (stored 0 3)) == some 8) = true
       ∧ cause (.evupdt 0 5 6) full = some 12 ∧ cause .evdone s = some 1
       ∧ cause (.evfan 0 3 6) (at3 (stored 0 3)) = some 8
       ∧ [Instr.evupd 0 5 6, .evfan 0 5 6].all (fun i => let t := after i full
           (t.core 0).outbox.length == 1 && t.upds.length == 128 && (t.taskOf 0).any (fun z => z.act.any (fun q => q.nrst))) = true
       ∧ (let u := updateOf s 0 0 5 6 0 (some 0)
          aheadOf s s.upds.length u = [] ∧ fanBefore s u = false ∧ homeFull s u = false ∧ (arrive s u).isSome = true)
       ∧ cause (.evupdt 0 5 6) (s.modSlice (home5 s) 0 (fun y => { y with tail := 64 })) = some 11
       ∧ ((after (.evupdt 0 5 6) { s with eager := false }).core 0).wait = .request ∧ (after (.evpeek 1 5 0) { s with eager := false }).reqs.length = 1
       ∧ (after (.evfan 0 5 6) (acting s)).fansOut = [] ∧ ((after (.evfan 0 5 6) (acting s)).core 0).outbox.length = 1
       ∧ s.holdsRecord (.fanout 0) = false ∧ isOk (loadBytes (clusterWho (some 0) 0) (localVa 0x5028) 8 s) = true
       ∧ ((after .evdone (acting s)).core 0).task = none
       ∧ [2, 7, 24, 127].all (fun k => cause (.evstat 1 k) s == some 1) = true ∧ [1, 15, 16, 23].all (fun k => cause (.evstat 1 k) s == none) = true) := by decide +kernel

/-- A declaration at 0x3000, where g12 points, and a change of its doublewords. -/
def declared (l : List Nat) : State := desc { stored 1 0 with stores := [] } l
def goodDecl : List Nat := [1, 10, 4 + 10 * 2 ^ 32, 0x100000, 12, 0x2000, 0x5000, 0x6000 + 2 * 2 ^ 22 + 15 * 2 ^ 27]

theorem test_evdecl :
    (after (.evdecl 0 12) (declared goodDecl)).stores =
      [(0, { aStore 1 0 with ftab := 0x5000, wb := 7, wsgn := true })] := by decide +kernel
theorem test_evdrop :
    (let s := (stored 1 0).modSlice 3 0 (fun y => { y with entries := [⟨5, 6, 0, ⟨0, 0, 0⟩, 0⟩], tail := 2 })
     let t := after (.evdrop 0 4) s
     (t.stores.length, got t 0x40 8)) = (0, 3) := by decide +kernel

/-- StoresAreDeclared: fields at and beyond the ends of their ranges, a second store of the same number, another level, too much capacity, a misaligned address; an idle
store and one with an update on its way. -/
theorem witness_StoresAreDeclared :
    (let s := declared goodDecl
     (match resolve s.me .load (s.rg 12) 64 s with | .ok (ps, s0) => isOk (noPoison s.me ps s0) && isOk (readPieces s.me ps s0) | .error _ => false) = true
       ∧ inLocalWin (s.rg 12) = true ∧ declOk (goodDecl.map word) = true
       ∧ declOk ([9, 10, 4 + 10 * 2 ^ 32, 0x100000, 12, 0x2000, 0x5000, 0].map word) = false ∧ declOk ([8, 0, 16384 + 2 ^ 32, 0, 24, 0, 0, 0].map word) = true
       ∧ declOk ([8, 0, 16385 + 2 ^ 32, 0, 24, 0, 0, 0].map word) = false ∧ declOk ([8, 0, 2 ^ 32, 0, 24, 0, 0, 0].map word) = false
       ∧ declOk ([8, 0, 1, 0, 24, 0, 0, 0].map word) = false ∧ declOk ([8, 0, 1 + 2 ^ 32, 0, 11, 0, 0, 0].map word) = false
       ∧ cause (.evdecl 0 12) (declared [9, 10]) = some 7 ∧ cause (.evdecl 0 12) { s with stores := [(0, aStore 1 0)] } = some 7
       ∧ cause (.evdecl 0 12) { s with stores := [(0, { aStore 1 1 with kern := ⟨1, 8⟩ })] } = some 8
       ∧ cause (.evdecl 0 12) { s with stores := [(0, { aStore 1 0 with kern := ⟨1, 8⟩, cap := 16381 })] } = some 11
       ∧ cause (.evdecl 0 12) { s with stores := [(0, { aStore 1 0 with kern := ⟨1, 8⟩, cap := 16380 })] } = none ∧ cause (.evdecl 0 5) s = some 5
       ∧ (let r := declared [1, 10, 4 + 10 * 2 ^ 32, 0x4000000 + 0x100000, 12, 0x2000, 0x5000, 0x6000 + 2 * 2 ^ 22 + 15 * 2 ^ 27]
          ((after (.evdecl 0 12) r).core 0).wait = .ship 0x4100000)
       ∧ cause (.evdrop 0 0) base = some 7 ∧ (after (.evdrop 0 0) (stored 1 0)).stores = [] ∧ storeIdle (stored 1 0) 0 (aStore 1 0) = true
       ∧ (let w := after (.evupd 0 5 6) (stored 1 0)
          storeIdle w 0 (aStore 1 0) = false ∧ (after (.evdrop 0 0) w).stores.length = 1)) := by decide +kernel

/-- SegmentAt: both ends of the segment of the store that `goodDecl` declares. -/
theorem witness_SegmentAt :
    (let s := declared goodDecl
     [0x100000, 0x100000 + 64 * 2 ^ 12 - 1].all (fun (n : Nat) => decide (regionOf s 0 (word n) = .mapped) && endpointOf (word n) == 0
         && decide (walk s (word n) = .leaf 0x0001000000000003 true) && inHbm (ptePa 0x0001000000000003 + n) 1) = true
       ∧ s.tcache = [] ∧ pteKind 0x0001000000000003 = 0 ∧ bitAt 0x0001000000000003 5 = false ∧ (s.rightsOf 0 1) = 0x1F ∧ (s.core 0).plb = []) := by decide +kernel

/-- Entries of store 0 at cluster 0: keys with values. -/
def holding (s : State) (l : List (Nat × Word)) : State :=
  s.modSlice 0 0 (fun y => { y with entries := l.map (fun p => ⟨p.1, p.2, 0, ⟨0, 0, 0⟩, 0⟩) })

/-- R253, R254, R259: of the values 12, 11 and 9 (below the threshold) the Sluice seals 12, and a free core starts it. -/
theorem test_sluice :
    (let s := after (.sluiceSeal 0) (holding (stored 1 0) [(5, 11), (6, 12), (7, 9)])
     let t := after (.activationStart 1) s
     ((s.slice 0 0).entries.map (fun e => e.key), (s.cluster 0).tcbs.length, ((t.core 1).rg 2, (t.core 1).rg 3, (t.core 1).pc, (t.core 1).task))) =
    ([5, 7], 2, (6, 12, 0x2000, some 1)) := by decide +kernel

/-- R255, R257: a record read back into a store below half its capacity. -/
theorem test_refill :
    (let s := (stored 1 0).modSlice 0 0 (fun y => { y with tail := 1, wins := [none] })
     let s := { s with mem := s.mem.pokes (writesAt 0x100000 (leBytes 8 9 ++ leBytes 8 77)) }
     let t := after (.refill 0 0) s
     ((t.slice 0 0).entries.map (fun e => (e.key, e.val)), (t.slice 0 0).head, (t.slice 0 0).wins)) = ([(9, 77)], 1, []) := by decide +kernel

/-- R267, R270, R271: at D1 an update is parked in its window; when B closes the window, its phase folds it and begins to seal it. -/
theorem test_windows :
    (let s := (stored 1 1).modCore 0 (fun c => { c with ctx := { c.ctx with det := 1 } })
     let a := after (.updateArrival 0) (after (.evupd 0 5 20) (s.wg 20 50))
     let b := after (.windowPhase (home5 a) 0) { a with beaconB := 10 }
     let y := b.slice (home5 a) 0
     (((a.slice (home5 a) 0).parked.map (fun p => (p.1, p.2.val))), y.parked.length, y.entries.map (fun e => (e.key, e.val)), y.busy, y.sealing)) =
    ([(0, 50)], 0, [(5, 50)], some 0, [5]) := by decide +kernel

/-- MillpondMoves: what the clauses ask for, one after another. -/
theorem witness_MillpondMoves :
    (let s := after (.evupd 0 5 6) (stored 1 0)
     (match s.upds[0]? with
      | some u => decide (findStore s u.kern u.st = some (0, aStore 1 0)) && !fanBefore s u && u.reply.isNone | none => false) = true)
    ∧ (let s := (after (.evupdt 0 5 6) { stored 1 0 with eager := false }).modSlice (home5 base) 0 (fun y => { y with tail := 64 })
       (s.upds.map (fun u => (u.reply, homeFull s u))) = [(some 0, true)] ∧ ((after (.updateArrival 0) s).core 0).pop = some (.fail .evOverflow 0 0 0 0 0))
    ∧ windowClosed 9 10 0 = false ∧ windowClosed 10 10 0 = true
    ∧ (let s := holding (stored 1 0) [(5, 10)]
       (nextSeal s 0 0 (aStore 1 0)).isSome = true ∧ freeEntry (s.cluster 0) = some 1 ∧ (s.cluster 0).rotate % 64 = 0)
    ∧ (let s := holding (stored 1 0) [(5, 10), (6, 10)]
       (aStore 1 0).cap / 2 ≤ (s.slice 0 0).entries.length ∧ after (.refill 0 0) s = s)
    ∧ (let s := (holding (stored 1 0) [(5, 10)]).modSlice 0 0 (fun y => { y with tail := 1, wins := [none] })
       (match takeRecord s 0 0 (aStore 1 0) 0 with
        | .ok (it, s1) => (match foldIn s1 0 0 (aStore 1 0) it with | some s2 => (s2.slice 0 0).entries.length == 2 | none => false)
        | .error _ => false) = true)
    ∧ (let s := { stored 1 1 with beaconB := 25 }
       (s.slice 0 0).parked = [] ∧ ((after (.windowPhase 0 0) s).slice 0 0).phase = some 1)
    ∧ (after (.sliceError 0) base).quarCl = [0] ∧ 0 ∈ base.lmap ∧ base.stores = []
    ∧ (let q : Queue := { desc := ⟨0, 0, 0, 0, 0, 0, 0, 0, 0⟩, head := 0, tail := 0, tails := [], held := none, err := 0, cread := 0, written := 0, waiting := [], blocked := false, rot := 0,
                          kern := some ⟨7, false, 1, false, 0⟩ }
       (after (.sliceError 0) { stored 1 0 with queues := [(0, q)] }).stores = []) := by decide +kernel

/-- MillpondMoves and EventInstructions: an update with nothing before it at a home with and without its key, and at D1 with its window open; a window's phase with one parked
update; a parked one of a later window. -/
theorem witness_MillpondMoves_updates :
    (let s := after (.evupd 0 5 6) (stored 1 0)
     aheadOf s 0 (updateOf (stored 1 0) 0 0 5 6 0 none) = [] ∧ s.upds = [updateOf (stored 1 0) 0 0 5 6 0 none] ∧ (s.slice (home5 s) 0).entries = []
       ∧ (∀ m, linkDown s m = false))
    ∧ (let s := (stored 1 1).modCore 0 (fun c => { c with ctx := { c.ctx with det := 1 } })
       let a := after (.evupd 0 5 20) (s.wg 20 50)
       let H := home5 a
       let p := { after (.updateArrival 0) a with beaconB := 10 }
       windowClosed a.beaconB.toNat 10 0 = false ∧ parkedCount a H = 0 ∧ ((a.upds.map (fun u => u.vt.toNat / 10)) = [0])
         ∧ (p.cluster H).parkedM = [] ∧ (p.slice H 0).sealing = [] ∧ (p.slice H 0).busy = none ∧ (p.slice H 0).wins = [] ∧ (p.slice H 0).entries = []
         ∧ (p.cluster H).slices.any (fun q => q.2.busy.isSome) = false ∧ p.stores.all (fun q => q.1 == 0) = true
         ∧ ((after (.windowPhase H 0) { p with beaconB := 9 }).slice H 0).parked.length = 1) := by
  refine ⟨⟨?_, ?_, ?_, fun m => rfl⟩, ?_⟩ <;> decide +kernel

/-- FanoutSourceArrival in MillpondMoves: a directory without the source. -/
theorem witness_MillpondMoves_fan :
    (let s := put (stored 1 0) 0x5018 8 1
     let f := after (.evfan 0 3 6) s
     (f.fansOut.filter (fun q => q.targets.contains (f.logicalNo 0))).length = 1 ∧ f.holdsRecord (.fanout 0) = false
       ∧ (match findSource (clusterWho (some 0) 0) 0x6000 2 3 4 ((kh (word 3)).toNat / 2 ^ 62) f with | .ok (none, _) => true | _ => false) = true) := by decide +kernel

/-- R266, R269: without a store B is 0; with one it is the virtual time of the task that runs. -/
theorem witness_BeaconPublishes :
    (let s := (stored 1 0).modCore 0 (fun c => { c with vt := 12, sentSince := true })
     let t := after .beaconPublication s
     s.stores ≠ [] ∧ mfind s.cores 0 ≠ none ∧ (s.core 0).task.isSome = true ∧ holdsStore s (s.core 0).ctx.kern = true
       ∧ (t.beaconB, (t.core 0).sentSince, (after .beaconPublication { base with beaconB := 5 }).beaconB) = (12, false, 0)) := by decide +kernel


/-! ## Tasks and the scheduler -/

/-- Base with an empty TCB cache, so that event bits reach core 0 alone. -/
def alone : State := base.modCluster 0 (fun c => { c with tcbs := [], ebits := 0x0F })

/-- R301: bits 2 to 5 set, cleared, waited for; the register's form first | (count - 1) * 256 | consume * 2^16. -/
theorem test_event_bits :
    (let s := alone.wg 5 0x0302
     let bits := fun (i : Instr) (s : State) => ((after i s).cluster 0).ebits
     (bits (.ebset 5) s, bits (.ebclr 5) s, bits (.ebwait 5) (alone.wg 5 0x10102), ((after (.ebwait 5) s).core 0).wait, pcOff (.ebset 5) s)) =
    (0x3F, 0x03, 0x03, .ebWait 0x3C false, 2) := by decide +kernel

/-- EventBits: ranges at their ends, steps that leave the change on its way, and the scheduler's cycle. -/
theorem witness_EventBits :
    (let all := [Instr.ebset 5, .ebclr 5, .ebwait 5]
     let s := alone
     let later := { s with eager := false }
     all.all (fun i => cause i (s.wg 5 0xFF00) == none && cause i (s.wg 5 0x00FF) == none && cause i (s.wg 5 0x01FF) == some 7 && cause i (s.wg 5 (2 ^ 17)) == some 7) = true
       ∧ [Instr.ebset 5, .ebclr 5].all (fun i => cause i (s.wg 5 0x10000) == some 7) = true
       ∧ ((after (.ebset 5) (later.wg 5 0x0302)).cluster 0).ebq = [⟨0, true, 0x3C⟩] ∧ ((after (.ebset 5) (later.wg 5 0x0302)).core 0).wait = .ebApply
       ∧ ((after (.ebclr 5) (later.wg 5 0x0302)).cluster 0).ebq = [⟨0, false, 0x3C⟩]
       ∧ ((after (.eventBitCycle 0) (after (.ebset 5) (later.wg 5 0x0302))).cluster 0).ebits = 0x3F ∧ parkedEbwaits s 0 = []
       ∧ (let w := s.modCluster 0 (fun c => { c with tcbs := [(3, { aTask with status := .waiting, wait := 0x0C })] })
          let t := after (.eventBitCycle 0) w
          (t.cluster 0).ebits = 0x03 ∧ mget (t.cluster 0).ready 3 [] = [3]
            ∧ (after (.eventBitCycle 0) (w.modCluster 0 (fun c => { c with ebits := 4 }))).cluster 0 = { w.cluster 0 with ebits := 4 })) := by decide +kernel

/-- R308, R309: the child goes to the newest end of the deque with its path; at D2 to the home of its path. -/
theorem test_fork :
    (let t := after (.fork 8) base
     let d := after (.fork 8) (base.modCore 0 (fun c => { c with ctx := { c.ctx with det := 2 } }))
     let Q := physOf base (homeOfHash base (kh 3))
     ((mfind (t.cluster 0).tcbs 1).map (fun x => (x.kind, x.entry, x.args, x.path)), (t.core 0).deque, (t.core 0).ctx.path, (d.cluster Q).tcbs.any (fun x => x.2.path == 3))) =
    (some (.child, localVa 0x1010, [2, 3, localVa 0x40, 5, 6, 7], 3), [1], 2, true) := by decide +kernel

/-- R308: the last arm goes on; another ends its task and frees the core. -/
theorem test_join :
    (let j := fun (n : Nat) => after (.join 4) (put base 0x40 8 n)
     ((got (j 1) 0x40 8, ((j 1).core 0).task, ((j 1).core 0).pc), (got (j 2) 0x40 8, ((j 2).core 0).task, ((j 2).core 0).status))) =
    ((0, some 0, localVa 0x1002), (1, none, .free)) := by decide +kernel

/-- A TCB at 0x3000 (ENTRY 0x2000, priority 5, PATH 1), where g12 points; the first eight doublewords, PATH and KID. -/
def tcbAt (flags : Nat) : State := put (put (desc base [0x2000, flags, 11, 12]) 0x3040 8 1) 0x3068 8 7

theorem test_spawn :
    (let t := after (.spawn 1 12) (tcbAt 5)
     (mfind (t.cluster 0).tcbs 1).map (fun x => (x.kind, x.entry, x.args.take 2)) = some (.task, 0x2000, [11, 12])
       ∧ (mfind (t.cluster 0).tcbs 1).map (fun x => (x.pri, x.status)) = some (5, .ready) ∧ mget (t.cluster 0).ready 5 [] = [1] ∧ t.rg 1 = 0) := by decide +kernel
theorem test_exit :
    (let s := base.modCluster 0 (fun c => { c with tcbs := [(0, { aTask with setm := 6 })] })
     (((after .exit s).core 0).status, ((after .exit s).cluster 0).tcbs.length, ((after .exit s).cluster 0).ebits)) = (.free, 0, 6) := by decide +kernel
theorem test_gid_tpath :
    ([0, 1, 2, 3, 4, 5, 6].map (fun k => g (.gid 1 k) (ganged base) 1), g (.tpath 1) base 1) = ([0, 0, 4, 7, 0, 3, 64], 1) := by decide +kernel

/-- A gang of one tile with its four members at its barrier but core 0. -/
def gangOf4 : State :=
  let s := ganged base
  let member := fun (k : Nat) => { aCore with wait := .barrier, ctx := { aCore.ctx with gbar := 1, arrived := true, rank := k } }
  { s with cores := [(0, aCore), (1, member 1), (2, member 2), (3, member 3)] }

/-- R312: the last member's GBAR lets all go on. -/
theorem test_barrier :
    (let t := after .gbar gangOf4
     [0, 1, 2, 3].map (fun k => ((t.core k).wait, (t.core k).pc))) = List.replicate 4 (.none, localVa 0x1002) := by decide +kernel

/-- TaskInstructions: what the clauses ask for, one after another. -/
theorem witness_TaskInstructions :
    (let body := base.modCore 0 (fun c => { c with lend := 3, lcnt := 1 })
     let deep := base.modCore 0 (fun c => { c with ctx := { c.ctx with path := 2 ^ 62 } })
     cause (.fork 8) body = some 1 ∧ cause (.fork 8) deep = some 7 ∧ cause (.join 4) body = some 1 ∧ cause (.join 4) (acting base) = some 1
       ∧ cause (.join 4) (ganged base) = some 1 ∧ cause .exit (acting base) = some 1 ∧ cause .gbar base = some 1 ∧ cause (.gid 1 7) base = some 1
       ∧ isOk (joinAccess (localVa 0x40) joinMore base) = true ∧ isOk (joinAccess (localVa 0x40) joinLess (put base 0x40 8 1)) = true)
    ∧ (let s := tcbAt 5
       (match loadBytes s.me (s.rg 12) 192 s with
        | .ok (bs, s1) => (⟨dwordsOf bs 24⟩ : Tcb).ok s1 0 | .error _ => false) = true
         ∧ cause (.spawn 1 5) s = some 7 ∧ cause (.spawn 1 12) (tcbAt 8) = some 7 ∧ (s.cluster 0).backlog = [] ∧ freeEntry (s.cluster 0) = some 1)
    ∧ (let s := put (tcbAt 5) 0x3048 8 (at_ 0x4000)
       let t := after (.spawn 1 12) s
       t.rg 1 = 0 ∧ got t 0x4000 8 = 0x100000001 ∧ (mfind (t.cluster 0).tcbs 1).map (fun x => (x.jaddr, x.ord)) = some (word (at_ 0x4000), 0)
         ∧ (after (.spawn 1 12) (put s 0x4000 8 0x700000001)).rg 1 = 7)
    ∧ levelPick base 0 = none ∧ pcOff .yield base = 2 ∧ cause .gbar (base.modCluster 0 (fun c => { c with tcbs := [(0, { aTask with kind := .thread })] })) = none
    ∧ (let s := base.modCluster 0 (fun c => { c with tcbs := [(0, aTask), (5, { aTask with status := .ready })], ready := [(3, [5])] })
       levelPick s 0 = some (3, 5) ∧ (stowOn (retire s) 0 none).isSome = true ∧ ((after .yield s).core 0).status = .free
         ∧ (mfind ((after .yield s).cluster 0).tcbs 0).map (fun t => (t.stowed, t.status)) = some (true, .ready) ∧ mget ((after .yield s).cluster 0).ready 3 [] = [5, 0])
    ∧ (let w := after .gbar { gangOf4 with eager := false }
       (w.core 0).wait = .barrier ∧ barrierDone w 0 = true ∧ ((after (.gbarComplete 0) w).core 3).wait = .none)
    ∧ (let w := after .gbar { ganged base with eager := false }
       barrierDone w 0 = false ∧ after (.gbarComplete 0) w = w)
    ∧ (after .exit { base with eager := false }).clusters.length = 1 := by decide +kernel

/-- What ReachesScratchpad asks for, of a place of the local window. -/
def reaches (s : State) (off n right : Nat) : Bool :=
  decide (0 < n ∧ off % 65536 + n ≤ 65536 ∧ off < 2 ^ 22) && (s.cluster 0).modes[off / 2 ^ 18]? == some 1 && (s.cluster 0).switching.isEmpty
    && !s.quarCl.contains 0 && match rightsM s.me (4032 + s.logicalNo 0) s with | .ok (w, _) => w.getLsbD right | .error _ => false

/-- TaskInstructions: the words of a JOIN and a TCB in the scratchpad, what YIELD looks at, and a full cache. -/
theorem witness_TaskInstructions_scratchpad :
    (localVa 0x40 = base.rg 4 ∧ [0, 1, 4].all (fun right => reaches base 0x40 8 right) = true ∧ (base.cluster 0).rings = [] ∧ base.holdsRecord (.net 0) = false)
    ∧ (let n := fun k => after (.join 4) (put base 0x40 8 k)
       (n 1).mem.nat (sramLoc 0 0x40) 8 = 0 ∧ ((n 2).core 0).status = .free ∧ cause (.join 4) (put base 0x40 8 (2 ^ 32)) = some 7)
    ∧ (let s := (tcbAt 5).wg 12 (localVa 0x3000)
       reaches s 0x3000 1 0 = true ∧ reaches s (0x3000 + 191) 1 0 = true ∧ cause (.spawn 1 12) s = none) := by decide +kernel

theorem witness_TaskInstructions_yield :
    (let s := base.modCluster 0 (fun c => { c with tcbs := [(0, aTask), (5, { aTask with status := .ready, pri := 2 })], ready := [(2, [5])] })
     readyFor s 0 3 = false ∧ pcOff .yield s = 2
         ∧ (let d := s.modCore 0 (fun c => { c with deque := [5] })
            readyFor d 0 2 = true ∧ readyFor d 0 3 = false)
         ∧ (let r := base.modCluster 0 (fun c => { c with tcbs := [(0, aTask), (5, { aTask with status := .ready })], ready := [(3, [5])] })
            readyFor r 0 3 = true ∧ readyFor r 0 4 = false ∧ (stowArea (retire r) 0 0 aTask).1 = false ∧ cutOff (retire r) 0 = false)) := by decide +kernel

/-- A full TCB cache. -/
def fullCache : State := base.modCluster 0 (fun c => { c with tcbs := (Sys2Proof.below 1024).map (fun k => (k, aTask)) })

theorem lowestFree_full (n : Nat) : lowestFree (Sys2Proof.below n) n = none := by
  simp [lowestFree, List.find?_eq_none]

/-- TaskInstructions: a FORK that finds no entry (log entry 23). -/
theorem witness_TaskInstructions_full :
    freeEntry (fullCache.cluster 0) = none ∧ (fullCache.core 0).loopIdle = true ∧ bitAt (fullCache.core 0).ctx.path 62 = false ∧ ¬ 2 ≤ (fullCache.core 0).ctx.det := by
  have h : (fullCache.cluster 0).tcbs = (Sys2Proof.below 1024).map (fun k => (k, aTask)) := rfl
  refine ⟨?_, by decide +kernel, by decide +kernel, by decide +kernel⟩
  rw [freeEntry, h, List.map_map]
  simpa [Function.comp_def] using lowestFree_full 1024

/-- Cluster 0 with a ready task at entry 5 of level 3; core 1 is free. -/
def readied (t : Task) : State := base.modCluster 0 (fun c => { c with tcbs := [(0, aTask), (5, { t with status := .ready })], ready := [(3, [5])] })

/-- R292, R305, R351: a ready task starts at ENTRY with its arguments; a stowed one where its image says. -/
theorem test_task_start :
    (let t := after (.taskPlace 1) (readied { aTask with entry := 0x2000, vt := 9 })
     let s := readied { aTask with stowed := true }
     let r := after (.taskResume 1) { s with mem := s.mem.pokes (writesAt (7680 + 0x520) (leBytes 8 0x2222) ++ writesAt (7680 + 0x408) (leBytes 8 77)) }
     (((t.core 1).status, (t.core 1).pc, (t.core 1).vt, (t.core 1).rg 2, (t.core 1).rg 8), ((r.core 1).status, (r.core 1).pc, (r.core 1).rg 1, (r.core 1).task))) =
    ((.running, 0x2000, 9, 1, 0), (.running, 0x2222, 77, some 5)) := by decide +kernel

/-- R305: a task that has waited 2^20 cycles moves up, one cycle less and it stays. -/
theorem test_aging :
    (let s := readied aTask
     ((mfind ((after (.taskAging 0 5) { s with now := 2 ^ 20 }).cluster 0).tcbs 5).map (fun t => t.pri), mget ((after (.taskAging 0 5) { s with now := 2 ^ 20 }).cluster 0).ready 4 [],
      decide (after (.taskAging 0 5) { s with now := 2 ^ 20 - 1 } = { s with now := 2 ^ 20 - 1 }))) = (some 4, [5], true) := by decide +kernel

/-- R306: a tile gang reserves the tile with the most free cores (tile 1) and starts there. -/
theorem test_gang :
    (let s := after (.gangReserve 0) (readied { aTask with kind := .tileGang })
     let t := after (.gangStart 0) s
     ((s.cluster 0).reserv, (t.core 6).status, (t.core 6).ctx.rank, (t.tile 1).gang, (t.cluster 0).reserv)) = ([⟨5, [4, 5, 6, 7], 100⟩], .running, 2, some 5, []) := by
  decide +kernel

/-- SchedulerMoves: picks, a core that may not take, the ends of the publication period, and old forwarding entries. -/
theorem witness_SchedulerMoves :
    (let s := readied aTask
     canTake s 1 = true ∧ pickWork s 1 = some 5 ∧ levelPick s 1 = some (3, 5) ∧ canTake s 0 = false ∧ after (.taskPlace 0) s = s ∧ after (.taskResume 0) s = s
       ∧ pickWork base 1 = none ∧ (s.core 1).deque = [] ∧ 5 ∈ mget (s.cluster 0).ready 3 [] ∧ mget (s.cluster 0).ready 4 [] = []
       ∧ headGang (readied { aTask with kind := .tileGang }) 0 3 = some 5 ∧ headGang (readied { aTask with kind := .tileGang }) 0 4 = none
       ∧ turnOf s 1 = true ∧ turnOf s 2 = false ∧ turnOf s 0 = false ∧ mayTake s 1 5 = true ∧ (base.tile 1).atRest = true
       ∧ after (.depthPublication 0) { s with now := 4095 } = { s with now := 4095 } ∧ ((after (.depthPublication 0) { s with now := 4096 }).cluster 0).depth = some 1
       ∧ readyDepth s 0 = 1
       ∧ (let f := s.modCluster 0 (fun c => { c with forwards := [⟨⟨0, 7⟩, none, 1, 0, 0⟩, ⟨⟨0, 7⟩, none, 1, 1, 1⟩] })
          ((after (.forwardingExpiry 0) { f with now := 65536 }).cluster 0).forwards.map (fun x => x.from_) = [1])) := by decide +kernel


/-! ## Messages -/

/-- Base with a destination in g12 and a message in v1. -/
def sending (s : State) (dest val : Nat) : State := (s.wg 12 (word dest)).wv 1 ⟨BitVec.ofNat 512 val, 0⟩

/-- R313, R317, R323: core 0 sends to itself and to core 5 of cluster 1; RECV takes the one, and a buffer holds the other. -/
theorem test_send_recv :
    (let t := after (.messageDelivery 0) (after (.send 12 1) (sending base 0 77))
     let q := after (.messageDelivery 0) (after (.send 12 1) (sending base 37 78))
     ((t.core 0).inbox.map (fun m => (m.val.bits, m.sender, m.kern)), (v (.recv 2) t 2).bits, ((after (.recv 2) t).core 0).inbox.length, t.msgs.length,
      (q.cluster 1).msgBuf.map (fun b => (b.core, b.msg.val.bits)))) = ([(77, 0, ⟨0, 7⟩)], 77, 0, 0, [(37, 78)]) := by decide +kernel

/-- R316: an active message starts at doubleword 0 with doublewords 1 to 6. -/
theorem test_active_message :
    (let t := after (.messageDelivery 0) (after (.send 12 1) (sending base (2 ^ 62) (0x2000 + 9 * 2 ^ 64 + 8 * 2 ^ 384)))
     (mfind (t.cluster 0).tcbs 1).map (fun x => (x.kind, x.entry, x.args))) = some (.activation, 0x2000, [9, 0, 0, 0, 0, 8]) := by decide +kernel

/-- R326: a message crosses from port 1 of core 0 to port 3 of core 32. -/
theorem test_ports :
    (let s := ganged (sending base 0 5)
     let peer := (s.modTile 8 (fun t => { t with gang := some 0 })).modCluster 1 (fun c => { c with tcbs := [(0, { aTask with kind := .tileGang })] })
     let peer := { peer with cores := [(0, (sending base 0 5).core 0), (32, { aCore with task := some 0 })] }
     let t := after (.sendp 1 1) peer
     let r := after (.portTransfer 0 1) t
     let z := after (.recvp 3 3) { r with cur := 32 }
     (portPeer 0 1, (mget (t.core 0).txPorts 1 []).length, (mget (r.core 0).txPorts 1 []).length, (mget (r.core 32).rxPorts 3 []).map (fun m => m.val.bits),
      ((z.core 32).rv 3).bits, inGang s 0)) = ((32, 3), 1, 0, [5], 5, true) := by decide +kernel

/-- Messages: the bounds of a destination, of an activation's address and of the buffers; a sealed core, and the level. -/
def aRecord : TrapRecord := trapRecord base 0 { cause := .align }
theorem witness_Messages :
    (let s := sending base 37 (2 ^ 56 - 2)
     (s.holdsRecord (.net 0) = false ∧ s.msgs.countP (fun y => y.sender == 0) < 8 ∧ sealedCore s 37 = false)
       ∧ cause (.send 12 1) (sending base 2047 0) = none ∧ cause (.send 12 1) (sending base 2048 0) = some 7 ∧ cause (.send 12 1) (sending { base with nlive := 63 } 2047 0) = some 7
       ∧ cause (.send 12 1) (sending base (2 ^ 63) 0) = some 7
       ∧ cause (.send 12 1) (sending base (2 ^ 62 + 2016) (2 ^ 56 - 2)) = none ∧ cause (.send 12 1) (sending base (2 ^ 62 + 2016) (2 ^ 56)) = some 7
       ∧ cause (.send 12 1) (sending base (2 ^ 62) 3) = some 7 ∧ cause (.send 12 1) (sending base (2 ^ 62 + 1) 0) = some 7
       ∧ cause (.send 12 1) { s with quarCl := [1] } = some 16
       ∧ cause (.send 12 1) (sending (base.modCore 0 (fun c => { c with ctx := { c.ctx with det := 1 } })) (2 ^ 62) 0) = some 8)
    ∧ (let full := { sending base 37 0 with msgs := List.replicate 8 { aMsg 1 with sender := 0 } }
       after (.send 12 1) full = full ∧ (after (.send 12 1) { full with msgs := List.replicate 7 { aMsg 1 with sender := 0 } }).msgs.length = 8)
    ∧ (let s := base.modCore 0 (fun c => { c with inbox := [aMsg 4] })
       (s.cluster 0).msgBuf = [] ∧ ((after (.recv 2) base).core 0).wait = .inbox ∧ (v (.recv 2) s 2).bits = 4)
    ∧ (let s := { base with msgs := [{ aMsg 3 with unit := 2 }, aMsg 4] }
       (s.msgs.take 1).any (fun y => sameRoute y (aMsg 4)) = false ∧ claimantOf s 0 ⟨0, 7⟩ = .running ∧ claimantOf s 2 ⟨0, 7⟩ = .nobody ∧ targetOf s (aMsg 4) = 0
         ∧ (s.cluster 0).buffered = 0 ∧ freeEntry (s.cluster 0) = some 1)
    ∧ (let w := { aMsg 3 with window := some (5, 10) }
       windowClosed base.beaconB.toNat 10 5 = false ∧ ((after (.messageDelivery 0) { base with msgs := [w] }).cluster 0).parkedM = [w])
    ∧ (let lost := { base with msgs := [{ aMsg 3 with cl := 1 }], quarCl := [1] }
       (let z := { base with msgs := [{ aMsg 3 with lost := true }] }
        (after (.messageDelivery 0) z).msgs = [] ∧ ((after (.messageDelivery 0) z).cluster 0).mailbox.map (fun r => (r.1, r.2.cause, r.2.sub)) = [(32, .poison, 2)]
          ∧ (let h := z.modCluster 0 (fun c => { c with heldRecs := [(.net 0, aRecord)] })
             after (.messageDelivery 0) h = h))
       ∧ sealedCore lost 32 = true ∧ (mfind ((after (.messageDelivery 0) lost).cluster 0).mailbox 32).map (fun r => r.cause) = some .poison)
    ∧ (let s := ganged (sending base 0 5)
       let full := s.modCore 0 (fun c => { c with txPorts := [(1, List.replicate 4 (aMsg 1))] })
       portClosed s 0 1 = false ∧ portClosed { s with quarCl := [1] } 0 1 = true ∧ ((after (.sendp 1 1) full).core 0).wait = .sendPort 1
         ∧ ((after (.recvp 2 1) s).core 0).wait = .recvPort 1 ∧ cause (.sendp 1 1) base = some 1 ∧ cause (.recvp 2 1) base = some 1
         ∧ cause (.sendp 1 1) { s with quarCl := [1] } = some 13 ∧ cause (.recvp 2 1) { s with quarCl := [1] } = some 13
         ∧ after (.portTransfer 0 1) s = s
         ∧ (v (.recvp 2 1) (s.modCore 0 (fun c => { c with rxPorts := [(1, [aMsg 6])] })) 2).bits = 6) := by decide +kernel

/-- Messages: a cluster whose buffer is full, to which an active message and one of a core are on their way. -/
def crowded : State :=
  { (base.modCluster 0 (fun c => { c with msgBuf := List.replicate 1024 ⟨3, aMsg 1, false⟩ })) with msgs := [{ aMsg 4 with active := true }, aMsg 5] }

theorem witness_Messages_full :
    1024 ≤ (crowded.cluster 0).buffered ∧ ((after (.messageDelivery 0) crowded).msgs.length, (after (.messageDelivery 1) crowded).msgs.length) = (2, 2)
      ∧ (after (.messageDelivery 0) (crowded.modCluster 0 (fun c => { c with msgBuf := c.msgBuf.drop 1 }))).msgs.length = 1 := by decide +kernel

/-! ## System instructions and control registers -/

theorem test_trap_halt :
    (let t := after (.trap 0x45) base
     let r := fun (s : State) => (mfind (s.cluster 0).mailbox 0).map (fun r => (r.cause.code, r.sub, r.pc, r.rpc))
     (r t, r (after .halt base), cause (.trap 0x0F) base, cause (.trap 0x3F) base, cause (.trap 0x10) base)) =
    (some (0x45, 0, rec56 (localVa 0x1000), rec56 (localVa 0x1002)), some (0x0F, 1, rec56 (localVa 0x1000), 0), some 0x0F, some 1, some 1) := by decide +kernel

/-- R343: a record's doublewords: EV_OVERFLOW of core 5 of logical cluster 2, late and held, number 7, lane 3. -/
theorem test_record_layout :
    ({ trapRecord base 0 { cause := .evOverflow } with
       sub := 9, unit := 69, late := true, held := true, seq := 7, lane := 3, pc := 0x1234, from_ := 0x20, faddr := 0x30, rpc := 0x1236, tag := 5, data := 6,
       kid := 8, cyc := 2 } : TrapRecord).dwords =
    [0x000300071845090B, 0x1234, 0x20, 0x30, 0x1236, 5, 6, 0x200000008] := by decide +kernel

/-- R364: CSRR of CYC, DET, WDT and BANKCFG; CSRW of WDT in its range. -/
theorem test_csrs :
    ([0x00, 0x01, 0x04, 0x18].map (fun n => g (.csrr 1 n) base 1), [15, 16, 47, 48].map (fun (n : Nat) => cause (.csrw 0x04 5) (base.wg 5 (word n))),
      ((after (.csrw 0x04 5) (base.wg 5 47)).core 0).ctx.wdt, [(4 : BitVec 7), 0x0C, 0x14, 0x1B].map (fun n => cause (.csrr 1 n) base)) =
    ([100, 0, 26, 1], [some 1, none, none, some 1], 47, [none, some 1, some 1, some 1]) := by decide +kernel

/-- R96: bank 0 goes from scratchpad to cache and back: its bytes are 0 afterwards. -/
theorem test_bankcfg :
    (let s := (put (base.modCluster 0 (fun c => { c with tcbs := [(0, { aTask with kind := .clusterGang })] })) 0x40 8 9).wg 5 2
     let w := after (.csrw 0x18 5) { s with eager := false }
     let t := after (.bankcfgSwitchDone 0) w
     ((w.cluster 0).switching, (w.core 0).wait, (t.cluster 0).mode 0, (t.core 0).wait, got t 0x40 8)) = ([(0, 2)], .bankSwitch, 2, .none, 0) := by decide +kernel

/-- SystemInstructions: the registers at their bounds, and the classes of task that may write them. -/
theorem witness_SystemInstructions :
    (let s := base
     mfind ((releaseTo s 0 2).cluster 0).mailbox 0 = none ∧ cause (.csrr 1 0) (s.modCore 0 (fun c => { c with ctx := { c.ctx with det := 1 } })) = some 8
       ∧ (∀ n ∈ [0x00, 0x01, 0x02, 0x03, 0x08, 0x09, 0x0A, 0x0B, 0x11, 0x19, 0x05, 0x07, 0x0C, 0x0F, 0x14, 0x17, 0x1B, 0x7F], cause (.csrw (BitVec.ofNat 7 n) 5) s = some 1)
       ∧ (∀ q ∈ (s.tile 0).queue, q.core ≠ 0) ∧ (∃ q ∈ ((commanded s (.mz 0)).tile 0).queue, q.core = 0) ∧ after (.csrr 1 0x11) (commanded s (.mz 0)) = commanded s (.mz 0)
       ∧ (s.core 0).mgn.last < 16 ∧ (s.core 0).task = some 0 ∧ mfind (s.cluster 0).tcbs 0 = some aTask ∧ aTask.kind.gang = false
       ∧ cause (.csrw 0x10 5) s = some 1 ∧ cause (.csrw 0x12 5) s = some 1 ∧ cause (.csrw 0x13 5) s = some 1 ∧ cause (.csrw 0x18 5) s = some 3
       ∧ (after (.csrw 0x1A 5) s).snap.trigs = [(164, 5)])
    ∧ (let s := ganged base
       unitOpen s 0 = true ∧ opsOf (.csrw 0x10 5) s = [.monb 5] ∧ opsOf (.csrw 0x13 5) (s.wg 5 0x43) = [.cncd 3] ∧ ((after (.csrw 0x12 5) s).tile 0).mrepl = 5)
    ∧ (let s := ganged base
       let full := s.modTile 0 (fun t => { t with queue := List.replicate 32 ⟨.mz 0, 1, 1, 0, 0, 7, false⟩ })
       unitOpen full 0 = false ∧ after (.csrw 0x10 5) full = full)
    ∧ (let c := (base.modCluster 0 (fun c => { c with tcbs := [(0, { aTask with kind := .clusterGang })] })).wg 5 1
       bankSwitches (c.cluster 0) 1 = [] ∧ bankSwitches (c.cluster 0) 3 = [] ∧ bankSwitches (c.cluster 0) (2 ^ 30 + 1) = [(15, 1)] ∧ cause (.csrw 0x18 5) c = none)
    ∧ (let s := base.wg 5 (localVa 0x2000)
       [0, 1, 23].all (fun k => reaches s (0x2000 + 64 * k) 64 1 && reaches s (0x2000 + 64 * k) 64 3) = true ∧ s.eager = true ∧ (s.cluster 0).rings = []
         ∧ cause (.stow 5) (ganged s) = some 1 ∧ cause (.stow 5) (s.wg 5 (localVa 0x2020)) = some 5
         ∧ (match resolve s.me .sector (s.rg 5) 1536 s with
            | .ok (ps, s1) => isOk (ringsFree ps s1) && isOk (noDead ps s1) | .error _ => false) = true) := by decide +kernel

/-- R351: STOW writes the image of the task; its PC, PATH and g1 as they lie there. -/
theorem test_stow :
    (let t := after (.stow 5) (base.wg 5 (localVa 0x2000))
     (got t 0x2520 8, got t 0x2588 8, got t 0x2408 8, (t.core 0).pc)) = (localWin + 0x1002, 1, 1, localVa 0x1002) := by decide +kernel


/-! ## Registers as events reach them -/

/-- Base after bring-up (R369). -/
def up : State := { base with sys := { base.sys with bring := 6 } }

/-- What the management space answered. -/
def answer (i : Instr) (s : State) : Option (Option Word) := (after i s).sys.mgmtReply

/-- R330, R331, R355: the management space: a die's registers, a link's registers, and offsets that hold none. -/
theorem test_management :
    (let w := fun (off v : Nat) => after (.managementRequest (.register off) (some (.word (word v)))) up
     ([(0x100000, 0x20080), (0x100000, 0x20040), (0x110008, 1), (0x110008, 2), (0x120010, 16), (0x120010, 8), (0x130018, 65535), (0x130018, 65536), (0x100028, 4), (0x100028, 20),
        (0x100028, 3), (0x100028, 21), (0, 3), (0, 4), (8, 0), (0x100150, 65535), (0x100150, 65536), (4, 0), (0x100, 0), (0xFFFF8, 0), (0x140000, 0), (0x100030, 0)].map
          (fun p => (w p.1 p.2).sys.mgmtReply),
      (((w 0x100000 0x20080).die 0).ptroot, ((w 0x110008 1).die 1).flush, ((w 0x100028 20).die 0).rslog, ((w 0x100150 9).link 5).ethr, answer (.managementRequest (.register 0x10) none) up))) =
    ([some (some 0), some none, some (some 0), some none, some (some 0), some none, some (some 0), some none, some (some 0), some (some 0),
        some none, some none, some (some 0), some none, some none, some (some 0), some none, some none, some none, some none, some none, some none],
      (0x20080, true, 20, 9, some (some 16))) := by decide +kernel

/-- R361: a trigger reaches its die 64 cycles later and latches; another is ignored and counted while it is pending. -/
theorem test_snapshot :
    (let t := after (.snaptWrite 0 5) up
     let l := after .snapshotLatch { t with now := 164 }
     let m := after .snapshotLatch { after (.snaptWrite 0 6) l with now := 228 }
     ((after .snapshotLatch { t with now := 163 }).snap.pend, (l.snap.tag, l.snap.pend, l.snap.ign, l.snap.cores.length), (m.snap.tag, m.snap.ign), (after .snapshotRead m).snap.pend)) =
    (false, (5, true, 0, 1), (5, 1), false) := by decide +kernel

/-- R355: MGN of a core: a step while no pin is set, the pin kept and cleared; R364: WDT, BANKCFG, MREPL. -/
theorem test_core_registers :
    (let pinned := up.modCore 0 (fun c => { c with mgn := { c.mgn with pin := true, step := 0 } })
     let m := fun (v : Word) (s : State) => (((after (.mgnWrite 0 v) s).core 0).mgn.pin, ((after (.mgnWrite 0 v) s).core 0).mgn.step)
     (m 3 up, m 0x13 up, m 0x13 pinned, m 3 pinned, m 0x23 up)) = ((false, 3), (false, 3), (true, 0), (false, 3), (false, 3)) ∧
    (((after (.wdtWrite 0 47) up).core 0).ctx.wdt, ((after (.wdtWrite 0 15) up).core 0).ctx.wdt, ((after (.mreplWrite 3 9) up).tile 3).mrepl) =
    (47, 26, 9) := by decide +kernel

/-- R331: LCTL: bit 0 stays set, bit 1 follows. -/
theorem test_lctl :
    (let s := after (.lctlForceX32 2 true) (after (.lctlRetrainRequest 2) up)
     ((s.link 2).lctl, ((after (.registerWrite 0x80 0) s).link 2).lctl, ((after (.lctlForceX32 2 false) s).link 2).lctl)) = (3, 1, 1) := by decide +kernel

/-- A row of the endpoint table. -/
def anEndpoint (r : TreeRole) : Endpoint := { fabric := 77, rod := 1, rud := 2, rodMode := true, ports := 1, domain := 0, role := r }

/-- R317, R333, R336, R371: the endpoint table with the place in the tree, the own number, the power limit, and the counts. -/
theorem test_management_requests :
    (let ok := fun (q : MgmtPlace × MgmtData) => (after (.managementRequest q.1 (some q.2)) up).sys.mgmtReply == some (some 0)
     let good : List (MgmtPlace × MgmtData) := [(.endpoint 1, .entry (anEndpoint .parent)), (.endpoint 32767, .entry (anEndpoint .child)), (.ownNumber, .word 0),
       (.ownNumber, .word 32767), (.powerLimit, .word 800), (.powerLimit, .word 1600)]
     let bad : List (MgmtPlace × MgmtData) := [(.endpoint 0, .entry (anEndpoint .parent)), (.endpoint 32768, .entry (anEndpoint .child)), (.ownNumber, .word 32768),
       (.powerLimit, .word 799), (.powerLimit, .word 1601), (.register 0, .entry (anEndpoint .parent))]
     good.all ok = true ∧ bad.all (fun q => !ok q) = true
       ∧ (after (.managementRequest (.endpoint 9) (some (.entry (anEndpoint .parent)))) up).net.parent = some 9
       ∧ (mfind (after (.managementRequest (.endpoint 9) (some (.entry (anEndpoint .child)))) up).net.children 9).map (fun k => (k.last.b, k.last.q, k.lost)) = some (0, false, false)
       ∧ (after (.managementRequest .powerLimit (some (.word 900))) up).sys.limit = 900 ∧ (after (.managementRequest .ownNumber (some (.word 5))) up).net.own = 5
       ∧ answer (.managementRequest (.discarded 63) none) (up.modCluster 63 (fun c => { c with discard := 7 })) = some (some 7)
       ∧ answer (.managementRequest (.softErrors 0) none) (up.modCore 0 (fun c => { c with mgn := { c.mgn with soft := 3 } })) = some (some 3)
       ∧ answer (.managementRequest (.ccmd 5) none) (after (.managementRequest (.ccmd 5) (some (.word 0x709))) up) = some (some 0x749)) := by decide +kernel

/-- RegistersAndEvents: both sides of each condition. -/
theorem witness_RegistersAndEvents :
    (let cg := base.modCluster 0 (fun c => { c with tcbs := [(0, { aTask with kind := .clusterGang })] })
     ((after (.bankcfgWrite 0 2) cg).cluster 0).switching = [(0, 2)] ∧ after (.bankcfgWrite 0 2) base = base ∧ after (.wdtWrite 0 48) base = base)
    ∧ (base.sys.bring < 6 ∧ after .snapshotRead base = base ∧ after (.managementRequest (.register 0) none) base = base ∧ after (.mgnWrite 0 1) base = base)
    ∧ inHbm (word 0x20080).toNat 128 = true ∧ (canonical 16 = true ∧ (16 : Word).toNat % 16 = 0)
    ∧ after (.tcflushWrite 1 2) base = base ∧ ((after (.tcflushWrite 1 1) base).die 1).flush = true ∧ after (.tcflushComplete 1) base = base
    ∧ (let s := after (.tcflushWrite 0 1) { base with tcache := [⟨1, false, 0, [], 1⟩] }
       let t := after (.tcflushComplete 0) { s with tcache := s.tcache ++ [⟨2, false, 0, [], 1⟩] }
       (t.die 0).flush = false ∧ (s.tcache ++ t.tcache).map (fun e => (e.onDie 0, e.stage)) = [(true, 2), (true, 3), (true, 1)]) := by decide +kernel

/-! ## Queues and kernels -/

/-- A queue description whose rings lie in mapped memory: eight slots at 0x200000, completions at 0x300000, dies of all kinds. -/
def aDesc : QueueDesc := { ring := 0x200000, lslot := 3, cring := 0x300000, lcomp := 1, det := 0, place := 0, dom := 0, msb := 0, lms := 12 }

/-- Bring-up done; memory below 2^25 mapped to itself with every right for tenant 0, and queue 3 with a TCB (ENTRY 0x2000, flags as given, PATH 1, KID 9). -/
def queued (flags n : Nat) : State :=
  let s := stored 1 0
  let s := { s with sys := { s.sys with bring := 6 }, stores := [] }
  let s := after (.notifyTailWrite 3 (word n)) (after (.queueCreate 3 aDesc) s)
  { s with mem := s.mem.pokes (writesAt 0x200000 (leBytes 8 0x2000 ++ leBytes 8 flags ++ leBytes 8 11 ++ leBytes 8 12) ++ writesAt 0x200040 (leBytes 8 1)
      ++ writesAt 0x200068 (leBytes 8 9)) }

/-- An empty queue, and queue 3 of a state. -/
def emptyQueue : Queue :=
  { desc := aDesc, head := 0, tail := 0, tails := [], held := none, err := 0, cread := 0, written := 0, waiting := [], blocked := false, rot := 0, kern := none }
def q3 (s : State) : Queue := (mfind s.queues 3).getD emptyQueue

theorem test_queues :
    ([1, 8, 9].map (fun n => ((q3 (queued 5 n)).tail, (q3 (queued 5 n)).err)) = [(1, 0), (8, 0), (0, 2)])
      ∧ (after (.notifyErrRead 3) (queued 5 9)).net.reply = some (.data [2, 0, 0, 0, 0, 0, 0, 0]) ∧ (q3 (after (.notifyErrRead 3) (queued 5 9))).err = 0
      ∧ (q3 (after (.creadWrite 3 4) (queued 5 1))).cread = 4 ∧ (after (.queueDestroy 3) (queued 5 1)).queues.length = 0 := by decide +kernel

/-- R291, R294, R299: the TCB goes to a cluster, rotating from 0; a bad TCB completes with FORMAT_FAULT and its slot as PC. -/
theorem test_admission :
    (let t := after (.tcbAdmission 3) (queued 5 1)
     let r := after (.tcbAdmission 3) (queued 8 1)
     (q3 t).head = 1 ∧ (q3 t).rot = 1 ∧ (q3 t).kern = some ⟨9, false, 0, false, 5⟩
       ∧ (mfind (t.cluster 0).tcbs 1).map (fun x => (x.kern, x.entry, x.pri)) = some (⟨3, 9⟩, 0x2000, 5)
       ∧ (q3 r).head = 1 ∧ (q3 r).err = 1 ∧ (q3 r).waiting = [⟨0, .formatFault, 9, 0, 0⟩]) := by decide +kernel

/-- R300: the kernel whose last TCB has run completes; its record goes to its completion ring, or waits for CREAD. -/
theorem test_completion :
    (let s := queued 5 1
     let k := { s with queues := [(3, { q3 s with kern := some ⟨9, true, 6, false, 5⟩ })] }
     let w := after (.kernelComplete 3) k
     let t := after (.completionRecordWrite 3) w
     let full := after (.completionRecordWrite 3) { w with queues := [(3, { q3 w with written := 2 })] }
     (q3 w).kern = none ∧ (q3 w).waiting = [⟨0, .none, 9, 6, 0⟩] ∧ (q3 t).written = 1 ∧ (q3 t).waiting = [] ∧ t.mem.nat 0x300000 4 = 9 ∧ t.mem.nat 0x300008 8 = 6
       ∧ (q3 full).err = 4 ∧ (q3 full).written = 2) := by decide +kernel

/-- QueuesAndKernels: the description at its bounds, what the engine reads, the placement rules, and both ends of each counter. -/
theorem witness_QueuesAndKernels :
    (let s := { base with sys := { base.sys with bring := 6 } }
     let made := fun (q : Nat) (d : QueueDesc) => (after (.queueCreate q d) s).queues.length
     [made 0 aDesc, made 65535 aDesc, made 65536 aDesc, made 3 { aDesc with ring := 32 }, made 3 { aDesc with lslot := 16, lcomp := 16 }, made 3 { aDesc with lslot := 17 }, made 3 { aDesc with lcomp := 17 },
       made 3 { aDesc with det := 1 }, made 3 { aDesc with det := 3, lms := 24 }, made 3 { aDesc with det := 1, lms := 11 }, made 3 { aDesc with det := 1, msb := 64 }, made 3 { aDesc with det := 4 },
       made 3 { aDesc with place := 2 }, made 3 { aDesc with place := 3 }] = [1, 1, 0, 0, 1, 0, 0, 1, 1, 0, 0, 0, 1, 0]
       ∧ (after (.queueCreate 0 aDesc) base).queues = [] ∧ (after (.notifyErrRead 3) s).net.reply = some (.fault .plbDeny) ∧ after (.creadWrite 3 1) s = s)
    ∧ (let s := queued 5 1
       (match deviceRead s (engineWho (some 0) 0) 0x200000 192 with
        | some (bs, s1) =>
          let tcb : Tcb := ⟨dwordsOf bs 24⟩
          tcb.ok s1 0 && decide (tcb.kid = 9) && decide (tcb.named = none) && decide (q3 s1 = q3 s) && decide ((s1.cluster 0).backlog.length < 2 ^ 20) && !s1.quarCl.contains 0
            && decide ((placement s (q3 s) tcb) = (0, 1)) && decide ([63, 64, 65].map (fun r => placement s { q3 s with rot := r } tcb) = [(63, 0), (0, 1), (0, 1)]) && (s1.cluster 0).depth.isNone
        | none => false) = true)
    ∧ (let s := queued 5 0
       after (.tcbAdmission 3) s = s ∧ after (.kernelComplete 3) s = s)
    ∧ (let s := queued 5 1
       let busy := fun (kid : BitVec 32) => { s with queues := s.queues.map (fun p => (p.1, { p.2 with kern := some ⟨kid, false, 2, false, 3⟩ })) }
       (q3 (after (.tcbAdmission 3) (busy 9))).kern = some ⟨9, false, 2, false, 3⟩
         ∧ (q3 (after (.tcbAdmission 3) (busy 8))).head = 0 ∧ after (.kernelComplete 3) (busy 9) = busy 9
         ∧ (q3 (after (.tcbAdmission 3) { s with quarCl := [0] })).head = 0)
    ∧ (let s := queued 5 1
       let w := { s with queues := s.queues.map (fun p => (p.1, { p.2 with waiting := [⟨7, .soft, 9, 2, 4⟩] })) }
       let bad := { w with queues := w.queues.map (fun p => (p.1, { p.2 with desc := { aDesc with cring := 2 ^ 26 } })) }
       (q3 (after (.completionRecordWrite 3) bad)).err = 8 ∧ (q3 (after (.completionRecordWrite 3) bad)).blocked = true
         ∧ (let b := after (.completionRecordWrite 3) bad
            after (.completionRecordWrite 3) b = b)
         ∧ (deviceWrite w (engineWho (some 0) 0) 0x300000 (recordBytes ⟨2047, .soft, 9, 2, 4⟩)).isSome = true) := by decide +kernel

/-- Queue 3 with a TCB, beside queue 2 whose TCB has waited for cluster 5 to leave the map (R20). -/
def behindHeld : State :=
  let s := queued 5 1
  { s with queues := (2, { q3 s with held := some 5 }) :: s.queues, lmap := s.lmap.filter (fun P => P != 5) }

/-- QueuesAndKernels: a TCB that is held, one that comes after it, one that waits for a bank, and one that the device cannot read. -/
theorem witness_QueuesAndKernels_waits :
    (let s := { queued 5 1 with quarCl := [0] }
     (q3 (after (.tcbAdmission 3) s)).held = some 0 ∧ (q3 (after (.tcbAdmission 3) s)).head = 0)
    ∧ laterThanHeld behindHeld 3 (q3 behindHeld) = true ∧ after (.tcbAdmission 3) behindHeld = behindHeld
    ∧ laterThanHeld { behindHeld with lmap := base.lmap, quarCl := [5] } 3 (q3 behindHeld) = false
    ∧ (let at_ := fun (va : Word) => let s := queued 5 1; { s with queues := [(3, { q3 s with desc := { aDesc with ring := va } })] }
       let bank := (at_ (localVa 0x40)).modCluster 0 (fun c => { c with switching := [(0, 2)] })
       (match loadBytes (engineWho (some 0) 0) (localVa 0x40) 192 bank with | .error (.wait w) => decide (w = .banks) | _ => false) = true
         ∧ after (.tcbAdmission 3) bank = bank
         ∧ (q3 (after (.tcbAdmission 3) (at_ (2 ^ 26)))).waiting = [⟨0, .formatFault, 0, 0, 0⟩]) := by decide +kernel

/-- QueuesAndKernels: a cluster whose backlog is full takes no TCB (R296). -/
def fullBacklog : State := (queued 5 1).modCluster 0 (fun c => { c with backlog := List.replicate (2 ^ 20) aTask })

theorem witness_QueuesAndKernels_room :
    ¬ (fullBacklog.cluster 0).backlog.length < 2 ^ 20
      ∧ (match loadBytes (engineWho (some 0) 0) 0x200000 192 fullBacklog with
         | .ok (bs, s1) => let tcb : Tcb := ⟨dwordsOf bs 24⟩; tcb.ok s1 0 && decide (tcb.kid = 9) && !s1.quarCl.contains 0 | .error _ => false) = true := by
  refine ⟨?_, by decide +kernel⟩
  have : (fullBacklog.cluster 0).backlog = List.replicate (2 ^ 20) aTask := rfl
  rw [this, List.length_replicate]; omega

/-! ## Pages and remote accesses -/

/-- Pages of 64 KiB at 0x10010000 (present), 0x10020000 (to be regenerated, entry 0), 0x10030000 (absent) and 0x10040000 (the notify page of queue 3); an entry of the residency
schedule at 0x100000, and the regeneration entry at 0x140000 with its template at 0x150000 (KID 9). -/
def residing (w0 w1 : Word) : State :=
  let s := queued 5 0
  let entry := fun (a : Nat) (e : Word) => writesAt a (leBytes 8 e.toNat)
  { s with
    mem := s.mem.pokes (entry 0x50040 0x60001 ++ entry 0x60008 0x0001000000070003 ++ entry 0x60010 0x40 ++ entry 0x60018 0 ++ entry 0x60020 (word (notifyBase + 3 * 65536 + 3))
      ++ entry 0x100000 w0 ++ entry 0x100008 w1 ++ entry 0x140000 0x10040000 ++ entry 0x140008 0x150000 ++ entry 0x150068 9 ++ writesAt 0x70008 [5])
    dies := [(0, { Die.reset with ptroot := 0x20000, rgcnt := 1, rgbase := 0x140000, rsbase := 0x100000, tail := 1, step := 4 })] }

/-- Core 0 waiting for a page. -/
def waiting (va : Word) (s : State) : State := s.modCore 0 (fun c => { c with wait := .page va })

/-- R112: entries of the schedule: evict, fill (with and without a frame), pin; one not due, and one with a reserved bit. -/
theorem test_residency :
    (let a := fun (k p : Nat) => word (k * 2 ^ 62 + p)
     let r := fun (w0 w1 : Word) => after (.residencyEntryPerform 0) (residing w0 w1)
     let e := r (a 0 0x10010000) 4
     let f := r (a 1 0x10030000) 4
     let none_ := after (.residencyEntryPerform 0) { residing (a 1 0x10030000) 4 with freeFrames := 0 }
     e.mem.nat 0x60008 8 = 0x0001000000070002 ∧ e.freeFrames = 12582913 ∧ (e.die 0).head = 1 ∧ mfind e.backing 0x1001 = some [(8, 5)]
       ∧ f.mem.nat 0x60018 1 = 1 ∧ f.freeFrames = 12582911 ∧ (none_.die 0).head = 0 ∧ (r (a 2 0x10010000) 4).pinned = [0x10010000]
       ∧ ((r (a 2 0x10010000) 5).die 0).head = 0 ∧ ((r (word (2 ^ 63 + 2 ^ 60)) 4).die 0).err = 4) := by decide +kernel

/-- R110, R111: a page that came goes on; one that is absent ships the task or traps; one to be regenerated takes a frame and places the template's kernel on queue 3. -/
theorem test_page_waits :
    (let w := fun (va : Word) => waiting va (residing 0 0)
     let r := after (.contextShip 0) (w 0x10020008)
     (((after (.contextShip 0) (w 0x10010008)).core 0).wait, ((after (.contextShip 0) (w 0x10030008)).core 0).wait, ((after (.contextShip 0) { w 0x10020008 with freeFrames := 0 }).core 0).wait,
       cause (.contextShip 0) ((w 0x10030008).modCore 0 (fun c => { c with h := c.h.set 0 (.ring 0 0 0) })))
      = (.none, .ship 0x10030008, .frame 0x10020008 100, some 4)
      ∧ (q3 r).tail = 1 ∧ r.mem.nat 0x200010 8 = 0x10020000 ∧ r.freeFrames = 12582911 ∧ r.regens.map (fun g => (g.page, g.index, g.kern, g.failed)) = [(0x10020000, 0, ⟨3, 9⟩, false)]) := by
  decide +kernel

/-- R111: when the kernel is done the die walks again: the access goes on, or traps. -/
theorem test_regeneration_complete :
    (let r := after (.contextShip 0) (waiting 0x10020008 (residing 0 0))
     let done : State := { r with queues := r.queues.map (fun (p : Nat × Queue) => (p.1, { p.2 with head := 1 })) }
     let here := { done with mem := done.mem.pokes (writesAt 0x60010 (leBytes 8 0x0001000000080003)) }
     let far := done.modCore 0 (fun c => { c with h := c.h.set 0 (.ring 0 0 0) })
     ((after (.regenerationComplete 0 0) r).regens.length, ((after (.regenerationComplete 0 0) here).core 0).wait, (after (.regenerationComplete 0 0) here).regens.length,
      cause (.regenerationComplete 0 0) far)) = (1, .none, 0, some 4) := by decide +kernel

/-- R112: a wait for a frame ends when a frame is free, and traps after 2^20 cycles without one. -/
theorem test_frame_wait :
    (let s := (residing 0 0).modCore 0 (fun c => { c with wait := .frame 0x10020008 100, h := c.h.set 0 (.ring 0 0 0) })
     let none_ := { s with freeFrames := 0, now := 100 + 2 ^ 20 }
     (((after (.frameWaitTimeout 0) s).core 0).wait, cause (.frameWaitTimeout 0) none_, decide (after (.frameWaitTimeout 0) { none_ with now := 99 + 2 ^ 20 } = { none_ with now := 99 + 2 ^ 20 }))) =
    (.page 0x10020008, some 4, true) := by decide +kernel

/-- The same state with every link trained. -/
def trained (s : State) : State := { s with links := (List.range 16).map (fun k => (k, { Link.reset with up := true })) }

/-- R332, R334: remote accesses at this device's memory, to another device, and connections. -/
theorem test_remote :
    (let s := trained (residing 0 0)
     let s := { s with mem := s.mem.pokes (writesAt 0x180000 (leBytes 8 12)) }
     let r := fun (op : RemoteOp) => after (.remoteRequest ⟨op, 0x180000, 0⟩) s
     let m := fun (op : RemoteOp) => ((r op).mem.nat 0x180000 8, (r op).net.performed)
     (r (.read 8)).net.reply = some (.data (leBytes 8 12)) ∧ (r (.atomic .add 3 0)).net.reply = some (.data (leBytes 8 12))
       ∧ [m (.read 8), m (.write [1, 2]), m (.atomic .add 3 0), m (.atomic .swp 3 0), m (.atomic .cas 4 12), m (.atomic .cas 4 11)] = [(12, 0), (0x201, 1), (15, 1), (3, 1), (4, 1), (12, 1)]
       ∧ (after (.remoteRequest ⟨.read 8, 0x180000 + 2 ^ 55, 0⟩) s).net.reply = some (.fault .plbDeny)
       ∧ (after (.remoteRequest ⟨.read 8, 0x10030000, 0⟩) s).net.reply = some (.fault .pageFault)
       ∧ (after (.ueConnectionOpen .rud 9) s).net.conns = [(.rud, 9)] ∧ (after (.ueConnectionOpen .other 9) s).net.reply = some (.fault .plbDeny)) := by decide +kernel

/-- PagesAndRemoteAccesses: the registers of the schedule page at their bounds, and what the clauses ask of the entries, walks and waits. -/
theorem witness_PagesAndRemoteAccesses :
    (let s := { residing 0 4 with eager := true }
     let d := fun (i : Instr) => (((after i s).die 0).step, ((after i s).die 0).tail, ((after i s).die 0).err)
     [d (.scheduleStepWrite 0 4), d (.scheduleStepWrite 0 3), d (.scheduleTailWrite 0 16), d (.scheduleTailWrite 0 1), d (.scheduleTailWrite 0 17), d (.scheduleTailWrite 0 0)] =
      [(4, 1, 0), (4, 1, 1), (4, 16, 0), (4, 1, 0), (4, 1, 2), (4, 1, 2)]
       ∧ (after (.scheduleErrRead 0) (s.setDie 0 { s.die 0 with err := 5 })).net.reply = some (.data (leBytes 8 5)))
    ∧ (let s := residing 0x10010000 4
       (match deviceRead s (engineWho none 0) 0x100000 16 with
        | some (bs, s1) => decide (leNat (bs.take 8) = 0x10010000) && decide (leNat (bs.drop 8) = 4) && decide (s1.die 0 = s.die 0) && !isPinned s1 0x10010000 (2 ^ 16)
            && decide (pageEntry s1 0x10010000 false = some (0x60008, 0x0001000000070003)) && decide (pageEntry s1 0x10030000 false = some (0x60018, 0))
        | none => false) = true
         ∧ (after (.residencyEntryPerform 0) { s with pinned := [0x10010000] }).mem.nat 0x60008 1 = 3
         ∧ (after (.residencyEntryPerform 0) { residing (word (3 * 2 ^ 62 + 0x10010000)) 4 with pinned := [0x10010000] }).pinned = [])
    ∧ (let s := residing 0 0
       after (.residencyEntryPerform 1) s = s ∧ walk s 0x10010008 = .leaf 0x0001000000070003 false ∧ walk s 0x10030008 = .fail ∧ walk s 0x10020008 = .regen 0 false
         ∧ shippable s 0 = true ∧ queueAt s 0x10040000 = some 3 ∧ leastLoaded s (homeDie 0x10030008) = some 1
         ∧ (let t := after (.contextShip 0) (waiting 0x10020008 s)
            after (.contextShip 0) (waiting 0x10020008 { t with cores := s.cores }) = waiting 0x10020008 { t with cores := s.cores }))
    ∧ (let s := base.modCore 0 (fun c => { c with wait := .ship 0x10030008 })
       leastLoaded { s with lmap := [0] } 0 = some 0 ∧ cause (.contextShip 0) { s with lmap := [0] } = some 4) := by decide +kernel

/-- PagesAndRemoteAccesses: a fetch that waits for a page raises FETCH_FAULT with its transfer; an engine that waits keeps a failed regeneration for its own step. -/
theorem witness_PagesAndRemoteAccesses_waits :
    (let fetch := fun (va : Word) => (waiting va (residing 0 0)).modCore 0 (fun c => { c with fetchWait := true, from_ := 0x77777 })
     let r := after (.contextShip 0) (waiting 0x10020008 (residing 0 0))
     let done : State := { r with queues := r.queues.map (fun (p : Nat × Queue) => (p.1, { p.2 with head := 1 })) }
     cause (.contextShip 0) (fetch 0x10030008) = some 2
       ∧ (mfind ((after (.contextShip 0) (fetch 0x10030008)).cluster 0).mailbox 0).map (fun x => (x.faddr, x.from_)) = some (0x10030008, 0x77777)
       ∧ cause (.regenerationComplete 0 0) (done.modCore 0 (fun c => { c with fetchWait := true })) = some 2
       ∧ done.regens.map (fun x => (regenDone done x, x.failed, pageBase 0x10020008 x.big)) = [(true, false, 0x10020000)]
       ∧ (let held : State := { done with regens := done.regens.map (fun (x : RegenWait) => { x with engines := [.copyEng 8] }) }
          (after (.regenerationComplete 0 0) held).regens.map (fun x => x.failed) = [true])) := by decide +kernel

/-- A task that leaves its core moves to the other cluster's cache, with its record, or waits behind the record that the cluster holds. -/
theorem witness_PagesAndRemoteAccesses_ships :
    (let s := (residing 0 0).modCore 0 (fun c => { c with wait := .ship 0x10030008 })
     let t := after (.contextShip 0) s
     let h := s.modCluster 1 (fun c => { c with heldRecs := [(.net 1, aRecord)] })
     let w := after (.contextShip 0) h
     s.eager = true ∧ cutOff s 0 = false ∧ (mfind (s.cluster 0).tcbs 0).map (fun x => x.stowa) = some 0 ∧ freeEntry (s.cluster 1) = some 0
       ∧ (t.core 0).status = .free ∧ (mfind (t.cluster 1).tcbs 0).map (fun x => (x.stowed, x.status)) = some (true, .trapped)
       ∧ (mfind (t.cluster 1).mailbox 32).map (fun r => r.cause) = some .pageFault
       ∧ h.holdsRecord (.net 1) = true ∧ (w.core 0).stowing.isSome = true ∧ (w.core 0).task = some 0 ∧ w.mem = h.mem) := by decide +kernel

/-- An engine that waits for a regeneration that has failed; its frame is free again. -/
theorem witness_PagesAndRemoteAccesses_failed :
    (let r := after (.contextShip 0) (waiting 0x10020008 (residing 0 0))
     let done : State := { r with queues := r.queues.map (fun (p : Nat × Queue) => (p.1, { p.2 with head := 1 })) }
     let held : State := { done with regens := done.regens.map (fun (x : RegenWait) => { x with engines := [.copyEng 8] }) }
     let t := after (.regenerationComplete 0 0) held
     (held.freeFrames, t.freeFrames, t.regens.map (fun x => x.failed)) = (12582911, 12582912, [true]) ∧ walk held 0x10020008 = .regen 0 false) := by decide +kernel

theorem witness_PagesAndRemoteAccesses_frames :
    (let s := (residing 0 0).modCore 0 (fun c => { c with wait := .frame 0x10020008 100 })
     let s : State := { s with freeFrames := 0, now := 100 + 2 ^ 20 }
     walk s 0x10020008 = .regen 0 false ∧ shippable s 0 = true ∧ ((after (.frameWaitTimeout 0) s).core 0).wait = .ship 0x10020008) := by decide +kernel

/-- R111, R334: a remote access to a sector with its tag, and one whose page is being regenerated. -/
theorem test_remote_sectors :
    (let s := trained (residing 0 0)
     let w := after (.remoteRequest ⟨.writeSector 0xAB 0x1234, 0x180000, 0⟩) s
     let r := after (.remoteRequest ⟨.readSector, 0x180000, 0⟩) w
     let typed := { s with mem := s.mem.pokes (writesAt 0x50000 (leBytes 8 0x0001000000000013)) }
     let read := fun (s : State) => (after (.remoteRequest ⟨.readSector, 0x180000, 0⟩) (after (.remoteRequest ⟨.writeSector 0xAB 0x1234, 0x180000, 0⟩) s)).net.reply
     w.net.reply = some (.data []) ∧ w.net.performed = 1 ∧ read s = some (.data (leBytes 64 0xAB ++ leBytes 2 0)) ∧ r.net.performed = 1
       ∧ read typed = some (.data (leBytes 64 0xAB ++ leBytes 2 0x1234))
       ∧ (let req : RemoteReq := ⟨.read 8, 0x10020008, 0⟩
          (match remoteAccess (engineWho (some 0) 0) req s with | .error (.wait x) => decide (x = .page 0x10020008) | _ => false) = true
            ∧ (faultRegen s 0x10020008 (some (.net 64))).1 = false ∧ (after (.remoteRequest req) s).net.held = [req])) := by decide +kernel

/-! ## Links, other devices, power -/

/-- Module 4 trained, expecting number 5, with two sent flits in its replay buffer. -/
def linked : State :=
  base.setLink 4 { Link.reset with up := true, lanes := 64, rxExp := 5, txSeq := 9, replay := [⟨7, 1, 70⟩, ⟨8, 1, 80⟩], progress := 100 }

/-- A flit with one bit of its payload turned over. -/
def broken (f : BitVec 2048) : BitVec 2048 := f ^^^ (1#2048 <<< 100)

/-- The check value that is published for CRC-64 of ECMA-182 with initial value 0: that of the nine characters 123456789. -/
theorem test_crc : crcOver [0x31, 0x32, 0x33, 0x34, 0x35, 0x36, 0x37, 0x38, 0x39] 0 = 0x6C40DF5F0B497347 := by decide +kernel

/-- R328, R329: a data flit in order, one out of order, an idle flit whose ACK covers number 7, a NAK, a broken one. -/
theorem test_flits :
    (let r := fun (f : BitVec 2048) => (after (.flitReceive 4 f) linked).link 4
     let a := r (makeFlit 5 1 6 false 99)
     let b := r (makeFlit 6 1 6 false 99)
     let c := r (makeFlit 5 0 7 false 0)
     let d := r (makeFlit 5 0 6 true 0)
     let e := r (broken (makeFlit 5 1 6 false 99))
     ([a, b, c, d, e].map (fun l => (l.rxExp, l.delivered)), [a, b, c, d, e].map (fun l => (l.nakOwed, l.ecnt, l.replay.length, l.resend.length, l.rplc)))) =
    ([(6, [99]), (5, []), (5, []), (5, []), (5, [])], [(false, 0, 2, 0, 0), (true, 0, 2, 0, 0), (false, 0, 1, 0, 0), (false, 0, 2, 2, 0), (true, 1, 2, 0, 0)]) := by decide +kernel

/-- R329: a NAK, the timer after 2048 cycles, and what leaves next; R338: ECNT after 2^24 quiet cycles. -/
theorem test_sending_again :
    (let n := after (.nakReceive 4 7) linked
     let t := after (.replayTimeout 4) { linked with now := 2148 }
     let o := (after (.idleFlitSend 4) t).link 4
     let i := (after (.idleFlitSend 4) linked).link 4
     let q := linked.setLink 4 { linked.link 4 with ecnt := 3 }
     (n.link 4).replay.map (fun f => f.seq) = [8] ∧ (n.link 4).resend.length = 1 ∧ (t.link 4).resend.length = 2 ∧ (t.link 4).rplc = 0 ∧ o.rplc = 1
       ∧ ((after (.replayTimeout 4) { linked with now := 2147 }).link 4).resend.length = 0 ∧ (flitSeq o.out, flitKind o.out, flitAck o.out, o.resend.length) = (7, 1, 4, 1)
       ∧ (flitSeq i.out, flitKind i.out, flitAck i.out, flitGood i.out) = (9, 0, 4, true)
       ∧ ((after (.ecntQuietClear 4) { q with now := 2 ^ 24 }).link 4).ecnt = 0 ∧ ((after (.ecntQuietClear 4) { q with now := 2 ^ 24 - 1 }).link 4).ecnt = 3) := by decide +kernel

/-- R330, R331: retraining at full width, on the lower and the upper half, and on none. -/
theorem test_retraining :
    (let s := after (.linkRetrain 4) (after (.lctlRetrainRequest 4) linked)
     let all : BitVec 64 := 0xFFFFFFFFFFFFFFFF
     let r := fun (failed repaired : BitVec 64) => let l := (after (.retrainComplete 4 failed repaired) s).link 4
       (l.up, l.lanes, l.upper, l.repaired, l.resend.length)
     (s.link 4).retrain = true ∧ (s.link (farEnd 4)).retrain = true
       ∧ ([r 0 0, r 5 1, r 5 5, r (2 ^ 63) 0, r all 0] == [(true, 64, false, 0, 2), (true, 32, true, 1, 2), (true, 64, false, 2, 2), (true, 32, false, 0, 2), (false, 0, false, 0, 0)])
         = true) := by decide +kernel

/-- R336, R368: children, lost devices and connections, and the stop of a group. -/
theorem test_devices :
    (let s := after (.beaconRecord 3 ⟨10, true, 0, 0, 1, 0⟩) base
     let late := { s with net := { s.net with round := 1000 } }
     let c := fun (s : State) => (mfind s.net.children 3).map (fun c => (c.lost, c.seen))
     let l := after (.lostConnectionDetect 6) late
     let k := { l with queues := [(3, { emptyQueue with kern := some ⟨9, false, 2, false, 3⟩ })] }
     c s = some (false, 0) ∧ c (after (.lostDeviceDetect 3) late) = some (true, 0) ∧ (after (.lostDeviceDetect 3) late).net.epoch = 1
       ∧ c (after (.lostDeviceDetect 3) { s with net := { s.net with round := 999 } }) = some (false, 0)
       ∧ l.net.lostConns = [6] ∧ l.net.epoch = 1 ∧ after (.lostConnectionDetect 6) l = l
       ∧ (q3 (after (.faultEpochStop [3]) k)).waiting.map (fun r => (r.cause, r.kid)) = [(.poison, 9)]) := by decide +kernel

/-- LinksAndDevices: links that do not live, worn ones, the ends of the module numbers, and both sides of each condition. -/
theorem witness_LinksAndDevices :
    (let s := linked
     let l := s.link 4
     let dead := base
     l.up = true ∧ l.retrain = false ∧ (l.ethr ≠ 0 ∧ l.ethr.toNat = 16) ∧ [Instr.nakReceive 4 7, .idleFlitSend 4, .replayTimeout 4, .linkRetrain 4, .retrainComplete 4 0 0].all (fun i => decide (after i dead = dead)) = true
       ∧ (let w := s.setLink 4 { l with ecnt := 15 }
          let r := after (.flitReceive 4 (broken (makeFlit 5 1 6 false 99))) w
          (r.link 4).retrain = true ∧ (r.link 4).toX32 = true ∧ (r.link 4).ecnt = 16 ∧ (r.link 7).retrain = true)
       ∧ [0, 3, 4, 15].map farEnd = [6, 15, 7, 3] ∧ [0, 1, 2, 3, 4, 5, 6, 7, 8, 9, 10, 11, 12, 13, 14, 15].all (fun m => decide (farEnd m < 16 ∧ farEnd m ≠ m ∧ farEnd (farEnd m) = m)) = true
       ∧ after (.replayTimeout 4) { s with now := 2147 } = { s with now := 2147 }
       ∧ (let o := s.setLink 4 { l with owed := 2 }
          let t := after (.idleFlitSend 4) o
          ((t.link 4).owed, (t.link 4).txSeq, (t.link 4).replay.length) = (1, 10, 3)))
    ∧ (let full := { base with net := { base.net with children := (below 192).map (fun k => (k + 10, ⟨⟨0, true, 0, 0, 0, 0⟩, 0, false⟩)) } }
       after (.beaconRecord 3 ⟨10, true, 0, 0, 1, 0⟩) full = full ∧ mfind full.net.children 3 = none)
    ∧ base.net.epoch = 0 ∧ after (.faultEpochStop [3]) base = base ∧ after (.lostDeviceDetect 3) base = base := by decide +kernel

/-- LinksAndDevices: a parent's record, its loss, and a kernel with an access outstanding to a device that is lost. -/
theorem witness_LinksAndDevices_tree :
    (let s := { base with net := { base.net with parent := some 9, round := 1000 } }
     let t := after (.beaconRecord 9 ⟨10, true, 0, 0, 1, 3⟩) s
     let l := after (.lostDeviceDetect 9) s
     t.net.global = (10, true) ∧ t.net.heard = 1000 ∧ t.net.epoch = 3 ∧ (l.net.lost, l.net.epoch) = ([9], 1) ∧ after (.lostDeviceDetect 9) t = t
       ∧ (let z : Req := { kind := .far 9 true none, core := some 0, sender := 0, kern := ⟨0, 7⟩, vt := 0, d := 0, va := 0, loc := 0, repl := false, so := false, tagged := false, release := false, a := 0, b := 0, tag8 := 0, since := 0, done := none }
          stranded { l with reqs := [z] } = [⟨0, 7⟩] ∧ stranded { s with reqs := [z] } = [])) := by decide +kernel

/-- LinksAndDevices: what a link may send of its own is bounded by 128 flits that wait for their acknowledgement. -/
theorem witness_LinksAndDevices_full :
    (List.replicate 128 (⟨7, 1, 70⟩ : Flit)).length = 128 ∧ (linked.link 4).replay.length < 128 ∧ (linked.link 4).resend = [] := by decide +kernel

/-- A first-stage image and what bring-up meets: links 0 and 4 train, cluster 63 fails, core 5 of cluster 0 starts at step 3. -/
def anImage (good : Bool) (version : Nat) : FwImage :=
  { version := version, digest := 0xA5, rsaKey := State.reset.sys.keys.1, slhKey := State.reset.sys.keys.2, rsaOk := good, slhOk := true }
def bringing (good : Bool) : BringUp :=
  { image := anImage true 1, lanes := [(0, 0, 0)], pass := below 63, margins := [(5, 3)], frameBase := 0x800000, ctxBase := 0x900000, ctxVa := 0xA00000, ptroots := [0x20000],
    supervisor := anImage good 1 }

/-- R369, R370: the module comes up, or stops at the supervisor's image or the first stage's; recovery; an attestation. -/
theorem test_power_on :
    (let t := after (.powerOn (bringing true)) State.reset
     let r := after (.powerOn { bringing true with image := anImage false 1 }) State.reset
     (t.sys.bring = 6 ∧ t.nlive = 63 ∧ t.lmap = below 63 ∧ (t.core 5).mgn.step = 3 ∧ (t.link 0).up = true ∧ (t.link 0).lanes = 64 ∧ (t.cluster 1).frames = 0x980000
       ∧ (t.die 0).ptroot = 0x20000 ∧ t.sys.measure.length = 2)
       ∧ (after (.powerOn (bringing false)) State.reset).sys.bring = 4 ∧ r.sys.recovery = true ∧ r.sys.bring = 0
       ∧ (after (.recoveryFirmwareImage (anImage true 1)) r).sys.recovery = false ∧ (after (.recoveryFirmwareImage (anImage false 1)) r).sys.recovery = true
       ∧ (after (.attestationQuote 8) t).sys.quotes.map (fun q => (q.nonce, q.measure.length)) = [(8, 2)]) := by decide +kernel

/-- R32: the clock under heat and the power limit; the shutdown, after which nothing runs. -/
theorem test_throttles :
    (let s := base
     let clk := fun (i : Instr) => (after i s).sys.clock
     let slow := { s with sys := { s.sys with clock := 100 } }
     ((clk (.thermalThrottle 101), clk (.thermalThrottle 100), clk (.thermalThrottle 99), clk (.powerLimitThrottle 1601), clk (.powerLimitThrottle 1600)),
      ((after (.thermalThrottle 101) slow).sys.clock, (after (.thermalThrottle 99) slow).sys.clock, (after (.thermalShutdown 109) s).sys.shutdown,
       (after (.thermalShutdown 110) s).sys.shutdown))) = ((3200, 3300, 3300, 3200, 3300), (100, 200, false, true)) := by decide +kernel
theorem test_shut_down : (match step (after (.thermalShutdown 110) base) with | .fault .shutDown => true | _ => false) = true := by decide +kernel

/-- R32: at 100 degrees the throttle stays until the temperature falls below; a shutdown is reported. -/
theorem test_throttle_hysteresis :
    (let s := after (.thermalThrottle 101) base
     let t := after (.thermalThrottle 100) s
     ((s.sys.hot, t.sys.hot, t.sys.clock, (after (.thermalThrottle 99) t).sys.clock, (after (.thermalShutdown 110) base).sys.reported))) = (true, true, 3100, 3200, true) := by decide +kernel

/-- R365: a cold reset: registers, tasks and queues as at reset, memory kept; a cluster that passes the self-test returns to the map. -/
theorem test_cold_reset :
    (let s := after (.coldReset [1]) { put base 0x40 8 9 with quarCl := [1, 2], queues := [(3, emptyQueue)] }
     ((s.quarCl, s.nlive, s.lmap.contains 1, s.lmap.contains 2), (got s 0x40 8, s.queues.length, (s.core 0).status, s.now))) = (([2], 63, true, false), (9, 0, .free, 0)) := by decide +kernel

/-- PowerAndReset: a machine that is on, an older image than the rollback counter allows, and a machine that runs no recovery. -/
theorem witness_PowerAndReset :
    (let on := after (.powerOn (bringing true)) State.reset
     State.reset.sys.bring = 0 ∧ State.reset.sys.recovery = false ∧ (bringing true).margins = [(5, 3)] ∧ (bringing true).lanes = [(0, 0, 0)] ∧ after (.powerOn (bringing true)) on = on
       ∧ (let old := { State.reset with sys := { State.reset.sys with rollback := 2 } }
          (after (.powerOn (bringing true)) old).sys.recovery = true)
       ∧ after (.recoveryFirmwareImage (anImage true 1)) base = base ∧ after (.thermalShutdown 109) base = base ∧ base.moves = []) := by decide +kernel


/-! ## The supervisor -/

/-- Core 0 parked on TRAP 0x45, and kernel 7 on queue 0. -/
def parked : State := { after (.trap 0x45) base with queues := [(0, { emptyQueue with kern := some ⟨7, false, 1, false, 3⟩ })] }

/-- The status of a task of cluster 0. -/
def taskStatus (s : State) (i : Nat) : Option TStatus := (mfind (s.cluster 0).tcbs i).map (fun t => t.status)

/-- R348, R349: RESUME goes on behind the TRAP; END frees the core; a command that does not fit sets CCMD[6]. -/
theorem test_resume_end :
    (let r := after (.resume 0) parked
     let e := after (.endTask 0) parked
     let x := after (.resume 0) base
     ((r.core 0).status, (r.core 0).pc, (r.core 0).ccmd.getLsbD 6) = (.running, localVa 0x1002, false)
       ∧ ((e.core 0).status, (e.core 0).task, taskStatus e 0) = (.free, none, none) ∧ ((x.core 0).status, (x.core 0).ccmd.getLsbD 6) = (.running, true)) := by decide +kernel

/-- Core 0 is reserved since cycle 50 for gang 5 of level 4, above task 0. -/
def above (t : Task) : State :=
  base.modCluster 0 (fun c =>
    { c with tcbs := [(0, t), (5, { aTask with kind := .tileGang, status := .ready, pri := 4 })], reserv := [⟨5, [0, 1, 2, 3], 50⟩], ready := [(3, [9]), (4, [5])] })

/-- Task 0, stowed from core 0 while core 0 was parked on TRAP 0x45 (R349). -/
def stowedTrapped : State :=
  match execPreemptStow 0 (after (.trap 0x45) (above aTask)) with
  | .next t => t
  | _ => base

/-- R348: STOWOUT leaves the task stowed and out of the levels; READY puts it at the head of its level. -/
theorem test_stowout_ready :
    (let t := after (.stowout 0) parked
     let y := after (.ready 0 0) t
     ((t.core 0).status, taskStatus t 0, mget (t.cluster 0).ready 3 []) = (.free, some .trapped, [])
       ∧ (taskStatus y 0, mget (y.cluster 0).ready 3 []) = (some .ready, [0])) := by decide +kernel

/-- R349: a pre-empted trap stays out of the levels until RESUME, after which its image holds RPC. -/
theorem test_stowed_trap :
    (let r := after (.resume 0) stowedTrapped
     (taskStatus stowedTrapped 0, mget (stowedTrapped.cluster 0).ready 3 []) = (some .trapped, [9]) ∧ mget (r.cluster 0).ready 3 [] = [0, 9]
       ∧ r.mem.nat 0x520 8 = (localVa 0x1002).toNat) := by decide +kernel

/-- Core 0 stopped by TRAP SOFT with SUB 0. -/
def softStopped (g1 : Word) : State := { after (.trap 0x0F) (base.wg 1 g1) with queues := parked.queues }

/-- R373: READY of such a task makes g1 of its image its PC, and ends the kernel where g1 is 0 or odd. -/
theorem test_soft_ready :
    (let y := after (.ready 0 0) (after (.stowout 0) (softStopped 0x4018))
     (taskStatus y 0, y.mem.nat 0x520 8, y.mem.nat 0x408 8)) = (some .ready, 0x4018, 0) := by decide +kernel
theorem test_soft_refused :
    (let y := after (.ready 0 0) (after (.stowout 0) (softStopped 0x4019))
     ((mfind y.queues 0).map (fun x => x.waiting), taskStatus y 0)) = (some [⟨0, .soft, 7, 1, rec56 (localVa 0x1000)⟩], none) := by decide +kernel

/-- R300, R348: KILLK ends the kernel with the cause and PC of the record in its slot. -/
theorem test_killk :
    (let t := after (.killk 0 0) parked
     (t.core 0).status = .free ∧ (t.cluster 0).tcbs = [] ∧ (mfind t.queues 0).map (fun x => x.waiting) = some [⟨0, .hook 5, 7, 1, rec56 (localVa 0x1000)⟩]) := by decide +kernel

/-- R348: RESTART admits a torn task's TCB anew, or puts back one without a TCB; LOAD starts a stow image on a free core. -/
theorem test_restart_load :
    (let torn := fun (s : State) (a : Word) => s.modCluster 0 (fun c => { c with tcbs := [(0, aTask), (5, { aTask with status := .torn, tcba := a })] })
     let r := after (.restart 0 5) (torn base 0)
     let m := after (.restart 0 5) (torn (tcbAt 5) (localVa 0x3000))
     let l := after (.load 1 (localVa 0x2000)) { after (.stow 5) (base.wg 5 (localVa 0x2000)) with queues := parked.queues }
     (taskStatus r 5, mget (r.cluster 0).ready 3 []) = (some .ready, [5]) ∧ (m.cluster 0).tcbs.map (fun p => (p.2.status, p.2.entry)) = [(.running, localVa 0x1000), (.ready, 0x2000)]
       ∧ ((l.core 1).status, (l.core 1).pc, (l.core 1).rg 3, (l.core 1).task) = (.running, localVa 0x1002, 3, some 1)) := by decide +kernel

/-- A record. -/
def aRec (c : Cause) : TrapRecord := trapRecord base 0 { cause := c }

/-- R342, R346, R347: a slot is freed; a held record enters the lowest shared slot; a stalled core's record is written when its slot is free. -/
theorem test_mailbox :
    (let h := base.modCluster 0 (fun c => { c with mailbox := [(32, aRec .soft)], heldRecs := [(.net 0, aRec .evOverflow)] })
     let t := after (.heldRecordEnter 0) h
     let s := (base.modCluster 0 (fun c => { c with mailbox := [(0, aRec .soft)] })).modCore 0 (fun c => { c with status := .stall (aRec .align) })
     let w := after (.preciseTrap 0) (after (.mbstatFree 0 0) s)
     (t.cluster 0).mailbox.map (fun p => (p.1, p.2.cause, p.2.held)) = [(32, .soft, false), (33, .evOverflow, true)] ∧ (t.cluster 0).heldRecs = []
       ∧ ((after (.mbstatFree 0 32) h).cluster 0).mailbox = [] ∧ after (.preciseTrap 0) s = s
       ∧ ((w.cluster 0).mailbox.map (fun p => (p.1, p.2.cause)), (w.core 0).status) = ([(0, .align)], .trapped (aRec .align))) := by decide +kernel

/-- SupervisorCommands: a quarantined cluster, cores that are parked and not, tasks that fit and do not. -/
theorem witness_SupervisorCommands :
    (let q := { base with quarCl := [0] }
     [Instr.resume 0, .stowout 0, .ready 0 0, .endTask 0, .killk 0 0, .restart 0 0, .load 0 0].all (fun i => decide (after i q = q)) = true
       ∧ [Instr.resume 0, .stowout 0, .ready 0 0, .endTask 0, .killk 0 0, .restart 0 0, .load 0 0, .ready 1 9, .ready 1 0].all (fun i =>
           ((after i base).core 0).ccmd.getLsbD 6 || ((after i base).core 1).ccmd.getLsbD 6) = true)
    ∧ (let h := { after .halt base with queues := parked.queues }
       ((after (.resume 0) h).core 0).ccmd.getLsbD 6 = true ∧ ((after (.endTask 0) h).core 0).status = .free)
    ∧ (let t := stowedTrapped
       (stowedTrap t 0).map (fun x => (x.1, x.2.1.rpc)) = some (0, rec56 (localVa 0x1002)) ∧ stowedTrap base 0 = none ∧ (mfind (t.cluster 0).tcbs 0).map (fun x => (x.stowed, x.stowa)) = some (true, 0)
         ∧ (stowOn parked 0 (mfind (parked.cluster 0).mailbox 0)).isSome = true)
    ∧ (parked.core 0).task ≠ none ∧ (parked.core 0).ctx.kern = ⟨0, 7⟩ ∧ parked.quarCl = [] ∧ (mfind (parked.cluster 0).mailbox 0).isSome = true
    ∧ (let s := { after (.stow 5) (base.wg 5 (localVa 0x2000)) with queues := [(0, { emptyQueue with desc := { aDesc with det := 1 }, kern := some ⟨7, false, 1, false, 3⟩ })] }
       ((after (.load 1 (localVa 0x2000)) s).core 1).ccmd.getLsbD 6 = true ∧ ((after (.load 0 (localVa 0x2000)) s).core 0).ccmd.getLsbD 6 = true ∧ canTake s 1 = true ∧ freeEntry (s.cluster 0) = some 1)
    ∧ (let full := base.modCluster 0 (fun c => { c with heldRecs := [(.net 0, aRec .soft)], mailbox := (upFrom 32 32).map (fun k => (k, aRec .soft)) })
       after (.heldRecordEnter 0) full = full
         ∧ (mfind ((after (.heldRecordEnter 0) (after (.mbstatFree 0 63) full)).cluster 0).mailbox 63).map (fun r => r.held) = some true)
    ∧ after (.preciseTrap 0) base = base := by decide +kernel

/-- SupervisorCommands: a gang's member that is stowed out, and its image under RESUME and READY; a command while a stow goes on. -/
theorem witness_SupervisorCommands_members :
    base.quarCl = []
    ∧ (let g := { after (.trap 0x45) (ganged base) with queues := parked.queues }
       let g := g.modCore 0 (fun c => { c with ctx := { c.ctx with rank := 2 } })
       let t := after (.stowout 0) g
       ((t.core 0).ccmd, (t.core 0).status) = (2, .free)
         ∧ (mfind (t.cluster 0).tcbs 0).map (fun x => x.members.map (fun m => (m.1, m.2.trapped, imageDw m.2.image 0x520, m.2.trapRec.isSome))) = some [(2, true, localVa 0x1000, true)])
    ∧ (let member : Member := { image := stowImage base 0 (localVa 0x1000) false true 0, handles := aCore.h.toList, msgs := [], ports := [], trapRec := some (aRec .align), arrived := false }
       let saved := { base with
                      cores := []
                      clusters := [(0, { aCluster with tcbs := [(0, { aTask with kind := .tileGang, status := .trapped, stowed := true, members := [(2, member)] })] })] }
       (stowedTrap saved 2).map (fun x => (x.1, x.2.2)) = some (0, some 2) ∧ (aRec .align).rpc ≠ 0
         ∧ (mfind ((after (.resume 2) saved).cluster 0).tcbs 0).map (fun t => t.members.map (fun m => (m.2.trapped, m.2.trapRec))) = some [(false, none)]
         ∧ (mfind ((after (.ready 1 0) saved).cluster 0).tcbs 0).map (fun t => (t.status, t.members.map (fun m => (m.2.trapped, m.2.trapRec)))) = some (.ready, [(false, none)]))
    ∧ (let busy := base.modCore 0 (fun c => { c with ccmd := 2, stowing := some (.stowOut (aRec .soft), 90) })
       (busy.core 0).ccmdBusy = true ∧ (busy.core 0).ccmdValue = 130 ∧ ((after (.resume 0) busy).core 0).ccmd = 65) := by decide +kernel

/-! ## Pre-emption -/

/-- R306, R350, R354: the task is stowed to the head of its level; after 4096 cycles its core is lost and it is torn. -/
theorem test_preemption :
    (let t := after (.preemptStow 0) (above aTask)
     let late := fun (s : State) => s.modCore 0 (fun c => { c with stowing := some (.preempt, 50) })
     let x := after (.stowTear 0) { late (above { aTask with tcba := localVa 0x3000 }) with now := 50 + 4096 }
     ((t.core 0).status, (t.core 0).task, taskStatus t 0, mget (t.cluster 0).ready 3 []) = (.free, none, some .ready, [0, 9])
       ∧ ((x.core 0).status, taskStatus x 0) = (.quarantined, some .torn) ∧ after (.stowTear 0) { late (above aTask) with now := 4145 } = { late (above aTask) with now := 4145 }) := by decide +kernel

/-- R239: a tile gang's member leaves its core; with the last one the tile begins to be saved; a save refused for 2^20 cycles puts the members back with PREEMPT. -/
theorem test_gang_save :
    (let g := (above { aTask with kind := .tileGang, lastOn := some 0 }).modTile 0 (fun t => { t with gang := some 0 })
     let t := after (.preemptStow 0) g
     let r := after (.tileSaveRefused 0) { t with now := 100 + 2 ^ 20 }
     (t.core 0).status = .free ∧ taskStatus t 0 = some .stowed ∧ (mfind (t.cluster 0).tcbs 0).map (fun x => x.members.map (fun m => (m.1, imageDw m.2.image 0x520))) = some [(0, localVa 0x1000)]
       ∧ (t.tile 0).saveFrom = some 100 ∧ (r.core 0).status = .running ∧ taskStatus r 0 = some .running ∧ (r.tile 0).saveFrom = none
       ∧ (r.cluster 0).mailbox.map (fun p => (p.1, p.2.cause, p.2.sub)) = [(0, .preempt, 1)]
       ∧ after (.tileSaveRefused 0) { t with now := 99 + 2 ^ 20 } = { t with now := 99 + 2 ^ 20 }) := by decide +kernel


/-! ## Errors and quarantine -/

/-- Base with the margin registers of core 0 changed. -/
def margined (f : Margin → Margin) : State := base.modCore 0 (fun c => { c with mgn := f c.mgn })

/-- R352, R353: the watchdog traps at 2^26 cycles, one cycle earlier it does not, and a core that awaits a reply latches it. -/
theorem test_watchdog :
    (let s := { base with now := 2 ^ 26 }
     let w := s.modCore 0 (fun c => { c with wait := .request })
     (cause (.watchdogExpiry 0) s, cause (.watchdogExpiry 0) { s with now := 2 ^ 26 - 1 }, cause (.watchdogExpiry 0) w, ((after (.watchdogExpiry 0) w).core 0).ctx.latched) =
      (some 18, none, none, true)) := by decide +kernel

/-- R23, R24, R355, R356: a replay counts; the fourth steps the margin, and the eighth step within 2^24 cycles pins it; at step 0 the core is killed. -/
theorem test_replays :
    (let m := fun (f : Margin → Margin) => ((after (.shadowLatchReplay 0) (margined f)).core 0).mgn
     let a := m (fun x => { x with step := 5 })
     let b := m (fun x => { x with step := 5, replays := 3 })
     let c := m (fun x => { x with step := 5, replays := 3, recent := [1, 2, 3, 4, 5, 6, 7] })
     let k := after (.shadowLatchReplay 0) (margined (fun x => { x with replays := 3 }))
     (a.trepc, a.replays, a.step) = (1, 1, 5) ∧ (b.trepc, b.replays, b.step, b.total, b.last) = (1, 0, 4, 1, 4) ∧ b.recent = [100] ∧ b.settling = true ∧ b.pin = false
       ∧ (c.step, c.pin, c.last) = (0, true, 0) ∧ c.armed = true ∧ (k.core 0).status = .quarantined ∧ (mfind (k.cluster 0).mailbox 0).map (fun r => r.cause) = some .silent) := by
  decide +kernel

/-- R24, R357: the checker's third mismatch kills; R360: corrected errors are counted; R25, R355: old steps leave MGNST, and the regulator settles. -/
theorem test_checker :
    (let m := fun (i : Instr) (f : Margin → Margin) => ((after i (margined f)).core 0).mgn
     ((m (.checkerMismatch 0) (fun x => x)).cmisc, (m (.checkerMismatch 0) (fun x => x)).misses, ((after (.checkerMismatch 0) (margined (fun x => { x with misses := 2 }))).core 0).status) =
        (1, 1, .quarantined)
       ∧ (m (.correctedSoftError 0) (fun x => x)).soft = 1 ∧ (m (.regulatorSettlingEnd 0) (fun x => { x with settling := true })).settling = false
       ∧ ((after (.mgnstRecentExpiry 0) { margined (fun x => { x with recent := [100, 101] }) with now := 100 + 2 ^ 24 }).core 0).mgn.recent = [101]) := by decide +kernel

/-- R71, R109, R357: a replay keeps the sampled condition, and one of a waiting LDF gives its deferral up. -/
theorem test_replay_of_future :
    (let s := (margined (fun x => x)).modCore 0 (fun c => { c with wait := .future 8 })
     let s := { s with defers := [⟨2, 8, some 0⟩] }
     let t := after (.checkerMismatch 0) s
     let a := after (.shadowLatchReplay 0) (margined (fun x => { x with step := 5 }))
     (t.core 0).wait = .none ∧ t.defers = [⟨2, 8, none⟩] ∧ (t.core 0).mgn.misses = 1 ∧ (a.core 0).sample = some (queueConds (margined (fun x => { x with step := 5 })) 0)) := by decide +kernel

/-- R141, R202, R312, R357: a replay of a SWAIT that waits takes it out of its queue; the checker's replays run each of these waits anew, the shadow latch's GBAR alone. -/
theorem test_replay_of_waits :
    (let at_ := fun (w : Wait) => (margined (fun x => { x with step := 5 })).modCore 0 (fun c => { c with wait := w })
     let q := (at_ (.semaphore 2)).modTile 0 (fun t => { t with semq := [(2, [(0, 1), (1, 1)])] })
     let a := after (.shadowLatchReplay 0) q
     let waits := [Wait.sector 5, .ring 0, .drainRing, .barrier]
     ((a.core 0).wait, (mget (a.tile 0).semq 2 []).map (fun p => p.1)) = (.none, [1])
       ∧ waits.map (fun w => decide (((after (.checkerMismatch 0) (at_ w)).core 0).wait = .none)) = [true, true, true, true]
       ∧ waits.map (fun w => decide (((after (.shadowLatchReplay 0) (at_ w)).core 0).wait = .none)) = [false, false, false, true]) := by decide +kernel

/-- R27, R340, R359: a killed core: its record, and its task with a TCB, which starts again once its requests are done. -/
theorem test_core_kill :
    (let s := base.modCluster 0 (fun c => { c with tcbs := [(0, { aTask with tcba := localVa 0x3000 })] })
     let t := after (.coreKill 0) s
     let r := after (.taskRestart 0 0) ((tcbAt 5).modCluster 0 (fun _ => t.cluster 0))
     ((t.core 0).status, taskStatus t 0) = (.quarantined, some .torn) ∧ (mfind (t.cluster 0).mailbox 0).map (fun x => (x.cause, x.sub, x.rpc)) = some (.poison, 1, 0)
       ∧ (r.cluster 0).tcbs.map (fun p => (p.2.status, p.2.entry)) = [(.ready, 0x2000)]) := by decide +kernel

/-- R28, R30, R347: a cluster is quarantined with its cores; its supervisor is lost; the map closes over it. -/
theorem test_quarantine :
    (let t := after (.clusterQuarantine 5) base
     let u := after (.supervisorError 6) base
     let r := after (.clusterRemap 5) t
     (t.quarCl, (t.core 170).status, (t.core 192).status, t.nlive) = ([5], .quarantined, .free, 64) ∧ (u.quarCl, (u.cluster 6).supLost) = ([6], true)
       ∧ (r.nlive, r.lmap[5]?, r.lmap[63]?) = (63, some 63, none)) := by decide +kernel

/-- A quarantined cluster 63, and a backlog of cluster 1 that is longer than its bound. -/
def overfull : State := { base with quarCl := [63], clusters := [(1, { Cluster.reset with backlog := List.replicate (2 ^ 20 + 1) aTask })] }
theorem witness_ErrorsAndQuarantine_room :
    allItems overfull.stores overfull = .ok ([], overfull) ∧ overfull.lmap[63]? = some 63
      ∧ ¬ ∀ x ∈ (leaveMap overfull 63 63 []).clusters, x.2.backlog.length ≤ 2 ^ 20 := by
  refine ⟨rfl, by decide +kernel, fun h => ?_⟩
  have long : ((leaveMap overfull 63 63 []).cluster 1).backlog = List.replicate (2 ^ 20 + 1) aTask := rfl
  have there : (1, (leaveMap overfull 63 63 []).cluster 1) ∈ (leaveMap overfull 63 63 []).clusters :=
    List.mem_of_getElem? (i := 1) rfl
  have := h _ there
  rw [long, List.length_replicate] at this
  omega

/-- ErrorsAndQuarantine: both sides of each condition. -/
theorem witness_ErrorsAndQuarantine :
    (let settling := margined (fun x => { x with settling := true })
     (base.core 0).status = .running ∧ (base.core 0).task ≠ none ∧ (base.core 0).mgn.settling = false ∧ mwf base.cores = true ∧ mfind (base.cluster 0).mailbox 0 = none
       ∧ after (.shadowLatchReplay 0) settling = settling ∧ after (.checkerMismatch 0) settling = settling ∧ after (.watchdogExpiry 0) base = base
       ∧ after (.coreKill 0) { base with quarCl := [0] } = { base with quarCl := [0] } ∧ (below 8).all (fun v => (base.core v).status != .quarantined) = true)
    ∧ (let torn := base.modCluster 0 (fun c => { c with tcbs := [(0, aTask), (5, { aTask with status := .torn, lastOn := some 3 })] })
       requestsDone torn 3 = true ∧ taskStatus (after (.taskRestart 0 5) torn) 5 = some .ready ∧ mget ((after (.taskRestart 0 5) torn).cluster 0).ready 3 [] = [5]
         ∧ after (.taskRestart 0 0) torn = torn
         ∧ (let busy := { torn with engines := [(0, [{ aCmd .copy [] with sender := 3 }])] }
            requestsDone busy 3 = false ∧ after (.taskRestart 0 5) busy = busy))
    ∧ (let q := { base with quarCl := [63] }
       after (.clusterQuarantine 63) q = q ∧ after (.clusterQuarantine 64) base = base ∧ after (.clusterRemap 5) base = base ∧ base.nlive = base.lmap.length ∧ base.lmap.Nodup
         ∧ (match allItems base.stores q with | .ok _ => true | .error _ => false) = true ∧ (after (.clusterRemap 63) q).nlive = 63
         ∧ after (.clusterRemap 63) { q with nlive := 1, lmap := [63] } = { q with nlive := 1, lmap := [63] }) := by decide +kernel


/-- A member of a gang that has left its core at 0x1234. -/
def aMember : Member :=
  { image := stowImage base 0 (localVa 0x1234) false false 0, handles := aCore.h.toList, msgs := [], ports := [], trapRec := none, arrived := false }

/-- Every bank of cluster 0 is scratchpad; tile 0 of a tile gang, whose image goes to the start of the window, is being saved since cycle 100. -/
def savingTile0 : State :=
  (base.modCluster 0 (fun c =>
    { c with modes := Vector.replicate 16 1, tcbs := [(0, { aTask with kind := .tileGang, status := .stowed, tsave := localVa 0, lastOn := some 0, members := [(2, aMember)] })] })).modTile 0
    (fun t => { t with gang := some 0, saveFrom := some 100 })

/-- The same gang, saved, with tile 0 and its free cores reserved for it. -/
def reloading : State :=
  ({ base with cores := [] }).modCluster 0 (fun c =>
    { c with modes := Vector.replicate 16 1, reserv := [⟨0, [0, 1, 2, 3], 100⟩], tcbs := [(0, { aTask with kind := .tileGang, status := .ready, stowed := true, tsave := localVa 0 })] })

theorem savingTile0_plain : Plain savingTile0 := by unfold Plain; decide +kernel
theorem reloading_plain : Plain reloading := by unfold Plain; decide +kernel

/-- PreemptionAndTiles: a tile's image is stored and loaded, by the lemmas of Laws/Window. -/
theorem witness_tile_images :
    ((∃ s1, storeSectors (engineWho none 0) tileImageTag 12352 0 (localVa 0 + word 0) (tileImage (savingTile0.tile 0)) savingTile0 = .ok ((), s1))
      ∧ ∃ p, loadBytes (engineWho none 0) (localVa 0 + word 0) 790528 reloading = .ok p) := by
  have h0 : localVa 0 + word 0 = localVa 0 := by decide
  rw [h0]
  obtain ⟨t, hm, _⟩ := local_sectors tileImageTag 12352 0 0 (tileImage (savingTile0.tile 0)) savingTile0 savingTile0_plain (by omega) (by omega)
  obtain ⟨bs, hb⟩ := local_image reloading_plain (by decide +kernel)
  exact ⟨⟨_, hm⟩, ⟨_, hb⟩⟩

/-- PreemptionAndTiles: what else the clauses ask for, and both sides of each condition. -/
theorem witness_PreemptionAndTiles :
    (let s := above aTask
     (s.core 0).task = some 0 ∧ preempted s 0 = true ∧ reservedAbove s 0 = true ∧ (s.core 0).awaitsReply = false ∧ (s.core 0).status = .running
       ∧ (stowOn (latchExpired s 0) 0 none).isSome = true ∧ preempted base 0 = false ∧ after (.preemptStow 0) base = base ∧ after (.stowTear 0) base = base
       ∧ (let w := s.modCore 0 (fun c => { c with wait := .request })
          after (.preemptStow 0) w = w ∧ after (.stowTear 0) { w with now := 4146 } = { w with now := 4146 } ∧ canStow w 0 = false)
       ∧ (stowArea s 0 0 aTask).1 = false ∧ cutOff s 0 = false)
    ∧ (let s := savingTile0
       tileQuiet s 0 = true ∧ (mfind (s.cluster 0).tcbs 0).isSome = true
         ∧ (let busy := s.modTile 0 (fun t => { t with queue := [⟨.mz 0, 0, 1, 0, 0, 7, false⟩] })
            tileQuiet busy 0 = false ∧ after (.tileSave 0) busy = busy)
         ∧ after (.tileSave 1) s = s ∧ after (.tileSaveRefused 1) s = s ∧ after (.tileReload 0) s = s ∧ (s.core 0).owed = none ∧ (s.cluster 0).supLost = false
         ∧ mfind (s.cluster 0).mailbox 0 = none ∧ aMember.trapped = false ∧ (s.tile 0).bad = []
         ∧ (let t := after (.tileSaveRefused 0) { s with now := 100 + 2 ^ 20 }
            (t.core 2).status = .running ∧ (t.core 2).pc = localVa 0x1234 ∧ (t.core 2).rg 3 = 3))
    ∧ (let s := reloading
       (s.tile 0).gang = none ∧ [0, 1, 2, 3].all (fun v => (s.core v).status == .free && v / 4 == 0) = true ∧ (s.cluster 0).reserv = [⟨0, [0, 1, 2, 3], 100⟩] ∧ (s.tile 0).atRest = true ∧ (s.tile 0).queue = [])
    ∧ (Slot.invalid.kind < 16) := by decide +kernel

end Sys2Proof.Tests
end

section
/-! Every arm of exec answers a next state, and so does every step before a thermal shutdown (R32). -/

namespace Sys2Proof.Machine

/-- An outcome that goes on: the machine has a next state. -/
def Answers (o : Host.Outcome State Fault Refusal) : Prop := ∃ t, o = .next t

@[simp] theorem answers_next (t : State) : Answers (.next t) := ⟨t, rfl⟩

theorem answers_ite {c : Prop} [Decidable c] {a b : Host.Outcome State Fault Refusal} (ha : Answers a) (hb : Answers b) :
    Answers (if c then a else b) := by split <;> assumption

/-! ## The operations that several arms share -/

theorem finishV_answers (d : VReg) (r : Except Trap VVal) (s : State) : Answers (finishV d r s) := by
  cases r <;> exact ⟨_, rfl⟩

theorem finishG_answers (d : GReg) (r : Except Trap Word) (s : State) : Answers (finishG d r s) := by
  cases r <;> exact ⟨_, rfl⟩

theorem copyStep_answers (fn : CpFn) (eng : Nat) (s : State) : Answers (copyStep fn eng s) := by
  unfold copyStep; (repeat' split) <;> simp

theorem pullStep_answers (fn : CpFn) (str : Nat) (s : State) : Answers (pullStep fn str s) := by
  unfold pullStep; (repeat' split) <;> simp

theorem waitRing_answers (free : Bool) (d : GReg) (a : HReg) (b : GReg) (s : State) : Answers (waitRing free d a b s) := by
  unfold waitRing; dsimp only; (repeat' split) <;> simp

theorem changeBits_answers (set : Bool) (a : GReg) (s : State) : Answers (changeBits set a s) := by
  unfold changeBits; dsimp only; (repeat' split) <;> simp

/-! ## Rings and semaphores -/

theorem execRslot_answers (d : GReg) (a : HReg) (b : GReg) (s : State) : Answers (execRslot d a b s) := by
  unfold execRslot; dsimp only; (repeat' split) <;> simp

theorem execRadvh_answers (a : HReg) (b : GReg) (s : State) : Answers (execRadvh a b s) := by
  unfold execRadvh; dsimp only; (repeat' split) <;> simp

theorem execRadvt_answers (a : HReg) (b : GReg) (s : State) : Answers (execRadvt a b s) := by
  unfold execRadvt; dsimp only; (repeat' split) <;> simp

theorem execSemaphoreGrant_answers (t k : Nat) (s : State) : Answers (execSemaphoreGrant t k s) := by
  unfold execSemaphoreGrant; dsimp only; (repeat' split) <;> simp

/-! ## Engines and the matrix unit -/

theorem execSubs_answers (str : Nat) (s : State) : Answers (execSubs str s) := by
  unfold execSubs; (repeat' split) <;> simp

theorem execUnsubs_answers (str : Nat) (s : State) : Answers (execUnsubs str s) := by
  unfold execUnsubs; (repeat' split) <;> simp

theorem execMatrixRingBind_answers (u : Nat) (s : State) : Answers (execMatrixRingBind u s) := by
  unfold execMatrixRingBind; (repeat' split) <;> simp

theorem execMatrixCommandExecute_answers (tile : Nat) (s : State) : Answers (execMatrixCommandExecute tile s) := by
  unfold execMatrixCommandExecute
  dsimp only
  cases (s.tile tile).queue with
  | nil => exact answers_next _
  | cons c rest =>
    dsimp only
    split
    · exact answers_next _
    · cases c.op with
      | eout => dsimp only; split <;> exact answers_next _
      | _ => exact answers_next _

theorem execEpilogueOutput_answers (tile : Nat) (s : State) : Answers (execEpilogueOutput tile s) := by
  unfold execEpilogueOutput
  extract_lets t
  cases t.jobs with
  | nil => exact answers_next _
  | cons j rest =>
    refine answers_ite (answers_next _) ?_
    extract_lets s' done bad
    cases ringEntry s j.ring.cl j.ring.id with
    | none => exact answers_next _
    | some e =>
      refine answers_ite (answers_next _) (answers_ite (answers_next _) ?_)
      cases j.out.elim (epiOutput s tile j) Except.ok with
      | error x => exact answers_next _
      | ok bs =>
        refine answers_ite (answers_next _) ?_
        cases epiWrite (done s') j e bs <;> exact answers_next _

theorem execMonbWrite_answers (tile : Nat) (s : State) : Answers (execMonbWrite tile s) := by
  unfold execMonbWrite; dsimp only; split <;> exact answers_next _

theorem execCncdWrite_answers (tile : Nat) (s : State) : Answers (execCncdWrite tile s) := by
  unfold execCncdWrite; dsimp only; split <;> exact answers_next _

theorem execCopymFollowOnEnter_answers (tile k : Nat) (s : State) : Answers (execCopymFollowOnEnter tile k s) := by
  unfold execCopymFollowOnEnter; dsimp only; (repeat' split) <;> simp

/-! ## Tasks, pages and queues -/

theorem execEvdone_answers (s : State) : Answers (execEvdone s) := by
  unfold execEvdone; dsimp only; (repeat' split) <;> simp

theorem execYield_answers (s : State) : Answers (execYield s) := by
  unfold execYield; dsimp only; (repeat' split) <;> simp

theorem execGbar_answers (s : State) : Answers (execGbar s) := by
  unfold execGbar; (repeat' split) <;> simp

theorem execDepthPublication_answers (cl : Nat) (s : State) : Answers (execDepthPublication cl s) := by
  unfold execDepthPublication; dsimp only; (repeat' split) <;> simp

theorem execResidencyEntryPerform_answers (d : Nat) (s : State) : Answers (execResidencyEntryPerform d s) := by
  unfold execResidencyEntryPerform; dsimp only; (repeat' split) <;> simp

theorem execRegenerationComplete_answers (d k : Nat) (s : State) : Answers (execRegenerationComplete d k s) := by
  unfold execRegenerationComplete; dsimp only; split
  · exact answers_next _
  · split <;> exact answers_next _

/-! ## exec and step -/

/-- Most arms name their next state outright; the others choose it by a test or by what an operation of theirs answers. -/
theorem exec_answers (i : Instr) (s : State) : Answers (exec i s) := by
  cases i with
  | vwid | vnb16 | vnh16S | vnh16X | vn8S | vn8X | vn8wS | vn4S | vni8S | vfi32 | vif32 | vscl | vtag | vpackz | vexpz
  | vfadd | vfsub | vfmul | vfma | vfmat | vfred | vfmin | vfmax | vfcmp | vadd | vmul | vsh | vminu | vmaxu =>
    exact finishV_answers ..
  | vfind => exact finishG_answers ..
  | copy | copyf | copym | gath | scat | fill | wback | inval => exact copyStep_answers ..
  | pull | pullf => exact pullStep_answers ..
  | rwait | rwaitf => exact waitRing_answers ..
  | ebset | ebclr => exact changeBits_answers ..
  | rslot d a b => exact execRslot_answers d a b s
  | radvh a b => exact execRadvh_answers a b s
  | radvt a b => exact execRadvt_answers a b s
  | semaphoreGrant t k => exact execSemaphoreGrant_answers t k s
  | subs str => exact execSubs_answers str s
  | unsubs str => exact execUnsubs_answers str s
  | matrixRingBind u => exact execMatrixRingBind_answers u s
  | matrixCommandExecute tile => exact execMatrixCommandExecute_answers tile s
  | epilogueOutput tile => exact execEpilogueOutput_answers tile s
  | monbWrite tile => exact execMonbWrite_answers tile s
  | cncdWrite tile => exact execCncdWrite_answers tile s
  | copymFollowOnEnter tile k => exact execCopymFollowOnEnter_answers tile k s
  | evdone => exact execEvdone_answers s
  | yield => exact execYield_answers s
  | gbar => exact execGbar_answers s
  | depthPublication cl => exact execDepthPublication_answers cl s
  | residencyEntryPerform d => exact execResidencyEntryPerform_answers d s
  | regenerationComplete d k => exact execRegenerationComplete_answers d k s
  | jr | rep | spost | swait | exit =>
    simp only [exec, execJr, execRep, execSpost, execSwait, execExit]; (repeat' split) <;> simp
  | evstat | gid | ebwait | recv =>
    simp only [exec, execEvstat, execGid, execEbwait, execRecv]; split <;> simp
  | ringWaitWake | waitaWake | ldfReissue | ldfCancelNotice =>
    simp only [exec, execRingWaitWake, execWaitaWake, execLdfReissue, execLdfCancelNotice]; split <;> simp
  | _ => exact answers_next _

/-- Before a thermal shutdown the turn that is taken ends in a state, or in an instruction that exec runs. -/
theorem step_answers {s : State} (h : s.sys.shutdown = false) : Answers (step s) := by
  simp only [step, h, Bool.false_eq_true, if_false]
  cases nextTurn s with
  | done t => exact answers_next t
  | run i t => exact exec_answers i t

/-- After a thermal shutdown nothing moves but a cold reset (R32). -/
theorem step_shutdown {s : State} (h : s.sys.shutdown = true) (hm : ∀ p m, s.moves ≠ .event (.coldReset p) :: m) :
    step s = .fault .shutDown := by
  rw [step, if_pos h]
  split
  · rename_i p m e; exact absurd e (hm p m)
  · rfl

end Sys2Proof.Machine

namespace Sys2Proof

open Sys2Proof.Machine

/-- Settles O6: exec answers on every arm, and a step that runs no cold reset stops only where the module has shut down. -/
theorem onlyShutdownStops : Obligations.OnlyShutdownStops :=
  ⟨exec_answers, fun _ => step_answers, fun _ => step_shutdown⟩

end Sys2Proof
end

section
/-! What cold reset leaves (R28 to R30, R365): at reset every unit is an absent key, so each reads as its own reset value. -/

namespace Sys2Proof.Machine

/-- Every handle register starts unbound (R193). -/
theorem Core.reset_rh (h : HReg) : Core.reset.rh h = .unbound := by
  simp [Core.rh, Core.reset]

/-- Every semaphore of a tile starts at 0 (R201). -/
theorem Tile.reset_rs (k : SReg) : Tile.reset.rs k = 0 := by
  simp [Tile.rs, Tile.reset]

/-- Every bank starts as a cache way (R16). -/
theorem Cluster.reset_mode {b : Nat} (h : b < 16) : Cluster.reset.modes[b]? = some 0 := by
  simp [Cluster.reset, h]

/-- At reset every cluster has its physical number as its logical one (R29, R30). -/
theorem reset_map {P : Nat} (h : P < 64) : State.reset.logical P = some P ∧ State.reset.physical P = some P := by
  have : ∀ Q : Fin 64, State.reset.logical Q = some Q.val ∧ State.reset.physical Q = some Q.val := by decide
  exact this ⟨P, h⟩

end Sys2Proof.Machine

namespace Sys2Proof

open Sys2Proof.Machine

/-- Settles O3: each value is that of the unit's reset state. -/
theorem resetValues : Obligations.ResetValues :=
  ⟨rfl, rfl, fun _ => reset_map,
    fun _ => ⟨rfl, rfl, rfl, rfl, rfl, Core.reset_rh, rfl⟩,
    fun _ => ⟨Tile.reset_rs, rfl, rfl, rfl, rfl⟩,
    fun _ => ⟨rfl, fun _ => Cluster.reset_mode, rfl⟩,
    fun _ => ⟨rfl, rfl, rfl, rfl⟩, fun _ => rfl, rfl, rfl⟩

end Sys2Proof
end

section
/-! A publication of the Beacon (R22, R266, R269, R280, R336). -/

namespace Sys2Proof

/-- A key that a map lists is there with the value that `mget` reads. -/
theorem mem_of_mfind_ne_none {α : Type} (d : α) {k : Nat} : ∀ {m : AMap α}, mfind m k ≠ none → (k, mget m k d) ∈ m
  | [], h => absurd rfl h
  | (j, v) :: t, h => by
    by_cases hk : k = j
    · subst hk; simp [mget]
    · simp only [mfind, hk, if_false] at h
      simp only [mget, hk, if_false]
      exact List.mem_cons_of_mem _ (mem_of_mfind_ne_none d h)

/-- A least value over a list is no more than its start. -/
theorem foldl_min_le_start (l : List Nat) : ∀ a : Nat, l.foldl min a ≤ a := by
  induction l with
  | nil => exact Nat.le_refl
  | cons x t ih => exact fun a => (ih (min a x)).trans (Nat.min_le_left a x)

/-- A least value over a list is no more than any of its elements. -/
theorem foldl_min_le_of_mem {x : Nat} : ∀ {l : List Nat} (a : Nat), x ∈ l → l.foldl min a ≤ x
  | y :: t, a, h => by
    rcases List.mem_cons.1 h with rfl | h
    · exact (foldl_min_le_start t _).trans (Nat.min_le_right a x)
    · exact foldl_min_le_of_mem (min a y) h

theorem word_toNat_of_lt {n : Nat} (h : n < 2 ^ 64) : (word n).toNat = n := by
  rw [word, BitVec.toNat_ofNat, Nat.mod_eq_of_lt h]

end Sys2Proof

namespace Sys2Proof.Machine

/-! ## What the device reports -/

theorem beaconMin_lt (s : State) : beaconMin s < 2 ^ 64 :=
  Nat.lt_of_le_of_lt (foldl_min_le_start _ _) (by decide)

/-- The virtual time of a core that runs a task of a kernel with a store is a term of the minimum (R266). -/
theorem beaconMin_le_vt {s : State} {u : Nat} (hu : mfind s.cores u ≠ none) (ht : (s.core u).task.isSome = true)
    (hs : holdsStore s (s.core u).ctx.kern = true) : beaconMin s ≤ (s.core u).vt.toNat := by
  refine foldl_min_le_of_mem _ (List.mem_append_left _ ?_)
  have hm : (u, s.core u) ∈ s.cores := mem_of_mfind_ne_none Core.reset hu
  have : (s.core u).vt.toNat ∈ (s.cores.filter (fun p => p.2.task.isSome && holdsStore s p.2.ctx.kern)).map (fun p => p.2.vt.toNat) :=
    List.mem_map.2 ⟨(u, s.core u), List.mem_filter.2 ⟨hm, by simp [ht, hs]⟩, rfl⟩
  simp only [beaconTerms, List.mem_append, this, true_or]

theorem ownRecord_b_toNat (s : State) : (ownRecord s).b.toNat = beaconMin s := word_toNat_of_lt (beaconMin_lt s)

/-- The root takes its own record, and Q only where the counts agree in two rounds (R336). -/
theorem treeResult_root {s : State} (h : s.net.parent = none) :
    (treeResult s).1 = (ownRecord s).b
      ∧ ((treeResult s).2 = true ↔ quiescent s = true ∧ (ownRecord s).sent = (ownRecord s).performed ∧ remoteTotals s = s.net.totals) := by
  refine ⟨by simp [treeResult, h], ?_⟩
  simp [treeResult, h, ownRecord]

/-- A device with a parent takes both from the root (R336). -/
theorem treeResult_child {s : State} (h : s.net.parent ≠ none) : treeResult s = s.net.global := by
  simp [treeResult, Option.isSome_iff_ne_none.2 h]

/-! ## What a publication leaves -/

/-- The device's B after a publication: 0 without a declared store, and otherwise never below what it was (R266). -/
def publishedB (s : State) : Word := word (if s.stores.isEmpty then 0 else max s.beaconB.toNat (treeResult s).1.toNat)

theorem publishedB_of_no_store {s : State} (h : s.stores = []) : publishedB s = 0 := by simp [publishedB, h, word]

theorem publishedB_toNat {s : State} (h : s.stores ≠ []) :
    (publishedB s).toNat = max s.beaconB.toNat (treeResult s).1.toNat := by
  have he : s.stores.isEmpty = false := by simpa using h
  rw [publishedB, he, if_neg Bool.false_ne_true]
  exact word_toNat_of_lt (Nat.max_lt.2 ⟨s.beaconB.isLt, (treeResult s).1.isLt⟩)

/-- The state after a publication, by field. -/
theorem execBeaconPublication_eq (s : State) : ∃ t, exec .beaconPublication s = .next t
    ∧ t.beaconB = publishedB s ∧ t.beaconQ = (treeResult s).2 ∧ t.net.up = some (ownRecord s)
    ∧ t.mem = s.mem ∧ t.clusters = s.clusters ∧ t.upds = s.upds
    ∧ t.cores = s.cores.map (fun p => (p.1, { p.2 with sentSince := false })) :=
  ⟨_, rfl, rfl, rfl, rfl, rfl, rfl, rfl, rfl⟩

/-- Every core counts its sendings anew; a core that no one has touched has sent nothing (R269). -/
theorem core_of_sentSince_cleared {s t : State} (h : t.cores = s.cores.map (fun p => (p.1, { p.2 with sentSince := false }))) (v : Nat) :
    t.core v = { s.core v with sentSince := false } := by
  rw [State.core, h]
  exact mget_map (R := fun c c' => c' = { c with sentSince := false }) Core.reset rfl
    (fun p => (p.1, { p.2 with sentSince := false })) (fun _ => rfl) (fun _ => rfl) v s.cores

end Sys2Proof.Machine

namespace Sys2Proof

open Sys2Proof.Machine

/-- Settles O47: the published B is a maximum over the old one, and the tree's result at the root is a minimum over the running tasks. -/
theorem beaconPublishes : Obligations.BeaconPublishes := by
  intro s u r
  obtain ⟨t, ht, hb, hq, hup, hmem, hcl, hupd, hcores⟩ := execBeaconPublication_eq s
  refine ⟨t, ht, fun h => hb.trans (publishedB_of_no_store h), fun h => hq ▸ (treeResult_root h).2, fun h => ?_, fun h => ?_, fun hp h hu htask hst => ?_,
    hup, rfl, rfl, core_of_sentSince_cleared hcores, hmem, hcl, hupd⟩
  · refine ⟨by rw [hq, treeResult_child h], fun hs => ?_⟩
    rw [hb, publishedB_toNat hs, treeResult_child h]
  · rw [hb, publishedB_toNat h]
    exact Nat.le_max_left ..
  · rw [hb, publishedB_toNat h, (treeResult_root hp).1, ownRecord_b_toNat]
    exact max_le_max_left _ (beaconMin_le_vt hu htask hst)

end Sys2Proof
end

section
/-! Bring-up, recovery, attestation, cold reset and the clock (R28 to R30, R32, R330, R369 to R371). -/

namespace Sys2Proof

/-- The numbers from a start upward rise strictly. -/
theorem upFrom_pairwise_lt (n : Nat) : ∀ a : Nat, (upFrom a n).Pairwise (· < ·) := by
  induction n with
  | zero => exact fun _ => List.Pairwise.nil
  | succ n ih => exact fun a => List.Pairwise.cons (fun k hk => (Machine.mem_upFrom.1 hk).1) (ih (a + 1))

theorem below_nodup (n : Nat) : (below n).Nodup := (upFrom_pairwise_lt n 0).imp Nat.ne_of_lt

theorem mem_below {n k : Nat} : k ∈ below n ↔ k < n := by simp [below, Machine.mem_upFrom]

end Sys2Proof

namespace Sys2Proof.Machine

/-! ## Training a module (R330) -/

/-- A half of the lanes passes when repair has mended every lane of it that failed. -/
theorem halfPasses_iff (failed repaired : BitVec 64) (upper : Bool) :
    halfPasses failed repaired upper = true
      ↔ ∀ j, j < 32 → failed.getLsbD ((if upper then 32 else 0) + j) = true → repaired.getLsbD ((if upper then 32 else 0) + j) = true := by
  have hlt : ∀ j, j < 32 → (if upper then 32 else 0) + j < 64 := fun j hj => by split <;> omega
  rw [halfPasses, beq_iff_eq]
  constructor
  · intro h j hj hf
    have hbit := congrArg (fun x => x.getLsbD j) h
    simpa [BitVec.getLsbD_extractLsb', hj, hf, hlt j hj] using hbit
  · intro h
    refine BitVec.eq_of_getLsbD_eq fun j hj => ?_
    have := h j hj
    simp only [BitVec.getLsbD_extractLsb', BitVec.getLsbD_and, BitVec.getLsbD_not, hj, hlt j hj, decide_true, Bool.true_and]
    grind

/-- Every failed lane below 32 is repaired. -/
def LowerPasses (failed repaired : BitVec 64) : Prop := ∀ j, j < 32 → failed.getLsbD j = true → repaired.getLsbD j = true

/-- Every failed lane from 32 on is repaired. -/
def UpperPasses (failed repaired : BitVec 64) : Prop := ∀ j, 32 ≤ j → j < 64 → failed.getLsbD j = true → repaired.getLsbD j = true

theorem halfPasses_lower (failed repaired : BitVec 64) : halfPasses failed repaired false = true ↔ LowerPasses failed repaired := by
  simp [halfPasses_iff, LowerPasses]

theorem halfPasses_upper (failed repaired : BitVec 64) : halfPasses failed repaired true = true ↔ UpperPasses failed repaired := by
  rw [halfPasses_iff, if_pos rfl]
  constructor
  · intro h j h1 h2 hf
    have := h (j - 32) (by omega)
    rw [Nat.add_sub_cancel' h1] at this
    exact this hf
  · exact fun h j hj => h (32 + j) (by omega) (by omega)

/-- A trained module is up on the half or halves that pass: on 64 lanes, or on the 32 of the lower half, or else of the upper one. -/
theorem Link.retrained_widths (l : Link) (failed repaired : BitVec 64) (now : Nat) (h : l.toX32 = false) :
    let lower := LowerPasses failed repaired
    let upper := UpperPasses failed repaired
    let t := l.retrained failed repaired now
    (t.up = true ↔ lower ∨ upper) ∧ (lower → upper → t.lanes = 64) ∧ (lower → ¬ upper → t.lanes = 32 ∧ t.upper = false)
      ∧ (¬ lower → upper → t.lanes = 32 ∧ t.upper = true) := by
  intro lower upper t
  have hl := halfPasses_lower failed repaired
  have hu := halfPasses_upper failed repaired
  have ht : t.up = (halfPasses failed repaired false || halfPasses failed repaired true)
      ∧ t.lanes = (if halfPasses failed repaired false && halfPasses failed repaired true && !l.toX32 then 64
          else if halfPasses failed repaired false || halfPasses failed repaired true then 32 else 0)
      ∧ t.upper = (!halfPasses failed repaired false && halfPasses failed repaired true) := ⟨rfl, rfl, rfl⟩
  obtain ⟨h1, h2, h3⟩ := ht
  refine ⟨by rw [h1, Bool.or_eq_true, hl, hu], fun a b => ?_, fun a b => ?_, fun a b => ?_⟩
  · simp [h2, h, hl.2 a, hu.2 b]
  · simp [h2, h3, h, hl.2 a, Bool.eq_false_iff.2 (fun e => b (hu.1 e))]
  · simp [h2, h3, h, Bool.eq_false_iff.2 (fun e => a (hl.1 e)), hu.2 b]

/-! ## The map and the reserved memory (R29, R30, R89, R296) -/

theorem mem_withMap_lmap (s : State) (quar : List Nat) (P : Nat) : P ∈ (withMap s quar).lmap ↔ P < 64 ∧ P ∉ quar := by
  simp [withMap, mem_below]

theorem withMap_nlive (s : State) (quar : List Nat) : (withMap s quar).nlive = (withMap s quar).lmap.length := rfl

theorem withMap_lmap_pairwise (s : State) (quar : List Nat) : (withMap s quar).lmap.Pairwise (· < ·) :=
  List.Pairwise.filter (fun P => !quar.contains P) (upFrom_pairwise_lt 64 0)

/-- A cluster after every cluster of a list has been rewritten once. -/
theorem foldl_modCluster_cluster (f : Nat → Cluster → Cluster) (P : Nat) : ∀ (l : List Nat) (s : State), l.Nodup →
    (l.foldl (fun s Q => s.modCluster Q (f Q)) s).cluster P = if P ∈ l then f P (s.cluster P) else s.cluster P
  | [], _, _ => by simp
  | Q :: t, s, h => by
    obtain ⟨hQ, ht⟩ := List.nodup_cons.1 h
    rw [List.foldl_cons, foldl_modCluster_cluster f P t _ ht, State.modCluster_eq, State.setCluster_cluster]
    by_cases hP : P = Q
    · subst hP; simp [hQ]
    · simp [hP]

/-- A die after every die of a list has been rewritten once. -/
theorem foldl_setDie_die (f : Nat → Die → Die) (d : Nat) : ∀ (l : List Nat) (s : State), l.Nodup →
    (l.foldl (fun s e => s.setDie e (f e (s.die e))) s).die d = if d ∈ l then f d (s.die d) else s.die d
  | [], _, _ => by simp
  | e :: t, s, h => by
    obtain ⟨he, ht⟩ := List.nodup_cons.1 h
    rw [List.foldl_cons, foldl_setDie_die f d t _ ht, State.setDie_die]
    by_cases hd : d = e
    · subst hd; simp [he]
    · simp [hd]

/-- A rewriting of clusters changes nothing else. -/
theorem foldl_modCluster_frame (f : Nat → Cluster → Cluster) (l : List Nat) (s : State) :
    l.foldl (fun s Q => s.modCluster Q (f Q)) s = { s with clusters := (l.foldl (fun s Q => s.modCluster Q (f Q)) s).clusters } :=
  foldl_keeps (P := fun (t : State) => t = { s with clusters := t.clusters }) (fun t P ht => by rw [ht]; rfl) l s rfl

/-- A rewriting of dies changes nothing else. -/
theorem foldl_setDie_frame (f : Nat → Die → Die) (l : List Nat) (s : State) :
    l.foldl (fun s e => s.setDie e (f e (s.die e))) s = { s with dies := (l.foldl (fun s e => s.setDie e (f e (s.die e))) s).dies } :=
  foldl_keeps (P := fun (t : State) => t = { s with dies := t.dies }) (fun t d ht => by rw [ht]; rfl) l s rfl

theorem foldl_setDie_cluster (f : Nat → Die → Die) (l : List Nat) (s : State) (P : Nat) :
    (l.foldl (fun s e => s.setDie e (f e (s.die e))) s).cluster P = s.cluster P :=
  foldl_keeps (P := fun (t : State) => t.cluster P = s.cluster P) (f := fun s e => s.setDie e (f e (s.die e))) (fun _ _ ht => ht) l s rfl

/-- The reserved memory of a cluster: its stow frames and its context buffers (R296). -/
def withFrames (frames ctxs : Nat) (va : Word) (P : Nat) (c : Cluster) : Cluster :=
  { c with frames := frames + P * (1024 * 1536), ctxs := ctxs + P * 2 ^ 21, ctxVa := va + word (P * 2 ^ 21) }

/-- A die with its page-table root (R89). -/
def withRoot (roots : List Word) (d : Nat) (x : Die) : Die := { x with ptroot := roots.getD d 0 }

/-- The reservation of memory rewrites the 64 clusters and then the four dies. -/
theorem reserveMemory_eq (s : State) (frames ctxs : Nat) (va : Word) (roots : List Word) :
    reserveMemory s frames ctxs va roots
      = (below 4).foldl (fun s d => s.setDie d (withRoot roots d (s.die d)))
          ((below 64).foldl (fun s P => s.modCluster P (withFrames frames ctxs va P)) s) := by
  unfold reserveMemory withRoot withFrames; rfl

/-- The reservation of memory changes clusters and dies alone. -/
theorem reserveMemory_frame (s : State) (frames ctxs : Nat) (va : Word) (roots : List Word) :
    ∃ cl di, reserveMemory s frames ctxs va roots = { s with clusters := cl, dies := di } := by
  rw [reserveMemory_eq]
  generalize below 64 = l, below 4 = m
  rw [foldl_setDie_frame, foldl_modCluster_frame]
  exact ⟨_, _, rfl⟩

theorem reserveMemory_cluster (s : State) (frames ctxs : Nat) (va : Word) (roots : List Word) {X : Nat} (h : X < 64) :
    (reserveMemory s frames ctxs va roots).cluster X = withFrames frames ctxs va X (s.cluster X) := by
  rw [reserveMemory_eq, foldl_setDie_cluster, foldl_modCluster_cluster _ _ _ _ (below_nodup 64), if_pos (mem_below.2 h)]

/-- The page-table root of a die (R89). -/
theorem reserveMemory_ptroot (s : State) (frames ctxs : Nat) (va : Word) (roots : List Word) {d : Nat} (h : d < 4) :
    ((reserveMemory s frames ctxs va roots).die d).ptroot = roots.getD d 0 := by
  rw [reserveMemory_eq, foldl_setDie_die (withRoot roots) d (below 4) _ (below_nodup 4), if_pos (mem_below.2 h)]
  rfl

/-! ## POWER_ON and RECOVERY_FIRMWARE_IMAGE (R369, R370) -/

/-- What the root of trust asks of an image (R370). -/
theorem accepts_iff (y : SysCtl) (i : FwImage) :
    accepts y i = true ↔ i.rsaKey = y.keys.1 ∧ i.slhKey = y.keys.2 ∧ i.rsaOk = true ∧ i.slhOk = true ∧ y.rollback ≤ i.version := by
  simp [accepts, and_assoc]

theorem SysCtl.measured_first {y : SysCtl} {m0 m1 : BitVec 384} (h : y.measure = [m0, m1]) (i : FwImage) :
    (y.measured 0 i).measure = [extend m0 i.digest, m1] := by simp [SysCtl.measured, h]

theorem SysCtl.measured_second {y : SysCtl} {m0 m1 : BitVec 384} (h : y.measure = [m0, m1]) (i : FwImage) :
    (y.measured 1 i).measure = [m0, extend m1 i.digest] := by simp [SysCtl.measured, h]

/-- The module after steps 2 to 4, before the supervisor firmware is verified. -/
def prepared (s : State) (b : BringUp) : State :=
  reserveMemory (selfTest (trainLinks s b.lanes) b.pass b.margins) b.frameBase b.ctxBase b.ctxVa b.ptroots

/-- The system controller after steps 5 and 6. -/
def SysCtl.afterSupervisor (y : SysCtl) (i : FwImage) : SysCtl :=
  if accepts y i then { y.measured 1 i with bring := 6 } else { y with bring := 4 }

/-- The clusters that fail the self-test of bring-up (R29). -/
def failingClusters (b : BringUp) : List Nat := (below 64).filter (fun P => !b.pass.contains P)

/-- Steps 2 to 4 with one module to train and one core with a margin step: what they leave, and what they set. -/
theorem prepared_spec {s : State} {b : BringUp} {u d P : Nat} {failed repaired : BitVec 64} (hm : b.margins = [(u, d)])
    (hl : b.lanes = [(P, failed, repaired)]) :
    (prepared s b).mem = s.mem ∧ (prepared s b).sys = s.sys ∧ (prepared s b).lmap = (withMap s (failingClusters b)).lmap
      ∧ (prepared s b).nlive = (withMap s (failingClusters b)).nlive
      ∧ (prepared s b).core u = { s.core u with mgn := { (s.core u).mgn with step := d % 16, dflt := d % 16 } }
      ∧ (prepared s b).link P = (s.link P).retrained failed repaired s.now := by
  obtain ⟨cl, di, h⟩ := reserveMemory_frame (selfTest (trainLinks s b.lanes) b.pass b.margins) b.frameBase b.ctxBase b.ctxVa b.ptroots
  have ht : prepared s b = { (withMap (s.setLink P ((s.link P).retrained failed repaired s.now)) (failingClusters b)).setCore u
      { s.core u with mgn := { (s.core u).mgn with step := d % 16, dflt := d % 16 } } with clusters := cl, dies := di } := by
    rw [prepared, h, hm, hl]
    rfl
  rw [ht]
  exact ⟨rfl, rfl, rfl, rfl, State.setCore_core_self .., State.setLink_link_self ..⟩

theorem prepared_cluster (s : State) (b : BringUp) {X : Nat} (h : X < 64) :
    ((prepared s b).cluster X).frames = b.frameBase + X * 1572864 ∧ ((prepared s b).cluster X).ctxs = b.ctxBase + X * 2 ^ 21
      ∧ ((prepared s b).cluster X).ctxVa = b.ctxVa + word (X * 2 ^ 21) := by
  rw [prepared, reserveMemory_cluster _ _ _ _ _ h]
  exact ⟨rfl, rfl, rfl⟩

theorem prepared_ptroot (s : State) (b : BringUp) {d : Nat} (h : d < 4) : ((prepared s b).die d).ptroot = b.ptroots.getD d 0 := by
  rw [prepared, reserveMemory_ptroot _ _ _ _ _ h]

/-- POWER_ON of a module that is off, whose first-stage image is accepted, goes on with bring-up from a state that differs in the system controller. -/
theorem execPowerOn_accepted {s : State} {b : BringUp} (h0 : s.sys.bring = 0) (h1 : s.sys.recovery = false)
    (ha : accepts s.sys b.image = true) :
    ∃ r, r = { s with sys := r.sys } ∧ r.sys.keys = s.sys.keys ∧ r.sys.rollback = s.sys.rollback
      ∧ r.sys.measure = (s.sys.measured 0 b.image).measure ∧ exec (.powerOn b) s = .next (bringUp r b) :=
  ⟨{ s with sys := { s.sys.measured 0 b.image with fwVersion := b.image.version, bring := 1 } }, rfl, rfl, rfl, rfl,
    by simp [exec, execPowerOn, h0, h1, ha]⟩

/-- A first-stage image that is refused leaves the module in recovery mode. -/
theorem execPowerOn_refused {s : State} {b : BringUp} (h0 : s.sys.bring = 0) (h1 : s.sys.recovery = false)
    (ha : accepts s.sys b.image ≠ true) : exec (.powerOn b) s = .next { s with sys := { s.sys with recovery := true } } := by
  simp [exec, execPowerOn, h0, h1, ha]

/-- POWER_ON of a module that is on, or in recovery mode, changes nothing. -/
theorem execPowerOn_on {s : State} {b : BringUp} (h : ¬ (s.sys.bring = 0 ∧ s.sys.recovery = false)) : exec (.powerOn b) s = .next s := by
  have : s.sys.bring ≠ 0 ∨ s.sys.recovery = true := by rwa [not_and_or, Bool.not_eq_false] at h
  simp [exec, execPowerOn, this]

theorem execRecovery_accepted {s : State} {img : FwImage} {m0 m1 : BitVec 384} (hr : s.sys.recovery = true) (ha : accepts s.sys img = true)
    (hm : s.sys.measure = [m0, m1]) : exec (.recoveryFirmwareImage img) s =
      .next { s with sys := { s.sys with recovery := false, fwVersion := img.version, measure := [extend m0 img.digest, m1] } } := by
  simp [exec, execRecoveryFirmwareImage, hr, ha, ← SysCtl.measured_first hm img, SysCtl.measured]

theorem execRecovery_ignored {s : State} {img : FwImage} (h : s.sys.recovery = false ∨ accepts s.sys img ≠ true) :
    exec (.recoveryFirmwareImage img) s = .next s := by
  have : (s.sys.recovery && accepts s.sys img) = false := by rwa [Bool.and_eq_false_iff, ← Bool.not_eq_true (accepts s.sys img)]
  simp [exec, execRecoveryFirmwareImage, this]

/-- Steps 5 and 6 change the system controller alone. -/
theorem bringUp_eq (s : State) (b : BringUp) : bringUp s b = { prepared s b with sys := (prepared s b).sys.afterSupervisor b.supervisor } := by
  unfold bringUp SysCtl.afterSupervisor
  rw [← prepared]
  dsimp only
  split <;> rfl

/-- No unit, memory or map is the system controller's to change. -/
theorem withSys_fields (s : State) (y : SysCtl) :
    let t : State := { s with sys := y }
    t.mem = s.mem ∧ t.lmap = s.lmap ∧ t.nlive = s.nlive ∧ (∀ u, t.core u = s.core u) ∧ (∀ m, t.link m = s.link m)
      ∧ (∀ P, t.cluster P = s.cluster P) ∧ ∀ d, t.die d = s.die d :=
  ⟨rfl, rfl, rfl, fun _ => rfl, fun _ => rfl, fun _ => rfl, fun _ => rfl⟩

/-- Supervisor firmware that is accepted opens the management path and extends the second measurement register; any other leaves both. -/
theorem SysCtl.afterSupervisor_spec {y : SysCtl} {m0 m1 : BitVec 384} (h : y.measure = [m0, m1]) (i : FwImage) :
    (accepts y i = true → (y.afterSupervisor i).bring = 6 ∧ (y.afterSupervisor i).measure = [m0, extend m1 i.digest])
      ∧ (accepts y i ≠ true → (y.afterSupervisor i).bring = 4 ∧ (y.afterSupervisor i).measure = [m0, m1]) := by
  refine ⟨fun ha => ?_, fun ha => ?_⟩
  · rw [SysCtl.afterSupervisor, if_pos ha]
    exact ⟨rfl, SysCtl.measured_second h i⟩
  · rw [SysCtl.afterSupervisor, if_neg ha]
    exact ⟨rfl, h⟩

/-- A cluster is in the map of bring-up where it passes the self-test (R29, R30). -/
theorem mem_prepared_lmap (s : State) (b : BringUp) (P : Nat) : P ∈ (withMap s (failingClusters b)).lmap ↔ P < 64 ∧ P ∈ b.pass := by
  rw [mem_withMap_lmap]
  simp only [failingClusters, List.mem_filter, mem_below, Bool.not_eq_true', List.contains_eq_mem, decide_eq_false_iff_not, not_and, not_not]
  exact and_congr_right fun h => ⟨fun k => k h, fun k _ => k⟩

/-! ## COLD_RESET (R28 to R30) -/

/-- A cluster stays quarantined over a cold reset where it does not pass the self-test. -/
theorem mem_stillQuarantined (s : State) (pass : List Nat) (P : Nat) :
    P ∈ s.quarCl.filter (fun Q => !pass.contains Q) ↔ P ∈ s.quarCl ∧ P ∉ pass := by
  simp

/-- What a cold reset leaves: every unit as at reset, the map by the self-test, and memory and the fused values as they were. -/
theorem execColdReset_spec (pass : List Nat) (s : State) :
    ∃ t, exec (.coldReset pass) s = .next t ∧ t.mem = s.mem ∧ (∀ X, X ∈ t.quarCl ↔ X ∈ s.quarCl ∧ X ∉ pass)
      ∧ (∀ X, X ∈ t.lmap ↔ X < 64 ∧ (X ∉ s.quarCl ∨ X ∈ pass)) ∧ t.nlive = t.lmap.length ∧ t.now = 0
      ∧ (∀ v, t.core v = State.reset.core v) ∧ (∀ X, t.cluster X = State.reset.cluster X) ∧ (∀ X, t.tile X = State.reset.tile X)
      ∧ t.queues = [] ∧ t.stores = [] ∧ t.msgs = [] ∧ t.sys.bring = 0 ∧ t.sys.rollback = s.sys.rollback ∧ t.sys.keys = s.sys.keys := by
  refine ⟨_, rfl, rfl, mem_stillQuarantined s pass, fun X => ?_, rfl, rfl, fun _ => rfl, fun _ => rfl, fun _ => rfl, rfl, rfl, rfl, rfl, rfl, rfl⟩
  rw [mem_withMap_lmap, mem_stillQuarantined, not_and_or, not_not]

/-! ## The clock (R32, R371) -/

/-- The temperature of one millisecond: the clock goes down from above 100 degrees until the temperature is below that. -/
theorem execThermalThrottle_spec (temp : Nat) (s : State) :
    ∃ t, (exec (.thermalThrottle temp) s = .next t ∧ t = { s with sys := t.sys }) ∧ t.sys.temp = temp
      ∧ (100 < temp ∨ s.sys.hot = true ∧ temp = 100 → t.sys.hot = true ∧ t.sys.clock = max 100 (s.sys.clock - 100))
      ∧ (¬ (100 < temp ∨ s.sys.hot = true ∧ temp = 100) → t.sys.hot = false ∧ t.sys.clock = min 3300 (s.sys.clock + 100)) := by
  refine ⟨_, ⟨rfl, rfl⟩, ?_⟩
  have hh : (decide (100 < temp) || (s.sys.hot && temp == 100)) = true ↔ 100 < temp ∨ s.sys.hot = true ∧ temp = 100 := by simp
  rw [← hh]
  dsimp only
  cases decide (100 < temp) || (s.sys.hot && temp == 100)
  · exact ⟨rfl, fun h => absurd h Bool.false_ne_true, fun _ => ⟨rfl, rfl⟩⟩
  · exact ⟨rfl, fun _ => ⟨rfl, rfl⟩, fun h => absurd rfl h⟩

/-- At 110 degrees all dies stop, and the management path reports it. -/
theorem execThermalShutdown_hot {temp : Nat} {s : State} (h : 110 ≤ temp) :
    exec (.thermalShutdown temp) s = .next { s with sys := { s.sys with temp := temp, shutdown := true, reported := true } } := by
  simp only [exec, execThermalShutdown, if_pos h]

theorem execThermalShutdown_cool {temp : Nat} {s : State} (h : temp < 110) : exec (.thermalShutdown temp) s = .next s := by
  simp only [exec, execThermalShutdown, if_neg (Nat.not_le.2 h)]

/-- The power of one millisecond: above the limit the clock goes down, and below it up again where the temperature allows it. -/
theorem execPowerLimitThrottle_spec (watts : Nat) (s : State) :
    ∃ t, (exec (.powerLimitThrottle watts) s = .next t ∧ t = { s with sys := t.sys })
      ∧ t.sys.clock = if s.sys.limit < watts then max 100 (s.sys.clock - 100)
          else if s.sys.hot = true then s.sys.clock else min 3300 (s.sys.clock + 100) := by
  refine ⟨_, ⟨rfl, rfl⟩, ?_⟩
  dsimp only
  split
  · rfl
  · split <;> rfl

end Sys2Proof.Machine

namespace Sys2Proof

open Sys2Proof.Machine

/-- Settles O57, one event after another. -/
theorem powerAndReset : Obligations.PowerAndReset := by
  intro s b img nonce m0 m1 pass temp watts P d u failed repaired y signed off slower faster keeps lower upper hot
  have hsigned : ∀ i, accepts y i = true ↔ signed i := accepts_iff y
  refine ⟨fun ho ha hmg hln hx hme => ?_, fun ho hr => ?_, fun ho => ?_, fun hr ha hme => ?_, fun h => ?_, ⟨_, _, rfl, rfl, rfl, rfl⟩,
    execColdReset_spec pass s, execThermalThrottle_spec temp s, fun ht => ?_, fun ht => ?_, execPowerLimitThrottle_spec watts s⟩
  · obtain ⟨r, hr, hk, hrb, hrm, he⟩ := execPowerOn_accepted ho.1 ho.2 ((hsigned _).2 ha)
    rw [SysCtl.measured_first hme] at hrm
    obtain ⟨p1, p2, p3, p4, p5, p6⟩ := prepared_spec (s := r) hmg hln
    have hsup : accepts r.sys b.supervisor = true ↔ signed b.supervisor := by rw [← hsigned, accepts_iff, accepts_iff, hk, hrb]
    obtain ⟨q1, q2⟩ := SysCtl.afterSupervisor_spec hrm b.supervisor
    have hcore : r.core u = s.core u := by rw [hr]; rfl
    have hlink : (prepared r b).link P = (s.link P).retrained failed repaired s.now := by rw [p6, hr]; rfl
    obtain ⟨w1, w2, w3, w4⟩ := (s.link P).retrained_widths failed repaired s.now hx
    rw [← hlink] at w1 w2 w3 w4
    refine ⟨_, he, ?_⟩
    have hsys : (bringUp r b).sys = r.sys.afterSupervisor b.supervisor := by rw [bringUp_eq, p2]
    obtain ⟨b1, b2, b3, b4, b5, b6, b7⟩ := withSys_fields (prepared r b) ((prepared r b).sys.afterSupervisor b.supervisor)
    rw [← bringUp_eq] at b1 b2 b3 b4 b5 b6 b7
    rw [b1, b2, b3, b4, b5, hsys, p1, p3, p4, p5, hcore]
    refine ⟨by rw [hr], mem_prepared_lmap r b, withMap_lmap_pairwise .., withMap_nlive .., rfl, rfl, rfl, w1, w2, w3, w4,
      fun X hX => by rw [b6]; exact prepared_cluster r b hX, fun k hk => by rw [b7]; exact prepared_ptroot r b hk, fun hs => q1 (hsup.2 hs), fun hs => q2 (fun e => hs (hsup.1 e))⟩
  · exact execPowerOn_refused ho.1 ho.2 (fun e => hr ((hsigned _).1 e))
  · exact execPowerOn_on ho
  · exact execRecovery_accepted hr ((hsigned _).2 ha) hme
  · exact execRecovery_ignored (h.imp_right (fun hn e => hn ((hsigned _).1 e)))
  · exact ⟨_, ⟨execThermalShutdown_hot ht, rfl⟩, rfl, rfl, rfl, fun hm => step_shutdown rfl hm⟩
  · exact execThermalShutdown_cool ht

end Sys2Proof
end

section
/-! Requests on their way (R26, R135, R138, R330): what a request's effect at its home leaves in place, its reply and its expiry. -/

namespace Sys2Proof.Machine

/-! ## The list of requests stays as it is while one of them takes effect -/

theorem answerFutures_reqs (s : State) (ws : List (Nat × Byte)) : (answerFutures s ws).reqs = s.reqs := by
  unfold answerFutures
  refine foldl_keeps (P := fun (t : State) => t.reqs = s.reqs) (fun t d h => ?_) _ _ rfl
  cases d.core <;> exact h

theorem performFor_reqs (c : Option Nat) (s : State) (ws : List (Nat × Byte)) : (performFor c s ws).reqs = s.reqs := by
  unfold performFor; rw [answerFutures_reqs]

theorem raiseFloor_reqs (s : State) (u a n k : Nat) : (s.raiseFloor u a n k).reqs = s.reqs := by
  unfold State.raiseFloor; split <;> rfl

theorem performBy_reqs (s : State) (u : Nat) (ws : List (Nat × Byte)) : (performBy s u ws).reqs = s.reqs :=
  foldl_keeps (P := fun (t : State) => t.reqs = s.reqs) (fun t w h => by rw [raiseFloor_reqs]; exact h) _ _ (performFor_reqs _ s ws)

theorem applyNext_reqs (s : State) (d : Nat) : (applyNext s d).reqs = s.reqs := by
  unfold applyNext
  split
  · rfl
  · simp only
    split <;> exact performFor_reqs _ _ _

theorem applyBelow_reqs (s : State) (d k : Nat) : (applyBelow s d k).reqs = s.reqs :=
  foldl_keeps (P := fun (t : State) => t.reqs = s.reqs) (fun t _ h => (applyNext_reqs t d).trans h) _ s rfl

theorem applyAll_reqs (s : State) : (applyAll s).reqs = s.reqs :=
  foldl_keeps (P := fun (t : State) => t.reqs = s.reqs) (fun t k h => (applyNext_reqs t (k % 4)).trans h) _ s rfl

theorem sequenceBy_reqs (s : State) (u : Nat) (ws : List (Nat × Byte)) : (sequenceBy s u ws).reqs = s.reqs := by
  unfold sequenceBy
  simp only
  split
  · exact applyAll_reqs _
  · exact applyBelow_reqs _ _ _

theorem atomicAtHome_reqs (s : State) (op : AtomOp) (loc : Nat) (repl : Bool) (u : Nat) (b d : Word) :
    (atomicAtHome s op loc repl u b d).2.reqs = s.reqs := by
  unfold atomicAtHome
  cases repl with
  | false =>
    simp only [Bool.false_eq_true, if_false]
    split
    · exact raiseFloor_reqs ..
    · exact performBy_reqs ..
  | true =>
    simp only [if_true]
    split
    · exact applyBelow_reqs ..
    · exact ((applyBelow_reqs ..).trans (sequenceBy_reqs ..)).trans (applyBelow_reqs ..)

theorem roundTrip_frame (s : State) (d e : Nat) : s.roundTrip d e = { s with links := (s.roundTrip d e).links } :=
  foldl_keeps (P := fun (t : State) => t = { s with links := t.links })
    (f := fun s m => s.setLink m { s.link m with owed := (s.link m).owed + 1 }) (fun t m h => by rw [h]; rfl) _ _ rfl

theorem roundTrip_reqs (s : State) (d e : Nat) : (s.roundTrip d e).reqs = s.reqs := by rw [roundTrip_frame]

theorem roundTrip_locPoisoned (s : State) (d e loc : Nat) : locPoisoned (s.roundTrip d e) loc = locPoisoned s loc := by
  rw [roundTrip_frame]; rfl

theorem homeReply_reqs (s : State) (op : AtomOp) (u : Nat) (va : Word) (loc : Nat) (repl : Bool) (b d : Word) :
    (homeReply s op u va loc repl b d).2.reqs = s.reqs := by
  have h0 := roundTrip_reqs s (dieOf (clusterOf u)) (if repl then 4 else locDie loc)
  unfold homeReply
  simp only
  generalize s.roundTrip (dieOf (clusterOf u)) (if repl then 4 else locDie loc) = s0 at h0 ⊢
  split
  · exact h0
  · exact (atomicAtHome_reqs ..).trans h0

theorem reqEffect_reqs (s : State) (r : Req) : (reqEffect s r).2.reqs = s.reqs := by
  unfold reqEffect
  cases r.kind with
  | atomic op => exact homeReply_reqs ..
  | peek => exact roundTrip_reqs ..
  | far => rfl

theorem reqEffect_accessed (s : State) (r : Req) : Accessed s (reqEffect s r).2 := by
  unfold reqEffect
  cases r.kind with
  | atomic op => exact homeReply_accessed ..
  | peek => exact roundTrip_accessed ..
  | far => exact farReply_accessed ..

/-! ## An atomic at its home (R134, R137) -/

/-- The model's atomics give the values of R134 and R137. -/
theorem atomApply_eq_newValue (op : AtomOp) (old b d : Word) : atomApply op old b d = newValue op old b d := by
  cases op with
  | min => simp only [atomApply, newValue, BitVec.slt, decide_eq_true_eq]; grind
  | max => simp only [atomApply, newValue, BitVec.slt, decide_eq_true_eq]; grind [BitVec.eq_of_toInt_eq]
  | minu => simp only [atomApply, newValue, BitVec.lt_def]; grind
  | maxu => simp only [atomApply, newValue, BitVec.lt_def]; grind [BitVec.eq_of_toNat_eq]
  | _ => rfl

theorem performBy_mem (s : State) (u : Nat) (ws : List (Nat × Byte)) : (performBy s u ws).mem = s.mem.pokes ws :=
  foldl_keeps (P := fun (t : State) => t.mem = s.mem.pokes ws) (fun t w h => by rw [raiseFloor_mem]; exact h) _ _ (performFor_mem _ s ws)

/-- An atomic on a page that is not replicated: the old value is answered, a new one is stored in its word, and no other byte changes. -/
theorem atomicAtHome_spec (s : State) (op : AtomOp) (loc u : Nat) (b d : Word) :
    let old := word (s.mem.nat loc (atomSize op))
    let r := atomicAtHome s op loc false u b d
    r.1 = old ∧ (∀ x, newValue op old b d = some x → r.2.mem.nat loc (atomSize op) = x.toNat % 256 ^ atomSize op)
      ∧ ∀ x, x < loc ∨ loc + atomSize op ≤ x → r.2.mem.peek x = s.mem.peek x := by
  intro old r
  rw [← atomApply_eq_newValue]
  have hr : r = match atomApply op old b d with
      | none => (old, s.raiseFloor u loc 8 s.past.length)
      | some v => (old, performBy s u (writesAt loc (leBytes (atomSize op) v.toNat))) := rfl
  rw [hr]
  cases atomApply op old b d with
  | none =>
    simp only [raiseFloor_mem]
    exact ⟨trivial, nofun, fun _ _ => trivial⟩
  | some v =>
    simp only [performBy_mem]
    refine ⟨trivial, fun x hx => ?_, fun x hx => ?_⟩
    · rw [Memory.nat_writesAt, Option.some.inj hx]
    · exact Memory.peek_writesAt_outside _ _ _ _ (by simpa using hx)

/-- The same over the links of the request's path, where the word is not poisoned. -/
theorem homeReply_spec (s : State) (op : AtomOp) (u loc : Nat) (va b d : Word) (hp : locPoisoned s loc = false) :
    let old := word (s.mem.nat loc (atomSize op))
    let r := homeReply s op u va loc false b d
    r.1 = .val old ∧ (∀ x, newValue op old b d = some x → r.2.mem.nat loc (atomSize op) = x.toNat % 256 ^ atomSize op)
      ∧ ∀ x, x < loc ∨ loc + atomSize op ≤ x → r.2.mem.peek x = s.mem.peek x := by
  unfold homeReply
  simp only [roundTrip_locPoisoned, hp, Bool.false_eq_true, if_false]
  have h := atomicAtHome_spec (s.roundTrip (dieOf (clusterOf u)) (locDie loc)) op loc u b d
  rw [roundTrip_mem] at h
  exact ⟨congrArg Reply.val h.1, h.2⟩

/-! ## Requests that have their reply -/

theorem Req.not_retired {r : Req} (h : r.d ≠ 0) : r.retired = false := by
  rw [Req.retired, beq_eq_false_iff_ne.2 h, Bool.false_and]

/-- A request whose instruction waits keeps its place and holds the reply. -/
theorem settleReq_waiting (s : State) (k u : Nat) (r : Req) (x : Reply) (hd : r.d ≠ 0) (hc : r.core = some u) :
    settleReq s k r x = { s with reqs := s.reqs.set k { r with done := some x } } := by
  simp [settleReq, Req.not_retired hd, hc]

/-- ATOMIC_PERFORM of a request whose path is up and which no other of its word or connection precedes. -/
theorem execAtomicPerform_waiting {s : State} {k u : Nat} {r : Req} (hk : s.reqs[k]? = some r) (hdone : r.done = none) (hd : r.d ≠ 0)
    (hc : r.core = some u) (hp : reqPathDown s r = false) (hf : (s.reqs.take k).any (fun x => x.done.isNone && performsFirst x r) = false) :
    exec (.atomicPerform k) s
      = .next { (reqEffect s r).2 with reqs := s.reqs.set k { r with done := some (reqEffect s r).1 } } := by
  have h := settleReq_waiting (reqEffect s r).2 k u r (reqEffect s r).1 hd hc
  rw [reqEffect_reqs] at h
  rw [← h]
  simp only [exec, execAtomicPerform, hk, hdone, hp, hf, Bool.false_eq_true, or_self, if_false]

/-! ## REQUEST_REPLY -/

/-- The reply of core u's request lets its instruction retire (R26, R135). -/
theorem execRequestReply_value {s : State} {u k : Nat} {r : Req} {v : Word} (hw : (s.core u).wait = .request) (hpop : (s.core u).pop = none)
    (hh : s.holdsRecord (.net (clusterOf u)) = false) (hr : replyFor s u = some (k, r, .val v)) :
    exec (.requestReply u) s = .next (retireCore ({ s with reqs := dropAt s.reqs k }.modCore u (fun c => c.wg r.d v)) u) := by
  simp [exec, execRequestReply, hw, hpop, hh, hr]

/-- A core that writes a register and retires in sequence, as if from state s. -/
theorem retireCore_wg (s t : State) (u : Nat) (d : GReg) (v : Word) (h : t.core u = s.core u) :
    let c := (retireCore (t.modCore u (fun c => c.wg d v)) u).core u
    Sequenced (s.core u) c ∧ c.wait = .none ∧ ∀ q, c.rg q = if q = d ∧ d ≠ 0 then v else (s.core u).rg q := by
  intro c
  have hc : c = (((s.core u).wg d v).retireCounts t.now).seqNext ((s.core u).wg d v).nextPc := by
    simp only [c, retireCore_core_self, State.modCore_eq, State.setCore_core_self, State.setCore_now, h]
  rw [hc]
  refine ⟨?_, ?_, fun q => ?_⟩
  · exact Sequenced.of_same (((s.core u).wg d v).seqNext_sequenced t.now) (by simp) (by simp) (by simp) (by simp) (by simp)
  · rw [Core.seqNext_wait]; rfl
  · rw [Core.seqNext_rg, Core.retireCounts_rg, Core.wg_rg]

/-! ## REQUEST_TIMEOUT -/

theorem execRequestTimeout_notDue {s : State} {k : Nat} {r : Req} (hk : s.reqs[k]? = some r)
    (h : s.now < r.since + 2 ^ 20 ∨ reqPathDown s r = false) : exec (.requestTimeout k) s = .next s := by
  have : s.now < r.since + 2 ^ 20 ∨ reqPathDown s r = false ∨ r.done.isSome = true := h.imp_right Or.inl
  simp only [exec, execRequestTimeout, hk, if_pos this]

theorem execRequestTimeout_due {s : State} {k : Nat} {r : Req} (hk : s.reqs[k]? = some r) (ht : r.since + 2 ^ 20 ≤ s.now)
    (hp : reqPathDown s r = true) (hd : r.done = none) : exec (.requestTimeout k) s = .next (requestExpires s k r) := by
  have : ¬ (s.now < r.since + 2 ^ 20 ∨ reqPathDown s r = false ∨ r.done.isSome = true) := by
    rw [hp, hd]; simpa using ht
  simp only [exec, execRequestTimeout, hk, if_neg this]

/-- A request that expires holds POISON for its core, whether or not it has taken effect (R138). -/
theorem requestExpires_waiting {s : State} {k u : Nat} {r : Req} (hd : r.d ≠ 0) (hc : r.core = some u) :
    ∃ s', Accessed s s' ∧ requestExpires s k r = { s' with reqs := s.reqs.set k { r with done := some (.fail .poison 0 r.va 0 0 0) } } := by
  have key : ∀ t : State, Accessed s t → t.reqs = s.reqs →
      ∃ s', Accessed s s' ∧ settleReq t.tickFree k r (.fail .poison 0 r.va 0 0 0)
        = { s' with reqs := s.reqs.set k { r with done := some (.fail .poison 0 r.va 0 0 0) } } := fun t ht hr =>
    ⟨t.tickFree, ht.trans (tickFree_accessed t), by rw [settleReq_waiting _ _ u _ _ hd hc, State.tickFree_reqs, hr]⟩
  unfold requestExpires
  dsimp only
  split
  · exact key _ (reqEffect_accessed s r) (reqEffect_reqs s r)
  · exact key _ (Accessed.refl s) rfl

/-- Beyond the list of requests, REQUEST_TIMEOUT names a core whose access waits. -/
theorem execRequestTimeout_core {s : State} {k u : Nat} (hk : s.reqs.length ≤ k) (hu : u = k - s.reqs.length) (hlt : u < 2048) :
    exec (.requestTimeout k) s = .next (accessExpires s u) := by
  subst hu
  simp only [exec, execRequestTimeout, List.getElem?_eq_none hk, if_pos hlt]

theorem accessExpires_pathUp {s : State} {u x y since : Nat} {va : Word} (hw : (s.core u).wait = .path va x y since)
    (hp : pathDown s x y = false) : accessExpires s u = parkCore s u .none := by
  simp [accessExpires, hw, hp]

theorem accessExpires_due {s : State} {u x y since : Nat} {va : Word} (hw : (s.core u).wait = .path va x y since)
    (hp : pathDown s x y = true) (ht : since + 2 ^ 20 ≤ s.now) (hf : (s.core u).fetchWait = false) :
    accessExpires s u = takeTrap s u (.at .poison va) := by
  simp only [accessExpires, hw, hp, hf, Bool.true_eq_false, if_false, if_neg (Nat.not_lt.2 ht), Bool.false_eq_true]

/-- Parking changes of the core its wait alone. -/
theorem parkCore_onlyCore (s : State) (u : Nat) (w : Wait) :
    OnlyCore s (parkCore s u w) u ∧ (parkCore s u w).core u = { s.core u with wait := w } :=
  ⟨⟨rfl, fun v hv => by simp [parkCore, State.setCore_core, hv]⟩, by simp [parkCore]⟩

/-- A precise trap of core u where its reserved slot is free: the record stands there and the core parks with it; nothing it has written changes (R58, R346). -/
theorem takeTrap_free {s : State} {u : Nat} {t : Trap} (hc : t.cause ≠ .pageFault) (hp : t.pc = none) (hr : t.rpc = .same)
    (hm : mfind (s.cluster (clusterOf u)).mailbox (inCluster u) = none) :
    ∃ z, (takeTrap s u t).core u = { (s.core u).dropped with status := .trapped z } ∧ PreciseRecord s u z t.cause t.faddr
      ∧ mfind ((takeTrap s u t).cluster (clusterOf u)).mailbox (inCluster u) = some z
      ∧ (takeTrap s u t).mem = s.mem ∧ ∀ v, v ≠ u → (takeTrap s u t).core v = s.core v := by
  obtain ⟨d1, d2, d3, d4, _⟩ := dropWait_spec s u
  have hcl : (dropWait s u).cluster (clusterOf u) = s.cluster (clusterOf u) := by simp only [State.cluster, d4]
  obtain ⟨w1, w2, w3⟩ := writeReserved_spec (dropWait s u) u (trapRecord (dropWait s u) u t)
  rw [hcl, if_pos hm] at w1
  rw [takeTrap_eq s u t hc]
  refine ⟨_, by rw [w1.2, d1], trapRecord_precise s u t hp hr, w1.1, w3.trans d3, fun v hv => (w2 v hv).trans (d2 v hv)⟩

end Sys2Proof.Machine

namespace Sys2Proof

open Sys2Proof.Machine

/-- Settles O25: the effect at the home, the reply, and the three ways in which a wait on a path ends. -/
theorem requestsOnTheirWay : Obligations.RequestsOnTheirWay := by
  intro s k u r op v
  refine ⟨fun hk hdone hkind hrepl hpo hd hc hp hf => ?_, fun hw hpop hh hr => ?_, fun hk ht hp hd hc hdone => ?_, execRequestTimeout_notDue,
    fun va x y since hk hu hlt hw => ⟨fun hp => ?_, fun hp ht hf hm => ?_⟩⟩
  · intro old
    obtain ⟨h1, h2, h3⟩ := homeReply_spec s op r.sender r.loc r.va r.b r.a hpo
    have he : reqEffect s r = homeReply s op r.sender r.va r.loc false r.b r.a := by simp only [reqEffect, hkind, hrepl]
    have ha := reqEffect_accessed s r
    rw [← he] at h1 h2 h3
    exact ⟨_, execAtomicPerform_waiting hk hdone hd hc hp hf, by rw [h1], h2, h3, fun w => ⟨ha.g w, ha.pc w⟩⟩
  · obtain ⟨h1, h2, h3⟩ := retireCore_wg s { s with reqs := dropAt s.reqs k } u r.d v rfl
    refine ⟨_, execRequestReply_value hw hpop hh hr, rfl, rfl, h1, h2, h3, fun w hwu => ?_⟩
    rw [retireCore_core_ne _ hwu, State.modCore_eq, State.setCore_core, if_neg hwu]
    rfl
  · obtain ⟨s', ha, he⟩ := requestExpires_waiting (s := s) (k := k) hd hc
    refine ⟨_, execRequestTimeout_due hk ht hp hdone, ?_, fun w => ?_⟩
    · obtain ⟨hlt, _⟩ := List.getElem?_eq_some_iff.1 hk
      rw [he]
      simp [hlt]
    · rw [he]
      exact ⟨ha.g w, ha.pc w⟩
  · refine ⟨_, execRequestTimeout_core hk hu hlt, ?_⟩
    rw [accessExpires_pathUp hw hp]
    exact parkCore_onlyCore s u .none
  · obtain ⟨z, h1, h2, _, h4, _⟩ := takeTrap_free (s := s) (u := u) (t := .at .poison va) nofun rfl rfl hm
    refine ⟨_, z, execRequestTimeout_core hk hu hlt, ?_⟩
    rw [accessExpires_due hw hp ht hf, h1]
    exact ⟨rfl, h2, rfl, rfl, h4⟩

end Sys2Proof
end

section
/-! Errors of a core (R24, R25, R352, R355 to R359): the watchdog, the replays of the shadow latch and of the checker, and the sealing of a core. -/

namespace Sys2Proof.Machine

/-! ## A wait that a replay discards -/

/-- The waits that the shadow latch's replay discards: of a SWAIT, which queues anew, and of a GBAR. -/
def Wait.requeued : Wait → Bool
  | .semaphore _ | .barrier => true
  | _ => false

/-- The waits that a checker replay discards beside those. -/
def Wait.parked : Wait → Bool
  | .future _ | .futureRetry _ _ | .sector _ | .ring _ | .drainRing => true
  | _ => false

theorem Wait.requeued_iff (w : Wait) : w.requeued = true ↔ (∃ k, w = .semaphore k) ∨ w = .barrier := by
  cases w <;> simp [Wait.requeued]

theorem Wait.parked_iff (w : Wait) : w.parked = true ↔
    (∃ l, w = .future l) ∨ (∃ l b, w = .futureRetry l b) ∨ (∃ l, w = .sector l) ∨ (∃ k, w = .ring k) ∨ w = .drainRing := by
  cases w <;> simp [Wait.parked]

/-- Core u leaves what it waits on and waits no more. -/
def unwait (s : State) (u : Nat) : State := parkCore (leaveWait s u) u .none

theorem leaveWait_cores (s : State) (u : Nat) : (leaveWait s u).cores = s.cores := by unfold leaveWait; split <;> rfl
theorem leaveWait_mem (s : State) (u : Nat) : (leaveWait s u).mem = s.mem := by unfold leaveWait; split <;> rfl

theorem unwait_core (s : State) (u v : Nat) : (unwait s u).core v = if v = u then { s.core u with wait := .none } else s.core v := by
  have h : ∀ w, (leaveWait s u).core w = s.core w := fun w => by simp only [State.core, leaveWait_cores]
  simp [unwait, parkCore, State.setCore_core, h]

theorem unwait_mem (s : State) (u : Nat) : (unwait s u).mem = s.mem := leaveWait_mem s u

/-- A core that waited on a semaphore is in its queue no more. -/
theorem unwait_semq {s : State} {u : Nat} {k : Nat} (h : (s.core u).wait = .semaphore k) :
    ∀ p ∈ mget ((unwait s u).tile (tileOf u)).semq k [], p.1 ≠ u := by
  have : ((unwait s u).tile (tileOf u)).semq = mmod (s.tile (tileOf u)).semq k [] (fun q => q.filter (fun p => p.1 ≠ u)) := by
    simp [unwait, parkCore, leaveWait, h]
  rw [this]
  simp [mmod]

/-- The deferred LDFs of a core that waited on one go on without it. -/
theorem unwait_defers {s : State} {u l : Nat} (h : (s.core u).wait = .future l) :
    (∀ d ∈ (unwait s u).defers, d.core ≠ some u) ∧ (unwait s u).defers.length = s.defers.length := by
  have : (unwait s u).defers = s.defers.map (fun (d : Deferral) => if d.core = some u then { d with core := none } else d) := by
    simp [unwait, parkCore, leaveWait, h]
  rw [this]
  refine ⟨fun d hd => ?_, List.length_map _⟩
  obtain ⟨e, -, rfl⟩ := List.mem_map.1 hd
  split
  · nofun
  · assumption

/-! ## Replays -/

/-- Replays keep the margin's new counts and the sample of a queue condition. -/
def State.replayed (s : State) (u : Nat) (m : Margin) (b : BitVec 16) : State := s.tickFree.modCore u (fun c => { c with mgn := m, sample := some b })

theorem replay_eq (s : State) (u : Nat) (m : Margin) :
    replay s u m = (if (s.core u).wait.requeued then unwait s u else s).replayed u m (replaySample s u) := by
  unfold replay
  cases (s.core u).wait <;> rfl

theorem dropParked_eq (s : State) (u : Nat) : dropParked s u = if (s.core u).wait.parked then unwait s u else s := by
  unfold dropParked
  cases (s.core u).wait <;> rfl

theorem replayed_core (s : State) (u v : Nat) (m : Margin) (b : BitVec 16) :
    (s.replayed u m b).core v = if v = u then { s.core u with mgn := m, sample := some b } else s.core v := by
  simp [State.replayed, State.setCore_core]

theorem replaySample_spec (s : State) (u : Nat) :
    replaySample s u = (s.core u).sample.getD (queueConds s u)
      ∨ (s.core u).sample = none ∧ (s.core u).early = some (replaySample s u) ∧ s.eager = false := by
  unfold replaySample
  extract_lets c
  change _ = c.sample.getD _ ∨ c.sample = none ∧ c.early = _ ∧ _
  cases c.sample with
  | some b => exact .inl rfl
  | none =>
    cases c.early with
    | none => exact .inl rfl
    | some b =>
      cases s.eager with
      | true => exact .inl rfl
      | false =>
        cases Config.freeBool s.freeCtr with
        | true => exact .inr ⟨rfl, rfl, rfl⟩
        | false => exact .inl rfl

/-- What a replay leaves: the core with new counts and its sample, and with the wait named; no other core and no byte of memory differs. -/
def Replays (s t : State) (u : Nat) (m : Margin) (w : Wait) : Prop :=
  t.mem = s.mem ∧ (∀ v, v ≠ u → t.core v = s.core v)
    ∧ t.core u = { s.core u with mgn := m, sample := some (replaySample s u), wait := w }
    ∧ ∀ k, (s.core u).wait = .semaphore k → ∀ p ∈ mget (t.tile (tileOf u)).semq k [], p.1 ≠ u

theorem replay_replays (s : State) (u : Nat) (m : Margin) :
    Replays s (replay s u m) u m (if (s.core u).wait.requeued then .none else (s.core u).wait) := by
  rw [replay_eq]
  cases hw : (s.core u).wait.requeued with
  | true =>
    refine ⟨unwait_mem s u, fun v hv => ?_, ?_, fun k hk => unwait_semq hk⟩
    · rw [replayed_core, if_neg hv, if_pos rfl, unwait_core, if_neg hv]
    · rw [replayed_core, if_pos rfl, if_pos rfl, unwait_core, if_pos rfl, if_pos rfl]
  | false =>
    refine ⟨rfl, fun v hv => ?_, ?_, fun k hk => ?_⟩
    · rw [replayed_core, if_neg hv, if_neg Bool.false_ne_true]
    · rw [replayed_core, if_pos rfl, if_neg Bool.false_ne_true, if_neg Bool.false_ne_true]
    · rw [hk] at hw; cases hw

/-- A checker replay discards more waits than one of the shadow latch. -/
theorem dropParked_replays (s : State) (u : Nat) (m : Margin) :
    Replays s (dropParked (replay s u m) u) u m
      (if (s.core u).wait.requeued || (s.core u).wait.parked then .none else (s.core u).wait) := by
  obtain ⟨h1, h2, h3, h4⟩ := replay_replays s u m
  rw [dropParked_eq, h3]
  generalize replay s u m = t at h1 h2 h3 h4 ⊢
  cases hq : (s.core u).wait.requeued with
  | true =>
    rw [hq] at h3
    exact ⟨h1, h2, h3, h4⟩
  | false =>
    rw [hq, if_neg Bool.false_ne_true] at h3
    cases hp : (s.core u).wait.parked with
    | false =>
      rw [if_neg Bool.false_ne_true]
      simp only [hp, Bool.false_eq_true, if_false, Bool.or_self]
      exact ⟨h1, h2, h3, h4⟩
    | true =>
      simp only [hp, Bool.false_eq_true, if_true, if_false, Bool.false_or]
      refine ⟨(unwait_mem t u).trans h1, fun v hv => ?_, ?_, fun k hk => ?_⟩
      · rw [unwait_core, if_neg hv, h2 v hv]
      · rw [unwait_core, if_pos rfl, h3]
      · rw [hk] at hp; cases hp

/-- A checker replay of a waiting LDF: its deferral goes on without the core (R109). -/
theorem dropParked_replay_defers {s : State} {u l : Nat} (m : Margin) (h : (s.core u).wait = .future l) :
    (∀ d ∈ (dropParked (replay s u m) u).defers, d.core ≠ some u)
      ∧ (dropParked (replay s u m) u).defers.length = s.defers.length := by
  have hr : replay s u m = s.replayed u m (replaySample s u) := by rw [replay_eq, h]; rfl
  have hw : ((replay s u m).core u).wait = .future l := by rw [hr, replayed_core, if_pos rfl]; exact h
  have hd : dropParked (replay s u m) u = unwait (replay s u m) u := by rw [dropParked_eq, hw]; rfl
  rw [hd]
  have := unwait_defers hw
  rw [hr] at this ⊢
  exact this

/-! ## The core's steps -/

theorem replayable_iff (s : State) (u : Nat) : replayable s u = true ↔
    (s.core u).status = .running ∧ (s.core u).task ≠ none ∧ (s.core u).mgn.settling = false := by
  simp [replayable, and_assoc, Option.isSome_iff_ne_none]

theorem not_replayable {s : State} {u : Nat} (h : ¬ ((s.core u).status = .running ∧ (s.core u).task ≠ none ∧ (s.core u).mgn.settling = false)) :
    replayable s u = false := by
  rwa [← replayable_iff, Bool.not_eq_true] at h

/-- The margin after the shadow latch's next detection, and after the checker's. -/
def Margin.detected (m : Margin) : Margin := { m with trepc := saturate m.trepc, replays := m.replays + 1 }
def Margin.mismatched (m : Margin) : Margin := { m with cmisc := saturate m.cmisc, misses := m.misses + 1 }

theorem execShadowLatchReplay_eq (s : State) (u : Nat) :
    exec (.shadowLatchReplay u) s =
      let m := (s.core u).mgn.detected
      .next (if replayable s u = false then s else if m.replays < 4 then replay s u m
        else if m.stepNow = 0 then silentEnd (s.modCore u (fun c => { c with mgn := { m with replays := 0 } })) u
        else replay s u (m.stepBack s.now)) := rfl

theorem execCheckerMismatch_eq (s : State) (u : Nat) :
    exec (.checkerMismatch u) s =
      let m := (s.core u).mgn.mismatched
      .next (if replayable s u = false then s else if m.misses < 3 then dropParked (replay s u m) u
        else silentEnd (s.modCore u (fun c => { c with mgn := { m with misses := 0 } })) u) := rfl

theorem execShadowLatchReplay_idle {s : State} {u : Nat} (h : replayable s u = false) : exec (.shadowLatchReplay u) s = .next s := by
  rw [execShadowLatchReplay_eq]; simp [h]

theorem execCheckerMismatch_idle {s : State} {u : Nat} (h : replayable s u = false) : exec (.checkerMismatch u) s = .next s := by
  rw [execCheckerMismatch_eq]; simp [h]

theorem execShadowLatchReplay_again {s : State} {u : Nat} (h : replayable s u = true) (hm : (s.core u).mgn.replays < 3) :
    exec (.shadowLatchReplay u) s = .next (replay s u (s.core u).mgn.detected) := by
  have h4 : (s.core u).mgn.detected.replays < 4 := Nat.succ_lt_succ hm
  rw [execShadowLatchReplay_eq]; simp [h, h4]

theorem Margin.detected_stepNow (m : Margin) : m.detected.stepNow = if 2 ≤ m.misses then 0 else m.step := rfl

theorem execShadowLatchReplay_back {s : State} {u : Nat} (h : replayable s u = true) (hm : (s.core u).mgn.replays = 3)
    (hs : (s.core u).mgn.step ≠ 0) (hx : (s.core u).mgn.misses < 2) :
    exec (.shadowLatchReplay u) s = .next (replay s u ((s.core u).mgn.detected.stepBack s.now)) := by
  have h4 : ¬ (s.core u).mgn.detected.replays < 4 := by simp [Margin.detected, hm]
  have h0 : ¬ (s.core u).mgn.detected.stepNow = 0 := by rwa [Margin.detected_stepNow, if_neg (Nat.not_le.2 hx)]
  rw [execShadowLatchReplay_eq]; simp [h, h4, h0]

theorem execShadowLatchReplay_silent {s : State} {u : Nat} (h : replayable s u = true) (hm : (s.core u).mgn.replays = 3)
    (hs : (s.core u).mgn.step = 0 ∨ 2 ≤ (s.core u).mgn.misses) :
    exec (.shadowLatchReplay u) s
      = .next (silentEnd (s.modCore u (fun c => { c with mgn := { (s.core u).mgn.detected with replays := 0 } })) u) := by
  have h4 : ¬ (s.core u).mgn.detected.replays < 4 := by simp [Margin.detected, hm]
  have h0 : (s.core u).mgn.detected.stepNow = 0 := by
    rw [Margin.detected_stepNow]; split
    · rfl
    · rename_i hn; exact hs.resolve_right hn
  rw [execShadowLatchReplay_eq]; simp [h, h4, h0]

theorem execCheckerMismatch_again {s : State} {u : Nat} (h : replayable s u = true) (hm : (s.core u).mgn.misses < 2) :
    exec (.checkerMismatch u) s = .next (dropParked (replay s u (s.core u).mgn.mismatched) u) := by
  have h3 : (s.core u).mgn.mismatched.misses < 3 := Nat.succ_lt_succ hm
  rw [execCheckerMismatch_eq]; simp [h, h3]

theorem execCheckerMismatch_silent {s : State} {u : Nat} (h : replayable s u = true) (hm : (s.core u).mgn.misses = 2) :
    exec (.checkerMismatch u) s
      = .next (silentEnd (s.modCore u (fun c => { c with mgn := { (s.core u).mgn.mismatched with misses := 0 } })) u) := by
  have h3 : ¬ (s.core u).mgn.mismatched.misses < 3 := by simp [Margin.mismatched, hm]
  rw [execCheckerMismatch_eq]; simp [h, h3]

/-- A step back with its event (R356, R372). -/
theorem Margin.stepBack_eq (m : Margin) (now : Nat) :
    let near := m.recent.filter (fun t => now < t + 2 ^ 24)
    let pins := 7 ≤ near.length
    m.stepBack now = { m with replays := 0, step := if pins then 0 else m.step - 1, pin := m.pin || decide pins, total := m.total + 1,
                              last := if pins then 0 else m.step - 1, recent := near ++ [now], settling := true, armed := m.armed || decide pins } := by
  intro near pins
  have hp : decide (8 ≤ (recentEvents m.recent now ++ [now]).length) = decide pins := by
    simp [recentEvents, near, pins]
  simp only [Margin.stepBack, hp, decide_eq_true_eq]
  rfl

/-- A step that changes the margin of a core and no more. -/
theorem modCore_mgn_onlyCore (s : State) (u : Nat) (f : Margin → Margin) :
    OnlyCore s (s.modCore u (fun c => { c with mgn := f c.mgn })) u
      ∧ (s.modCore u (fun c => { c with mgn := f c.mgn })).core u = { s.core u with mgn := f (s.core u).mgn } :=
  ⟨⟨rfl, fun v hv => by simp [State.setCore_core, hv]⟩, by simp⟩

/-! ## The watchdog (R352) -/

theorem execWatchdogExpiry_latches {s : State} {u : Nat} (hd : (s.core u).status = .running ∧ (s.core u).wdStart + 2 ^ (s.core u).ctx.wdt ≤ s.now)
    (h : (s.core u).awaitsReply = true ∨ (s.core u).stowing ≠ none) :
    exec (.watchdogExpiry u) s = .next (s.modCore u (fun c => { c with ctx := { c.ctx with latched := true } })) := by
  obtain ⟨h1, h2⟩ := hd
  have h3 : ((s.core u).awaitsReply || (s.core u).stowing.isSome) = true := by simpa [Option.isSome_iff_ne_none] using h
  simp [exec, execWatchdogExpiry, h1, h3, Nat.not_lt.2 h2]

theorem execWatchdogExpiry_traps {s : State} {u : Nat} (hd : (s.core u).status = .running ∧ (s.core u).wdStart + 2 ^ (s.core u).ctx.wdt ≤ s.now)
    (hr : (s.core u).awaitsReply = false) (hs : (s.core u).stowing = none) :
    exec (.watchdogExpiry u) s = .next (takeTrap s u (.plain .watchdog)) := by
  obtain ⟨h1, h2⟩ := hd
  simp [exec, execWatchdogExpiry, h1, hr, hs, Nat.not_lt.2 h2]

theorem execWatchdogExpiry_early {s : State} {u : Nat} (hd : ¬ ((s.core u).status = .running ∧ (s.core u).wdStart + 2 ^ (s.core u).ctx.wdt ≤ s.now)) :
    exec (.watchdogExpiry u) s = .next s := by
  have h : (s.core u).status ≠ .running ∨ s.now < (s.core u).wdStart + 2 ^ (s.core u).ctx.wdt := by
    rcases not_and_or.1 hd with h | h
    · exact .inl h
    · exact .inr (Nat.not_le.1 h)
  simp only [exec, execWatchdogExpiry, if_pos h]

/-! ## Sealing a core (R27, R324) -/

/-- A port joins two clusters. -/
theorem neighbour_ne (P k : Nat) : neighbour P k ≠ P := by
  simp only [neighbour]
  split <;> omega

theorem portPeer_cluster (u p : Nat) : clusterOf (portPeer u p).1 ≠ clusterOf u := by
  have h := neighbour_ne (clusterOf u) p
  have : clusterOf (portPeer u p).1 = neighbour (clusterOf u) p := by
    simp only [portPeer, clusterOf, inCluster]; omega
  rwa [this]

theorem takeTrap_ring_core (s : State) {u v : Nat} (h : v ≠ u) : (takeTrap s u ringTrap).core v = s.core v := by
  rw [takeTrap_eq s u ringTrap nofun, (writeReserved_spec _ _ _).2.1 v h, (dropWait_spec s u).2.1 v h]

/-- The cores that a closing port makes trap are in other clusters. -/
theorem closePorts_core (s : State) {u v : Nat} (h : clusterOf v = clusterOf u) : (closePorts s u).core v = s.core v := by
  unfold closePorts
  refine foldl_keeps (P := fun (t : State) => t.core v = s.core v) (fun t p ht => ?_) _ _ rfl
  have hw := portPeer_cluster u p
  rcases hp : portPeer u p with ⟨w, q⟩
  rw [hp] at hw
  dsimp only at hw ⊢
  split
  · rw [takeTrap_ring_core t (fun e => hw (by rw [← h, e])), ht]
  · exact ht

/-- A sealed core is quarantined and runs nothing, whatever it did before. -/
theorem sealCore_core_self (s : State) (u : Nat) : ((sealCore s u).core u).status = .quarantined ∧ ((sealCore s u).core u).task = none := by
  unfold sealCore
  extract_lets P s1 s2 s3
  rw [closePorts_core _ rfl]
  simp [Core.freed]

/-! ## The record of a core that is killed (R345) -/

theorem writeOwed_spec (s : State) (u : Nat) (r : TrapRecord) :
    ((writeOwed s u r).core u).status = (s.core u).status ∧ ((writeOwed s u r).core u).task = (s.core u).task
      ∧ (mfind ((writeOwed s u r).cluster (clusterOf u)).mailbox (inCluster u) = some r ∨ ((writeOwed s u r).core u).owed = some r) := by
  unfold writeOwed
  extract_lets P
  split
  · exact ⟨by simp, by simp, .inl (by simp [P])⟩
  · exact ⟨by simp, by simp, .inr (by simp)⟩

/-- A core that is quarantined, idle, with the record of its end. -/
def Killed (s t : State) (u : Nat) (cause : Cause) (sub : Nat) : Prop :=
  ∃ r, (t.core u).status = .quarantined ∧ (t.core u).task = none
    ∧ (mfind (t.cluster (clusterOf u)).mailbox (inCluster u) = some r ∨ (t.core u).owed = some r) ∧ r.cause = cause ∧ r.sub = sub
    ∧ r.pc = rec56 (s.core u).pc ∧ r.rpc = 0 ∧ r.unit = s.unitId u ∧ r.kid = (s.core u).ctx.kern.kid

/-- The fields of the record of a core that is killed. -/
theorem trapRecord_killed (s : State) (u : Nat) (cause : Cause) (sub : Nat) :
    let r := trapRecord s u { cause := cause, sub := sub, rpc := .zero }
    r.cause = cause ∧ r.sub = sub ∧ r.pc = rec56 (s.core u).pc ∧ r.rpc = 0 ∧ r.unit = s.unitId u ∧ r.kid = (s.core u).ctx.kern.kid :=
  ⟨rfl, rfl, rfl, rfl, rfl, rfl⟩

theorem killed_of_sealed {s x : State} {u : Nat} (cause : Cause) (sub : Nat) (h : (x.core u).status = .quarantined ∧ (x.core u).task = none) :
    Killed s (writeOwed x u (trapRecord s u { cause := cause, sub := sub, rpc := .zero })) u cause sub := by
  have hr := trapRecord_killed s u cause sub
  generalize trapRecord s u { cause := cause, sub := sub, rpc := .zero } = r at hr ⊢
  obtain ⟨h1, h2, h3⟩ := writeOwed_spec x u r
  exact ⟨r, h1.trans h.1, h2.trans h.2, h3, hr⟩

theorem silentEnd_killed (s : State) (u : Nat) : Killed s (silentEnd s u) u .silent 0 := by
  unfold silentEnd
  exact killed_of_sealed .silent 0 (sealCore_core_self _ u)

/-- The margin is no part of what the record shows. -/
theorem Killed.of_mgn {s t : State} {u : Nat} {cause : Cause} {sub : Nat} {m : Margin}
    (h : Killed (s.modCore u (fun c => { c with mgn := m })) t u cause sub) : Killed s t u cause sub := by
  obtain ⟨r, h1, h2, h3, h4, h5, h6, h7, h8, h9⟩ := h
  exact ⟨r, h1, h2, h3, h4, h5, by simpa using h6, h7, h8, by simpa using h9⟩

end Sys2Proof.Machine
end

section
/-! What the release of a core's accesses leaves in order: the list of cores rises, no backlog grows, and the mailbox of a lost supervisor stays as it is. -/

namespace Sys2Proof.Machine

/-! ## Lists by key -/

theorem mwf_map {α : Type} (g : Nat × α → Nat × α) (hg : ∀ p, (g p).1 = p.1) : ∀ m : AMap α, mwf m = true → mwf (m.map g) = true
  | [], _ => rfl
  | p :: t, h => by
    obtain ⟨k, v⟩ := p
    obtain ⟨h1, h2⟩ := (mwf_cons k v t).1 h
    have hk := hg (k, v)
    rw [List.map_cons]
    generalize g (k, v) = q at hk
    obtain ⟨a, b⟩ := q
    cases hk
    refine (mwf_cons k b _).2 ⟨fun p hp => ?_, mwf_map g hg t h2⟩
    obtain ⟨p', hp', rfl⟩ := List.mem_map.1 hp
    rw [hg]
    exact h1 p' hp'

theorem mwf_mapCores (s : State) (f : Nat → Core → Core) (h : mwf s.cores = true) : mwf (s.mapCores f).cores = true :=
  mwf_map (fun p => (p.1, f p.1 p.2)) (fun _ => rfl) _ h

/-! ## The relation -/

/-- No backlog is longer than N. -/
def Backlogged (N : Nat) (s : State) : Prop := ∀ x ∈ s.clusters, x.2.backlog.length ≤ N

/-- A cluster whose backlog has not grown, and whose mailbox, if its supervisor is lost, is as it was. -/
def Cluster.Quiet (k k' : Cluster) : Prop :=
  k'.backlog.length ≤ k.backlog.length ∧ (k.supLost = true → k'.supLost = true ∧ k'.mailbox = k.mailbox)

theorem Cluster.Quiet.refl (k : Cluster) : k.Quiet k := ⟨Nat.le_refl _, fun h => ⟨h, rfl⟩⟩
theorem Cluster.Quiet.of_eq {k k' : Cluster} (h1 : k'.backlog = k.backlog) (h2 : k'.supLost = k.supLost) (h3 : k'.mailbox = k.mailbox) :
    k.Quiet k' := ⟨Nat.le_of_eq (congrArg _ h1), fun h => ⟨h2.trans h, h3⟩⟩

structure Orderly (s t : State) : Prop where
  cores : mwf s.cores = true → mwf t.cores = true
  room : ∀ N, Backlogged N s → Backlogged N t
  lost : ∀ P, (s.cluster P).supLost = true → (t.cluster P).supLost = true ∧ (t.cluster P).mailbox = (s.cluster P).mailbox

theorem Orderly.refl (s : State) : Orderly s s := ⟨id, fun _ => id, fun _ h => ⟨h, rfl⟩⟩

theorem Orderly.trans {a b c : State} (h : Orderly a b) (h' : Orderly b c) : Orderly a c :=
  ⟨fun x => h'.cores (h.cores x), fun N x => h'.room N (h.room N x), fun P x =>
    have y := h.lost P x
    have z := h'.lost P y.1
    ⟨z.1, z.2.trans y.2⟩⟩

/-- A state with the cores and clusters of another. -/
theorem Orderly.beside {s t : State} (h : t.cores = s.cores) (h' : t.clusters = s.clusters) : Orderly s t := by
  refine ⟨fun x => by rw [h]; exact x, fun N x => ?_, fun P x => ?_⟩
  · unfold Backlogged; rw [h']; exact x
  · have : t.cluster P = s.cluster P := by simp only [State.cluster, h']
    rw [this]; exact ⟨x, rfl⟩

theorem Orderly.setCore (s : State) (u : Nat) (c : Core) : Orderly s (s.setCore u c) :=
  ⟨mwf_mset _ u c, fun _ h => h, fun _ h => ⟨h, rfl⟩⟩

theorem Orderly.modCore (s : State) (u : Nat) (f : Core → Core) : Orderly s (s.modCore u f) := Orderly.setCore s u _

theorem Orderly.mapCores (s : State) (f : Nat → Core → Core) : Orderly s (s.mapCores f) :=
  ⟨mwf_mapCores s f, fun _ h => h, fun _ h => ⟨h, rfl⟩⟩

/-- What the list of clusters bounds holds of each cluster, listed or not. -/
theorem Backlogged.cluster {N : Nat} {s : State} (h : Backlogged N s) (P : Nat) : (s.cluster P).backlog.length ≤ N := by
  have hm : ∀ m : AMap Cluster, (∀ x ∈ m, x.2.backlog.length ≤ N) → (mget m P Cluster.reset).backlog.length ≤ N := by
    intro m
    induction m with
    | nil => exact fun _ => Nat.zero_le N
    | cons x t ih =>
      intro hx
      obtain ⟨k, c⟩ := x
      unfold mget
      split
      · exact hx _ List.mem_cons_self
      · exact ih (fun y hy => hx y (List.mem_cons_of_mem _ hy))
  exact hm s.clusters h

theorem Orderly.setCluster {s : State} {P : Nat} {k : Cluster} (h : (s.cluster P).Quiet k) : Orderly s (s.setCluster P k) := by
  refine ⟨id, fun N hN x hx => ?_, fun Q hQ => ?_⟩
  · rcases mem_mset hx with rfl | hx
    · exact h.1.trans (hN.cluster P)
    · exact hN x hx
  · rw [State.setCluster_cluster]
    split
    · rename_i e; subst e; exact h.2 hQ
    · exact ⟨hQ, rfl⟩

theorem Orderly.modCluster {s : State} {P : Nat} {f : Cluster → Cluster} (h : ∀ k, Cluster.Quiet k (f k)) : Orderly s (s.modCluster P f) :=
  Orderly.setCluster (h _)

/-- Clusters rewritten one by one. -/
theorem Orderly.clusters {s : State} {g : Nat × Cluster → Nat × Cluster} (hg : ∀ p, (g p).1 = p.1) (h : ∀ p, Cluster.Quiet p.2 (g p).2) :
    Orderly s { s with clusters := s.clusters.map g } := by
  refine ⟨id, fun N hN x hx => ?_, fun P hP => ?_⟩
  · obtain ⟨y, hy, rfl⟩ := List.mem_map.1 hx
    exact (h y).1.trans (hN y hy)
  · exact (mget_map (R := Cluster.Quiet) Cluster.reset (Cluster.Quiet.refl _) g hg h P s.clusters).2 hP

theorem Orderly.mapClusters {s : State} {f : Nat → Cluster → Cluster} (h : ∀ P k, Cluster.Quiet k (f P k)) : Orderly s (s.mapClusters f) :=
  Orderly.clusters (fun _ => rfl) (fun p => h p.1 p.2)

/-- What every step of a fold is, the fold is. -/
theorem Orderly.foldl {β : Type} {f : State → β → State} (hf : ∀ s b, Orderly s (f s b)) : ∀ (l : List β) (s : State), Orderly s (l.foldl f s)
  | [], s => Orderly.refl s
  | b :: t, s => (hf s b).trans (Orderly.foldl hf t (f s b))

/-! ## Writes that take effect -/

theorem answerFutures_orderly (s : State) (ws : List (Nat × Byte)) : Orderly s (answerFutures s ws) := by
  unfold answerFutures
  refine Orderly.trans (b := { s with defers := _ }) (Orderly.beside (by rfl) (by rfl)) (Orderly.foldl (fun t d => ?_) _ _)
  cases d.core with
  | none => exact Orderly.refl t
  | some u => exact Orderly.modCore t u _

theorem performFor_orderly (c : Option Nat) (s : State) (ws : List (Nat × Byte)) : Orderly s (performFor c s ws) :=
  Orderly.trans (b := { s with mem := s.mem.pokes ws, past := _ }) (Orderly.beside (by rfl) (by rfl)) (answerFutures_orderly _ _)

theorem raiseFloor_orderly (s : State) (u a n k : Nat) : Orderly s (s.raiseFloor u a n k) := by
  unfold State.raiseFloor
  split
  · exact Orderly.refl s
  · exact Orderly.modCore s u _

theorem performBy_orderly (s : State) (u : Nat) (ws : List (Nat × Byte)) : Orderly s (performBy s u ws) :=
  (performFor_orderly _ s ws).trans (Orderly.foldl (fun t _ => raiseFloor_orderly t ..) _ _)

/-! ## The sequencer -/

theorem applyNext_orderly (s : State) (d : Nat) : Orderly s (applyNext s d) := by
  unfold applyNext
  cases s.seqOrder.find? (fun x => !x.applied.contains d) with
  | none => exact Orderly.refl s
  | some x =>
    have h : Orderly s (applyReplica s d x.core x.writes) := performFor_orderly _ _ _
    dsimp only
    generalize applyReplica s d x.core x.writes = r at h
    refine h.trans ?_
    split
    · exact Orderly.trans (b := { r with seqOrder := _ }) (Orderly.beside (by rfl) (by rfl)) (Orderly.modCore ..)
    · exact Orderly.beside (by rfl) (by rfl)

theorem applyBelow_orderly (s : State) (d k : Nat) : Orderly s (applyBelow s d k) := Orderly.foldl (fun t _ => applyNext_orderly t d) _ s
theorem applyAll_orderly (s : State) : Orderly s (applyAll s) := Orderly.foldl (fun t k => applyNext_orderly t (k % 4)) _ s
theorem applySeen_orderly (s : State) (u scope : Nat) : Orderly s (applySeen s u scope) := Orderly.foldl (fun t d => applyBelow_orderly t d _) _ s
theorem sawUpdates_orderly (s : State) (u k : Nat) : Orderly s (sawUpdates s u k) := Orderly.modCore s u _

theorem sequenceBy_orderly (s : State) (u : Nat) (ws : List (Nat × Byte)) : Orderly s (sequenceBy s u ws) := by
  have h : Orderly s (sawUpdates (sequence s u ws) u (s.seqNext + 1)) :=
    Orderly.trans (b := sequence s u ws) (Orderly.beside (by rfl) (by rfl)) (sawUpdates_orderly ..)
  unfold sequenceBy
  dsimp only
  split
  · exact h.trans (applyAll_orderly _)
  · exact h.trans (applyBelow_orderly ..)

/-! ## Requests and what cuts them off -/

theorem atomicAtHome_orderly (s : State) (op : AtomOp) (loc : Nat) (repl : Bool) (u : Nat) (b d : Word) :
    Orderly s (atomicAtHome s op loc repl u b d).2 := by
  unfold atomicAtHome
  cases repl with
  | false =>
    dsimp only [Bool.false_eq_true, if_false]
    split
    · exact raiseFloor_orderly ..
    · exact performBy_orderly ..
  | true =>
    dsimp only [if_true]
    split
    · exact (applyBelow_orderly ..).trans (sawUpdates_orderly ..)
    · exact (applyBelow_orderly ..).trans ((sequenceBy_orderly ..).trans (applyBelow_orderly ..))

theorem roundTrip_orderly (s : State) (d e : Nat) : Orderly s (s.roundTrip d e) := by rw [roundTrip_frame]; exact Orderly.beside (by rfl) (by rfl)

theorem homeReply_orderly (s : State) (op : AtomOp) (u : Nat) (va : Word) (loc : Nat) (repl : Bool) (b d : Word) :
    Orderly s (homeReply s op u va loc repl b d).2 := by
  have h0 := roundTrip_orderly s (dieOf (clusterOf u)) (if repl then 4 else locDie loc)
  unfold homeReply
  dsimp only
  generalize s.roundTrip (dieOf (clusterOf u)) (if repl then 4 else locDie loc) = s0 at h0 ⊢
  split
  · exact h0
  · exact h0.trans (atomicAtHome_orderly ..)

theorem tickFree_orderly (s : State) : Orderly s s.tickFree := Orderly.beside (by rfl) (by rfl)

/-- A lost supervisor takes no record in a shared slot. -/
theorem postShared_orderly (s : State) (P : Nat) (src : Source) (r : TrapRecord) : Orderly s (postShared s P src r) := by
  refine Orderly.modCluster (fun k => ?_)
  split
  · exact Cluster.Quiet.refl k
  · rename_i h
    split
    · exact ⟨Nat.le_refl _, fun h' => absurd h' h⟩
    · exact Cluster.Quiet.of_eq rfl rfl rfl

theorem settleLate_orderly (s : State) (r : Req) (x : Reply) : Orderly s (settleLate s r x) := by
  unfold settleLate
  cases x with
  | val _ => exact Orderly.refl s
  | fail c i fa j k l =>
    dsimp only
    split
    · exact Orderly.beside (by rfl) (by rfl)
    · exact postShared_orderly ..

theorem performPending_orderly (s : State) (r : Req) : Orderly s (performPending s r) := by
  have h0 : Orderly s (if r.cut s then s.tickFree else s) := by
    split
    · exact tickFree_orderly s
    · exact Orderly.refl s
  unfold performPending
  dsimp only
  split
  · exact h0.trans (settleLate_orderly ..)
  · split
    · exact h0.trans ((homeReply_orderly ..).trans (settleLate_orderly ..))
    · exact h0.trans ((tickFree_orderly _).trans (settleLate_orderly ..))
    · exact Orderly.refl s

theorem flushWhere_orderly (s : State) (u : Nat) (p : Req → Bool) : Orderly s (flushWhere s u p) :=
  Orderly.trans (b := { s with reqs := _ }) (Orderly.beside (by rfl) (by rfl)) (Orderly.foldl performPending_orderly _ _)

/-! ## The store buffer and UO bytes -/

theorem dropUo_orderly (s : State) (P : Nat) (p : Nat → Bool) : Orderly s (dropUo s P p) :=
  Orderly.modCluster (fun _ => Cluster.Quiet.of_eq rfl rfl rfl)

theorem performEntry_orderly (s : State) (u : Nat) (e : SbEntry) : Orderly s (performEntry s u e) := by
  have h0 : Orderly s (if e.release then applySeen (flushWhere s u (fun r => decide (r.since ≤ e.since))) u 4 else s) := by
    split
    · exact (flushWhere_orderly ..).trans (applySeen_orderly ..)
    · exact Orderly.refl s
  unfold performEntry
  dsimp only
  generalize (if e.release then applySeen (flushWhere s u (fun r => decide (r.since ≤ e.since))) u 4 else s) = s0 at h0
  refine h0.trans ?_
  split
  · exact tickFree_orderly s0
  · split
    · exact Orderly.modCore ..
    · split
      · exact sequenceBy_orderly ..
      · split
        · exact (dropUo_orderly ..).trans ((Orderly.modCore ..).trans (performBy_orderly ..))
        · exact performBy_orderly ..

theorem drainAll_orderly (s : State) (u : Nat) : Orderly s (drainAll s u) := by
  unfold drainAll drainFirst
  refine Orderly.trans (Orderly.modCore s u _) (Orderly.foldl (fun t e => ?_) _ _)
  split
  · exact applyBelow_orderly ..
  · exact performEntry_orderly t u e

theorem dropCopies_orderly (s : State) (u scope : Nat) (secs : List Nat) (seen : AMap Byte) : Orderly s (dropCopies s u scope secs seen) := by
  refine Orderly.clusters (fun p => ?_) (fun p => ?_)
  · dsimp only; split <;> rfl
  · dsimp only; split
    · exact Cluster.Quiet.of_eq rfl rfl rfl
    · exact Cluster.Quiet.refl _

theorem uoWriteBack_orderly (s : State) (u n : Nat) : Orderly s (uoWriteBack s u n) := by
  have hc : Orderly s (s.modCore u (fun c => { c.saw c.uoDirty with uoDirty := [] })) := Orderly.modCore ..
  unfold uoWriteBack
  dsimp only
  split
  · exact Orderly.refl s
  · split
    · split
      · exact hc.trans (Orderly.modCluster (fun _ => Cluster.Quiet.of_eq rfl rfl rfl))
      · exact hc.trans ((dropUo_orderly ..).trans (Orderly.modCluster (fun _ => Cluster.Quiet.of_eq rfl rfl rfl)))
    · have h : ∀ p ws seen, Orderly s (dropCopies (performFor (some u) (dropUo (s.modCore u (fun c => { c.saw c.uoDirty with uoDirty := [] }))
          (clusterOf u) p) ws) u n ((ws.map (fun w => sectorOf w.1)).dedup) seen) := fun p ws seen =>
        hc.trans ((dropUo_orderly ..).trans ((performFor_orderly ..).trans (dropCopies_orderly ..)))
      split
      · exact (h ..).trans (Orderly.modCore ..)
      · exact h ..

theorem releaseTo_orderly (s : State) (u n : Nat) : Orderly s (releaseTo s u n) :=
  (flushWhere_orderly ..).trans ((drainAll_orderly _ u).trans ((applySeen_orderly _ u n).trans (uoWriteBack_orderly _ u n)))

end Sys2Proof.Machine
end

section
/-! An engine's accesses keep the list of cores rising, among them the device's own writes of a task's STATE (R296). -/

namespace Sys2Proof.Machine

/-- The list of cores rises by number. -/
def Rising (s : State) : Prop := mwf s.cores = true

theorem Orderly.rising {s t : State} (h : Orderly s t) : Rising s → Rising t := h.cores

theorem Rising.beside {s t : State} (h : t.cores = s.cores) (hs : Rising s) : Rising t := by unfold Rising; rw [h]; exact hs

/-- An operation that answers only what leaves the cores as they were keeps them rising. -/
theorem Keeps.of_cores {α : Type} {m : M α} (h : ∀ s a t, m s = .ok (a, t) → t.cores = s.cores) : Keeps Rising m :=
  fun s a t hs e => hs.beside (h s a t e)

/-! ## Resolving an address -/

theorem noteWalk_cores (s : State) (va : Word) (w : Walk) : (noteWalk s va w).cores = s.cores := by
  cases w with
  | leaf pte big =>
    unfold noteWalk
    dsimp only
    generalize (if big = true then va.toNat / 2 ^ 25 else va.toNat / 2 ^ 16) = page
    split <;> rfl
  | regen _ _ => rfl
  | fail => rfl

theorem translate_cores {va : Word} {s t : State} {a : Walk} (h : translate va s = .ok (a, t)) : t.cores = s.cores := by
  unfold translate at h
  dsimp only at h
  split at h
  · cases h; exact noteWalk_cores ..
  · split at h <;> cases h
    · rfl
    · exact noteWalk_cores ..

theorem pieceOf_cores {w : Who} {va : Word} {n : Nat} {s t : State} {p : Piece} (h : pieceOf w va n s = .ok (p, t)) : t.cores = s.cores := by
  unfold pieceOf at h
  split at h
  · cases h
  · simp only [Except.ok.injEq, Prod.mk.injEq] at h
    rw [← h.2]
  · dsimp only at h
    split at h
    · generalize (if endpointOf va = s.net.own then none else mfind s.net.endpoints (endpointOf va)) = o at h
      cases o with
      | some x =>
        simp only [Except.ok.injEq, Prod.mk.injEq] at h
        rw [← h.2]
      | none => cases h
    · generalize ht : translate va s = r at h
      cases r with
      | error e => cases h
      | ok p =>
        obtain ⟨w', s'⟩ := p
        cases w' with
        | fail => cases h
        | regen _ _ => cases h
        | leaf pte big =>
          simp only [Except.ok.injEq, Prod.mk.injEq] at h
          rw [← h.2]
          exact translate_cores ht

theorem rightsM_engine_cores {w : Who} (hw : w.core = none) {dom : Nat} {s t : State} {b : Byte} (h : rightsM w dom s = .ok (b, t)) :
    t.cores = s.cores := by
  unfold rightsM at h
  rw [hw] at h
  split at h <;> cases h <;> rfl

theorem piecesOf_rising (w : Who) : ∀ l, Keeps Rising (piecesOf w l)
  | [] => Keeps.pure _
  | (_, _) :: t => Keeps.bind (Keeps.of_cores (fun _ _ _ => pieceOf_cores)) (fun _ => Keeps.bind (piecesOf_rising w t) (fun _ => Keeps.pure _))

theorem rightsAll_engine_rising {w : Who} (hw : w.core = none) (acc : Acc) : ∀ l, Keeps Rising (rightsAll w acc l)
  | [] => Keeps.pure _
  | p :: t => by
    unfold rightsAll
    refine Keeps.bind (Keeps.of_cores (fun _ _ _ => rightsM_engine_cores hw)) (fun _ => Keeps.bind (Keeps.need _ _) (fun _ => ?_))
    split
    · exact Keeps.trap _
    · exact Keeps.wait _
    · exact rightsAll_engine_rising hw acc t

theorem resolve_engine_rising {w : Who} (hw : w.core = none) (acc : Acc) (va : Word) (n : Nat) : Keeps Rising (resolve w acc va n) := by
  intro s a t hs h
  unfold resolve resolveParts at h
  split at h
  · cases h
  · exact Keeps.bind (piecesOf_rising w _) (fun ps => Keeps.bind (rightsAll_engine_rising hw acc ps) (fun _ => Keeps.pure _)) s a t hs h

/-! ## Reading -/

theorem uoBytes_engine_cores {w : Who} (hw : w.core = none) {locs : List Nat} {s t : State} {bs : List Byte} (h : uoBytes w locs s = .ok (bs, t)) :
    t.cores = s.cores := by
  unfold uoBytes at h
  rw [hw] at h
  simp only [Except.ok.injEq, Prod.mk.injEq] at h
  rw [← h.2]
  split <;> split <;> rfl

theorem farBytes_engine_cores {w : Who} (hw : w.core = none) {p : Piece} {locs : List Nat} {s t : State} {bs : List Byte}
    (h : farBytes w p locs s = .ok (bs, t)) : t.cores = s.cores := by
  unfold farBytes at h
  rw [hw] at h
  dsimp only at h
  split at h
  · cases h; rfl
  · split at h
    · exact uoBytes_engine_cores hw h
    · cases h; rfl

theorem notifyRead_cores {s t : State} {pa : Nat} {v : Word} (h : notifyRead s pa = some (v, t)) : t.cores = s.cores := by
  unfold notifyRead at h
  (repeat' split at h) <;> cases h <;> rfl

theorem remoteLoad_rising (w : Who) (va : Word) (n : Nat) : Keeps Rising (remoteLoad w va n) := by
  have hn : Keeps Rising freeNatM := Keeps.of_cores (fun s a t h => by cases h; rfl)
  have hv : Keeps Rising freeWordM := Keeps.of_cores (fun s a t h => by cases h; rfl)
  have hr : Keeps Rising (do
      let k ← freeNatM
      match k % 4 with
      | 1 => trapM (.at .plbDeny va)
      | 2 => trapM (.at .pageFault va)
      | 3 => trapM (.at .poison va)
      | _ => do
        let v ← freeWordM
        pure (leBytes n v.toNat)) := by
    refine Keeps.bind hn (fun k => ?_)
    split
    · exact Keeps.trap _
    · exact Keeps.trap _
    · exact Keeps.trap _
    · exact Keeps.bind hv (fun _ => Keeps.pure _)
  refine Keeps.bind Keeps.get (fun s => ?_)
  dsimp only
  split
  · exact Keeps.bind (Keeps.wait _) (fun _ => hr)
  · exact hr

theorem readPiece_engine_rising {w : Who} (hw : w.core = none) (p : Piece) : Keeps Rising (readPiece w p) := by
  intro s a t hs h
  have hb : ∀ loc n, beforeRead s w p loc n = s := fun loc n => by unfold beforeRead; rw [hw]
  unfold readPiece at h
  split at h
  · rw [hb] at h
    exact Keeps.bind (Keeps.of_cores (fun _ _ _ => farBytes_engine_cores hw)) (fun _ => Keeps.bind Keeps.get (fun _ => Keeps.pure _)) s a t hs h
  · split at h
    · split at h
      · rename_i hn; cases h; rw [hb] at hn; exact hs.beside (notifyRead_cores hn)
      · cases h
    · cases h
  · exact remoteLoad_rising _ _ _ s a t hs h
  · cases h

theorem readPieces_engine_rising {w : Who} (hw : w.core = none) : ∀ l, Keeps Rising (readPieces w l)
  | [] => Keeps.pure _
  | p :: t => Keeps.bind (readPiece_engine_rising hw p) (fun _ => Keeps.bind (readPieces_engine_rising hw t) (fun _ => Keeps.pure _))

theorem noPoison_cores {w : Who} : ∀ {l : List Piece} {s t : State} {a : Unit}, noPoison w l s = .ok (a, t) → t.cores = s.cores
  | [], _, _, _, h => by cases h; rfl
  | p :: l, s, t, a, h => by
    unfold noPoison at h
    split at h
    · split at h <;> cases h
    · split at h
      · cases h
      · exact noPoison_cores h

theorem loadBytes_engine_rising {w : Who} (hw : w.core = none) (va : Word) (n : Nat) : Keeps Rising (loadBytes w va n) :=
  Keeps.bind (resolve_engine_rising hw _ _ _) (fun ps => Keeps.bind (Keeps.of_cores (fun _ _ _ => noPoison_cores))
    (fun _ => readPieces_engine_rising hw ps))

/-! ## Writing -/

theorem performWrites_rising {s : State} (ws : List (Nat × Byte)) (h : Rising s) : Rising (performWrites s ws) := (performFor_orderly none s ws).rising h

theorem flushUo_rising {s : State} (cl sec : Nat → Bool) (h : Rising s) : Rising (flushUo s cl sec) := by
  have hm : ∀ (Ps : List Nat) (p : Nat → Bool) (f : Nat → Core → Core),
      Rising ((Ps.foldl (fun (s : State) P => dropUo s P p) s).mapCores f) := fun Ps p f =>
    ((Orderly.foldl (fun t P => dropUo_orderly t P p) Ps s).trans (Orderly.mapCores _ f)).rising h
  unfold flushUo
  extract_lets hit named Ps ws s1 s2
  split
  · exact hm ..
  · exact performWrites_rising _ (hm ..)

theorem notifyWrite_cores {s t : State} {pa : Nat} {v : Word} (h : notifyWrite s pa v = some t) : t.cores = s.cores := by
  unfold notifyWrite at h
  (repeat' split at h) <;> cases h <;> rfl

theorem writePiece_engine_rising {w : Who} (hw : w.core = none) (p : Piece) (bs : List Byte) (tag : Option Half) (rel : Bool) :
    Keeps Rising (writePiece w p bs tag rel) := by
  intro s a t hs h
  unfold writePiece at h
  rw [hw] at h
  split at h
  · rename_i loc _
    dsimp only at h
    cases h
    generalize pieceWrites loc bs (if p.typed then tag else none) = ws
    have hd : Rising (dropHalves s ws) := (Orderly.mapCores s _).rising hs
    split
    · exact (applyAll_orderly _).rising (hd.beside rfl)
    · split
      · exact performWrites_rising _ (flushUo_rising _ _ hd)
      · exact performWrites_rising _ hd
  · split at h
    · split at h
      · rename_i hn; cases h; exact hs.beside (notifyWrite_cores hn)
      · cases h
    · cases h
  · split at h
    · cases h
    · dsimp only at h
      split at h
      · rename_i hf
        cases h
        have : (farReply { s with net := { s.net with sent := s.net.sent + 1 } } p.va none).2.cores = s.cores := rfl
        rw [hf] at this
        exact hs.beside this
      · cases h
  · cases h

theorem writePieces_engine_rising {w : Who} (hw : w.core = none) (tag : Option Half) (rel : Bool) : ∀ l bs, Keeps Rising (writePieces w tag rel l bs)
  | [], _ => Keeps.pure _
  | p :: t, _ => Keeps.bind (writePiece_engine_rising hw p _ tag rel) (fun _ => writePieces_engine_rising hw tag rel t _)

theorem ringsFree_cores : ∀ {l : List Piece} {s t : State} {a : Unit}, ringsFree l s = .ok (a, t) → t.cores = s.cores
  | [], _, _, _, h => by cases h; rfl
  | p :: l, s, t, a, h => by
    unfold ringsFree at h
    split at h
    · split at h
      · cases h
      · exact ringsFree_cores h
    · exact ringsFree_cores h

theorem noDead_rising (ps : List Piece) : Keeps Rising (noDead ps) := by
  unfold noDead
  split
  · exact Keeps.trap _
  · exact Keeps.pure _

theorem storeBytes_engine_rising {w : Who} (hw : w.core = none) (acc : Acc) (va : Word) (bs : List Byte) (tag : Option Half) (rel : Bool) :
    Keeps Rising (storeBytes w acc va bs tag rel) :=
  Keeps.bind (resolve_engine_rising hw _ _ _) (fun ps => Keeps.bind (Keeps.of_cores (fun _ _ _ => ringsFree_cores)) (fun _ =>
    Keeps.bind (noDead_rising ps) (fun _ => writePieces_engine_rising hw tag rel ps bs)))

/-! ## The device's own writes -/

/-- A core that has kept what it runs, or has been freed of it. -/
def Core.Stays (c c' : Core) : Prop :=
  (c'.status = c.status ∧ c'.task = c.task) ∨ (c.task ≠ none ∧ c'.status = .free ∧ c'.task = none)

theorem Core.Stays.same {c c' : Core} (h1 : c'.status = c.status) (h2 : c'.task = c.task) : c.Stays c' := .inl ⟨h1, h2⟩

theorem Core.Stays.trans {a b c : Core} (h : a.Stays b) (h' : b.Stays c) : a.Stays c := by
  rcases h with ⟨h1, h2⟩ | ⟨h1, h2, h3⟩
  · rcases h' with ⟨k1, k2⟩ | ⟨k1, k2, k3⟩
    · exact .inl ⟨k1.trans h1, k2.trans h2⟩
    · exact .inr ⟨h2 ▸ k1, k2, k3⟩
  · rcases h' with ⟨k1, k2⟩ | ⟨k1, _, _⟩
    · exact .inr ⟨h1, k1.trans h2, k2.trans h3⟩
    · exact absurd h3 k1

/-- What spares the map of clusters and, where the list of cores rises, every core that runs nothing. -/
structure Spares (s t : State) : Prop where
  lmap : t.lmap = s.lmap
  nlive : t.nlive = s.nlive
  quarCl : t.quarCl = s.quarCl
  rises : Rising s → Rising t
  stays : Rising s → ∀ v, (s.core v).Stays (t.core v)

theorem Spares.refl (s : State) : Spares s s := ⟨rfl, rfl, rfl, id, fun _ _ => .same rfl rfl⟩

theorem Spares.trans {a b c : State} (h : Spares a b) (h' : Spares b c) : Spares a c :=
  ⟨h'.lmap.trans h.lmap, h'.nlive.trans h.nlive, h'.quarCl.trans h.quarCl, fun x => h'.rises (h.rises x),
    fun x v => (h.stays x v).trans (h'.stays (h.rises x) v)⟩

theorem Spares.foldl {β : Type} {f : State → β → State} (hf : ∀ s b, Spares s (f s b)) : ∀ (l : List β) (s : State), Spares s (l.foldl f s)
  | [], s => Spares.refl s
  | b :: t, s => (hf s b).trans (Spares.foldl hf t (f s b))

/-- A state that has the cores and the map of another. -/
theorem Spares.beside {s t : State} (h : t.cores = s.cores) (h1 : t.lmap = s.lmap) (h2 : t.nlive = s.nlive) (h3 : t.quarCl = s.quarCl) :
    Spares s t :=
  ⟨h1, h2, h3, fun x => x.beside h, fun _ v => by
    have : t.core v = s.core v := by simp only [State.core, h]
    rw [this]; exact .same rfl rfl⟩

/-- An access to memory that keeps the list of cores rising. -/
theorem Spares.of_accessed {s t : State} (h : Accessed s t) (hr : Rising s → Rising t) : Spares s t :=
  ⟨by rw [h.1], by rw [h.1], by rw [h.1], hr, fun _ v => by
    have := h.2.1 v
    exact .same (by rw [this]) (by rw [this])⟩

theorem Spares.modCluster (s : State) (P : Nat) (f : Cluster → Cluster) : Spares s (s.modCluster P f) := Spares.beside rfl rfl rfl rfl

theorem Spares.modCore {s : State} {u : Nat} {f : Core → Core} (h : ∀ c : Core, c.Stays (f c)) : Spares s (s.modCore u f) :=
  ⟨rfl, rfl, rfl, (Orderly.modCore s u f).rising, fun _ v => by
    rw [State.modCore_eq, State.setCore_core]
    split
    · rename_i e; subst e; exact h _
    · exact .same rfl rfl⟩

theorem Spares.mapCores {s : State} {f : Nat → Core → Core} (h : ∀ u (c : Core), c.Stays (f u c)) : Spares s (s.mapCores f) :=
  ⟨rfl, rfl, rfl, (Orderly.mapCores s f).rising, fun _ v =>
    mget_map (R := Core.Stays) Core.reset (.same rfl rfl) (fun p => (p.1, f p.1 p.2)) (fun _ => rfl) (fun p => h p.1 p.2) v s.cores⟩

theorem Spares.modQueue (s : State) (q : Nat) (f : Queue → Queue) : Spares s (s.modQueue q f) := by
  unfold State.modQueue
  split
  · exact Spares.beside rfl rfl rfl rfl
  · exact Spares.refl s

theorem Spares.modTask (s : State) (P i : Nat) (f : Task → Task) : Spares s (s.modTask P i f) := by
  unfold State.modTask
  split
  · exact Spares.modCluster ..
  · exact Spares.refl s

/-! ## The device's own writes -/

theorem deviceRead_spares {s t : State} {w : Who} (hw : w.core = none) {va : Word} {n : Nat} {bs : List Byte}
    (h : deviceRead s w va n = some (bs, t)) : Spares s t := by
  unfold deviceRead at h
  split at h
  · rename_i hr
    cases h
    exact Spares.of_accessed (loadBytes_accesses _ _ _ _ _ _ hr) (fun hs => loadBytes_engine_rising hw _ _ _ _ _ hs hr)
  · cases h

theorem storeBytes_spares {s t : State} {w : Who} (hw : w.core = none) {acc : Acc} {va : Word} {bs : List Byte} {tag : Option Half} {rel : Bool}
    {a : Unit} (h : storeBytes w acc va bs tag rel s = .ok (a, t)) : Spares s t :=
  Spares.of_accessed (storeBytes_accesses _ _ _ _ _ _ _ _ _ h) (fun hs => storeBytes_engine_rising hw _ _ _ _ _ _ _ _ hs h)

theorem deviceWrite_spares {s t : State} {w : Who} (hw : w.core = none) {va : Word} {bs : List Byte}
    (h : deviceWrite s w va bs = some t) : Spares s t := by
  unfold deviceWrite at h
  split at h
  · rename_i hr; cases h; exact storeBytes_spares hw hr
  · cases h

theorem launchRegen_spares {s t : State} {page : Word} {big : Bool} {i : Nat} {es : List Source}
    (h : launchRegen s page big i es = some t) : Spares s t := by
  unfold launchRegen at h
  simp only [Option.bind_eq_bind, Option.bind_eq_some_iff] at h
  obtain ⟨⟨bs, s1⟩, h1, n, -, q, -, ⟨tb, s2⟩, h2, h⟩ := h
  have h12 := (deviceRead_spares rfl h1).trans (deviceRead_spares rfl h2)
  split at h
  · cases h
  · obtain ⟨s3, h3, h⟩ := Option.bind_eq_some_iff.1 h
    cases h
    refine h12.trans ((deviceWrite_spares rfl h3).trans (Spares.trans (b := { s3 with regens := _ }) ?_ (Spares.modQueue ..)))
    exact Spares.beside rfl rfl rfl rfl

theorem awaitFrame_spares (s : State) (page : Word) (src : Option Source) : Spares s (awaitFrame s page src).2 := by
  unfold awaitFrame
  cases src with
  | none => exact Spares.refl s
  | some x =>
    dsimp only
    split
    · exact Spares.beside rfl rfl rfl rfl
    · split
      · exact Spares.beside rfl rfl rfl rfl
      · exact Spares.refl s

theorem faultRegen_spares (s : State) (va : Word) (src : Option Source) : Spares s (faultRegen s va src).2 := by
  unfold faultRegen
  split
  · extract_lets page joins s'
    split
    · exact Spares.beside rfl rfl rfl rfl
    · split
      · exact Spares.beside rfl rfl rfl rfl
      · split
        · exact awaitFrame_spares ..
        · have h' : Spares s s' := Spares.beside rfl rfl rfl rfl
          refine h'.trans ?_
          split
          · rename_i hl
            exact (launchRegen_spares hl).trans (Spares.beside rfl rfl rfl rfl)
          · exact Spares.refl _
  · exact Spares.refl s
  · exact Spares.refl s

theorem waitFor_spares {α : Type} (s : State) (src : Source) (r : Except Stop α) : Spares s (waitFor s src r).2 := by
  unfold waitFor
  split
  · exact faultRegen_spares ..
  · exact Spares.refl s
  · exact Spares.refl s

/-- The device's write of a task's STATE (R296), or its place among those to be written. -/
theorem writeTcbState_spares (s : State) (P : Nat) (tcba : Word) (v : Nat) : Spares s (writeTcbState s P tcba v) := by
  unfold writeTcbState
  split
  · exact Spares.refl s
  · extract_lets later
    have hl : ∀ t, Spares t (later t) := fun t => Spares.modCluster ..
    split
    · exact hl s
    · split
      · rename_i h; exact storeBytes_spares rfl h
      · rename_i e _
        have hw := waitFor_spares s (.tcb P) (.error e : Except Stop Unit)
        split
        · rename_i h; rw [h] at hw; exact hw.trans (hl _)
        · rename_i h; rw [h] at hw; exact hw

end Sys2Proof.Machine
end

section
/-! The end of a kernel (R294, R300): it spares the map, the backlogs, the mailbox of a lost supervisor, and every core that runs nothing. -/

namespace Sys2Proof.Machine

/-- What the end of a kernel leaves in order and spares. -/
def Tidy (s t : State) : Prop := Orderly s t ∧ Spares s t

namespace Tidy

theorem refl (s : State) : Tidy s s := ⟨Orderly.refl s, Spares.refl s⟩
theorem trans {a b c : State} (h : Tidy a b) (h' : Tidy b c) : Tidy a c := ⟨h.1.trans h'.1, h.2.trans h'.2⟩

theorem foldl {β : Type} {f : State → β → State} (hf : ∀ s b, Tidy s (f s b)) (l : List β) (s : State) : Tidy s (l.foldl f s) :=
  ⟨Orderly.foldl (fun s b => (hf s b).1) l s, Spares.foldl (fun s b => (hf s b).2) l s⟩

theorem beside {s t : State} (h : t.cores = s.cores) (h' : t.clusters = s.clusters) (h1 : t.lmap = s.lmap) (h2 : t.nlive = s.nlive)
    (h3 : t.quarCl = s.quarCl) : Tidy s t := ⟨Orderly.beside h h', Spares.beside h h1 h2 h3⟩

theorem of_accessed {s t : State} (h : Accessed s t) (ho : Orderly s t) : Tidy s t := ⟨ho, Spares.of_accessed h ho.rising⟩

theorem setCluster {s : State} {P : Nat} {k : Cluster} (h : (s.cluster P).Quiet k) : Tidy s (s.setCluster P k) :=
  ⟨Orderly.setCluster h, Spares.beside rfl rfl rfl rfl⟩
theorem modCluster {s : State} {P : Nat} {f : Cluster → Cluster} (h : ∀ k, Cluster.Quiet k (f k)) : Tidy s (s.modCluster P f) := setCluster (h _)
theorem mapClusters {s : State} {f : Nat → Cluster → Cluster} (h : ∀ P k, Cluster.Quiet k (f P k)) : Tidy s (s.mapClusters f) :=
  ⟨Orderly.mapClusters h, Spares.beside rfl rfl rfl rfl⟩
theorem modCore {s : State} {u : Nat} {f : Core → Core} (h : ∀ c : Core, c.Stays (f c)) : Tidy s (s.modCore u f) :=
  ⟨Orderly.modCore .., Spares.modCore h⟩
theorem mapCores {s : State} {f : Nat → Core → Core} (h : ∀ u (c : Core), c.Stays (f u c)) : Tidy s (s.mapCores f) :=
  ⟨Orderly.mapCores .., Spares.mapCores h⟩

theorem modQueue (s : State) (q : Nat) (f : Queue → Queue) : Tidy s (s.modQueue q f) := by
  unfold State.modQueue
  split
  · exact beside rfl rfl rfl rfl rfl
  · exact refl s

theorem modTask (s : State) (P i : Nat) (f : Task → Task) : Tidy s (s.modTask P i f) := by
  unfold State.modTask
  split
  · exact modCluster (fun _ => Cluster.Quiet.of_eq rfl rfl rfl)
  · exact refl s

end Tidy

/-! ## A core that is released and freed -/

theorem leaveWait_tidy (s : State) (u : Nat) : Tidy s (leaveWait s u) := by
  unfold leaveWait
  split <;> exact Tidy.beside rfl rfl rfl rfl rfl

theorem dropWait_tidy (s : State) (u : Nat) : Tidy s (dropWait s u) := (leaveWait_tidy s u).trans (Tidy.modCore (fun _ => .same rfl rfl))

theorem releaseStopped_tidy (s : State) (u scope : Nat) : Tidy s (releaseStopped s u scope) := by
  unfold releaseStopped
  extract_lets off t
  have h : Tidy { s with reqs := s.reqs.filter (fun r => !off r) } t := Tidy.of_accessed (releaseTo_accessed ..) (releaseTo_orderly ..)
  exact Tidy.trans (b := { s with reqs := s.reqs.filter (fun r => !off r) }) (Tidy.beside rfl rfl rfl rfl rfl)
    (h.trans (Tidy.beside rfl rfl rfl rfl rfl))

theorem orphan_tidy (s : State) (u : Nat) : Tidy s (orphan s u) := Tidy.beside rfl rfl rfl rfl rfl

theorem releaseHandle_tidy (s : State) (P : Nat) (h : Handle) : Tidy s (releaseHandle s P h) := by
  unfold releaseHandle
  cases h with
  | ring id _ _ => exact Tidy.modCluster (fun _ => Cluster.Quiet.of_eq rfl rfl rfl)
  | _ => exact Tidy.refl s

theorem releaseHandle_cores (s : State) (P : Nat) (h : Handle) : (releaseHandle s P h).cores = s.cores := by
  cases h <;> rfl

/-- The handles of core u are unbound: of the cores only u differs, and of u only its handles. -/
theorem releaseHandles_core (s : State) (u v : Nat) :
    (releaseHandles s u).core v = if v = u then { s.core u with h := Vector.replicate 8 .unbound } else s.core v := by
  have h : ∀ l : List Handle, (l.foldl (fun s h => releaseHandle s (clusterOf u) h) s).cores = s.cores := fun l =>
    foldl_keeps (P := fun (t : State) => t.cores = s.cores) (fun t x ht => (releaseHandle_cores t _ x).trans ht) l s rfl
  have hc : ∀ (l : List Handle) (w : Nat), (l.foldl (fun s h => releaseHandle s (clusterOf u) h) s).core w = s.core w := fun l w => by simp only [State.core, h]
  unfold releaseHandles
  rw [State.modCore_eq, State.setCore_core, hc, hc]

theorem releaseHandles_tidy (s : State) (u : Nat) : Tidy s (releaseHandles s u) :=
  (Tidy.foldl (fun t h => releaseHandle_tidy t _ h) _ s).trans (Tidy.modCore (fun _ => .same rfl rfl))

theorem freeCore_orderly (s : State) (u : Nat) : Orderly s (freeCore s u) := by
  have h : ∀ ms, Orderly s (s.modCluster (clusterOf u) (fun c => { c with msgBuf := ms ++ c.msgBuf })) := fun _ =>
    Orderly.modCluster (fun _ => Cluster.Quiet.of_eq rfl rfl rfl)
  have h1 : Orderly s (returnInbox s u) := by
    unfold returnInbox
    exact Orderly.trans (h _) (Orderly.modCore ..)
  exact h1.trans ((releaseHandles_tidy _ u).1.trans (Orderly.modCore ..))

/-- Of the cores, only the one that is freed differs. -/
theorem freeCore_core (s : State) (u v : Nat) :
    (v = u → ((freeCore s u).core v).status = .free ∧ ((freeCore s u).core v).task = none) ∧ (v ≠ u → (freeCore s u).core v = s.core v) := by
  unfold freeCore
  refine ⟨fun e => ?_, fun e => ?_⟩
  · subst e; rw [State.modCore_eq, State.setCore_core_self]; exact ⟨rfl, rfl⟩
  · rw [State.modCore_eq, State.setCore_core, if_neg e, releaseHandles_core, if_neg e]
    simp [returnInbox, State.setCore_core, e]

theorem freeCore_map (s : State) (u : Nat) :
    (freeCore s u).lmap = s.lmap ∧ (freeCore s u).nlive = s.nlive ∧ (freeCore s u).quarCl = s.quarCl := by
  obtain ⟨h1, h2, h3, -, -⟩ := (releaseHandles_tidy (returnInbox s u) u).2
  exact ⟨h1, h2, h3⟩

/-- Freeing cores that ran tasks. -/
theorem freeCores_tidy {s0 : State} : ∀ (us : List Nat) {s : State}, (Rising s0 → ∀ u ∈ us, (s0.core u).task ≠ none) → Tidy s0 s →
    Tidy s0 (us.foldl freeCore s)
  | [], _, _, h => h
  | u :: us, s, hus, h => by
    refine freeCores_tidy us (fun hr v hv => hus hr v (List.mem_cons_of_mem _ hv)) ⟨h.1.trans (freeCore_orderly s u), ?_⟩
    obtain ⟨m1, m2, m3⟩ := freeCore_map s u
    refine ⟨m1.trans h.2.lmap, m2.trans h.2.nlive, m3.trans h.2.quarCl, (h.1.trans (freeCore_orderly s u)).rising, fun hr v => ?_⟩
    obtain ⟨hu, hv⟩ := freeCore_core s u v
    by_cases e : v = u
    · obtain ⟨h1, h2⟩ := hu e
      exact .inr ⟨e ▸ hus hr u List.mem_cons_self, h1, h2⟩
    · rw [hv e]; exact h.2.stays hr v

/-! ## A task that leaves the cache -/

theorem enterLevel_tidy (s : State) (P i : Nat) (head : Bool) : Tidy s (enterLevel s P i head) := by
  unfold enterLevel
  split
  · exact Tidy.refl s
  · exact (Tidy.modTask ..).trans (Tidy.modCluster (fun _ => Cluster.Quiet.of_eq rfl rfl rfl))

theorem enterCache_tidy (s : State) (P i : Nat) (t : Task) : Tidy s (enterCache s P i t) := by
  unfold enterCache
  split
  · exact Tidy.modCluster (fun _ => Cluster.Quiet.of_eq rfl rfl rfl)
  · have h : ∀ t', Tidy s (s.modCluster P (fun c => { c with tcbs := mset c.tcbs i t' })) := fun _ =>
      Tidy.modCluster (fun _ => Cluster.Quiet.of_eq rfl rfl rfl)
    dsimp only
    split
    · exact (h _).trans (enterLevel_tidy ..)
    · exact h _

theorem pullBacklog_tidy (s : State) (P : Nat) : Tidy s (pullBacklog s P) := by
  unfold pullBacklog
  split
  · rename_i t rest i hb _
    have h : Tidy s (s.modCluster P (fun c => { c with backlog := rest })) :=
      Tidy.setCluster ⟨by rw [hb]; exact Nat.le_succ _, fun h => ⟨h, rfl⟩⟩
    exact h.trans (enterCache_tidy ..)
  · exact Tidy.refl s

theorem leaveLevels_tidy (s : State) (P i : Nat) : Tidy s (leaveLevels s P i) := Tidy.modCluster (fun _ => Cluster.Quiet.of_eq rfl rfl rfl)

theorem dropEntry_tidy (s : State) (P i : Nat) : Tidy s (dropEntry s P i) := by
  unfold dropEntry
  split
  · exact Tidy.refl s
  · extract_lets s1 s2 s3
    have h1 : Tidy s s1 := (leaveLevels_tidy s P i).trans (Tidy.foldl (fun t h => releaseHandle_tidy t P h) _ _)
    have h2 : Tidy s1 s2 := Tidy.modCluster (fun _ => Cluster.Quiet.of_eq rfl rfl rfl)
    have h3 : Tidy s2 s3 := Tidy.mapCores (fun u c => by split <;> exact .same rfl rfl)
    exact h1.trans (h2.trans (h3.trans (pullBacklog_tidy ..)))

/-! ## The end of a kernel -/

theorem mget_of_mem {α : Type} {k : Nat} {v d : α} : ∀ {m : AMap α}, mwf m = true → (k, v) ∈ m → mget m k d = v
  | (k', v') :: t, hw, hm => by
    obtain ⟨h1, h2⟩ := (mwf_cons k' v' t).1 hw
    rcases List.mem_cons.1 hm with e | hm
    · cases e; unfold mget; rw [if_pos rfl]
    · have hlt := h1 _ hm
      unfold mget
      rw [if_neg (Nat.ne_of_gt hlt), mget_of_mem h2 hm]

theorem stopMembers_tidy (s : State) (k : KKey) : Tidy s (stopMembers s k) := by
  unfold stopMembers
  extract_lets us s1 s2 es s3 s4
  have hus : Rising s → ∀ u ∈ us, (s.core u).task ≠ none := by
    intro hr u hu
    obtain ⟨⟨u', c⟩, hp, rfl⟩ := List.mem_map.1 hu
    obtain ⟨hm, hc⟩ := List.mem_filter.1 hp
    have hg : s.core u' = c := mget_of_mem hr hm
    simp only [Bool.and_eq_true, Option.isSome_iff_ne_none] at hc
    rw [hg]; exact hc.1
  have h1 : Tidy s s1 := Tidy.foldl (fun t u => (dropWait_tidy t u).trans (releaseStopped_tidy ..)) us s
  have h2 : Tidy s s2 := (freeCores_tidy us hus h1).trans (Tidy.foldl orphan_tidy us _)
  have h3 : Tidy s s3 := h2.trans (Tidy.mapClusters (fun _ c => ⟨List.length_filter_le .., fun h => ⟨h, rfl⟩⟩))
  have h4 : Tidy s s4 := h3.trans (Tidy.foldl (fun t e => dropEntry_tidy t e.1 e.2) es s3)
  have h5 : Tidy s4 (forgetSeq s4 k) := Tidy.mapCores (fun _ _ => .same rfl rfl)
  exact h4.trans (h5.trans (Tidy.beside rfl rfl rfl rfl rfl))

theorem dropStores_tidy (s : State) (p : StoreDecl → Bool) : Tidy s (dropStores s p) := by
  unfold dropStores
  extract_lets slots gone s1 s2
  have h1 : Tidy s s1 := Tidy.beside rfl rfl rfl rfl rfl
  have h2 : Tidy s s2 := h1.trans (Tidy.mapClusters (fun _ _ => Cluster.Quiet.of_eq rfl rfl rfl))
  split
  · exact h2.trans (Tidy.beside rfl rfl rfl rfl rfl)
  · exact h2

theorem dropMessages_tidy (s : State) (k : KKey) : Tidy s (dropMessages s k) := by
  have h1 : Tidy s { s with msgs := s.msgs.filter (fun m => m.kern != k) } := Tidy.beside rfl rfl rfl rfl rfl
  unfold dropMessages
  refine Tidy.trans ?_ (Tidy.mapClusters (fun _ _ => Cluster.Quiet.of_eq rfl rfl rfl))
  exact h1.trans (Tidy.mapCores (fun _ _ => .same rfl rfl))

/-- The end of a kernel. -/
theorem endKernel_tidy (s : State) (k : KKey) (cause : Cause) (pc : Word) (unit : Nat) : Tidy s (endKernel s k cause pc unit) := by
  unfold endKernel
  split
  · exact Tidy.refl s
  · split
    · exact Tidy.refl s
    · exact (stopMembers_tidy s k).trans ((dropStores_tidy ..).trans ((dropMessages_tidy ..).trans ((Tidy.modQueue ..).trans (Tidy.modQueue ..))))

theorem endKernels_tidy (s : State) (P : Nat) (ks : List KKey) : Tidy s (endKernels s P ks) :=
  Tidy.foldl (fun t k => endKernel_tidy t k .poison 0 _) _ s

end Sys2Proof.Machine
end

section
/-! Cores that are lost and clusters that are quarantined (R27, R28, R354, R359, R360). -/

namespace Sys2Proof.Machine

/-! ## Sealed cores -/

/-- A core that takes no work and has none. -/
def Core.Sealed (c : Core) : Prop := c.status = .quarantined ∧ c.task = none

/-- Once sealed, a core stays so; and one that was not quarantined with a task is not so afterwards. -/
def Core.Seals (c c' : Core) : Prop :=
  (c.Sealed → c'.Sealed) ∧ ((c.status = .quarantined → c.task = none) → c'.status = .quarantined → c'.task = none)

theorem Core.Seals.trans {a b c : Core} (h : a.Seals b) (h' : b.Seals c) : a.Seals c := ⟨h'.1 ∘ h.1, h'.2 ∘ h.2⟩

theorem Core.Stays.seals {c c' : Core} (h : c.Stays c') : c.Seals c' := by
  rcases h with ⟨h1, h2⟩ | ⟨h1, h2, h3⟩
  · exact ⟨fun ⟨s, t⟩ => ⟨h1.trans s, h2.trans t⟩, fun hc hq => h2.trans (hc (h1.symm.trans hq))⟩
  · exact ⟨fun ⟨_, t⟩ => absurd t h1, fun _ _ => h3⟩

theorem Core.Sealed.seals {c c' : Core} (h : c'.Sealed) : c.Seals c' := ⟨fun _ => h, fun _ _ => h.2⟩

/-- What spares the map and, of cluster P, the cores that are sealed. -/
structure Seals (P : Nat) (s t : State) : Prop where
  lmap : t.lmap = s.lmap
  quarCl : t.quarCl = s.quarCl
  rises : Rising s → Rising t
  seals : Rising s → ∀ v, clusterOf v = P → (s.core v).Seals (t.core v)

theorem Spares.toSeals {s t : State} (h : Spares s t) (P : Nat) : Seals P s t :=
  ⟨h.lmap, h.quarCl, h.rises, fun hr v _ => (h.stays hr v).seals⟩

theorem Seals.refl (P : Nat) (s : State) : Seals P s s := (Spares.refl s).toSeals P

theorem Seals.trans {P : Nat} {a b c : State} (h : Seals P a b) (h' : Seals P b c) : Seals P a c :=
  ⟨h'.lmap.trans h.lmap, h'.quarCl.trans h.quarCl, fun x => h'.rises (h.rises x),
    fun x v hv => (h.seals x v hv).trans (h'.seals (h.rises x) v hv)⟩

theorem Seals.foldl {β : Type} {P : Nat} {f : State → β → State} : ∀ (l : List β) (s : State), (∀ s, ∀ b ∈ l, Seals P s (f s b)) →
    Seals P s (l.foldl f s)
  | [], s, _ => Seals.refl P s
  | b :: t, s, hf => (hf s b List.mem_cons_self).trans (Seals.foldl t (f s b) (fun s x hx => hf s x (List.mem_cons_of_mem _ hx)))

/-! ## Sealing a core -/

theorem writeReserved_map (s : State) (u : Nat) (r : TrapRecord) :
    (writeReserved s u r).lmap = s.lmap ∧ (writeReserved s u r).quarCl = s.quarCl ∧ (Rising s → Rising (writeReserved s u r))
      ∧ ∀ P, ((writeReserved s u r).cluster P).tcbs = (s.cluster P).tcbs := by
  unfold writeReserved
  extract_lets P
  split
  · refine ⟨rfl, rfl, fun h => (Orderly.modCore (s.modCluster P _) u _).rising h, fun Q => ?_⟩
    rw [State.modCore_eq, State.setCore_cluster, State.modCluster_eq, State.setCluster_cluster]
    split
    · rename_i e; rw [e]
    · rfl
  · exact ⟨rfl, rfl, (Orderly.modCore s u _).rising, fun Q => rfl⟩

theorem takeTrap_ring_map (s : State) (u : Nat) :
    (takeTrap s u ringTrap).lmap = s.lmap ∧ (takeTrap s u ringTrap).quarCl = s.quarCl ∧ (Rising s → Rising (takeTrap s u ringTrap))
      ∧ ∀ P, ((takeTrap s u ringTrap).cluster P).tcbs = (s.cluster P).tcbs := by
  rw [takeTrap_eq s u ringTrap nofun]
  obtain ⟨h1, h2, h3, h4⟩ := writeReserved_map (dropWait s u) u (trapRecord (dropWait s u) u ringTrap)
  have hd := (dropWait_tidy s u).2
  refine ⟨h1.trans hd.lmap, h2.trans hd.quarCl, fun h => h3 (hd.rises h), fun P => (h4 P).trans ?_⟩
  simp only [State.cluster, (dropWait_spec s u).2.2.2.1]

theorem closePorts_map (s : State) (u : Nat) :
    (closePorts s u).lmap = s.lmap ∧ (closePorts s u).quarCl = s.quarCl ∧ (Rising s → Rising (closePorts s u))
      ∧ ∀ P, ((closePorts s u).cluster P).tcbs = (s.cluster P).tcbs := by
  unfold closePorts
  refine foldl_keeps (P := fun (t : State) => t.lmap = s.lmap ∧ t.quarCl = s.quarCl ∧ (Rising s → Rising t)
    ∧ ∀ P, (t.cluster P).tcbs = (s.cluster P).tcbs) (fun t p ht => ?_) _ _ ⟨rfl, rfl, id, fun _ => rfl⟩
  rcases portPeer u p with ⟨w, q⟩
  dsimp only
  split
  · obtain ⟨h1, h2, h3, h4⟩ := takeTrap_ring_map t w
    obtain ⟨t1, t2, t3, t4⟩ := ht
    exact ⟨h1.trans t1, h2.trans t2, fun x => h3 (t3 x), fun P => (h4 P).trans (t4 P)⟩
  · exact ht

theorem closePorts_seals (s : State) (u : Nat) : Seals (clusterOf u) s (closePorts s u) := by
  obtain ⟨h1, h2, h3, -⟩ := closePorts_map s u
  exact ⟨h1, h2, h3, fun _ v hv => by rw [closePorts_core s hv]; exact (Core.Stays.same rfl rfl).seals⟩

/-- A core that becomes sealed. -/
theorem Seals.modCore {s : State} {u : Nat} {f : Core → Core} (h : (f (s.core u)).Sealed) (P : Nat) : Seals P s (s.modCore u f) :=
  ⟨rfl, rfl, (Orderly.modCore s u f).rising, fun _ v _ => by
    rw [State.modCore_eq, State.setCore_core]
    split
    · exact h.seals
    · exact (Core.Stays.same rfl rfl).seals⟩

/-- What of a core's release comes before it is sealed. -/
theorem release_spares (s : State) (u : Nat) : Spares s (releaseHandles (orphan (releaseStopped (dropWait s u) u 4) u) u) :=
  (dropWait_tidy s u).2.trans ((releaseStopped_tidy _ u 4).2.trans ((orphan_tidy _ u).2.trans (releaseHandles_tidy _ u).2))

theorem sealCore_seals (s : State) (u : Nat) : Seals (clusterOf u) s (sealCore s u) := by
  unfold sealCore
  extract_lets P s1 s2 s3
  have h1 : Spares s s1 := release_spares s u
  have h2 : Spares s1 s2 := Spares.foldl (fun t i => (enterLevel_tidy t P i false).2) _ s1
  have h3 : Spares s2 s3 := Spares.modCluster ..
  exact ((h1.trans (h2.trans h3)).toSeals _).trans ((Seals.modCore ⟨rfl, rfl⟩ _).trans (closePorts_seals _ u))

/-! ## Losing a core and its task -/

theorem loseTask_spares (s : State) (P i u : Nat) (pc : Word) (stow : Bool) : Spares s (loseTask s P i u pc stow) := by
  unfold loseTask
  split
  · exact Spares.refl s
  · extract_lets s1 again
    have h1 : Spares s s1 := by
      dsimp only [s1]
      split
      · exact writeTcbState_spares ..
      · exact Spares.refl s
    refine h1.trans ?_
    split
    · exact (leaveLevels_tidy s1 P i).2.trans (Spares.modTask ..)
    · exact (endKernel_tidy ..).2

theorem loseCore_seals (s : State) (u : Nat) (stow : Bool) : Seals (clusterOf u) s (loseCore s u stow) := by
  unfold loseCore
  dsimp only
  split
  · exact (sealCore_seals s u).trans ((loseTask_spares ..).toSeals _)
  · exact sealCore_seals s u

/-- A lost core is sealed. -/
theorem loseCore_sealed {s : State} (hr : Rising s) (u : Nat) (stow : Bool) : ((loseCore s u stow).core u).Sealed := by
  have h : ((sealCore s u).core u).Sealed := sealCore_core_self s u
  unfold loseCore
  dsimp only
  split
  · rename_i i _
    have := (loseTask_spares (sealCore s u) (clusterOf u) i u (s.core u).pc stow).toSeals (clusterOf u)
    exact (this.seals ((sealCore_seals s u).rises hr) u rfl).1 h
  · exact h

/-! ## The quarantine of a cluster -/

theorem gatherMessages_spares (s : State) (u : Nat) : Spares s (gatherMessages s u) := by
  unfold gatherMessages
  exact (Spares.modCluster ..).trans (Spares.modCore (fun _ => .same rfl rfl))

theorem returnContext_spares (s : State) (P i u : Nat) : Spares s (returnContext s P i u) := by
  unfold returnContext
  split
  · exact (Spares.modCluster ..).trans (Spares.modTask ..)
  · exact Spares.refl s

theorem mem_coresOf {P u : Nat} : u ∈ coresOf P ↔ clusterOf u = P := by
  unfold coresOf clusterOf
  rw [mem_upFrom]
  omega

/-- A core is lost unless it is lost already. -/
def loseLive (s : State) (u : Nat) : State := if (s.core u).status = .quarantined then s else loseCore s u true

theorem loseLive_seals (s : State) (u : Nat) : Seals (clusterOf u) s (loseLive s u) := by
  unfold loseLive
  split
  · exact Seals.refl _ s
  · exact loseCore_seals s u true

theorem loseLive_sealed {s : State} (hr : Rising s) {u : Nat} (hq : (s.core u).status = .quarantined → (s.core u).task = none) :
    ((loseLive s u).core u).Sealed := by
  unfold loseLive
  split
  · rename_i e; exact ⟨e, hq e⟩
  · exact loseCore_sealed hr u true

theorem loseLives_seals {P : Nat} {us : List Nat} (hus : ∀ u ∈ us, clusterOf u = P) (s : State) : Seals P s (us.foldl loseLive s) :=
  Seals.foldl us s (fun t u hu => hus u hu ▸ loseLive_seals t u)

theorem loseLives_sealed {P : Nat} {us : List Nat} : ∀ {s : State}, (∀ u ∈ us, clusterOf u = P) → Rising s →
    (∀ v, clusterOf v = P → (s.core v).status = .quarantined → (s.core v).task = none) → ∀ u ∈ us, ((us.foldl loseLive s).core u).Sealed := by
  induction us with
  | nil => exact fun _ _ _ _ h => absurd h List.not_mem_nil
  | cons w us ih =>
    intro s hus hr hq u hu
    have hw := hus w List.mem_cons_self
    have ht := fun x hx => hus x (List.mem_cons_of_mem _ hx)
    have h1 : Seals P s (loseLive s w) := hw ▸ loseLive_seals s w
    have h2 : ((loseLive s w).core w).Sealed := loseLive_sealed hr (hq w hw)
    rw [List.foldl_cons]
    rcases List.mem_cons.1 hu with e | hu
    · subst e
      exact ((loseLives_seals ht _).seals (h1.rises hr) u hw).1 h2
    · exact ih ht (h1.rises hr) (fun v hv => (h1.seals hr v hv).2 (hq v hv)) u hu

/-- A quarantine that takes place: the cores of the cluster are lost between what comes before and what comes after. -/
theorem quarantine_shape (s : State) (P : Nat) (h1 : P ∉ s.quarCl) (h2 : P ∈ s.lmap) : ∃ a, Spares { s with quarCl := s.quarCl ++ [P] } a
    ∧ Spares ((coresOf P).foldl loseLive a) (quarantine s P) := by
  unfold quarantine
  rw [if_neg (by simp [h1, h2])]
  extract_lets kids gone s1 s2 s3 stowed s4 s5
  have h1 : Spares s s1 := Spares.foldl (fun t (k : Nat × Task) => (dropEntry_tidy t P k.1).2) _ s
  have h2 : Spares { s1 with quarCl := s1.quarCl ++ [P] } s2 := (endKernels_tidy _ P gone).2
  have h3 : Spares s2 s3 := Spares.foldl gatherMessages_spares _ s2
  have h4 : Spares s3 s4 := Spares.foldl (fun t (x : Nat × Task) => returnContext_spares t P x.1 _) _ s3
  have h0 : Spares { s with quarCl := s.quarCl ++ [P] } { s1 with quarCl := s1.quarCl ++ [P] } :=
    ⟨h1.lmap, h1.nlive, by rw [h1.quarCl], h1.rises, h1.stays⟩
  refine ⟨s4, h0.trans (h2.trans (h3.trans h4)), Spares.foldl (fun t x => ?_) _ _⟩
  split
  · split
    · exact loseTask_spares ..
    · exact Spares.refl t
  · exact Spares.refl t

theorem quarantine_idle {s : State} {P : Nat} (h : P ∉ s.lmap ∨ P ∈ s.quarCl) : quarantine s P = s := by
  unfold quarantine
  exact if_pos (by simpa using h.symm)

/-- The cluster is quarantined, the map is as it was, and every core of the cluster is sealed (R28). -/
theorem quarantine_spec {s : State} {P : Nat} (h1 : P ∉ s.quarCl) (h2 : P ∈ s.lmap) :
    (quarantine s P).quarCl = s.quarCl ++ [P] ∧ (quarantine s P).lmap = s.lmap
      ∧ (Rising s → (∀ v, (s.core v).status = .quarantined → (s.core v).task = none) → ∀ v, clusterOf v = P → ((quarantine s P).core v).Sealed) := by
  obtain ⟨a, ha, hb⟩ := quarantine_shape s P h1 h2
  have hus : ∀ u ∈ coresOf P, clusterOf u = P := fun u => mem_coresOf.1
  have hc := loseLives_seals hus a
  refine ⟨hb.quarCl.trans (hc.quarCl.trans ha.quarCl), hb.lmap.trans (hc.lmap.trans ha.lmap), fun hr hq v hv => ?_⟩
  have hra := ha.rises hr
  have hl := loseLives_sealed hus hra (fun w hw => ((ha.toSeals P).seals hr w hw).2 (hq w)) v (mem_coresOf.2 hv)
  exact ((hb.toSeals P).seals (hc.rises hra) v hv).1 hl

theorem quarantine_quarCl {s : State} {P : Nat} (h : P ∈ s.lmap) : P ∈ (quarantine s P).quarCl := by
  by_cases hq : P ∈ s.quarCl
  · rw [quarantine_idle (.inr hq)]; exact hq
  · rw [(quarantine_spec hq h).1]; simp

/-! ## The loss of a supervisor (R360) -/

/-- The kernels of the records that a lost mailbox held. -/
def recordKernels (s : State) (t : State) (cl : Nat) : List KKey :=
  ((s.cluster cl).mailbox.map (fun r => r.2.kid) ++ (s.cluster cl).heldRecs.map (fun r => r.2.kid)).flatMap (kernelsWith t)

theorem execSupervisorError_eq (s : State) (cl : Nat) : exec (.supervisorError cl) s =
    let t := (quarantine s cl).modCluster cl (fun c => { c with supLost := true, mailbox := [], heldRecs := [] })
    .next (endKernels t cl (recordKernels s t cl)) := rfl

theorem execSupervisorError_spec (s : State) (cl : Nat) : ∃ t, exec (.supervisorError cl) s = .next t ∧ (t.cluster cl).supLost = true
    ∧ (t.cluster cl).mailbox = [] ∧ (cl ∈ s.lmap → cl ∈ t.quarCl) := by
  have hq := fun h => quarantine_quarCl (s := s) (P := cl) h
  rw [execSupervisorError_eq]
  extract_lets t
  have ht := endKernels_tidy t cl (recordKernels s t cl)
  have hl : (t.cluster cl).supLost = true ∧ (t.cluster cl).mailbox = [] := by simp [t]
  obtain ⟨h1, h2⟩ := ht.1.lost cl hl.1
  exact ⟨_, rfl, h1, h2.trans hl.2, fun h => by rw [ht.2.quarCl]; exact hq h⟩

/-! ## The tasks of a cluster while a core is sealed -/

/-- Every task of a cache is there yet, with its TCB and its kind. -/
def KeepsTasks (s t : State) : Prop := ∀ P i x, mfind (s.cluster P).tcbs i = some x →
  ∃ y, mfind (t.cluster P).tcbs i = some y ∧ y.tcba = x.tcba ∧ y.kind = x.kind

theorem KeepsTasks.of_tcbs {s t : State} (h : ∀ P, (t.cluster P).tcbs = (s.cluster P).tcbs) : KeepsTasks s t :=
  fun P i x hx => ⟨x, by rw [h P]; exact hx, rfl, rfl⟩

theorem KeepsTasks.trans {a b c : State} (h : KeepsTasks a b) (h' : KeepsTasks b c) : KeepsTasks a c := fun P i x hx => by
  obtain ⟨y, hy, y1, y2⟩ := h P i x hx
  obtain ⟨z, hz, z1, z2⟩ := h' P i y hy
  exact ⟨z, hz, z1.trans y1, z2.trans y2⟩

theorem KeepsTasks.foldl {β : Type} {f : State → β → State} (hf : ∀ s b, KeepsTasks s (f s b)) : ∀ (l : List β) (s : State), KeepsTasks s (l.foldl f s)
  | [], _ => KeepsTasks.of_tcbs (fun _ => rfl)
  | b :: t, s => (hf s b).trans (KeepsTasks.foldl hf t (f s b))

theorem KeepsTasks.modCluster {s : State} {P : Nat} {f : Cluster → Cluster} (h : ∀ c, (f c).tcbs = c.tcbs) : KeepsTasks s (s.modCluster P f) :=
  KeepsTasks.of_tcbs (fun Q => by
    rw [State.modCluster_eq, State.setCluster_cluster]
    split
    · rename_i e; rw [e, h]
    · rfl)

theorem KeepsTasks.modTask {s : State} {P i : Nat} {f : Task → Task} (h : ∀ t : Task, (f t).tcba = t.tcba ∧ (f t).kind = t.kind) :
    KeepsTasks s (s.modTask P i f) := by
  intro Q j x hx
  unfold State.modTask
  split
  · rename_i y hy
    rw [State.modCluster_eq, State.setCluster_cluster]
    split
    · rename_i e
      subst e
      rw [mfind_mset]
      split
      · rename_i e
        rw [e, hy] at hx
        exact ⟨_, rfl, Option.some.inj hx ▸ h y⟩
      · exact ⟨x, hx, rfl, rfl⟩
    · exact ⟨x, hx, rfl, rfl⟩
  · exact ⟨x, hx, rfl, rfl⟩

theorem KeepsTasks.of_accessed {s t : State} (h : Accessed s t) : KeepsTasks s t :=
  KeepsTasks.of_tcbs (fun P => by rw [h.2.2.1 P])

theorem releaseHandle_tasks (s : State) (P : Nat) (h : Handle) : KeepsTasks s (releaseHandle s P h) := by
  cases h with
  | ring id _ _ => exact KeepsTasks.modCluster (fun _ => rfl)
  | _ => exact KeepsTasks.of_tcbs (fun _ => rfl)

theorem enterLevel_tasks (s : State) (P i : Nat) (head : Bool) : KeepsTasks s (enterLevel s P i head) := by
  unfold enterLevel
  split
  · exact KeepsTasks.of_tcbs (fun _ => rfl)
  · extract_lets s1
    have h1 : KeepsTasks s s1 := KeepsTasks.modTask (fun _ => ⟨rfl, rfl⟩)
    exact h1.trans (KeepsTasks.modCluster (fun _ => rfl))

theorem releaseStopped_tasks (s : State) (u scope : Nat) : KeepsTasks s (releaseStopped s u scope) := by
  unfold releaseStopped
  extract_lets off t
  have h : Accessed { s with reqs := s.reqs.filter (fun r => !off r) } t := releaseTo_accessed ..
  exact KeepsTasks.trans (b := t) (KeepsTasks.of_accessed h) (KeepsTasks.of_tcbs (fun _ => rfl))

theorem modCore_tasks (s : State) (u : Nat) (f : Core → Core) : KeepsTasks s (s.modCore u f) := KeepsTasks.of_tcbs (fun _ => rfl)

theorem orphan_tasks (s : State) (u : Nat) : KeepsTasks s (orphan s u) := KeepsTasks.of_tcbs (fun _ => rfl)

theorem releaseHandles_tasks (s : State) (u : Nat) : KeepsTasks s (releaseHandles s u) := by
  unfold releaseHandles
  exact (KeepsTasks.foldl (fun t h => releaseHandle_tasks t (clusterOf u) h) _ s).trans (modCore_tasks _ u _)

theorem dropWait_tasks (s : State) (u : Nat) : KeepsTasks s (dropWait s u) :=
  KeepsTasks.of_tcbs (fun P => by simp only [State.cluster, (dropWait_spec s u).2.2.2.1])

theorem closePorts_tasks (s : State) (u : Nat) : KeepsTasks s (closePorts s u) := KeepsTasks.of_tcbs (closePorts_map s u).2.2.2

theorem sealCore_tasks (s : State) (u : Nat) : KeepsTasks s (sealCore s u) := by
  unfold sealCore
  extract_lets P s1 s2 s3
  have h1 : KeepsTasks s s1 :=
    (dropWait_tasks s u).trans ((releaseStopped_tasks _ u 4).trans ((orphan_tasks _ u).trans (releaseHandles_tasks _ u)))
  have h2 : KeepsTasks s1 s2 := KeepsTasks.foldl (fun t i => enterLevel_tasks t P i false) _ s1
  have h3 : KeepsTasks s2 s3 := KeepsTasks.modCluster (fun _ => rfl)
  exact h1.trans (h2.trans (h3.trans ((modCore_tasks s3 u _).trans (closePorts_tasks _ u))))

/-! ## The task of a core that is killed (R27) -/

theorem writeOwed_tcbs (s : State) (u : Nat) (r : TrapRecord) (P : Nat) : ((writeOwed s u r).cluster P).tcbs = (s.cluster P).tcbs := by
  unfold writeOwed
  extract_lets Q
  split
  · rw [State.modCore_eq, State.setCore_cluster, State.modCluster_eq, State.setCluster_cluster]
    split
    · rename_i e; rw [e]
    · rfl
  · rfl

/-- A task with a memory TCB that is not a gang's waits to be restarted. -/
theorem loseTask_torn {s : State} {P i u : Nat} {pc : Word} {x : Task} (hx : mfind (s.cluster P).tcbs i = some x) (ht : x.tcba ≠ 0)
    (hg : x.kind.gang = false) : ∃ y, mfind ((loseTask s P i u pc false).cluster P).tcbs i = some y ∧ y.status = .torn := by
  have hl : mfind ((leaveLevels s P i).cluster P).tcbs i = some x := by simp [leaveLevels, hx]
  unfold loseTask
  rw [hx]
  simp only [Bool.false_eq_true, if_false, bne_iff_ne.2 ht, hg, Bool.not_false, Bool.and_self, Bool.true_or, if_true, State.modTask, hl]
  rw [State.modCluster_eq, State.setCluster_cluster_self, mfind_mset_self]
  exact ⟨_, rfl, rfl⟩

theorem loseCore_torn {s : State} {u i : Nat} {x : Task} (hc : (s.core u).task = some i) (hx : mfind (s.cluster (clusterOf u)).tcbs i = some x)
    (ht : x.tcba ≠ 0) (hg : x.kind.gang = false) :
    ∃ y, mfind ((loseCore s u false).cluster (clusterOf u)).tcbs i = some y ∧ y.status = .torn := by
  obtain ⟨y, hy, y1, y2⟩ := sealCore_tasks s u _ i x hx
  unfold loseCore
  simp only [hc]
  exact loseTask_torn hy (y1 ▸ ht) (y2 ▸ hg)

theorem sealedCore_eq_false {s : State} {u : Nat} (h1 : (s.core u).status ≠ .quarantined) (h2 : clusterOf u ∉ s.quarCl) : sealedCore s u = false := by
  simp [sealedCore, h1, h2]

theorem execCoreKill_idle {s : State} {u : Nat} (h : (s.core u).status = .quarantined ∨ clusterOf u ∈ s.quarCl) :
    exec (.coreKill u) s = .next s := by
  have : sealedCore s u = true := by simpa [sealedCore] using h
  simp only [exec, execCoreKill, this, if_true]

theorem execCoreKill_kills {s : State} {u : Nat} (h1 : (s.core u).status ≠ .quarantined) (h2 : clusterOf u ∉ s.quarCl) :
    exec (.coreKill u) s = .next (writeOwed (loseCore s u false) u (trapRecord s u { cause := .poison, sub := 1, rpc := .zero })) := by
  simp only [exec, execCoreKill, sealedCore_eq_false h1 h2, Bool.false_eq_true, if_false]

theorem execCoreKill_killed {s : State} {u : Nat} (hr : Rising s) :
    Killed s (writeOwed (loseCore s u false) u (trapRecord s u { cause := .poison, sub := 1, rpc := .zero })) u .poison 1 :=
  killed_of_sealed .poison 1 (loseCore_sealed hr u false)

/-! ## TASK_RESTART (R340) -/

theorem execTaskRestart_ready {s : State} {cl i : Nat} {x : Task} (hx : mfind (s.cluster cl).tcbs i = some x) (hs : x.status = .torn) (ht : x.tcba = 0)
    (hl : x.lastOn = none ∨ ∃ v, x.lastOn = some v ∧ requestsDone s v = true) :
    exec (.taskRestart cl i) s = .next (enterLevel s cl i false) := by
  have hd : (x.lastOn.map (requestsDone s)).getD true = true := by
    rcases hl with h | ⟨v, h, hv⟩
    · rw [h]; rfl
    · rw [h]; exact hv
  have hr : restartTorn s cl i = some (enterLevel s cl i false) := by simp [restartTorn, hx, hs, ht]
  simp only [exec, execTaskRestart, hx, hd, if_true, hr, Option.getD_some]

theorem execTaskRestart_waits {s : State} {cl i : Nat} {x : Task} (hx : mfind (s.cluster cl).tcbs i = some x)
    (h : x.status ≠ .torn ∨ ∃ v, x.lastOn = some v ∧ requestsDone s v = false) : exec (.taskRestart cl i) s = .next s := by
  rcases h with h | ⟨v, hv, hd⟩
  · have hr : restartTorn s cl i = none := by simp [restartTorn, hx, h]
    simp only [exec, execTaskRestart, hx, hr, Option.getD_none, ite_self]
  · have : (x.lastOn.map (requestsDone s)).getD true = false := by rw [hv]; exact hd
    simp only [exec, execTaskRestart, hx, this, Bool.false_eq_true, if_false]

/-- A task at the tail of its ready level. -/
theorem enterLevel_ready {s : State} {P i : Nat} {x : Task} (hx : mfind (s.cluster P).tcbs i = some x) :
    let t := enterLevel s P i false
    mfind (t.cluster P).tcbs i = some { x with status := .ready, since := s.now }
      ∧ mget (t.cluster P).ready x.pri [] = mget (s.cluster P).ready x.pri [] ++ [i] := by
  simp [enterLevel, State.modTask, hx, mmod]

end Sys2Proof.Machine
end

section
/-! A quarantined cluster leaves the map (R30, R283, R311). -/

namespace Sys2Proof.Machine

/-! ## The new map -/

theorem mapWithout_getElem? {m : List Nat} {q : Nat} (hq : q < m.length) (p : Nat) :
    (mapWithout m q (m.length - 1))[p]? = if p < m.length - 1 then (if p = q then m[m.length - 1]? else m[p]?) else none := by
  have hl : m.length - 1 < m.length := Nat.sub_lt (Nat.zero_lt_of_lt hq) Nat.one_pos
  unfold mapWithout
  rw [List.getElem?_take]
  refine if_congr Iff.rfl ?_ rfl
  rw [List.getElem?_set]
  by_cases h : p = q
  · subst h
    rw [if_pos rfl, if_pos hq, if_pos rfl, List.getElem?_eq_getElem hl, List.getD_eq_getElem _ _ hl]
  · rw [if_neg (Ne.symm h), if_neg h]

theorem mapWithout_length {m : List Nat} (q : Nat) : (mapWithout m q (m.length - 1)).length = m.length - 1 := by
  simp [mapWithout]

/-- A place of the new map holds what some place of the old one does, and no other place of the new one. -/
theorem mapWithout_place {m : List Nat} {q p x : Nat} (hq : q < m.length) (h : (mapWithout m q (m.length - 1))[p]? = some x) :
    p < m.length - 1 ∧ m[if p = q then m.length - 1 else p]? = some x := by
  rw [mapWithout_getElem? hq] at h
  split at h
  · rename_i hp
    refine ⟨hp, ?_⟩
    split at h
    · rename_i e; rw [if_pos e]; exact h
    · rename_i e; rw [if_neg e]; exact h
  · cases h

theorem nodup_place {m : List Nat} (hn : m.Nodup) {i j x : Nat} (hi : m[i]? = some x) (hj : m[j]? = some x) : i = j := by
  obtain ⟨h1, h2⟩ := List.getElem?_eq_some_iff.1 hi
  obtain ⟨h3, h4⟩ := List.getElem?_eq_some_iff.1 hj
  exact (List.Nodup.getElem_inj_iff hn).1 (h2.trans h4.symm)

theorem mapWithout_nodup {m : List Nat} (hn : m.Nodup) {q : Nat} (hq : q < m.length) : (mapWithout m q (m.length - 1)).Nodup := by
  rw [List.nodup_iff_getElem?_ne_getElem?]
  intro i j hij hj he
  have hx : (mapWithout m q (m.length - 1))[j]? = some _ := List.getElem?_eq_getElem hj
  obtain ⟨h1, h2⟩ := mapWithout_place hq hx
  obtain ⟨h3, h4⟩ := mapWithout_place hq (he.trans hx)
  have := nodup_place hn h4 h2
  split at this <;> split at this <;> omega

theorem mapWithout_not_mem {m : List Nat} (hn : m.Nodup) {q x : Nat} (h : m[q]? = some x) : x ∉ mapWithout m q (m.length - 1) := by
  have hq : q < m.length := (List.getElem?_eq_some_iff.1 h).1
  intro hx
  obtain ⟨p, hp⟩ := List.mem_iff_getElem?.1 hx
  obtain ⟨h1, h2⟩ := mapWithout_place hq hp
  have := nodup_place hn h2 h
  split at this <;> omega

/-! ## What keeps the map -/

/-- The map of clusters is as it was. -/
structure SameMap (s t : State) : Prop where
  lmap : t.lmap = s.lmap
  nlive : t.nlive = s.nlive

theorem SameMap.refl (s : State) : SameMap s s := ⟨rfl, rfl⟩
theorem SameMap.trans {a b c : State} (h : SameMap a b) (h' : SameMap b c) : SameMap a c := ⟨h'.lmap.trans h.lmap, h'.nlive.trans h.nlive⟩
theorem SameMap.foldl {β : Type} {f : State → β → State} (hf : ∀ s b, SameMap s (f s b)) : ∀ (l : List β) (s : State), SameMap s (l.foldl f s)
  | [], s => SameMap.refl s
  | b :: t, s => (hf s b).trans (SameMap.foldl hf t (f s b))

theorem Spares.sameMap {s t : State} (h : Spares s t) : SameMap s t := ⟨h.lmap, h.nlive⟩

theorem SameMap.of_accessed {s t : State} (h : Accessed s t) : SameMap s t := ⟨by rw [h.1], by rw [h.1]⟩

/-! ## What the slices hold -/

theorem readRecord_sameMap {s t : State} {P : Nat} {d : StoreDecl} {n : Nat} {bs : List Byte} (h : readRecord s P d n = .ok (bs, t)) : SameMap s t := by
  unfold readRecord at h
  split at h
  · rename_i r hr; cases h; exact SameMap.of_accessed (loadBytes_accesses _ _ _ _ _ _ hr)
  · cases h
  · cases h

theorem except_bind_ok {α β ε : Type} {x : Except ε α} {f : α → Except ε β} {b : β} :
    (x >>= f) = .ok b ↔ ∃ a, x = .ok a ∧ f a = .ok b := by
  cases x with
  | error e => exact ⟨nofun, fun ⟨_, h, _⟩ => nomatch h⟩
  | ok a => exact ⟨fun h => ⟨a, rfl, h⟩, fun ⟨_, h, h'⟩ => by cases h; exact h'⟩

theorem recordsFrom_sameMap {P slot : Nat} {d : StoreDecl} {old : Nat} {ws : List (Option Nat)} : ∀ {n : Nat} {s t : State} {l : List Moved},
    recordsFrom P slot d old ws n s = .ok (l, t) → SameMap s t := by
  induction ws with
  | nil => intro n s t l h; cases h; exact SameMap.refl s
  | cons w ws ih =>
    intro n s t l h
    unfold recordsFrom at h
    obtain ⟨⟨bs, s1⟩, h1, h⟩ := except_bind_ok.1 h
    obtain ⟨⟨l', s2⟩, h2, h⟩ := except_bind_ok.1 h
    cases h
    exact (readRecord_sameMap h1).trans (ih h2)

theorem sliceItems_sameMap {P slot : Nat} {d : StoreDecl} {old : Nat} {s t : State} {l : List Moved} (h : sliceItems P slot d old s = .ok (l, t)) :
    SameMap s t := by
  unfold sliceItems at h
  obtain ⟨⟨r, s1⟩, h1, h⟩ := except_bind_ok.1 h
  cases h
  exact recordsFrom_sameMap h1

theorem storeItems_sameMap {slot : Nat} {d : StoreDecl} {ps : List (Nat × Nat)} : ∀ {s t : State} {l : List Moved},
    storeItems slot d ps s = .ok (l, t) → SameMap s t := by
  induction ps with
  | nil => intro s t l h; cases h; exact SameMap.refl s
  | cons p ps ih =>
    intro s t l h
    unfold storeItems at h
    obtain ⟨⟨a, s1⟩, h1, h⟩ := except_bind_ok.1 h
    obtain ⟨⟨b, s2⟩, h2, h⟩ := except_bind_ok.1 h
    cases h
    exact (sliceItems_sameMap h1).trans (ih h2)

/-- Reading what the slices hold keeps the map. -/
theorem allItems_sameMap {xs : List (Nat × StoreDecl)} : ∀ {s t : State} {l : List Sent}, allItems xs s = .ok (l, t) → SameMap s t := by
  induction xs with
  | nil => intro s t l h; cases h; exact SameMap.refl s
  | cons x xs ih =>
    intro s t l h
    unfold allItems at h
    obtain ⟨⟨a, s1⟩, h1, h⟩ := except_bind_ok.1 h
    obtain ⟨⟨b, s2⟩, h2, h⟩ := except_bind_ok.1 h
    cases h
    exact (storeItems_sameMap h1).trans (ih h2)

/-! ## What is sent to its new home -/

theorem modSlice_sameMap (s : State) (P slot : Nat) (f : SliceStore → SliceStore) : SameMap s (s.modSlice P slot f) := ⟨rfl, rfl⟩

theorem pushRecord_sameMap {s t : State} {P slot : Nat} {d : StoreDecl} {win : Option Nat} {x : Item}
    (h : pushRecord s P slot d win x = some t) : SameMap s t := by
  unfold pushRecord at h
  dsimp only at h
  split at h
  · cases h
  · obtain ⟨s1, h1, rfl⟩ := Option.map_eq_some_iff.1 h
    refine SameMap.trans ?_ (modSlice_sameMap ..)
    unfold writeRecord at h1
    split at h1
    · rename_i hr; cases h1; exact SameMap.of_accessed (storeBytes_accesses _ _ _ _ _ _ _ _ _ hr)
    · cases h1

theorem foldIn_sameMap {s t : State} {P slot : Nat} {d : StoreDecl} {x : Item} (h : foldIn s P slot d x = some t) : SameMap s t := by
  unfold foldIn at h
  dsimp only at h
  split at h
  · cases h; exact modSlice_sameMap ..
  · split at h
    · cases h; exact modSlice_sameMap ..
    · split at h
      · cases h; exact SameMap.refl s
      · obtain ⟨s1, h1, rfl⟩ := Option.map_eq_some_iff.1 h
        exact (pushRecord_sameMap h1).trans (modSlice_sameMap ..)

theorem parkIn_sameMap {s t : State} {P slot : Nat} {d : StoreDecl} {k : Nat} {u : Update} (h : parkIn s P slot d k u = some t) : SameMap s t := by
  unfold parkIn at h
  split at h
  · cases h; exact modSlice_sameMap ..
  · exact pushRecord_sameMap h

theorem parkUpdate_sameMap {s t : State} {P slot : Nat} {d : StoreDecl} {u : Update} (h : parkUpdate s P slot d u = some t) : SameMap s t := by
  unfold parkUpdate at h
  dsimp only at h
  obtain ⟨s1, h1, rfl⟩ := Option.map_eq_some_iff.1 h
  refine (parkIn_sameMap h1).trans ?_
  split
  · exact modSlice_sameMap ..
  · exact SameMap.refl s1

theorem arrive_sameMap {s t : State} {u : Update} (h : arrive s u = some t) : SameMap s t := by
  unfold arrive at h
  split at h
  · cases h; exact SameMap.refl s
  · dsimp only at h
    split at h
    · exact parkIn_sameMap h
    · exact foldIn_sameMap h
    · split at h
      · exact foldIn_sameMap h
      · exact parkUpdate_sameMap h

theorem placeMoved_sameMap (d : StoreDecl) (s : State) (m : Moved) : SameMap s (placeMoved d s m) := by
  unfold placeMoved
  extract_lets Q u
  split
  · exact ⟨rfl, rfl⟩
  · cases h : arrive s u with
    | none => exact ⟨rfl, rfl⟩
    | some t => exact arrive_sameMap h

theorem rehomeStores_sameMap (s : State) (items : List Sent) : SameMap s (rehomeStores s items) := by
  unfold rehomeStores
  refine SameMap.foldl (fun s x => ?_) items s
  exact (SameMap.foldl (fun t Q => modSlice_sameMap t Q _ _) _ s).trans (SameMap.foldl (fun t m => placeMoved_sameMap x.decl t m) _ _)

/-! ## The tasks that go elsewhere -/

theorem modQueue_sameMap (s : State) (q : Nat) (f : Queue → Queue) : SameMap s (s.modQueue q f) := (Tidy.modQueue s q f).2.sameMap

theorem newHome_sameMap (s : State) (q : Nat) (t : Task) : SameMap s (newHome s q t).2 := by
  unfold newHome
  split
  · exact SameMap.refl s
  · exact SameMap.refl s
  · split
    · exact SameMap.refl s
    · split
      · exact SameMap.refl s
      · split
        · exact modQueue_sameMap ..
        · exact SameMap.refl s

theorem admitTask_sameMap (s : State) (P : Nat) (t : Task) : SameMap s (admitTask s P t) := by
  unfold admitTask
  split
  · exact (enterCache_tidy ..).2.sameMap
  · exact ⟨rfl, rfl⟩

theorem refuseTask_sameMap (s : State) (t : Task) : SameMap s (refuseTask s t) := by
  unfold refuseTask
  split
  · exact (modQueue_sameMap ..).trans (modQueue_sameMap ..)
  · exact SameMap.refl s

theorem rehomeTask_sameMap (q : Nat) (s : State) (t : Task) : SameMap s (rehomeTask q s t) := by
  have h := newHome_sameMap s q t
  unfold rehomeTask
  dsimp only
  generalize newHome s q t = x at h
  refine h.trans ?_
  split
  · exact admitTask_sameMap ..
  · split
    · exact refuseTask_sameMap ..
    · exact admitTask_sameMap ..

/-! ## The change of the map -/

/-- The state in which the numbers have changed, before anything moves. -/
def renamed (s : State) (P q : Nat) : State :=
  renumbered ((renameHeld s q (s.nlive - 1) (renumber q (s.nlive - 1))).setCluster P (s.cluster P).left) P q (s.nlive - 1)

theorem renamed_map (s : State) (P q : Nat) :
    (renamed s P q).lmap = mapWithout s.lmap q (s.nlive - 1) ∧ (renamed s P q).nlive = s.nlive - 1 := ⟨rfl, rfl⟩

theorem moveFlags_sameMap (s : State) (Q : Nat) (ss : AMap SliceStore) : SameMap s (moveFlags s Q ss) :=
  SameMap.foldl (fun t _ => modSlice_sameMap t ..) ss s

theorem leaveMap_map (s : State) (P q : Nat) (items : List Sent) :
    (leaveMap s P q items).lmap = mapWithout s.lmap q (s.nlive - 1) ∧ (leaveMap s P q items).nlive = s.nlive - 1 := by
  unfold leaveMap
  extract_lets L c held again tasks s1 s2 s3
  have h2 : SameMap s1 s2 :=
    SameMap.trans (b := { s1 with msgs := s1.msgs ++ again }) ⟨rfl, rfl⟩ ((moveFlags_sameMap ..).trans (rehomeStores_sameMap ..))
  have h3 : SameMap s1 s3 := h2.trans ⟨rfl, rfl⟩
  have h4 := h3.trans ((SameMap.foldl (rehomeTask_sameMap q) tasks s3).trans (endKernels_tidy _ P held).2.sameMap)
  exact ⟨h4.lmap.trans (renamed_map s P q).1, h4.nlive.trans (renamed_map s P q).2⟩

/-! ## A cluster without tasks, in a module without stores -/

theorem renumbered_orderly (s : State) (P q L : Nat) : Orderly s (renumbered s P q L) := by
  unfold renumbered
  extract_lets fans s1 s2
  have h2 : Orderly s s2 := Orderly.trans (b := s1) (Orderly.beside rfl rfl) (Orderly.mapCores ..)
  have h3 : Orderly s (rerouteMessages s2 q L) := h2.trans (Orderly.beside rfl rfl)
  exact h3.trans (Orderly.mapClusters (fun _ _ => Cluster.Quiet.of_eq rfl rfl rfl))

theorem moveFlags_orderly (s : State) (Q : Nat) (ss : AMap SliceStore) : Orderly s (moveFlags s Q ss) := by
  unfold moveFlags
  refine Orderly.foldl (fun t x => ?_) ss s
  unfold State.modSlice
  exact Orderly.modCluster (fun _ => Cluster.Quiet.of_eq rfl rfl rfl)

/-- A cluster that leaves admits nothing elsewhere where it holds no task and there is no store: no backlog grows. -/
theorem leaveMap_orderly {s : State} {P : Nat} (q : Nat) (h1 : (s.cluster P).tcbs = []) (h2 : (s.cluster P).backlog = []) :
    Orderly s (leaveMap s P q []) := by
  unfold leaveMap
  extract_lets L c held again tasks s1 s2 s3
  have ht : tasks = [] := by simp only [tasks, c, h1, h2]; rfl
  have h0 : Orderly s (renameHeld s q L (renumber q L)) := Orderly.beside rfl rfl
  have hl : Orderly (renameHeld s q L (renumber q L)) ((renameHeld s q L (renumber q L)).setCluster P c.left) :=
    Orderly.setCluster ⟨Nat.zero_le _, fun h => ⟨h, rfl⟩⟩
  have hs1 : Orderly s s1 := h0.trans (hl.trans (renumbered_orderly ..))
  have hs2 : Orderly s1 s2 := Orderly.trans (b := { s1 with msgs := s1.msgs ++ again }) (Orderly.beside rfl rfl) (moveFlags_orderly ..)
  have hs3 : Orderly s2 s3 := Orderly.modCluster (fun _ => Cluster.Quiet.of_eq rfl rfl rfl)
  rw [ht]
  exact hs1.trans (hs2.trans (hs3.trans (endKernels_tidy _ P held).1))

/-! ## CLUSTER_REMAP -/

theorem logical_of_place {s : State} (hn : s.lmap.Nodup) {q P : Nat} (h : s.lmap[q]? = some P) : s.logical P = some q := by
  obtain ⟨hq, he⟩ := List.getElem?_eq_some_iff.1 h
  unfold State.logical
  rw [List.findIdx?_eq_some_iff_getElem]
  refine ⟨hq, by simpa using he, fun j hj => ?_⟩
  have hjl : j < s.lmap.length := hj.trans hq
  rw [beq_iff_eq]
  intro hjp
  have := nodup_place hn (List.getElem?_eq_some_iff.2 ⟨hjl, hjp⟩) h
  omega

theorem logical_none {s : State} {P : Nat} (h : P ∉ s.lmap) : s.logical P = none := by
  unfold State.logical
  rw [List.findIdx?_eq_none_iff]
  intro x hx
  exact beq_eq_false_iff_ne.2 (fun e => h (e ▸ hx))

/-- Whether messages can still reach cluster cl, whose logical number is q. -/
def coming (s : State) (cl q : Nat) : Bool :=
  s.msgs.any (fun m => !m.active && !m.lost && m.cl == q && !pathDown s (dieOf (clusterOf m.sender)) (dieOf cl))

theorem execClusterRemap_idle {s : State} {cl : Nat} (h : cl ∉ s.lmap ∨ cl ∉ s.quarCl ∨ s.nlive ≤ 1) : exec (.clusterRemap cl) s = .next s := by
  show execClusterRemap cl s = .next s
  unfold execClusterRemap
  cases hq : s.logical cl with
  | none => rfl
  | some q =>
    have hm : ¬ cl ∉ s.lmap := fun hm => by rw [logical_none hm] at hq; cases hq
    have : s.quarCl.contains cl = false ∨ s.nlive ≤ 1 ∨ coming s cl q = true := by
      rcases h.resolve_left hm with h | h
      · exact .inl (by simpa using h)
      · exact .inr (.inl h)
    exact congrArg Host.Outcome.next (if_pos this)

/-- Every backlog has its bound. -/
theorem room_iff (t : State) : t.clusters.all (fun c => decide (c.2.backlog.length ≤ 2 ^ 20)) = true ↔ Backlogged (2 ^ 20) t := by
  simp [List.all_eq_true, Backlogged]

theorem execClusterRemap_full {s s1 : State} {cl q : Nat} {items : List Sent} (hn : s.lmap.Nodup) (hq : s.lmap[q]? = some cl)
    (hi : allItems s.stores s = .ok (items, s1)) (hr : ¬ Backlogged (2 ^ 20) (leaveMap s1 cl q items)) : exec (.clusterRemap cl) s = .next s := by
  rw [← room_iff] at hr
  simp only [exec, execClusterRemap, logical_of_place hn hq, hi, if_neg hr, ite_self]

theorem execClusterRemap_leaves {s s1 : State} {cl q : Nat} {items : List Sent} (hn : s.lmap.Nodup) (hq : s.lmap[q]? = some cl) (hc : cl ∈ s.quarCl)
    (h1 : 1 < s.nlive) (hm : ∀ y ∈ s.msgs, y.active = true ∨ y.lost = true ∨ y.cl ≠ q)
    (hi : allItems s.stores s = .ok (items, s1)) (hr : Backlogged (2 ^ 20) (leaveMap s1 cl q items)) :
    exec (.clusterRemap cl) s = .next (leaveMap s1 cl q items) := by
  have hcom : coming s cl q = false := by
    simp only [coming, List.any_eq_false]
    intro y hy
    rcases hm y hy with h | h | h <;> simp [h]
  have hno : ¬ (s.quarCl.contains cl = false ∨ s.nlive ≤ 1 ∨ coming s cl q = true) := by
    rw [hcom]; simp [hc]; omega
  rw [← room_iff] at hr
  unfold coming at hno
  simp only [exec, execClusterRemap, logical_of_place hn hq, if_neg hno, hi, if_pos hr]

/-- What the change of the map leaves, wherever it takes place. -/
theorem leaveMap_spec {s s1 : State} {cl q : Nat} (items : List Sent) (hi : MapInv s) (hq : s.lmap[q]? = some cl) (hs : SameMap s s1) :
    let t := leaveMap s1 cl q items
    MapInv t ∧ t.nlive = s.nlive - 1 ∧ cl ∉ t.lmap ∧ (∀ p, p < s.nlive - 1 → p ≠ q → t.lmap[p]? = s.lmap[p]?)
      ∧ (q < s.nlive - 1 → t.lmap[q]? = s.lmap[s.nlive - 1]?) := by
  intro t
  obtain ⟨hl, hn⟩ := hi
  have hlt : q < s.lmap.length := (List.getElem?_eq_some_iff.1 hq).1
  obtain ⟨m1, m2⟩ := leaveMap_map s1 cl q items
  rw [hs.lmap, hs.nlive, hl] at m1
  rw [hs.nlive, hl] at m2
  simp only [t, hl]
  refine ⟨⟨by rw [m1, m2, mapWithout_length], by rw [m1]; exact mapWithout_nodup hn hlt⟩, m2, by rw [m1]; exact mapWithout_not_mem hn hq,
    fun p hp hpq => ?_, fun hp => ?_⟩
  · rw [m1, mapWithout_getElem? hlt, if_pos hp, if_neg hpq]
  · rw [m1, mapWithout_getElem? hlt, if_pos hp, if_pos rfl]

end Sys2Proof.Machine
end

section
/-! The clauses of R24 to R28 and R352 to R360 put together. -/

namespace Sys2Proof

open Sys2Proof.Machine

/-- A replay as the obligation words it: whether the wait is discarded is a proposition. -/
theorem replays_of {j : Instr} {s t : State} {u : Nat} {m : Margin} {b : Bool} {drops : Prop} (he : exec j s = .next t)
    (h : Replays s t u m (if b then .none else (s.core u).wait)) (hb : b = true ↔ drops) :
    ∃ t, exec j s = .next t ∧ t.mem = s.mem ∧ (∀ v, v ≠ u → t.core v = s.core v)
      ∧ t.core u = { s.core u with mgn := m, sample := some (replaySample s u), wait := (t.core u).wait }
      ∧ (drops → (t.core u).wait = .none) ∧ (¬ drops → (t.core u).wait = (s.core u).wait)
      ∧ ∀ k, (s.core u).wait = .semaphore k → ∀ p ∈ mget (t.tile (tileOf u)).semq k [], p.1 ≠ u := by
  obtain ⟨h1, h2, h3, h4⟩ := h
  refine ⟨t, he, h1, h2, ?_, fun hd => ?_, fun hd => ?_, h4⟩
  · rw [h3]
  · rw [h3, if_pos (hb.2 hd)]
  · rw [h3, if_neg (fun x => hd (hb.1 x))]

/-- Settles O60: the core's own steps, the sealing of a core and of a cluster, and the map without the cluster. -/
theorem errorsAndQuarantine : Obligations.ErrorsAndQuarantine := by
  intro s s1 u i q cl task items P c m holds slotFree due runs requeues parked replays changes count near pins newStep killed last room
  have hreq : c.wait.requeued = true ↔ requeues := Wait.requeued_iff c.wait
  have hpark : (c.wait.requeued || c.wait.parked) = true ↔ (requeues ∨ parked) := by
    rw [Bool.or_eq_true]; exact or_congr hreq (Wait.parked_iff c.wait)
  have hruns : runs → replayable s u = true := (replayable_iff s u).2
  have hkill : ∀ {j t cause sub}, exec j s = .next t → Killed s t u cause sub → killed j cause sub :=
    fun he ⟨r, h⟩ => ⟨_, r, he, h⟩
  refine ⟨fun hd h => ?_, fun hd hr hs hf => ?_, execWatchdogExpiry_early, fun h => ?_, fun h hm => ?_, replaySample_spec s u, fun h hm hs hx => ?_,
    fun h hm hs => ?_, fun h hm => ?_, fun h hm l hl => ?_, fun h hm => ?_, ?_, ?_, ?_, execCoreKill_idle, fun h1 h2 hw => ?_,
    fun h1 h2 hw hh ht hg => ?_, fun hx hs ht hl => ?_, execTaskRestart_waits, fun h1 h2 hw hq => ?_, fun h => ?_, execSupervisorError_spec s cl,
    fun hi hq hc h1 hm h => ?_, fun hi hq ha hr => execClusterRemap_full hi.2 hq ha hr, execClusterRemap_idle⟩
  · exact ⟨_, execWatchdogExpiry_latches hd h, ⟨rfl, fun v hv => by simp [State.setCore_core, hv]⟩, by simp [c]⟩
  · obtain ⟨z, h1, h2, h3, h4, h5⟩ := takeTrap_free (s := s) (u := u) (t := .plain .watchdog) nofun rfl rfl hf
    refine ⟨_, z, execWatchdogExpiry_traps hd hr hs, ?_⟩
    rw [h1]
    exact ⟨rfl, h3, h2, rfl, h4, rfl, rfl, h5⟩
  · exact ⟨execShadowLatchReplay_idle (not_replayable h), execCheckerMismatch_idle (not_replayable h)⟩
  · exact replays_of (execShadowLatchReplay_again (hruns h) hm) (replay_replays s u _) hreq
  · have he := execShadowLatchReplay_back (hruns h) hm hs hx
    rw [Margin.stepBack_eq] at he
    exact replays_of he (replay_replays s u _) hreq
  · exact hkill (execShadowLatchReplay_silent (hruns h) hm hs) (silentEnd_killed _ u).of_mgn
  · exact replays_of (execCheckerMismatch_again (hruns h) hm) (dropParked_replays s u _) hpark
  · obtain ⟨h1, -, h3, -⟩ := dropParked_replays s u m.mismatched
    obtain ⟨d1, d2⟩ := dropParked_replay_defers m.mismatched hl
    rw [if_pos (by rw [hl]; rfl)] at h3
    refine ⟨_, execCheckerMismatch_again (hruns h) hm, ?_⟩
    rw [h3]
    exact ⟨rfl, rfl, rfl, rfl, d1, d2, h1⟩
  · exact hkill (execCheckerMismatch_silent (hruns h) hm) (silentEnd_killed _ u).of_mgn
  · exact ⟨_, rfl, modCore_mgn_onlyCore s u (fun x => { x with recent := recentEvents x.recent s.now })⟩
  · exact ⟨_, rfl, modCore_mgn_onlyCore s u (fun x => { x with settling := false })⟩
  · exact ⟨_, rfl, modCore_mgn_onlyCore s u (fun x => { x with soft := x.soft + 1 })⟩
  · exact hkill (execCoreKill_kills h1 h2) (execCoreKill_killed hw)
  · obtain ⟨y, h3, h4⟩ := loseCore_torn hh.1 hh.2 ht hg
    exact ⟨_, y, execCoreKill_kills h1 h2, by rw [writeOwed_tcbs]; exact h3, h4⟩
  · obtain ⟨h1, h2⟩ := enterLevel_ready hx
    exact ⟨_, _, execTaskRestart_ready hx hs ht hl, h1, rfl, h2⟩
  · obtain ⟨h3, h4, h5⟩ := quarantine_spec h2 h1
    exact ⟨_, rfl, h3, h4, fun v hv => (h5 hw hq v hv).1⟩
  · simp only [exec, execClusterQuarantine, quarantine_idle h]
  · rcases h with ⟨ha, hr⟩ | ⟨he, h2, h3, h4⟩
    · exact ⟨_, execClusterRemap_leaves hi.2 hq hc h1 hm ha hr, leaveMap_spec items hi hq (allItems_sameMap ha)⟩
    · have ha : allItems s.stores s = .ok ([], s) := by rw [he]; rfl
      exact ⟨_, execClusterRemap_leaves hi.2 hq hc h1 hm ha ((leaveMap_orderly q h2 h3).room _ h4), leaveMap_spec [] hi hq (SameMap.refl s)⟩

end Sys2Proof
end

section
/-! Words and their decoding (R33, R34, R38, R46 to R52): what a halfword makes of the prefixes before it, and the words that the spec prints. -/

namespace Sys2Proof

/-- Of the prefixes at most four are taken (R38). -/
theorem takePrefix_count {p q : Prefixes} {op x : Nat} (h : takePrefix p op x = .ok q) : p.count < 4 ∧ q.count = p.count + 1 := by
  unfold takePrefix at h
  split at h
  · cases h
  · refine ⟨by omega, ?_⟩
    (repeat' split at h) <;> cases h <;> rfl

/-- Prefixes that are refused make the instruction illegal, whatever follows (R52). -/
theorem takePrefix_refused {p : Prefixes} {op x : Nat} {e : DecodeError} (h : takePrefix p op x = .error e) : e ≠ .truncated := by
  unfold takePrefix at h
  (repeat' split at h) <;> cases h <;> exact nofun

theorem decodeNext_more {p q : Prefixes} {w : Half} (h : decodeNext p w = .more q) : p.count < 4 ∧ q.count = p.count + 1 := by
  unfold decodeNext at h
  dsimp only at h
  split at h
  · split at h
    case h_1 ht => cases h; exact takePrefix_count ht
    case h_2 => cases h
  · split at h <;> cases h

theorem decodeNext_done {p : Prefixes} {w : Half} {i : Instr} {n : Nat} (h : decodeNext p w = .done i n) : n = 2 * (p.count + 1) := by
  unfold decodeNext at h
  dsimp only at h
  split at h
  · split at h <;> cases h
  · split at h <;> cases h
    rfl

/-- A halfword with OP 60 or above stands among the prefixes and is taken or refused (R36, R38). -/
theorem decodeNext_more_or_bad (p : Prefixes) {w : Half} (hw : 0xF000 ≤ w.toNat) :
    (∃ q, decodeNext p w = .more q) ∨ ∃ e, decodeNext p w = .bad e ∧ e ≠ .truncated := by
  have hop : 60 ≤ bitsOf w.toNat 15 10 := by
    have := w.isLt
    unfold bitsOf
    rw [Nat.shiftRight_eq_div_pow]
    omega
  unfold decodeNext
  simp only [if_pos hop]
  cases ht : takePrefix p (bitsOf w.toNat 15 10) (bitsOf w.toNat 9 0) with
  | ok q => exact .inl ⟨q, rfl⟩
  | error e => exact .inr ⟨e, rfl, takePrefix_refused ht⟩

/-- More than four prefixes in a row are illegal, whatever follows them (R38, R52). -/
theorem decodeFrom_tooManyPrefixes (rest : List Half) : ∀ (ws : List Half) (p : Prefixes), p.count ≤ 4 → (∀ w ∈ ws, 0xF000 ≤ w.toNat) →
    4 < p.count + ws.length → ∃ r, decodeFrom p (ws ++ rest) = .error r ∧ r ≠ .truncated
  | [], p, hp, _, hl => absurd hl (by simp; omega)
  | w :: ws, p, hp, hw, hl => by
    rw [List.cons_append, decodeFrom]
    rcases decodeNext_more_or_bad p (hw w List.mem_cons_self) with ⟨q, hq⟩ | ⟨e, he, hne⟩
    · obtain ⟨h4, hc⟩ := decodeNext_more hq
      rw [hq]
      exact decodeFrom_tooManyPrefixes rest ws q (by omega) (fun v hv => hw v (List.mem_cons_of_mem _ hv)) (by rw [List.length_cons] at hl; omega)
    · rw [he]
      exact ⟨e, rfl, hne⟩

theorem listedWordsDecode : ListedWordsDecode :=
  ⟨rfl, rfl, rfl, rfl, rfl, rfl, rfl, rfl, rfl, rfl, rfl, rfl, rfl, rfl, rfl, rfl, rfl, rfl⟩

theorem fifthPrefixIllegal : FifthPrefixIllegal := by
  intro a b c d e rest ha hb hc hd he
  have hw : ∀ w ∈ [a, b, c, d, e], 0xF000 ≤ w.toNat := by
    simp only [List.mem_cons, List.not_mem_nil, or_false, forall_eq_or_imp, forall_eq]
    exact ⟨ha, hb, hc, hd, he⟩
  exact decodeFrom_tooManyPrefixes rest [a, b, c, d, e] Prefixes.none (by decide) hw (Nat.lt_succ_self 4)

/-- Settles O2: each listed word by evaluation of the decoder, and the fifth of five by the bound on the prefixes that are taken. -/
theorem wordsOfTheSpecDecode : Obligations.WordsOfTheSpecDecode := ⟨listedWordsDecode, fifthPrefixIllegal⟩

end Sys2Proof
end

section
/-! The turn of a running core: fetch, decode and issue (R33, R34, R71, R138). -/

namespace Sys2Proof.Machine

/-- Fetching halfwords that decode to one instruction, and none beyond it, gives that instruction (R33, R52). -/
theorem fetchFrom_of_decodeFrom {i : Instr} : ∀ (hs : List Half) (n : Nat) (p : Prefixes) (va : Word) (s s1 : State), p.count + n = 4 →
    decodeFrom p hs = .ok (i, 2 * (p.count + hs.length)) → FetchesHalves hs va s s1 →
    fetchFrom (n + 1) p va s = .ok ((i, 2 * (p.count + hs.length)), s1)
  | [], _, _, _, _, _, _, hd, _ => nomatch hd
  | h :: t, n, p, va, s, s1, hn, hd, ⟨sh, hh, ht⟩ => by
    rw [fetchFrom, M.bind_of_ok hh]
    rw [decodeFrom] at hd
    cases hx : decodeNext p h with
    | more q =>
      rw [hx] at hd
      obtain ⟨hlt, hc⟩ := decodeNext_more hx
      obtain ⟨m, rfl⟩ : ∃ m, n = m + 1 := ⟨n - 1, by omega⟩
      have hlen : p.count + (h :: t).length = q.count + t.length := by rw [List.length_cons]; omega
      rw [hlen] at hd ⊢
      exact fetchFrom_of_decodeFrom t m q _ _ _ (by omega) hd ht
    | done j len =>
      rw [hx] at hd
      have hlen := decodeNext_done hx
      simp only [Except.ok.injEq, Prod.mk.injEq, List.length_cons] at hd
      obtain ⟨rfl, hl⟩ := hd
      obtain rfl : t = [] := List.length_eq_zero_iff.1 (by omega)
      obtain rfl : s1 = sh := ht
      rw [hlen]; rfl
    | bad e => rw [hx] at hd; cases hd

theorem fetchInstr_of_decode {s s1 : State} {hs : List Half} {i : Instr} (hd : decode hs = .ok (i, 2 * hs.length)) (hf : FetchesHalves hs s.pc s s1) :
    fetchInstr s = .ok ((i, 2 * hs.length), s1) := by
  have h0 : Prefixes.none.count + hs.length = hs.length := Nat.zero_add _
  have := fetchFrom_of_decodeFrom hs 4 Prefixes.none s.pc s s1 rfl (by rw [h0]; exact hd) hf
  rwa [h0] at this

/-- Fetching turns to no other core and does not change how requests are performed. -/
theorem fetchesHalves_accessed : ∀ (hs : List Half) (va : Word) (s s1 : State), FetchesHalves hs va s s1 → Accessed s s1
  | [], _, s, _, h => by cases h; exact Accessed.refl s
  | _ :: t, va, _, _, ⟨_, hh, ht⟩ => (fetchHalf_accesses va _ _ _ hh).trans (fetchesHalves_accessed t _ _ _ ht)

/-! ### Issue -/

section
variable (s : State) (u : Nat) (i : Instr) (n : Nat)

/-- In a step that performs its requests no early sample is taken (log entry 6). -/
theorem noteIssue_eager {s : State} (h : s.eager = true) : noteIssue s u i n = s.modCore u (fun c => { c with ilen := n, fetchWait := false }) := by
  unfold noteIssue
  exact if_pos h

theorem noteIssue_frame : noteIssue s u i n = { s with cores := (noteIssue s u i n).cores, freeCtr := (noteIssue s u i n).freeCtr } := by
  unfold noteIssue
  dsimp only
  split
  · rfl
  · split <;> rfl

/-- Of the core that issues, its length, the note that it waits for no fetch, and the early sample alone change (R71). -/
theorem noteIssue_core : (noteIssue s u i n).core u = { s.core u with ilen := n, fetchWait := false, early := ((noteIssue s u i n).core u).early } := by
  unfold noteIssue State.modCore
  dsimp only
  split
  · simp
  · split <;> simp

theorem noteIssue_core_ne {v : Nat} (hv : v ≠ u) : (noteIssue s u i n).core v = s.core v := by
  unfold noteIssue State.modCore
  dsimp only
  split
  · simp [State.setCore_core, hv]
  · split <;> simp [State.setCore_core, hv]

@[simp] theorem noteIssue_skipping : ((noteIssue s u i n).core u).skipping = (s.core u).skipping := by
  rw [noteIssue_core]; rfl

@[simp] theorem noteIssue_cut (r : Req) : r.cut (noteIssue s u i n) = r.cut s := by
  rw [noteIssue_frame]; rfl

@[simp] theorem noteIssue_reqs : (noteIssue s u i n).reqs = s.reqs := by rw [noteIssue_frame]

@[simp] theorem noteIssue_cur : (noteIssue s u i n).cur = s.cur := by rw [noteIssue_frame]

end

/-- An instruction that leads to state t is held back where a retired request of the core, cut off by a failed path, would no longer be on its way (R138, R330). -/
theorem heldBack_iff {s t : State} {i : Instr} (h : exec i s = .next t) :
    heldBack s i = true ↔ ∃ r ∈ s.reqs, r.pendingOf s.cur = true ∧ r.cut s = true ∧ r ∉ t.reqs := by
  unfold heldBack
  simp only [h, Bool.and_eq_true, List.any_eq_true, List.mem_filter, Bool.not_eq_true', List.contains_eq_mem, decide_eq_false_iff_not]
  constructor
  · rintro ⟨-, r, ⟨hr, hp, hc⟩, hn⟩
    exact ⟨r, hr, hp, hc, hn⟩
  · rintro ⟨r, hr, hp, hc, hn⟩
    refine ⟨?_, r, ⟨hr, hp, hc⟩, hn⟩
    rw [List.isEmpty_eq_false_iff]
    exact List.ne_nil_of_mem (List.mem_filter.2 ⟨hr, by rw [hp, hc]; rfl⟩)

/-- The turn of a core that runs and has fetched an instruction outside a skipped body: it waits before an instruction that is held back, and runs any other. -/
theorem coreTurn_fetched {s s1 : State} {i : Instr} {n : Nat} (hrun : (s.core s.cur).canRun = true) (htrap : pendingTrap s s.cur = none)
    (hf : fetchInstr s = .ok ((i, n), s1)) (hskip : (s1.core s.cur).skipping = false) :
    coreTurn s = if heldBack (noteIssue s1 s.cur i n) i then .done s else .run i (noteIssue s1 s.cur i n) := by
  unfold coreTurn
  simp [hrun, htrap, hf, noteIssue_skipping, hskip]

/-- A step in which no other agent moves is the turn of the core (log entry 6). -/
theorem nextTurn_core {s : State} (hm : s.moves = []) : nextTurn s = coreTurn (tick s) := by
  unfold nextTurn
  dsimp only
  rw [show (tick s).moves = [] from hm]

section
variable {s t : State} (hsd : s.sys.shutdown = false) (hm : s.moves = [])
include hsd hm

theorem step_of_done (h : coreTurn (tick s) = .done t) : step s = .next t := by
  rw [step, hsd, nextTurn_core hm, h]
  rfl

theorem step_of_run {i : Instr} (h : coreTurn (tick s) = .run i t) : step s = exec i t := by
  rw [step, hsd, nextTurn_core hm, h]
  rfl

end

end Sys2Proof.Machine

namespace Sys2Proof

open Sys2Proof.Machine

/-- Settles O7: the fetched halfwords are those that the decoder reads, the issue changes what it notes of the core alone, and an instruction is held back where the
state after it has lost a request that a failed path has cut off. -/
theorem stepRunsDecoded : Obligations.StepRunsDecoded := by
  intro s s1 hs i hsd hm hrun htrap hd hf hskip s2 lost
  have hcur : s1.cur = s.cur := by rw [(fetchesHalves_accessed _ _ _ _ hf).1]; rfl
  have hturn : coreTurn (tick s) = if heldBack s2 i then .done (tick s) else .run i s2 :=
    coreTurn_fetched hrun htrap (fetchInstr_of_decode hd hf) hskip
  have hlost : ∀ t, exec i s2 = .next t → (heldBack s2 i = true ↔ lost t) := fun t ht => by
    rw [heldBack_iff ht]
    simp only [s2, lost, noteIssue_reqs, noteIssue_cur, noteIssue_cut, hcur]
  obtain ⟨t, ht⟩ := exec_answers i s2
  have hruns : ¬ lost t → step s = exec i s2 := fun hl => step_of_run hsd hm (by rw [hturn, if_neg (mt (hlost t ht).1 hl)])
  refine ⟨fun t ht hl => ?_, fun hl => hruns (hl t ht), fun he hc => ?_, noteIssue_frame .., fun v hv => noteIssue_core_ne _ _ _ _ hv, noteIssue_core ..⟩
  · exact step_of_done hsd hm (by rw [hturn, if_pos ((hlost t ht).2 hl)])
  · rw [← noteIssue_eager s.cur i _ he]
    refine hruns ?_
    rintro ⟨r, hr, hp, hcut, -⟩
    rw [hc r hr hp] at hcut
    cases hcut

end Sys2Proof
end

section
/-! Code in a scratchpad bank of the fetching core's cluster (R33, R56, R86, R96). -/

namespace Sys2Proof

/-- The numbers from a first one upward are the library's range. -/
theorem upFrom_eq_range' (n : Nat) : ∀ a : Nat, upFrom a n = List.range' a n := by
  induction n with
  | zero => exact fun _ => rfl
  | succ n ih => intro a; rw [upFrom, ih, List.range'_succ]

/-- The place of the first element of a list that meets a condition on place and element, or the list's length: nothing before it meets the condition. -/
theorem firstPlace_spec {α : Type} (l : List α) (p : Nat × α → Bool) :
    (((below l.length).zip l).find? p).elim l.length (fun x => x.1) ≤ l.length
      ∧ ∀ i x, i < (((below l.length).zip l).find? p).elim l.length (fun x => x.1) → l[i]? = some x → p (i, x) = false := by
  have hlen : ((below l.length).zip l).length = l.length := by simp [below]
  have hget : ∀ i (hi : i < ((below l.length).zip l).length), ((below l.length).zip l)[i] = (i, l[i]'(hlen ▸ hi)) := by
    intro i hi
    simp [below, upFrom_eq_range']
  cases hf : ((below l.length).zip l).find? p with
  | none =>
    refine ⟨Nat.le_refl _, fun i x hi hx => ?_⟩
    obtain ⟨hi', rfl⟩ := List.getElem?_eq_some_iff.1 hx
    have := List.find?_eq_none.1 hf _ (List.getElem_mem (by rw [hlen]; exact hi'))
    rw [hget] at this
    simpa using this
  | some y =>
    obtain ⟨-, k, hk, rfl, hbefore⟩ := List.find?_eq_some_iff_getElem.1 hf
    rw [hget]
    refine ⟨Nat.le_of_lt (hlen ▸ hk : k < l.length), fun i x (hi : i < k) hx => ?_⟩
    obtain ⟨hi', rfl⟩ := List.getElem?_eq_some_iff.1 hx
    have := hbefore i hi
    rw [hget] at this
    simpa using this

end Sys2Proof

namespace Sys2Proof.Machine

/-! ### The place of the halfword -/

/-- An address of the local window means the agent's own cluster (R86). -/
theorem localWindow_region (s : State) (P : Nat) {off : Nat} (h : off < 2 ^ 22) :
    regionOf s P (localVa off) = .window P off (4032 + s.logicalNo P) := by
  have h0 := local_region s h
  have hge : ¬ (localVa off).toNat < localWin := by rw [localVa_toNat h]; omega
  have hlt : (localVa off).toNat < localWin + sramSize := by rw [localVa_toNat h]; unfold sramSize; omega
  unfold regionOf at h0 ⊢
  dsimp only at h0 ⊢
  cases hc : canonical (localVa off)
  · rw [hc] at h0; cases h0
  · rw [if_neg hge, if_pos hlt, localVa_toNat h, Nat.add_sub_cancel_left]
    rfl

/-- No link lies between a die of the module and itself (R6). -/
theorem pathDown_self (s : State) {d : Nat} (h : d < 4) : pathDown s d d = false := by
  simp [pathDown, routeOf, Nat.ne_of_lt h]

/-- No renumbering of clusters moves an address of the local window (R97). -/
theorem redirected_local (w : Who) {off : Nat} (h : off < 2 ^ 22) : redirected w (localVa off) = localVa off := by
  have hf : w.moved.find? (fun x => decide (globalWin ≤ (localVa off).toNat) && ((localVa off).toNat - globalWin) / sramSize == x.1) = none := by
    rw [List.find?_eq_none]
    intro x _
    have : ¬ globalWin ≤ (localVa off).toNat := by rw [localVa_toNat h]; unfold localWin globalWin; omega
    simp [this]
  unfold redirected
  rw [hf]

/-- The two bytes at an even offset of the local window lie on one 64 KiB piece (R123). -/
theorem rangeParts_half {off : Nat} (h : off < 2 ^ 22) (h2 : off % 2 = 0) : rangeParts (localVa off) 2 = [(localVa off, 2)] := by
  have hroom : 2 ≤ 65536 - (localVa off).toNat % 65536 := by rw [localVa_toNat h]; unfold localWin; omega
  simp [rangeParts, splitRange, hroom]

/-- A halfword of code at an offset of the local window of the core whose turn it is, as a piece. -/
def codePiece (s : State) (off : Nat) : Piece :=
  { va := localVa off, len := 2, place := .mem (sramLoc (clusterOf s.cur) off), kind := 1, typed := true, repl := false,
    dom := 4032 + s.logicalNo (clusterOf s.cur),
    cut := if pathDown s (dieOf (clusterOf s.cur)) (dieOf (clusterOf s.cur)) then some (dieOf (clusterOf s.cur)) else none }

section
variable {s : State} {off : Nat}

theorem codePiece_cut (hcur : s.cur < 2048) : (codePiece s off).cut = none := by
  unfold codePiece
  rw [pathDown_self s (by unfold dieOf clusterOf; omega)]
  rfl

theorem pieceOf_code (h : off < 2 ^ 22) (hmode : (s.cluster (clusterOf s.cur)).modes[off / 2 ^ 18]? = some 1)
    (hsw : (s.cluster (clusterOf s.cur)).switching = []) (hq : s.quarCl.contains (clusterOf s.cur) = false) :
    pieceOf s.me (localVa off) 2 s = .ok (codePiece s off, s) := by
  unfold pieceOf
  rw [show s.me.cl = clusterOf s.cur from rfl, localWindow_region s _ h]
  simp only [hq, hsw, hmode]
  simp [codePiece, bankOpen]

/-- The two bytes of a halfword lie in one sector (R15). -/
theorem sector_half (P : Nat) (h2 : off % 2 = 0) : (sramLoc P off + 2 - 1) / 64 = sramLoc P off / 64 := by
  unfold sramLoc sramBase sramSize; omega

/-- A halfword of a sector that does not return POISON does not (R358). -/
theorem codePiece_not_poisoned {t : State} (w : Who) (h2 : off % 2 = 0) (hp : t.mem.poison.contains (sramLoc (clusterOf s.cur) off / 64) = false) :
    (codePiece s off).poisoned t w = none := by
  unfold Piece.poisoned codePiece Piece.readLoc
  simp only [Bool.false_eq_true, if_false, sector_half _ h2, Nat.sub_self]
  simp only [upFrom, List.find?_cons, hp, List.find?_nil, Option.map_none]

theorem rightsAll_code {w : Who} {r : Byte} {s0 : State} (hr : rightsM w (4032 + s.logicalNo (clusterOf s.cur)) s = .ok (r, s0)) (hx : r.getLsbD 2 = true) :
    rightsAll w .fetch [codePiece s off] s = .ok ((), s0) := by
  unfold rightsAll
  rw [M.bind_of_ok (show rightsM w (codePiece s off).dom s = .ok (r, s0) from hr),
    M.bind_of_ok (show needM (granted .fetch (codePiece s off).typed r) _ s0 = .ok ((), s0) by rw [granted, hx]; rfl)]
  rfl

/-- What fetching a halfword of a scratchpad may change: the instruction cache and the PLB of core u, and the free choices taken. -/
def FetchAlone (u : Nat) (s t : State) : Prop :=
  t = { s with cores := t.cores, freeCtr := t.freeCtr } ∧ (∀ v, v ≠ u → t.core v = s.core v)
    ∧ t.core u = { s.core u with icache := (t.core u).icache, plb := (t.core u).plb }

theorem FetchAlone.refl (u : Nat) (s : State) : FetchAlone u s s := ⟨rfl, fun _ _ => rfl, rfl⟩

theorem FetchAlone.trans {u : Nat} {s t x : State} (h : FetchAlone u s t) (h' : FetchAlone u t x) : FetchAlone u s x := by
  obtain ⟨h1, h2, h3⟩ := h
  obtain ⟨h1', h2', h3'⟩ := h'
  refine ⟨?_, fun v hv => (h2' v hv).trans (h2 v hv), ?_⟩
  · rw [h1', h1]
  · rw [h3', h3]

theorem FetchAlone.free (u : Nat) (s : State) (f : Nat) : FetchAlone u s { s with freeCtr := f } := ⟨rfl, fun _ _ => rfl, rfl⟩

theorem FetchAlone.modCore {u : Nat} {s : State} {f : Core → Core} (hf : f (s.core u) = { s.core u with icache := (f (s.core u)).icache, plb := (f (s.core u)).plb }) :
    FetchAlone u s (s.modCore u f) := by
  unfold State.modCore
  refine ⟨rfl, fun v hv => by rw [State.setCore_core, if_neg hv], ?_⟩
  rw [State.setCore_core_self]
  exact hf

section
variable {u : Nat} {s t : State}

theorem FetchAlone.mem (h : FetchAlone u s t) : t.mem = s.mem := by rw [h.1]
theorem FetchAlone.past (h : FetchAlone u s t) : t.past = s.past := by rw [h.1]
theorem FetchAlone.icSec (h : FetchAlone u s t) : t.icSec = s.icSec := by rw [h.1]
theorem FetchAlone.icFrom (h : FetchAlone u s t) : (t.core u).icFrom = (s.core u).icFrom := by rw [h.2.2]

theorem FetchAlone.oldFetch (h : FetchAlone u s t) (a : Nat) : t.oldFetch u a = s.oldFetch u a := by
  unfold State.oldFetch
  rw [h.past, h.icSec, h.icFrom]

theorem FetchAlone.halfBack (h : FetchAlone u s t) (d a : Nat) : t.halfBack d a = s.halfBack d a := by
  unfold State.halfBack State.peekBack
  rw [h.past, h.mem]

end

/-- A core's check of its rights fills its PLB at most (R92). -/
theorem rightsM_core {w : Who} {u dom : Nat} {s t : State} {r : Byte} (hw : w.core = some u) (h : rightsM w dom s = .ok (r, t)) :
    FetchAlone u s t ∧ (t.core u).icache = (s.core u).icache := by
  have hfill : ∀ (f : Nat) (plb : Core → List (Nat × Byte)), FetchAlone u s (State.modCore { s with freeCtr := f } u (fun c => { c with plb := plb c }))
      ∧ ((State.modCore { s with freeCtr := f } u (fun c => { c with plb := plb c })).core u).icache = (s.core u).icache := fun f plb =>
    ⟨(FetchAlone.free u s f).trans (FetchAlone.modCore rfl), by unfold State.modCore; rw [State.setCore_core_self]; rfl⟩
  unfold rightsM at h
  rw [hw] at h
  split at h
  · cases h; exact ⟨FetchAlone.refl u s, rfl⟩
  · dsimp only at h
    split at h
    · cases h; exact ⟨FetchAlone.refl u s, rfl⟩
    · split at h <;> cases h
      · exact hfill s.freeCtr _
      · exact hfill (s.freeCtr + 1) _

/-- Orders 2 to 4 of R100 pass for a fetch in a scratchpad bank of the local window where the core may execute (R86, R93, R96). -/
theorem resolve_code {r : Byte} {s0 : State} (h2 : off % 2 = 0) (h : off < 2 ^ 22)
    (hmode : (s.cluster (clusterOf s.cur)).modes[off / 2 ^ 18]? = some 1) (hsw : (s.cluster (clusterOf s.cur)).switching = [])
    (hq : s.quarCl.contains (clusterOf s.cur) = false)
    (hr : rightsM s.me (4032 + s.logicalNo (clusterOf s.cur)) s = .ok (r, s0)) (hx : r.getLsbD 2 = true) :
    resolve s.me .fetch (localVa off) 2 s = .ok ([codePiece s off], s0) := by
  have hpieces : piecesOf s.me [(localVa off, 2)] s = .ok ([codePiece s off], s) := by
    unfold piecesOf
    rw [M.bind_of_ok (pieceOf_code h hmode hsw hq)]
    rfl
  have hexists : ([(localVa off, 2)] : List (Word × Nat)).find? (fun p => regionOf s s.me.cl p.1 == .nothing) = none := by
    simp only [List.find?_cons, localWindow_region s _ h, List.find?_nil]
    rfl
  unfold resolve resolveParts
  rw [redirected_local _ h, rangeParts_half h h2, hexists]
  dsimp only
  rw [M.bind_of_ok hpieces, M.bind_of_ok (rightsAll_code hr hx)]
  rfl

/-- Order 6 of R100 passes for a piece whose path is up and whose sectors are sound. -/
theorem noPoison_sound {p : Piece} {w : Who} {t : State} (hc : p.cut = none) (hp : p.poisoned t w = none) : noPoison w [p] t = .ok ((), t) := by
  unfold noPoison
  rw [hc]
  dsimp only
  rw [hp]
  rfl

/-- A core's read of a piece whose path is down waits for the path (R138, R330). -/
theorem noPoison_cut {p : Piece} {w : Who} {t : State} {e : Nat} (hc : p.cut = some e) (hw : w.core.isSome = true) :
    noPoison w [p] t = .error (.wait (.path p.va (dieOf w.cl) e t.now)) := by
  unfold noPoison
  rw [hc]
  dsimp only
  rw [hw, Bool.true_or, if_pos rfl]

/-- The place of a fetched halfword, where all checks pass (R51, R100). -/
theorem fetchPiece_of_sound {va : Word} {p : Piece} {s0 : State} (hr : resolve s.me .fetch va 2 s = .ok ([p], s0))
    (hp : noPoison s.me [p] s0 = .ok ((), s0)) : fetchPiece va s = .ok (p, s0) := by
  unfold fetchPiece
  rw [M.bind_of_ok hr, M.bind_of_ok hp]
  rfl

/-- A fetch whose last check waits goes no further. -/
theorem fetchHalf_of_wait {va : Word} {p : Piece} {s0 : State} {w : Wait} (hr : resolve s.me .fetch va 2 s = .ok ([p], s0))
    (hp : noPoison s.me [p] s0 = .error (.wait w)) : fetchHalf va s = .error (.wait w) := by
  have hpiece : fetchPiece va s = .error (.wait w) := by
    unfold fetchPiece
    rw [M.bind_of_ok hr, M.bind_of_error hp]
  exact M.bind_of_error hpiece

end

/-! ### Its bytes -/

/-- Which performed writes the fetch may be ahead of: none from the newest that the core must fetch on (R56, R130, R208). -/
theorem oldFetch_spec (s : State) (u a : Nat) :
    s.oldFetch u a ≤ s.past.length
      ∧ ∀ i r, i < s.oldFetch u a → s.past[i]? = some r → r.touches a = true → ¬ MustFetch s u a i r := by
  obtain ⟨hle, hbefore⟩ := firstPlace_spec s.past (fun (x : Nat × Replaced) =>
    x.2.touches a && (decide (s.past.length - 1 - x.1 < mget s.icSec (sectorOf a) 0) || (match x.2.core with
      | none => true
      | some v => decide (s.past.length - 1 - x.1 < mget (s.core u).icFrom v 0))))
  refine ⟨hle, fun i r hi hr ht hm => ?_⟩
  have h := hbefore i r hi hr
  dsimp only at h
  rw [ht, Bool.true_and, Bool.or_eq_false_iff, decide_eq_false_iff_not] at h
  obtain ⟨hsec, hcore⟩ := h
  rcases hm with hm | hm
  · exact hsec hm
  · cases hc : r.core with
    | none => rw [hc] at hcore; cases hcore
    | some v => rw [hc] at hcore hm; exact of_decide_eq_false hcore hm

/-- A location that none of the newest writes has touched held before them what it holds. -/
theorem peekBack_untouched {s : State} {d a : Nat} (h : ∀ i r, i < d → s.past[i]? = some r → ∀ w ∈ r.was, w.1 ≠ a) :
    s.peekBack d a = s.mem.peek a := by
  have hnone : (s.past.take d).reverse.findSome? (fun r => r.was.find? (fun w => w.1 == a)) = none := by
    rw [List.findSome?_eq_none_iff]
    intro r hr
    obtain ⟨i, hi, rfl⟩ := List.mem_iff_getElem.1 (List.mem_reverse.1 hr)
    rw [List.length_take] at hi
    rw [List.find?_eq_none]
    intro w hw
    have := h i _ (by omega) (List.getElem?_eq_getElem (by omega)) w (by rwa [List.getElem_take] at hw)
    simpa using this
  unfold State.peekBack
  rw [hnone]
  rfl

theorem halfBack_eq (s : State) (d a : Nat) :
    s.halfBack d a = BitVec.ofNat 16 ((s.peekBack d a).toNat + 256 * (s.peekBack d (a + 1)).toNat) := by
  simp [State.halfBack, leNat]

/-- A halfword that none of the newest writes has touched is its two bytes as they stand. -/
theorem halfBack_untouched {s : State} {d a : Nat} (h : ∀ i r, i < d → s.past[i]? = some r → r.touches a = false) :
    s.halfBack d a = BitVec.ofNat 16 ((s.mem.peek a).toNat + 256 * (s.mem.peek (a + 1)).toNat) := by
  have hw : ∀ i r, i < d → s.past[i]? = some r → ∀ w ∈ r.was, w.1 ≠ a ∧ w.1 ≠ a + 1 := fun i r hi hr w hw => by
    simpa using List.any_eq_false.1 (h i r hi hr) w hw
  rw [halfBack_eq, peekBack_untouched fun i r hi hr w hm => (hw i r hi hr w hm).1, peekBack_untouched fun i r hi hr w hm => (hw i r hi hr w hm).2]

/-- Beyond the instruction cache a fetch outside UO pages finds the halfword before some of the writes that it may be ahead of; in a step that performs its
requests, as it stands (R56). -/
theorem fetchBytes_age (w : Who) {p : Piece} (u loc : Nat) (s : State) (hk : p.kind ≠ 2) (hrepl : p.repl = false) :
    ∃ d f, d ≤ s.oldFetch u loc ∧ (s.eager = true → d = 0) ∧ fetchBytes w p u loc s = .ok (s.halfBack d loc, { s with freeCtr := f }) := by
  have hloc : p.readLoc w loc = loc := by simp [Piece.readLoc, hrepl]
  unfold fetchBytes
  rw [if_neg (fun h => hk h.1), hloc]
  dsimp only
  split
  · exact ⟨0, s.freeCtr, Nat.zero_le _, fun _ => rfl, rfl⟩
  · next hne =>
    refine ⟨Config.freeNat s.freeCtr % (s.oldFetch u loc + 1), s.freeCtr + 1, Nat.le_of_lt_succ (Nat.mod_lt _ (Nat.succ_pos _)), fun he => ?_, rfl⟩
    rw [he] at hne
    exact absurd rfl hne

/-- A halfword that the instruction cache does not hold is the fetched one, which the cache takes in (R56). -/
theorem cachedHalf_miss {u loc : Nat} {s : State} (new : Half) (h : mfind (s.core u).icache loc = none) :
    cachedHalf u loc new s = .ok (new, s.modCore u (fun c => { c with icache := mset c.icache loc new })) := by
  unfold cachedHalf
  rw [h]

/-! ### The fetch -/

/-- A halfword is fetched where its place is memory, its bytes are read there, and the instruction cache gives them (R33, R56). -/
theorem fetchHalf_of_parts {va : Word} {s s0 s1 t : State} {p : Piece} {loc : Nat} {b h : Half} (hu : s0.cur = s.cur) (hplace : p.place = .mem loc)
    (hp : fetchPiece va s = .ok (p, s0)) (hb : fetchBytes s0.me p s.cur loc s0 = .ok (b, s1))
    (hc : cachedHalf s.cur (p.readLoc s0.me loc) b s1 = .ok (h, t)) : fetchHalf va s = .ok (h, t) := by
  rw [← hu] at hb hc
  unfold fetchHalf
  rw [M.bind_of_ok hp, M.bind_of_ok (M.get_apply s0), hplace]
  dsimp only
  rw [M.bind_of_ok hb]
  exact hc

section
variable {s s0 : State} {off : Nat} {r : Byte} (hcur : s.cur < 2048) (h2 : off % 2 = 0) (h : off < 2 ^ 22)
    (hmode : (s.cluster (clusterOf s.cur)).modes[off / 2 ^ 18]? = some 1) (hsw : (s.cluster (clusterOf s.cur)).switching = [])
    (hq : s.quarCl.contains (clusterOf s.cur) = false) (hp : s.mem.poison.contains (sramLoc (clusterOf s.cur) off / 64) = false)
    (hic : mfind (s.core s.cur).icache (sramLoc (clusterOf s.cur) off) = none)
    (hr : rightsM s.me (4032 + s.logicalNo (clusterOf s.cur)) s = .ok (r, s0)) (hx : r.getLsbD 2 = true)
include hcur h2 h hmode hsw hq hp hic hr hx

/-- A fetch from a scratchpad bank of the local window by a core of the module (R1) passes its checks and gives the halfword before some of the writes that it may be
ahead of. -/
theorem fetchHalf_code :
    ∃ d t, fetchHalf (localVa off) s = .ok (s.halfBack d (sramLoc (clusterOf s.cur) off), t) ∧ FetchAlone s.cur s t
      ∧ d ≤ s.oldFetch s.cur (sramLoc (clusterOf s.cur) off) ∧ (s.eager = true → d = 0) := by
  obtain ⟨halone, hkept⟩ := rightsM_core (u := s.cur) rfl hr
  have hcur0 : s0.cur = s.cur := by rw [halone.1]
  have heager0 : s0.eager = s.eager := by rw [halone.1]
  have hpiece : fetchPiece (localVa off) s = .ok (codePiece s off, s0) :=
    fetchPiece_of_sound (resolve_code h2 h hmode hsw hq hr hx)
      (noPoison_sound (codePiece_cut hcur) (codePiece_not_poisoned s.me h2 (by rw [halone.mem]; exact hp)))
  obtain ⟨d, f, hd, heager, hbytes⟩ := fetchBytes_age s0.me (p := codePiece s off) s.cur (sramLoc (clusterOf s.cur) off) s0 (show 1 ≠ 2 by decide) rfl
  rw [halone.oldFetch] at hd
  rw [halone.halfBack] at hbytes
  have hcached := cachedHalf_miss (s := { s0 with freeCtr := f }) (u := s.cur) (s.halfBack d (sramLoc (clusterOf s.cur) off)) (hkept ▸ hic)
  refine ⟨d, _, fetchHalf_of_parts hcur0 rfl hpiece hbytes hcached, ?_, hd, fun he => heager (heager0 ▸ he)⟩
  exact (halone.trans (FetchAlone.free s.cur s0 f)).trans (FetchAlone.modCore rfl)

/-- What the statement of O8 says, for each core of the module (R1): O8 names a core by any number. -/
theorem fetchReadsScratchpad_of_cur_lt :
    let loc := sramLoc (clusterOf s.cur) off
    ∃ s1 h n, fetchHalf (localVa off) s = .ok (h, s1)
      ∧ h = BitVec.ofNat 16 ((s.peekBack n loc).toNat + 256 * (s.peekBack n (loc + 1)).toNat) ∧ n ≤ s.past.length
      ∧ (∀ i r, i < n → s.past[i]? = some r → r.touches loc = true → ¬ MustFetch s s.cur loc i r)
      ∧ (s.eager = true ∨ (∀ i r, s.past[i]? = some r → r.touches loc = true → MustFetch s s.cur loc i r) →
          h = BitVec.ofNat 16 ((s.mem.peek loc).toNat + 256 * (s.mem.peek (loc + 1)).toNat))
      ∧ s1.mem = s.mem ∧ s1.tiles = s.tiles ∧ s1.clusters = s.clusters ∧ (∀ v, v ≠ s.cur → s1.core v = s.core v)
      ∧ s1.core s.cur = { s.core s.cur with icache := (s1.core s.cur).icache, plb := (s1.core s.cur).plb } := by
  intro loc
  obtain ⟨d, t, hfetch, ⟨hframe, hothers, hself⟩, (hd : d ≤ s.oldFetch s.cur loc), heager⟩ := fetchHalf_code hcur h2 h hmode hsw hq hp hic hr hx
  obtain ⟨hle, hmay⟩ := oldFetch_spec s s.cur loc
  have hskipped : ∀ i r, i < d → s.past[i]? = some r → r.touches loc = true → ¬ MustFetch s s.cur loc i r := fun i r hi => hmay i r (by omega)
  refine ⟨t, _, d, hfetch, halfBack_eq s d loc, by omega, hskipped, fun hnow => halfBack_untouched fun i r hi hr => ?_,
    by rw [hframe], by rw [hframe], by rw [hframe], hothers, hself⟩
  rcases hnow with he | hall
  · exact absurd hi (by rw [heager he]; omega)
  · rw [Bool.eq_false_iff]
    exact fun ht => hskipped i r hi hr ht (hall i r hr ht)

end

end Sys2Proof.Machine

namespace Sys2Proof

open Sys2Proof.Machine

/-- A state in which core 2048 could execute from the local window: scratchpad banks in its cluster, number 64, and the right to execute there. The links have been
brought up, and none has trained. -/
def core2048 : State :=
  { State.reset with
    cur := 2048, rights := [(4096, 4)], clusters := [(64, { Cluster.reset with modes := Vector.replicate 16 1 })],
    sys := { State.reset.sys with bring := 2 } }

/-- Refutes O8: a core number beyond the 2,048 of the module has its cluster on no compute die, and die number 4 means the hub, whose path may be down. Core 2048 then
waits for the path to its own scratchpad. For the cores that there are, `fetchReadsScratchpad_of_cur_lt` proves what the statement says. -/
theorem not_fetchReadsScratchpad : ¬ Obligations.FetchReadsScratchpad := by
  unfold Obligations.FetchReadsScratchpad
  intro h
  have hrights : rightsM core2048.me (4032 + core2048.logicalNo 64) core2048 = .ok (4, core2048.modCore 2048 (fun c => { c with plb := [(4096, 4)] })) := rfl
  have hcut : (codePiece core2048 0).cut = some 4 := rfl
  have hwaits := fetchHalf_of_wait (resolve_code (off := 0) rfl (by decide) rfl rfl rfl hrights rfl) (noPoison_cut hcut rfl)
  obtain ⟨s1, x, n, hok, -⟩ := h core2048 0 rfl (by decide) rfl rfl rfl rfl rfl ⟨4, _, hrights, rfl⟩
  rw [hwaits] at hok
  cases hok

end Sys2Proof
end


section
/-! Scalar instructions of two sources and of one (R63, R65, R66). -/

namespace Sys2Proof.Machine

/-! ## Results as the tables give them -/

/-- The product of the sign-extensions to 128 bits is the exact product, so its high half is the quotient by 2^64 (R63). -/
theorem mulHigh_eq (x y : Word) : mulHigh x y = ((x.signExtend 128 * y.signExtend 128) >>> 64).setWidth 64 := by
  have hprod : x.signExtend 128 * y.signExtend 128 = BitVec.ofInt 128 (x.toInt * y.toInt) := (BitVec.ofInt_mul ..).symm
  rw [mulHigh, hprod]
  generalize x.toInt * y.toInt = z
  apply BitVec.eq_of_toNat_eq
  rw [BitVec.toNat_setWidth, BitVec.toNat_ushiftRight, BitVec.toNat_ofInt, BitVec.toNat_ofInt, Nat.shiftRight_eq_div_pow]
  omega

/-- Truncated division of integers is that of words, with -2^63 / -1 wrapping (R63). -/
theorem divSigned_eq (x y : Word) : divSigned x y = if y = 0 then 0 else x.sdiv y := by
  have hquot : BitVec.ofInt 64 (x.toInt.tdiv y.toInt) = x.sdiv y :=
    BitVec.eq_of_toInt_eq (by rw [BitVec.toInt_ofInt, BitVec.toInt_sdiv])
  rw [divSigned, hquot]

theorem divUnsigned_eq (x y : Word) : divUnsigned x y = if y = 0 then 0 else x / y := by
  rw [divUnsigned, word, BitVec.udiv_def]

theorem remSigned_eq (x y : Word) : remSigned x y = if y = 0 then 0 else x - y * (if y = 0 then 0 else x.sdiv y) := by
  rw [remSigned, divSigned_eq]

/-- A shift goes by the low six bits of its second operand. -/
theorem shift_eq (f : Word → Nat → Word) (x y : Word) : f x (shiftAmt y) = f x (y.setWidth 6).toNat :=
  congrArg (f x) (BitVec.toNat_setWidth (i := 6) (x := y)).symm

theorem minSigned_eq (x y : Word) : minSigned x y = if y.slt x then y else x := by
  simp only [minSigned, BitVec.slt_iff_toInt_lt, ← Int.not_le, ite_not]

/-- The two forms of a maximum choose differently only between equal operands. -/
theorem maxSigned_eq (x y : Word) : maxSigned x y = if x.slt y then y else x := by
  simp only [maxSigned, BitVec.slt_iff_toInt_lt]
  rcases Int.lt_trichotomy x.toInt y.toInt with h | h | h
  · rw [if_pos h, if_pos (Int.le_of_lt h)]
  · rw [BitVec.eq_of_toInt_eq h, ite_self, ite_self]
  · rw [if_neg (Int.not_le.2 h), if_neg (Int.not_lt.2 (Int.le_of_lt h))]

theorem flagWord_ult (x y : Word) : flagWord (x.ult y) = if x < y then 1 else 0 := by
  simp only [flagWord, BitVec.ult_iff_lt]

/-- Counting down from bit n - 1, the first set bit is the one that the binary logarithm names (R65). -/
theorem leadingZeros_eq (x : Word) : ∀ n : Nat, x.toNat < 2 ^ n → leadingZeros x n = if x = 0 then n else n - 1 - x.toNat.log2
  | 0, h => by
    have hx : x = 0 := BitVec.eq_of_toNat_eq (by simpa using h)
    rw [if_pos hx, leadingZeros]
  | n + 1, h => by
    rw [leadingZeros, bitAt, BitVec.getLsbD]
    by_cases hlow : x.toNat < 2 ^ n
    · rw [Nat.testBit_lt_two_pow hlow, if_neg Bool.false_ne_true, leadingZeros_eq x n hlow]
      split
      · omega
      · next hx =>
        have hlog : x.toNat.log2 < n := (Nat.log2_lt fun h0 => hx (BitVec.eq_of_toNat_eq h0)).2 hlow
        omega
    · have hge : 2 ^ n ≤ x.toNat := Nat.le_of_not_lt hlow
      have hx0 : x.toNat ≠ 0 := (Nat.lt_of_lt_of_le (Nat.two_pow_pos n) hge).ne'
      have hx : x ≠ 0 := fun h0 => hx0 (congrArg BitVec.toNat h0)
      have hlog : x.toNat.log2 = n := (Nat.log2_eq_iff hx0).2 ⟨hge, h⟩
      rw [Nat.testBit_of_two_pow_le_and_two_pow_add_one_gt hge h, if_pos rfl, if_neg hx, hlog]
      omega

theorem countOnes_eq (x : Word) (n : Nat) : countOnes x n = (List.range n).countP (fun k => x.getLsbD k) := by
  induction n with
  | zero => rfl
  | succ n ih => rw [countOnes, List.range_succ, List.countP_append, ih, List.countP_singleton, bitAt, Nat.add_comm]

/-- Twice an offset is the offset added twice (R40). -/
theorem State.target_eq (s : State) (off : Word) : s.target off = s.pc + off + off := by
  rw [State.target, two_mul, add_assoc]

/-! ## The instructions -/

/-- The register form and the immediate form of an instruction write the same function of their second operand (R62). Where the operation that carries them out computes
`f`, and `w` is that function as the table writes it, they write what the table gives. -/
theorem writesG_of_alu {i j : Instr} {s : State} {d a b : GReg} {v : Word} (f w : Word → Word → Word) (hw : ∀ x y, f x y = w x y)
    (hi : exec i s = alu f d a (.reg b) s) (hj : exec j s = alu f d a (.imm v) s) :
    WritesG i s d (w (s.rg a) (s.rg b)) ∧ WritesG j s d (w (s.rg a) v) := by
  rw [← hw, ← hw]
  exact ⟨writesG_of hi, writesG_of hj⟩

end Sys2Proof.Machine

namespace Sys2Proof

open Sys2Proof.Machine

/-- SEL alone reads its destination's old value, so its operation depends on the state (R63). -/
theorem scalarArithmeticResults : ScalarArithmeticResults := fun s d _ _ _ =>
  ⟨writesG_of_alu (· + ·) _ (fun _ _ => rfl) rfl rfl, writesG_of_alu (· - ·) _ (fun _ _ => rfl) rfl rfl,
    writesG_of_alu (· * ·) _ (fun _ _ => rfl) rfl rfl, writesG_of_alu _ _ mulHigh_eq rfl rfl, writesG_of_alu _ _ divSigned_eq rfl rfl,
    writesG_of_alu _ _ divUnsigned_eq rfl rfl, writesG_of_alu _ _ remSigned_eq rfl rfl,
    writesG_of_alu (fun x y => if s.rg d ≠ 0 then x else y) _ (fun _ _ => ite_not ..) rfl rfl, writesG_of_alu (· &&& ·) _ (fun _ _ => rfl) rfl rfl,
    writesG_of_alu (· ||| ·) _ (fun _ _ => rfl) rfl rfl, writesG_of_alu (· ^^^ ·) _ (fun _ _ => rfl) rfl rfl⟩

theorem scalarShiftsAndComparisons : ScalarShiftsAndComparisons := fun _ _ _ _ _ =>
  ⟨writesG_of_alu _ _ (shift_eq BitVec.sshiftRight) rfl rfl, writesG_of_alu _ _ (shift_eq (· <<< ·)) rfl rfl,
    writesG_of_alu _ _ (shift_eq (· >>> ·)) rfl rfl, writesG_of_alu _ _ minSigned_eq rfl rfl, writesG_of_alu _ _ maxSigned_eq rfl rfl,
    writesG_of_alu (fun x y => flagWord (x.slt y)) _ (fun _ _ => rfl) rfl rfl, writesG_of_alu _ _ flagWord_ult rfl rfl⟩

/-- Settles O10: each of the two tables is read off the operation that `exec` runs, with its result brought into the table's form. -/
theorem scalarTwoSource : Obligations.ScalarTwoSource := ⟨scalarArithmeticResults, scalarShiftsAndComparisons⟩

/-- Settles O11: the counts of the model, which go down bit by bit, are the logarithm and the count of set bits. -/
theorem singleSource : Obligations.SingleSource := by
  intro s d a v x
  have hclz : word (leadingZeros x 64) = BitVec.ofNat 64 (if x = 0 then 64 else 63 - x.toNat.log2) := by
    rw [leadingZeros_eq x 64 x.isLt]; rfl
  have hpopc : word (countOnes x 64) = BitVec.ofNat 64 ((List.range 64).countP (fun k => x.getLsbD k)) :=
    congrArg word (countOnes_eq x 64)
  refine ⟨writesG_of ?_, writesG_of ?_, writesG_of rfl, writesG_of rfl, writesG_of ?_⟩
  · rw [← hclz]; rfl
  · rw [← hpopc]; rfl
  · rw [← State.target_eq]; rfl

end Sys2Proof
end

section
/-! Branches, jumps and the repeat loop (R68 to R71, R74, R75, R78 to R80). -/

namespace Sys2Proof.Machine

/-! ## Retirement and transfer without a result -/

/-- Retirement of the instruction of the core whose turn it is. -/
theorem retire_spec (s : State) :
    OnlyCore s (retire s) s.cur ∧ RetiredFrom (s.core s.cur) ((retire s).core s.cur) s.now ∧ Sequenced (s.core s.cur) ((retire s).core s.cur)
      ∧ ((retire s).core s.cur).g = (s.core s.cur).g ∧ ((retire s).core s.cur).v = (s.core s.cur).v := by
  have hself : (retire s).core s.cur = ((s.core s.cur).retireCounts s.now).seqNext (s.core s.cur).nextPc := retireCore_core_self s s.cur
  refine ⟨⟨rfl, fun v hv => retireCore_core_ne s hv⟩, ?_⟩
  rw [hself]
  refine ⟨?_, Core.seqNext_sequenced .., Core.seqNext_g .., Core.seqNext_v ..⟩
  obtain ⟨_, _, _, _, hshape⟩ := ((s.core s.cur).retireCounts s.now).seqNext_shape (s.core s.cur).nextPc
  rw [hshape]
  rfl

/-- A transfer after a write of g0 is the transfer (R45, R64). -/
theorem transfer_wg_zero (s : State) (w a : Word) : transfer (s.wg 0 w) a = transfer s a := by
  have h0 : (s.core s.cur).wg 0 w = s.core s.cur := rfl
  have hstale : (s.setCore s.cur (s.core s.cur)).staleHalf s.cur = s.staleHalf s.cur := by
    unfold State.staleHalf
    rw [State.setCore_core_self]
    rfl
  have hrefetch : ∀ c : Core, c.refetch (s.setCore s.cur (s.core s.cur)) s.cur = c.refetch s s.cur := fun c => by
    unfold Core.refetch
    rw [hstale]
    rfl
  simp only [transfer, transferCore, State.wg, h0, State.modCore_eq, State.setCore_cur, State.setCore_core_self, State.setCore_now, hrefetch]
  simp only [State.setCore, mset_mset]

theorem transfersTo_of_transfer {i : Instr} {s : State} {a : Word} (h : exec i s = .next (transfer s a)) : TransfersTo i s a 0 0 :=
  transfersTo_of (by rw [transfer_wg_zero]; exact h)

/-- A transfer of the core whose turn it is. -/
theorem transfer_spec (s : State) (a : Word) :
    OnlyCore s (transfer s a) s.cur ∧ Transferred s s.cur (s.core s.cur) ((transfer s a).core s.cur) a
      ∧ ((transfer s a).core s.cur).g = (s.core s.cur).g ∧ ((transfer s a).core s.cur).v = (s.core s.cur).v := by
  have hself : (transfer s a).core s.cur = (((s.core s.cur).retireCounts s.now).jump a).refetch s s.cur := transferCore_core_self s s.cur a
  refine ⟨⟨rfl, fun v hv => transferCore_core_ne s hv a⟩, ?_⟩
  rw [hself]
  exact ⟨Core.jump_transferred .., Core.jump_g _ a, Core.jump_v _ a⟩

/-! ## Branches -/

/-- What a branch does by a condition (R68): it goes to its address plus twice the offset, or on in sequence; it writes no register. -/
def BranchesOn (i : Instr) (s : State) (off : Word) (p : Prop) : Prop :=
  (p → TransfersTo i s (s.pc + off + off) 0 0) ∧ (¬ p → FallsThrough i s)

theorem branchesOn_of {i : Instr} {s : State} {off : Word} {taken : Bool} {p : Prop} (h : exec i s = branch taken off s) (hp : taken = true ↔ p) :
    BranchesOn i s off p := by
  refine ⟨fun hy => transfersTo_of_transfer ?_, fun hn => completes_of ?_ (SameCore.refl s)⟩
  · rw [h, branch, if_pos (hp.2 hy), State.target_eq]
  · rw [h, branch, if_neg (mt hp.1 hn)]

/-- A replay goes by the bit that its branch has sampled, and takes no sample of its own (R71). -/
theorem sampledCond_of_sample {s : State} {u q : Nat} {w : BitVec 16} (h : (s.core u).sample = some w) : sampledCond s u q = (w.getLsbD q, s) := by
  unfold sampledCond
  rw [h]

/-- With no earlier sample to choose from, the sample is the condition as it stands (R71; log entry 6). -/
theorem sampledCond_live {s : State} {u q : Nat} (h : (s.core u).sample = none) (he : s.eager = true ∨ (s.core u).early = none) :
    sampledCond s u q = (queueCond s u q, s) := by
  unfold sampledCond
  rw [h]
  rcases he with he | he
  · rw [he]
    cases (s.core u).early <;> rfl
  · rw [he]

/-- The state after a sample for which an earlier one stood: the choice between them has been made, and the earlier one is gone. -/
def earlyTaken (s : State) (u : Nat) : State := s.tickFree.modCore u (fun c => { c with early := none })

/-- A sample that may stand before the accesses that the branch follows is the earlier one or the condition as it stands (R71; log entry 6). -/
theorem sampledCond_early {s : State} {u q : Nat} {w : BitVec 16} (hs : (s.core u).sample = none) (hw : (s.core u).early = some w)
    (he : s.eager = false) :
    ∃ b, sampledCond s u q = (b, earlyTaken s u) ∧ (b = w.getLsbD q ∨ b = queueCond s u q) := by
  unfold sampledCond
  rw [hs, hw, he]
  refine ⟨_, rfl, ?_⟩
  split
  · exact .inl rfl
  · exact .inr rfl

theorem earlyTaken_core (s : State) (u : Nat) : (earlyTaken s u).core u = { s.core u with early := none } := State.setCore_core_self ..

theorem earlyTaken_core_ne (s : State) {u v : Nat} (hv : v ≠ u) : (earlyTaken s u).core v = s.core v := by
  unfold earlyTaken State.modCore
  rw [State.setCore_core, if_neg hv, State.tickFree_core]

theorem earlyTaken_target (s : State) (off : Word) : (earlyTaken s s.cur).target off = s.pc + off + off := by
  rw [State.target_eq, State.pc, show (earlyTaken s s.cur).cur = s.cur from rfl, earlyTaken_core]
  rfl

/-- A branch after a sample for which an earlier one stood: taken or not, it changes of the module's cores its own alone, and of that no register file. -/
theorem branch_earlyTaken (s : State) (taken : Bool) (off : Word) :
    ∃ t, branch taken off (earlyTaken s s.cur) = .next t ∧ (t.core s.cur).g = (s.core s.cur).g ∧ (t.core s.cur).v = (s.core s.cur).v
      ∧ (∀ u, u ≠ s.cur → t.core u = s.core u) ∧ t.mem = s.mem
      ∧ (if taken then (t.core s.cur).pc = s.pc + off + off else Sequenced (s.core s.cur) (t.core s.cur)) := by
  have hcur : (earlyTaken s s.cur).cur = s.cur := rfl
  have hcore := earlyTaken_core s s.cur
  cases taken with
  | true =>
    obtain ⟨⟨hframe, hothers⟩, ⟨hpc, -⟩, hg, hv⟩ := transfer_spec (earlyTaken s s.cur) ((earlyTaken s s.cur).target off)
    rw [hcur] at hothers hpc hg hv
    rw [hcore] at hg hv
    exact ⟨_, rfl, hg, hv, fun u hu => (hothers u hu).trans (earlyTaken_core_ne s hu), by rw [hframe]; rfl, hpc.trans (earlyTaken_target s off)⟩
  | false =>
    obtain ⟨⟨hframe, hothers⟩, -, hseq, hg, hv⟩ := retire_spec (earlyTaken s s.cur)
    rw [hcur] at hothers hseq hg hv
    rw [hcore] at hseq hg hv
    exact ⟨_, rfl, hg, hv, fun u hu => (hothers u hu).trans (earlyTaken_core_ne s hu), by rw [hframe]; rfl,
      Sequenced.of_same hseq rfl rfl rfl rfl rfl⟩

/-! ## The queue conditions -/

/-- Conditions q2 to q5: something stands in the receive side of a port (R70). -/
theorem queueCond_rx {s : State} {u p : Nat} (hp : p < 4) : queueCond s u (2 + p) = !(portList (s.core u).rxPorts p).isEmpty := by
  unfold queueCond
  rw [if_neg (by omega), if_neg (by omega), if_pos (by omega), Nat.add_sub_cancel_left]

/-- Conditions q6 to q9: the send side of a port is full (R70). -/
theorem queueCond_tx {s : State} {u p : Nat} (hp : p < 4) : queueCond s u (6 + p) = ((portList (s.core u).txPorts p).length == 4) := by
  unfold queueCond
  rw [if_neg (by omega), if_neg (by omega), if_neg (by omega), if_pos (by omega), Nat.add_sub_cancel_left]

/-- Conditions from q10 up: a semaphore of the tile is not 0 (R70). -/
theorem queueCond_sem {s : State} {u k : Nat} : queueCond s u (10 + k) = ((s.tile (tileOf u)).rs (BitVec.ofNat 4 k) != 0) := by
  unfold queueCond
  rw [if_neg (by omega), if_neg (by omega), if_neg (by omega), if_neg (by omega), Nat.add_sub_cancel_left]

/-! ## The branches on queue conditions -/

section
variable {i : Instr} {s : State} {q : QReg} {off : Word} {p : Bool → Bool} {w : BitVec 16}
    (h : exec i s = branch (p (sampledCond s s.cur q.toNat).1) off (sampledCond s s.cur q.toNat).2)
include h

theorem branchesOn_live {P : Prop} (hP : p (queueCond s s.cur q.toNat) = true ↔ P) (hs : (s.core s.cur).sample = none)
    (he : s.eager = true ∨ (s.core s.cur).early = none) : BranchesOn i s off P := by
  rw [sampledCond_live hs he] at h
  exact branchesOn_of h hP

theorem branchesOn_replay {P : Prop} (hP : p (w.getLsbD q.toNat) = true ↔ P) (hs : (s.core s.cur).sample = some w) : BranchesOn i s off P := by
  rw [sampledCond_of_sample hs] at h
  exact branchesOn_of h hP

/-- Where the step does not perform its requests, the branch goes by an earlier sample or by the condition as it stands (R71; log entry 6). -/
theorem branches_early (he : s.eager = false) (hs : (s.core s.cur).sample = none) (hw : (s.core s.cur).early = some w) :
    ∃ t, exec i s = .next t ∧ (t.core s.cur).g = (s.core s.cur).g ∧ (t.core s.cur).v = (s.core s.cur).v
      ∧ (∀ u, u ≠ s.cur → t.core u = s.core u) ∧ t.mem = s.mem
      ∧ ((p (w.getLsbD q.toNat) = true ∨ p (queueCond s s.cur q.toNat) = true) ∧ (t.core s.cur).pc = s.pc + off + off
          ∨ (p (w.getLsbD q.toNat) = false ∨ p (queueCond s s.cur q.toNat) = false) ∧ Sequenced (s.core s.cur) (t.core s.cur)) := by
  obtain ⟨b, hb, hsrc⟩ := sampledCond_early (q := q.toNat) hs hw he
  rw [hb] at h
  obtain ⟨t, ht, hg, hv, hothers, hmem, hgoes⟩ := branch_earlyTaken s (p b) off
  refine ⟨t, h.trans ht, hg, hv, hothers, hmem, ?_⟩
  have hone : ∀ r, p b = r → p (w.getLsbD q.toNat) = r ∨ p (queueCond s s.cur q.toNat) = r := by
    rcases hsrc with rfl | rfl
    · exact fun _ => .inl
    · exact fun _ => .inr
  cases hp : p b with
  | true => rw [hp] at hgoes; exact .inl ⟨hone true hp, hgoes⟩
  | false => rw [hp] at hgoes; exact .inr ⟨hone false hp, hgoes⟩

end

/-! ## The repeat loop -/

/-- A core that REP has placed at the first instruction of its loop's body (R78). -/
def Core.repeating (c : Core) (now : Nat) (a : GReg) (n : BitVec 7) : Core :=
  { c.retireCounts now with lcnt := c.rg a, lbeg := sext56 c.nextPc, lend := word (2 * n.toNat + 1), pc := c.nextPc, from_ := 0 }

theorem execRep_idle {s : State} {a : GReg} {n : BitVec 7} (h : (s.core s.cur).loopIdle = true) :
    exec (.rep a n) s = .next (s.setCore s.cur ((s.core s.cur).repeating s.now a n)) := by
  show execRep a n s = _
  rw [execRep, h]
  rfl

theorem execRep_inside {s : State} {a : GReg} {n : BitVec 7} (h : (s.core s.cur).loopIdle = false) :
    exec (.rep a n) s = .next (takeTrap s s.cur (.plain .illegalOp)) := by
  show execRep a n s = _
  rw [execRep, h]
  rfl

/-- The turn of a core in the skipping state that has fetched a legal instruction: it retires without effect (R79). -/
theorem coreTurn_skipped {s s1 : State} {i : Instr} {n : Nat} (hrun : (s.core s.cur).canRun = true) (htrap : pendingTrap s s.cur = none)
    (hf : fetchInstr s = .ok ((i, n), s1)) (hskip : (s1.core s.cur).skipping = true) (hlegal : opIllegal (noteIssue s1 s.cur i n) i = false) :
    coreTurn s = .done (retire (noteIssue s1 s.cur i n)) := by
  unfold coreTurn
  simp [hrun, htrap, hf, noteIssue_skipping, hskip, hlegal]

end Sys2Proof.Machine

namespace Sys2Proof

open Sys2Proof.Machine

theorem branchResults : BranchResults := by
  intro s a b q off x y goal goes c early
  have hge : (!x.slt y) = true ↔ y.toInt ≤ x.toInt := by
    rw [Bool.not_eq_true', BitVec.slt, decide_eq_false_iff_not, Int.not_lt]
  have hgeu : (!x.ult y) = true ↔ y.toNat ≤ x.toNat := by
    rw [Bool.not_eq_true', BitVec.ult, decide_eq_false_iff_not, Nat.not_lt]
  have hclear : ∀ k : Bool, (!k) = true ↔ k = false := fun k => by rw [Bool.not_eq_true']
  exact ⟨branchesOn_of rfl beq_iff_eq, branchesOn_of rfl bne_iff_ne, branchesOn_of rfl BitVec.slt_iff_toInt_lt, branchesOn_of rfl hge,
    branchesOn_of rfl decide_eq_true_iff, branchesOn_of rfl hgeu,
    fun hs he => ⟨branchesOn_live (p := id) rfl Iff.rfl hs he, branchesOn_live (p := not) rfl (hclear _) hs he⟩,
    fun w hs => ⟨branchesOn_replay (p := id) rfl Iff.rfl hs, branchesOn_replay (p := not) rfl (hclear _) hs⟩,
    fun w he hs hw => branches_early (p := id) rfl he hs hw, fun w he hs hw => branches_early (p := not) rfl he hs hw⟩

theorem queueConditionResults : QueueConditionResults := by
  intro s u
  refine ⟨?_, ?_, fun p hp => ⟨?_, ?_⟩, fun k hk => ?_⟩
  · simp [queueCond]
  · simp [queueCond]
  · rw [queueCond_rx hp, portList]; simp
  · rw [queueCond_tx hp, portList, beq_iff_eq]
  · rw [queueCond_sem, bne_iff_ne]

/-- Settles O12: a branch by its test, and a queue branch by where its sample comes from. -/
theorem branchesAndQueueConditions : Obligations.BranchesAndQueueConditions := ⟨branchResults, queueConditionResults⟩

/-- Settles O13: each jump is a link and a transfer, and JR tests bit 0 of its target before both. -/
theorem jumpsAndLinks : Obligations.JumpsAndLinks := by
  intro s d a off
  have hjr : exec (.jr d a) s = if bitAt (s.rg a) 0 then .next (takeTrap s s.cur (.at .align (s.rg a))) else .next (transfer (s.wg d s.nextPc) (s.rg a)) := rfl
  refine ⟨transfersTo_of_transfer ?_, transfersTo_of ?_, fun heven => transfersTo_of ?_, fun hodd => ?_⟩
  · rw [← State.target_eq]; rfl
  · rw [← State.target_eq]; rfl
  · rw [hjr, bitAt, heven]; rfl
  · exact trapsWith_of (t := .at .align (s.rg a)) (by rw [hjr, bitAt, hodd]; rfl) rfl rfl (show Cause.align ≠ .pageFault by decide)

theorem repeatSetup : RepeatSetup := by
  intro s a n c
  refine ⟨fun hcnt hend => ?_, fun hin => trapsWith_of (execRep_inside ?_) rfl rfl (show Cause.illegalOp ≠ .pageFault by decide)⟩
  · have hidle : c.loopIdle = true := (Core.loopIdle_iff c).2 ⟨hcnt, hend⟩
    refine ⟨_, execRep_idle hidle, ⟨rfl, fun v hv => ?_⟩, ?_⟩
    · rw [State.setCore_core, if_neg hv]
    · rw [State.setCore_core_self]
      exact ⟨rfl, rfl, rfl, rfl, rfl, rfl, rfl⟩
  · rw [Bool.eq_false_iff, Ne, Core.loopIdle_iff, not_and_or, Bool.not_eq_false]
    exact hin

theorem skippedBody : SkippedBody := by
  intro s s1 i n hsd hm hrun htrap hf hskip s2 hlegal
  have hacc : Accessed (tick s) s1 := fetchInstr_accesses _ _ _ hf
  have hcur : s2.cur = s.cur := (noteIssue_cur ..).trans hacc.cur
  have hissue : s2.core s.cur = { s1.core s.cur with ilen := n, fetchWait := false, early := (s2.core s.cur).early } := noteIssue_core ..
  have hframe : s2 = { s1 with cores := s2.cores, freeCtr := s2.freeCtr } := noteIssue_frame ..
  have hnow : s2.now = s1.now := by rw [hframe]
  have hstep : step s = .next (retire s2) := step_of_done hsd hm (coreTurn_skipped hrun htrap hf hskip hlegal)
  obtain ⟨honly, hret, hseq, hg, hv⟩ := retire_spec s2
  rw [hcur] at honly hret hseq hg hv
  rw [hnow] at hret
  refine ⟨_, hstep, honly, hret, by rw [hissue], by rw [hframe], hseq, ?_, ?_⟩
  · rw [hg, hissue]; exact hacc.g s.cur
  · rw [hv, hissue]; exact hacc.v s.cur

/-- Settles O14: REP tests whether the loop registers are idle, and a legal instruction of a skipped body does nothing but retire. -/
theorem repeatLoops : Obligations.RepeatLoops := ⟨repeatSetup, skippedBody⟩

end Sys2Proof
end

section
/-! Memory stays canonical: the operations of cores, rings and tasks. -/

namespace Sys2Proof

open Machine

variable {s t : State}

/-! ## How the facts are put together

`MemoryInv s` speaks of `s.mem` alone, so it holds of every update of other fields of `s` by definition; the lemmas of this part are named after the
operations and chain: `.retire (.setHead h)`. -/

theorem MemoryInv.of_accessed (h : MemoryInv s) (ha : Accessed s t) : MemoryInv t := ha.2.2.2 h
theorem MemoryInv.of_mem (h : MemoryInv s) (e : t.mem = s.mem) : MemoryInv t := by unfold MemoryInv; rw [e]; exact h

theorem MemoryInv.ite {c : Prop} [Decidable c] (hs : MemoryInv s) (ht : MemoryInv t) : MemoryInv (if c then s else t) := by
  split
  · exact hs
  · exact ht

theorem MemoryInv.foldl {β : Type} {f : State → β → State} (hf : ∀ s b, MemoryInv s → MemoryInv (f s b)) :
    ∀ (l : List β) {s : State}, MemoryInv s → MemoryInv (l.foldl f s)
  | [], _, h => h
  | b :: l, _, h => MemoryInv.foldl hf l (hf _ b h)

/-- An operation that only accesses memory keeps it canonical. -/
theorem Accesses.keepsMemory {α : Type} {m : M α} (h : Accesses m) : Keeps MemoryInv m := fun s a t hs e => hs.of_accessed (h s a t e)

/-- An operation that accesses memory and then goes on. -/
theorem Machine.Keeps.access {α β : Type} {m : M α} {f : α → M β} (hm : Accesses m) (hf : ∀ a, Keeps MemoryInv (f a)) : Keeps MemoryInv (m >>= f) :=
  .bind hm.keepsMemory hf

/-- Writing one state for another inside an operation. -/
theorem Machine.Keeps.set {P : State → Prop} {t : State} (h : P t) : Keeps P (MonadStateOf.set t : M PUnit) := by
  intro s a u _ e; cases e; exact h

/-- An operation that first reads the state may use what holds of it. -/
theorem Machine.Keeps.get_bind {α : Type} {P : State → Prop} {f : State → M α} (hf : ∀ s, P s → Keeps P (f s)) : Keeps P (MonadState.get >>= f) := by
  intro s a t h e
  obtain ⟨x, s', h1, h2⟩ := M.bind_ok.1 e
  cases h1
  exact hf s h s a t h h2

/-! ## Cores, tiles and traps -/

theorem MemoryInv.setTile (h : MemoryInv s) {k : Nat} {x : Tile} : MemoryInv (s.setTile k x) := h
theorem MemoryInv.modCore (h : MemoryInv s) {u : Nat} {f : Core → Core} : MemoryInv (s.modCore u f) := h
theorem MemoryInv.modCluster (h : MemoryInv s) {P : Nat} {f : Cluster → Cluster} : MemoryInv (s.modCluster P f) := h
theorem MemoryInv.mapCores (h : MemoryInv s) {f : Nat → Core → Core} : MemoryInv (s.mapCores f) := h
theorem MemoryInv.mapTiles (h : MemoryInv s) {f : Nat → Tile → Tile} : MemoryInv (s.mapTiles f) := h
theorem MemoryInv.modTile (h : MemoryInv s) {k : Nat} {f : Tile → Tile} : MemoryInv (s.modTile k f) := h
theorem MemoryInv.wg (h : MemoryInv s) {r : GReg} {w : Word} : MemoryInv (s.wg r w) := h
theorem MemoryInv.wv (h : MemoryInv s) {r : VReg} {x : VVal} : MemoryInv (s.wv r x) := h
theorem MemoryInv.retireCore (h : MemoryInv s) {u : Nat} : MemoryInv (retireCore s u) := h
theorem MemoryInv.retire (h : MemoryInv s) : MemoryInv (retire s) := h
theorem MemoryInv.parkCore (h : MemoryInv s) {u : Nat} {w : Wait} : MemoryInv (parkCore s u w) := h

theorem MemoryInv.modTask (h : MemoryInv s) {P i : Nat} {f : Task → Task} : MemoryInv (s.modTask P i f) := by
  unfold State.modTask; split
  · exact h
  · exact h

theorem MemoryInv.postShared (h : MemoryInv s) {P : Nat} {src : Source} {r : TrapRecord} : MemoryInv (postShared s P src r) := h
theorem MemoryInv.leaveWait (h : MemoryInv s) {u : Nat} : MemoryInv (leaveWait s u) := h.of_mem (leaveWait_mem s u)
theorem MemoryInv.dropWait (h : MemoryInv s) {u : Nat} : MemoryInv (dropWait s u) := h.leaveWait (u := u)

theorem MemoryInv.writeReserved (h : MemoryInv s) {u : Nat} {r : TrapRecord} : MemoryInv (writeReserved s u r) := by
  unfold Machine.writeReserved; exact .ite h h

theorem MemoryInv.takeTrap (h : MemoryInv s) {u : Nat} {x : Trap} : MemoryInv (takeTrap s u x) := by
  unfold Machine.takeTrap; exact .ite (h.dropWait (u := u)) h.dropWait.writeReserved

end Sys2Proof
end

section
/-! Memory stays canonical: the instructions of the load and store class and of atomics. -/

namespace Sys2Proof

open Machine

variable {s t : State}

/-! ## Instructions that are operations of M -/

theorem MemoryInv.finish (h : MemoryInv s) {m : M Flow} (hm : Keeps MemoryInv m) {u : Nat} : MemoryInv (finish s u (m s)) := by
  unfold Machine.finish
  split
  case h_5 => exact h.takeTrap
  case h_6 => exact h.parkCore
  all_goals rename_i e; have ht := hm _ _ _ h e
  · exact ht.retireCore
  · exact ht
  · exact ht
  · exact ht.takeTrap

theorem Machine.Keeps.setG {d : GReg} {v : Word} : Keeps MemoryInv (setG d v) := Keeps.modify fun _ h => h.wg
theorem Machine.Keeps.setV {d : VReg} {x : VVal} : Keeps MemoryInv (setV d x) := Keeps.modify fun _ h => h.wv

/-! ## Loads and stores -/

theorem MemoryInv.storeEntry (h : MemoryInv s) {u : Nat} {e : SbEntry} : MemoryInv (storeEntry s u e) := storeEntry_wf s u e h
theorem MemoryInv.performWrites (h : MemoryInv s) {ws : List (Nat × Byte)} : MemoryInv (performWrites s ws) := performWrites_wf s ws h
theorem MemoryInv.flushWhere (h : MemoryInv s) {u : Nat} {p : Req → Bool} : MemoryInv (flushWhere s u p) := flushWhere_wf s u p h
theorem MemoryInv.drainThrough (h : MemoryInv s) {u : Nat} {p : SbEntry → Bool} : MemoryInv (drainThrough s u p) := drainThrough_wf s u p h
theorem MemoryInv.acquire (h : MemoryInv s) {u : Nat} : MemoryInv (acquire s u) := h.of_mem (acquire_mem s u)
theorem MemoryInv.releaseTo (h : MemoryInv s) {u n : Nat} : MemoryInv (releaseTo s u n) := releaseTo_wf s u n h
theorem MemoryInv.fenceAt (h : MemoryInv s) {u n : Nat} : MemoryInv (fenceAt s u n) := fenceAt_wf s u n h

theorem loadG_keeps (n : Nat) (ext : Nat → Word) (d : GReg) (ea : Word) : Keeps MemoryInv (loadG n ext d ea) :=
  .access (loadScalar_accesses ea n) fun _ => .bind .setG fun _ => .pure _

theorem storeG_keeps (n : Nat) (v ea : Word) : Keeps MemoryInv (storeG n v ea) :=
  .access (storeScalar_accesses ea n v false) fun _ => .pure _

theorem noNotify_accesses (ps : List Piece) : Accesses (noNotify ps) := by
  unfold noNotify; split
  · exact .trap _
  · exact .pure _

theorem readRange_accesses (w : Who) (acc : Acc) (va : Word) (n : Nat) : Accesses (readRange w acc va n) :=
  .bind (resolve_accesses w acc va n) fun ps => .bind (noNotify_accesses ps) fun _ => .bind (noPoison_accesses w ps) fun _ =>
    .bind (readPieces_accesses w ps) fun _ => .pure _

theorem storeRun_accesses (w : Who) (edge : Nat) : ∀ (n : Nat) (va : Word) (bs : List Byte), Accesses (storeRun w edge n va bs)
  | 0, _, _ => .pure _
  | n + 1, va, bs => by
    unfold storeRun; split
    · exact .pure _
    · exact .bind (storeBytes_accesses _ _ _ _ _ _) fun _ => storeRun_accesses w edge n _ _

theorem expandRun_keeps (d : VReg) (a : GReg) : Keeps MemoryInv (expandRun d a) := by
  unfold expandRun
  refine .bind .get fun s => .access (resolve_accesses _ _ _ _) fun ps => .access (noNotify_accesses ps) fun _ => ?_
  split
  · refine .access (noPoison_accesses _ _) fun _ => .access (readPieces_accesses _ _) fun hb => ?_
    dsimp only
    split
    · exact .bind .setV fun _ => .pure _
    · refine .access (readRange_accesses _ _ _ _) fun mask => ?_
      have last : ∀ x y, Keeps MemoryInv (do setV d x; setG (pairHigh a) y; pure Flow.next) :=
        fun _ _ => .bind .setV fun _ => .bind .setG fun _ => .pure _
      split
      · exact .bind (.pure _) fun _ => last _ _
      · exact .access (readRange_accesses _ _ _ _) fun _ => last _ _
  · exact .trap _

theorem packRun_keeps (a : GReg) (b : VReg) : Keeps MemoryInv (packRun a b) := by
  unfold packRun
  refine .bind .get fun s => .access (resolve_accesses _ _ _ _) fun ps => .access (noNotify_accesses ps) fun _ => ?_
  split
  · refine .access (ringsFree_accesses ps) fun _ => .access (noPoison_accesses _ _) fun _ =>
      .access (readPieces_accesses _ _) fun hb => ?_
    extract_lets n cap v
    split
    · exact .trap _
    split
    · exact .trap _
    refine .access (resolveParts_accesses _ _ _) fun all => .access (noNotify_accesses all) fun _ =>
      .access (ringsFree_accesses all) fun _ => .access (noPoison_accesses _ _) fun _ =>
      .access (readPieces_accesses _ _) fun mb => .access (readPieces_accesses _ _) fun vb =>
      .access (storeRun_accesses _ _ _ _ _) fun _ => .access (storeRun_accesses _ _ _ _ _) fun _ =>
      .access (storeRun_accesses _ _ _ _ _) fun _ => .bind .setG fun _ => .pure _
  · exact .trap _

theorem futurePlace_accesses (ea : Word) (acc : Acc) : Accesses (futurePlace ea acc) := by
  unfold futurePlace
  refine .bind (aligned_accesses _ _) fun _ => .bind .get fun s => .bind (resolve_accesses _ _ _ _) fun ps => ?_
  split
  · split
    · split
      · exact .trap _
      · exact .pure _
    · exact .trap _
  · exact .trap _

theorem beforeFuture_accesses (p : Piece) (loc : Nat) : Accesses (beforeFuture p loc) := by
  intro s a t e
  cases e
  have h := (drainThrough_accessed s s.cur (fun e => e.release || e.touches loc 8 || (p.kind == 0 && e.so))).trans
    (flushWhere_accessed _ (drainThrough s s.cur (fun e => e.release || e.touches loc 8 || (p.kind == 0 && e.so))).cur
      (fun r => (p.kind == 0 && r.so) || r.touches loc 8))
  dsimp only
  split
  · exact h.trans (sendHome_accessed ..)
  · exact h

theorem loadFuture_keeps (d : GReg) (ea : Word) : Keeps MemoryInv (loadFuture d ea) := by
  have got : ∀ v, Keeps MemoryInv (do modify (fun s => Machine.acquire s s.cur); setG d v; pure Flow.next) :=
    fun _ => .bind (.modify fun _ h => h.acquire) fun _ => .bind .setG fun _ => .pure _
  unfold loadFuture
  refine .bind .get fun s => ?_
  split
  · exact got _
  · refine .access (futurePlace_accesses ea .load) ?_
    rintro ⟨p, loc⟩
    refine .access (noPoison_accesses s.me [p]) fun _ => .access (beforeFuture_accesses p loc) fun _ => .bind .get fun t => ?_
    extract_lets v
    split
    · exact got _
    · split
      · exact .bind (.modify fun _ h => h) fun _ => .pure _
      · exact .bind (.modify fun _ h => h) fun _ => .pure _

theorem storeFuture_keeps (v ea : Word) : Keeps MemoryInv (storeFuture v ea) :=
  .access (futurePlace_accesses ea .store) fun ⟨p, loc⟩ => .access (beforeFuture_accesses p loc) fun _ =>
    .bind (.modify fun _ h => h.storeEntry) fun _ => .pure _

/-! ## Atomics and ordering -/

theorem remoteAtomic_keeps (op : AtomOp) (d : GReg) (e : Nat) (va : Word) : Keeps MemoryInv (remoteAtomic op d e va) := by
  unfold remoteAtomic
  refine .get_bind fun s h => ?_
  extract_lets u r t
  have ht : MemoryInv t := h
  split
  · exact .pure _
  split
  · exact .bind (.set (.ite ht.flushWhere ht)) fun _ => .pure _
  split
  · have hf := farReply_accessed { t with reqs := s.reqs } va (some op)
    split
    · rename_i v s' e; rw [e] at hf
      exact .bind (.set (MemoryInv.of_accessed ht hf)) fun _ => .bind .setG fun _ => .pure _
    · exact .trap _
  · exact .bind (.set ht.parkCore) fun _ => .pure _

theorem atomic_keeps (op : AtomOp) (d a b : GReg) : Keeps MemoryInv (atomic op d a b) := by
  unfold atomic
  refine .bind .get fun s => .access (aligned_accesses _ _) fun _ => .access (resolve_accesses _ _ _ _) fun ps => ?_
  split
  · refine .bind (.need _ _) fun _ => .access (ringsFree_accesses _) fun _ => ?_
    split
    · exact .bind (.need _ _) fun _ => remoteAtomic_keeps _ _ _ _
    · refine .bind (.modify fun _ h => h.drainThrough.flushWhere) fun _ => .get_bind fun s1 h1 => .bind (.need _ _) fun _ => .bind (.need _ _) fun _ => ?_
      split
      · exact .pure _
      split
      · have hr := homeReply_accessed s1 op s1.cur (s.rg a) ‹_› ‹Piece›.repl (s1.rg b) (s1.rg d)
        split
        · rename_i e; rw [e] at hr
          exact .bind (.set (h1.of_accessed hr)) fun _ => .bind .setG fun _ => .pure _
        · rename_i e; rw [e] at hr
          split
          · exact .bind (.set (h1.of_accessed hr).postShared) fun _ => .pure _
          · exact .trap _
      · extract_lets r
        refine .bind (.set h1) fun _ => ?_
        split
        · exact .pure _
        · exact .bind (.modify fun _ h => h.parkCore) fun _ => .pure _
    · refine .bind (.need _ _) fun _ => ?_
      split
      · exact .pure _
      split
      · exact .bind (.modify fun _ h => h.postShared) fun _ => .pure _
      · exact .trap _
    · exact .trap _
  · exact .trap _

theorem MemoryInv.beforeAcquire (h : MemoryInv s) {u : Nat} {ps : List Piece} : MemoryInv (beforeAcquire s u ps) := h.drainThrough.flushWhere

theorem MemoryInv.crossLinks (h : MemoryInv s) {ps : List Piece} : MemoryInv (crossLinks s ps) := by
  refine MemoryInv.foldl (fun s p h => ?_) ps h
  split
  · exact h.of_mem (roundTrip_mem ..)
  · exact h

theorem loadAcquire_keeps (d : GReg) (ea : Word) : Keeps MemoryInv (loadAcquire d ea) :=
  .access (aligned_accesses _ _) fun _ => .bind .get fun _ => .access (resolve_accesses _ _ _ _) fun _ => .bind (.need _ _) fun _ =>
    .access (noPoison_accesses _ _) fun _ => .bind (.modify fun _ h => h.beforeAcquire.acquire) fun _ =>
    .access (readPieces_accesses _ _) fun _ => .bind (.modify fun _ h => h.crossLinks) fun _ => .bind .setG fun _ => .pure _

theorem storeRelease_keeps (v ea : Word) : Keeps MemoryInv (storeRelease v ea) :=
  .access (aligned_accesses _ _) fun _ => .bind .get fun _ => .access (resolve_accesses _ _ _ _) fun ps => .bind (.need _ _) fun _ =>
    .access (ringsFree_accesses ps) fun _ => .access (noDead_accesses ps) fun _ =>
    .access (writePieces_accesses _ _ _ _ _) fun _ => .pure _

theorem waitAtomic_keeps (d a b : GReg) : Keeps MemoryInv (waitAtomic d a b) := by
  unfold waitAtomic
  refine .bind .get fun _ => .access (aligned_accesses _ _) fun _ => .access (resolve_accesses _ _ _ _) fun _ => .bind (.need _ _) fun _ =>
    .access (noPoison_accesses _ _) fun _ => .bind (.modify fun _ h => h.beforeAcquire.acquire) fun _ =>
    .access (readPieces_accesses _ _) fun _ => ?_
  dsimp only
  split
  · exact .bind .setG fun _ => .pure _
  · exact .bind (.modify fun _ h => h.parkCore) fun _ => .pure _

end Sys2Proof
end

section
/-! Memory stays canonical: rings, semaphores and outcomes. -/

namespace Sys2Proof

open Machine

variable {s t : State}

/-! ## Rings and semaphores -/

theorem MemoryInv.ringRef (h : MemoryInv s) {P id : Nat} : MemoryInv (ringRef s P id) := h

theorem MemoryInv.releaseHandle (h : MemoryInv s) {P : Nat} {x : Handle} : MemoryInv (releaseHandle s P x) := by
  unfold Machine.releaseHandle; split
  · exact h
  · exact h

theorem MemoryInv.releaseHandles (h : MemoryInv s) {u : Nat} : MemoryInv (releaseHandles s u) :=
  MemoryInv.foldl (fun _ _ h => h.releaseHandle) _ h

theorem MemoryInv.setHead (h : MemoryInv s) {P a : Nat} {x : BitVec 32} : MemoryInv (setHead s P a x) := h.performWrites
theorem MemoryInv.setTail (h : MemoryInv s) {P a : Nat} {x : BitVec 32} : MemoryInv (setTail s P a x) := h.performWrites

theorem MemoryInv.settle (h : MemoryInv s) {c : MCmd} : MemoryInv (settle s c) := by
  unfold Machine.settle; split
  · exact .ite (.ite h h) (.ite h h)
  · exact h

theorem MemoryInv.bindRing (h : MemoryInv s) {P a id : Nat} (e : bindRing s P a = some (id, t)) : MemoryInv t := by
  unfold Machine.bindRing at e
  split at e
  · cases e; exact h.ringRef
  · split at e
    · cases e; exact h
    · cases e

theorem bindHandle_keeps (d : HReg) (va use : Word) : Keeps MemoryInv (bindHandle d va use) := by
  unfold bindHandle
  refine .bind (.need _ _) fun _ => .get_bind fun s h => ?_
  extract_lets P free
  have hf : MemoryInv free := h.releaseHandle
  split
  · exact .bind (.set hf) fun _ => .pure _
  split
  · exact .bind (.need _ _) fun _ => .bind (.set hf) fun _ => .pure _
  · refine .access (aligned_accesses _ _) fun _ => .access (resolve_accesses _ _ _ _) fun _ => .bind (.need _ _) fun _ =>
      .access (noPoison_accesses _ _) fun _ => .bind (.modify fun _ h => h.drainThrough.flushWhere.releaseHandle) fun _ => .get_bind fun s1 h1 => ?_
    split
    · rename_i e; exact .bind (.set (MemoryInv.bindRing h1 e :)) fun _ => .pure _
    · exact .trap _

theorem MemoryInv.acquireElements (h : MemoryInv s) {u P : Nat} {r : RingEntry} {x : BitVec 32} {n : Nat} :
    MemoryInv (acquireElements s u P r x n) := by
  unfold Machine.acquireElements
  exact .ite h (MemoryInv.foldl (fun _ _ h => h.of_mem (raiseFloor_mem ..)) _ h)

/-! ## Outcomes -/

/-- The next state that an outcome names, if it names one, has a canonical memory. -/
def Canonical (o : Host.Outcome State Fault Refusal) : Prop := ∀ t, o = .next t → MemoryInv t

theorem Canonical.next (h : MemoryInv s) : Canonical (.next s) := by rintro _ ⟨⟩; exact h

theorem Canonical.ite {c : Prop} [Decidable c] {o o' : Host.Outcome State Fault Refusal} (h : Canonical o) (h' : Canonical o') :
    Canonical (if c then o else o') := by
  split
  · exact h
  · exact h'

theorem Canonical.runM (h : MemoryInv s) {m : M Flow} (hm : Keeps MemoryInv m) : Canonical (runM m s) := .next (h.finish hm)

theorem Canonical.finishV (h : MemoryInv s) {d : VReg} {r : Except Trap VVal} : Canonical (finishV d r s) := by
  unfold Machine.finishV; split
  · exact .next h
  · exact .next h.takeTrap

theorem Canonical.finishG (h : MemoryInv s) {d : GReg} {r : Except Trap Word} : Canonical (finishG d r s) := by
  unfold Machine.finishG; split
  · exact .next h
  · exact .next h.takeTrap

theorem Canonical.rslot (h : MemoryInv s) (d : GReg) (a : HReg) (b : GReg) : Canonical (execRslot d a b s) := by
  unfold execRslot; split
  · exact .next h.takeTrap
  · exact .ite (.next h.takeTrap) (.next h)

theorem Canonical.waitRing (h : MemoryInv s) {free : Bool} {d : GReg} {a : HReg} {b : GReg} : Canonical (waitRing free d a b s) := by
  unfold Machine.waitRing; extract_lets n; split
  · exact .next h.takeTrap
  · exact .ite (.next h.takeTrap) (.ite (.next h) (.next h))
  · exact .ite (.next h.takeTrap) (.ite (.next h.acquireElements.wg.retire) (.next h))

theorem Canonical.radvh (h : MemoryInv s) (a : HReg) (b : GReg) : Canonical (execRadvh a b s) := by
  unfold execRadvh; extract_lets n P; split
  · exact .next h.takeTrap
  · exact .ite (.next h.takeTrap) (.next h.acquireElements.setHead.retire)

theorem Canonical.radvt (h : MemoryInv s) (a : HReg) (b : GReg) : Canonical (execRadvt a b s) := by
  unfold execRadvt; extract_lets n P; split
  · exact .next h.takeTrap
  · exact .ite (.next h.takeTrap) (.next h.releaseTo.setTail.retire)

theorem Canonical.ringWaitWake (h : MemoryInv s) (u : Nat) : Canonical (execRingWaitWake u s) := by
  unfold execRingWaitWake; split
  · exact .next h
  · exact .next h
  · exact .next h

theorem Canonical.spost (h : MemoryInv s) (d : SReg) (a : GReg) : Canonical (execSpost d a s) :=
  .ite (.next h.takeTrap) (.next h.releaseTo.modTile.retire)

theorem Canonical.swait (h : MemoryInv s) (d : SReg) (a : GReg) : Canonical (execSwait d a s) := by
  unfold execSwait; extract_lets t x n
  exact .ite (.next h.takeTrap) (.ite (.next h.setTile.acquire.retire) (.next h))

theorem Canonical.stryw (h : MemoryInv s) (d : GReg) (a : SReg) (b : GReg) : Canonical (execStryw d a b s) :=
  .next (MemoryInv.ite h.setTile.acquire h).wg.retire

theorem Canonical.semaphoreGrant (h : MemoryInv s) (t k : Nat) : Canonical (execSemaphoreGrant t k s) := by
  unfold execSemaphoreGrant; extract_lets x r; split
  · exact .next h
  · exact .ite (.next (h.setTile.acquire.retireCore)) (.next h)

/-! ## VNFA -/

theorem nfaMasks_accesses (a : VVal) (t : Word) : ∀ ks, Accesses (nfaMasks a t ks)
  | [] => .pure _
  | _ :: ks => .bind .get fun _ => .bind (resolve_accesses _ _ _ _) fun _ => .bind (noPoison_accesses _ _) fun _ =>
      .bind (readPieces_accesses _ _) fun _ => .bind (nfaMasks_accesses a t ks) fun _ => .pure _

theorem stepNfa_keeps (d a : VReg) (t : Word) : Keeps MemoryInv (stepNfa d a t) :=
  .access (aligned_accesses _ _) fun _ => .bind .get fun _ => .bind (.need _ _) fun _ => .access (resolve_accesses _ _ _ _) fun _ =>
    .access (noPoison_accesses _ _) fun _ => .access (nfaMasks_accesses _ _ _) fun _ => .bind .setV fun _ => .pure _

/-! ## The steps of the memory system -/

theorem Canonical.storeBufferDrain (h : MemoryInv s) (u k : Nat) : Canonical (execStoreBufferDrain u k s) := by
  refine .next ?_
  split
  · split
    · exact .ite h (performEntry_wf _ _ _ h)
    · exact h
  · split
    · exact writeBackSector_wf _ _ _ h
    · exact h

theorem Canonical.replicaUpdateApply (h : MemoryInv s) (d : Nat) : Canonical (execReplicaUpdateApply d s) := .next (.ite h (applyNext_wf _ _ h))

theorem Canonical.waitaWake (h : MemoryInv s) (u : Nat) : Canonical (execWaitaWake u s) := by
  unfold execWaitaWake; split
  · exact .next h
  · exact .next h

theorem Canonical.ldfReissue (h : MemoryInv s) (u : Nat) : Canonical (execLdfReissue u s) := by
  unfold execLdfReissue; split
  · exact .next (.ite h h)
  · exact .next h

theorem Canonical.ldfCancelNotice (h : MemoryInv s) (slice k : Nat) : Canonical (execLdfCancelNotice slice k s) := by
  unfold execLdfCancelNotice; split
  · exact .next (.ite h h)
  · exact .next h

end Sys2Proof
end

section
/-! Memory stays canonical: tasks and the device's own accesses. -/

namespace Sys2Proof

open Machine

variable {s t : State}

/-! ## Tasks: messages, ready levels, the TCB cache -/

theorem MemoryInv.modQueue (h : MemoryInv s) {q : Nat} {f : Queue → Queue} : MemoryInv (s.modQueue q f) := by
  unfold State.modQueue; split
  · exact h
  · exact h

theorem MemoryInv.countMember (h : MemoryInv s) {k : KKey} : MemoryInv (countMember s k) := h.modQueue
theorem MemoryInv.completeRec (h : MemoryInv s) {q : Nat} {r : CompRec} : MemoryInv (completeRec s q r) := h.modQueue
theorem MemoryInv.takeBuffered (h : MemoryInv s) {u P w : Nat} : MemoryInv (takeBuffered s u P w) := h

theorem MemoryInv.fillInbox (h : MemoryInv s) {u : Nat} : MemoryInv (fillInbox s u) :=
  MemoryInv.foldl (fun _ _ h => h.takeBuffered) _ h

theorem MemoryInv.enterLevel (h : MemoryInv s) {P i : Nat} {b : Bool} : MemoryInv (enterLevel s P i b) := by
  unfold Machine.enterLevel; split
  · exact h
  · exact h.modTask.modCluster

theorem MemoryInv.leaveLevels (h : MemoryInv s) {P i : Nat} : MemoryInv (leaveLevels s P i) := h

theorem MemoryInv.enterCache (h : MemoryInv s) {P i : Nat} {t : Task} : MemoryInv (enterCache s P i t) := by
  unfold Machine.enterCache; exact .ite h (.ite h.modCluster.enterLevel h)

theorem MemoryInv.pullBacklog (h : MemoryInv s) {P : Nat} : MemoryInv (pullBacklog s P) := by
  unfold Machine.pullBacklog; split
  · exact h.modCluster.enterCache
  · exact h

theorem MemoryInv.admitTask (h : MemoryInv s) {P : Nat} {t : Task} : MemoryInv (admitTask s P t) := by
  unfold Machine.admitTask; split
  · exact h.enterCache
  · exact h

theorem MemoryInv.dropEntry (h : MemoryInv s) {P i : Nat} : MemoryInv (dropEntry s P i) := by
  unfold Machine.dropEntry; split
  · exact h
  · exact MemoryInv.pullBacklog (MemoryInv.mapCores (MemoryInv.modCluster (MemoryInv.foldl (fun _ _ h => h.releaseHandle) _ h.leaveLevels)))

theorem MemoryInv.bindCore (h : MemoryInv s) {q P det gang : Nat} : MemoryInv (bindCore s q P det gang).2 := by
  unfold Machine.bindCore; split
  · exact h
  · exact h

/-! ## Accesses of the device, and regeneration -/

theorem MemoryInv.deviceRead (h : MemoryInv s) {w : Who} {va : Word} {n : Nat} {bs : List Byte} (e : deviceRead s w va n = some (bs, t)) : MemoryInv t := by
  unfold Machine.deviceRead at e; split at e
  · rename_i r hr; cases e; exact (loadBytes_accesses w va n).keepsMemory _ _ _ h hr
  · cases e

theorem MemoryInv.deviceWrite (h : MemoryInv s) {w : Who} {va : Word} {bs : List Byte} (e : deviceWrite s w va bs = some t) : MemoryInv t := by
  unfold Machine.deviceWrite at e; split at e
  · rename_i hr; cases e; exact (storeBytes_accesses w .store va bs none false).keepsMemory _ _ _ h hr
  · cases e

theorem MemoryInv.launchRegen (h : MemoryInv s) {page : Word} {big : Bool} {i : Nat} {es : List Source} (e : launchRegen s page big i es = some t) :
    MemoryInv t := by
  unfold Machine.launchRegen at e
  simp only [Option.bind_eq_bind, Option.bind_eq_some_iff] at e
  obtain ⟨⟨_, s1⟩, h1, n, -, q, -, ⟨_, s2⟩, h2, e⟩ := e
  split at e
  · cases e
  obtain ⟨s3, h3, e⟩ := Option.bind_eq_some_iff.1 e
  cases e
  have hs3 : MemoryInv s3 := MemoryInv.deviceWrite (by exact (h.deviceRead h1).deviceRead h2) h3
  refine MemoryInv.modQueue ?_
  exact hs3

theorem MemoryInv.leaveRegen (h : MemoryInv s) {page : Word} {src : Option Source} : MemoryInv (leaveRegen s page src) := h

theorem MemoryInv.awaitFrame (h : MemoryInv s) {page : Word} {src : Option Source} : MemoryInv (awaitFrame s page src).2 := by
  unfold Machine.awaitFrame; split
  · exact h
  · split
    · exact h
    · split
      · exact h
      · exact h

theorem MemoryInv.faultRegen (h : MemoryInv s) {va : Word} {src : Option Source} : MemoryInv (faultRegen s va src).2 := by
  unfold Machine.faultRegen; split
  · dsimp only
    split
    · exact h.leaveRegen
    split
    · exact h
    split
    · exact h.awaitFrame
    split
    · rename_i s' e
      have hs' : MemoryInv s' := MemoryInv.launchRegen (by exact h) e
      exact hs'
    · exact h
  · exact h
  · exact h

theorem MemoryInv.deviceAccess {α : Type} (h : MemoryInv s) {src : Source} {m : M α} (hm : Keeps MemoryInv m) {a : α}
    (e : deviceAccess s src m = .ok (a, t)) : MemoryInv t := by
  unfold Machine.deviceAccess at e; split at e
  · rename_i hr; cases e; exact hm _ _ _ h hr
  all_goals cases e

theorem MemoryInv.deviceAccess_error {α : Type} (h : MemoryInv s) {src : Source} {m : M α} {b : Bool}
    (e : Machine.deviceAccess s src m = .error (b, t)) : MemoryInv t := by
  unfold Machine.deviceAccess at e; split at e
  · cases e
  · have e' : _ = t := congrArg Prod.snd (Except.error.inj e)
    exact e' ▸ h.faultRegen
  · cases e; exact h
  · cases e; exact h

theorem MemoryInv.waitFor {α : Type} (h : MemoryInv s) {src : Source} {r : Except Stop α} : MemoryInv (waitFor s src r).2 := by
  unfold Machine.waitFor; split
  · exact h.faultRegen
  · exact h
  · exact h

theorem MemoryInv.writeTcbState (h : MemoryInv s) {P : Nat} {va : Word} {v : Nat} : MemoryInv (writeTcbState s P va v) := by
  unfold Machine.writeTcbState; extract_lets later
  split
  · exact h
  split
  · exact h
  split
  · rename_i e; exact (storeBytes_accesses _ _ _ _ _ _).keepsMemory _ _ _ h e
  · rename_i x _
    have hw := h.waitFor (src := .tcb P) (r := (.error x : Except Stop Unit))
    split
    · rename_i e'; rw [e'] at hw; exact hw
    · rename_i e'; rw [e'] at hw; exact hw

theorem MemoryInv.retryTcbWrites (h : MemoryInv s) : MemoryInv (retryTcbWrites s) :=
  MemoryInv.foldl (fun _ _ h => MemoryInv.foldl (fun _ _ h => h.writeTcbState) _ h.modCluster) _ h

/-! ## Images, starting and stowing -/

theorem MemoryInv.bumpSeq (h : MemoryInv s) {u : Nat} : MemoryInv (bumpSeq s u) := h

theorem MemoryInv.readImage (h : MemoryInv s) {P i : Nat} {x : Task} {bs : List Byte} (e : readImage s P i x = some (bs, t)) : MemoryInv t := by
  unfold Machine.readImage at e; split at e
  · cases e; exact h
  · exact h.deviceRead e

theorem MemoryInv.writeImage (h : MemoryInv s) {P i n : Nat} {x : Task} {bs : List Byte} (e : writeImage s P i x n bs = some t) : MemoryInv t := by
  unfold Machine.writeImage at e; split at e
  · cases e; exact h.performWrites
  · exact h.deviceWrite e

theorem MemoryInv.rebind (h : MemoryInv s) {P : Nat} {x : Handle} {w : Word} : MemoryInv (rebind s P x w).2 := by
  have h' : MemoryInv (Machine.releaseHandle s P x) := h.releaseHandle
  unfold Machine.rebind; dsimp only
  split
  · exact h
  split
  · exact h'
  split
  · exact h'
  split
  · split
    · rename_i e; exact MemoryInv.bindRing h' e
    · exact h'
  · exact h'

theorem MemoryInv.rebindAll {P : Nat} : ∀ {l : List (Handle × Word)} {s : State}, MemoryInv s → MemoryInv (rebindAll s P l).2
  | [], _, h => h
  | (x, w) :: l, _, h => (MemoryInv.rebindAll (l := l) (h.rebind (P := P) (x := x) (w := w)) :)

theorem MemoryInv.restoreOn (h : MemoryInv s) {u i r : Nat} {x : Task} {m : Member} : MemoryInv (restoreOn s u i r x m) := by
  unfold Machine.restoreOn; extract_lets P ws kept
  have hr := MemoryInv.rebindAll (P := P) (l := kept.zip ws) h
  split; rename_i e; rw [e] at hr
  exact hr.modCore

theorem MemoryInv.begun (h : MemoryInv s) {u : Nat} : MemoryInv (begun s u) := h.acquire.fillInbox

theorem MemoryInv.startOn (h : MemoryInv s) {u i : Nat} : MemoryInv (startOn s u i) := by
  unfold Machine.startOn; extract_lets P; split
  · exact h
  rename_i x _
  dsimp only
  split
  · split
    · have hw := h.waitFor (src := .area P i) (r := loadBytes (engineWho none P) x.stowa 1536 s)
      split
      · rename_i e; rw [e] at hw; exact hw
      · rename_i e; rw [e] at hw; exact hw.leaveLevels
    · rename_i e
      have hs := h.readImage e
      exact hs.leaveLevels.restoreOn.modTask.modTask.begun
  · exact (MemoryInv.ite h.leaveLevels.modTask.countMember h.leaveLevels.modTask).modCore.begun

theorem MemoryInv.returnInbox (h : MemoryInv s) {u : Nat} : MemoryInv (returnInbox s u) := h
theorem MemoryInv.freeCore (h : MemoryInv s) {u : Nat} : MemoryInv (freeCore s u) := h.returnInbox.releaseHandles

theorem MemoryInv.postSetBits (h : MemoryInv s) {P u : Nat} {m : BitVec 256} : MemoryInv (postSetBits s P u m) := by
  unfold Machine.postSetBits; exact .ite h h

theorem MemoryInv.endOn (h : MemoryInv s) {u : Nat} : MemoryInv (endOn s u) := by
  unfold Machine.endOn; extract_lets P; split
  · refine .ite h.freeCore.modTask ?_
    exact (MemoryInv.ite (MemoryInv.foldl (fun _ _ h => .ite h.modTile h) _ h.freeCore) h.freeCore).postSetBits.dropEntry
  · exact h.freeCore

theorem MemoryInv.endRetired (h : MemoryInv s) {u : Nat} : MemoryInv (endRetired s u) := h.modCore.endOn

/-! ## Ending kernels -/

theorem MemoryInv.dropStores (h : MemoryInv s) {p : StoreDecl → Bool} : MemoryInv (dropStores s p) := by
  unfold Machine.dropStores; exact .ite h h

theorem MemoryInv.dropMessages (h : MemoryInv s) {k : KKey} : MemoryInv (dropMessages s k) := h

theorem MemoryInv.releaseStopped (h : MemoryInv s) {u n : Nat} : MemoryInv (releaseStopped s u n) := by
  unfold Machine.releaseStopped; extract_lets off t
  have ht : MemoryInv t := MemoryInv.releaseTo (by exact h)
  exact ht

theorem MemoryInv.orphan (h : MemoryInv s) {u : Nat} : MemoryInv (orphan s u) := h
theorem MemoryInv.forgetSeq (h : MemoryInv s) {k : KKey} : MemoryInv (forgetSeq s k) := h

theorem MemoryInv.stopMembers (h : MemoryInv s) {k : KKey} : MemoryInv (stopMembers s k) := by
  unfold Machine.stopMembers
  extract_lets us s1 s2 es s3 s4
  have h1 : MemoryInv s1 := MemoryInv.foldl (fun _ _ h => h.dropWait.releaseStopped) _ h
  have h2 : MemoryInv s2 := MemoryInv.foldl (fun _ _ h => h.orphan) _ (MemoryInv.foldl (fun _ _ h => h.freeCore) _ h1)
  have h4 : MemoryInv s4 := MemoryInv.foldl (fun _ _ h => h.dropEntry) _ (s := s3) h2
  exact (h4.forgetSeq (k := k)).mapTiles

theorem MemoryInv.endKernel (h : MemoryInv s) {k : KKey} {c : Cause} {pc : Word} {u : Nat} : MemoryInv (endKernel s k c pc u) := by
  unfold Machine.endKernel; split
  · exact h
  · exact .ite h h.stopMembers.dropStores.dropMessages.completeRec.modQueue

/-! ## Stowing -/

theorem MemoryInv.writeContext (h : MemoryInv s) {P i : Nat} {ms : List Msg} : MemoryInv (writeContext s P i ms) :=
  MemoryInv.foldl (fun s _ h => MemoryInv.performWrites (s := { s with freeCtr := s.freeCtr + 8 }) h) _ h

theorem MemoryInv.beginStow (h : MemoryInv s) {u : Nat} {why : StowWhy} : MemoryInv (beginStow s u why).2 := by
  unfold Machine.beginStow
  split
  · exact h
  split
  · exact h
  split
  · exact h
  · exact h

theorem MemoryInv.holdStow (h : MemoryInv s) {u : Nat} {why : StowWhy} : MemoryInv (holdStow s u why) := h

theorem MemoryInv.stowArea (h : MemoryInv s) {P i : Nat} {x : Task} : MemoryInv (stowArea s P i x).2 := by
  unfold Machine.stowArea; split
  · exact h
  · exact h.waitFor

theorem MemoryInv.latchExpired (h : MemoryInv s) {u : Nat} : MemoryInv (latchExpired s u) := .ite h h

theorem MemoryInv.stowOn (h : MemoryInv s) {u : Nat} {r : Option TrapRecord} (e : stowOn s u r = some t) : MemoryInv t := by
  unfold Machine.stowOn at e; dsimp only at e
  split at e
  · split at e
    · cases e
    · rename_i hw
      cases e
      exact (MemoryInv.writeImage h.latchExpired.dropWait.releaseTo hw).writeContext.modCore.modTask.writeTcbState
  · cases e

end Sys2Proof
end

section
/-! Memory stays canonical: the scheduler. -/

namespace Sys2Proof

open Machine

variable {s t : State}

/-! ## The scheduler -/

theorem MemoryInv.applyArrivals (h : MemoryInv s) {P : Nat} : MemoryInv (applyArrivals s P) :=
  MemoryInv.foldl (fun _ _ h => .ite h.modCluster.retireCore h.modCluster) _ h.modCluster

theorem MemoryInv.eventCycle (h : MemoryInv s) {P : Nat} : MemoryInv (eventCycle s P) := by
  unfold Machine.eventCycle; extract_lets s1 waiting parked keepers lookers s2 s3 s4
  have h1 : MemoryInv s1 := h.applyArrivals
  have h2 : MemoryInv s2 := MemoryInv.foldl (fun _ _ h => h.enterLevel) _ h1
  have h3 : MemoryInv s3 := MemoryInv.foldl (fun _ _ h => h.acquire.retireCore) _ h2
  have h4 : MemoryInv s4 := MemoryInv.foldl (fun _ _ h => .ite (MemoryInv.modCluster h).enterLevel h) _ h3
  exact MemoryInv.foldl (fun _ _ h => .ite (MemoryInv.modCluster h).acquire.retireCore h) _ h4

theorem MemoryInv.eventNow (h : MemoryInv s) {P : Nat} : MemoryInv (eventNow s P) := .ite h.eventCycle h

theorem Canonical.changeBits (h : MemoryInv s) {set : Bool} {a : GReg} : Canonical (changeBits set a s) := by
  unfold Machine.changeBits; split
  · exact .next h.takeTrap
  · exact .ite (.next h.takeTrap) (.next (MemoryInv.ite h.releaseTo h).modCluster.parkCore.eventNow)

theorem Canonical.ebwait (h : MemoryInv s) (a : GReg) : Canonical (execEbwait a s) := by
  unfold execEbwait; split
  · exact .next h.takeTrap
  · exact .next h.parkCore.eventNow

theorem MemoryInv.leaveDeques (h : MemoryInv s) {P i : Nat} : MemoryInv (leaveDeques s P i) := h
theorem MemoryInv.takeOn (h : MemoryInv s) {u i : Nat} : MemoryInv (takeOn s u i) := h.leaveDeques.startOn

theorem Canonical.taskPlace (h : MemoryInv s) (u : Nat) : Canonical (execTaskPlace u s) := by
  unfold execTaskPlace; refine .next ?_; split
  · exact h.takeOn
  · exact h

theorem MemoryInv.placeIf (h : MemoryInv s) {p : Task → Bool} {u : Nat} : MemoryInv (placeIf p u s) := by
  unfold Machine.placeIf; split
  · split
    · exact .ite h.takeOn h
    · exact h
  · exact h

theorem Canonical.taskAging (h : MemoryInv s) (P i : Nat) : Canonical (execTaskAging P i s) := by
  unfold execTaskAging; refine .next ?_; split
  · exact .ite h.leaveLevels.modTask.enterLevel h
  · exact h

theorem Canonical.gangReserve (h : MemoryInv s) (P : Nat) : Canonical (execGangReserve P s) := by
  unfold execGangReserve; refine .next ?_; split
  · exact h
  · exact h

theorem MemoryInv.memberImage (h : MemoryInv s) {P i r : Nat} {x : Task} {m : Member} {bs : List Byte}
    (e : memberImage s P i r x m = some (bs, t)) : MemoryInv t := by
  unfold Machine.memberImage at e; split at e
  · exact h.readImage e
  · cases e; exact h

/-- What holds of every state that a fold over optional states reaches. -/
theorem MemoryInv.foldlOption {β : Type} {f : State → β → Option State} (hf : ∀ s b t, MemoryInv s → f s b = some t → MemoryInv t) :
    ∀ (l : List β) {s t : State}, MemoryInv s → l.foldl (fun o b => o.bind (fun s => f s b)) (some s) = some t → MemoryInv t
  | [], _, _, h, e => by cases e; exact h
  | b :: l, s, t, h, e => by
    rw [List.foldl_cons, Option.bind_some] at e
    cases hb : f s b with
    | some s' => rw [hb] at e; exact MemoryInv.foldlOption hf l (hf s b s' h hb) e
    | none =>
      have none_stays : ∀ l : List β, l.foldl (fun o b => o.bind (fun s => f s b)) none = none := fun l => by
        induction l with
        | nil => rfl
        | cons _ _ ih => exact ih
      rw [hb, none_stays] at e; cases e

theorem MemoryInv.restoreGang (h : MemoryInv s) {P i : Nat} {x : Task} {seat : List (Nat × Nat)} (e : restoreGang s P i x seat = some t) :
    MemoryInv t := by
  refine MemoryInv.foldlOption (fun s p t h e => ?_) seat h e
  split at e
  · obtain ⟨⟨img, s1⟩, h1, rfl⟩ := Option.map_eq_some_iff.1 e
    exact (h.memberImage h1).restoreOn.begun
  · cases e; exact h

theorem MemoryInv.startGang (h : MemoryInv s) {P i : Nat} {x : Task} {us : List Nat} : MemoryInv (startGang s P i x us) := by
  unfold Machine.startGang; extract_lets free seat s1 s2
  have hf : MemoryInv free := h.modCluster.leaveLevels
  split
  · split
    · rename_i e; exact (hf.restoreGang e).modTask
    · exact h
  · have h1 : MemoryInv s1 := MemoryInv.foldl (fun _ _ h => (MemoryInv.foldl (fun _ _ h => h.settle) _ h).modTile) _ hf
    have h2 : MemoryInv s2 := MemoryInv.foldl (fun _ _ h => h.modCore.begun) _ h1
    exact h2.modTask.countMember

theorem Canonical.gangStart (h : MemoryInv s) (P : Nat) : Canonical (execGangStart P s) := by
  unfold execGangStart; extract_lets startable; refine .next ?_; split
  · exact h
  · split
    · exact .ite h.startGang h.modCluster.startOn
    · exact h

theorem MemoryInv.copyFoot (h : MemoryInv s) {P Q : Nat} {x : Task} : MemoryInv (copyFoot s P Q x) := h.performWrites

theorem MemoryInv.relocate (h : MemoryInv s) {P Q i j : Nat} (e : relocate s P Q i = some (j, t)) : MemoryInv t := by
  unfold Machine.relocate at e; split at e
  · split at e
    · cases e
    · injection e with e
      injection e with _ e
      have h3 := (MemoryInv.ite (c := ‹Task›.footL ≠ 0 ∧ ‹Task›.stowed = false) (h.copyFoot (P := P) (Q := Q) (x := ‹Task›)) h).modTask (P := P) (i := i)
        (f := fun t => { t with handles := [] }) |>.dropEntry (P := P) (i := i)
      rw [← e]
      exact .ite (MemoryInv.modCluster (MemoryInv.modCluster h3)).performWrites h3
  · cases e

theorem MemoryInv.moveTask (h : MemoryInv s) {P Q i : Nat} : MemoryInv (moveTask s P Q i) := by
  unfold Machine.moveTask; split
  · rename_i e; exact (MemoryInv.relocate h e).enterLevel
  · exact h

theorem Canonical.depthPublication (h : MemoryInv s) (P : Nat) : Canonical (execDepthPublication P s) := by
  unfold execDepthPublication; split
  · exact .next h
  · dsimp only
    split
    · exact .next h
    · exact .ite (.next h) (.next (MemoryInv.foldl (fun _ _ h => h.moveTask) _ h.modCluster))

theorem joinAccess_keeps (va : Word) (f : Word → Option Word) : Keeps MemoryInv (joinAccess va f) := by
  unfold joinAccess
  refine .access (aligned_accesses _ _) fun _ => .get_bind fun s h => .access (resolve_accesses _ _ _ _) fun ps => ?_
  split
  · refine .bind (.need _ _) fun _ => .access (ringsFree_accesses _) fun _ => ?_
    extract_lets so _ rest
    have hrest : ∀ r, Keeps MemoryInv (rest r) := by
      intro r
      dsimp only [rest]
      split
      · split
        · exact .wait _
        · refine .bind (.modify fun _ h => .ite (applyBelow_wf _ _ _ h.drainThrough.flushWhere) h.drainThrough.flushWhere) fun _ =>
            .get_bind fun s1 h1 => .bind (.need _ _) fun _ => ?_
          split
          · exact .trap _
          · exact .bind (.set (.ite (applyBelow_wf _ _ _ (sequenceBy_wf _ _ _ h1)) (performBy_wf _ _ _ h1))) fun _ => .pure _
      · have hf := farReply_accessed { s with net := { s.net with sent := s.net.sent + 1 } } va none
        split
        · rename_i e; rw [e] at hf
          split
          · exact .trap _
          · exact .bind (.set (MemoryInv.of_accessed (by exact h) hf)) fun _ => .pure _
        · exact .trap _
      · exact .trap _
      · exact .trap _
    split
    · exact .bind (.wait _) hrest
    · exact hrest ()
  · exact .trap _

theorem MemoryInv.pushDeque (h : MemoryInv s) {u i : Nat} : MemoryInv (pushDeque s u i) := by
  unfold Machine.pushDeque; extract_lets P q s1
  have h1 : MemoryInv s1 := by
    dsimp only [s1]; split
    · split
      · exact h.modCore.enterLevel
      · exact h
    · exact h
  exact h1.modCore.modTask

theorem MemoryInv.placeChild (h : MemoryInv s) {u i : Nat} {x : Task} {b : Bool} : MemoryInv (placeChild s u i x b) := by
  unfold Machine.placeChild; exact .ite h.enterCache (.ite h.enterCache h.modCluster.pushDeque)

theorem forkTask_keeps (target : Word) : Keeps MemoryInv (forkTask target) := by
  unfold forkTask
  refine .bind .get fun s => .bind (.need _ _) fun _ => .bind (.need _ _) fun _ => ?_
  extract_lets path
  split
  · exact .pure _
  · have place : ∀ (old : Word) (i : Nat) (child : State → Task) (b : State → Bool), Keeps MemoryInv (do
        let s ← get
        set (Machine.placeChild (s.modCore s.cur (fun c => { c with ctx := { c.ctx with path := c.ctx.path <<< 1 } })) s.cur i (child s) (b s))
        pure Flow.next) := fun _ _ _ _ => .get_bind fun _ h => .bind (.set h.modCore.placeChild) fun _ => .pure _
    split
    · exact .bind (.pure _) fun old => place old _ _ _
    · exact .bind (joinAccess_keeps _ _) fun old => place old _ _ _

theorem MemoryInv.exitOn (h : MemoryInv s) {u : Nat} : MemoryInv (exitOn s u) := h.releaseTo.endRetired.eventNow

theorem joinTask_keeps (va : Word) : Keeps MemoryInv (joinTask va) := by
  unfold joinTask
  refine .bind .get fun s => .bind (.need _ _) fun _ => .bind (.modify fun _ h => h.releaseTo) fun _ => .bind (joinAccess_keeps _ _) fun old => ?_
  split
  · exact .bind (.modify fun _ h => h.acquire) fun _ => .pure _
  · exact .bind (.modify fun _ h => h.exitOn) fun _ => .pure _

theorem spawnTask_keeps (d : GReg) (va : Word) : Keeps MemoryInv (spawnTask d va) := by
  unfold spawnTask
  refine .bind .get fun s => .bind (.need _ _) fun _ => .access (loadBytes_accesses _ _ _) fun bs => .bind .get fun s1 => ?_
  extract_lets Q enters
  refine .bind (.need _ _) fun _ => ?_
  split
  · exact .pure _
  · have henters : ∀ old, Keeps MemoryInv (enters old) := fun _ =>
      .get_bind fun _ h => .bind (.set (h.bindCore.admitTask)) fun _ => .bind .setG fun _ => .pure _
    split
    · exact .bind (.pure _) henters
    · exact .bind (joinAccess_keeps _ _) henters

theorem Canonical.exit (h : MemoryInv s) : Canonical (execExit s) := .ite (.next h.takeTrap) (.next h.exitOn)

theorem MemoryInv.yieldStow (h : MemoryInv s) {u i : Nat} : MemoryInv (yieldStow s u i) := by
  unfold Machine.yieldStow
  have ha : MemoryInv ((s.taskOf u).elim (false, s) (Machine.stowArea s (clusterOf u) i)).2 := by
    cases s.taskOf u with
    | none => exact h
    | some x => exact h.stowArea
  split
  · rename_i e; rw [e] at ha; exact ha
  · rename_i e; rw [e] at ha
    split
    · rename_i e'; exact (MemoryInv.stowOn ha e').enterLevel
    · exact ha

theorem Canonical.yield (h : MemoryInv s) : Canonical (execYield s) := by
  unfold execYield; extract_lets s1
  have h1 : MemoryInv s1 := h.retire
  split
  · split
    · exact .next h1
    · have hb := h1.beginStow (u := s.cur) (why := .yield)
      split
      · rename_i e; rw [e] at hb; exact .next hb.yieldStow
      · rename_i e; rw [e] at hb; exact .next hb
  · exact .next h1

theorem MemoryInv.completeBarrier (h : MemoryInv s) {u : Nat} : MemoryInv (completeBarrier s u) := by
  unfold Machine.completeBarrier; split
  · exact .ite (MemoryInv.foldl (fun _ _ h => .ite h.modCore.acquire.retireCore h) _ h) h
  · exact h

theorem Canonical.gbar (h : MemoryInv s) : Canonical (execGbar s) := by
  unfold execGbar; split
  · refine .ite (.next h) (.ite (.next ?_) (.next h.takeTrap))
    exact .ite h.releaseTo.modCore.parkCore.completeBarrier h.releaseTo.modCore.parkCore
  · exact .next h.takeTrap

theorem Canonical.gid (h : MemoryInv s) (d : GReg) (sel : BitVec 7) : Canonical (execGid d sel s) := by
  unfold execGid; split
  · exact .next h
  · exact .next h.takeTrap

end Sys2Proof
end

section
/-! Memory stays canonical: queues, admission and pages. -/

namespace Sys2Proof

open Machine

variable {s t : State}

/-! ## Queues, admission, pages -/

theorem Canonical.outsideWrite (h : MemoryInv s) {pa : Nat} {v : Word} : Canonical (outsideWrite s pa v) := by
  refine .next ?_
  cases e : notifyWrite s pa v with
  | none => exact h
  | some t => exact h.of_accessed (notifyWrite_accessed e)

theorem Canonical.outsideRead (h : MemoryInv s) {pa : Nat} : Canonical (outsideRead s pa) := by
  refine .next ?_
  split
  · rename_i e; exact (h.of_accessed (notifyRead_accessed e) :)
  · exact h

theorem MemoryInv.refuseTcb (h : MemoryInv s) {n slot : Nat} {kid : BitVec 32} : MemoryInv (refuseTcb s n slot kid) := h.modQueue.completeRec

theorem MemoryInv.refuseTask (h : MemoryInv s) {x : Task} : MemoryInv (refuseTask s x) := by
  unfold Machine.refuseTask; split
  · exact h.modQueue.completeRec
  · exact h

theorem MemoryInv.enter (h : MemoryInv s) {n : Nat} {q : Queue} {x : Tcb} {slot : Nat} {va : Word} : MemoryInv (admitTcb.enter n q s x slot va) := by
  unfold admitTcb.enter
  split
  extract_lets P s1
  have h1 : MemoryInv s1 := h.modQueue
  exact .ite h.modQueue (.ite h.refuseTcb (.ite h.modQueue h1.bindCore.admitTask))

theorem MemoryInv.admitTcb (h : MemoryInv s) {n : Nat} {q : Queue} : MemoryInv (admitTcb s n q) := by
  unfold Machine.admitTcb; extract_lets slot va
  split
  · rename_i e; exact (MemoryInv.deviceAccess_error h e).refuseTcb
  · rename_i e; exact MemoryInv.deviceAccess_error h e
  · rename_i e
    have h1 := MemoryInv.deviceAccess h (loadBytes_accesses _ _ _).keepsMemory e
    split
    · exact .ite h1 (.ite h1.modQueue h1.enter)
    · exact h1.enter

theorem Canonical.tcbAdmission (h : MemoryInv s) (q : Nat) : Canonical (execTcbAdmission q s) := by
  unfold execTcbAdmission; refine .next ?_; split
  · exact .ite h h.admitTcb
  · exact h

theorem recordStore_accesses (w : Who) (va : Word) (bs : List Byte) : Accesses (recordStore w va bs) :=
  .bind (resolve_accesses _ _ _ _) fun _ => .bind (noPoison_accesses _ _) fun _ => storeBytes_accesses _ _ _ _ _ _

theorem Canonical.completionRecordWrite (h : MemoryInv s) (q : Nat) : Canonical (execCompletionRecordWrite q s) := by
  unfold execCompletionRecordWrite; refine .next ?_; split
  · exact h
  split
  · exact h
  refine .ite h (.ite h.modQueue ?_)
  dsimp only
  split
  · rename_i e; exact (MemoryInv.deviceAccess h (recordStore_accesses _ _ _).keepsMemory e).modQueue
  · rename_i e; exact (MemoryInv.deviceAccess_error h e).modQueue
  · rename_i e; exact MemoryInv.deviceAccess_error h e

theorem MemoryInv.pageFails (h : MemoryInv s) {u : Nat} {va : Word} : MemoryInv (pageFails s u va) := h.takeTrap

theorem Canonical.regenerationComplete (h : MemoryInv s) (d k : Nat) : Canonical (execRegenerationComplete d k s) := by
  unfold execRegenerationComplete; split
  · exact .next h
  split
  · exact .next h
  · extract_lets ok rest s1 us
    have h1 : MemoryInv s1 := h
    refine .next (MemoryInv.foldl (fun s u h => ?_) _ h1).retryTcbWrites
    refine .ite h.parkCore ?_
    split
    · exact h.pageFails
    · exact h

theorem MemoryInv.shipContext (h : MemoryInv s) {u : Nat} {va : Word} : MemoryInv (shipContext s u va) := by
  unfold Machine.shipContext; extract_lets P rec_ here
  have hh : MemoryInv here := h.modCore.writeReserved
  split
  · refine .ite hh (.ite h.holdStow ?_)
    rename_i i _ _ _
    have ha : MemoryInv ((s.taskOf u).elim (false, s) (fun x => Machine.stowArea s P i x)).2 := by
      cases s.taskOf u with
      | none => exact h
      | some x => exact h.stowArea
    split
    · rename_i e; rw [e] at ha; exact ha.holdStow
    · rename_i e; rw [e] at ha
      split
      · exact hh
      · rename_i e1
        have h1 := MemoryInv.stowOn ha e1
        split
        · exact hh
        · rename_i e2; exact (MemoryInv.relocate h1 e2).postShared
  · exact hh

theorem Canonical.contextShip (h : MemoryInv s) (u : Nat) : Canonical (execContextShip u s) := by
  unfold execContextShip; refine .next ?_; split
  · rename_i va _
    have hb := h.beginStow (u := u) (why := .ship va)
    split
    · rename_i e; rw [e] at hb; exact hb.parkCore.shipContext
    · rename_i e; rw [e] at hb; exact hb
  · rename_i va _
    split
    · exact h.parkCore
    · exact h.pageFails
    · refine .ite h.parkCore ?_
      have hf := h.faultRegen (va := va) (src := none)
      split
      · rename_i e; rw [e] at hf; exact hf.pageFails
      · rename_i e; rw [e] at hf; exact hf
  · exact h

theorem Canonical.frameWaitTimeout (h : MemoryInv s) (u : Nat) : Canonical (execFrameWaitTimeout u s) := by
  unfold execFrameWaitTimeout; refine .next ?_; split
  · exact .ite h.parkCore (.ite h.pageFails h)
  · exact h

theorem MemoryInv.evictPage (h : MemoryInv s) {page : Word} {big : Bool} : MemoryInv (evictPage s page big) := by
  unfold Machine.evictPage; split
  · refine .ite h ?_
    have hs : ∀ b, MemoryInv (if bitAt ‹Word› 6 then s else { s with backing := b }) := fun _ => .ite h h
    exact (hs _).performWrites
  · exact h

/-- A memory of which some bytes are no longer listed stays canonical. -/
theorem Machine.Memory.wf_filter {m : Memory} (h : m.wf = true) (p : Nat × Byte → Bool) : Memory.wf { m with cells := m.cells.filter p } = true := by
  unfold Memory.wf at h ⊢
  rw [Bool.and_eq_true, List.all_eq_true] at h ⊢
  obtain ⟨hk, hz⟩ := h
  exact ⟨mwf_filter _ _ hk, fun c hc => hz c (List.mem_filter.1 hc).1⟩

theorem MemoryInv.refillFrame (h : MemoryInv s) {pa n : Nat} {cells : List (Nat × Byte)} : MemoryInv (refillFrame s pa n cells) :=
  Memory.wf_pokes _ _ (Memory.wf_filter h _)

theorem MemoryInv.fetchPage (h : MemoryInv s) {page : Word} {big : Bool} (e : fetchPage s page big = some t) : MemoryInv t := by
  unfold Machine.fetchPage at e; split at e
  · split at e
    · cases e; exact h
    split at e
    · cases e
    split at e
    · cases e; exact h.faultRegen
    · cases e; exact h.refillFrame.performWrites
  · cases e; exact h

theorem Canonical.residencyEntryPerform (h : MemoryInv s) (d : Nat) : Canonical (execResidencyEntryPerform d s) := by
  unfold execResidencyEntryPerform; extract_lets x; split
  · exact .next h
  split
  · rename_i e; exact .next (MemoryInv.deviceAccess_error h e)
  · rename_i e
    have h1 := MemoryInv.deviceAccess h (loadBytes_accesses _ _ _).keepsMemory e
    dsimp only
    split
    · exact .next h1
    split
    · exact .next h1
    split
    · exact .next h1.evictPage
    · split
      · rename_i e1; exact .next (MemoryInv.retryTcbWrites (MemoryInv.fetchPage h1 e1 :))
      · exact .next h1
    · exact .next h1
    · exact .next h1

end Sys2Proof
end

section
/-! Memory stays canonical: the engines and streamers. -/

namespace Sys2Proof

open Machine

variable {s t : State}

/-! ## Engines -/

theorem Machine.Keeps.ite {α : Type} {P : State → Prop} {c : Prop} [Decidable c] {m m' : M α} (h : Keeps P m) (h' : Keeps P m') :
    Keeps P (if c then m else m') := by
  split
  · exact h
  · exact h'

/-- A test that may stop an operation before it goes on. -/
theorem Machine.Keeps.guard {α : Type} {P : State → Prop} {c : Prop} [Decidable c] {m : M Unit} {f : Unit → M α} (hm : Keeps P m)
    (hf : ∀ a, Keeps P (f a)) : Keeps P (if c then m >>= f else f ()) := .ite (.bind hm hf) (hf ())

/-- A choice of how an operation goes on. -/
theorem Machine.Keeps.choose {α β : Type} {P : State → Prop} {c : Prop} [Decidable c] {m m' : M α} {f : α → M β} (h : Keeps P m) (h' : Keeps P m')
    (hf : ∀ a, Keeps P (f a)) : Keeps P (if c then m >>= f else m' >>= f) := .ite (.bind h hf) (.bind h' hf)

theorem readDescriptor_accesses (va : Word) : Accesses (readDescriptor va) :=
  .bind (aligned_accesses _ _) fun _ => .bind .get fun _ => .bind (resolve_accesses _ _ _ _) fun _ => .bind (.need _ _) fun _ =>
    .bind (noPoison_accesses _ _) fun _ => .bind (readPieces_accesses _ _) fun _ => .pure _

theorem MemoryInv.enqueueCmd (h : MemoryInv s) {c : CpCmd} : MemoryInv (enqueueCmd s c) := .ite h h

theorem MemoryInv.followRing (h : MemoryInv s) {u : Nat} {i : Instr} : MemoryInv (followRing s u i).2 := by
  unfold Machine.followRing; split
  · exact h
  · split
    · exact h.ringRef
    · exact h

theorem commandEngine_keeps (fn : CpFn) (y : Bool) (d a b : GReg) : Keeps MemoryInv (commandEngine fn y d a b) := by
  unfold commandEngine
  refine .bind .get fun s => .bind (.need _ _) fun _ => ?_
  refine .choose (.pure _) (readDescriptor_accesses _).keepsMemory fun desc => .get_bind fun s1 h1 => ?_
  refine .ite (.pure _) ?_
  have h2 : MemoryInv (releaseTo s1 s.cur 4) := h1.releaseTo
  have h3 : ∀ i : Option Instr, MemoryInv (match i with
      | some j => followRing (releaseTo s1 s.cur 4) s.cur j
      | none => (none, releaseTo s1 s.cur 4)).2 := fun i => by
    cases i with
    | none => exact h2
    | some j => exact h2.followRing
  exact .bind (.set (.ite (h3 _).modCore.enqueueCmd.parkCore (h3 _).modCore.enqueueCmd)) fun _ => .pure _

theorem Canonical.engineReply (h : MemoryInv s) (u : Nat) : Canonical (execEngineReply u s) := by
  unfold execEngineReply; refine .next ?_; split
  · exact h.acquire.modCore.retireCore
  · exact h.takeTrap
  · exact h

theorem MemoryInv.endCommand {c : CpCmd} {src : Source} {r : EngineEnd} {w : Word} (h : MemoryInv r.st) : MemoryInv (endCommand c src r w) := by
  unfold Machine.endCommand; split
  · split
    · exact h
    · exact h
  · split
    · exact h
    · exact h.postShared

theorem engineSector_accesses (w : Who) (va : Word) : Accesses (engineSector w va) := by
  unfold engineSector
  refine .bind (resolve_accesses _ _ _ _) fun _ => .bind (noPoison_accesses _ _) fun _ => ?_
  split
  · exact readSectorPiece_accesses _ _
  · exact .pure _

theorem engineStore_accesses (w : Who) (acc : Acc) (va : Word) (bs : List Byte) (tag : Option Half) : Accesses (engineStore w acc va bs tag) := by
  unfold engineStore
  refine .bind (resolve_accesses _ _ _ _) fun ps => .bind (ringsFree_accesses ps) fun _ => .bind .get fun _ => ?_
  split
  · exact .trap _
  · exact .bind (noDead_accesses ps) fun _ => writePieces_accesses _ _ _ _ _

/-- The state that an engine's work leaves, or holds back, has a canonical memory. -/
def EndCanonical : Except (Wait × EngineEnd) EngineEnd → Prop
  | .ok r => MemoryInv r.st
  | .error (_, r) => MemoryInv r.st

theorem engineLoop_canonical (size : Nat) : ∀ (l : List (M Unit)), (∀ m ∈ l, Keeps MemoryInv m) → ∀ {s : State} {n : Nat}, MemoryInv s →
    EndCanonical (engineLoop size l s n)
  | [], _, _, _, h => h
  | f :: l, hl, s, n, h => by
    unfold engineLoop; split
    · rename_i e
      exact engineLoop_canonical size l (fun m hm => hl m (List.mem_cons_of_mem _ hm)) (hl f (List.mem_cons_self ..) _ _ _ h e)
    · exact h
    · exact h

theorem EngineEnd.andThen_canonical {r : EngineEnd} (h : MemoryInv r.st) {f : M Unit} (hf : Keeps MemoryInv f) : EndCanonical (r.andThen f) := by
  unfold EngineEnd.andThen; split
  · exact h
  · split
    · rename_i e; exact hf _ _ _ h e
    · exact h
    · exact h

/-- What an engine's work comes to, or the state in which it waits, has a canonical memory. -/
def ResultCanonical : Except State EngineEnd → Prop
  | .ok r => MemoryInv r.st
  | .error t => MemoryInv t

theorem engineResult_canonical (h : MemoryInv s) {src : Source} {r : Except (Wait × EngineEnd) EngineEnd} (hr : EndCanonical r) :
    ResultCanonical (engineResult s src r) := by
  unfold engineResult
  split
  · exact hr
  · rename_i va part
    have hf := MemoryInv.faultRegen (s := part.st) hr (va := va) (src := some src)
    split
    · rename_i e; rw [e] at hf; exact hf
    · exact h.faultRegen
  · exact h

theorem indexOf_accesses (c : CpCmd) (i : Nat) : Accesses (indexOf c i) := .bind (loadBytes_accesses _ _ _) fun _ => .pure _

theorem copySector_accesses (c : CpCmd) (i : Nat) : Accesses (copySector c i) :=
  .bind (engineSector_accesses _ _) fun _ => engineStore_accesses _ _ _ _ _

theorem moveElement_accesses (c : CpCmd) (src dst : Word) : Accesses (moveElement c src dst) := by
  unfold moveElement; split
  · exact .bind (engineSector_accesses _ _) fun _ => engineStore_accesses _ _ _ _ _
  · exact .bind (loadBytes_accesses _ _ _) fun _ => engineStore_accesses _ _ _ _ _

theorem gatherElement_accesses (c : CpCmd) (i : Nat) : Accesses (gatherElement c i) :=
  .bind (indexOf_accesses _ _) fun _ => moveElement_accesses _ _ _

theorem scatterElement_accesses (c : CpCmd) (i : Nat) : Accesses (scatterElement c i) :=
  .bind (indexOf_accesses _ _) fun _ => moveElement_accesses _ _ _

theorem fillSector_accesses (c : CpCmd) (i : Nat) : Accesses (fillSector c i) := engineStore_accesses _ _ _ _ _

theorem MemoryInv.writeBackSectorAll (h : MemoryInv s) {n : Nat} {b : Bool} : MemoryInv (writeBackSectorAll s n b) := by
  unfold Machine.writeBackSectorAll; extract_lets hit Ps ws s1 s2
  have h2 : MemoryInv s2 := .ite h (MemoryInv.performWrites (by exact h))
  exact .ite h2 h2

theorem backSector_keeps (b : Bool) (c : CpCmd) (i : Nat) : Keeps MemoryInv (backSector b c i) := by
  unfold backSector
  refine .access (resolve_accesses _ _ _ _) fun ps => .access (noDead_accesses ps) fun _ => ?_
  split
  · exact .modify fun _ h => h.writeBackSectorAll
  · exact .pure _

theorem MemoryInv.invalPages (h : MemoryInv s) {va : Word} {n : Nat} : MemoryInv (invalPages s va n) := h

theorem writeFlag_accesses (c : CpCmd) : Accesses (writeFlag c) := by
  unfold writeFlag
  refine .bind (aligned_accesses _ _) fun _ => .bind .get fun s => ?_
  split
  · exact engineStore_accesses _ _ _ _ _
  · exact .trap _

theorem runCopy_canonical (h : MemoryInv s) (c : CpCmd) : EndCanonical (runCopy c s) := by
  have all : ∀ {f : CpCmd → Nat → M Unit}, (∀ c i, Keeps MemoryInv (f c i)) → ∀ size n,
      EndCanonical (engineLoop size ((below n).map (fun i => f (c.at_ i) i)) s 0) := fun hf size n =>
    engineLoop_canonical size _ (by rintro _ hm; obtain ⟨i, -, rfl⟩ := List.mem_map.1 hm; exact hf _ _) h
  have copies := all fun c i => (copySector_accesses c i).keepsMemory
  unfold runCopy; split
  · exact h
  split
  · exact h
  dsimp only
  split
  · have hc := copies 64 (c.len / 64)
    cases e : engineLoop 64 ((below (c.len / 64)).map (fun i => copySector (c.at_ i) i)) s 0 with
    | ok r => rw [e] at hc; exact EngineEnd.andThen_canonical hc (writeFlag_accesses _).keepsMemory
    | error r => rw [e] at hc; exact hc
  · exact all (fun c i => (gatherElement_accesses c i).keepsMemory) _ _
  · exact all (fun c i => (scatterElement_accesses c i).keepsMemory) _ _
  · exact all (fun c i => (fillSector_accesses c i).keepsMemory) _ _
  · exact all (backSector_keeps false) _ _
  · have hc := all (backSector_keeps true) 64 (c.len / 64)
    cases e : engineLoop 64 ((below (c.len / 64)).map (fun i => backSector true (c.at_ i) i)) s 0 with
    | ok r => rw [e] at hc; exact MemoryInv.invalPages hc
    | error r => rw [e] at hc; exact hc
  · exact copies _ _

theorem MemoryInv.ringUnref (h : MemoryInv s) {P id : Nat} : MemoryInv (ringUnref s P id) := h

theorem MemoryInv.sendFollowOn {c : CpCmd} {r : EngineEnd} (h : MemoryInv r.st) : MemoryInv (sendFollowOn c r) := by
  unfold Machine.sendFollowOn; split
  · exact h
  · exact h.ringUnref
  · exact h.postShared
  · exact h

theorem Canonical.copyStep (h : MemoryInv s) {fn : CpFn} {e : Nat} : Canonical (copyStep fn e s) := by
  unfold Machine.copyStep; split
  · exact .next h
  split
  · exact .next h
  · rename_i c _ _ _
    have hr := engineResult_canonical h (src := .copyEng e) (runCopy_canonical h c)
    split
    · rename_i e'; rw [e'] at hr
      refine .next (MemoryInv.endCommand ?_)
      have hst : MemoryInv (if c.fn = .copym then Machine.sendFollowOn c ‹EngineEnd› else ‹EngineEnd›.st) := .ite (MemoryInv.sendFollowOn hr) hr
      exact hst
    · rename_i e'; rw [e'] at hr; exact .next hr

/-! ## Streamers -/

theorem subsRing_keeps (c : CpCmd) : Keeps MemoryInv (subsRing c) := by
  unfold subsRing
  refine .get_bind fun s h => ?_
  refine .guard (.trap _) fun _ => ?_
  split
  · refine .bind (rightsM_accesses _ _).keepsMemory fun _ => .bind (.need _ _) fun _ => .bind (.need _ _) fun _ => .guard (.wait _) fun _ => ?_
    split
    · rename_i e; exact .bind (.set (h.bindRing e)) fun _ => .pure _
    · exact .trap _
  · exact .trap _

theorem runSubs_keeps (str : Nat) (c : CpCmd) : Keeps MemoryInv (runSubs str c) := by
  unfold runSubs
  refine .bind .get fun s => ?_
  refine .guard (.trap _) fun _ => .guard (.trap _) fun _ => .ite ?_ ?_
  · split
    · exact .trap _
    · exact .bind (subsRing_keeps c) fun _ => .bind .get fun _ => .guard (.trap _) fun _ => .bind (.modify fun _ h => h) fun _ => .pure _
  · split
    · exact .trap _
    · exact .guard (.trap _) fun _ => .guard (.trap _) fun _ => .guard (.trap _) fun _ => .bind (subsRing_keeps c) fun _ => .bind .get fun _ =>
        .guard (.trap _) fun _ => .bind (.modify fun _ h => h) fun _ => .pure _

theorem Canonical.subs (h : MemoryInv s) (str : Nat) : Canonical (execSubs str s) := by
  unfold execSubs; split
  · refine .ite (.next h) ?_
    split
    · rename_i e; exact .next (MemoryInv.endCommand (runSubs_keeps _ _ _ _ _ (by exact h) e))
    · exact .next (MemoryInv.endCommand (by exact h))
    · exact .next h
  · exact .next h


theorem MemoryInv.endSub (h : MemoryInv s) {str k : Nat} {y : Sub} {c : CpCmd} {l : List PullJob} : MemoryInv (endSub str k y c l s) := by
  unfold Machine.endSub; extract_lets s1 x
  have h1 : MemoryInv s1 := MemoryInv.foldl (fun _ _ h => h.ringUnref) _ h
  exact MemoryInv.endCommand (by exact h1)

theorem Canonical.unsubs (h : MemoryInv s) (str : Nat) : Canonical (execUnsubs str s) := by
  unfold execUnsubs; split
  · refine .ite (.next h) ?_
    split
    · exact .next (MemoryInv.endCommand (by exact h))
    · exact .ite (.next (MemoryInv.endSub (by exact h))) (.next h)
  · exact .next h

theorem slotActs_keeps (w : Who) : ∀ (l : List (List Byte × Half)) (va : Word), ∀ m ∈ slotActs w l va, Keeps MemoryInv m
  | [], _, _, hm => nomatch hm
  | (_, _) :: l, va, m, hm => by
    rcases List.mem_cons.1 hm with rfl | hm
    · exact (engineStore_accesses _ _ _ _ _).keepsMemory
    · exact slotActs_keeps w l _ m hm

theorem feedActs_keeps (s : State) (c : CpCmd) (secs : List (List Byte × Half)) (r : RingRef) : ∀ m ∈ feedActs s c secs r, Keeps MemoryInv m := by
  have stops : ∀ x : Trap, ∀ m ∈ [(trapM x : M Unit)], Keeps MemoryInv m := by
    rintro x m hm; obtain rfl := List.mem_singleton.1 hm; exact .trap _
  unfold feedActs; split
  · exact stops _
  · dsimp only
    split
    · exact stops _
    split
    · exact stops _
    · intro m hm
      rcases List.mem_append.1 hm with hm | hm
      · exact slotActs_keeps _ _ _ m hm
      · obtain rfl := List.mem_singleton.1 hm; exact .modify fun _ h => h.setTail

theorem elementSectors_accesses (w : Who) : ∀ l, Accesses (elementSectors w l)
  | [] => .pure _
  | _ :: l => .bind (engineSector_accesses _ _) fun _ => .bind (elementSectors_accesses w l) fun _ => .pure _

theorem pullElement_canonical (h : MemoryInv s) (c : CpCmd) (y : Sub) : EndCanonical (pullElement c y s) := by
  unfold pullElement; split
  · rename_i e
    refine engineLoop_canonical 0 _ (fun m hm => ?_) ((elementSectors_accesses _ _).keepsMemory _ _ _ h e)
    obtain ⟨r, -, hm⟩ := List.mem_flatMap.1 hm
    exact feedActs_keeps _ _ _ _ m hm
  · exact h
  · exact h

theorem MemoryInv.endPull (h : MemoryInv s) {str k : Nat} {y : Sub} {c : CpCmd} {l : List PullJob} : MemoryInv (endPull str k y c l s) := by
  unfold Machine.endPull; extract_lets r
  have hr : EndCanonical (if c.fn = .pullf then r.andThen (writeFlag c) else .ok r) := by
    split
    · exact EngineEnd.andThen_canonical h (writeFlag_accesses _).keepsMemory
    · exact h
  split
  · rename_i e; rw [e] at hr; exact .ite (MemoryInv.endCommand hr) h
  · exact h

theorem MemoryInv.elementStep (h : MemoryInv s) {str k : Nat} : MemoryInv (elementStep s str k) := by
  unfold Machine.elementStep; split
  · exact h
  split
  · exact h
  refine .ite h (.ite h.endSub (.ite h.endPull (.ite h ?_)))
  rename_i y _ _ j rest _
  have hr := engineResult_canonical h (src := .streamer str) (pullElement_canonical h j.cmd y)
  split
  · rename_i e; rw [e] at hr; exact hr
  · rename_i r e; rw [e] at hr
    dsimp only
    split
    · exact .ite (MemoryInv.endPull (by exact hr)) hr
    · exact .ite (MemoryInv.endCommand (by exact hr)) h

theorem MemoryInv.elementSteps {str k : Nat} : ∀ {n : Nat} {s : State}, MemoryInv s → MemoryInv (elementSteps str k n s)
  | 0, _, h => h
  | n + 1, _, h => (MemoryInv.elementSteps (n := n) (h.elementStep (str := str) (k := k)) :)

theorem Canonical.pullStep (h : MemoryInv s) {fn : CpFn} {str : Nat} : Canonical (pullStep fn str s) := by
  unfold Machine.pullStep; split
  · refine .ite (.next h) ?_
    split
    · exact .next (MemoryInv.endCommand (by exact h))
    · exact .next (.ite (MemoryInv.elementSteps (by exact h)) h)
  · exact .next h


end Sys2Proof
end

section
/-! Memory stays canonical: the matrix unit. -/

namespace Sys2Proof

open Machine

variable {s t : State}

/-! ## Matrix units -/

theorem MemoryInv.takeHold (h : MemoryInv s) {r : RingRef} : MemoryInv (takeHold s r) := h

theorem MemoryInv.unitFault (h : MemoryInv s) {tile core : Nat} {c : Cause} {seq : BitVec 16} {pc fa : Word} {kid : BitVec 32} :
    MemoryInv (unitFault s tile core c seq pc fa kid) := h.postShared

theorem Canonical.matrixCommandExecute (h : MemoryInv s) (tile : Nat) : Canonical (execMatrixCommandExecute tile s) := by
  unfold execMatrixCommandExecute; extract_lets t; split
  · exact .next h
  · rename_i c rest _
    extract_lets t' finish
    refine .ite (.next h) ?_
    have hf : ∀ r, MemoryInv (finish r) := by
      intro r; cases r with
      | done t => exact h.setTile.settle
      | again t => exact h
      | fault t c fa => exact h.setTile.settle.unitFault
    split
    · exact .next (hf (unitLoad ..))
    · exact .next (hf (unitSteps ..))
    · exact .next (hf (.done _))
    · exact .next (hf (.done _))
    · exact .next (hf (unitAdd ..))
    · exact .next (.ite h (hf (if _ then _ else _)))
    · exact .ite (.next h) (.next h)
    · exact .next h
    · exact .next h

theorem Canonical.monbWrite (h : MemoryInv s) (tile : Nat) : Canonical (execMonbWrite tile s) := by
  unfold execMonbWrite; extract_lets t; split
  · exact .next (.ite h h)
  · exact .next h

theorem Canonical.cncdWrite (h : MemoryInv s) (tile : Nat) : Canonical (execCncdWrite tile s) := by
  unfold execCncdWrite; extract_lets t; split
  · exact .next (.ite h h)
  · exact .next h

/-- The state that an operation answers, if it answers one, has a canonical memory. -/
def OkCanonical {ε : Type} (x : Except ε State) : Prop := ∀ t, x = .ok t → MemoryInv t

theorem OkCanonical.ok {ε : Type} (h : MemoryInv s) : OkCanonical (.ok s : Except ε State) := by rintro _ ⟨⟩; exact h
theorem OkCanonical.error {ε : Type} (x : ε) : OkCanonical (.error x : Except ε State) := fun _ e => nomatch e

theorem OkCanonical.ite {ε : Type} {c : Prop} [Decidable c] {x y : Except ε State} (hx : OkCanonical x) (hy : OkCanonical y) :
    OkCanonical (if c then x else y) := by
  split
  · exact hx
  · exact hy

/-- The definition is unfolded as a function, before its arguments are given: the kernel would otherwise evaluate the guard's bounds, which are locations, in unary. -/
theorem epiWrite_canonical (h : MemoryInv s) (j : EpiJob) (r : RingEntry) (bs : List Byte) : OkCanonical (epiWrite s j r bs) := by
  obtain ⟨f, hf⟩ : ∃ f, f = epiWrite := ⟨_, rfl⟩
  rw [← hf]
  delta epiWrite at hf
  subst hf
  conv => arg 1; with_reducible whnf
  generalize ringGuard s (sramLoc j.ring.cl ((geomOf r.dw0).slot (ringTail s j.ring.cl r.addr).toNat)) bs.length = g
  cases g with
  | some k => exact .error _
  | none => exact .ite (.error _) (.ok h.performWrites.setTail)

theorem Canonical.epilogueOutput (h : MemoryInv s) (tile : Nat) : Canonical (execEpilogueOutput tile s) := by
  unfold execEpilogueOutput; extract_lets t; split
  · exact .next h
  · rename_i j rest _
    extract_lets s' done bad
    have hs' : MemoryInv s' := h.setTile
    have hd : MemoryInv (done s') := hs'.ringUnref
    have hbad : ∀ c fa, MemoryInv (bad c fa) := fun _ _ => hd.unitFault
    refine .ite (.next h) ?_
    split
    · exact .next (hbad _ _)
    refine .ite (.next (hbad _ _)) (.ite (.next (hbad _ _)) ?_)
    generalize j.out.elim (epiOutput s tile j) Except.ok = out
    cases out with
    | error x => exact .next (hbad _ _)
    | ok bs =>
    refine .ite (.next hs'.modTile) ?_
    split
    · exact .next (hbad _ _)
    · rename_i e; exact .next (epiWrite_canonical hd _ _ _ _ e)

theorem MemoryInv.sendMatrix (h : MemoryInv s) {u code : Nat} {op : MOp} : MemoryInv (sendMatrix s u code op) := by
  unfold Machine.sendMatrix
  have hr : MemoryInv (match op.ring with | some r => Machine.ringRef s r.cl r.id | none => s) := by
    split
    · exact h.ringRef
    · exact h
  exact hr.modCore.modTile

theorem issuePlain_keeps (op : MOp) : Keeps MemoryInv (issuePlain op) :=
  .get_bind fun _ h => .bind (.need _ _) fun _ => .ite (.pure _) (.bind (.set h.sendMatrix) fun _ => .pure _)

theorem issueRing_keeps (r : HReg) (check : Bool) (op : RingRef → MOp) : Keeps MemoryInv (issueRing r check op) := by
  unfold issueRing
  refine .get_bind fun s h => .bind (.need _ _) fun _ => ?_
  split
  · exact .trap _
  refine .bind (.need _ _) fun _ => ?_
  dsimp only
  split
  · exact .bind (.modify fun _ h => h.parkCore) fun _ => .pure _
  · exact .ite (.pure _) (.bind (.set h.takeHold.sendMatrix) fun _ => .pure _)

theorem Canonical.matrixRingBind (h : MemoryInv s) (u : Nat) : Canonical (execMatrixRingBind u s) := by
  unfold execMatrixRingBind; split
  · split
    · exact .next h.takeTrap
    refine .ite (.next h.takeTrap) ?_
    split
    · exact .next h
    · exact .ite (.next h.takeHold.sendMatrix.retireCore) (.next h)
  · exact .next h

theorem issueOutput_keeps (fmt : OutFmt) (r : HReg) (opts bias : Word) : Keeps MemoryInv (issueOutput fmt r opts bias) := by
  unfold issueOutput
  refine .bind .get fun s => .bind (.need _ _) fun _ => ?_
  split
  · exact .trap _
  refine .bind (.need _ _) fun _ => ?_
  have send : ∀ e : RingEntry, Keeps MemoryInv (do
      let s ← get
      if !unitOpen s s.cur then pure Flow.stay
      else
        let P := clusterOf s.cur
        set (Machine.sendMatrix (Machine.releaseTo s s.cur 1) s.cur (MOp.eout fmt ⟨P, e.id, e.addr, 0⟩ opts bias).logCode
          (.eout fmt ⟨P, e.id, e.addr, 0⟩ opts bias))
        pure Flow.next) := fun _ => .get_bind fun _ h => .ite (.pure _) (.bind (.set h.releaseTo.sendMatrix) fun _ => .pure _)
  refine .ite ?_ (send _)
  exact .access (aligned_accesses _ _) fun _ => .bind (.need _ _) fun _ => .access (resolve_accesses _ _ _ _) fun _ => send _

theorem Canonical.copymFollowOnEnter (h : MemoryInv s) (tile k : Nat) : Canonical (execCopymFollowOnEnter tile k s) := by
  unfold execCopymFollowOnEnter; extract_lets t out; split
  · exact .next h
  · rename_i f _
    extract_lets abandon
    have ho : MemoryInv out := h.setTile
    have ha : ∀ c, MemoryInv (abandon c) := fun c => (ho.ringUnref (P := f.ring.cl) (id := f.ring.id)).unitFault
    refine .ite (.next h) ?_
    split
    · exact .next (ha _)
    refine .ite (.next (ha _)) ?_
    split
    · exact .next h
    refine .ite (.next h) ?_
    split
    · exact .next (ha _)
    · exact .next ho.takeHold.modTile

end Sys2Proof
end

section
/-! Memory stays canonical: events and the Millpond. -/

namespace Sys2Proof

open Machine

variable {s t : State}

/-! ## Stores and updates -/

theorem MemoryInv.modSlice (h : MemoryInv s) {P k : Nat} {f : SliceStore → SliceStore} : MemoryInv (s.modSlice P k f) := h

theorem MemoryInv.readRecord (h : MemoryInv s) {P n : Nat} {d : StoreDecl} {bs : List Byte} (e : readRecord s P d n = .ok (bs, t)) : MemoryInv t := by
  unfold Machine.readRecord at e; split at e
  · rename_i r hr; cases e; exact (loadBytes_accesses _ _ _).keepsMemory _ _ _ h hr
  · cases e
  · cases e

theorem MemoryInv.writeRecord (h : MemoryInv s) {P n : Nat} {d : StoreDecl} {bs : List Byte} (e : writeRecord s P d n bs = some t) : MemoryInv t := by
  unfold Machine.writeRecord at e; split at e
  · rename_i hr; cases e; exact (storeBytes_accesses _ _ _ _ _ _).keepsMemory _ _ _ h hr
  · cases e

theorem MemoryInv.pushRecord (h : MemoryInv s) {P k : Nat} {d : StoreDecl} {w : Option Nat} {x : Item} (e : pushRecord s P k d w x = some t) :
    MemoryInv t := by
  unfold Machine.pushRecord at e; dsimp only at e
  split at e
  · cases e
  · obtain ⟨s1, h1, rfl⟩ := Option.map_eq_some_iff.1 e
    exact (h.writeRecord h1).modSlice

theorem MemoryInv.shiftRecords {P k : Nat} {d : StoreDecl} : ∀ {n : Nat} {s t : State}, MemoryInv s → shiftRecords P k d n s = .ok t → MemoryInv t
  | 0, _, _, h, e => by cases e; exact h
  | n + 1, s, t, h, e => by
    unfold Machine.shiftRecords at e
    split at e
    · cases e
    · rename_i h1
      split at e
      · rename_i h2; exact MemoryInv.shiftRecords ((h.readRecord h1).writeRecord h2) e
      · cases e

theorem MemoryInv.takeRecord (h : MemoryInv s) {P k n : Nat} {d : StoreDecl} {x : Item} (e : takeRecord s P k d n = .ok (x, t)) : MemoryInv t := by
  unfold Machine.takeRecord at e; split at e
  · cases e
  · rename_i h1
    split at e
    · cases e
    · rename_i h2; cases e; exact (MemoryInv.shiftRecords (h.readRecord h1) h2).modSlice

theorem MemoryInv.foldIn (h : MemoryInv s) {P k : Nat} {d : StoreDecl} {x : Item} (e : foldIn s P k d x = some t) : MemoryInv t := by
  unfold Machine.foldIn at e; dsimp only at e
  split at e
  · cases e; exact h
  split at e
  · cases e; exact h
  split at e
  · cases e; exact h
  · obtain ⟨s1, h1, rfl⟩ := Option.map_eq_some_iff.1 e
    exact (h.pushRecord h1).modSlice

theorem MemoryInv.refill {P k : Nat} {d : StoreDecl} : ∀ {n : Nat} {s t : State}, MemoryInv s → refill P k d n s = .ok t → MemoryInv t
  | 0, _, _, h, e => by cases e; exact h
  | n + 1, s, t, h, e => by
    unfold Machine.refill at e; dsimp only at e
    split at e
    · split at e
      · cases e; exact h
      · split at e
        · cases e
        · rename_i h1
          have ht := h.takeRecord h1
          refine MemoryInv.refill ?_ e
          cases hf : Machine.foldIn _ P k d _ with
          | none => exact ht
          | some s2 => exact MemoryInv.foldIn ht hf
    · cases e; exact h

theorem MemoryInv.parkIn (h : MemoryInv s) {P k w : Nat} {d : StoreDecl} {u : Update} (e : parkIn s P k d w u = some t) : MemoryInv t := by
  unfold Machine.parkIn at e; split at e
  · cases e; exact h
  · exact h.pushRecord e

theorem MemoryInv.parkUpdate (h : MemoryInv s) {P k : Nat} {d : StoreDecl} {u : Update} (e : parkUpdate s P k d u = some t) : MemoryInv t := by
  unfold Machine.parkUpdate at e; dsimp only at e
  obtain ⟨s1, h1, rfl⟩ := Option.map_eq_some_iff.1 e
  have hs := h.parkIn h1
  exact .ite hs.modSlice hs

theorem MemoryInv.arrive (h : MemoryInv s) {u : Update} (e : arrive s u = some t) : MemoryInv t := by
  unfold Machine.arrive at e; split at e
  · cases e; exact h
  · dsimp only at e
    split at e
    · exact h.parkIn e
    · exact h.foldIn e
    · split at e
      · exact h.foldIn e
      · exact h.parkUpdate e

theorem MemoryInv.answerCore (h : MemoryInv s) {u : Option Nat} {r : Reply} : MemoryInv (answerCore s u r) := by
  unfold Machine.answerCore; split
  · exact h
  · exact h

theorem Canonical.updateArrival (h : MemoryInv s) (k : Nat) : Canonical (execUpdateArrival k s) := by
  unfold execUpdateArrival; refine .next ?_; split
  · exact h
  · extract_lets ahead rest
    have hr : MemoryInv rest := h
    refine .ite h (.ite hr.answerCore (.ite h ?_))
    split
    · rename_i e; exact (MemoryInv.arrive hr e).answerCore
    · exact h

theorem MemoryInv.sealEntry (h : MemoryInv s) {P k : Nat} {d : StoreDecl} {e : Entry} {w : Option Nat} (he : sealEntry s P k d e w = some t) :
    MemoryInv t := by
  unfold Machine.sealEntry at he; split at he
  · cases he
  · cases he; exact MemoryInv.enterCache (by exact h)

theorem Canonical.sluiceSeal (h : MemoryInv s) (P : Nat) : Canonical (execSluiceSeal P s) := by
  refine .next ?_
  cases e : Option.bind _ _ with
  | none => exact h
  | some t =>
    obtain ⟨x, -, hx⟩ := Option.bind_eq_some_iff.1 e
    exact h.sealEntry hx

theorem MemoryInv.sendUpdate (h : MemoryInv s) {u st key : Nat} {v vt : Word} : MemoryInv (sendUpdate s u st key v vt) := h

theorem MemoryInv.sendFan (h : MemoryInv s) {u st src : Nat} {v vt pc : Word} {seq : BitVec 16} : MemoryInv (sendFan s u st src v vt pc seq).2 := by
  unfold Machine.sendFan; extract_lets c P tag late; split
  · exact h
  extract_lets va
  have hl : ∀ (s : State) c fa, MemoryInv s → MemoryInv (late s c fa) := fun _ _ _ h => h.bumpSeq.postShared
  split
  · exact h
  split
  · rename_i p _
    have hf := h.faultRegen (va := p) (src := some (.fanout P))
    split
    · rename_i e; rw [e] at hf; exact hl _ _ _ hf
    · rename_i e; rw [e] at hf; exact hf
  · exact h
  · exact hl _ _ _ h
  · rename_i e
    have h1 := (loadBytes_accesses _ _ _).keepsMemory _ _ _ h e
    exact (MemoryInv.ite h1 (by exact h1)).bumpSeq

theorem MemoryInv.markNrst (h : MemoryInv s) {u : Nat} : MemoryInv (markNrst s u) := by
  unfold Machine.markNrst; split
  · exact h.modTask
  · exact h

theorem MemoryInv.releaseEntries {u : Nat} : ∀ {l : List OutEntry} {s : State}, MemoryInv s → MemoryInv (releaseEntries u l s).2
  | [], _, h => h
  | .update .. :: l, _, h => (MemoryInv.releaseEntries (l := l) h.sendUpdate :)
  | .fan st src v vt pc seq :: l, s, h => by
    unfold Machine.releaseEntries
    have hf := h.sendFan (u := u) (st := st) (src := src) (v := v) (vt := vt) (pc := pc) (seq := seq)
    split
    · rename_i e; rw [e] at hf; exact MemoryInv.releaseEntries hf
    · rename_i e; rw [e] at hf; exact hf.modCore.markNrst

theorem MemoryInv.releaseOutbox (h : MemoryInv s) {u : Nat} : MemoryInv (releaseOutbox s u).2 := h.releaseEntries
theorem MemoryInv.releaseEarly (h : MemoryInv s) {u : Nat} : MemoryInv (releaseEarly s u).2 := h.markNrst.releaseOutbox
theorem MemoryInv.noteSent (h : MemoryInv s) {u : Nat} : MemoryInv (noteSent s u) := h

/-! ## The event instructions -/

theorem checkEvent_keeps (op : EvOp) (st : Nat) (a : Word) : Keeps MemoryInv (checkEvent op st a) := by
  unfold checkEvent
  refine .bind .get fun s => ?_
  extract_lets c
  split
  · exact .trap _
  · exact .bind (.need _ _) fun _ => .bind (.need _ _) fun _ => .bind (.need _ _) fun _ => .bind (.need _ _) fun _ => .pure _

theorem enterOutbox_keeps (u : Nat) (e : OutEntry) (log : Bool) : Keeps MemoryInv (enterOutbox u e log) := by
  unfold enterOutbox
  refine .get_bind fun s h => ?_
  extract_lets r
  have hr : MemoryInv r.2 := by
    dsimp only [r]; split
    · exact h.releaseEarly
    · exact h
  clear_value r
  obtain ⟨waits, s1⟩ := r
  cases waits with
  | true => exact .bind (.set hr) fun _ => .pure _
  | false => exact .bind (.set (MemoryInv.ite hr.modCore hr).modCore.noteSent) fun _ => .pure _

theorem postUpdate_keeps (st : Nat) (a b : Word) : Keeps MemoryInv (postUpdate st a b) :=
  .bind (checkEvent_keeps _ _ _) fun _ => .get_bind fun _ h => .ite (enterOutbox_keeps _ _ _)
    (.bind (.set h.sendUpdate.noteSent) fun _ => .pure _)

theorem postTested_keeps (st : Nat) (a b : Word) : Keeps MemoryInv (postTested st a b) := by
  unfold postTested
  refine .bind (checkEvent_keeps _ _ _) fun d => .get_bind fun s h => ?_
  refine .ite (.bind (.need _ _) fun _ => enterOutbox_keeps _ _ _) (.ite (.bind (.need _ _) fun _ => ?_) (.bind (.set h) fun _ => .pure _))
  split
  · rename_i e; exact .bind (.set (h.arrive e).bumpSeq.noteSent) fun _ => .pure _
  · exact .bind (.set h) fun _ => .pure _

theorem postFan_keeps (st : Nat) (a b : Word) : Keeps MemoryInv (postFan st a b) := by
  unfold postFan
  refine .bind (checkEvent_keeps _ _ _) fun d => .get_bind fun s h => .ite (enterOutbox_keeps _ _ _) ?_
  have hf := h.sendFan (u := s.cur) (st := st) (src := fld a 31 0) (v := b) (vt := (s.core s.cur).vt) (pc := (s.core s.cur).pc)
    (seq := seqAfter (s.core s.cur).seqNo)
  split
  · rename_i e; rw [e] at hf; exact .bind (.set hf) fun _ => .pure _
  · rename_i e; rw [e] at hf; exact .bind (.set hf.modCore.noteSent) fun _ => .pure _

theorem peekStore_keeps (d : GReg) (a : Word) (st : Nat) : Keeps MemoryInv (peekStore d a st) :=
  .bind (checkEvent_keeps _ _ _) fun _ => .get_bind fun _ h => .ite (.bind .setG fun _ => .pure _) (.bind (.set h) fun _ => .pure _)

theorem Canonical.evdone (h : MemoryInv s) : Canonical (execEvdone s) := by
  unfold execEvdone; refine .ite (.next h.takeTrap) ?_
  have hr := h.releaseOutbox (u := s.cur)
  split
  · rename_i e; rw [e] at hr; exact .next hr
  · rename_i e; rw [e] at hr; exact .next hr.noteSent.releaseTo.endRetired

theorem Canonical.evstat (h : MemoryInv s) (d : GReg) (sel : BitVec 7) : Canonical (execEvstat d sel s) := by
  unfold execEvstat; split
  · exact .next (MemoryInv.ite h.acquire h).wg.retire
  · exact .next h.takeTrap

theorem checkSegments_accesses (w : Who) : ∀ l, Accesses (checkSegments w l)
  | [] => .pure _
  | (_, _) :: l => .bind (pieceOf_accesses _ _ _) fun _ => .bind (rightsM_accesses _ _) fun _ => .bind (.need _ _) fun _ => checkSegments_accesses w l

theorem declareStore_keeps (st : Nat) (va : Word) : Keeps MemoryInv (declareStore st va) := by
  unfold declareStore
  refine .access (aligned_accesses _ _) fun _ => .bind (.need _ _) fun _ => .bind .get fun _ => .access (resolve_accesses _ _ _ _) fun _ =>
    .access (noPoison_accesses _ _) fun _ => .access (readPieces_accesses _ _) fun _ => .bind .get fun _ => .bind (.need _ _) fun _ =>
    .bind (.need _ _) fun _ => .bind (.need _ _) fun _ => .access (checkSegments_accesses _ _) fun _ => .get_bind fun s h => ?_
  split
  · exact .trap _
  · exact .bind (.set h) fun _ => .pure _

theorem dropStore_keeps (st : Nat) (va : Word) : Keeps MemoryInv (dropStore st va) := by
  unfold dropStore
  refine .bind .get fun s => ?_
  extract_lets k
  split
  · exact .trap _
  · rename_i slot d _
    have drop : Keeps MemoryInv (do
        let t ← get
        let last := d.det != 0 && (storesOf t k).length == 1
        if !storeIdle t slot d || (last && !messagesIdle t k) then pure Flow.stay
        else
          let n := storeHeld t slot
          set (Machine.dropStores t (fun x => x.kern == k && x.st == st))
          if va ≠ 0 then storeScalar va 8 (word n) false
          pure Flow.next) := .get_bind fun t h => .ite (.pure _) (.bind (.set h.dropStores) fun _ =>
      .guard (storeScalar_accesses _ _ _ _).keepsMemory fun _ => .pure _)
    exact .ite (.access (aligned_accesses _ _) fun _ => .bind (.need _ _) fun _ => .access (resolve_accesses _ _ _ _) fun ps =>
      .access (ringsFree_accesses ps) fun _ => .access (noDead_accesses ps) fun _ => drop) drop

/-! ## Fan-out at a receiving cluster -/

theorem fanDword_accesses (w : Who) (off : Nat) : Accesses (fanDword w off) :=
  .bind (aligned_accesses _ _) fun _ => .bind (loadBytes_accesses _ _ _) fun _ => .pure _

theorem findSource_accesses (w : Who) (dir dlog src : Nat) : ∀ n k, Accesses (findSource w dir dlog src n k)
  | 0, _ => .pure _
  | n + 1, k => by
    unfold findSource
    refine .bind (fanDword_accesses _ _) fun a => ?_
    split
    · exact .pure _
    split
    · exact .bind (fanDword_accesses _ _) fun _ => .pure _
    · exact findSource_accesses w dir dlog src n _

theorem MemoryInv.fanUpdates {w : Who} {d : StoreDecl} {f : FanSource} {off : Nat} : ∀ {n j : Nat} {s : State}, MemoryInv s →
    MemoryInv (fanUpdates w d f off n j s).2
  | 0, _, _, h => h
  | n + 1, j, s, h => by
    unfold Machine.fanUpdates; split
    · exact h
    · rename_i e
      have h1 := (fanDword_accesses _ _).keepsMemory _ _ _ h e
      exact MemoryInv.fanUpdates (.ite h1 h1)

theorem MemoryInv.fanLeaves (h : MemoryInv s) {f : FanSource} {L : Nat} : MemoryInv (fanLeaves s f L) := h

theorem MemoryInv.fanReaches (h : MemoryInv s) {f : FanSource} {P : Nat} : MemoryInv (fanReaches s f P) := by
  unfold Machine.fanReaches; extract_lets gone
  have hg : MemoryInv gone := h.fanLeaves
  split
  · exact hg
  dsimp only
  split
  · exact h
  · exact hg.postShared
  · rename_i e; exact (findSource_accesses _ _ _ _ _ _).keepsMemory _ _ _ hg e
  · rename_i b s1 e
    have h1 := (findSource_accesses _ _ _ _ _ _).keepsMemory _ _ _ hg e
    have hf := MemoryInv.fanUpdates (w := clusterWho (some f.tenant) P) (d := ‹StoreDecl›) (f := f) (off := fld b 21 0) (n := fld b 47 32) (j := 0) h1
    split
    · rename_i e'; rw [e'] at hf; exact hf
    · exact h
    · rename_i e'; rw [e'] at hf; exact hf.postShared

theorem Canonical.fanoutSourceArrival (h : MemoryInv s) (P k : Nat) : Canonical (execFanoutSourceArrival P k s) := by
  unfold execFanoutSourceArrival; refine .next ?_; split
  · exact h
  · exact .ite h h.fanReaches

theorem MemoryInv.sliceFails (h : MemoryInv s) {P : Nat} : MemoryInv (sliceFails s P) := MemoryInv.foldl (fun _ _ h => h.endKernel) _ h

theorem Canonical.refill (h : MemoryInv s) (P k : Nat) : Canonical (execRefill P k s) := by
  unfold execRefill; refine .next ?_; split
  · exact h
  · refine .ite h ?_
    split
    · rename_i e; exact h.refill e
    · exact h.sliceFails
    · exact h

end Sys2Proof
end

section
/-! Memory stays canonical: messages and windows. -/

namespace Sys2Proof

open Machine

variable {s t : State}

/-! ## Messages -/

/-- The state that an operation answers, if it answers one, has a canonical memory. -/
def SomeCanonical (x : Option State) : Prop := ∀ t, x = some t → MemoryInv t

theorem SomeCanonical.some (h : MemoryInv s) : SomeCanonical (some s) := by rintro _ ⟨⟩; exact h
theorem SomeCanonical.none : SomeCanonical none := fun _ e => nomatch e

theorem SomeCanonical.ite {c : Prop} [Decidable c] {x y : Option State} (hx : SomeCanonical x) (hy : SomeCanonical y) :
    SomeCanonical (if c then x else y) := by
  split
  · exact hx
  · exact hy

theorem SomeCanonical.bind {α : Type} {x : Option α} {f : α → Option State} (hf : ∀ a, SomeCanonical (f a)) : SomeCanonical (x.bind f) := by
  cases x with
  | none => exact .none
  | some a => exact hf a

theorem SomeCanonical.getD {x : Option State} (hx : SomeCanonical x) (h : MemoryInv s) : MemoryInv (x.getD s) := by
  cases x with
  | none => exact h
  | some t => exact hx t rfl


theorem MemoryInv.toContext (h : MemoryInv s) {P i : Nat} {m : Msg} : MemoryInv (toContext s P i m) := by
  unfold Machine.toContext; extract_lets s1
  have h1 : MemoryInv s1 := h.modTask
  split
  · have hw := h1.writeContext (P := P) (i := i) (ms := (savedMsgs ‹Task›.msgs ‹Task›.ports).take 16)
    exact SomeCanonical.getD (fun _ => MemoryInv.writeImage hw) hw
  · exact h1

theorem offer_canonical (h : MemoryInv s) (u : Nat) (m : Msg) : SomeCanonical (offer s u m) := by
  unfold offer; extract_lets stowed
  have hs : ∀ P i, SomeCanonical (stowed P i) := fun _ _ => .bind fun _ => .ite (.some h.toContext) .none
  split
  · exact .ite (.some h) .none
  · exact hs _ _
  · exact .bind fun _ => .bind fun _ => .ite (.some h.modTask) .none
  · split
    · exact .ite (.some h) .none
    · exact hs _ _
  · exact .none

theorem MemoryInv.lostMessage (h : MemoryInv s) {m : Msg} : MemoryInv (lostMessage s m) := h.postShared

theorem deliverCore_canonical (h : MemoryInv s) (m : Msg) : SomeCanonical (deliverCore s m) := by
  unfold deliverCore; extract_lets u P hold
  have hh : SomeCanonical hold := .ite (.some h) .none
  refine .ite (.ite .none (.some h.lostMessage)) (.ite hh ?_)
  split
  · rename_i e; exact .some (offer_canonical h _ _ _ e)
  · exact hh

theorem activate_canonical (h : MemoryInv s) (m : Msg) : SomeCanonical (activate s m) := by
  unfold activate; extract_lets P; split
  · exact .none
  · exact .some (MemoryInv.enterCache (by exact h))

theorem MemoryInv.holdParked (h : MemoryInv s) {P : Nat} {m : Msg} : MemoryInv (holdParked s P m) := by
  unfold Machine.holdParked; extract_lets c
  refine .ite h ?_
  split
  · exact h
  · refine .ite h.endKernel ?_
    exact SomeCanonical.getD (fun _ => h.deviceWrite) h

theorem MemoryInv.parkMessage (h : MemoryInv s) {P k w : Nat} {m : Msg} : MemoryInv (parkMessage s P m k w) := by
  unfold Machine.parkMessage; split
  dsimp only
  split
  · exact h.holdParked.modSlice
  · exact h.holdParked

theorem MemoryInv.unpark (h : MemoryInv s) {P : Nat} {m : Msg} : MemoryInv (unpark s P m) := h

theorem MemoryInv.deliverEach {P : Nat} : ∀ {l : List Msg} {s : State}, MemoryInv s → MemoryInv (deliverEach P l s)
  | [], _, h => h
  | m :: l, s, h => by
    unfold Machine.deliverEach
    have ho : SomeCanonical (if m.active then Machine.activate (Machine.unpark s P m) m else Machine.deliverCore (Machine.unpark s P m) m) :=
      .ite (activate_canonical h.unpark m) (deliverCore_canonical h.unpark m)
    split
    · rename_i e; exact MemoryInv.deliverEach (ho _ e)
    · exact h

theorem MemoryInv.deliverParked (h : MemoryInv s) {P : Nat} : MemoryInv (deliverParked s P) := .ite h h.deliverEach

theorem Canonical.messageDelivery (h : MemoryInv s) (k : Nat) : Canonical (execMessageDelivery k s) := by
  unfold execMessageDelivery; refine .next ?_; split
  · exact h
  · rename_i m _
    extract_lets P sealed rest
    have hr : MemoryInv rest := h
    refine .ite (.ite h hr.lostMessage) (.ite h ?_)
    split
    · exact hr.parkMessage
    · exact .ite h (SomeCanonical.getD (.ite (activate_canonical hr m) (deliverCore_canonical hr m)) h)

theorem sendMessage_keeps (a : Word) (x : VVal) : Keeps MemoryInv (sendMessage a x) := by
  unfold sendMessage
  refine .get_bind fun s h => .bind (.need _ _) fun _ => .bind (.need _ _) fun _ => .bind (.need _ _) fun _ => .bind (.need _ _) fun _ => ?_
  refine .ite (.pure _) (.bind (.set (MemoryInv.bumpSeq ?_)) fun _ => .pure _)
  exact h.releaseTo

theorem Canonical.recv (h : MemoryInv s) (d : VReg) : Canonical (execRecv d s) := by
  unfold execRecv; extract_lets u; split
  · exact .next h
  · exact .next h.modCore.acquire.wv.fillInbox.retire

theorem checkPort_keeps (u p : Nat) : Keeps MemoryInv (checkPort u p) := .bind .get fun _ => .bind (.need _ _) fun _ => .need _ _

theorem sendPort_keeps (p : Nat) (x : VVal) : Keeps MemoryInv (sendPort p x) :=
  .get_bind fun _ h => .bind (checkPort_keeps _ _) fun _ => .ite (.bind (.set h) fun _ => .pure _) (.ite (.pure _)
    (.bind (.set h.releaseTo.bumpSeq.modCore) fun _ => .pure _))

theorem recvPort_keeps (d : VReg) (p : Nat) : Keeps MemoryInv (recvPort d p) := by
  unfold recvPort
  refine .get_bind fun s h => .bind (checkPort_keeps _ _) fun _ => ?_
  split
  · exact .bind (.set h) fun _ => .pure _
  · exact .bind (.set h.modCore.acquire.wv) fun _ => .pure _

theorem Canonical.portTransfer (h : MemoryInv s) (u : Nat) (port : BitVec 2) : Canonical (execPortTransfer u port s) := by
  unfold execPortTransfer; dsimp only; refine .next ?_; split
  · exact h
  · exact .ite h h

/-! ## Windows -/

theorem MemoryInv.parkedRecords {P k w : Nat} {d : StoreDecl} : ∀ {l : List (Option Nat × Nat)} {s t : State} {r : List (Item × ParkPlace)},
    MemoryInv s → parkedRecords P k d w l s = .ok (r, t) → MemoryInv t
  | [], _, _, _, h, e => by cases e; exact h
  | (x, n) :: l, s, t, r, h, e => by
    unfold Machine.parkedRecords at e
    split at e
    · obtain ⟨⟨bs, s1⟩, h1, e⟩ := except_bind_ok.1 e
      obtain ⟨⟨r', s2⟩, h2, e⟩ := except_bind_ok.1 e
      cases e
      exact MemoryInv.parkedRecords (h.readRecord h1) h2
    · exact MemoryInv.parkedRecords h e

theorem MemoryInv.nextParked (h : MemoryInv s) {P k w : Nat} {d : StoreDecl} {x : Option (Item × ParkPlace)}
    (e : nextParked s P k d w = .ok (x, t)) : MemoryInv t := by
  unfold Machine.nextParked at e
  obtain ⟨⟨r, s1⟩, h1, e⟩ := except_bind_ok.1 e
  cases e
  exact MemoryInv.parkedRecords h h1

theorem MemoryInv.foldWindow {P k w : Nat} {d : StoreDecl} : ∀ {n : Nat} {s t : State} {b : Bool}, MemoryInv s → foldWindow P k d w n s = .ok (b, t) →
    MemoryInv t
  | 0, _, _, _, h, e => by cases e; exact h
  | n + 1, s, t, b, h, e => by
    unfold Machine.foldWindow at e
    obtain ⟨⟨x, s1⟩, h1, e⟩ := except_bind_ok.1 e
    have hs := h.nextParked h1
    rcases x with _ | ⟨x, j | j⟩
    · cases e; exact hs
    · dsimp only at e
      split at e
      · cases e; exact hs
      · rename_i h2
        have h3 := hs.foldIn h2
        exact MemoryInv.foldWindow h3.modSlice e
    · obtain ⟨⟨y, s2⟩, h2, e⟩ := except_bind_ok.1 e
      dsimp only at e
      split at e
      · cases e
      · rename_i h3
        have h4 := hs.takeRecord h2
        exact MemoryInv.foldWindow (h4.foldIn h3) e

theorem MemoryInv.phaseStep (h : MemoryInv s) {P k w : Nat} {d : StoreDecl} : MemoryInv (phaseStep s P k d w) := by
  unfold Machine.phaseStep; extract_lets y stop
  have hstop : ∀ e, MemoryInv (stop e) := by
    intro e; cases e with
    | poison => exact h.sliceFails
    | held => exact h
  split
  · exact hstop _
  · rename_i h1
    split
    · exact hstop _
    · rename_i h2
      have hf := MemoryInv.foldWindow h h1
      have hs := MemoryInv.refill hf h2
      exact .ite hs.modSlice hs.modSlice

theorem MemoryInv.windowStep (h : MemoryInv s) {P k : Nat} {d : StoreDecl} : MemoryInv (windowStep s P k d) := by
  unfold Machine.windowStep; extract_lets y b ended
  have he : MemoryInv ended := h.modSlice
  refine .ite h ?_
  split
  · exact h.phaseStep
  · refine .ite h ?_
    split
    · exact .ite h.phaseStep he
    · exact he

theorem Canonical.windowPhase (h : MemoryInv s) (P k : Nat) : Canonical (execWindowPhase P k s) := by
  unfold execWindowPhase; extract_lets s1
  have h1 : MemoryInv s1 := by
    dsimp only [s1]; split
    · exact .ite h h.windowStep
    · exact h
  exact .next h1.deliverParked

theorem Canonical.kernelComplete (h : MemoryInv s) (q : Nat) : Canonical (execKernelComplete q s) := by
  unfold execKernelComplete; refine .next ?_; split
  · exact h
  · exact .ite h.dropStores.dropMessages.forgetSeq.completeRec.modQueue h

end Sys2Proof
end

section
/-! Memory stays canonical: pre-emption and lost cores. -/

namespace Sys2Proof

open Machine

variable {s t : State}

/-! ## Pre-emption -/

theorem storeSectors_accesses (w : Who) (tag : Nat → Half) : ∀ (n k : Nat) (va : Word) (bs : List Byte), Accesses (storeSectors w tag n k va bs)
  | 0, _, _, _ => .pure _
  | _ + 1, _, _, _ => .bind (storeBytes_accesses _ _ _ _ _ _) fun _ => storeSectors_accesses w tag _ _ _ _

theorem MemoryInv.gangSaved (h : MemoryInv s) {P i : Nat} : MemoryInv (gangSaved s P i) := by
  unfold Machine.gangSaved; extract_lets s1
  have h1 : MemoryInv s1 := MemoryInv.foldl (fun _ _ h => h.modTile) _ h
  split
  · exact h1
  · exact .ite h1.modTask.writeTcbState.modTask h1.modTask.writeTcbState.enterLevel

theorem Canonical.tileSave (h : MemoryInv s) (k : Nat) : Canonical (execTileSave k s) := by
  unfold execTileSave; extract_lets P x; refine .next ?_; split
  · split
    · exact h
    refine .ite h (.ite h.endKernel ?_)
    split
    · exact h.waitFor
    · rename_i e
      have h1 := ((storeSectors_accesses _ _ _ _ _ _).keepsMemory _ _ _ h e)
      exact .ite h1.modTask.modTile.gangSaved h1.modTask.modTile
  · exact h

theorem MemoryInv.writeOwed (h : MemoryInv s) {u : Nat} {r : TrapRecord} : MemoryInv (writeOwed s u r) := .ite h h
theorem MemoryInv.dropReserv (h : MemoryInv s) {P : Nat} {us : List Nat} : MemoryInv (dropReserv s P us) := h

theorem MemoryInv.memberBack (h : MemoryInv s) {P i r : Nat} {x : Task} {m : Member} : MemoryInv (memberBack s P i r x m) :=
  h.restoreOn.modCore.fillInbox

theorem MemoryInv.gangBack (h : MemoryInv s) {P i : Nat} {x : Task} : MemoryInv (gangBack s P i x) := by
  unfold Machine.gangBack; extract_lets tiles s1 s2 s3
  have h1 : MemoryInv s1 := MemoryInv.foldl (fun _ _ h => h.modTile) _ h
  have h2 : MemoryInv s2 := MemoryInv.foldl (fun _ _ h => h.memberBack) _ h1
  have h3 : MemoryInv s3 := MemoryInv.foldl (fun _ _ h => h.modCore) _ h2
  exact h3.modTask.dropReserv

theorem Canonical.tileSaveRefused (h : MemoryInv s) (k : Nat) : Canonical (execTileSaveRefused k s) := by
  unfold execTileSaveRefused; extract_lets P u; refine .next ?_; split
  · split
    · exact .ite h.gangBack.writeOwed h
    · exact h
  · exact h

theorem Canonical.tileReload (h : MemoryInv s) (k : Nat) : Canonical (execTileReload k s) := by
  unfold execTileReload; extract_lets P us fits; refine .next ?_; split
  · split
    · exact h
    split
    · rename_i e
      have h1 := (loadBytes_accesses _ _ _).keepsMemory _ _ _ h e
      exact (MemoryInv.foldl (fun _ _ h => h.settle) _ h1).modTile
    · exact .ite h.endKernel h
    · exact h.waitFor
  · exact h

theorem saveMember_canonical (h : MemoryInv s) (u i : Nat) (x : Task) (r : Option TrapRecord) : SomeCanonical (saveMember s u i x r) := by
  unfold saveMember; extract_lets P s1 c img m o
  have h1 : MemoryInv s1 := h.latchExpired.dropWait.releaseTo
  have ho : SomeCanonical o := by
    refine .ite (fun t e => ?_) (.some h1)
    obtain ⟨s2, h2, rfl⟩ := Option.map_eq_some_iff.1 e
    exact (h1.writeImage h2).writeContext
  intro t e
  obtain ⟨s2, h2, rfl⟩ := Option.map_eq_some_iff.1 e
  exact (ho _ h2).modTask.modCore

theorem MemoryInv.refuseStow (h : MemoryInv s) {u : Nat} : MemoryInv (refuseStow s u) := h.modCore.dropReserv.writeOwed

theorem MemoryInv.stowAreaIf (h : MemoryInv s) {c : Prop} [Decidable c] {P i : Nat} {x : Task} :
    MemoryInv (if c then Machine.stowArea s P i x else (false, s)).2 := by
  split
  · exact h.stowArea
  · exact h

theorem MemoryInv.stowMember (h : MemoryInv s) {u i : Nat} {x : Task} {r : Option TrapRecord} : MemoryInv (stowMember s u i x r) := by
  unfold Machine.stowMember; extract_lets P
  have ha := h.stowAreaIf (c := (s.core u).ctx.rank = 0) (P := P) (i := i) (x := x)
  split
  · rename_i e; rw [e] at ha; exact ha.holdStow
  · rename_i e; rw [e] at ha
    split
    · exact ha.gangBack.refuseStow
    · rename_i e'
      have hm := (saveMember_canonical ha _ _ _ _ _ e').modTask (P := P) (i := i) (f := fun t => { t with status := .stowed })
      exact .ite (MemoryInv.foldl (fun _ _ h => h.modTile) _ hm) hm

theorem MemoryInv.releaseEarlyIf (h : MemoryInv s) {b : Bool} {u : Nat} : MemoryInv (if b then Machine.releaseEarly s u else (false, s)).2 := by
  split
  · exact h.releaseEarly
  · exact h

theorem stowAlone_canonical (h : MemoryInv s) (u i : Nat) (x : Task) (r : Option TrapRecord) (why : StowWhy) : SomeCanonical (stowAlone s u i x r why) := by
  unfold stowAlone
  have hr := h.releaseEarlyIf (b := isAct s u) (u := u)
  split
  · rename_i e; rw [e] at hr; exact .some hr.holdStow
  · rename_i s1 e; rw [e] at hr
    have ha := hr.stowArea (P := clusterOf u) (i := i) (x := x)
    split
    · rename_i e; rw [e] at ha; exact .some ha.holdStow
    · rename_i e; rw [e] at ha; exact fun _ e => MemoryInv.stowOn ha e

theorem MemoryInv.stowTask (h : MemoryInv s) {u i : Nat} {x : Task} {r : Option TrapRecord} : MemoryInv (stowTask s u i x r) := by
  unfold Machine.stowTask; split
  · rename_i e
    have hs := stowAlone_canonical h _ _ _ _ _ _ e
    exact .ite hs.enterLevel hs
  · exact h.refuseStow

theorem MemoryInv.stowOut (h : MemoryInv s) {u i : Nat} {x : Task} {r : TrapRecord} : MemoryInv (stowOut s u i x r) := by
  unfold Machine.stowOut; extract_lets o
  refine SomeCanonical.getD ?_ h.modCore
  refine .ite ?_ (stowAlone_canonical h _ _ _ _ _)
  have ha := h.stowAreaIf (c := (s.core u).ctx.rank = 0) (P := clusterOf u) (i := i) (x := x)
  split
  · rename_i e; rw [e] at ha; exact .some ha.holdStow
  · rename_i e; rw [e] at ha; exact saveMember_canonical ha _ _ _ _

theorem MemoryInv.goOnStow (h : MemoryInv s) {u : Nat} {why : StowWhy} : MemoryInv (goOnStow s u why) := by
  unfold Machine.goOnStow; split
  · cases why with
    | yield => exact h.yieldStow
    | ship va => exact h.shipContext
    | stowOut r => exact h.stowOut
    | preempt => exact .ite h.stowMember h.stowTask
  · exact h

theorem Canonical.preemptStow (h : MemoryInv s) (u : Nat) : Canonical (execPreemptStow u s) := by
  unfold execPreemptStow; refine .next ?_; split
  · exact .ite h h.goOnStow
  · refine .ite ?_ h
    have hb := h.beginStow (u := u) (why := .preempt)
    split
    · rename_i e; rw [e] at hb; exact hb.goOnStow
    · rename_i e; rw [e] at hb; exact hb

theorem MemoryInv.closePorts (h : MemoryInv s) {u : Nat} : MemoryInv (closePorts s u) := by
  refine MemoryInv.foldl (fun s p h => ?_) _ h
  exact .ite h.takeTrap h

theorem MemoryInv.sealCore (h : MemoryInv s) {u : Nat} : MemoryInv (sealCore s u) := by
  unfold Machine.sealCore; extract_lets P s1 s2 s3
  have h1 : MemoryInv s1 := h.dropWait.releaseStopped.orphan.releaseHandles
  have h2 : MemoryInv s2 := MemoryInv.foldl (fun _ _ h => h.enterLevel) _ h1
  have h3 : MemoryInv s3 := h2.modCluster
  exact h3.modCore.closePorts

theorem MemoryInv.loseTask (h : MemoryInv s) {P i u : Nat} {pc : Word} {b : Bool} : MemoryInv (loseTask s P i u pc b) := by
  unfold Machine.loseTask; split
  · exact h
  · extract_lets s1 again
    have h1 : MemoryInv s1 := .ite h.writeTcbState h
    exact .ite h1.leaveLevels.modTask h1.endKernel

theorem MemoryInv.loseCore (h : MemoryInv s) {u : Nat} {b : Bool} : MemoryInv (loseCore s u b) := by
  unfold Machine.loseCore; extract_lets c s1
  have h1 : MemoryInv s1 := h.sealCore
  split
  · exact h1.loseTask
  · exact h1

theorem Canonical.coreKill (h : MemoryInv s) (u : Nat) : Canonical (execCoreKill u s) := .next (.ite h h.loseCore.writeOwed)

theorem Canonical.stowTear (h : MemoryInv s) (u : Nat) : Canonical (execStowTear u s) := by
  unfold execStowTear; refine .next ?_; split
  · exact .ite h.loseCore h
  · exact h

theorem readmit_canonical (h : MemoryInv s) (P i : Nat) : SomeCanonical (readmit s P i) := by
  unfold readmit; split
  · exact .none
  refine .ite .none ?_
  extract_lets s1
  have h1 : MemoryInv s1 := h.writeTcbState
  split
  · exact .none
  · rename_i e; exact .ite .none (.some (h1.deviceRead e).dropEntry.admitTask)

theorem restartTorn_canonical (h : MemoryInv s) (P i : Nat) : SomeCanonical (restartTorn s P i) := by
  unfold restartTorn; split
  · exact .ite .none (.ite (readmit_canonical h _ _) (.some h.enterLevel))
  · exact .none

theorem Canonical.taskRestart (h : MemoryInv s) (P i : Nat) : Canonical (execTaskRestart P i s) := by
  unfold execTaskRestart; refine .next ?_; split
  · exact .ite ((restartTorn_canonical h _ _).getD h) h
  · exact h

end Sys2Proof
end

section
/-! Memory stays canonical: the supervisor. -/

namespace Sys2Proof

open Machine

variable {s t : State}

/-! ## The supervisor -/

theorem Canonical.preciseTrap (h : MemoryInv s) (u : Nat) : Canonical (execPreciseTrap u s) := by
  unfold execPreciseTrap; refine .next ?_; split
  · exact h.writeReserved
  · exact h.writeOwed
  · exact h

theorem Canonical.heldRecordEnter (h : MemoryInv s) (P : Nat) : Canonical (execHeldRecordEnter P s) := by
  unfold execHeldRecordEnter; refine .next ?_; split
  · exact h
  · exact h

theorem Canonical.mbstatFree (h : MemoryInv s) (P : Nat) (k : BitVec 6) : Canonical (execMbstatFree P k s) := .next h

/-- A command leaves memory canonical when its effect does. -/
theorem MemoryInv.commanded (h : MemoryInv s) {u code : Nat} {v : Word} {f : State → Option State} (hf : ∀ s, MemoryInv s → SomeCanonical (f s)) :
    MemoryInv (commanded u code v f s) := by
  unfold Machine.commanded; extract_lets put
  have hput : ∀ n s, MemoryInv s → MemoryInv (put n s) := fun _ _ h => h
  refine .ite h ?_
  split
  · rename_i e; split at e
    · cases e
    · exact hf _ (hput _ _ h) _ e
  · exact hput _ _ h

theorem Canonical.command (h : MemoryInv s) {u code : Nat} {v : Word} {f : State → Option State} (hf : ∀ s, MemoryInv s → SomeCanonical (f s)) :
    Canonical (command u code v f s) := .next (h.commanded hf)

theorem editImage_canonical (h : MemoryInv s) (P i : Nat) (x : Task) (r : Option Nat) (f : List Byte → List Byte) : SomeCanonical (editImage s P i x r f) := by
  unfold editImage; extract_lets inMem
  have hm : ∀ s, MemoryInv s → SomeCanonical (inMem s) := by
    intro s h t e
    obtain ⟨⟨bs, s1⟩, h1, e⟩ := Option.bind_eq_some_iff.1 e
    exact (h.readImage h1).writeImage e
  split
  · exact hm _ h
  · refine .bind fun m => ?_
    exact .ite (hm _ h.modTask) (.some h.modTask)

theorem MemoryInv.makeReady (h : MemoryInv s) {P i : Nat} : MemoryInv (makeReady s P i) := h.leaveLevels.modTask.enterLevel

theorem MemoryInv.gangReady (h : MemoryInv s) {P i : Nat} : MemoryInv (gangReady s P i) := by
  unfold Machine.gangReady; split
  · exact .ite h.enterLevel h
  · exact h

theorem SomeCanonical.map {x : Option State} {f : State → State} (hx : SomeCanonical x) (hf : ∀ s, MemoryInv s → MemoryInv (f s)) :
    SomeCanonical (x.map f) := by
  intro t e
  obtain ⟨s, hs, rfl⟩ := Option.map_eq_some_iff.1 e
  exact hf s (hx s hs)

theorem MemoryInv.resumeCore (h : MemoryInv s) {u : Nat} {r : TrapRecord} : MemoryInv (resumeCore s u r) := h

theorem resumeTrap_canonical (u : Nat) (s : State) (h : MemoryInv s) : SomeCanonical (resumeTrap u s) := by
  unfold resumeTrap; extract_lets P; split
  · exact .ite .none (.some h.resumeCore)
  · split
    · exact .ite .none (.bind fun x => (editImage_canonical h _ _ _ _ _).map fun s h => .ite h.makeReady h.gangReady)
    · exact .none

theorem stowOutTrap_canonical (u : Nat) (s : State) (h : MemoryInv s) : SomeCanonical (stowOutTrap u s) := by
  unfold stowOutTrap; split
  · refine .ite .none ?_
    rename_i r _ _ _ _ _
    have hb := h.beginStow (u := u) (why := .stowOut r)
    split
    · rename_i e; rw [e] at hb; exact .some hb.stowOut
    · rename_i e; rw [e] at hb; exact .some hb
  · exact .none

theorem readyGang_canonical (h : MemoryInv s) (P i : Nat) (x : Task) : SomeCanonical (readyGang s P i x) := by
  unfold readyGang; split
  · exact .some h.endKernel
  · exact .none
  · rename_i s1 _ e
    have h1 : MemoryInv s1 := MemoryInv.foldlOption (fun s m t h e => by
      obtain ⟨x, -, e⟩ := Option.bind_eq_some_iff.1 e
      exact editImage_canonical h _ _ _ _ _ _ e) _ h e
    refine .ite (.some h1.gangReady) (.ite ?_ .none)
    intro t e
    obtain ⟨x, -, rfl⟩ := Option.map_eq_some_iff.1 e
    exact (MemoryInv.foldl (fun _ _ h => h.memberBack) _ h1).modTask

theorem readyTask_canonical (u i : Nat) (s : State) (h : MemoryInv s) : SomeCanonical (readyTask u i s) := by
  unfold readyTask; extract_lets P; split
  · exact .ite (readyGang_canonical h _ _ _) (.ite .none (.ite (.some h.endKernel) ((editImage_canonical h _ _ _ _ _).map fun _ h => h.makeReady)))
  · exact .none

theorem MemoryInv.returnMsgs (h : MemoryInv s) {P u : Nat} {ms : List Msg} : MemoryInv (returnMsgs s P u ms) := h

theorem MemoryInv.returnContext (h : MemoryInv s) {P i u : Nat} : MemoryInv (returnContext s P i u) := by
  unfold Machine.returnContext; split
  · exact h.returnMsgs.modTask
  · exact h

theorem MemoryInv.endSaved (h : MemoryInv s) {P i k u : Nat} : MemoryInv (endSaved s P i k u) := by
  unfold Machine.endSaved; split
  · exact h
  · extract_lets s1 gone s2
    have h1 : MemoryInv s1 := by
      dsimp only [s1]; split
      · exact MemoryInv.foldl (fun _ _ h => h.releaseHandle) _ h.returnMsgs
      · exact h
    have h2 : MemoryInv s2 := h1.modTask
    exact .ite h2.gangReady h2.postSetBits.dropEntry

theorem endTrapped_canonical (u : Nat) (s : State) (h : MemoryInv s) : SomeCanonical (endTrapped u s) := by
  unfold endTrapped; extract_lets P; split
  · exact .some h.releaseTo.endOn.eventNow
  · split
    · exact .some h.endSaved
    · intro t e
      obtain ⟨x, -, rfl⟩ := Option.map_eq_some_iff.1 e
      exact h.returnContext.postSetBits.dropEntry
    · exact .none

theorem killKernel_canonical (u k : Nat) (s : State) (h : MemoryInv s) : SomeCanonical (killKernel u k s) := by
  unfold killKernel; split
  · exact .some h.endKernel
  · exact .none

theorem MemoryInv.unseat (h : MemoryInv s) {P i u : Nat} : MemoryInv (unseat s P i u) := by
  unfold Machine.unseat; extract_lets us s1
  have h1 : MemoryInv s1 := MemoryInv.foldl (fun _ _ h => h.dropWait.releaseStopped.freeCore.orphan) _ h
  exact MemoryInv.foldl (fun _ _ h => h.modTile) _ h1

theorem restartTask_canonical (u i : Nat) (s : State) (h : MemoryInv s) : SomeCanonical (restartTask u i s) := by
  unfold restartTask; extract_lets P; split
  · exact readmit_canonical h.unseat _ _
  · split
    · exact readmit_canonical h.returnContext _ _
    · exact .bind fun _ => .ite (restartTorn_canonical h _ _) .none

theorem MemoryInv.loadHandle (h : MemoryInv s) {P : Nat} {w : Word} {x : Handle} (e : loadHandle s P w = some (x, t)) : MemoryInv t := by
  unfold Machine.loadHandle at e; dsimp only at e
  split at e
  · cases e; exact h
  split at e
  · split at e
    · cases e; exact h
    · cases e
  split at e
  · cases e
  · obtain ⟨⟨id, s1⟩, h1, e⟩ := Option.map_eq_some_iff.1 e
    cases e
    exact h.bindRing h1

theorem MemoryInv.loadHandles {P : Nat} : ∀ {l : List Word} {s t : State} {xs : List Handle}, MemoryInv s → loadHandles s P l = some (xs, t) → MemoryInv t
  | [], _, _, _, h, e => by cases e; exact h
  | w :: l, s, t, xs, h, e => by
    unfold Machine.loadHandles at e; split at e
    · cases e
    · rename_i h1
      obtain ⟨⟨ys, s2⟩, h2, e⟩ := Option.map_eq_some_iff.1 e
      cases e
      exact MemoryInv.loadHandles (h.loadHandle h1) h2

theorem MemoryInv.loadedTask (h : MemoryInv s) {u tenant det : Nat} {img : List Byte} {k : KKey} {x : Task}
    (e : loadedTask s u img k tenant det = some (x, t)) : MemoryInv t := by
  unfold Machine.loadedTask at e; dsimp only at e
  split at e
  · cases e; exact h
  split at e
  · cases e
  · rename_i h1; split at e
    · cases e
    · cases e; exact h.deviceRead h1

theorem loadTask_canonical (u : Nat) (a : Word) (s : State) (h : MemoryInv s) : SomeCanonical (loadTask u a s) := by
  unfold loadTask
  intro t e
  dsimp only at e
  split at e
  · cases e
  obtain ⟨i, -, e⟩ := Option.bind_eq_some_iff.1 e
  obtain ⟨⟨img, s1⟩, h1, e⟩ := Option.bind_eq_some_iff.1 e
  obtain ⟨⟨n, q⟩, -, e⟩ := Option.bind_eq_some_iff.1 e
  dsimp only at e
  split at e
  · cases e
  obtain ⟨⟨x, s2⟩, h2, e⟩ := Option.bind_eq_some_iff.1 e
  obtain ⟨⟨hs, s3⟩, h3, e⟩ := Option.bind_eq_some_iff.1 e
  cases e
  have hl := ((h.deviceRead h1).loadedTask h2).loadHandles h3
  exact hl.modCluster.modCore.countMember.begun

theorem ccmdEffect_canonical (u : Nat) (v : Word) (s : State) (h : MemoryInv s) : SomeCanonical (ccmdEffect u v s) := by
  unfold ccmdEffect; extract_lets operand; split
  · exact resumeTrap_canonical _ _ h
  · exact stowOutTrap_canonical _ _ h
  · exact readyTask_canonical _ _ _ h
  · exact endTrapped_canonical _ _ h
  · exact killKernel_canonical _ _ _ h
  · exact restartTask_canonical _ _ _ h
  · exact loadTask_canonical _ _ _ h
  · exact .none

theorem MemoryInv.ccmdWrite (h : MemoryInv s) {u : Nat} {v : Word} : MemoryInv (ccmdWrite u v s) := h.commanded (ccmdEffect_canonical u v)
theorem Canonical.watchdogExpiry (h : MemoryInv s) (u : Nat) : Canonical (execWatchdogExpiry u s) := .next (.ite h (.ite h.modCore h.takeTrap))

theorem MemoryInv.silentEnd (h : MemoryInv s) {u : Nat} : MemoryInv (silentEnd s u) := by
  unfold Machine.silentEnd; extract_lets c r s1
  have h1 : MemoryInv s1 := h.endKernel
  exact h1.sealCore.writeOwed

theorem MemoryInv.replay (h : MemoryInv s) {u : Nat} {m : Margin} : MemoryInv (replay s u m) := by
  unfold Machine.replay; extract_lets b s1
  have h1 : MemoryInv s1 := by
    dsimp only [s1]; split
    · exact h.leaveWait.parkCore
    · exact h.leaveWait.parkCore
    · exact h
  exact h1

theorem Canonical.shadowLatchReplay (h : MemoryInv s) (u : Nat) : Canonical (execShadowLatchReplay u s) :=
  .next (.ite h (.ite h.replay (.ite h.modCore.silentEnd h.replay)))

theorem MemoryInv.dropParked (h : MemoryInv s) {u : Nat} : MemoryInv (dropParked s u) := by
  have hp : MemoryInv (Machine.parkCore (Machine.leaveWait s u) u .none) := h.leaveWait.parkCore
  unfold Machine.dropParked; split
  · exact hp
  · exact hp
  · exact hp
  · exact hp
  · exact hp
  · exact h

theorem Canonical.checkerMismatch (h : MemoryInv s) (u : Nat) : Canonical (execCheckerMismatch u s) :=
  .next (.ite h (.ite h.replay.dropParked h.modCore.silentEnd))

end Sys2Proof
end

section
/-! Memory stays canonical: the change of the map, the system instructions and the registers. -/

namespace Sys2Proof

open Machine

variable {s t : State}

/-! ## Quarantine and the change of the map -/

theorem MemoryInv.endKernels (h : MemoryInv s) {P : Nat} {ks : List KKey} : MemoryInv (endKernels s P ks) := MemoryInv.foldl (fun _ _ h => h.endKernel) _ h
theorem MemoryInv.gatherMessages (h : MemoryInv s) {u : Nat} : MemoryInv (gatherMessages s u) := h

theorem MemoryInv.quarantine (h : MemoryInv s) {P : Nat} : MemoryInv (quarantine s P) := by
  unfold Machine.quarantine
  refine .ite h ?_
  extract_lets kids gone s1 s2 s3 stowed s4 s5
  have h1 : MemoryInv s1 := MemoryInv.foldl (fun _ _ h => h.dropEntry) _ h
  have h2 : MemoryInv s2 := MemoryInv.endKernels (by exact h1)
  have h3 : MemoryInv s3 := MemoryInv.foldl (fun _ _ h => h.gatherMessages) _ h2
  have h4 : MemoryInv s4 := MemoryInv.foldl (fun _ _ h => h.returnContext) _ h3
  have h5 : MemoryInv s5 := MemoryInv.foldl (fun _ _ h => .ite h h.loseCore) _ h4
  refine MemoryInv.foldl (fun s p h => ?_) _ h5
  split
  · exact .ite h.loseTask h
  · exact h

theorem Canonical.clusterQuarantine (h : MemoryInv s) (P : Nat) : Canonical (execClusterQuarantine P s) := .next h.quarantine
theorem Canonical.sliceError (h : MemoryInv s) (P : Nat) : Canonical (execSliceError P s) := .next h.sliceFails.quarantine
theorem Canonical.supervisorError (h : MemoryInv s) (P : Nat) : Canonical (execSupervisorError P s) := .next h.quarantine.modCluster.endKernels

theorem MemoryInv.recordsFrom {P k : Nat} {d : StoreDecl} {old : Nat} : ∀ {l : List (Option Nat)} {n : Nat} {s t : State} {r : List Moved},
    MemoryInv s → recordsFrom P k d old l n s = .ok (r, t) → MemoryInv t
  | [], _, _, _, _, h, e => by cases e; exact h
  | w :: l, n, s, t, r, h, e => by
    unfold Machine.recordsFrom at e
    obtain ⟨⟨bs, s1⟩, h1, e⟩ := except_bind_ok.1 e
    obtain ⟨⟨r', s2⟩, h2, e⟩ := except_bind_ok.1 e
    cases e
    exact MemoryInv.recordsFrom (h.readRecord h1) h2

theorem MemoryInv.sliceItems (h : MemoryInv s) {P k : Nat} {d : StoreDecl} {old : Nat} {r : List Moved} (e : sliceItems P k d old s = .ok (r, t)) :
    MemoryInv t := by
  unfold Machine.sliceItems at e; dsimp only at e
  obtain ⟨⟨r', s1⟩, h1, e⟩ := except_bind_ok.1 e
  cases e
  exact h.recordsFrom h1

theorem MemoryInv.storeItems {k : Nat} {d : StoreDecl} : ∀ {l : List (Nat × Nat)} {s t : State} {r : List Moved},
    MemoryInv s → storeItems k d l s = .ok (r, t) → MemoryInv t
  | [], _, _, _, h, e => by cases e; exact h
  | (P, L) :: l, s, t, r, h, e => by
    unfold Machine.storeItems at e
    obtain ⟨⟨a, s1⟩, h1, e⟩ := except_bind_ok.1 e
    obtain ⟨⟨b, s2⟩, h2, e⟩ := except_bind_ok.1 e
    cases e
    exact MemoryInv.storeItems (h.sliceItems h1) h2

theorem MemoryInv.allItems : ∀ {l : List (Nat × StoreDecl)} {s t : State} {r : List Sent}, MemoryInv s → allItems l s = .ok (r, t) → MemoryInv t
  | [], _, _, _, h, e => by cases e; exact h
  | (k, d) :: l, s, t, r, h, e => by
    unfold Machine.allItems at e
    obtain ⟨⟨a, s1⟩, h1, e⟩ := except_bind_ok.1 e
    obtain ⟨⟨b, s2⟩, h2, e⟩ := except_bind_ok.1 e
    cases e
    exact MemoryInv.allItems (h.storeItems h1) h2

theorem MemoryInv.placeMoved (h : MemoryInv s) {d : StoreDecl} {m : Moved} : MemoryInv (placeMoved d s m) := by
  unfold Machine.placeMoved; extract_lets Q u
  exact .ite h (SomeCanonical.getD (fun _ e => MemoryInv.arrive h e) h)

theorem MemoryInv.rehomeStores (h : MemoryInv s) {l : List Sent} : MemoryInv (rehomeStores s l) :=
  MemoryInv.foldl (fun _ _ h => MemoryInv.foldl (fun _ _ h => h.placeMoved) _ (MemoryInv.foldl (fun _ _ h => h.modSlice) _ h)) _ h

theorem MemoryInv.newHome (h : MemoryInv s) {q : Nat} {x : Task} : MemoryInv (newHome s q x).2 := by
  unfold Machine.newHome; split
  · exact h
  · exact h
  · split
    · exact h
    split
    · exact h
    split
    · exact h.modQueue
    · exact h

theorem MemoryInv.rehomeTask (h : MemoryInv s) {q : Nat} {x : Task} : MemoryInv (rehomeTask q s x) := by
  unfold Machine.rehomeTask; dsimp only
  exact .ite h.newHome.admitTask (.ite h.newHome.refuseTask h.newHome.admitTask)

theorem MemoryInv.renumbered (h : MemoryInv s) {P q L : Nat} : MemoryInv (renumbered s P q L) := h
theorem MemoryInv.moveFlags (h : MemoryInv s) {Q : Nat} {l : AMap SliceStore} : MemoryInv (moveFlags s Q l) := MemoryInv.foldl (fun _ _ h => h.modSlice) l h

theorem MemoryInv.leaveMap (h : MemoryInv s) {P q : Nat} {l : List Sent} : MemoryInv (leaveMap s P q l) := by
  unfold Machine.leaveMap; extract_lets L c held again tasks s1 s2 s3
  have h1 : MemoryInv s1 := MemoryInv.renumbered (by exact h)
  have h2 : MemoryInv s2 := MemoryInv.rehomeStores (MemoryInv.moveFlags (by exact h1))
  have h3 : MemoryInv s3 := h2.modCluster
  exact (MemoryInv.foldl (fun _ _ h => h.rehomeTask) _ h3).endKernels

theorem Canonical.clusterRemap (h : MemoryInv s) (P : Nat) : Canonical (execClusterRemap P s) := by
  unfold execClusterRemap; refine .next ?_; split
  · exact h
  · extract_lets coming
    refine .ite h ?_
    split
    · rename_i e; exact .ite (h.allItems e).leaveMap h
    · exact h.sliceFails
    · exact h

/-! ## The system instructions and the registers -/

theorem MemoryInv.drainBank (h : MemoryInv s) {P b : Nat} : MemoryInv (drainBank s P b) := MemoryInv.foldl (fun _ _ h => h.drainThrough) _ h
theorem MemoryInv.emptyCache (h : MemoryInv s) {P b : Nat} : MemoryInv (emptyCache s P b) := flushUo_wf _ _ _ h

theorem MemoryInv.switchBank (h : MemoryInv s) {P : Nat} {x : Nat × Nat} : MemoryInv (switchBank P s x) := by
  unfold Machine.switchBank; extract_lets old s1 s2
  have h1 : MemoryInv s1 := h.drainBank
  have h2 : MemoryInv s2 := .ite h1.emptyCache h1
  refine .ite h (MemoryInv.modCluster ?_)
  exact Machine.Memory.wf_filter h2 _

theorem MemoryInv.switchBanks (h : MemoryInv s) {P : Nat} : MemoryInv (switchBanks s P) := by
  unfold Machine.switchBanks; extract_lets s1
  have h1 : MemoryInv s1 := (MemoryInv.foldl (fun _ _ h => h.switchBank) _ h).modCluster
  exact h1.mapCores.retryTcbWrites

theorem Canonical.bankcfgSwitchDone (h : MemoryInv s) (P : Nat) : Canonical (execBankcfgSwitchDone P s) :=
  .next (MemoryInv.foldl (fun _ _ h => .ite h.retireCore h) _ h.switchBanks)

theorem Canonical.bankcfgWrite (h : MemoryInv s) (u : Nat) (v : Word) : Canonical (execBankcfgWrite u v s) := .next (.ite h.modCluster h)
theorem Canonical.wdtWrite (h : MemoryInv s) (u : Nat) (v : Word) : Canonical (execWdtWrite u v s) := .next (.ite h.modCore h)
theorem Canonical.snaptWrite (h : MemoryInv s) (u : Nat) (v : Word) : Canonical (execSnaptWrite u v s) := .next h

theorem Canonical.snapshotLatch (h : MemoryInv s) : Canonical (execSnapshotLatch s) := by
  unfold execSnapshotLatch; refine .next ?_; split
  · exact .ite h (.ite h h)
  · exact h

theorem Canonical.snapshotRead (h : MemoryInv s) : Canonical (execSnapshotRead s) := .next (.ite h h)

theorem readCsr_keeps (d : GReg) (n : Nat) : Keeps MemoryInv (readCsr d n) := by
  unfold readCsr
  refine .get_bind fun s h => ?_
  split
  · exact .trap _
  refine .bind (.need _ _) fun _ => ?_
  extract_lets unit_ rest
  have hr : ∀ r, Keeps MemoryInv (rest r) := fun _ => .bind .setG fun _ => .pure _
  refine .ite (.pure _) ?_
  exact .ite (.bind (.set h.acquire) hr) (hr ())

theorem MemoryInv.queueCsr (h : MemoryInv s) {u : Nat} {op : MOp} : MemoryInv (queueCsr s u op) := h.modTile

theorem writeCsr_keeps (n : Nat) (v : Word) : Keeps MemoryInv (writeCsr n v) := by
  unfold writeCsr
  refine .get_bind fun s h => ?_
  extract_lets u
  refine .bind (.need _ _) fun _ => ?_
  split
  · exact .bind (.set h.modCore) fun _ => .pure _
  · exact .bind (.set h.modTile) fun _ => .pure _
  · refine .bind (.need _ _) fun _ => .ite (.pure _) ?_
    have hq : MemoryInv (requestSwitches s u v) := h.modCluster
    exact .bind (.set (.ite hq.switchBanks hq.parkCore)) fun _ => .pure _
  · exact .bind (.set h) fun _ => .pure _
  · exact .ite (.pure _) (.bind (.set h.queueCsr) fun _ => .pure _)

theorem softTrap_keeps (n : Nat) : Keeps MemoryInv (softTrap n) := by
  unfold softTrap; split
  · exact .trap _
  · exact .bind (.modify fun _ h => h.releaseTo) fun _ => .pure _

theorem haltTask_keeps : Keeps MemoryInv haltTask := .bind (.modify fun _ h => h.markNrst.modCore) fun _ => .pure _
theorem MemoryInv.flushTo (h : MemoryInv s) {u n : Nat} : MemoryInv (flushTo s u n) := flushTo_wf s u n h

theorem stowCheckpoint_keeps (va : Word) : Keeps MemoryInv (stowCheckpoint va) :=
  .bind .get fun _ => .bind (.need _ _) fun _ => .access (aligned_accesses _ _) fun _ => .access (resolve_accesses _ _ _ _) fun ps =>
    .access (ringsFree_accesses ps) fun _ => .access (noDead_accesses ps) fun _ => .bind (.modify fun _ h => h.flushTo) fun _ =>
    .bind .get fun _ => .access (storeSectors_accesses _ _ _ _ _ _) fun _ => .bind (.modify fun _ h => h.releaseTo) fun _ => .pure _

theorem regWrite_canonical (h : MemoryInv s) (r : MgmtReg) (v : Word) : SomeCanonical (regWrite s r v) := by
  unfold regWrite; split
  · extract_lets l; split
    · exact .ite (.some h) .none
    · exact .none
    · exact .ite (.some h) .none
    · exact .ite (.some h) .none
    · exact .some h
  · extract_lets x; split
    · exact .ite (.some h) .none
    · exact .ite (.some (.ite h h)) .none
    · exact .ite (.some h) .none
    · exact .ite (.some h) .none
    · exact .ite (.some h) .none
    · exact .ite (.some h) .none

theorem MemoryInv.mgmtAnswer (h : MemoryInv s) {r : Option Word} : MemoryInv (mgmtAnswer s r) := h

theorem MemoryInv.mgmtAccess (h : MemoryInv s) {off : Nat} {w : Option Word} : MemoryInv (mgmtAccess s off w) := by
  unfold Machine.mgmtAccess; split
  · exact h.mgmtAnswer
  · exact h.mgmtAnswer
  · split
    · rename_i e; exact (regWrite_canonical h _ _ _ e).mgmtAnswer
    · exact h.mgmtAnswer

theorem MemoryInv.mgmtTake (h : MemoryInv s) {o : Option State} (ho : SomeCanonical o) : MemoryInv (mgmtTake s o) := by
  unfold Machine.mgmtTake; split
  · exact (ho _ rfl).mgmtAnswer
  · exact h.mgmtAnswer

/-- A request that is taken, or one with an answer alone. -/
theorem MemoryInv.mgmtRequest (h : MemoryInv s) {p : MgmtPlace} {w : Option MgmtData} : MemoryInv (mgmtRequest s p w) := by
  cases p with
  | register off =>
    cases w with
    | none => exact h.mgmtAccess
    | some x =>
      cases x with
      | word v => exact h.mgmtAccess
      | entry x => exact h.mgmtAnswer
  | endpoint e =>
    cases w with
    | none => exact h.mgmtAnswer
    | some x =>
      cases x with
      | word v => exact h.mgmtAnswer
      | entry x =>
        refine h.mgmtTake fun t e => ?_
        obtain ⟨n, -, rfl⟩ := Option.map_eq_some_iff.1 e
        exact h
  | ownNumber =>
    cases w with
    | none => exact h.mgmtAnswer
    | some x =>
      cases x with
      | word v => exact h.mgmtTake (.ite (.some h) .none)
      | entry x => exact h.mgmtAnswer
  | powerLimit =>
    cases w with
    | none => exact h.mgmtAnswer
    | some x =>
      cases x with
      | word v => exact h.mgmtTake (.ite (.some h) .none)
      | entry x => exact h.mgmtAnswer
  | discarded P =>
    cases w with
    | none => exact h.mgmtAnswer
    | some x => exact h.mgmtAnswer
  | trepc u =>
    cases w with
    | none => exact h.mgmtAnswer
    | some x => exact h.mgmtAnswer
  | cmisc u =>
    cases w with
    | none => exact h.mgmtAnswer
    | some x => exact h.mgmtAnswer
  | softErrors u =>
    cases w with
    | none => exact h.mgmtAnswer
    | some x => exact h.mgmtAnswer
  | ccmd u =>
    cases w with
    | none => exact h.mgmtAnswer
    | some x =>
      cases x with
      | word v => exact h.mgmtTake (.ite (.some h.ccmdWrite) .none)
      | entry x => exact h.mgmtAnswer

theorem Canonical.managementRequest (h : MemoryInv s) (p : MgmtPlace) (w : Option MgmtData) : Canonical (execManagementRequest p w s) :=
  .next (.ite h h.mgmtRequest)

theorem Canonical.registerWrite (h : MemoryInv s) (off : Nat) (v : Word) : Canonical (execRegisterWrite off v s) := .next h.mgmtAccess

theorem Canonical.tcflushWrite (h : MemoryInv s) (d : Nat) (v : Word) : Canonical (execTcflushWrite d v s) :=
  .next ((regWrite_canonical h _ _).getD h)

theorem Canonical.tcflushComplete (h : MemoryInv s) (d : Nat) : Canonical (execTcflushComplete d s) := .next (.ite h h)

end Sys2Proof
end

section
/-! Memory stays canonical: links, power and requests. -/

namespace Sys2Proof

open Machine

variable {s t : State}

/-! ## Links, power and requests -/

theorem MemoryInv.startRetrain (h : MemoryInv s) {m : Nat} : MemoryInv (startRetrain s m) := h
theorem Canonical.nakReceive (h : MemoryInv s) (m : Nat) (a : BitVec 12) : Canonical (execNakReceive m a s) := .next (.ite h h)
theorem Canonical.replayTimeout (h : MemoryInv s) (m : Nat) : Canonical (execReplayTimeout m s) := .next (.ite h h)
theorem Canonical.linkRetrain (h : MemoryInv s) (m : Nat) : Canonical (execLinkRetrain m s) := .next (.ite h.startRetrain h)

theorem Canonical.retrainComplete (h : MemoryInv s) (m : Nat) (f r : BitVec 64) : Canonical (execRetrainComplete m f r s) := by
  unfold execRetrainComplete
  have hb : ∀ g, MemoryInv (bothEnds s m g) := fun _ => h
  exact .next (.ite (hb _).retryTcbWrites h)

theorem Canonical.ecntQuietClear (h : MemoryInv s) (m : Nat) : Canonical (execEcntQuietClear m s) := .next (.ite h h)

theorem Canonical.flitReceive (h : MemoryInv s) (m : Nat) (f : BitVec 2048) : Canonical (execFlitReceive m f s) := by
  unfold execFlitReceive; extract_lets l s1
  have h1 : MemoryInv s1 := h
  exact .next (.ite h (.ite (.ite h h) (.ite h1.startRetrain h1)))

theorem Canonical.idleFlitSend (h : MemoryInv s) (m : Nat) : Canonical (execIdleFlitSend m s) := by
  unfold execIdleFlitSend; extract_lets l n payload s1
  have h1 : ∀ x, MemoryInv (s1.setLink m x) := fun _ => h
  have h0 : ∀ x, MemoryInv (s.setLink m x) := fun _ => h
  refine .next (.ite h ?_)
  split
  · exact h0 _
  · exact .ite (h1 _) (.ite (h0 _) (.ite (h1 _) (h1 _)))

theorem Canonical.beaconRecord (h : MemoryInv s) (c : Nat) (r : BeaconRec) : Canonical (execBeaconRecord c r s) := .next (.ite h (.ite h h))

theorem Canonical.lostDeviceDetect (h : MemoryInv s) (c : Nat) : Canonical (execLostDeviceDetect c s) := by
  unfold execLostDeviceDetect; refine .next ?_; split
  · exact .ite h h
  · exact .ite h h

theorem Canonical.lostConnectionDetect (h : MemoryInv s) (e : Nat) : Canonical (execLostConnectionDetect e s) := .next (.ite h h)

theorem Canonical.faultEpochStop (h : MemoryInv s) (g : List Nat) : Canonical (execFaultEpochStop g s) :=
  .next (.ite h (MemoryInv.foldl (fun _ _ h => h.endKernel) _ h))

theorem MemoryInv.trainLinks (h : MemoryInv s) {l : List (Nat × BitVec 64 × BitVec 64)} : MemoryInv (trainLinks s l) := by
  refine MemoryInv.foldl (fun s m h => ?_) l h
  exact h

theorem MemoryInv.selfTest (h : MemoryInv s) {l : List Nat} {ms : List (Nat × Nat)} : MemoryInv (selfTest s l ms) :=
  MemoryInv.foldl (fun _ _ h => h.modCore) ms h

theorem MemoryInv.reserveMemory (h : MemoryInv s) {f c : Nat} {va : Word} {l : List Word} : MemoryInv (reserveMemory s f c va l) := by
  unfold Machine.reserveMemory; extract_lets s1
  have h1 : MemoryInv s1 := MemoryInv.foldl (fun _ _ h => h.modCluster) _ h
  refine MemoryInv.foldl (fun s m h => ?_) _ h1
  exact h

/-- The system controller holds no memory. -/
theorem MemoryInv.setSys (h : MemoryInv s) {y : SysCtl} : MemoryInv { s with sys := y } := h

theorem MemoryInv.bringUp (h : MemoryInv s) {b : BringUp} : MemoryInv (bringUp s b) := by
  unfold Machine.bringUp; extract_lets s1
  have h1 : MemoryInv s1 := h.trainLinks.selfTest.reserveMemory
  exact .ite h1.setSys h1.setSys

theorem Canonical.powerOn (h : MemoryInv s) (b : BringUp) : Canonical (execPowerOn b s) :=
  .next (.ite h (.ite (MemoryInv.bringUp (by exact h)) h))

theorem Canonical.recoveryFirmwareImage (h : MemoryInv s) (i : FwImage) : Canonical (execRecoveryFirmwareImage i s) := .next (.ite h h)
theorem Canonical.coldReset (h : MemoryInv s) (l : List Nat) : Canonical (execColdReset l s) := .next h
theorem Canonical.thermalShutdown (h : MemoryInv s) (n : Nat) : Canonical (execThermalShutdown n s) := .next (.ite h h)

theorem MemoryInv.settleReq (h : MemoryInv s) {k : Nat} {r : Req} {x : Reply} : MemoryInv (settleReq s k r x) := by
  unfold Machine.settleReq; extract_lets gone
  have hg : MemoryInv gone := h
  exact .ite (hg.of_accessed (settleLate_accessed _ _ _)) (.ite hg h)

theorem MemoryInv.reqEffect (h : MemoryInv s) {r : Req} : MemoryInv (reqEffect s r).2 := h.of_accessed (reqEffect_accessed s r)

theorem Canonical.atomicPerform (h : MemoryInv s) (k : Nat) : Canonical (execAtomicPerform k s) := by
  unfold execAtomicPerform; refine .next ?_; split
  · exact h
  · split
    · exact .ite (MemoryInv.of_accessed (by exact h) (settleLate_accessed _ _ _)) h
    · exact .ite h h.reqEffect.settleReq

theorem Canonical.requestReply (h : MemoryInv s) (u : Nat) : Canonical (execRequestReply u s) := by
  unfold execRequestReply; refine .next (.ite h ?_); split
  · exact h.bumpSeq.noteSent.retireCore
  · exact h.takeTrap
  · exact MemoryInv.retireCore (MemoryInv.modCore (by exact h))
  · exact MemoryInv.takeTrap (by exact h)
  · exact h

theorem MemoryInv.requestExpires (h : MemoryInv s) {k : Nat} {r : Req} : MemoryInv (requestExpires s k r) := by
  unfold Machine.requestExpires; extract_lets s1
  have h1 : MemoryInv s1 := .ite h.reqEffect h
  exact MemoryInv.settleReq (by exact h1)

theorem MemoryInv.accessExpires (h : MemoryInv s) {u : Nat} : MemoryInv (accessExpires s u) := by
  unfold Machine.accessExpires; extract_lets c; split
  · exact .ite h.parkCore (.ite h (.ite h.takeTrap h.takeTrap))
  · split
    · exact MemoryInv.takeTrap (by exact h)
    · exact h
  · exact h

theorem MemoryInv.trafficExpires (h : MemoryInv s) {n : Nat} : MemoryInv (trafficExpires s n) := by
  have htick : MemoryInv s.tickFree := h
  unfold Machine.trafficExpires; extract_lets due; split
  · refine .ite (.ite ?_ (by exact h)) h
    exact SomeCanonical.getD (fun _ e => MemoryInv.arrive (by exact h) e) (by exact h)
  · split
    · split
      · exact .ite (MemoryInv.fanLeaves (.ite htick.fanReaches htick)) h
      · exact h
    · exact h

theorem Canonical.requestTimeout (h : MemoryInv s) (k : Nat) : Canonical (execRequestTimeout k s) := by
  unfold execRequestTimeout; refine .next ?_; split
  · extract_lets n; exact .ite h.accessExpires h.trafficExpires
  · exact .ite h h.requestExpires

theorem MemoryInv.atomicForPeer (h : MemoryInv s) {op : AtomOp} {loc : Nat} {repl : Bool} {b d : Word} : MemoryInv (atomicForPeer s op loc repl b d).2 := by
  unfold Machine.atomicForPeer; extract_lets home s1 old
  have h1 : MemoryInv s1 := .ite (applyBelow_wf _ _ _ h) h
  split
  · exact h1
  · extract_lets ws x
    have hx : MemoryInv x := h1
    change MemoryInv (if repl = true then if s1.eager = true then _ else _ else _)
    exact .ite (.ite (applyAll_wf _ hx) (applyBelow_wf _ _ _ hx)) h1.performWrites

theorem remoteAtHome_keeps (w : Who) (va : Word) (op : AtomOp) (b d : Word) : Keeps MemoryInv (remoteAtHome w va op b d) := by
  unfold remoteAtHome
  refine .access (aligned_accesses _ _) fun _ => .access (resolve_accesses _ _ _ _) fun ps => ?_
  split
  · refine .bind (.need _ _) fun _ => .access (ringsFree_accesses _) fun _ => ?_
    split
    · exact .get_bind fun s h => .bind (.need _ _) fun _ => .bind (.need _ _) fun _ => .bind (.set h.atomicForPeer) fun _ => .pure _
    · exact .trap _
  · exact .trap _

theorem remoteAccess_keeps (w : Who) (r : RemoteReq) : Keeps MemoryInv (remoteAccess w r) := by
  unfold remoteAccess; extract_lets va
  refine .bind (.need _ _) fun _ => ?_
  split
  · exact remoteAtHome_keeps _ _ _ _ _
  · exact (loadBytes_accesses _ _ _).keepsMemory
  · exact .access (storeBytes_accesses _ _ _ _ _ _) fun _ => .pure _
  · refine .access (aligned_accesses _ _) fun _ => .access (resolve_accesses _ _ _ _) fun ps => .access (noPoison_accesses _ _) fun _ => ?_
    split
    · exact .access (readSectorPiece_accesses _ _) fun _ => .pure _
    · exact .pure _
  · exact .access (aligned_accesses _ _) fun _ => .access (storeBytes_accesses _ _ _ _ _ _) fun _ => .pure _

theorem MemoryInv.remoteDone (h : MemoryInv s) {r : RemoteReq} {x : PeerReply} : MemoryInv (remoteDone s r x) := h
theorem MemoryInv.remoteHeld (h : MemoryInv s) {r : RemoteReq} : MemoryInv (remoteHeld s r) := .ite h h

theorem Canonical.remoteRequest (h : MemoryInv s) (r : RemoteReq) : Canonical (execRemoteRequest r s) := by
  unfold execRemoteRequest; extract_lets d
  refine .next (.ite h.remoteHeld ?_)
  split
  · rename_i e; exact (remoteAccess_keeps _ _ _ _ _ h e).remoteDone
  · exact h.remoteDone
  · rename_i va _
    have hf := h.faultRegen (va := va) (src := some (.net 64))
    split
    · rename_i e; rw [e] at hf; exact hf.remoteDone
    · rename_i e; rw [e] at hf; exact hf.remoteHeld
  · exact h.remoteHeld

theorem Canonical.ueConnectionOpen (h : MemoryInv s) (m : UeMode) (p : Nat) : Canonical (execUeConnectionOpen m p s) := by
  unfold execUeConnectionOpen; refine .next ?_; split
  · exact h
  · exact h

end Sys2Proof
end

section
/-! Memory stays canonical: exec and the step. -/

namespace Sys2Proof

open Machine

variable {s t : State}

/-! ## exec -/

theorem MemoryInv.transfer (h : MemoryInv s) {a : Word} : MemoryInv (transfer s a) := h

theorem MemoryInv.sampledCond (h : MemoryInv s) {u q : Nat} : MemoryInv (sampledCond s u q).2 := by
  unfold Machine.sampledCond; split
  · exact h
  · exact h
  · exact h

theorem Canonical.branch (h : MemoryInv s) {b : Bool} {off : Word} : Canonical (branch b off s) := .next (.ite h.transfer h.retire)

/-- The next state of an instruction, or of another agent's step, has a canonical memory. -/
theorem exec_canonical (i : Instr) (h : MemoryInv s) : Canonical (exec i s) := by
  cases i with
  | beq | bne | blt | bge | bltu | bgeu => exact .branch h
  | bqs | bqc => exact .branch h.sampledCond
  | jr | rep => exact .ite (.next h.takeTrap) (.next h)
  | ldB | ldH | ldW | ldD | lduB | lduH | lduW => exact .runM h (loadG_keeps _ _ _ _)
  | stB | stH | stW | stD => exact .runM h (storeG_keeps _ _ _)
  | ldv => exact .runM h (.access (loadSector_accesses _) fun _ => .bind .setV fun _ => .pure _)
  | stv => exact .runM h (.access (storeSector_accesses _ _) fun _ => .pure _)
  | ldvx => exact .runM h (expandRun_keeps _ _)
  | stvp => exact .runM h (packRun_keeps _ _)
  | ldf => exact .runM h (loadFuture_keeps _ _)
  | stf => exact .runM h (storeFuture_keeps _ _)
  | fence => exact .next h.fenceAt.retire
  | lda => exact .runM h (loadAcquire_keeps _ _)
  | stl => exact .runM h (storeRelease_keeps _ _)
  | aadd | aand | aor | axor | amin | amax | aminu | amaxu | aswp | afadd | acas => exact .runM h (atomic_keeps _ _ _ _)
  | waita => exact .runM h (waitAtomic_keeps _ _ _)
  | vwid | vnb16 | vnh16S | vnh16X | vn8S | vn8X | vn8wS | vn4S | vni8S | vfi32 | vif32 | vscl | vtag | vpackz | vexpz
  | vfadd | vfsub | vfmul | vfma | vfmat | vfred | vfmin | vfmax | vfcmp | vadd | vmul | vsh | vminu | vmaxu => exact .finishV h
  | vfind => exact .finishG h
  | vnfa => exact .runM h (stepNfa_keeps _ _ _)
  | cp => exact .runM h (commandEngine_keeps _ _ _ _ _)
  | copy | copyf | copym | gath | scat | fill | wback | inval => exact .copyStep h
  | pull | pullf => exact .pullStep h
  | streamerElementWrite => exact .next h.elementStep
  | rbind => exact .runM h (bindHandle_keeps _ _ _)
  | rwait | rwaitf => exact .waitRing h
  | mldb | mldbL | mmaN4 | mmaN8 | mmaW16 | mmaL => exact .runM h (issueRing_keeps _ _ _)
  | msel | mz | macc | mdrn => exact .runM h (issuePlain_keeps _)
  | eoutN8 | eoutF32 | eoutB16 => exact .runM h (issueOutput_keeps _ _ _ _)
  | evdecl => exact .runM h (declareStore_keeps _ _)
  | evdrop => exact .runM h (dropStore_keeps _ _)
  | evupd => exact .runM h (postUpdate_keeps _ _ _)
  | evupdt => exact .runM h (postTested_keeps _ _ _)
  | evfan => exact .runM h (postFan_keeps _ _ _)
  | evpeek => exact .runM h (peekStore_keeps _ _ _)
  | activationStart | taskResume => exact .next h.placeIf
  | spawn => exact .runM h (spawnTask_keeps _ _)
  | join => exact .runM h (joinTask_keeps _)
  | fork => exact .runM h (forkTask_keeps _)
  | gbarComplete => exact .next h.completeBarrier
  | ebset | ebclr => exact .changeBits h
  | eventBitCycle => exact .next h.eventCycle
  | send => exact .runM h (sendMessage_keeps _ _)
  | sendp => exact .runM h (sendPort_keeps _ _)
  | recvp => exact .runM h (recvPort_keeps _ _)
  | trap => exact .runM h (softTrap_keeps _)
  | csrr => exact .runM h (readCsr_keeps _ _)
  | csrw => exact .runM h (writeCsr_keeps _ _)
  | stow => exact .runM h (stowCheckpoint_keeps _)
  | halt => exact .runM h haltTask_keeps
  | mgnWrite | queueCreate => exact .next (.ite h h)
  | notifyTailWrite | creadWrite | scheduleStepWrite | scheduleTailWrite => exact .outsideWrite h
  | notifyErrRead | scheduleErrRead => exact .outsideRead h
  | resume u => exact .command h (resumeTrap_canonical u)
  | stowout u => exact .command h (stowOutTrap_canonical u)
  | ready u idx => exact .command h (readyTask_canonical u idx)
  | endTask u => exact .command h (endTrapped_canonical u)
  | killk u slot => exact .command h (killKernel_canonical u _)
  | restart u idx => exact .command h (restartTask_canonical u idx)
  | load u addr => exact .command h (loadTask_canonical u addr)
  | engineReply u => exact .engineReply h u
  | subs str => exact .subs h str
  | unsubs str => exact .unsubs h str
  | copymFollowOnEnter tile k => exact .copymFollowOnEnter h tile k
  | rslot d a b => exact .rslot h d a b
  | ringWaitWake u => exact .ringWaitWake h u
  | radvh a b => exact .radvh h a b
  | radvt a b => exact .radvt h a b
  | spost d a => exact .spost h d a
  | swait d a => exact .swait h d a
  | semaphoreGrant tile sem => exact .semaphoreGrant h tile sem
  | stryw d a b => exact .stryw h d a b
  | matrixRingBind u => exact .matrixRingBind h u
  | matrixCommandExecute tile => exact .matrixCommandExecute h tile
  | epilogueOutput tile => exact .epilogueOutput h tile
  | tileSave tile => exact .tileSave h tile
  | tileSaveRefused tile => exact .tileSaveRefused h tile
  | tileReload tile => exact .tileReload h tile
  | monbWrite tile => exact .monbWrite h tile
  | cncdWrite tile => exact .cncdWrite h tile
  | evstat d sel => exact .evstat h d sel
  | evdone => exact .evdone h
  | updateArrival k => exact .updateArrival h k
  | fanoutSourceArrival cl k => exact .fanoutSourceArrival h cl k
  | sluiceSeal cl => exact .sluiceSeal h cl
  | refill cl slot => exact .refill h cl slot
  | windowPhase cl slot => exact .windowPhase h cl slot
  | sliceError cl => exact .sliceError h cl
  | exit => exact .exit h
  | yield => exact .yield h
  | gbar => exact .gbar h
  | ebwait a => exact .ebwait h a
  | gid d sel => exact .gid h d sel
  | taskPlace u => exact .taskPlace h u
  | taskAging cl idx => exact .taskAging h cl idx
  | gangReserve cl => exact .gangReserve h cl
  | gangStart cl => exact .gangStart h cl
  | depthPublication cl => exact .depthPublication h cl
  | recv d => exact .recv h d
  | messageDelivery k => exact .messageDelivery h k
  | portTransfer u port => exact .portTransfer h u port
  | bankcfgWrite u v => exact .bankcfgWrite h u v
  | bankcfgSwitchDone cl => exact .bankcfgSwitchDone h cl
  | wdtWrite u v => exact .wdtWrite h u v
  | snaptWrite u v => exact .snaptWrite h u v
  | snapshotLatch => exact .snapshotLatch h
  | snapshotRead => exact .snapshotRead h
  | registerWrite off v => exact .registerWrite h off v
  | managementRequest place write => exact .managementRequest h place write
  | tcflushWrite die v => exact .tcflushWrite h die v
  | tcflushComplete die => exact .tcflushComplete h die
  | residencyEntryPerform die => exact .residencyEntryPerform h die
  | frameWaitTimeout u => exact .frameWaitTimeout h u
  | tcbAdmission q => exact .tcbAdmission h q
  | kernelComplete q => exact .kernelComplete h q
  | completionRecordWrite q => exact .completionRecordWrite h q
  | contextShip u => exact .contextShip h u
  | regenerationComplete die k => exact .regenerationComplete h die k
  | requestReply u => exact .requestReply h u
  | storeBufferDrain u k => exact .storeBufferDrain h u k
  | atomicPerform k => exact .atomicPerform h k
  | requestTimeout k => exact .requestTimeout h k
  | replicaUpdateApply die => exact .replicaUpdateApply h die
  | waitaWake u => exact .waitaWake h u
  | ldfReissue u => exact .ldfReissue h u
  | ldfCancelNotice slice k => exact .ldfCancelNotice h slice k
  | remoteRequest r => exact .remoteRequest h r
  | ueConnectionOpen mode peer => exact .ueConnectionOpen h mode peer
  | flitReceive m flit => exact .flitReceive h m flit
  | nakReceive m ack => exact .nakReceive h m ack
  | replayTimeout m => exact .replayTimeout h m
  | idleFlitSend m => exact .idleFlitSend h m
  | linkRetrain m => exact .linkRetrain h m
  | retrainComplete m failed repaired => exact .retrainComplete h m failed repaired
  | ecntQuietClear m => exact .ecntQuietClear h m
  | beaconRecord child r => exact .beaconRecord h child r
  | lostDeviceDetect child => exact .lostDeviceDetect h child
  | lostConnectionDetect e => exact .lostConnectionDetect h e
  | faultEpochStop group => exact .faultEpochStop h group
  | preciseTrap u => exact .preciseTrap h u
  | heldRecordEnter cl => exact .heldRecordEnter h cl
  | mbstatFree cl slot => exact .mbstatFree h cl slot
  | preemptStow u => exact .preemptStow h u
  | stowTear u => exact .stowTear h u
  | watchdogExpiry u => exact .watchdogExpiry h u
  | shadowLatchReplay u => exact .shadowLatchReplay h u
  | checkerMismatch u => exact .checkerMismatch h u
  | coreKill u => exact .coreKill h u
  | taskRestart cl idx => exact .taskRestart h cl idx
  | clusterQuarantine cl => exact .clusterQuarantine h cl
  | supervisorError cl => exact .supervisorError h cl
  | clusterRemap cl => exact .clusterRemap h cl
  | thermalShutdown temp => exact .thermalShutdown h temp
  | powerOn b => exact .powerOn h b
  | recoveryFirmwareImage img => exact .recoveryFirmwareImage h img
  | coldReset pass => exact .coldReset h pass
  | _ => exact .next h

/-! ## The turn of a core, and the step -/

/-- The state in which a turn ends, or from which its instruction runs, has a canonical memory. -/
def CanonicalTurn : Turn → Prop
  | .done t => MemoryInv t
  | .run _ t => MemoryInv t

theorem pendingTrap_canonical (h : MemoryInv s) (u : Nat) : SomeCanonical (pendingTrap s u) := by
  unfold pendingTrap
  exact .ite (.some h.modCore.takeTrap) (.ite (.some h.modCore.takeTrap) .none)

theorem MemoryInv.noteIssue (h : MemoryInv s) {u : Nat} {i : Instr} {n : Nat} : MemoryInv (noteIssue s u i n) := by
  unfold Machine.noteIssue; extract_lets s1
  have h1 : MemoryInv s1 := h.modCore
  refine .ite h1 ?_
  split
  · exact h1.modCore
  · exact MemoryInv.modCore (by exact h1)
  · exact h1.modCore
  · exact h1

theorem coreTurn_canonical (h : MemoryInv s) : CanonicalTurn (coreTurn s) := by
  unfold coreTurn
  split
  · exact h
  split
  · rename_i e; exact pendingTrap_canonical h _ _ e
  split
  · exact h.takeTrap
  · exact h.parkCore.modCore
  · rename_i e
    have h1 := (fetchInstr_accesses.keepsMemory _ _ _ h e).noteIssue (u := s.cur) (i := ‹Instr›) (n := ‹Nat›)
    dsimp only
    split
    · exact MemoryInv.ite h1.takeTrap h1.retire
    split
    · exact h
    · exact h1

theorem nextTurn_canonical (h : MemoryInv s) : CanonicalTurn (nextTurn s) := by
  unfold nextTurn; extract_lets s1
  have h1 : MemoryInv s1 := h
  split
  · exact coreTurn_canonical h1
  · exact coreTurn_canonical (by exact h1)
  · split
    · exact h1
    · exact h1

theorem step_canonical (h : MemoryInv s) : Canonical (step s) := by
  unfold step
  split
  · split
    · exact .coldReset (by exact h) _
    · exact fun _ e => nomatch e
  · have hn := nextTurn_canonical h
    split
    · rename_i e; rw [e] at hn; exact .next hn
    · rename_i e; rw [e] at hn; exact exec_canonical _ hn

/-- Settles O5: whatever writes memory writes it byte by byte, which keeps it canonical, and everything else leaves it alone. -/
theorem stepKeepsMemoryCanonical : Obligations.StepKeepsMemoryCanonical := fun _ _ h e => step_canonical h _ e

/-- Settles O4: nothing is listed at reset. -/
theorem resetMemoryCanonical : Obligations.ResetMemoryCanonical := Memory.wf_empty

end Sys2Proof
end

section
/-! What an access leaves of the state before it reads or writes: the look at the page tables and the rights, and a core with nothing on its way. -/

namespace Sys2Proof.Machine

/-! ## An instruction that runs an operation -/

section
variable {i : Instr} {m : M Flow} {s t : State}

/-- An operation that accesses memory and then writes a general register. -/
theorem completesG_of_runM {d : GReg} {w : Word} (hi : exec i s = runM m s) (hm : m s = .ok (.next, t.wg d w)) (h : Accessed s t) :
    CompletesG i s t d w := by
  refine completesG_of ?_ h.sameCore
  rw [hi, runM_next hm]
  exact congrArg (fun u => Host.Outcome.next (retireCore (t.wg d w) u)) h.cur.symm

/-- The same for a vector register. -/
theorem completesV_of_runM {d : VReg} {x : VVal} (hi : exec i s = runM m s) (hm : m s = .ok (.next, t.wv d x)) (h : Accessed s t) :
    CompletesV i s t d x := by
  refine completesV_of ?_ h.sameCore
  rw [hi, runM_next hm]
  exact congrArg (fun u => Host.Outcome.next (retireCore (t.wv d x) u)) h.cur.symm

/-- An operation that accesses memory and writes no register. -/
theorem completes_of_runM (hi : exec i s = runM m s) (hm : m s = .ok (.next, t)) (h : Accessed s t) : Completes i s t := by
  refine completes_of ?_ h.sameCore
  rw [hi, runM_next hm]
  exact congrArg (fun u => Host.Outcome.next (retireCore t u)) h.cur.symm

/-- An operation that traps before it has changed anything. -/
theorem trapsWith_of_runM {c : Cause} {a : Word} (hi : exec i s = runM m s) (hm : m s = .error (.trap (.at c a))) (hc : c ≠ .pageFault) :
    TrapsWith i s c a :=
  trapsWith_of (t := .at c a) (by rw [hi, runM_trap hm]) rfl rfl hc

end

/-! ## Where an address lands -/

/-- What finding the place of an access, and checking its rights, may change: the translations held, and cores' PLBs (R91, R92). -/
def Looked (s t : State) : Prop :=
  t = { s with cores := t.cores, tcache := t.tcache, freeCtr := t.freeCtr } ∧ ∀ u, t.core u = { s.core u with plb := (t.core u).plb }

theorem Looked.refl (s : State) : Looked s s := ⟨rfl, fun _ => rfl⟩

section
variable {s t x : State}

theorem Looked.trans (h : Looked s t) (h' : Looked t x) : Looked s x := by
  obtain ⟨h1, h2⟩ := h
  obtain ⟨h1', h2'⟩ := h'
  exact ⟨by rw [h1', h1], fun u => by rw [h2', h2]⟩

theorem Looked.mem (h : Looked s t) : t.mem = s.mem := by rw [h.1]
theorem Looked.reqs (h : Looked s t) : t.reqs = s.reqs := by rw [h.1]
theorem Looked.cur (h : Looked s t) : t.cur = s.cur := by rw [h.1]
theorem Looked.eager (h : Looked s t) : t.eager = s.eager := by rw [h.1]
theorem Looked.defers (h : Looked s t) : t.defers = s.defers := by rw [h.1]
theorem Looked.seqOrder (h : Looked s t) : t.seqOrder = s.seqOrder := by rw [h.1]
theorem Looked.clusters (h : Looked s t) : t.clusters = s.clusters := by rw [h.1]
theorem Looked.storeBuf (h : Looked s t) (u : Nat) : (t.core u).storeBuf = (s.core u).storeBuf := by rw [h.2 u]
theorem Looked.linksUp (h : Looked s t) (hl : LinksUp s) : LinksUp t := by rw [h.1]; exact hl
theorem Looked.nonePending {u : Nat} (h : Looked s t) (hn : NonePending s u) : NonePending t u := by unfold NonePending; rw [h.reqs]; exact hn
theorem Looked.quiet {u : Nat} (h : Looked s t) (hq : Quiet s u) : Quiet t u := ⟨(h.storeBuf u).trans hq.1, h.nonePending hq.2⟩

/-- An agent's view of itself is not changed by a look. -/
theorem Looked.me (h : Looked s t) : t.me = s.me := by
  unfold State.me State.who
  rw [h.cur, h.2 s.cur]

theorem Looked.beside (h : t = { s with tcache := t.tcache, freeCtr := t.freeCtr }) : Looked s t := by
  refine ⟨by rw [h], fun u => ?_⟩
  rw [show t.core u = s.core u by rw [h]; rfl]

end

/-- An operation that, whenever it answers, has looked and no more. -/
def Looks {α : Type} (m : M α) : Prop := ∀ s a t, m s = .ok (a, t) → Looked s t

section
variable {α β : Type}

theorem Looks.pure (a : α) : Looks (pure a : M α) := by rintro s _ _ ⟨⟩; exact .refl s
theorem Looks.trap (t : Trap) : Looks (trapM t : M α) := fun _ _ _ h => nomatch h
theorem Looks.wait (w : Wait) : Looks (waitM w : M α) := fun _ _ _ h => nomatch h
theorem Looks.get : Looks (get : M State) := by rintro s _ _ ⟨⟩; exact .refl s
theorem Looks.need (b : Bool) (t : Trap) : Looks (needM b t) := by
  cases b
  · exact .trap t
  · exact .pure ()

theorem Looks.bind {m : M α} {f : α → M β} (hm : Looks m) (hf : ∀ a, Looks (f a)) : Looks (m >>= f) := by
  intro s b t h
  obtain ⟨a, s', h1, h2⟩ := M.bind_ok.1 h
  exact (hm s a s' h1).trans (hf a s' b t h2)

end

theorem noteWalk_looked (s : State) (va : Word) (w : Walk) : Looked s (noteWalk s va w) := by
  cases w with
  | leaf pte big =>
    unfold noteWalk
    dsimp only
    generalize (if big = true then va.toNat / 2 ^ 25 else va.toNat / 2 ^ 16) = page
    split
    · exact .refl s
    · exact .beside rfl
  | regen _ _ => exact .refl s
  | fail => exact .refl s

theorem tickFree_looked (s : State) : Looked s s.tickFree := .beside rfl

theorem translate_looks (va : Word) : Looks (translate va) := by
  intro s a t h
  unfold translate at h
  dsimp only at h
  split at h
  · cases h; exact noteWalk_looked ..
  · split at h
    · cases h; exact tickFree_looked s
    · cases h; exact (noteWalk_looked s va _).trans (tickFree_looked _)

theorem pieceOf_looks (w : Who) (va : Word) (n : Nat) : Looks (pieceOf w va n) := by
  intro s p t h
  unfold pieceOf at h
  split at h
  · cases h
  · simp only [Except.ok.injEq, Prod.mk.injEq] at h
    rw [← h.2]; exact .refl s
  · dsimp only at h
    split at h
    · generalize (if endpointOf va = s.net.own then none else mfind s.net.endpoints (endpointOf va)) = o at h
      cases o with
      | some x =>
        simp only [Except.ok.injEq, Prod.mk.injEq] at h
        rw [← h.2]; exact .refl s
      | none => cases h
    · generalize ht : translate va s = r at h
      cases r with
      | error e => cases h
      | ok p =>
        obtain ⟨w', s'⟩ := p
        cases w' with
        | fail => cases h
        | regen _ _ => cases h
        | leaf pte big =>
          simp only [Except.ok.injEq, Prod.mk.injEq] at h
          rw [← h.2]
          exact translate_looks va s _ _ ht

theorem piecesOf_looks (w : Who) : ∀ l, Looks (piecesOf w l)
  | [] => .pure _
  | (_, _) :: t => .bind (pieceOf_looks w _ _) fun _ => .bind (piecesOf_looks w t) fun _ => .pure _

theorem Looked.setPlb {s : State} {u : Nat} {c : Core} (h : c = { s.core u with plb := c.plb }) : Looked s (s.setCore u c) := by
  refine ⟨rfl, fun v => ?_⟩
  rw [State.setCore_core]
  split
  · rename_i e; rw [e]; exact h
  · rfl

theorem rightsM_looks (w : Who) (dom : Nat) : Looks (rightsM w dom) := by
  intro s a t h
  unfold rightsM at h
  split at h
  · cases h; exact .refl s
  split at h
  · cases h; exact .refl s
  split at h
  · cases h; exact .refl s
  · dsimp only at h
    split at h
    · cases h; exact .setPlb rfl
    · cases h; exact (tickFree_looked s).trans (.setPlb rfl)

theorem rightsAll_looks (w : Who) (acc : Acc) : ∀ l, Looks (rightsAll w acc l)
  | [] => .pure _
  | p :: t => by
    unfold rightsAll
    refine .bind (rightsM_looks w _) fun _ => .bind (.need _ _) fun _ => ?_
    split
    · exact .trap _
    · exact .wait _
    · exact rightsAll_looks w acc t

theorem resolveParts_looks (w : Who) (acc : Acc) (parts : List (Word × Nat)) : Looks (resolveParts w acc parts) := by
  intro s a t h
  unfold resolveParts at h
  split at h
  · cases h
  · exact Looks.bind (piecesOf_looks w _) (fun ps => .bind (rightsAll_looks w acc ps) fun _ => .pure _) s a t h

theorem resolve_looks (w : Who) (acc : Acc) (va : Word) (n : Nat) : Looks (resolve w acc va n) := fun s a t h => resolveParts_looks w acc _ s a t h

/-- The check for POISON changes nothing. -/
theorem noPoison_state {w : Who} : ∀ {l : List Piece} {s t : State} {a : Unit}, noPoison w l s = .ok (a, t) → t = s
  | [], _, _, _, h => by cases h; rfl
  | p :: l, s, t, a, h => by
    unfold noPoison at h
    split at h
    · split at h <;> cases h
    · split at h
      · cases h
      · exact noPoison_state h

/-- The check for bound descriptors changes nothing. -/
theorem ringsFree_state : ∀ {l : List Piece} {s t : State} {a : Unit}, ringsFree l s = .ok (a, t) → t = s
  | [], _, _, _, h => by cases h; rfl
  | p :: l, s, t, a, h => by
    unfold ringsFree at h
    split at h
    · split at h
      · cases h
      · exact ringsFree_state h
    · exact ringsFree_state h

/-- The check for quarantined clusters changes nothing. -/
theorem noDead_state {ps : List Piece} {s t : State} {a : Unit} (h : noDead ps s = .ok (a, t)) : t = s := by
  unfold noDead at h
  generalize List.find? _ ps = o at h
  cases o with
  | some p => cases h
  | none => cases h; rfl

/-! ## A core with nothing on its way -/

section
variable {s : State} {u : Nat}

/-- Where none of a core's requests is pending, performing those that meet a condition changes nothing. -/
theorem flushWhere_nonePending (h : NonePending s u) (p : Req → Bool) : flushWhere s u p = s := by
  have hmine : ∀ r ∈ s.reqs, (r.pendingOf u && p r) = false := fun r hr => by rw [h r hr, Bool.false_and]
  have h1 : s.reqs.filter (fun r => r.pendingOf u && p r) = [] := List.filter_eq_nil_iff.2 fun r hr => by simp [hmine r hr]
  have h2 : s.reqs.filter (fun r => !(r.pendingOf u && p r)) = s.reqs := List.filter_eq_self.2 fun r hr => by simp [hmine r hr]
  unfold flushWhere
  dsimp only
  rw [h1, h2]
  rfl

/-- An empty store buffer has nothing to perform. -/
theorem drainThrough_empty (h : (s.core u).storeBuf = []) (p : SbEntry → Bool) :
    drainThrough s u p = s.modCore u (fun c => { c with storeBuf := [] }) := by
  unfold drainThrough drainFirst
  rw [h]
  rfl

end

/-- Memory as it was, and nothing of core u on its way. -/
def Resting (u : Nat) (m : Memory) (s : State) : Prop := s.mem = m ∧ Quiet s u

section
variable {u : Nat} {m : Memory} {s t : State}

theorem Resting.looked (h : Resting u m s) (hl : Looked s t) : Resting u m t := ⟨hl.mem.trans h.1, hl.quiet h.2⟩

theorem Looks.resting {α : Type} {f : M α} (h : Looks f) : Keeps (Resting u m) f := fun s a t hs e => hs.looked (h s a t e)

/-- An update of one core beside its store buffer. -/
theorem Resting.modCore (h : Resting u m s) {v : Nat} {f : Core → Core} (hf : ∀ c, (f c).storeBuf = c.storeBuf) : Resting u m (s.modCore v f) := by
  obtain ⟨h1, h2, h3⟩ := h
  refine ⟨h1, ?_, h3⟩
  rw [State.modCore_eq, State.setCore_core]
  split
  · rename_i e; rw [hf, ← e]; exact h2
  · exact h2

theorem Resting.drainThrough (h : Resting u m s) (p : SbEntry → Bool) : Resting u m (drainThrough s u p) := by
  rw [drainThrough_empty h.2.1]
  refine ⟨h.1, ?_, h.2.2⟩
  rw [State.modCore_eq, State.setCore_core_self]

theorem Resting.flushWhere (h : Resting u m s) (p : Req → Bool) : Resting u m (flushWhere s u p) := by rw [flushWhere_nonePending h.2.2]; exact h

theorem Resting.beforeRead (h : Resting u m s) {w : Who} (hw : w.core = some u) (p : Piece) (loc n : Nat) : Resting u m (beforeRead s w p loc n) := by
  unfold Machine.beforeRead
  rw [hw]
  dsimp only
  refine Resting.flushWhere ?_ _
  split
  · exact h.drainThrough _
  · exact h

theorem Resting.fillSectors (h : Resting u m s) (P : Nat) (locs : List Nat) : Resting u m (fillSectors s P locs) := h

theorem uoBytes_resting (w : Who) (locs : List Nat) : Keeps (Resting u m) (uoBytes w locs) := by
  intro s bs t h e
  unfold uoBytes at e
  extract_lets c held old k others stale s1 bs' s2 at e
  have h1 : Resting u m s1 := by
    dsimp only [s1]; split
    · exact h
    · exact h
  have h2 : Resting u m s2 := by
    dsimp only [s2]; split
    · exact h1.fillSectors _ _
    · exact h1
  simp only [Except.ok.injEq, Prod.mk.injEq] at e
  rw [← e.2]
  split
  · exact h2.modCore fun _ => rfl
  · exact h2

theorem Resting.raiseFloor (h : Resting u m s) (v a n k : Nat) : Resting u m (s.raiseFloor v a n k) := by
  unfold State.raiseFloor
  split
  · exact h
  · exact h.modCore fun _ => rfl

theorem loadAge_resting (v : Nat) (spans : List (Nat × Nat)) : Keeps (Resting u m) (loadAge v spans) := by
  intro s d t h e
  unfold loadAge at e
  dsimp only at e
  split at e
  · cases e; exact h
  · cases e
    exact foldl_keeps (fun s x h => h.raiseFloor ..) spans _ (show Resting u m s.tickFree from h)

theorem farBytes_resting (w : Who) (p : Piece) (locs : List Nat) : Keeps (Resting u m) (farBytes w p locs) := by
  intro s bs t h e
  unfold farBytes at e
  dsimp only at e
  split at e
  · cases e
    split
    · exact h.modCore fun _ => rfl
    · exact h
  split at e
  · exact uoBytes_resting w locs s bs t h e
  split at e
  · split at e
    · rename_i hl; cases e; exact loadAge_resting _ _ s _ _ h hl
    · cases e
  · cases e; exact h

theorem seeBytes_resting (w : Who) (p : Piece) (locs : List Nat) : Keeps (Resting u m) (seeBytes w p locs) :=
  .bind (farBytes_resting w p locs) fun _ => .bind .get fun _ => .pure _

theorem Resting.notifyRead (h : Resting u m s) {pa : Nat} {v : Word} (e : notifyRead s pa = some (v, t)) : Resting u m t := by
  unfold Machine.notifyRead at e
  (repeat' split at e) <;> cases e <;> exact h

theorem remoteLoad_looks (w : Who) (va : Word) (n : Nat) : Looks (remoteLoad w va n) := by
  have hn : Looks freeNatM := by rintro s _ _ ⟨⟩; exact tickFree_looked s
  have hv : Looks freeWordM := by rintro s _ _ ⟨⟩; exact tickFree_looked s
  unfold remoteLoad
  refine .bind .get fun s => ?_
  extract_lets rest
  have hr : ∀ r, Looks (rest r) := by
    intro r
    refine .bind hn fun k => ?_
    split
    · exact .trap _
    · exact .trap _
    · exact .trap _
    · exact .bind hv fun _ => .pure _
  split
  · exact .bind (.wait _) hr
  · exact hr ()

theorem readPiece_resting {w : Who} (hw : w.core = some u) (p : Piece) : Keeps (Resting u m) (readPiece w p) := by
  intro s bs t h e
  unfold readPiece at e
  split at e
  · exact seeBytes_resting w p _ _ bs t (h.beforeRead hw ..) e
  · split at e
    · split at e
      · rename_i hn; cases e; exact (h.beforeRead hw ..).notifyRead hn
      · cases e
    · cases e
  · exact h.looked (remoteLoad_looks w _ _ s bs t e)
  · cases e

theorem readPieces_resting {w : Who} (hw : w.core = some u) : ∀ l, Keeps (Resting u m) (readPieces w l)
  | [] => .pure _
  | p :: l => .bind (readPiece_resting hw p) fun _ => .bind (readPieces_resting hw l) fun _ => .pure _

theorem noPoison_resting (w : Who) (ps : List Piece) : Keeps (Resting u m) (noPoison w ps) := fun s a t h e => by rw [noPoison_state e]; exact h

/-- A load of a core with nothing on its way leaves memory as it is. -/
theorem loadBytes_resting {w : Who} (hw : w.core = some u) (va : Word) (n : Nat) : Keeps (Resting u m) (loadBytes w va n) :=
  .bind (resolve_looks w _ _ _).resting fun ps => .bind (noPoison_resting w ps) fun _ => readPieces_resting hw ps

end

end Sys2Proof.Machine
end

section
/-! Scalar loads and stores (R99, R101). -/

namespace Sys2Proof.Machine

/-- The sign-extension of R99 is the library's. -/
theorem sext64_eq_signExtend {k : Nat} (hk : 0 < k) (n : Nat) : sext64 k n = (BitVec.ofNat k n).signExtend 64 := by
  have hpow : 2 ^ k = 2 * 2 ^ (k - 1) := by rw [← Nat.pow_succ', Nat.succ_eq_add_one, Nat.sub_add_cancel hk]
  unfold sext64 BitVec.signExtend
  congr 1
  rw [BitVec.toInt_eq_toNat_cond, BitVec.toNat_ofNat]
  unfold signedOf
  dsimp only
  generalize n % 2 ^ k = x
  by_cases hx : 2 ^ (k - 1) ≤ x
  · rw [if_pos hx, if_neg (by omega)]
    push_cast
    rfl
  · rw [if_neg hx, if_pos (by omega)]

theorem aligned_of_mod {va : Word} {n : Nat} (h : va.toNat % n = 0) (s : State) : aligned va n s = .ok ((), s) := by
  unfold aligned
  rw [needM_apply, h]
  rfl

theorem aligned_of_misaligned {va : Word} {n : Nat} (h : va.toNat % n ≠ 0) (s : State) : aligned va n s = .error (.trap (.at .align va)) := by
  unfold aligned
  rw [needM_apply, if_neg (by simpa using h)]

section
variable {s t : State} {ea v : Word} {n : Nat} {bs : List Byte}

theorem loadScalar_of_bytes (ha : ea.toNat % n = 0) (h : loadBytes s.me ea n s = .ok (bs, t)) : loadScalar ea n s = .ok (leNat bs, t) := by
  unfold loadScalar
  rw [M.bind_of_ok (aligned_of_mod ha s), M.bind_of_ok (M.get_apply s), M.bind_of_ok h]
  rfl

theorem storeScalar_of_bytes (ha : ea.toNat % n = 0) (h : storeBytes s.me .store ea (leBytes n v.toNat) none false s = .ok ((), t)) :
    storeScalar ea n v false s = .ok ((), t) := by
  unfold storeScalar
  rw [M.bind_of_ok (aligned_of_mod ha s), M.bind_of_ok (M.get_apply s)]
  exact h

/-- A load that reads its bytes completes (R99). -/
theorem loadG_completes {i : Instr} {ext : Nat → Word} {d : GReg} (hi : exec i s = runM (loadG n ext d ea) s) (ha : ea.toNat % n = 0)
    (h : loadBytes s.me ea n s = .ok (bs, t)) : CompletesG i s t d (ext (leNat bs)) := by
  refine completesG_of_runM hi ?_ (loadBytes_accesses _ _ _ s bs t h)
  unfold loadG
  rw [M.bind_of_ok (loadScalar_of_bytes ha h)]
  rfl

/-- A load of a core with nothing on its way changes no byte. -/
theorem loadBytes_peek (h : loadBytes s.me ea n s = .ok (bs, t)) (hq : Quiet s s.cur) (x : Nat) : t.mem.peek x = s.mem.peek x := by
  rw [(loadBytes_resting (u := s.cur) rfl ea n s bs t ⟨rfl, hq⟩ h).1]

/-- A store whose bytes have gone where its address lands completes (R99). -/
theorem storeG_completes {i : Instr} (hi : exec i s = runM (storeG n v ea) s) (ha : ea.toNat % n = 0)
    (h : storeBytes s.me .store ea (leBytes n v.toNat) none false s = .ok ((), t)) : Completes i s t := by
  refine completes_of_runM hi ?_ (storeBytes_accesses _ _ _ _ _ _ s () t h)
  unfold storeG
  rw [M.bind_of_ok (storeScalar_of_bytes ha h)]
  rfl

/-! ## The place of a store -/

/-- A piece is as long as its part. -/
theorem pieceOf_len {w : Who} {va : Word} {p : Piece} (h : pieceOf w va n s = .ok (p, t)) : p.len = n := by
  unfold pieceOf at h
  split at h
  · cases h
  · simp only [Except.ok.injEq, Prod.mk.injEq] at h
    rw [← h.1]
  · dsimp only at h
    split at h
    · generalize (if endpointOf va = s.net.own then none else mfind s.net.endpoints (endpointOf va)) = o at h
      cases o with
      | some x =>
        simp only [Except.ok.injEq, Prod.mk.injEq] at h
        rw [← h.1]
      | none => cases h
    · generalize translate va s = r at h
      cases r with
      | error e => cases h
      | ok p =>
        obtain ⟨w', s'⟩ := p
        cases w' with
        | fail => cases h
        | regen _ _ => cases h
        | leaf pte big =>
          simp only [Except.ok.injEq, Prod.mk.injEq] at h
          rw [← h.1]

/-- There are as many pieces as parts. -/
theorem piecesOf_length {w : Who} : ∀ {l : List (Word × Nat)} {ps : List Piece} {s t : State}, piecesOf w l s = .ok (ps, t) → ps.length = l.length
  | [], _, _, _, h => by cases h; rfl
  | (_, _) :: l, ps, s, t, h => by
    unfold piecesOf at h
    obtain ⟨p, s1, -, h⟩ := M.bind_ok.1 h
    obtain ⟨qs, s2, h2, h⟩ := M.bind_ok.1 h
    cases h
    rw [List.length_cons, List.length_cons, piecesOf_length h2]

/-- A range that lies on one piece is one part. -/
theorem splitRange_single {k n : Nat} {va : Word} (h : (splitRange (k + 2) va n).length = 1) : splitRange (k + 2) va n = [(va, n)] := by
  rw [splitRange] at h ⊢
  split at h
  · cases h
  · rename_i h0
    rw [if_neg h0]
    dsimp only at h ⊢
    split at h
    · rename_i hroom; rw [if_pos hroom]
    · rename_i hroom
      rw [List.length_cons, Nat.succ_inj, List.length_eq_zero_iff, splitRange, if_neg (by omega)] at h
      dsimp only at h
      split at h <;> cases h

/-- A piece that is the whole range is as long as the range (R123). -/
theorem resolve_single_len {w : Who} {acc : Acc} {va : Word} {p : Piece} (h : resolve w acc va n s = .ok ([p], t)) : p.len = n := by
  unfold resolve resolveParts at h
  split at h
  · cases h
  · obtain ⟨ps, s1, h1, h2⟩ := M.bind_ok.1 h
    obtain ⟨_, s2, -, h3⟩ := M.bind_ok.1 h2
    cases h3
    unfold rangeParts at h1
    rw [splitRange_single (piecesOf_length h1).symm] at h1
    unfold piecesOf at h1
    obtain ⟨q, s3, hq, h1⟩ := M.bind_ok.1 h1
    cases h1
    exact pieceOf_len hq

theorem pathDown_of_linksUp (h : LinksUp s) (d e : Nat) : pathDown s d e = false := by
  unfold pathDown
  split
  · rw [h, h]; rfl
  · rw [List.any_eq_false]
    intro m _
    rw [h m]
    exact Bool.false_ne_true

/-- With every link up no store is cut off. -/
theorem SbEntry.cut_of_linksUp (h : LinksUp s) (e : SbEntry) (u : Nat) : e.cut s u = false := by
  unfold SbEntry.cut
  have : e.writes.any (fun w => pathDown s (dieOf (clusterOf u)) (if e.repl then 4 else locDie w.1)) = false := by
    rw [List.any_eq_false]
    intro w _
    rw [pathDown_of_linksUp h]
    exact Bool.false_ne_true
  rw [this, Bool.and_false]

/-- An ordered store to memory of its own is performed by writing its bytes. -/
theorem performEntry_plain {u : Nat} {e : SbEntry} (hr : e.release = false) (hu : e.uo = false) (hp : e.repl = false) (hl : LinksUp s) :
    performEntry s u e = performBy s u e.writes := by
  unfold performEntry
  have hk : e.kept = false := by unfold SbEntry.kept; rw [hu]; rfl
  simp only [hr, hu, hp, hk, SbEntry.cut_of_linksUp hl, Bool.false_and, Bool.false_eq_true, if_false]

/-- A store entry of a step that performs its requests, with no atomic of the core on its way, is performed. -/
theorem storeEntry_now {u : Nat} {e : SbEntry} (he : s.eager = true) (hn : NonePending s u) : storeEntry s u e = performEntry s u e := by
  unfold storeEntry
  rw [flushWhere_nonePending hn]
  exact if_pos he

/-- A core's write of one piece of ordered memory puts its bytes there. -/
theorem writePieces_single_mem {u : Nat} {p : Piece} {loc : Nat} {w : Who} (hw : w.core = some u) (hp : p.place = .mem loc) (hk : p.kind ≠ 2)
    (hr : p.repl = false) (hlen : p.len = bs.length) (he : s.eager = true) (hl : LinksUp s) (hn : NonePending s u)
    (h : writePieces w none false [p] bs s = .ok ((), t)) : t.mem = s.mem.pokes (writesAt loc bs) := by
  unfold writePieces at h
  obtain ⟨_, s1, h1, h2⟩ := M.bind_ok.1 h
  cases h2
  unfold writePiece at h1
  rw [hp, hw, hlen, List.take_length] at h1
  simp only [ite_self, pieceWrites, List.append_nil] at h1
  cases h1
  rw [storeEntry_now he hn, performEntry_plain rfl ?_ hr hl, performBy_mem]
  simp [hk]

/-- What a store does to memory where it lands at one place of an ordered page (R99, R101). -/
theorem storeBytes_single_mem {p : Piece} {s0 : State} {loc : Nat} (hres : resolve s.me .store ea bs.length s = .ok ([p], s0)) (hp : p.place = .mem loc)
    (hk : p.kind ≠ 2) (hr : p.repl = false) (he : s.eager = true) (hl : LinksUp s) (hn : NonePending s s.cur)
    (h : storeBytes s.me .store ea bs none false s = .ok ((), t)) : t.mem = s.mem.pokes (writesAt loc bs) := by
  have hlook := resolve_looks _ _ _ _ _ _ _ hres
  unfold storeBytes at h
  rw [M.bind_of_ok hres] at h
  obtain ⟨_, s1, h1, h⟩ := M.bind_ok.1 h
  obtain ⟨_, s2, h2, h⟩ := M.bind_ok.1 h
  cases ringsFree_state h1
  cases noDead_state h2
  rw [writePieces_single_mem rfl hp hk hr (resolve_single_len hres) (hlook.eager.trans he) (hlook.linksUp hl) (hlook.nonePending hn) h, hlook.mem]

end

end Sys2Proof.Machine

namespace Sys2Proof

open Machine

/-- Settles O15: a load is the reading of its bytes and one register write. -/
theorem scalarLoads : Obligations.ScalarLoads := by
  unfold Obligations.ScalarLoads
  intro s s1 d a off bs
  dsimp only
  refine ⟨fun ⟨ha, h⟩ => ?_, fun ⟨ha, h⟩ => ?_, fun ⟨ha, h⟩ => ?_, fun ⟨ha, h⟩ => ?_⟩
  · rw [← sext64_eq_signExtend (by decide)]
    exact ⟨loadG_completes rfl ha h, loadG_completes rfl ha h, loadBytes_accesses _ _ _ _ _ _ h, loadBytes_peek h⟩
  · rw [← sext64_eq_signExtend (by decide)]
    exact ⟨loadG_completes rfl ha h, loadG_completes rfl ha h, loadBytes_accesses _ _ _ _ _ _ h, loadBytes_peek h⟩
  · rw [← sext64_eq_signExtend (by decide)]
    exact ⟨loadG_completes rfl ha h, loadG_completes rfl ha h, loadBytes_accesses _ _ _ _ _ _ h, loadBytes_peek h⟩
  · exact ⟨loadG_completes rfl ha h, loadBytes_accesses _ _ _ _ _ _ h, loadBytes_peek h⟩

/-- What the statement of O17 says of a store of n bytes. -/
theorem storeG_stores {s s1 : State} {i : Instr} {n : Nat} {v ea : Word} (hi : exec i s = runM (storeG n v ea) s) (ha : ea.toNat % n = 0)
    (h : storeBytes s.me .store ea (leBytes n v.toNat) none false s = .ok ((), s1)) :
    Completes i s s1 ∧ Accessed s s1
      ∧ ∀ (p : Piece) (s0 : State) (loc : Nat), resolve s.me .store ea n s = .ok ([p], s0) → p.place = .mem loc → p.kind ≠ 2 →
          p.repl = false → s.eager = true → LinksUp s → NonePending s s.cur →
          s1.mem.nat loc n = v.toNat % 256 ^ n ∧ ∀ x, x < loc ∨ loc + n ≤ x → s1.mem.peek x = s.mem.peek x := by
  refine ⟨storeG_completes hi ha h, storeBytes_accesses _ _ _ _ _ _ _ _ _ h, fun p s0 loc hres hp hk hr he hl hn => ?_⟩
  have hm := storeBytes_single_mem (by rw [leBytes_length]; exact hres) hp hk hr he hl hn h
  refine ⟨by rw [hm, Memory.nat_writesAt], fun x hx => ?_⟩
  rw [hm]
  exact Memory.peek_writesAt_outside _ _ _ _ (by rw [leBytes_length]; exact hx)

/-- Settles O17: a store writes the low bytes of its register at the place that its address names. -/
theorem scalarStores : Obligations.ScalarStores := by
  unfold Obligations.ScalarStores
  intro s s1 d a off
  exact ⟨storeG_stores rfl, storeG_stores rfl, storeG_stores rfl, storeG_stores rfl⟩

end Sys2Proof
end

section
/-! The checks of an access, in the order of R100: alignment, then rights. -/

namespace Sys2Proof.Machine

section
variable {s : State} {i : Instr} {ea : Word} {n : Nat}

/-- An instruction whose operation begins with the alignment check traps at a misaligned address. -/
theorem trapsWith_align {f : Unit → M Flow} {m : M Flow} (hi : exec i s = runM m s) (hm : m s = (aligned ea n >>= f) s) (h : ea.toNat % n ≠ 0) :
    TrapsWith i s .align ea :=
  trapsWith_of_runM hi (by rw [hm]; exact M.bind_of_error (aligned_of_misaligned h s)) (by decide)

theorem loadScalar_misaligned (h : ea.toNat % n ≠ 0) : loadScalar ea n s = .error (.trap (.at .align ea)) :=
  M.bind_of_error (aligned_of_misaligned h s)

theorem storeScalar_misaligned {v : Word} {rel : Bool} (h : ea.toNat % n ≠ 0) : storeScalar ea n v rel s = .error (.trap (.at .align ea)) :=
  M.bind_of_error (aligned_of_misaligned h s)

theorem futurePlace_misaligned {acc : Acc} (h : ea.toNat % 8 ≠ 0) : futurePlace ea acc s = .error (.trap (.at .align ea)) :=
  M.bind_of_error (aligned_of_misaligned h s)

theorem loadG_misaligned {ext : Nat → Word} {d : GReg} (hi : exec i s = runM (loadG n ext d ea) s) (h : ea.toNat % n ≠ 0) : TrapsWith i s .align ea :=
  trapsWith_of_runM hi (M.bind_of_error (loadScalar_misaligned h)) (by decide)

theorem storeG_misaligned {v : Word} (hi : exec i s = runM (storeG n v ea) s) (h : ea.toNat % n ≠ 0) : TrapsWith i s .align ea :=
  trapsWith_of_runM hi (M.bind_of_error (storeScalar_misaligned h)) (by decide)

/-- An LDF with no answer waiting looks for its place first. -/
theorem loadFuture_of_pop_none {d : GReg} (hp : (s.core s.cur).pop = none) {e : Stop} (h : futurePlace ea .load s = .error e) :
    loadFuture d ea s = .error e := by
  unfold loadFuture
  rw [M.bind_of_ok (M.get_apply s), hp]
  exact M.bind_of_error h

theorem atomic_misaligned {op : AtomOp} {d a b : GReg} (hi : exec i s = runM (atomic op d a b) s) (h : (s.rg a).toNat % atomSize op ≠ 0) :
    TrapsWith i s .align (s.rg a) := by
  refine trapsWith_of_runM hi ?_ (by decide)
  unfold atomic
  rw [M.bind_of_ok (M.get_apply s)]
  exact M.bind_of_error (aligned_of_misaligned h s)

theorem waitAtomic_misaligned {d a b : GReg} (h : (s.rg a).toNat % 8 ≠ 0) : waitAtomic d a b s = .error (.trap (.at .align (s.rg a))) := by
  unfold waitAtomic
  rw [M.bind_of_ok (M.get_apply s)]
  exact M.bind_of_error (aligned_of_misaligned h s)

/-- The alignment check comes first, whatever the address names (R99, R100). -/
theorem misalignedAccessTraps : MisalignedAccessTraps := by
  intro s d a b v off
  simp only [List.forall_mem_cons, List.not_mem_nil, false_implies, implies_true, and_true]
  refine ⟨fun h => ?_, fun h => ?_, fun h => ?_, fun h hp => ?_, fun h => ?_, fun h => ?_, fun h => ?_⟩
  · exact ⟨loadG_misaligned rfl h, loadG_misaligned rfl h, storeG_misaligned rfl h⟩
  · exact ⟨loadG_misaligned rfl h, loadG_misaligned rfl h, storeG_misaligned rfl h⟩
  · exact ⟨loadG_misaligned rfl h, storeG_misaligned rfl h, trapsWith_align rfl rfl h, trapsWith_align rfl rfl h,
      trapsWith_of_runM rfl (M.bind_of_error (futurePlace_misaligned h)) (by decide)⟩
  · exact trapsWith_of_runM rfl (loadFuture_of_pop_none hp (futurePlace_misaligned h)) (by decide)
  · exact ⟨trapsWith_of_runM rfl (M.bind_of_error (M.bind_of_error (aligned_of_misaligned h s))) (by decide),
      trapsWith_of_runM rfl (M.bind_of_error (M.bind_of_error (aligned_of_misaligned h s))) (by decide)⟩
  · exact ⟨atomic_misaligned rfl h, atomic_misaligned rfl h, atomic_misaligned rfl h, atomic_misaligned rfl h, atomic_misaligned rfl h,
      atomic_misaligned rfl h, atomic_misaligned rfl h, atomic_misaligned rfl h, atomic_misaligned rfl h, atomic_misaligned rfl h,
      trapsWith_of_runM rfl (waitAtomic_misaligned h) (by decide)⟩
  · exact atomic_misaligned rfl h

end

/-! ## Rights of the local window -/

section
variable {s : State} {o n : Nat}

/-- A part of the local window of the core whose turn it is, as a piece. -/
def localPiece (s : State) (o n : Nat) (place : Place) (cut : Option Nat) : Piece :=
  { va := localVa o, len := n, place := place, kind := 1, typed := true, repl := false, dom := 4032 + s.logicalNo (clusterOf s.cur), cut := cut }

/-- A part of the local window lies in one of the banks of the agent's own cluster, under that cluster's domain (R86, R93). -/
theorem pieceOf_local (h : o < 2 ^ 22) (n : Nat) : ∃ place cut, pieceOf s.me (localVa o) n s = .ok (localPiece s o n place cut, s) := by
  unfold pieceOf
  rw [show s.me.cl = clusterOf s.cur from rfl, localWindow_region s _ h]
  exact ⟨_, _, rfl⟩

/-- A range of the local window that no 64 KiB boundary divides is one part (R123). -/
theorem rangeParts_local (h : o < 2 ^ 22) (h0 : 0 < n) (hn : o % 65536 + n ≤ 65536) : rangeParts (localVa o) n = [(localVa o, n)] := by
  have hroom : n ≤ 65536 - (localVa o).toNat % 65536 := by rw [localVa_toNat h]; unfold localWin; omega
  unfold rangeParts
  rw [splitRange, if_neg (by omega)]
  dsimp only
  rw [if_pos hroom]

/-- Of a range of the local window every byte exists (R100). -/
theorem local_exists (h : o < 2 ^ 22) :
    ([(localVa o, n)] : List (Word × Nat)).find? (fun p => regionOf s (clusterOf s.cur) p.1 == .nothing) = none := by
  rw [List.find?_eq_none]
  intro p hp
  rw [List.mem_singleton.1 hp, localWindow_region s _ h]
  exact Bool.false_ne_true

/-- Orders 2 to 4 of R100 for a range of the local window that is one piece: its rights decide. -/
theorem resolve_local {acc : Acc} {p : Piece} (h : o < 2 ^ 22) (h0 : 0 < n) (hn : o % 65536 + n ≤ 65536) (hp : pieceOf s.me (localVa o) n s = .ok (p, s)) :
    resolve s.me acc (localVa o) n s = (do rightsAll s.me acc [p]; pure [p] : M (List Piece)) s := by
  have hpieces : piecesOf s.me [(localVa o, n)] s = .ok ([p], s) := by
    unfold piecesOf
    rw [M.bind_of_ok hp]
    rfl
  unfold resolve resolveParts
  rw [redirected_local _ h, rangeParts_local h h0 hn, show s.me.cl = clusterOf s.cur from rfl, local_exists h]
  exact M.bind_of_ok hpieces

/-- An access to the local window without its right is denied at its address (R93, R100). -/
theorem resolve_local_denied {acc : Acc} {r : Byte} {s0 : State} (h : o < 2 ^ 22) (h0 : 0 < n) (hn : o % 65536 + n ≤ 65536)
    (hr : rightsM s.me (4032 + s.logicalNo (clusterOf s.cur)) s = .ok (r, s0)) (hg : granted acc true r = false) :
    resolve s.me acc (localVa o) n s = .error (.trap (.at .plbDeny (localVa o))) := by
  obtain ⟨place, cut, hpiece⟩ := pieceOf_local (s := s) h n
  rw [resolve_local h h0 hn hpiece]
  refine M.bind_of_error ?_
  unfold rightsAll
  rw [M.bind_of_ok (show rightsM s.me (localPiece s o n place cut).dom s = .ok (r, s0) from hr)]
  refine M.bind_of_error ?_
  rw [show (localPiece s o n place cut).typed = true from rfl, hg]
  rfl

/-- A naturally aligned range of the local window lies on one page (R99, R123). -/
theorem local_natural {ea : Word} (h : o < 2 ^ 22) (hd : n ∣ 65536) (he : ea = localVa o ∧ o % n = 0) : ea.toNat % n = 0 ∧ o % 65536 + n ≤ 65536 := by
  obtain ⟨rfl, ho⟩ := he
  obtain ⟨k, hk⟩ := hd
  have hdvd : n ∣ o := Nat.dvd_of_mod_eq_zero ho
  refine ⟨?_, ?_⟩
  · rw [localVa_toNat h]
    have : n ∣ localWin := Dvd.dvd.trans ⟨k, hk⟩ (by decide)
    exact Nat.mod_eq_zero_of_dvd (Nat.dvd_add this hdvd)
  · have hm : n ∣ o % 65536 := (Nat.dvd_mod_iff ⟨k, hk⟩).2 hdvd
    have h2 : n ∣ 65536 - o % 65536 := Nat.dvd_sub ⟨k, hk⟩ hm
    have := Nat.le_of_dvd (by have := Nat.mod_lt o (show 0 < 65536 by decide); omega) h2
    omega

section
variable {i : Instr} {ea : Word} {r : Byte} {s0 : State}
  (h : o < 2 ^ 22) (h0 : 0 < n) (hd : n ∣ 65536) (hr : rightsM s.me (4032 + s.logicalNo (clusterOf s.cur)) s = .ok (r, s0)) (he : ea = localVa o ∧ o % n = 0)
include h h0 hd hr he

/-- A load of the local window without RD. -/
theorem loadG_denied {ext : Nat → Word} {d : GReg} (hi : exec i s = runM (loadG n ext d ea) s) (hg : r.getLsbD 0 = false) : TrapsWith i s .plbDeny ea := by
  obtain ⟨ha, hn⟩ := local_natural h hd he
  obtain ⟨rfl, -⟩ := he
  refine trapsWith_of_runM hi (M.bind_of_error ?_) (by decide)
  unfold loadScalar
  rw [M.bind_of_ok (aligned_of_mod ha s), M.bind_of_ok (M.get_apply s)]
  exact M.bind_of_error (M.bind_of_error (resolve_local_denied h h0 hn hr hg))

/-- A store to the local window without W. -/
theorem storeG_denied {v : Word} (hi : exec i s = runM (storeG n v ea) s) (hg : r.getLsbD 1 = false) : TrapsWith i s .plbDeny ea := by
  obtain ⟨ha, hn⟩ := local_natural h hd he
  obtain ⟨rfl, -⟩ := he
  refine trapsWith_of_runM hi (M.bind_of_error ?_) (by decide)
  unfold storeScalar
  rw [M.bind_of_ok (aligned_of_mod ha s), M.bind_of_ok (M.get_apply s)]
  refine M.bind_of_error ?_
  rw [leBytes_length]
  exact resolve_local_denied h h0 hn hr hg

end

/-- The rights are checked once the page is known, before any byte is read or written (R86, R93, R100). -/
theorem accessWithoutRightTraps : AccessWithoutRightTraps := by
  intro s d a off o r s0
  simp only [List.forall_mem_cons, List.not_mem_nil, false_implies, implies_true, and_true]
  intro h hr
  refine ⟨fun hg => ⟨fun he => ?_, fun he => ?_, fun he => ?_, fun he => ?_⟩, fun hg => ⟨fun he => ?_, fun he => ?_, fun he => ?_, fun he => ?_⟩⟩
  · exact ⟨loadG_denied h (by decide) (by decide) hr he rfl hg, loadG_denied h (by decide) (by decide) hr he rfl hg⟩
  · exact ⟨loadG_denied h (by decide) (by decide) hr he rfl hg, loadG_denied h (by decide) (by decide) hr he rfl hg⟩
  · exact ⟨loadG_denied h (by decide) (by decide) hr he rfl hg, loadG_denied h (by decide) (by decide) hr he rfl hg⟩
  · exact loadG_denied h (by decide) (by decide) hr he rfl hg
  · exact storeG_denied h (by decide) (by decide) hr he rfl hg
  · exact storeG_denied h (by decide) (by decide) hr he rfl hg
  · exact storeG_denied h (by decide) (by decide) hr he rfl hg
  · exact storeG_denied h (by decide) (by decide) hr he rfl hg

end

end Sys2Proof.Machine

namespace Sys2Proof

/-- Settles O18: the alignment check comes first of all, and the check of rights before anything is read or written. -/
theorem accessChecks : Obligations.AccessChecks := ⟨Machine.misalignedAccessTraps, Machine.accessWithoutRightTraps⟩

end Sys2Proof
end

section
/-! Futures (R108, R109). -/

namespace Sys2Proof.Machine

theorem futurePlace_looks (ea : Word) (acc : Acc) : Looks (futurePlace ea acc) := by
  unfold futurePlace
  refine .bind (.need _ _) fun _ => .bind .get fun s => .bind (resolve_looks _ _ _ _) fun ps => ?_
  split
  · split
    · split
      · exact .trap _
      · exact .pure _
    · exact .trap _
  · exact .trap _

/-- A core with an empty store buffer. -/
def State.emptied (s : State) : State := s.modCore s.cur (fun c => { c with storeBuf := [] })

section
variable {s t : State}

theorem State.emptied_core (s : State) : s.emptied.core s.cur = { s.core s.cur with storeBuf := [] } := by
  unfold State.emptied
  rw [State.modCore_eq, State.setCore_core_self]

theorem State.emptied_quiet (h : Quiet s s.cur) : Quiet s.emptied s.cur := ⟨by rw [State.emptied_core], h.2⟩

/-- Before a future's word is read or written, the core's own accesses to it have been performed: with none on its way, that is all (R101, R120). -/
theorem beforeFuture_quiet {p : Piece} {loc : Nat} (h : Quiet s s.cur) (hk : p.kind ≠ 2) : beforeFuture p loc s = .ok ((), s.emptied) := by
  unfold beforeFuture
  rw [M.modify_apply]
  dsimp only
  rw [if_neg hk, drainThrough_empty h.1]
  exact congrArg (fun t => Except.ok ((), t)) (flushWhere_nonePending (State.emptied_quiet h).2 _)

variable {d : GReg} {ea v : Word} {p : Piece} {loc : Nat} {s1 : State}

/-- An answer held in the pop buffer completes an LDF (R109). -/
theorem loadFuture_answered (h : (s.core s.cur).pop = some (.val v)) : loadFuture d ea s = .ok (.next, (acquire s s.cur).wg d v) := by
  unfold loadFuture
  rw [M.bind_of_ok (M.get_apply s), h]
  rfl

/-- A state with one more read of a future word held at its home slice (R109). -/
def State.deferring (s : State) (sl loc : Nat) : State := { s with defers := s.defers ++ [⟨sl, loc, some s.cur⟩] }

/-- An LDF with no answer waiting looks at the word. -/
theorem loadFuture_looks_at (hp : (s.core s.cur).pop = none) (hf : futurePlace ea .load s = .ok ((p, loc), s1)) (hn : noPoison s.me [p] s1 = .ok ((), s1))
    (hq : Quiet s s.cur) (hk : p.kind ≠ 2) :
    loadFuture d ea s = (let t := s1.emptied
      if word (t.mem.nat loc 8) ≠ emptyWord then .ok (.next, (acquire t t.cur).wg d (word (t.mem.nat loc 8)))
      else if t.deferred (homeSlice ea) < 64 then
        .ok (.stay, parkCore (t.deferring (homeSlice ea) loc) t.cur (.future loc))
      else .ok (.stay, parkCore t t.cur (.futureRetry loc t.now))) := by
  have hlook := futurePlace_looks _ _ _ _ _ hf
  have hq1 : Quiet s1 s1.cur := by rw [hlook.cur]; exact hlook.quiet hq
  unfold loadFuture
  rw [M.bind_of_ok (M.get_apply s), hp]
  dsimp only
  rw [M.bind_of_ok hf]
  dsimp only
  rw [M.bind_of_ok hn, M.bind_of_ok (beforeFuture_quiet hq1 hk), M.bind_of_ok (M.get_apply _)]
  split
  · rfl
  split
  · rfl
  · rfl

/-- A core that has looked at a word and waits for it keeps its registers. -/
theorem parkCore_emptied (h : Looked s s1) {x : State} {w : Wait} (hx : x.cores = s1.emptied.cores) :
    ((parkCore x s.cur w).core s.cur).g = (s.core s.cur).g ∧ ((parkCore x s.cur w).core s.cur).pc = (s.core s.cur).pc
      ∧ ((parkCore x s.cur w).core s.cur).wait = w := by
  have hcore : x.core s.cur = { s1.core s.cur with storeBuf := [] } := by
    rw [← h.cur, ← State.emptied_core]
    unfold State.core
    rw [hx]
  rw [parkCore, State.modCore_eq, State.setCore_core_self, hcore, h.2 s.cur]
  exact ⟨rfl, rfl, rfl⟩

/-- Where the sequencer has ordered no update, none is applied (R131). -/
theorem applySeen_none {u : Nat} (hs : s.seqOrder = []) : applySeen s u 4 = s := by
  have hbelow : ∀ d k, applyBelow s d k = s := fun d k => by unfold applyBelow; rw [hs]; rfl
  unfold applySeen
  rw [if_pos (by decide), show below 4 = [0, 1, 2, 3] from rfl]
  simp only [List.foldl_cons, List.foldl_nil, hbelow]

/-- A release store of a future word, in a step that performs its requests with every link up, is performed. -/
theorem performEntry_release_mem {u : Nat} {e : SbEntry} (hrel : e.release = true) (hu : e.uo = false) (hp : e.repl = false) (hl : LinksUp s)
    (hn : NonePending s u) (hs : s.seqOrder = []) : (performEntry s u e).mem = s.mem.pokes e.writes := by
  have hk : e.kept = false := by unfold SbEntry.kept; rw [hu]; rfl
  unfold performEntry
  simp only [hrel, if_true, flushWhere_nonePending hn, applySeen_none hs, hu, hp, hk, SbEntry.cut_of_linksUp hl, Bool.false_and, Bool.false_eq_true, if_false]
  exact performBy_mem s u e.writes

/-- The store-buffer entry of an STF (R108). -/
def futureEntry (s : State) (ea v : Word) (p : Piece) (loc : Nat) : SbEntry :=
  { va := ea, writes := writesAt loc (leBytes 8 v.toNat), so := p.kind == 0, uo := p.kind == 2, repl := false, release := true, sent := none, since := s.now }

/-- An STF of a core with nothing on its way is the store of one entry. -/
theorem storeFuture_quiet (hf : futurePlace ea .store s = .ok ((p, loc), s1)) (hq : Quiet s s.cur) (hk : p.kind ≠ 2) :
    storeFuture v ea s = .ok (.next, storeEntry s1.emptied s1.cur (futureEntry s1 ea v p loc)) := by
  have hlook := futurePlace_looks _ _ _ _ _ hf
  have hq1 : Quiet s1 s1.cur := by rw [hlook.cur]; exact hlook.quiet hq
  unfold storeFuture
  rw [M.bind_of_ok hf]
  dsimp only
  rw [M.bind_of_ok (beforeFuture_quiet hq1 hk), M.bind_of_ok (M.modify_apply _ _)]
  rfl

theorem storeFuture_accesses (v ea : Word) : ∀ s t, storeFuture v ea s = .ok (.next, t) → Accessed s t := by
  intro s t h
  refine (Accesses.bind (futurePlace_accesses ea .store) fun ⟨p, loc⟩ => .bind (beforeFuture_accesses p loc) fun _ => .bind ?_ fun _ => .pure Flow.next :
    Accesses (storeFuture v ea)) s .next t h
  rintro s _ _ ⟨⟩
  exact storeEntry_accessed ..

/-- The bytes of an STF stand at its word, and no others have changed (R108). -/
theorem storeFuture_mem (hf : futurePlace ea .store s = .ok ((p, loc), s1)) (hq : Quiet s s.cur) (hk : p.kind ≠ 2) (he : s.eager = true) (hl : LinksUp s)
    (hs : s.seqOrder = []) : (storeEntry s1.emptied s1.cur (futureEntry s1 ea v p loc)).mem = s.mem.pokes (writesAt loc (leBytes 8 v.toNat)) := by
  have hlook := futurePlace_looks _ _ _ _ _ hf
  have hn : NonePending s1.emptied s1.cur := by rw [hlook.cur]; exact hlook.nonePending hq.2
  rw [storeEntry_now (s := s1.emptied) (hlook.eager.trans he) hn, performEntry_release_mem (s := s1.emptied) rfl ?_ rfl (hlook.linksUp hl) hn (hlook.seqOrder.trans hs)]
  · exact congrArg (fun m => Memory.pokes m _) hlook.mem
  · simp [futureEntry, hk]

end

end Sys2Proof.Machine

namespace Sys2Proof

open Machine

/-- Settles O23: with nothing of the core on its way its own accesses need no performing first, and the word decides. -/
theorem futures : Obligations.Futures := by
  unfold Obligations.Futures
  intro s s1 d a off v p loc
  dsimp only
  refine ⟨fun h => ?_, fun hpop hf hn hq hk => ?_, fun hf hq hk he hl hs => ?_⟩
  · exact completesG_of_runM rfl (loadFuture_answered h) (acquire_accessed s s.cur)
  · have hlook := futurePlace_looks _ _ _ _ _ hf
    have hq1 : Quiet s1 s1.cur := by rw [hlook.cur]; exact hlook.quiet hq
    have hmem : s1.emptied.mem = s.mem := hlook.mem
    have hcur : s1.emptied.cur = s.cur := hlook.cur
    have hrun := loadFuture_looks_at (d := d) hpop hf hn hq hk
    dsimp only at hrun
    refine ⟨fun hfull => ?_, fun hempty => ?_⟩
    · rw [hmem, if_pos hfull] at hrun
      have hacc : Accessed s (acquire s1.emptied s1.emptied.cur) :=
        ((futurePlace_accesses _ _ _ _ _ hf).trans (beforeFuture_accesses p loc _ _ _ (beforeFuture_quiet hq1 hk))).trans (acquire_accessed _ _)
      exact ⟨_, completesG_of_runM rfl hrun hacc, (acquire_mem _ _).trans hmem, hacc⟩
    · rw [if_neg (by rw [hmem]; exact not_not_intro hempty)] at hrun
      split at hrun
      case isTrue hroom =>
        obtain ⟨hg, hpc, hw⟩ := parkCore_emptied hlook (x := s1.emptied.deferring (homeSlice (s.rg a + off * 8)) loc) (w := .future loc) rfl
        rw [← hcur] at hg hpc hw ⊢
        refine ⟨_, runM_stay hrun, hmem, hg, hpc, ?_⟩
        rw [if_pos (show List.countP _ s1.defers < 64 from hroom)]
        exact ⟨rfl, hw⟩
      case isFalse hfull =>
        obtain ⟨hg, hpc, hw⟩ := parkCore_emptied hlook (x := s1.emptied) (w := .futureRetry loc s1.emptied.now) rfl
        rw [← hcur] at hg hpc hw ⊢
        refine ⟨_, runM_stay hrun, hmem, hg, hpc, ?_⟩
        rw [if_neg (show ¬ List.countP _ s1.defers < 64 from hfull)]
        exact ⟨rfl, hw.trans (congrArg (Wait.futureRetry loc) (by rw [show s1.emptied.now = s1.now from rfl, hlook.1]))⟩
  · have hrun := storeFuture_quiet (v := s.rg d) hf hq hk
    have hmem := storeFuture_mem (v := s.rg d) hf hq hk he hl hs
    refine ⟨_, completes_of_runM rfl hrun (storeFuture_accesses _ _ _ _ hrun), ?_, fun x hx => ?_⟩
    · rw [hmem, Memory.nat_writesAt]
      exact Nat.mod_eq_of_lt (s.rg d).isLt
    · rw [hmem]
      exact Memory.peek_writesAt_outside _ _ _ _ (by rw [leBytes_length]; exact hx)

end Sys2Proof
end

section
/-! The expansion of a packed run (R107). -/

namespace Sys2Proof.Machine

/-! ## Lanes -/

theorem packLanes_zero (w : Nat) : ∀ n j, packLanes w (fun _ => 0) n j = 0
  | 0, _ => rfl
  | n + 1, j => by simp [packLanes, packLanes_zero w n (j + 1)]

theorem packLanes_lt (w : Nat) (f : Nat → Nat) : ∀ n j, packLanes w f n j < 2 ^ (w * n)
  | 0, _ => by simp [packLanes]
  | n + 1, j => by
    have ih := packLanes_lt w f n (j + 1)
    have hx : f j % 2 ^ w < 2 ^ w := Nat.mod_lt _ (by positivity)
    have hm : 2 ^ w * packLanes w f n (j + 1) + 2 ^ w ≤ 2 ^ w * 2 ^ (w * n) := by
      rw [← Nat.mul_succ]; exact Nat.mul_le_mul_left _ ih
    rw [packLanes, Nat.mul_succ, Nat.add_comm, Nat.pow_add']
    omega

theorem packLanes_lt_of_le {w n k : Nat} (f : Nat → Nat) (j : Nat) (h : w * n ≤ k) : packLanes w f n j < 2 ^ k :=
  (packLanes_lt w f n j).trans_le (Nat.pow_le_pow_right Nat.two_pos h)

/-- A lane of the packed lanes is the element that the function gives for it. -/
theorem packLanes_lane (w : Nat) (f : Nat → Nat) : ∀ n j k, k < n → packLanes w f n j / 2 ^ (w * k) % 2 ^ w = f (j + k) % 2 ^ w
  | 0, _, _, hk => absurd hk (Nat.not_lt_zero _)
  | n + 1, j, 0, _ => by simp [packLanes]
  | n + 1, j, k + 1, hk => by
    have ih := packLanes_lane w f n (j + 1) k (by omega)
    have hx : f j % 2 ^ w < 2 ^ w := Nat.mod_lt _ (by positivity)
    rw [packLanes, Nat.mul_succ, Nat.pow_add', ← Nat.div_div_eq_div_mul, Nat.add_mul_div_left _ _ (by positivity), Nat.div_eq_of_lt hx,
      Nat.zero_add, ih, Nat.add_right_comm, Nat.add_assoc]

theorem toNat_ofNat_of_fits {n x : Nat} (h : x < 2 ^ n) : (BitVec.ofNat n x).toNat = x := by rw [BitVec.toNat_ofNat, Nat.mod_eq_of_lt h]

theorem laneOf_lanes {w j : Nat} (f : Nat → Nat) (hj : j < 512 / w) : laneOf (lanes w f) w j = f j % 2 ^ w := by
  have hlt := packLanes_lt_of_le f 0 (Nat.mul_div_le 512 w)
  unfold laneOf lanes
  rw [toNat_ofNat_of_fits hlt, packLanes_lane w f _ _ _ hj, Nat.zero_add]

theorem lanes_zero (w : Nat) : lanes w (fun _ => 0) = 0 := by
  unfold lanes
  rw [packLanes_zero]
  rfl

/-! ## Reading a run -/

/-- The first of the pieces that lies on a notify page. -/
def firstNotify (ps : List Piece) : Option Piece := ps.find? fun p => match p.place with | .notify _ => true | _ => false

theorem noNotify_trap {ps : List Piece} {p : Piece} {s : State} (h : firstNotify ps = some p) : noNotify ps s = .error (.trap (.at .plbDeny p.va)) := by
  have heq : noNotify ps = match firstNotify ps with | some p => trapM (.at .plbDeny p.va) | none => pure () := rfl
  rw [heq, h]
  rfl

/-- An operation that accesses memory and then writes a vector and a general register. -/
theorem exec_of_runM_both {i : Instr} {m : M Flow} {s t : State} {d : VReg} {q : GReg} {x : VVal} {y : Word} (hi : exec i s = runM m s)
    (hm : m s = .ok (.next, (t.wv d x).wg q y)) (h : Accessed s t) :
    ∃ t', exec i s = .next t' ∧ (t'.core s.cur).rv d = x ∧ (∀ r, r ≠ d → (t'.core s.cur).rv r = s.rv r) ∧ t'.rg q = if q = 0 then 0 else y := by
  have hcur := h.cur
  have hv : (t.core s.cur).v = (s.core s.cur).v := h.sameCore.2.2.2.1
  have hc : (retireCore ((t.wv d x).wg q y) s.cur).core s.cur
      = ((((t.core s.cur).wv d x).wg q y).retireCounts t.now).seqNext (((t.core s.cur).wv d x).wg q y).nextPc := by
    rw [retireCore_core_self]
    simp [State.wg, State.wv, hcur]
  refine ⟨_, hi.trans (runM_next hm), ?_, fun r hr => ?_, ?_⟩
  · rw [hc, Core.seqNext_rv, Core.retireCounts_rv, Core.wg_rv, Core.wv_rv, if_pos rfl]
  · rw [hc, Core.seqNext_rv, Core.retireCounts_rv, Core.wg_rv, Core.wv_rv, if_neg hr]
    simp only [State.rv, Core.rv, hv]
  · have hcur' : (retireCore ((t.wv d x).wg q y) s.cur).cur = s.cur := hcur
    rw [State.rg, hcur', hc, Core.seqNext_rg, Core.retireCounts_rg, Core.wg_rg]
    by_cases hq : q = 0
    · rw [if_neg fun h => h.2 hq, if_pos hq, hq]
      rfl
    · rw [if_pos ⟨rfl, hq⟩, if_neg hq]

section
variable {s s1 s2 s3 s4 : State} {d : VReg} {a : GReg} {ps : List Piece} {hb : List Byte} {w mask vals : Nat}

/-- A run on a notify page is refused (R113). -/
theorem expandRun_notify {p : Piece} (hr : resolve s.me .load (s.rg a) 2 s = .ok (ps, s1))
    (hp : firstNotify ps = some p) :
    expandRun d a s = .error (.trap (.at .plbDeny p.va)) := by
  unfold expandRun
  rw [M.bind_of_ok (M.get_apply s)]
  dsimp only
  rw [M.bind_of_ok hr, M.bind_of_error (noNotify_trap hp)]

/-- At the end of a run zeros are given, and the cursor stands (R107). -/
theorem expandRun_end (hw : codeWidth (tagCode (BitVec.ofNat 16 (fld (s.rg (pairHigh a)) 47 32))) = some w) (hf : fld (s.rg (pairHigh a)) 63 48 = 0)
    (hr : resolve s.me .load (s.rg a) 2 s = .ok (ps, s1)) (hn : noNotify ps s1 = .ok ((), s1)) (hp : noPoison s.me ps s1 = .ok ((), s1))
    (hh : readPieces s.me ps s1 = .ok (hb, s2)) (hend : leNat hb ≤ fld (s.rg (pairHigh a)) 15 0) :
    expandRun d a s = .ok (.next, s2.wv d ⟨0, BitVec.ofNat 16 (fld (s.rg (pairHigh a)) 47 32)⟩) := by
  unfold expandRun
  rw [M.bind_of_ok (M.get_apply s)]
  dsimp only
  rw [M.bind_of_ok hr, M.bind_of_ok hn, hw, hf]
  change (noPoison s.me ps >>= _) s1 = _
  rw [M.bind_of_ok hp, M.bind_of_ok hh, if_pos hend]
  rfl

/-- The bits of the mask before a run's end, `cnt` elements from `e` on. -/
def maskBit (mask e cnt j : Nat) : Bool := decide (j < cnt) && Nat.testBit mask (e % 8 + j)

/-- The elements of a run that LDVX expands: `vals` holds the values from bit `z * w` on, and has the byte of that bit first. -/
def expanded (w mask vals e z cnt j : Nat) : Nat :=
  if maskBit mask e cnt j = true then vals / 2 ^ (z * w - z * w / 8 * 8 + w * (below j).countP (maskBit mask e cnt)) % 2 ^ w else 0

/-- Before its end a run is expanded under the mask, from the values read where the mask has a bit (R107). -/
theorem expandRun_more (hw : codeWidth (tagCode (BitVec.ofNat 16 (fld (s.rg (pairHigh a)) 47 32))) = some w) (hf : fld (s.rg (pairHigh a)) 63 48 = 0)
    (hr : resolve s.me .load (s.rg a) 2 s = .ok (ps, s1)) (hn : noNotify ps s1 = .ok ((), s1)) (hp : noPoison s.me ps s1 = .ok ((), s1))
    (hh : readPieces s.me ps s1 = .ok (hb, s2)) (hmore : fld (s.rg (pairHigh a)) 15 0 < leNat hb)
    {e z cnt nz : Nat} (he : fld (s.rg (pairHigh a)) 15 0 = e) (hz : fld (s.rg (pairHigh a)) 31 16 = z) (hcnt : min (512 / w) (leNat hb - e) = cnt)
    (hm : readRange s.me .load (s.rg a + word (8 + e / 8)) ((e + cnt - 1) / 8 - e / 8 + 1) s2 = .ok (mask, s3))
    (hnz : (below cnt).countP (maskBit mask e cnt) = nz)
    (hv : (if nz = 0 then pure 0 else readRange s.me .load (s.rg a + word (runHead (leNat hb) + z * w / 8)) (ceilDiv ((z + nz) * w) 8 - z * w / 8)) s3
      = .ok (vals, s4)) :
    expandRun d a s = .ok (.next, (s4.wv d ⟨lanes w (expanded w mask vals e z cnt), BitVec.ofNat 16 (fld (s.rg (pairHigh a)) 47 32)⟩).wg (pairHigh a)
      (cursor (min (e + 512 / w) (leNat hb)) (z + nz) (BitVec.ofNat 16 (fld (s.rg (pairHigh a)) 47 32)))) := by
  subst he hz hcnt hnz
  unfold expandRun
  rw [M.bind_of_ok (M.get_apply s)]
  dsimp only
  rw [M.bind_of_ok hr, M.bind_of_ok hn, hw, hf]
  change (noPoison s.me ps >>= _) s1 = _
  rw [M.bind_of_ok hp, M.bind_of_ok hh, if_neg (Nat.not_le.2 hmore), M.bind_of_ok hm]
  split at hv
  case isTrue hnone =>
    change Except.ok (0, s3) = _ at hv
    cases hv
    exact congrFun (if_pos hnone) s3
  case isFalse hsome =>
    exact (congrFun (if_neg hsome) s3).trans ((M.bind_of_ok hv).trans rfl)

end

end Sys2Proof.Machine

namespace Sys2Proof

open Machine

/-- Settles O20: what is read of the run decides, and a lane is its element because each is taken modulo the element's width. -/
theorem runIsExpanded : Obligations.RunIsExpanded := by
  unfold Obligations.RunIsExpanded
  intro s s1 s2 s3 d a ps hb w mask vals
  dsimp only
  generalize he : fld (s.rg (pairHigh a)) 15 0 = e
  generalize hz : fld (s.rg (pairHigh a)) 31 16 = z
  generalize hcnt : min (512 / w) (leNat hb - e) = cnt
  have hbit : (fun j => decide (j < cnt ∧ Nat.testBit mask (e % 8 + j) = true)) = maskBit mask e cnt := by
    funext j
    simp [maskBit]
  simp only [hbit]
  generalize hnz : (below cnt).countP (maskBit mask e cnt) = nz
  refine ⟨fun p s' hr hp => trapsWith_of_runM rfl (expandRun_notify hr hp) (by decide), fun hw hf hr hn hp hh => ?_⟩
  have hacc2 : Accessed s s2 := (resolve_accesses _ _ _ _ _ _ _ hr).trans (readPieces_accesses _ _ _ _ _ hh)
  refine ⟨fun hend => ?_, fun hmore hm hnone => ?_, fun hmore s4 hm hsome hv => ?_⟩
  · exact completesV_of_runM rfl (expandRun_end hw hf hr hn hp hh (he ▸ hend)) hacc2
  · have hrun := expandRun_more (d := d) (vals := 0) (s4 := s3) hw hf hr hn hp hh (he ▸ hmore) he hz hcnt hm hnz (by rw [if_pos hnone]; rfl)
    have hzero : expanded w mask 0 e z cnt = fun _ => 0 := by
      funext j
      simp [expanded]
    rw [hzero, lanes_zero, hnone, Nat.add_zero] at hrun
    exact exec_of_runM_both (i := .ldvx d a) rfl hrun (hacc2.trans (readRange_accesses _ _ _ _ _ _ _ hm))
  · have hrun := expandRun_more (d := d) hw hf hr hn hp hh (he ▸ hmore) he hz hcnt hm hnz (by rw [if_neg hsome]; exact hv)
    obtain ⟨t, ht, hd, hother, hcursor⟩ :=
      exec_of_runM_both (i := .ldvx d a) rfl hrun ((hacc2.trans (readRange_accesses _ _ _ _ _ _ _ hm)).trans (readRange_accesses _ _ _ _ _ _ _ hv))
    refine ⟨t, ht, by rw [hd], hother, fun j hj => ?_, hcursor⟩
    have hbyte : z * w - z * w / 8 * 8 = z * w % 8 := by omega
    rw [hd, laneOf_lanes _ hj]
    unfold expanded
    rw [hbyte]
    by_cases hset : j < cnt ∧ Nat.testBit mask (e % 8 + j) = true
    · rw [if_pos hset, if_pos (by simpa [maskBit] using hset), Nat.mod_mod]
    · rw [if_neg hset, if_neg (by simpa [maskBit] using hset), Nat.zero_mod]

end Sys2Proof
end

section
/-! Registers as events reach them (R91, R95, R114, R218, R330, R331, R352, R355, R356, R361). -/

namespace Sys2Proof.Machine

/-! ## Fields of a register's value -/

theorem fld_low (v : Word) (hi : Nat) : fld v hi 0 = v.toNat % 2 ^ (hi + 1) := by
  unfold fld bitsOf
  rw [Nat.shiftRight_zero, Nat.sub_zero]

/-- The reserved bits of a value are clear just where it is less than the first of them. -/
theorem fld_high_eq_zero {v : Word} {lo : Nat} (h : lo ≤ 64) : fld v 63 lo = 0 ↔ v.toNat < 2 ^ lo := by
  have hv : v.toNat < 2 ^ lo * 2 ^ (64 - lo) := by
    rw [← Nat.pow_add, Nat.add_sub_cancel' h]
    exact v.isLt
  have hq : v.toNat / 2 ^ lo < 2 ^ (64 - lo) := Nat.div_lt_of_lt_mul hv
  unfold fld bitsOf
  rw [Nat.shiftRight_eq_div_pow, Nat.mod_eq_of_lt hq, Nat.div_eq_zero_iff]
  have : 2 ^ lo ≠ 0 := by positivity
  omega

/-! ## The management space -/

/-- Where the registers of a link's module begin (R331): the hub's modules, then the dies'. -/
def linkBase (m : Nat) : Nat := if m < 4 then 0x40 * m else 0x100100 + 0x10000 * ((m - 4) / 3) + 0x40 * ((m - 4) % 3)

theorem regAt_link {m o : Nat} (hm : m < 16) (ho : o % 8 = 0) (hle : o ≤ 0x20) : regAt (linkBase m + o) = some (.link m o) := by
  unfold regAt linkBase
  by_cases h4 : m < 4
  · have h1 : 0x40 * m + o < 0x100 := by omega
    have h2 : (0x40 * m + o) % 0x40 = o := by omega
    have h3 : (0x40 * m + o) / 0x40 = m := by omega
    simp [h4, h1, h2, h3, ho, hle]
  · have h1 : ¬ 0x100100 + 0x10000 * ((m - 4) / 3) + 0x40 * ((m - 4) % 3) + o < 0x100 := by omega
    have h2 : ¬ (0x100100 + 0x10000 * ((m - 4) / 3) + 0x40 * ((m - 4) % 3) + o < 0x100000
        ∨ 0x140000 ≤ 0x100100 + 0x10000 * ((m - 4) / 3) + 0x40 * ((m - 4) % 3) + o) := by omega
    have h3 : (0x100100 + 0x10000 * ((m - 4) / 3) + 0x40 * ((m - 4) % 3) + o - 0x100000) % 0x10000 = 0x100 + 0x40 * ((m - 4) % 3) + o := by omega
    have h4' : ¬ (0x100 + 0x40 * ((m - 4) % 3) + o ≤ 0x28 ∧ (0x100 + 0x40 * ((m - 4) % 3) + o) % 8 = 0) := by omega
    have h5 : (0x100 + 0x40 * ((m - 4) % 3) + o) % 0x40 = o := by omega
    have h6 : 0x100 ≤ 0x100 + 0x40 * ((m - 4) % 3) + o ∧ 0x100 + 0x40 * ((m - 4) % 3) + o < 0x1C0 := by omega
    have h7 : 4 + 3 * ((0x100100 + 0x10000 * ((m - 4) / 3) + 0x40 * ((m - 4) % 3) + o - 0x100000) / 0x10000)
        + (0x100 + 0x40 * ((m - 4) % 3) + o - 0x100) / 0x40 = m := by omega
    simp only [if_neg h4]
    rw [if_neg h1, if_neg h2]
    simp only [h3]
    rw [if_neg h4']
    simp only [h5, h7]
    rw [if_pos ⟨h6.1, h6.2, by simp [ho, hle]⟩]

theorem regAt_die {d o : Nat} (hd : d < 4) (ho : o % 8 = 0) (hle : o ≤ 0x28) : regAt (0x100000 + 0x10000 * d + o) = some (.die d o) := by
  have h1 : ¬ 0x100000 + 0x10000 * d + o < 0x100 := by omega
  have h2 : ¬ (0x100000 + 0x10000 * d + o < 0x100000 ∨ 0x140000 ≤ 0x100000 + 0x10000 * d + o) := by omega
  have h3 : (0x100000 + 0x10000 * d + o - 0x100000) % 0x10000 = o := by omega
  have h4 : (0x100000 + 0x10000 * d + o - 0x100000) / 0x10000 = d := by omega
  unfold regAt
  simp only [if_neg h1, if_neg h2, h3, h4]
  rw [if_pos ⟨hle, ho⟩]

theorem regAt_none {off : Nat} (h : off % 8 ≠ 0 ∨ 0x100 ≤ off ∧ off < 0x100000 ∨ 0x140000 ≤ off ∨ off % 0x10000 = 0x30) : regAt off = none := by
  unfold regAt
  dsimp only
  split
  case isTrue hhub =>
    refine if_neg ?_
    simp only [Bool.and_eq_true, beq_iff_eq, decide_eq_true_eq]
    omega
  split
  · rfl
  rw [if_neg (by omega)]
  refine if_neg ?_
  simp only [Bool.and_eq_true, beq_iff_eq, decide_eq_true_eq]
  omega

section
variable {s t : State} {off : Nat} {r : MgmtReg} {v : Word}

/-- A write of a register by either way is answered 0 and leaves a state. -/
def RegisterWrites (s : State) (off : Nat) (v : Word) (t : State) : Prop :=
  exec (.registerWrite off v) s = .next (mgmtAnswer t (some 0))
    ∧ (6 ≤ s.sys.bring → exec (.managementRequest (.register off) (some (.word v))) s = .next (mgmtAnswer t (some 0)))

/-- A write of a register by either way is an error and changes nothing (R114). -/
def RegisterFails (s : State) (off : Nat) (v : Word) : Prop :=
  exec (.registerWrite off v) s = .next (mgmtAnswer s none)
    ∧ (6 ≤ s.sys.bring → exec (.managementRequest (.register off) (some (.word v))) s = .next (mgmtAnswer s none))

/-- Once it is open, the management path does what is asked of it. -/
theorem exec_managementRequest (h : 6 ≤ s.sys.bring) (p : MgmtPlace) (d : Option MgmtData) :
    exec (.managementRequest p d) s = .next (mgmtRequest s p d) :=
  congrArg Host.Outcome.next (if_neg (Nat.not_lt.2 h))

theorem registerReads (h : 6 ≤ s.sys.bring) (hr : regAt off = some r) :
    exec (.managementRequest (.register off) none) s = .next (mgmtAnswer s (some (regRead s r))) := by
  rw [exec_managementRequest h]
  show Host.Outcome.next (mgmtAccess s off none) = _
  unfold mgmtAccess
  rw [hr]

theorem registerReads_none (h : 6 ≤ s.sys.bring) (hr : regAt off = none) :
    exec (.managementRequest (.register off) none) s = .next (mgmtAnswer s none) := by
  rw [exec_managementRequest h]
  show Host.Outcome.next (mgmtAccess s off none) = _
  unfold mgmtAccess
  rw [hr]

theorem registerWrites (hr : regAt off = some r) (hw : regWrite s r v = some t) : RegisterWrites s off v t := by
  have hdo : mgmtAccess s off (some v) = mgmtAnswer t (some 0) := by
    unfold mgmtAccess
    rw [hr]
    simp only [hw]
  exact ⟨congrArg Host.Outcome.next hdo, fun h => (exec_managementRequest h _ _).trans (congrArg Host.Outcome.next hdo)⟩

theorem registerFails_of_access (hdo : mgmtAccess s off (some v) = mgmtAnswer s none) : RegisterFails s off v :=
  ⟨congrArg Host.Outcome.next hdo, fun h => (exec_managementRequest h _ _).trans (congrArg Host.Outcome.next hdo)⟩

theorem registerFails (hr : regAt off = some r) (hw : regWrite s r v = none) : RegisterFails s off v :=
  registerFails_of_access (by unfold mgmtAccess; rw [hr]; simp only [hw])

theorem registerFails_none (hr : regAt off = none) : RegisterFails s off v := registerFails_of_access (by unfold mgmtAccess; rw [hr])

/-- What a request takes is answered 0, and what it refuses is an error. -/
theorem managementRequest_takes (h : 6 ≤ s.sys.bring) {p : MgmtPlace} {d : Option MgmtData} {o : Option State} (hp : mgmtRequest s p d = mgmtTake s o) (ho : o = some t) :
    exec (.managementRequest p d) s = .next (mgmtAnswer t (some 0)) := by
  rw [exec_managementRequest h, hp, ho]
  rfl

theorem managementRequest_refuses (h : 6 ≤ s.sys.bring) {p : MgmtPlace} {d : Option MgmtData} {o : Option State} (hp : mgmtRequest s p d = mgmtTake s o) (ho : o = none) :
    exec (.managementRequest p d) s = .next (mgmtAnswer s none) := by
  rw [exec_managementRequest h, hp, ho]
  rfl

/-- A count that the path reads. -/
theorem managementRequest_counts (h : 6 ≤ s.sys.bring) {p : MgmtPlace} {w : Nat} (hp : mgmtRequest s p none = mgmtAnswer s (some (word w))) :
    exec (.managementRequest p none) s = .next (mgmtAnswer s (some (word w))) := by rw [exec_managementRequest h, hp]

/-- The path does nothing before step 6 of bring-up (R369). -/
theorem managementRequest_closed (h : s.sys.bring < 6) (p : MgmtPlace) (d : Option MgmtData) : exec (.managementRequest p d) s = .next s :=
  congrArg Host.Outcome.next (if_pos h)

/-! ## The endpoint table (R333, R336) -/

theorem loadEndpoint_parent {N : SysNet} {n : Nat} {ep : Endpoint} (h0 : 0 < n) (hn : n < 2 ^ 15) (hrole : ep.role = .parent)
    (hp : N.parent = none ∨ N.parent = some n) :
    loadEndpoint N n ep = some { N with endpoints := mset N.endpoints n ep, parent := some n, children := mdel N.children n } := by
  have hup : N.parent.filter (fun p => p != n) = none := by
    rcases hp with hp | hp <;> simp [hp]
  unfold loadEndpoint
  simp only [hrole, hup]
  rw [if_neg (by simp only [Option.isSome_none]; simp; omega)]
  rfl

theorem loadEndpoint_child {N : SysNet} {n : Nat} {ep : Endpoint} (h0 : 0 < n) (hn : n < 2 ^ 15) (hrole : ep.role = .child)
    (hp : N.parent ≠ some n) (hc : mfind N.children n = none) (hroom : N.children.length < 192) :
    loadEndpoint N n ep
      = some { N with endpoints := mset N.endpoints n ep, children := mset (mdel N.children n) n (ChildRec.silent N.round) } := by
  have hup : N.parent.filter (fun p => p != n) = N.parent := by
    cases hpar : N.parent with
    | none => rfl
    | some p => simp [show p ≠ n from fun e => hp (by rw [hpar, e])]
  have hlen : (mdel N.children n).length ≤ N.children.length := List.length_filter_le _ _
  unfold loadEndpoint
  simp only [hrole, hup, hc]
  rw [if_neg (by simp; omega)]
  rfl

theorem loadEndpoint_none {N : SysNet} {n : Nat} {ep : Endpoint} (h : n = 0 ∨ 2 ^ 15 ≤ n) : loadEndpoint N n ep = none := by
  unfold loadEndpoint
  exact if_pos (h.imp id Or.inl)

/-! ## The flush of a die's translation caches (R91, R114) -/

theorem beginFlush_die (s : State) (d : Nat) : (beginFlush s d).die d = { s.die d with flush := true } := State.setDie_die_self ..

theorem beginFlush_tcache {e : TcEntry} {d : Nat} (he : e ∈ s.tcache) (hd : e.onDie d = true) (hst : e.stage = 1) :
    { e with stage := 2 } ∈ (beginFlush s d).tcache := by
  refine List.mem_map.2 ⟨e, he, ?_⟩
  rw [hd, hst]
  rfl

/-- The count of ignored triggers stops at its largest value (R361). -/
theorem counted_toNat (x : BitVec 16) : (if x = BitVec.allOnes 16 then x else x + 1).toNat = min (x.toNat + 1) 0xFFFF := by
  split
  case isTrue h => rw [h]; rfl
  case isFalse h =>
    have hne : x.toNat ≠ 0xFFFF := fun e => h (BitVec.eq_of_toNat_eq e)
    have hlt := x.isLt
    have hsum : (x + 1).toNat = (x.toNat + 1) % 2 ^ 16 := rfl
    omega

theorem retrain_bits : ∀ x : BitVec 2, (x ||| 1).getLsbD 0 = true ∧ (x ||| 1).getLsbD 1 = x.getLsbD 1 := by decide

theorem forceX32_bits : ∀ (on : Bool) (x : BitVec 2), (if on then x ||| 2 else x &&& 1).getLsbD 1 = on ∧ (if on then x ||| 2 else x &&& 1).getLsbD 0 = x.getLsbD 0 := by
  decide

theorem inClusterGang_of_task {u i : Nat} {task : Task} (hi : (s.core u).task = some i) (ht : mfind (s.cluster (clusterOf u)).tcbs i = some task) :
    inClusterGang s u = (task.kind == .clusterGang) := by
  unfold inClusterGang State.taskOf
  rw [hi]
  simp only [ht]
  rfl

end

section
variable {s : State} {v : Word}

/-! ## Writes of a die's and of a link's registers -/

/-- What each register of a die does with a value (R114). -/
theorem dieRegister_writes {d : Nat} (hd : d < 4) :
    (v.toNat % 128 = 0 → inHbm v.toNat 128 = true → RegisterWrites s (0x100000 + 0x10000 * d) v (s.setDie d { s.die d with ptroot := v }))
    ∧ ((v.toNat % 128 ≠ 0 ∨ inHbm v.toNat 128 = false) → RegisterFails s (0x100000 + 0x10000 * d) v)
    ∧ (v = 1 → RegisterWrites s (0x100000 + 0x10000 * d + 8) v (beginFlush s d))
    ∧ (1 < v.toNat → RegisterFails s (0x100000 + 0x10000 * d + 8) v)
    ∧ (tableBase v = true → RegisterWrites s (0x100000 + 0x10000 * d + 0x10) v (s.setDie d { s.die d with rgbase := v })
      ∧ RegisterWrites s (0x100000 + 0x10000 * d + 0x20) v (s.setDie d { s.die d with rsbase := v }))
    ∧ (tableBase v = false → RegisterFails s (0x100000 + 0x10000 * d + 0x10) v ∧ RegisterFails s (0x100000 + 0x10000 * d + 0x20) v)
    ∧ (v.toNat < 2 ^ 16 → RegisterWrites s (0x100000 + 0x10000 * d + 0x18) v (s.setDie d { s.die d with rgcnt := BitVec.ofNat 16 v.toNat }))
    ∧ (2 ^ 16 ≤ v.toNat → RegisterFails s (0x100000 + 0x10000 * d + 0x18) v)
    ∧ (4 ≤ v.toNat → v.toNat ≤ 20 → RegisterWrites s (0x100000 + 0x10000 * d + 0x28) v (s.setDie d { s.die d with rslog := BitVec.ofNat 5 v.toNat }))
    ∧ ((v.toNat < 4 ∨ 20 < v.toNat) → RegisterFails s (0x100000 + 0x10000 * d + 0x28) v) := by
  have hr : ∀ {o}, o % 8 = 0 → o ≤ 0x28 → regAt (0x100000 + 0x10000 * d + o) = some (.die d o) := regAt_die hd
  refine ⟨fun ha hh => ?_, fun hbad => ?_, fun h1 => ?_, fun h1 => ?_, fun hb => ⟨?_, ?_⟩, fun hb => ⟨?_, ?_⟩, fun hlt => ?_, fun hge => ?_,
    fun hlo hhi => ?_, fun hout => ?_⟩
  · exact registerWrites (hr (o := 0) rfl (by omega)) (if_pos ⟨ha, hh⟩)
  · exact registerFails (hr (o := 0) rfl (by omega)) (if_neg fun h => hbad.elim (fun n => n h.1) fun n => by rw [h.2] at n; cases n)
  · exact registerWrites (hr rfl (by omega)) (by subst h1; rfl)
  · exact registerFails (hr rfl (by omega)) (if_neg fun h => by have := (fld_high_eq_zero (by omega)).1 h; omega)
  · exact registerWrites (hr rfl (by omega)) (if_pos hb)
  · exact registerWrites (hr rfl (by omega)) (if_pos hb)
  · exact registerFails (hr rfl (by omega)) (if_neg (by rw [hb]; exact Bool.false_ne_true))
  · exact registerFails (hr rfl (by omega)) (if_neg (by rw [hb]; exact Bool.false_ne_true))
  · exact registerWrites (hr rfl (by omega)) (if_pos ((fld_high_eq_zero (by omega)).2 hlt))
  · exact registerFails (hr rfl (by omega)) (if_neg fun h => absurd ((fld_high_eq_zero (by omega)).1 h) (Nat.not_lt.2 hge))
  · exact registerWrites (hr rfl (by omega)) (if_pos ⟨hlo, hhi⟩)
  · exact registerFails (hr rfl (by omega)) (if_neg (by omega))

theorem Link.control_bits (l : Link) (v : Word) :
    (l.control v).lctl.getLsbD 0 = (v.getLsbD 0 || l.lctl.getLsbD 0) ∧ (l.control v).lctl.getLsbD 1 = v.getLsbD 1 := by
  have hbits : ∀ a b : Bool, (BitVec.ofNat 2 ((if a then 1 else 0) + (if b then 2 else 0))).getLsbD 0 = a
      ∧ (BitVec.ofNat 2 ((if a then 1 else 0) + (if b then 2 else 0))).getLsbD 1 = b := by decide
  exact hbits (bitAt v 0 || l.lctl.getLsbD 0) (bitAt v 1)

/-- What each register of a link's module does with a value (R331). -/
theorem linkRegister_writes {m : Nat} (hm : m < 16) :
    (v.toNat < 4 → RegisterWrites s (linkBase m) v (s.setLink m ((s.link m).control v)))
    ∧ RegisterFails s (linkBase m + 8) v
    ∧ (v.toNat < 2 ^ 16 → RegisterWrites s (linkBase m + 0x10) v (s.setLink m { s.link m with ethr := BitVec.ofNat 16 v.toNat }))
    ∧ (4 ≤ v.toNat → RegisterFails s (linkBase m) v) ∧ (2 ^ 16 ≤ v.toNat → RegisterFails s (linkBase m + 0x10) v) := by
  have hr : ∀ {o}, o % 8 = 0 → o ≤ 0x20 → regAt (linkBase m + o) = some (.link m o) := regAt_link hm
  refine ⟨fun hlt => ?_, ?_, fun hlt => ?_, fun hge => ?_, fun hge => ?_⟩
  · exact registerWrites (hr (o := 0) rfl (by omega)) (if_pos ((fld_high_eq_zero (lo := 2) (by omega)).2 hlt))
  · exact registerFails (hr rfl (by omega)) rfl
  · exact registerWrites (hr rfl (by omega)) (if_pos ((fld_high_eq_zero (by omega)).2 hlt))
  · exact registerFails (hr (o := 0) rfl (by omega)) (if_neg fun h => absurd ((fld_high_eq_zero (lo := 2) (by omega)).1 h) (Nat.not_lt.2 hge))
  · exact registerFails (hr rfl (by omega)) (if_neg fun h => absurd ((fld_high_eq_zero (by omega)).1 h) (Nat.not_lt.2 hge))

/-- The fields of LSTAT (R331). -/
theorem lstatValue_fields {l : Link} (hl : l.lanes ≤ 64) :
    (lstatValue l).toNat % 2 ^ 7 = l.lanes ∧ (lstatValue l).getLsbD 7 = l.upper ∧ (lstatValue l).getLsbD 8 = l.up
      ∧ (lstatValue l).toNat / 2 ^ 16 = l.repaired % 256 := by
  have hbit : ∀ k, (lstatValue l).getLsbD k = Nat.testBit (lstatValue l).toNat k := fun _ => rfl
  have hval : (lstatValue l).toNat = l.lanes + (if l.upper then 2 ^ 7 else 0) + (if l.up then 2 ^ 8 else 0) + 2 ^ 16 * (l.repaired % 256) := by
    unfold lstatValue word
    rw [BitVec.toNat_ofNat]
    refine Nat.mod_eq_of_lt ?_
    split <;> split <;> omega
  rw [hbit, hbit, hval, Nat.testBit_eq_decide_div_mod_eq, Nat.testBit_eq_decide_div_mod_eq]
  cases l.upper <;> cases l.up <;> simp <;> omega

end

end Sys2Proof.Machine

namespace Sys2Proof

open Machine

/-- Settles O53: each register is found at its offset by `regAt`, and what a value does there is the table's entry for it. -/
theorem registersAndEvents : Obligations.RegistersAndEvents := by
  unfold Obligations.RegistersAndEvents
  intro s u off die m tile v ask give at_ tag rest i n task on ep
  dsimp only
  refine ⟨fun ⟨hi, ht⟩ hg => ?_, fun ⟨hi, ht⟩ hg => ?_, fun hlo hhi => ?_, fun hout => ?_, ?_, fun htr hlt => ?_, fun htr hle hp => ?_, fun htr hle hp => ?_,
    fun h6 => ?_, fun h6 => ⟨?_, managementRequest_closed h6 _ _, ?_⟩, rfl, fun h6 => ?_, fun h6 hm hd => ?_, fun hd => ?_, fun hm => ?_, fun h6 => ?_, fun hoff => ?_,
    fun hf => ?_, fun hf => ?_, ?_, ?_⟩
  · exact congrArg Host.Outcome.next (if_pos (by rw [inClusterGang_of_task hi ht, hg]; rfl))
  · exact congrArg Host.Outcome.next (if_neg (by rw [inClusterGang_of_task hi ht]; simpa using hg))
  · have hok : wdtOk v = true := by simp [wdtOk, fld_low, hlo, hhi]
    refine ⟨_, congrArg Host.Outcome.next (if_pos hok), ⟨rfl, fun w hw => ?_⟩, ?_⟩
    · rw [setWdt, State.modCore_eq, State.setCore_core, if_neg hw]
    · rw [setWdt, State.modCore_eq, State.setCore_core_self, fld_low]
      rfl
  · refine congrArg Host.Outcome.next (if_neg ?_)
    simp only [wdtOk, fld_low, Bool.and_eq_true, decide_eq_true_eq]
    omega
  · show Host.Outcome.next (launchTrigger s v) = _
    have : (BitVec.ofNat 32 (fld v 31 0)) = BitVec.ofNat 32 v.toNat := by
      rw [fld_low]
      exact BitVec.eq_of_toNat_eq (by simp)
    rw [launchTrigger, this]
  · show execSnapshotLatch s = _
    unfold execSnapshotLatch
    simp only [htr, if_pos hlt]
  · show execSnapshotLatch s = _
    unfold execSnapshotLatch
    simp only [htr, if_neg (Nat.not_lt.2 hle), hp, Bool.false_eq_true, if_false]
  · refine ⟨{ s with snap := { s.snap with trigs := rest, ign := if s.snap.ign = BitVec.allOnes 16 then s.snap.ign else s.snap.ign + 1 } }, ?_, rfl, rfl,
      counted_toNat s.snap.ign, rfl, rfl⟩
    show execSnapshotLatch s = _
    unfold execSnapshotLatch
    simp only [htr, if_neg (Nat.not_lt.2 hle), hp, if_true]
  · exact congrArg Host.Outcome.next (if_neg (Nat.not_lt.2 h6))
  · exact congrArg Host.Outcome.next (if_pos h6)
  · exact congrArg Host.Outcome.next (if_pos h6)
  · refine ⟨_, congrArg Host.Outcome.next (if_neg (Nat.not_lt.2 h6)), ⟨rfl, fun w hw => ?_⟩, ?_⟩
    · rw [State.modCore_eq, State.setCore_core, if_neg hw]
    · rw [State.modCore_eq, State.setCore_core_self]
      refine ⟨rfl, rfl, ?_, rfl⟩
      simp only [Margin.write, fld_low]
      rfl
  · have link : ∀ {o}, o % 8 = 0 → o ≤ 0x20 → regAt (linkBase m + o) = some (.link m o) := regAt_link hm
    have ofDie : ∀ {o}, o % 8 = 0 → o ≤ 0x28 → regAt (0x100000 + 0x10000 * die + o) = some (.die die o) := regAt_die hd
    exact ⟨registerReads h6 (link (o := 0) rfl (by omega)), registerReads h6 (link rfl (by omega)), registerReads h6 (link rfl (by omega)),
      registerReads h6 (link rfl (by omega)), fun hl => ⟨lstatValue (s.link m), registerReads h6 (link rfl (by omega)), lstatValue_fields hl⟩,
      registerReads h6 (ofDie (o := 0) rfl (by omega)), registerReads h6 (ofDie rfl (by omega)), registerReads h6 (ofDie rfl (by omega)),
      registerReads h6 (ofDie rfl (by omega)), registerReads h6 (ofDie rfl (by omega)), registerReads h6 (ofDie rfl (by omega))⟩
  · obtain ⟨hroot, hrootBad, hflush, hflushBad, hbase, hbaseBad, hcnt, hcntBad, hlog, hlogBad⟩ := dieRegister_writes (s := s) (v := v) hd
    have htable : (canonical v = true ∧ v.toNat % 16 = 0) ↔ tableBase v = true := by simp [tableBase]
    refine ⟨hroot, hrootBad, fun h1 => ⟨hflush h1, by subst h1; rfl⟩, beginFlush_die s die, fun e he ho h1 => beginFlush_tcache he ho h1,
      fun h1 => ⟨hflushBad h1, ?_⟩, fun hb => hbase (htable.1 hb), fun hb => hbaseBad (by rw [htable] at hb; simpa using hb), hcnt, hcntBad, hlog, hlogBad⟩
    have hnone : regWrite s (.die die 0x08) v = none := if_neg fun h => by have := (fld_high_eq_zero (lo := 1) (by omega)).1 h; omega
    show Host.Outcome.next ((regWrite s (.die die 0x08) v).getD s) = _
    rw [hnone]
    rfl
  · obtain ⟨hctl, hstat, hthr, hctlBad, hthrBad⟩ := linkRegister_writes (s := s) (v := v) hm
    refine ⟨fun hlt => ⟨_, hctl hlt, ?_⟩, hstat, hthr, hctlBad, hthrBad⟩
    rw [State.setLink_link_self]
    exact ⟨rfl, (s.link m).control_bits v⟩
  · refine ⟨fun h0 hn hrole hp => ?_, fun h0 hn hrole hp hc hroom => ?_, fun hn => ?_, fun hlt => ?_, fun hge => ?_, fun hlo hhi => ?_, fun hout => ?_, ?_, ?_, ?_, ?_,
      fun hn => ?_, fun hu => ⟨?_, ?_, ?_, ?_, ?_⟩, fun hu => ⟨?_, ?_⟩⟩
    · exact managementRequest_takes h6 (p := .endpoint n) (d := some (.entry ep)) rfl (by rw [loadEndpoint_parent h0 hn hrole hp]; rfl)
    · refine ⟨_, managementRequest_takes h6 (p := .endpoint n) (d := some (.entry ep)) rfl (by rw [loadEndpoint_child h0 hn hrole hp hc hroom]; rfl), rfl, _, mfind_mset_self _ _ _, rfl, rfl, rfl⟩
    · exact managementRequest_refuses h6 (p := .endpoint n) (d := some (.entry ep)) rfl (by rw [loadEndpoint_none hn]; rfl)
    · exact managementRequest_takes h6 (p := .ownNumber) (d := some (.word v)) rfl (if_pos hlt)
    · exact managementRequest_refuses h6 (p := .ownNumber) (d := some (.word v)) rfl (if_neg (Nat.not_lt.2 hge))
    · exact managementRequest_takes h6 (p := .powerLimit) (d := some (.word v)) rfl (if_pos ⟨hlo, hhi⟩)
    · exact managementRequest_refuses h6 (p := .powerLimit) (d := some (.word v)) rfl (if_neg (by omega))
    · exact managementRequest_counts h6 rfl
    · exact managementRequest_counts h6 rfl
    · exact exec_managementRequest h6 _ _
    · exact exec_managementRequest h6 _ _
    · exact managementRequest_counts h6 (congrArg (mgmtAnswer s) (if_pos (decide_eq_true hn)))
    · exact managementRequest_counts h6 (congrArg (mgmtAnswer s) (if_pos (decide_eq_true hu)))
    · exact managementRequest_counts h6 (congrArg (mgmtAnswer s) (if_pos (decide_eq_true hu)))
    · exact managementRequest_counts h6 (congrArg (mgmtAnswer s) (if_pos (decide_eq_true hu)))
    · exact managementRequest_counts h6 (congrArg (mgmtAnswer s) ((if_pos hu).trans (congrArg some (BitVec.eq_of_toNat_eq (by simp [word])))))
    · exact managementRequest_takes h6 (p := .ccmd u) (d := some (.word v)) rfl (if_pos hu)
    · rw [exec_managementRequest h6]
      exact congrArg (fun r => Host.Outcome.next (mgmtAnswer s r)) (if_neg (Nat.not_lt.2 hu))
    · exact managementRequest_refuses h6 (p := .ccmd u) (d := some (.word v)) rfl (if_neg (Nat.not_lt.2 hu))
  · exact ⟨registerFails_none (regAt_none hoff), fun h6 => registerReads_none h6 (regAt_none hoff)⟩
  · refine ⟨_, congrArg Host.Outcome.next (if_pos hf), ?_, rfl, fun w => rfl, fun e he => ⟨fun ho h2 => ?_, fun h2 => ?_⟩⟩
    · exact congrArg Die.flush (State.setDie_die_self ..)
    · exact List.mem_map.2 ⟨e, he, by rw [ho, h2]; rfl⟩
    · exact List.mem_map.2 ⟨e, he, if_neg (by simp [h2])⟩
  · exact congrArg Host.Outcome.next (if_neg (by rw [hf]; exact Bool.false_ne_true))
  · refine ⟨_, rfl, ?_⟩
    rw [State.setLink_link_self]
    exact ⟨rfl, retrain_bits _⟩
  · refine ⟨_, rfl, ?_⟩
    rw [State.setLink_link_self]
    exact ⟨rfl, forceX32_bits _ _⟩

end Sys2Proof
end

section
/-! A core number beyond those of the module, and its scratchpad (R1, R86, R330). -/

namespace Sys2Proof.Machine

/-- A part of the local window that lies in an open bank of scratchpad mode, as a piece. -/
def scratchPiece (s : State) (o n : Nat) : Piece :=
  localPiece s o n (.mem (sramLoc (clusterOf s.cur) o)) (if pathDown s (dieOf (clusterOf s.cur)) (dieOf (clusterOf s.cur)) then some (dieOf (clusterOf s.cur)) else none)

theorem pieceOf_scratchpad {s : State} {o : Nat} (n : Nat) (h : o < 2 ^ 22) (hmode : (s.cluster (clusterOf s.cur)).modes[o / 2 ^ 18]? = some 1)
    (hsw : (s.cluster (clusterOf s.cur)).switching = []) (hq : s.quarCl.contains (clusterOf s.cur) = false) :
    pieceOf s.me (localVa o) n s = .ok (scratchPiece s o n, s) := by
  unfold pieceOf
  rw [show s.me.cl = clusterOf s.cur from rfl, localWindow_region s _ h]
  simp only [hq, hsw, hmode]
  simp [scratchPiece, localPiece, bankOpen]

/-- The checks of R100 up to the rights pass for a part of an open bank of scratchpad mode where the right is held. -/
theorem resolve_scratchpad {s s0 : State} {acc : Acc} {o n : Nat} {r : Byte} (h : o < 2 ^ 22) (h0 : 0 < n) (hn : o % 65536 + n ≤ 65536)
    (hmode : (s.cluster (clusterOf s.cur)).modes[o / 2 ^ 18]? = some 1) (hsw : (s.cluster (clusterOf s.cur)).switching = [])
    (hq : s.quarCl.contains (clusterOf s.cur) = false) (hr : rightsM s.me (4032 + s.logicalNo (clusterOf s.cur)) s = .ok (r, s0))
    (hg : granted acc true r = true) : resolve s.me acc (localVa o) n s = .ok ([scratchPiece s o n], s0) := by
  rw [resolve_local h h0 hn (pieceOf_scratchpad n h hmode hsw hq)]
  refine M.bind_of_ok (a := ()) (s' := s0) ?_
  unfold rightsAll
  rw [M.bind_of_ok (show rightsM s.me (scratchPiece s o n).dom s = .ok (r, s0) from hr), show (scratchPiece s o n).typed = true from rfl, hg]
  rfl

end Sys2Proof.Machine

namespace Sys2Proof

open Machine

/-- A state like `core2048` in which the core has every right to its local window: its own cluster's scratchpad lies, for it, behind a link that is down. -/
def strayCore : State := { core2048 with rights := [(4096, 0x1F)] }

/-- `strayCore` after a look at its rights. -/
def strayLooked : State := strayCore.modCore 2048 (fun c => { c with plb := [(4096, 0x1F)] })

theorem strayCore_rights : rightsM strayCore.me (4032 + strayCore.logicalNo (clusterOf strayCore.cur)) strayCore = .ok (0x1F, strayLooked) := rfl

theorem strayCore_mode {o : Nat} (ho : o < 2 ^ 22) : (strayCore.cluster (clusterOf strayCore.cur)).modes[o / 2 ^ 18]? = some 1 := by
  rw [show strayCore.cluster (clusterOf strayCore.cur) = { Cluster.reset with modes := Vector.replicate 16 1 } from rfl]
  rw [Vector.getElem?_replicate, if_pos (by omega)]

theorem strayCore_reaches {o n right : Nat} (h0 : 0 < n) (hn : o % 65536 + n ≤ 65536) (ho : o < 2 ^ 22) (hr : (0x1F : Byte).getLsbD right = true) :
    ReachesScratchpad strayCore o n right := ⟨h0, hn, ho, strayCore_mode ho, rfl, rfl, 0x1F, strayLooked, strayCore_rights, hr⟩

theorem strayCore_quiet : Quiet strayCore strayCore.cur := ⟨rfl, fun _ hr => nomatch hr⟩

/-- The path on which the core waits. -/
def strayWait : Wait := .path (localVa 0) (dieOf 64) 4 0

/-- A read of the core's scratchpad passes the checks up to the rights, and then waits for the path (R138). -/
theorem strayCore_resolve : resolve strayCore.me .load (localVa 0) 64 strayCore = .ok ([scratchPiece strayCore 0 64], strayLooked) :=
  resolve_scratchpad (by decide) (by decide) (by decide) (strayCore_mode (by decide)) rfl rfl strayCore_rights rfl

theorem strayCore_noPoison : noPoison strayCore.me [scratchPiece strayCore 0 64] strayLooked = .error (.wait strayWait) :=
  noPoison_cut (e := 4) rfl rfl

theorem strayCore_loadBytes : loadBytes strayCore.me (localVa 0) 64 strayCore = .error (.wait strayWait) := by
  unfold loadBytes
  rw [M.bind_of_ok strayCore_resolve]
  exact M.bind_of_error strayCore_noPoison

theorem strayCore_loadSector : loadSector (localVa 0) strayCore = .error (.wait strayWait) := by
  unfold loadSector
  rw [M.bind_of_ok (aligned_of_mod (by decide) strayCore), M.bind_of_ok (M.get_apply strayCore),
    M.bind_of_ok strayCore_resolve]
  exact M.bind_of_error strayCore_noPoison

/-- Refutes O16: core 2048, of no die of the module, reaches the scratchpad of its cluster by the hub, whose link may be down; a load then waits where the statement
has it read. -/
theorem not_scratchpadIsMemory : ¬ Obligations.ScratchpadIsMemory := by
  unfold Obligations.ScratchpadIsMemory
  rintro ⟨hread, -, -⟩
  obtain ⟨s1, k, hok, -⟩ := hread strayCore 0 64 (strayCore_reaches (by decide) (by decide) (by decide) rfl) (by decide) (by decide) strayCore_quiet rfl
  rw [strayCore_loadBytes] at hok
  cases hok

/-- Refutes O19: the same core's LDV waits for the path and does not complete. -/
theorem not_sectorAccess : ¬ Obligations.SectorAccess := by
  unfold Obligations.SectorAccess
  rintro ⟨-, hsectors⟩
  have haddr : strayCore.rg 0 + BitVec.ofNat 64 (localWin / 64) * 64 = localVa 0 := by decide
  obtain ⟨s1, x, ⟨t, hexec, -, hretired, -⟩, -⟩ :=
    (hsectors strayCore 0 0 (BitVec.ofNat 64 (localWin / 64)) 0 haddr (by decide)).1 (strayCore_reaches (by decide) (by decide) (by decide) rfl) strayCore_quiet rfl
  have hparks : exec (.ldv 0 0 (BitVec.ofNat 64 (localWin / 64))) strayCore = .next (parkCore strayCore 2048 strayWait) := by
    show runM _ strayCore = _
    refine runM_wait (M.bind_of_error ?_)
    rw [show strayCore.ea 0 (BitVec.ofNat 64 (localWin / 64)) 64 = localVa 0 from haddr]
    exact strayCore_loadSector
  rw [hparks] at hexec
  cases hexec
  have hnone : ((parkCore strayCore 2048 strayWait).core strayCore.cur).wait = .none := by rw [hretired]
  cases hnone

/-- `strayCore` in a step that performs its requests, with g2 at the base of its local window, where the header of a run of one element stands: N = 1, and a
capacity of the 72 bytes of its header and mask (R103). -/
def strayRun : State :=
  { strayCore with
    eager := true, cores := [(2048, { Core.reset with g := Core.reset.g.set 2 (localVa 0) })],
    mem := { cells := [(sramLoc 64 0, 1), (sramLoc 64 0 + 4, 72)], poison := [] } }

/-- `strayRun` after a look at its rights. -/
def strayRunLooked : State := strayRun.modCore 2048 (fun c => { c with plb := [(4096, 0x1F)] })

theorem strayRun_rights : rightsM strayRun.me (4032 + strayRun.logicalNo (clusterOf strayRun.cur)) strayRun = .ok (0x1F, strayRunLooked) := rfl

/-- STVP has passed its checks of place, rights and format, and waits for the path before it reads the header. -/
theorem strayRun_waits : packRun 2 0 strayRun = .error (.wait strayWait) := by
  have hresolve : resolve strayRun.me .sector (strayRun.rg 2) 8 strayRun = .ok ([scratchPiece strayRun 0 8], strayRunLooked) :=
    resolve_scratchpad (by decide) (by decide) (by decide) (strayCore_mode (by decide)) rfl rfl strayRun_rights rfl
  have hnotify : noNotify [scratchPiece strayRun 0 8] strayRunLooked = .ok ((), strayRunLooked) := rfl
  have hrings : ringsFree [scratchPiece strayRun 0 8] strayRunLooked = .ok ((), strayRunLooked) := rfl
  have hpoison : noPoison strayRun.me [scratchPiece strayRun 0 8] strayRunLooked = .error (.wait strayWait) := noPoison_cut (e := 4) rfl rfl
  unfold packRun
  rw [M.bind_of_ok (M.get_apply strayRun)]
  dsimp only
  rw [M.bind_of_ok hresolve, M.bind_of_ok hnotify]
  change (ringsFree [scratchPiece strayRun 0 8] >>= _) strayRunLooked = _
  rw [M.bind_of_ok hrings]
  exact M.bind_of_error hpoison

theorem laneOf_zero (w j : Nat) : laneOf 0 w j = 0 := by
  show (0#512).toNat / 2 ^ (w * j) % 2 ^ w = 0
  rw [BitVec.toNat_zero, Nat.zero_div, Nat.zero_mod]

/-- Refutes O21: STVP of core 2048 on a run in the scratchpad of its cluster waits for the path, and its cursor stays, where the statement has it complete. -/
theorem not_runIsAppended : ¬ Obligations.RunIsAppended := by
  unfold Obligations.RunIsAppended
  rintro ⟨-, hruns⟩
  have hbytes : ∀ k, k < 72 → (∀ right ∈ [0, 1, 3], ReachesScratchpad strayRun (0 + k) 1 right)
      ∧ strayRun.mem.poison.contains ((sramLoc 64 0 + k) / 64) = false := by
    intro k hk
    refine ⟨fun right hright => ⟨by decide, by omega, by omega, strayCore_mode (by omega), rfl, rfl, 0x1F, strayRunLooked, strayRun_rights, ?_⟩, rfl⟩
    fin_cases hright <;> rfl
  have hn : strayRun.mem.nat (sramLoc 64 0) 2 = 1 := rfl
  have hcap : strayRun.mem.nat (sramLoc 64 0 + 4) 4 = 72 := rfl
  have hx : strayRun.rv 0 = ⟨0, 0⟩ := rfl
  have hcur : strayRun.rg (pairHigh 2) = 0 := rfl
  have hrun := hruns strayRun 2 0 0 8 rfl ⟨rfl, fun _ hr => nomatch hr⟩ rfl rfl rfl
  dsimp only at hrun
  rw [show clusterOf strayRun.cur = 64 from rfl, hn, hcap, hx, hcur] at hrun
  simp only [laneOf_zero, show fld 0 15 0 = 0 from rfl, show fld 0 31 16 = 0 from rfl, bne_self_eq_false, List.countP_false] at hrun
  obtain ⟨t, hexec, hcursor, -⟩ := hrun (by decide) hbytes rfl rfl rfl (by decide) (by decide)
  rw [show exec (.stvp 2 0) strayRun = .next (parkCore strayRun 2048 strayWait) from runM_wait strayRun_waits] at hexec
  cases hexec
  exact absurd hcursor (by decide)

end Sys2Proof
end

section
/-! Sectors stored one after another to the scratchpad, and an image that overlaps its own tags (R94, R351). -/

namespace Sys2Proof.Machine

/-! ## One sector -/

/-- What a store to memory changes beside a look: memory, and what its bytes held before. -/
def Wrote (s t : State) : Prop := Looked { s with mem := t.mem, past := t.past } t

/-- A core whose stores to the scratchpad of its cluster P are performed at once, with the agent that it is. -/
structure Storing (P : Nat) (w : Who) (s : State) : Prop where
  me        : s.me = w
  cluster   : clusterOf s.cur = P
  modes     : ∀ o, o < 2 ^ 22 → (s.cluster P).modes[o / 2 ^ 18]? = some 1
  switching : (s.cluster P).switching = []
  sound     : s.quarCl.contains P = false
  eager     : s.eager = true
  noReqs    : s.reqs = []
  linksUp   : LinksUp s
  noDefers  : s.defers = []

section
variable {P : Nat} {w : Who} {s t : State}

theorem Wrote.of_looked (h : Looked s t) : Wrote s t := by
  have hsame : ({ s with mem := t.mem, past := t.past } : State) = s := by rw [h.1]
  unfold Wrote
  rw [hsame]
  exact h

theorem Wrote.trans {x : State} (h : Wrote s t) (h' : Wrote t x) : Wrote s x := by
  obtain ⟨h1, h2⟩ := h
  obtain ⟨h1', h2'⟩ := h'
  refine ⟨by rw [h1', h1], fun u => ?_⟩
  rw [h2' u, show State.core { t with mem := x.mem, past := x.past } u = t.core u from rfl, h2 u]
  rfl

theorem Storing.wrote (h : Storing P w s) (hw : Wrote s t) : Storing P w t where
  me := hw.me.trans h.me
  cluster := by rw [hw.1]; exact h.cluster
  modes := by rw [State.cluster, hw.1]; exact h.modes
  switching := by rw [State.cluster, hw.1]; exact h.switching
  sound := by rw [hw.1]; exact h.sound
  eager := by rw [hw.1]; exact h.eager
  noReqs := by rw [hw.1]; exact h.noReqs
  linksUp := Looked.linksUp hw h.linksUp
  noDefers := by rw [hw.1]; exact h.noDefers

theorem nonePending_of_noReqs (h : s.reqs = []) (u : Nat) : NonePending s u := fun r hr => by rw [h] at hr; cases hr

/-- In a step that performs its requests, with no LDF deferred, performed writes change memory and what it held before. -/
theorem performBy_now (he : s.eager = true) (hd : s.defers = []) (u : Nat) (ws : List (Nat × Byte)) : Wrote s (performBy s u ws) := by
  have hfor : performFor (some u) s ws = { s with mem := s.mem.pokes ws, past := { core := some u, was := ws.map (fun w => (w.1, s.mem.peek w.1)) } :: s.past } :=
    answerFutures_none _ ws hd
  have hby : performBy s u ws = performFor (some u) s ws := by
    have hx : (performFor (some u) s ws).eager = true := by rw [hfor]; exact he
    unfold performBy
    dsimp only
    generalize performFor (some u) s ws = x at hx
    have : ∀ (l : List (Nat × Byte)), l.foldl (fun s w => s.raiseFloor u w.1 1 s.past.length) x = x := by
      intro l
      induction l with
      | nil => rfl
      | cons w l ih => rw [List.foldl_cons, show x.raiseFloor u w.1 1 x.past.length = x from if_pos hx, ih]
    exact this ws
  rw [hby, hfor]
  exact Looked.refl _

/-- A sector stored to the scratchpad stands there, with its tag (R94, R102). -/
theorem storeBytes_sector (h : Storing P w s) {o : Nat} {bs : List Byte} {tag : Half} (ho : o < 2 ^ 22) (h64 : o % 64 = 0) (hlen : bs.length = 64)
    (hm : storeBytes w .sector (localVa o) bs (some tag) false s = .ok ((), t)) :
    Wrote s t ∧ t.mem = s.mem.pokes (pieceWrites (sramLoc P o) bs (some tag)) := by
  obtain ⟨rfl, rfl, hmodes, hsw, hq, he, hr, hl, hd⟩ := h
  unfold storeBytes at hm
  obtain ⟨ps, s0, hres, hm⟩ := M.bind_ok.1 hm
  rw [hlen, resolve_local ho (by omega) (by omega) (pieceOf_scratchpad 64 ho (hmodes o ho) hsw hq)] at hres
  have hlook : Looked s s0 := (Looks.bind (rightsAll_looks _ _ _) fun _ => .pure _) _ _ _ hres
  obtain ⟨_, s1, -, hps⟩ := M.bind_ok.1 hres
  cases hps
  obtain ⟨_, s2, h2, hm⟩ := M.bind_ok.1 hm
  cases ringsFree_state h2
  obtain ⟨_, s3, h3, hm⟩ := M.bind_ok.1 hm
  cases noDead_state h3
  unfold writePieces at hm
  obtain ⟨_, s4, h4, hm⟩ := M.bind_ok.1 hm
  cases hm
  have hwrite : t = performBy s0 s.cur (pieceWrites (sramLoc (clusterOf s.cur) o) bs (some tag)) := by
    unfold writePiece at h4
    rw [show (scratchPiece s o 64).place = .mem (sramLoc (clusterOf s.cur) o) from rfl, show s.me.core = some s.cur from rfl,
      show (scratchPiece s o 64).len = bs.length from hlen.symm, List.take_length] at h4
    cases h4
    rw [storeEntry_now (hlook.eager.trans he) (nonePending_of_noReqs (hlook.reqs.trans hr) _), performEntry_plain rfl rfl rfl (hlook.linksUp hl)]
    rfl
  subst hwrite
  have hw := performBy_now (hlook.eager.trans he) (hlook.defers.trans hd) s.cur (pieceWrites (sramLoc (clusterOf s.cur) o) bs (some tag))
  exact ⟨(Wrote.of_looked hlook).trans hw, by rw [performBy_mem, hlook.mem]⟩

/-! ## Sectors one after another -/

theorem localVa_add_64 (o : Nat) : localVa o + 64 = localVa (o + 64) := by
  unfold localVa word
  rw [BitVec.ofNat_add localWin o, BitVec.ofNat_add localWin (o + 64), BitVec.ofNat_add o 64, BitVec.add_assoc]
  rfl

/-- Sectors stored one after another change no byte beside theirs and those of their tags (R94). -/
theorem storeSectors_scratchpad {tag : Nat → Half} : ∀ (n k o : Nat) (bs : List Byte) (s : State), Storing P w s → o + 64 * n ≤ 2 ^ 22 → o % 64 = 0 → bs.length = 64 * n →
    storeSectors w tag n k (localVa o) bs s = .ok ((), t) →
    Storing P w t ∧ Wrote s t ∧ ∀ x, (x < sramLoc P o ∨ sramLoc P o + 64 * n ≤ x) → (x < tagLoc (sramLoc P o) ∨ tagLoc (sramLoc P o) + 2 * n ≤ x) →
      t.mem.peek x = s.mem.peek x
  | 0, _, _, _, s, h, _, _, _, hm => by
    cases hm
    exact ⟨h, .of_looked (.refl _), fun _ _ _ => rfl⟩
  | n + 1, k, o, bs, s, h, ho, h64, hlen, hm => by
    unfold storeSectors at hm
    obtain ⟨_, s1, h1, h2⟩ := M.bind_ok.1 hm
    have htake : (bs.take 64).length = 64 := by rw [List.length_take]; omega
    obtain ⟨hw, hmem⟩ := storeBytes_sector h (by omega) h64 htake h1
    rw [localVa_add_64] at h2
    obtain ⟨hst, hw2, hpeek⟩ := storeSectors_scratchpad n (k + 1) (o + 64) (bs.drop 64) s1 (h.wrote hw) (by omega) (by omega)
      (by rw [List.length_drop]; omega) h2
    refine ⟨hst, hw.trans hw2, fun x hx ht => ?_⟩
    have hloc : sramLoc P (o + 64) = sramLoc P o + 64 := rfl
    have htag : tagLoc (sramLoc P (o + 64)) = tagLoc (sramLoc P o) + 2 := by rw [hloc]; unfold tagLoc; omega
    rw [hpeek x (by omega) (by omega), hmem, pieceWrites, Memory.pokes, List.foldl_append]
    refine (Memory.peek_writesAt_outside (s.mem.pokes (writesAt (sramLoc P o) (bs.take 64))) _ _ _ ?_).trans (Memory.peek_writesAt_outside _ _ _ _ ?_)
    · rw [leBytes_length]; omega
    · rw [htake]; omega

/-! ## A release with nothing to perform -/

theorem Wrote.settled (hw : Wrote s t) {u : Nat} (h : Settled s u) : Settled t u := by
  obtain ⟨⟨hsb, hn⟩, hdirty, hseen, hseq⟩ := h
  exact ⟨Looked.quiet hw ⟨hsb, hn⟩, by rw [hw.2 u]; exact hdirty, by rw [hw.2 u]; exact hseen, (Looked.seqOrder hw).trans hseq⟩

/-- A release by a core with nothing to perform, whose cluster's cache holds nothing above the home, leaves memory as it was (R124, R128). -/
theorem releaseTo_settled_mem {u : Nat} (h : Settled s u) (hc : (s.cluster (clusterOf u)).uoCache = []) (hf : (s.cluster (clusterOf u)).uoFenced = []) :
    (releaseTo s u 4).mem = s.mem := by
  obtain ⟨⟨hsb, hn⟩, hdirty, hseen, hseq⟩ := h
  have hdrain : drainAll s u = s.modCore u (fun c => { c with storeBuf := [] }) := by
    unfold drainAll drainFirst
    rw [hsb]
    rfl
  have hcore : (s.modCore u (fun c => { c with storeBuf := [] })).core u = { s.core u with storeBuf := [] } := by
    rw [State.modCore_eq, State.setCore_core_self]
  unfold releaseTo
  rw [show flushTo s u 4 = s from flushWhere_nonePending hn _, hdrain]
  generalize hx : s.modCore u (fun c => { c with storeBuf := [] }) = x at hcore
  rw [applySeen_none (by rw [← hx]; exact hseq)]
  have hmem : x.mem = s.mem := by rw [← hx]; rfl
  have hcl : x.cluster = s.cluster := by rw [← hx]; rfl
  have hheld : ∀ p, heldUo x (clusterOf u) p = [] := fun p => by unfold heldUo; rw [hcl, hc, hf]; rfl
  unfold uoWriteBack
  rw [if_neg (by decide), if_neg (by simp), if_pos (by decide)]
  dsimp only
  rw [hcore, hheld, hdirty, List.append_nil]
  exact (performFor_mem _ _ _).trans hmem

/-! ## STOW -/

/-- Memory after an instruction is that after its operation, or as it was. -/
theorem runM_mem {m : M Flow} (h : runM m s = .next t) : t.mem = s.mem ∨ ∃ f s', m s = .ok (f, s') ∧ t.mem = s'.mem := by
  have hfin : finish s s.cur (m s) = t := Host.Outcome.next.inj h
  have htrap : ∀ (x : State) (u : Nat) (tr : Trap), (takeTrap x u tr).mem = x.mem := fun x u tr => by
    unfold takeTrap
    dsimp only
    split
    · exact (dropWait_spec x u).2.2.1
    · exact (writeReserved_spec _ u _).2.2.trans (dropWait_spec x u).2.2.1
  rw [← hfin]
  cases hm : m s with
  | error e =>
    cases e with
    | trap tr => exact .inl (htrap s _ tr)
    | wait w => exact .inl rfl
  | ok r =>
    obtain ⟨f, s'⟩ := r
    refine .inr ⟨f, s', rfl, ?_⟩
    cases f with
    | next => rfl
    | goto a => rfl
    | stay => rfl
    | trapped tr => exact htrap s' _ tr

theorem flatMap_length_of_forall {α β : Type} {f : α → List β} {k : Nat} : ∀ {l : List α}, (∀ a ∈ l, (f a).length = k) → (l.flatMap f).length = l.length * k
  | [], _ => by simp
  | a :: l, h => by
    rw [List.flatMap_cons, List.length_append, h a (List.mem_cons_self ..), flatMap_length_of_forall fun b hb => h b (List.mem_cons_of_mem _ hb), List.length_cons]
    ring

/-- An image has 1,536 bytes (R351). -/
theorem stowImage_length (s : State) (u : Nat) (pc : Word) (latched trapped : Bool) (msgs : Nat) : (stowImage s u pc latched trapped msgs).length = 1536 := by
  unfold stowImage
  dsimp only
  simp only [List.length_append, leBytes_length, List.length_replicate, flatMap_length_of_forall (fun _ _ => leBytes_length _ _)]
  rfl

/-- What a completed STOW to the scratchpad leaves in memory: the stored sectors (R351). -/
theorem stowCheckpoint_mem {o : Nat} {f : Flow} (ho : o + 1536 ≤ 2 ^ 22) (h64 : o % 64 = 0) (h : Storing P w s) (hset : Settled s s.cur) (hc : (s.cluster P).uoCache = []) (hf : (s.cluster P).uoFenced = [])
    (hm : stowCheckpoint (localVa o) s = .ok (f, t)) :
    ∃ s0 s1, Storing P w s0 ∧ s0.mem = s.mem ∧ t.mem = s1.mem
      ∧ storeSectors w (fun _ => 0) 24 0 (localVa o) (stowImage s0 s0.cur s0.nextPc false false 0) s0 = .ok ((), s1) := by
  unfold stowCheckpoint at hm
  rw [M.bind_of_ok (M.get_apply s)] at hm
  obtain ⟨_, x1, h1, hm⟩ := M.bind_ok.1 hm
  have hl1 := Looks.need _ _ _ _ _ h1
  obtain ⟨_, x2, h2, hm⟩ := M.bind_ok.1 hm
  have hl2 := Looks.need _ _ _ _ _ h2
  obtain ⟨ps, x3, h3, hm⟩ := M.bind_ok.1 hm
  have hl3 := resolve_looks _ _ _ _ _ _ _ h3
  obtain ⟨_, x4, h4, hm⟩ := M.bind_ok.1 hm
  cases ringsFree_state h4
  obtain ⟨_, x5, h5, hm⟩ := M.bind_ok.1 hm
  cases noDead_state h5
  have hlook : Looked s x3 := (hl1.trans hl2).trans hl3
  have hset3 := (Wrote.of_looked hlook).settled hset
  have hst3 := h.wrote (.of_looked hlook)
  rw [M.bind_of_ok (M.modify_apply _ _), M.bind_of_ok (M.get_apply _), hlook.cur,
    show flushTo x3 s.cur 5 = x3 from flushWhere_nonePending hset3.1.2 _] at hm
  obtain ⟨_, x6, h6, hm⟩ := M.bind_ok.1 hm
  cases hm
  rw [hst3.me] at h6
  obtain ⟨-, hw, -⟩ := storeSectors_scratchpad 24 0 o _ x3 hst3 ho h64 (stowImage_length _ _ _ _ _ _) h6
  have hcl : x6.cluster (clusterOf s.cur) = s.cluster P := by rw [← h.cluster, State.cluster, hw.1, hlook.1]; rfl
  refine ⟨x3, x6, hst3, hlook.mem, ?_, h6⟩
  have hcur6 : x6.cur = s.cur := by rw [hw.1]; exact hlook.cur
  show (releaseTo x6 x6.cur 4).mem = x6.mem
  rw [hcur6]
  exact releaseTo_settled_mem (hw.settled hset3) (by rw [hcl, hc]) (by rw [hcl, hf])

end

end Sys2Proof.Machine

namespace Sys2Proof

open Machine

/-- A cluster number so large that the bytes of its SRAM lie where their own tags do: the tag of the sector at offset `farOffset` is the sector's bytes 32 and 33. -/
def farCluster : Nat := 276832520
def farOffset : Nat := 1082368

theorem farTag : tagLoc (sramLoc farCluster farOffset) = sramLoc farCluster farOffset + 32 := by decide

/-- A register's contents whose byte 32 is 1, and the others 0. -/
def farBits : Sector := BitVec.ofNat 512 (256 ^ 32)

theorem farBits_toNat : farBits.toNat = 256 ^ 32 := by
  have hpow : ∀ {k n : Nat}, k < n → 2 ^ k < 2 ^ n := fun h => Nat.pow_lt_pow_right Nat.one_lt_two h
  have hfits : ∀ n, 256 < n → (BitVec.ofNat n (2 ^ 256)).toNat = 2 ^ 256 := fun n hn => toNat_ofNat_of_fits (hpow hn)
  unfold farBits
  rw [show 256 ^ 32 = 2 ^ 256 by norm_num]
  exact hfits 512 (by decide)

/-- A core of that cluster that runs a task, with g2 at the sector and byte 32 of v0 not zero; every right to its window is held, and every bank is a scratchpad. -/
def farCore : Core :=
  ({ Core.reset with g := Core.reset.g.set 2 (localVa farOffset), task := some 0, status := .running } : Core).wv 0 ⟨farBits, 0⟩

theorem farCore_rv : (farCore.rv 0).bits = farBits := by
  unfold farCore
  rw [Core.wv_rv, if_pos rfl]

def farTask : Task := Tcb.task ⟨[]⟩ State.reset 0 ⟨0, 0⟩ 0 0 0 0 none

def farState : State :=
  { State.reset with
    cur := 32 * farCluster, eager := true, cores := [(32 * farCluster, farCore)], rights := [(4032 + farCluster, 0x1F)],
    clusters := [(farCluster, { Cluster.reset with modes := Vector.replicate 16 1, tcbs := [(0, farTask)] })] }

theorem farState_rv : ((farState.core farState.cur).rv 0).bits = farBits := by
  rw [show farState.core farState.cur = farCore from rfl]
  exact farCore_rv

def farLooked : State := farState.modCore (32 * farCluster) (fun c => { c with plb := [(4032 + farCluster, 0x1F)] })

theorem farState_rights : rightsM farState.me (4032 + farState.logicalNo (clusterOf farState.cur)) farState = .ok (0x1F, farLooked) := rfl

theorem farState_storing : Storing farCluster farState.me farState where
  me := rfl
  cluster := rfl
  modes o ho := by
    rw [show farState.cluster farCluster = { Cluster.reset with modes := Vector.replicate 16 1, tcbs := [(0, farTask)] } from rfl]
    rw [Vector.getElem?_replicate, if_pos (by omega)]
  switching := rfl
  sound := rfl
  eager := rfl
  noReqs := rfl
  linksUp _ := rfl
  noDefers := rfl

theorem farState_settled : Settled farState farState.cur := ⟨⟨rfl, nonePending_of_noReqs rfl _⟩, rfl, rfl, rfl⟩

theorem leBytes_getElem? : ∀ (n x k : Nat), k < n → (leBytes n x)[k]? = some (BitVec.ofNat 8 (x / 256 ^ k))
  | n + 1, x, 0, _ => by simp [leBytes]
  | n + 1, x, k + 1, h => by
    rw [leBytes, List.getElem?_cons_succ, leBytes_getElem? n _ k (by omega), Nat.div_div_eq_div_mul, Nat.pow_succ, Nat.mul_comm]

/-- Byte 32 of the image is byte 32 of v0. -/
theorem stowImage_byte_32 {s : State} {u : Nat} (pc : Word) (latched trapped : Bool) (msgs : Nat) (h : ((s.core u).rv 0).bits = farBits) :
    (stowImage s u pc latched trapped msgs)[32]? = some 1 := by
  unfold stowImage
  dsimp only
  simp only [List.append_assoc]
  rw [show below 16 = 0 :: upFrom 1 15 from rfl, List.flatMap_cons, List.append_assoc, List.getElem?_append_left (by rw [leBytes_length]; decide),
    show BitVec.ofNat 4 0 = 0 from rfl, h, leBytes_getElem? _ _ _ (by decide), farBits_toNat, Nat.div_self (by positivity)]
  rfl

/-- Wherever STOW ends, byte 32 of where its image stands reads 0: either nothing is stored, or the tag of the first sector is stored over it last. -/
theorem farState_stow_peek {t : State} (h : exec (.stow 2) farState = .next t) : t.mem.peek (sramLoc farCluster farOffset + 32) = 0 := by
  have hrun : runM (stowCheckpoint (localVa farOffset)) farState = .next t := h
  rcases runM_mem hrun with hm | ⟨f, s', hok, hm⟩
  · rw [hm]; rfl
  obtain ⟨s0, s1, hst, -, hm1, hsec⟩ := stowCheckpoint_mem (by decide) (by decide) farState_storing farState_settled rfl rfl hok
  unfold storeSectors at hsec
  obtain ⟨_, x, hfirst, hrest⟩ := M.bind_ok.1 hsec
  have hlen := stowImage_length s0 s0.cur s0.nextPc false false 0
  obtain ⟨hw, hmem⟩ := storeBytes_sector hst (by decide) (by decide) (by rw [List.length_take, hlen]; rfl) hfirst
  rw [localVa_add_64] at hrest
  obtain ⟨-, -, hpeek⟩ := storeSectors_scratchpad 23 1 (farOffset + 64) _ x (hst.wrote hw) (by decide) (by decide) (by rw [List.length_drop, hlen]) hrest
  have htag : (x.mem.bytes (sramLoc farCluster farOffset + 32) 2) = leBytes 2 0 := by
    rw [hmem, pieceWrites, Memory.pokes, List.foldl_append]
    show Memory.bytes (Memory.pokes _ (tagWrites _ 0)) _ 2 = _
    unfold tagWrites
    rw [farTag]
    exact Memory.bytes_writesAt (leBytes 2 0) _ _
  rw [hm, hm1, hpeek _ (.inl (by decide)) (.inl (by decide))]
  exact (List.cons.inj htag).1

/-- Refutes O52: the statement lets a core have any number. Of the cluster `farCluster` the SRAM lies, in the model's numbering of locations, over its own tags, and the tag of
a stowed sector replaces two bytes of the image. -/
theorem not_systemInstructions : ¬ Obligations.SystemInstructions := by
  unfold Obligations.SystemInstructions
  intro hall
  have hreach : ∀ k, k < 24 → ReachesScratchpad farState (farOffset + 64 * k) 64 1 ∧ ReachesScratchpad farState (farOffset + 64 * k) 64 3 := fun k hk => by
    have ho : farOffset + 64 * k < 2 ^ 22 := by unfold farOffset; omega
    have hn : (farOffset + 64 * k) % 65536 + 64 ≤ 65536 := by unfold farOffset; omega
    exact ⟨⟨by decide, hn, ho, farState_storing.modes _ ho, rfl, rfl, 0x1F, farLooked, farState_rights, rfl⟩,
      ⟨by decide, hn, ho, farState_storing.modes _ ho, rfl, rfl, 0x1F, farLooked, farState_rights, rfl⟩⟩
  obtain ⟨-, -, -, -, -, -, -, -, -, -, -, -, -, -, -, -, -, -, -, -, -, -, -, -, -, hstow, -⟩ :=
    hall farState farState farState farState 0 0 2 [] 0 farOffset farTask 0 false false 0 0 0 Core.reset
  obtain ⟨t, hexec, hbytes, -⟩ := hstow ⟨rfl, rfl⟩ (.inl rfl) rfl farState_settled rfl (by decide) rfl hreach
  have hzero : (t.mem.bytes (sramLoc farCluster farOffset) 1536)[32]? = some 0 := by
    unfold Memory.bytes
    rw [List.getElem?_map, upFrom_eq_range', List.getElem?_range' (by decide)]
    exact congrArg some (farState_stow_peek hexec)
  rw [show t.mem.bytes (sramLoc farCluster farOffset) 1536 = _ from hbytes, stowImage_byte_32 _ _ _ _ farState_rv] at hzero
  cases hzero

end Sys2Proof
end

section
/-! Pages: the residency schedule, and what becomes of an access that waits for a page (R110 to R113). -/

namespace Sys2Proof.Machine

/-! ## A trap where the reserved slot is free -/

section
variable {s t : State} {u : Nat}

theorem shippable_dropWait (s : State) (u : Nat) : shippable (dropWait s u) u = shippable s u := by
  unfold shippable
  rw [dropWait_taskOf, (dropWait_spec s u).1]
  rfl

/-- A record in the core's free reserved slot parks the core; nothing it has written changes (R58, R346). -/
theorem takeTrap_recorded {tr : Trap} (hship : tr.cause = .pageFault → shippable s u = false)
    (hm : mfind (s.cluster (clusterOf u)).mailbox (inCluster u) = none) :
    (takeTrap s u tr).core u = { (s.core u).dropped with status := .trapped (trapRecord (dropWait s u) u tr) }
      ∧ (takeTrap s u tr).mem = s.mem ∧ ∀ v, v ≠ u → (takeTrap s u tr).core v = s.core v := by
  obtain ⟨d1, d2, d3, d4, _⟩ := dropWait_spec s u
  have hcl : (dropWait s u).cluster (clusterOf u) = s.cluster (clusterOf u) := by simp only [State.cluster, d4]
  have htake : takeTrap s u tr = writeReserved (dropWait s u) u (trapRecord (dropWait s u) u tr) := by
    refine if_neg fun ⟨hc, hs⟩ => ?_
    rw [shippable_dropWait, hship hc] at hs
    cases hs
  obtain ⟨w1, w2, w3⟩ := writeReserved_spec (dropWait s u) u (trapRecord (dropWait s u) u tr)
  rw [hcl, if_pos hm] at w1
  rw [htake]
  exact ⟨by rw [w1.2, d1], w3.trans d3, fun v hv => (w2 v hv).trans (d2 v hv)⟩

/-- What the statement says of a core that raises PAGE_FAULT for an address. -/
def PageFaultsAt (s : State) (u : Nat) (va : Word) (t : State) : Prop :=
  ∃ r, (t.core u).status = .trapped r ∧ PreciseRecord s u r .pageFault va ∧ t.mem = s.mem
    ∧ (t.core u).g = (s.core u).g ∧ (t.core u).pc = (s.core u).pc ∧ ∀ w, w ≠ u → t.core w = s.core w

/-- And of one whose fetch raises FETCH_FAULT. -/
def FetchFaultsAt (s : State) (u : Nat) (va : Word) (t : State) : Prop :=
  ∃ r, (t.core u).status = .trapped r ∧ PreciseRecord s u r .fetchFault va ∧ r.from_ = rec56 (s.core u).from_ ∧ t.mem = s.mem
    ∧ (t.core u).g = (s.core u).g ∧ (t.core u).pc = (s.core u).pc

theorem pageFails_faults {va : Word} (hl : (s.core u).fetchWait = false) (hs : shippable s u = false)
    (hm : mfind (s.cluster (clusterOf u)).mailbox (inCluster u) = none) : PageFaultsAt s u va (pageFails s u va) := by
  unfold pageFails
  rw [hl, if_neg Bool.false_ne_true]
  obtain ⟨hcore, hmem, hothers⟩ := takeTrap_recorded (tr := .at .pageFault va) (fun _ => hs) hm
  exact ⟨_, by rw [hcore], trapRecord_precise s u _ rfl rfl, hmem, by rw [hcore]; rfl, by rw [hcore]; rfl, hothers⟩

theorem pageFails_fetch {va : Word} (hl : ¬ (s.core u).fetchWait = false) (hm : mfind (s.cluster (clusterOf u)).mailbox (inCluster u) = none) :
    FetchFaultsAt s u va (pageFails s u va) := by
  unfold pageFails
  rw [if_pos (by simpa using hl)]
  obtain ⟨hcore, hmem, -⟩ := takeTrap_recorded (tr := s.fetchTrap u va) (fun h => nomatch h) hm
  exact ⟨_, by rw [hcore], trapRecord_precise s u _ rfl rfl, rfl, hmem, by rw [hcore]; rfl, by rw [hcore]; rfl⟩

/-- A core whose access fails, and whose task does not ship, waits no longer (R110). -/
theorem pageFails_parks {va : Word} (hs : (s.core u).fetchWait = false → shippable s u = false)
    (hm : mfind (s.cluster (clusterOf u)).mailbox (inCluster u) = none) :
    ((pageFails s u va).core u).wait = .none ∧ ∀ w, w ≠ u → (pageFails s u va).core w = s.core w := by
  have hship : (if (s.core u).fetchWait then s.fetchTrap u va else Trap.at .pageFault va).cause = .pageFault → shippable s u = false := fun h =>
    hs (Bool.eq_false_iff.2 fun hf => by rw [hf, if_pos rfl] at h; cases h)
  obtain ⟨hcore, -, hothers⟩ := takeTrap_recorded hship hm
  exact ⟨congrArg Core.wait hcore, hothers⟩

/-- A task that ships waits for the shipping (R110). -/
theorem pageFails_ships {va : Word} (hl : (s.core u).fetchWait = false) (hs : ¬ shippable s u = false) :
    ((pageFails s u va).core u).wait = .ship va ∧ (pageFails s u va).mem = s.mem ∧ ((pageFails s u va).core u).g = (s.core u).g
      ∧ ((pageFails s u va).core u).pc = (s.core u).pc := by
  have htake : pageFails s u va = (dropWait s u).modCore u (fun c => { c with wait := .ship va }) := by
    unfold pageFails
    rw [hl, if_neg Bool.false_ne_true]
    exact if_pos ⟨rfl, by rw [shippable_dropWait]; simpa using hs⟩
  obtain ⟨d1, -, d3, -⟩ := dropWait_spec s u
  rw [htake, State.modCore_eq, State.setCore_core_self, d1]
  exact ⟨rfl, d3, rfl, rfl⟩

end

/-! ## An access that waits for a page -/

section
variable {s t : State} {u : Nat} {va pte : Word} {big : Bool} {i : Nat} (hw : (s.core u).wait = .page va)
include hw

theorem contextShip_leaf (h : walk s va = .leaf pte big) : exec (.contextShip u) s = .next (parkCore s u .none) := by
  show execContextShip u s = _
  simp only [execContextShip, hw, h]

theorem contextShip_fail (h : walk s va = .fail) : exec (.contextShip u) s = .next (pageFails s u va) := by
  show execContextShip u s = _
  simp only [execContextShip, hw, h]

/-- No launch runs for the page, and its frames are not free: the access waits for them (R112). -/
theorem contextShip_no_frame (h : walk s va = .regen i big) (hr : ∀ r ∈ s.regens, r.page ≠ pageBase va big) (hf : s.freeFrames < framesOf big) :
    exec (.contextShip u) s = .next (parkCore s u (.frame va s.now)) := by
  have hall : s.regens.all (fun r => r.failed || r.page != pageBase va big) = true := by
    rw [List.all_eq_true]
    intro r hm
    rw [Bool.or_eq_true, bne_iff_ne]
    exact .inr (hr r hm)
  show execContextShip u s = _
  simp only [execContextShip, hw, h]
  rw [if_pos ⟨hf, hall⟩]

/-- Otherwise the access joins a launch that runs, or launches (R111). -/
theorem contextShip_regen (h : walk s va = .regen i big)
    (hgo : ¬ (s.freeFrames < framesOf big ∧ s.regens.all (fun r => r.failed || r.page != pageBase va big) = true)) (hf : faultRegen s va none = (false, t)) :
    exec (.contextShip u) s = .next t := by
  show execContextShip u s = _
  simp only [execContextShip, hw, h]
  rw [if_neg hgo, hf]

end

section
variable {s s1 s2 s3 : State} {va : Word} {big : Bool} {i n : Nat} {r : RegenWait} {q : Queue} {bs tb : List Byte}

/-- A core's access to a page whose launch runs joins it, which changes nothing (R111). -/
theorem faultRegen_joins (h : walk s va = .regen i big) (hr : s.regens = [r]) (hp : r.page = pageBase va big) (hb : r.big = big) (hf : r.failed = false)
    (hd : r.engines.Nodup) : faultRegen s va none = (false, s) := by
  have hkept : ({ r with engines := (r.engines ++ []).dedup } : RegenWait) = r := by rw [List.append_nil, hd.dedup]
  have hjoins : (r.page == pageBase va big && r.big == big && !r.failed) = true := by simp [hp, hb, hf]
  have hfails : s.regens.any (fun r => r.failsFor (pageBase va big) none) = false := by simp [hr, RegenWait.failsFor, hf]
  have hany : s.regens.any (fun r => r.page == pageBase va big && r.big == big && !r.failed) = true := by
    rw [hr, List.any_cons, hjoins]
    rfl
  have hmap : s.regens.map (fun r => if (r.page == pageBase va big && r.big == big && !r.failed) = true then { r with engines := (r.engines ++ []).dedup } else r)
      = s.regens := by
    rw [hr, List.map_cons, if_pos hjoins, hkept]
    rfl
  unfold faultRegen
  rw [h]
  dsimp only
  rw [hfails, if_neg Bool.false_ne_true, hany, if_pos rfl, Option.toList_none, hmap]

/-- The wait for the kernel of a template that a launch has copied to slot TAIL of queue n (R111). -/
def launched (page : Word) (big : Bool) (i n : Nat) (q : Queue) (tb : List Byte) (es : List Source) : RegenWait :=
  { page := page, big := big, index := i, slot := q.tail, engines := es, failed := false,
    kern := ⟨n, BitVec.ofNat 32 (leNat (((tb.take 16 ++ leBytes 8 page.toNat ++ leBytes 8 i ++ tb.drop 32).drop 104).take 4))⟩ }

theorem modQueue_of_some (h : mfind s.queues n = some q) (f : Queue → Queue) : s.modQueue n f = { s with queues := mset s.queues n (f q) } := by
  unfold State.modQueue
  rw [h]

/-- A launch that the memory, the template and the ring take (R111). -/
theorem launchRegen_of_parts {page : Word} {es : List Source}
    (h1 : deviceRead s (engineWho none 0) ((s.die (homeDie page)).rgbase + word (16 * i)) 16 = some (bs, s1))
    (h2 : queueAt s1 (word (leNat (bs.take 8))) = some n) (h3 : mfind s1.queues n = some q)
    (h4 : deviceRead s1 (engineWho none 0) (word (leNat (bs.drop 8))) 192 = some (tb, s2)) (h5 : (q.tail - q.head).toNat < 2 ^ q.desc.lslot)
    (h6 : deviceWrite s2 (engineWho none 0) (q.desc.ring + word (192 * (q.tail.toNat % 2 ^ q.desc.lslot)))
      (tb.take 16 ++ leBytes 8 page.toNat ++ leBytes 8 i ++ tb.drop 32) = some s3) (h7 : mfind s3.queues n = some q) :
    ∃ t, launchRegen s page big i es = some t ∧ t.mem = s3.mem ∧ t.freeFrames = s3.freeFrames
      ∧ mfind t.queues n = some { q with tail := q.tail + 1, tails := q.tails ++ [(q.tail + 1, s3.now)] }
      ∧ t.regens = s3.regens ++ [launched page big i n q tb es] := by
  unfold launchRegen
  simp only [h1, h2, h3, h4, Option.bind_eq_bind, Option.bind_some, if_neg (Nat.not_le.2 h5), h6]
  have hqueue := modQueue_of_some (s := { s3 with regens := s3.regens ++ [launched page big i n q tb es] }) h7
  exact ⟨_, congrArg some (hqueue _), rfl, rfl, mfind_mset_self _ _ _, rfl⟩

/-- A core's access to a page that no launch names launches its regeneration where the frames are free (R111, R112). -/
theorem faultRegen_launches {t : State} (h : walk s va = .regen i big) (hr : ∀ r ∈ s.regens, r.page ≠ pageBase va big) (hf : framesOf big ≤ s.freeFrames)
    (hl : launchRegen s (pageBase va big) big i [] = some t) :
    faultRegen s va none = (false, { t with freeFrames := t.freeFrames - framesOf big }) := by
  have hany : ∀ p : RegenWait → Bool, (∀ r, p r = true → r.page = pageBase va big) → s.regens.any p = false := fun p hp => by
    rw [List.any_eq_false]
    exact fun r hm e => hr r hm (hp r e)
  have hwaits : s.frameWaits.filter (fun f => some f.src != none || f.page != pageBase va big) = s.frameWaits :=
    List.filter_eq_self.2 fun f _ => rfl
  unfold faultRegen
  rw [h]
  dsimp only
  rw [hany _ (fun r e => by simp [RegenWait.failsFor] at e), hany _ (fun r e => by simp at e; exact e.1.1), if_neg Bool.false_ne_true, if_neg Bool.false_ne_true,
    if_neg (Nat.not_lt.2 hf), hwaits]
  show (match launchRegen s (pageBase va big) big i [] with
    | some s => (false, { s with freeFrames := s.freeFrames - framesOf big })
    | none => (true, s)) = _
  rw [hl]

end

/-! ## Writes of the device -/

/-- Performed writes change memory, what it held before, and the deferred LDFs that they answer with their cores (R108, R118). -/
def Performed (s t : State) : Prop := t = { s with mem := t.mem, past := t.past, defers := t.defers, cores := t.cores }

theorem performFor_performed (c : Option Nat) (s : State) (ws : List (Nat × Byte)) : Performed s (performFor c s ws) := by
  have hfold : ∀ (l : List Deferral) (f : State → Deferral → State) (x : State), (∀ t d, Performed t (f t d)) → Performed x (l.foldl f x) := by
    intro l f
    induction l with
    | nil => exact fun x _ => rfl
    | cons d l ih =>
      intro x hf
      have h1 := hf x d
      have h2 := ih (f x d) hf
      unfold Performed at h1 h2 ⊢
      rw [List.foldl_cons, h2, h1]
  unfold performFor answerFutures
  refine Eq.trans (hfold _ _ _ fun t d => ?_) rfl
  cases d.core with
  | none => rfl
  | some u => rfl

/-- Where no write of a TCB's STATE waits, trying them again changes no more than how the clusters are listed (R298). -/
theorem retryTcbWrites_none {s : State} (h : ∀ k ∈ s.clusters, k.2.tcbWrites = []) : retryTcbWrites s = { s with clusters := (retryTcbWrites s).clusters } := by
  have hfold : ∀ (l : AMap Cluster) (x : State), (∀ k ∈ l, k.2.tcbWrites = []) → ∀ y : State, x = { y with clusters := x.clusters } →
      l.foldl (fun s (p : Nat × Cluster) =>
        p.2.tcbWrites.foldl (fun s (x : Word × Nat) => writeTcbState s p.1 x.1 x.2) (s.modCluster p.1 (fun c => { c with tcbWrites := [] }))) x
      = { y with clusters := (l.foldl (fun s (p : Nat × Cluster) =>
        p.2.tcbWrites.foldl (fun s (x : Word × Nat) => writeTcbState s p.1 x.1 x.2) (s.modCluster p.1 (fun c => { c with tcbWrites := [] }))) x).clusters } := by
    intro l
    induction l with
    | nil => exact fun x _ y hy => hy
    | cons p l ih =>
      intro x hl y hy
      rw [List.foldl_cons, hl p (List.mem_cons_self ..)]
      refine ih _ (fun k hk => hl k (List.mem_cons_of_mem _ hk)) y ?_
      rw [List.foldl_nil, State.modCluster_eq, State.setCluster, hy]
  exact hfold s.clusters s h s rfl

/-! ## The residency schedule -/

/-- A die's HEAD one entry further. -/
def pastEntry (s : State) (d : Nat) (head : BitVec 32) : State := s.setDie d { s.die d with head := head + 1 }

/-- What the action of a due entry does (R112). -/
def performAction (s : State) (d : Nat) (head : BitVec 32) (e : Word) : Host.Outcome State Fault Refusal :=
  let page := pageBase (sext56 e) (bitAt e 61)
  match fld e 63 62 with
  | 0 => .next (pastEntry (evictPage s page (bitAt e 61)) d head)
  | 1 => match fetchPage s page (bitAt e 61) with
    | some s => .next (retryTcbWrites (pastEntry s d head))
    | none => .next s
  | 2 => .next (pastEntry { s with pinned := page :: s.pinned } d head)
  | _ => .next (pastEntry { s with pinned := s.pinned.filter (fun p => p ≠ page) } d head)

theorem fld_60_56 (w : Word) : fld w 60 56 = w.toNat / 2 ^ 56 % 32 := by
  unfold fld bitsOf
  rw [Nat.shiftRight_eq_div_pow]
  rfl

theorem fld_63_62 (w : Word) : fld w 63 62 = w.toNat / 2 ^ 62 := by
  have := w.isLt
  unfold fld bitsOf
  rw [Nat.shiftRight_eq_div_pow]
  omega

section
variable {s s1 : State} {d : Nat} {bs : List Byte} {w0 w1 : Word}

/-- The next entry of a die's schedule, read: it waits for its step, is refused for its reserved bits, or is performed (R112, R113). -/
theorem residency_of_entry (hne : (s.die d).head ≠ (s.die d).tail)
    (hread : loadBytes (engineWho none (16 * d)) ((s.die d).rsbase + word (16 * ((s.die d).head.toNat % 2 ^ (s.die d).rslog.toNat))) 16 s = .ok (bs, s1))
    (h0 : leNat (bs.take 8) = w0.toNat) (h1 : leNat (bs.drop 8) = w1.toNat) (hdie : s1.die d = s.die d) :
    exec (.residencyEntryPerform d) s =
      if (s.die d).step.toNat < w1.toNat then .next s1
      else if fld w0 60 56 ≠ 0 then .next (pastEntry (s1.setDie d { s.die d with err := (s.die d).err ||| 4 }) d (s.die d).head)
      else performAction s1 d (s.die d).head w0 := by
  have e0 : word (leNat (bs.take 8)) = w0 := by rw [h0]; exact BitVec.eq_of_toNat_eq (by simp [word])
  have e1 : word (leNat (bs.drop 8)) = w1 := by rw [h1]; exact BitVec.eq_of_toNat_eq (by simp [word])
  show execResidencyEntryPerform d s = _
  unfold execResidencyEntryPerform deviceAccess
  simp only [if_neg hne, hread, e0, e1, hdie]
  rfl

end

section
variable {s : State} {page : Word} {big : Bool} {a : Nat} {e : Word} {d : Nat} {head : BitVec 32}

theorem evictPage_pinned (h : isPinned s page (if big then 2 ^ 25 else 2 ^ 16) = true) : evictPage s page big = s := by
  unfold evictPage
  cases pageEntry s page big with
  | none => rfl
  | some x => exact if_pos (.inr h)

theorem set_bit_zero {e : Word} (h : e.getLsbD 0 = false) : (e ||| 1).toNat = e.toNat + 1 := by
  have hand : e &&& 1 = 0#64 := by
    refine BitVec.eq_of_getLsbD_eq fun i hi => ?_
    rcases Nat.eq_zero_or_pos i with rfl | hpos
    · rw [BitVec.getLsbD_and, h]
      rfl
    · rw [BitVec.getLsbD_and, show (1 : Word) = 1#64 from rfl, BitVec.getLsbD_one]
      simp [Nat.pos_iff_ne_zero.1 hpos]
  have heven : e.toNat % 2 = 0 := by simpa [BitVec.getLsbD, Nat.testBit_zero] using h
  have hlt := e.isLt
  rw [← BitVec.add_eq_or_of_and_eq_zero _ _ hand, BitVec.toNat_add]
  exact Nat.mod_eq_of_lt (by change e.toNat + 1 < 2 ^ 64; omega)

theorem clear_bit_zero {e : Word} (h : e.getLsbD 0 = true) : (e &&& ~~~1).toNat = e.toNat - 1 := by
  have hset : (e &&& ~~~1) ||| 1 = e := by
    refine BitVec.eq_of_getLsbD_eq fun i hi => ?_
    rw [BitVec.getLsbD_or, BitVec.getLsbD_and, BitVec.getLsbD_not, show (1 : Word) = 1#64 from rfl, BitVec.getLsbD_one]
    rcases Nat.eq_zero_or_pos i with rfl | hpos
    · simp [h]
    · simp [Nat.pos_iff_ne_zero.1 hpos, hi]
  have hclear : (e &&& ~~~1).getLsbD 0 = false := by
    rw [BitVec.getLsbD_and, BitVec.getLsbD_not, show (1 : Word) = 1#64 from rfl, BitVec.getLsbD_one]
    simp
  have hsum := set_bit_zero hclear
  rw [hset] at hsum
  omega

/-- An eviction clears V in the page's entry, frees its frames and keeps what has no regeneration in the page's backing (R112). -/
theorem evictPage_performed (hp : isPinned s page (if big then 2 ^ 25 else 2 ^ 16) = false) (he : pageEntry s page big = some (a, e)) (hv : e.getLsbD 0 = true) :
    (evictPage s page big).mem.nat a 8 = e.toNat - 1 ∧ (∀ b, b < a ∨ a + 8 ≤ b → (evictPage s page big).mem.peek b = s.mem.peek b)
      ∧ (evictPage s page big).freeFrames = s.freeFrames + framesOf big ∧ (evictPage s page big).dies = s.dies
      ∧ (e.getLsbD 6 = true → (evictPage s page big).backing = s.backing)
      ∧ (e.getLsbD 6 = false → mfind (evictPage s page big).backing (page.toNat / 2 ^ 16) = some (frameCells s (ptePa e) (if big then 2 ^ 25 else 2 ^ 16))) := by
  have hgo : ¬ (bitAt e 0 = false ∨ isPinned s page (if big then 2 ^ 25 else 2 ^ 16) = true) := by
    rw [hp, show bitAt e 0 = true from hv]
    simp
  have hlt : (e &&& ~~~1).toNat < 256 ^ 8 := (e &&& ~~~1).isLt
  unfold evictPage
  simp only [he]
  rw [if_neg hgo]
  generalize hs0 : (if bitAt e 6 = true then s
    else { s with backing := mset s.backing (page.toNat / 2 ^ 16) (frameCells s (ptePa e) (if big then 2 ^ 25 else 2 ^ 16)) }) = s0
  have hmem : s0.mem = s.mem := by rw [← hs0]; split <;> rfl
  have hdies : s0.dies = s.dies := by rw [← hs0]; split <;> rfl
  have hfree : s0.freeFrames = s.freeFrames := by rw [← hs0]; split <;> rfl
  have hperf := performFor_performed none s0 (writesAt a (leBytes 8 (e &&& ~~~1).toNat))
  have hpokes : (performWrites s0 (writesAt a (leBytes 8 (e &&& ~~~1).toNat))).mem = s.mem.pokes (writesAt a (leBytes 8 (e &&& ~~~1).toNat)) := by
    rw [← hmem]; exact performFor_mem _ _ _
  have hback : (performWrites s0 (writesAt a (leBytes 8 (e &&& ~~~1).toNat))).backing = s0.backing := by
    unfold performWrites; rw [hperf]
  refine ⟨?_, fun b hb => ?_, ?_, ?_, fun h6 => ?_, fun h6 => ?_⟩
  · show Memory.nat (performWrites s0 _).mem a 8 = _
    rw [hpokes, Memory.nat_writesAt, Nat.mod_eq_of_lt hlt, clear_bit_zero hv]
  · show Memory.peek (performWrites s0 _).mem b = _
    rw [hpokes]
    exact Memory.peek_writesAt_outside _ _ _ _ (by rw [leBytes_length]; exact hb)
  · exact congrArg (· + framesOf big) hfree
  · show (performWrites s0 _).dies = _
    unfold performWrites
    rw [hperf]
    exact hdies
  · show (performWrites s0 _).backing = _
    rw [hback, ← hs0, if_pos (show bitAt e 6 = true from h6)]
  · show mfind (performWrites s0 _).backing _ = _
    rw [hback, ← hs0, if_neg (by rw [show bitAt e 6 = false from h6]; exact Bool.false_ne_true)]
    exact mfind_mset_self _ _ _

/-- A page without regeneration comes back from its backing where its frames are free: V is set, and its frames are taken (R112). -/
theorem fetchPage_performed (he : pageEntry s page big = some (a, e)) (hv : e.getLsbD 0 = false) (h6 : e.getLsbD 6 = false) (hf : framesOf big ≤ s.freeFrames) :
    ∃ t, fetchPage s page big = some t ∧ t.mem.nat a 8 = e.toNat + 1 ∧ t.dies = s.dies ∧ t.clusters = s.clusters
      ∧ t.freeFrames = s.freeFrames - framesOf big ∧ mfind t.backing (page.toNat / 2 ^ 16) = none := by
  have hlt : (e ||| 1).toNat < 256 ^ 8 := (e ||| 1).isLt
  unfold fetchPage
  simp only [he]
  rw [if_neg (by rw [show bitAt e 0 = false from hv]; exact Bool.false_ne_true), if_neg (Nat.not_lt.2 hf),
    if_neg (by rw [show bitAt e 6 = false from h6]; exact Bool.false_ne_true)]
  generalize hs0 : refillFrame s (ptePa e) (if big then 2 ^ 25 else 2 ^ 16) (mget s.backing (page.toNat / 2 ^ 16) []) = s0
  have hperf := performFor_performed none s0 (writesAt a (leBytes 8 (e ||| 1).toNat))
  refine ⟨_, rfl, ?_, ?_, ?_, ?_, ?_⟩
  · show Memory.nat (performWrites s0 _).mem a 8 = _
    rw [show (performWrites s0 _).mem = _ from performFor_mem _ _ _, Memory.nat_writesAt, Nat.mod_eq_of_lt hlt, set_bit_zero hv]
  · show (performWrites s0 _).dies = _
    unfold performWrites
    rw [hperf, ← hs0]
    rfl
  · show (performWrites s0 _).clusters = _
    unfold performWrites
    rw [hperf, ← hs0]
    rfl
  · show s0.freeFrames - framesOf big = _
    rw [← hs0]
    rfl
  · show mfind (mdel s0.backing _) _ = none
    rw [mfind_mdel, if_pos rfl]

theorem fetchPage_no_frame (he : pageEntry s page big = some (a, e)) (hv : e.getLsbD 0 = false) (hf : s.freeFrames < framesOf big) :
    fetchPage s page big = none := by
  unfold fetchPage
  simp only [he]
  rw [if_neg (by rw [show bitAt e 0 = false from hv]; exact Bool.false_ne_true), if_pos hf]

end

end Sys2Proof.Machine

end

section
/-! The residency schedule of a die, its page of registers, what the device answers to remote accesses, the least loaded cluster, and the end of a regeneration
(R110 to R113, R332, R334, R336). -/

namespace Sys2Proof.Machine

/-! ## The schedule page -/

section
variable {s : State} {d off : Nat} {v : Word}

theorem apertureOf_schedPage (hd : d < 4) (ho : off < 65536) : apertureOf (schedPage d off) = .sched d off := by
  have h1 : ¬ (notifyBase ≤ schedPage d off ∧ schedPage d off < notifyBase + 65536 * 65536) := by unfold schedPage notifyBase schedBase; omega
  have h2 : schedBase ≤ schedPage d off ∧ schedPage d off < schedBase + 4 * 65536 := by unfold schedPage schedBase; omega
  have h3 : (schedPage d off - schedBase) / 65536 = d := by unfold schedPage schedBase; omega
  have h4 : schedPage d off % 65536 = off := by unfold schedPage schedBase; omega
  unfold apertureOf
  rw [if_neg h1, if_pos h2, h3, h4]

theorem exec_scheduleStepWrite (hd : d < 4) (hb : 6 ≤ s.sys.bring) : exec (.scheduleStepWrite d v) s = .next (s.setDie d (schedStep (s.die d) v)) := by
  show Host.Outcome.next ((notifyWrite s (schedPage d 0) v).getD s) = _
  unfold notifyWrite
  rw [apertureOf_schedPage hd (by decide)]
  dsimp only
  rw [if_neg (Nat.not_lt.2 hb), if_pos rfl]
  rfl

theorem exec_scheduleTailWrite (hd : d < 4) (hb : 6 ≤ s.sys.bring) : exec (.scheduleTailWrite d v) s = .next (s.setDie d (schedTail (s.die d) v)) := by
  show Host.Outcome.next ((notifyWrite s (schedPage d 8) v).getD s) = _
  unfold notifyWrite
  rw [apertureOf_schedPage hd (by decide)]
  dsimp only
  rw [if_neg (Nat.not_lt.2 hb), if_neg (by decide), if_pos rfl]
  rfl

theorem tailOk_iff (head tail new : BitVec 32) (log : Nat) :
    tailOk head tail new log = true ↔ (new - head).toNat ≤ 2 ^ log ∧ (tail - head).toNat ≤ (new - head).toNat := by
  unfold tailOk
  rw [Bool.and_eq_true, decide_eq_true_eq, decide_eq_true_eq]

/-- A read of ERR answers its value and clears it (R113). -/
theorem exec_scheduleErrRead (hd : d < 4) : exec (.scheduleErrRead d) s = .next
    { s.setDie d { s.die d with err := 0 } with net := { s.net with reply := some (.data (leBytes 8 (s.die d).err.toNat)) } } := by
  have hread : notifyRead s (schedPage d 24) = some (word (s.die d).err.toNat, s.setDie d { s.die d with err := 0 }) := by
    unfold notifyRead
    rw [apertureOf_schedPage hd (by decide)]
    dsimp only
    rw [if_neg (by decide), if_pos rfl]
  show outsideRead s (schedPage d 24) = _
  unfold outsideRead
  rw [hread]
  dsimp only
  have herr : (word (s.die d).err.toNat).toNat = (s.die d).err.toNat := by
    have := (s.die d).err.isLt
    exact Nat.mod_eq_of_lt (by omega)
  rw [herr]
  rfl

end

/-! ## Due entries -/

section
variable {s : State} {d : Nat} {e : Word} {head : BitVec 32} {a : Nat} {w : Word}

theorem pastEntry_eq {x : Die} (h : s.die d = x) (head : BitVec 32) : pastEntry s d head = s.setDie d { x with head := head + 1 } := by
  unfold pastEntry
  rw [h]

theorem pastEntry_die (s : State) (d : Nat) (head : BitVec 32) : (pastEntry s d head).die d = { s.die d with head := head + 1 } := State.setDie_die_self ..

theorem performAction_pins (h : fld e 63 62 = 2) :
    performAction s d head e = .next (pastEntry { s with pinned := pageBase (sext56 e) (bitAt e 61) :: s.pinned } d head) := by
  unfold performAction
  simp only [h]

theorem performAction_unpins (h : fld e 63 62 = 3) :
    performAction s d head e = .next (pastEntry { s with pinned := s.pinned.filter (fun p => p ≠ pageBase (sext56 e) (bitAt e 61)) } d head) := by
  unfold performAction
  simp only [h]

theorem performAction_evicts (h : fld e 63 62 = 0) :
    performAction s d head e = .next (pastEntry (evictPage s (pageBase (sext56 e) (bitAt e 61)) (bitAt e 61)) d head) := by
  unfold performAction
  simp only [h]

theorem performAction_fetches {t : State} (h : fld e 63 62 = 1) (hf : fetchPage s (pageBase (sext56 e) (bitAt e 61)) (bitAt e 61) = some t) :
    performAction s d head e = .next (retryTcbWrites (pastEntry t d head)) := by
  unfold performAction
  simp only [h, hf]

theorem performAction_waits (h : fld e 63 62 = 1) (hf : fetchPage s (pageBase (sext56 e) (bitAt e 61)) (bitAt e 61) = none) :
    performAction s d head e = .next s := by
  unfold performAction
  simp only [h, hf]

theorem framesOf_eq (big : Bool) : framesOf big = (if big then 2 ^ 25 else 2 ^ 16) / 2 ^ 16 := by cases big <;> rfl

end

/-! ## Accesses of other devices -/

section
variable {s s1 s2 : State} {req : RemoteReq} {bs : List Byte} {n : Nat}

/-- The agent of a remote access at the die of its home. -/
def remoteWho (req : RemoteReq) : Who := engineWho (some req.tenant) (16 * homeDie (homeAddress req.addr))

theorem exec_remoteRequest_ok (hl : LinksUp s) (h : remoteAccess (remoteWho req) req s = .ok (bs, s1)) :
    exec (.remoteRequest req) s = .next (remoteDone s1 req (.data bs)) := by
  show execRemoteRequest req s = _
  unfold remoteWho at h
  simp only [execRemoteRequest, pathDown_of_linksUp hl, h, Bool.false_eq_true, if_false]

theorem exec_remoteRequest_trap {t : Trap} (hl : LinksUp s) (h : remoteAccess (remoteWho req) req s = .error (.trap t)) :
    exec (.remoteRequest req) s = .next (remoteDone s req (.fault t.cause)) := by
  show execRemoteRequest req s = _
  unfold remoteWho at h
  simp only [execRemoteRequest, pathDown_of_linksUp hl, h, Bool.false_eq_true, if_false]

/-- An access that needs a page waits for its regeneration, or raises PAGE_FAULT where there is none (R111). -/
theorem exec_remoteRequest_page {va : Word} {b : Bool} (hl : LinksUp s) (h : remoteAccess (remoteWho req) req s = .error (.wait (.page va)))
    (hf : faultRegen s va (some (.net 64)) = (b, s1)) :
    exec (.remoteRequest req) s = .next (if b then remoteDone s1 req (.fault .pageFault) else remoteHeld s1 req) := by
  show execRemoteRequest req s = _
  unfold remoteWho at h
  simp only [execRemoteRequest, pathDown_of_linksUp hl, h, hf, Bool.false_eq_true, if_false]
  cases b <;> rfl

theorem needM_near (t : Trap) (s : State) : needM (!false) t s = .ok ((), s) := rfl

section
variable {w : Who} (hn : req.addr.getLsbD 55 = false)
include hn

theorem remoteAccess_read (ho : req.op = .read n) : remoteAccess w req s = loadBytes w (homeAddress req.addr) n s := by
  unfold remoteAccess
  simp only [bitAt, hn, ho]
  rfl

theorem remoteAccess_write (ho : req.op = .write bs) (h : storeBytes w .store (homeAddress req.addr) bs none false s = .ok ((), s1)) :
    remoteAccess w req s = .ok ([], s1) := by
  unfold remoteAccess
  simp only [bitAt, hn, ho]
  rw [M.bind_of_ok (needM_near _ s), M.bind_of_ok h]
  rfl

theorem remoteAccess_atomic {op : AtomOp} {b d : Word} (ho : req.op = .atomic op b d) :
    remoteAccess w req s = remoteAtHome w (homeAddress req.addr) op b d s := by
  unfold remoteAccess
  simp only [bitAt, hn, ho]
  rfl

theorem remoteAccess_readSector {p : Piece} {tag : Half} (ho : req.op = .readSector) (ha : (homeAddress req.addr).toNat % 64 = 0)
    (h : resolve w .load (homeAddress req.addr) 64 s = .ok ([p], s1)) (hp : noPoison w [p] s1 = .ok ((), s1)) (hr : readSectorPiece w p s1 = .ok ((bs, tag), s2)) :
    remoteAccess w req s = .ok (bs ++ leBytes 2 tag.toNat, s2) := by
  unfold remoteAccess
  simp only [bitAt, hn, ho]
  rw [M.bind_of_ok (needM_near _ s), M.bind_of_ok (aligned_of_mod ha s), M.bind_of_ok h, M.bind_of_ok hp]
  exact M.bind_of_ok hr

theorem remoteAccess_writeSector {x : Sector} {tag : Half} (ho : req.op = .writeSector x tag) (ha : (homeAddress req.addr).toNat % 64 = 0)
    (h : storeBytes w .sector (homeAddress req.addr) (sectorBytes x) (some tag) false s = .ok ((), s1)) : remoteAccess w req s = .ok ([], s1) := by
  unfold remoteAccess
  simp only [bitAt, hn, ho]
  rw [M.bind_of_ok (needM_near _ s), M.bind_of_ok (aligned_of_mod ha s), M.bind_of_ok h]
  rfl

end

theorem remoteAccess_far (hf : req.addr.getLsbD 55 = true) (w : Who) : remoteAccess w req s = .error (.trap (.at .plbDeny (homeAddress req.addr))) := by
  unfold remoteAccess
  simp only [bitAt, hf]
  rfl

end

/-! ## The least loaded cluster -/

/-- Numbers in ascending order. -/
theorem upFrom_ascends (n : Nat) : ∀ lo, (upFrom lo n).Pairwise (· < ·) := by
  induction n with
  | zero => exact fun _ => .nil
  | succ n ih => exact fun lo => .cons (fun x hx => (mem_upFrom.1 hx).1) (ih (lo + 1))

section
variable {f : Nat → Nat}

/-- The fold of bestBy holds the smallest measure so far, and the smallest number among equals. -/
theorem foldl_best : ∀ (l : List Nat) (x : Nat), (x :: l).Pairwise (· < ·) →
    let b := l.foldl (fun b y => if decide (f y < f b) then y else b) x
    b ∈ x :: l ∧ ∀ y ∈ x :: l, f b ≤ f y ∧ (f y = f b → b ≤ y) := by
  intro l
  induction l with
  | nil => exact fun x _ => ⟨List.mem_singleton.2 rfl, fun y hy => by rw [List.mem_singleton.1 hy]; exact ⟨le_rfl, fun _ => le_rfl⟩⟩
  | cons z l ih =>
    intro x hx
    obtain ⟨hxl, hzl⟩ := List.pairwise_cons.1 hx
    have hxz := hxl z (List.mem_cons_self ..)
    rw [List.foldl_cons]
    by_cases hlt : f z < f x
    · rw [decide_eq_true hlt, if_pos rfl]
      obtain ⟨hm, hbest⟩ := ih z hzl
      refine ⟨List.mem_cons_of_mem _ hm, fun y hy => ?_⟩
      rcases List.mem_cons.1 hy with rfl | hy
      · have := (hbest z (List.mem_cons_self ..)).1
        exact ⟨by omega, fun e => by omega⟩
      · exact hbest y hy
    · rw [decide_eq_false hlt, if_neg Bool.false_ne_true]
      have hxl' : (x :: l).Pairwise (· < ·) :=
        .cons (fun y hy => hxl y (List.mem_cons_of_mem _ hy)) (List.pairwise_cons.1 hzl).2
      obtain ⟨hm, hbest⟩ := ih x hxl'
      refine ⟨?_, fun y hy => ?_⟩
      · rcases List.mem_cons.1 hm with h | h
        · rw [h]; exact List.mem_cons_self ..
        · exact List.mem_cons_of_mem _ (List.mem_cons_of_mem _ h)
      · rcases List.mem_cons.1 hy with rfl | hy
        · exact hbest y (List.mem_cons_self ..)
        · rcases List.mem_cons.1 hy with rfl | hy
          · obtain ⟨h1, h2⟩ := hbest x (List.mem_cons_self ..)
            exact ⟨by omega, fun e => (h2 (by omega)).trans hxz.le⟩
          · exact hbest y (List.mem_cons_of_mem _ hy)

theorem bestBy_least {l : List Nat} {b : Nat} (hl : l.Pairwise (· < ·)) (h : bestBy (fun x y => decide (f x < f y)) l = some b) :
    b ∈ l ∧ ∀ y ∈ l, f b ≤ f y ∧ (f y = f b → b ≤ y) := by
  cases l with
  | nil => cases h
  | cons x l =>
    cases h
    exact foldl_best l x hl

end

theorem leastLoaded_spec {s : State} {d Q : Nat} (h : leastLoaded s d = some Q) : Q ∈ s.lmap ∧ Q / 16 = d ∧ ∀ P ∈ s.lmap, P / 16 = d →
    (s.cluster Q).tcbs.length ≤ (s.cluster P).tcbs.length ∧ ((s.cluster P).tcbs.length = (s.cluster Q).tcbs.length → Q ≤ P) := by
  obtain ⟨hm, hbest⟩ := bestBy_least (f := fun P => (s.cluster P).tcbs.length) ((upFrom_ascends 16 (16 * d)).filter _) h
  have hmem : ∀ P, P ∈ (upFrom (16 * d) 16).filter (fun P => s.lmap.contains P) ↔ P ∈ s.lmap ∧ P / 16 = d := fun P => by
    rw [List.mem_filter, mem_upFrom, List.contains_iff_mem, and_comm (b := P / 16 = d)]
    refine and_congr_left fun _ => ?_
    omega
  obtain ⟨hmap, hdie⟩ := (hmem Q).1 hm
  exact ⟨hmap, hdie, fun P hP hd => hbest P ((hmem P).2 ⟨hP, hd⟩)⟩

/-! ## Waiting for a frame -/

section
variable {s : State} {u since i : Nat} {va : Word} {big : Bool} (hw : (s.core u).wait = .frame va since) (h : walk s va = .regen i big)
include hw h

theorem exec_frameWaitTimeout : exec (.frameWaitTimeout u) s = .next (
    if framesOf big ≤ s.freeFrames then parkCore s u (.page va) else if since + 2 ^ 20 ≤ s.now then pageFails s u va else s) := by
  show execFrameWaitTimeout u s = _
  simp only [execFrameWaitTimeout, hw, h]

end

/-! ## The end of a regeneration -/

/-- Whether the page of a launch is present when its kernel has ended (R111). -/
def pagePresent (s : State) (page : Word) : Bool := match walk s page with | .leaf _ _ => true | _ => false

theorem pagePresent_of_leaf {s : State} {page pte : Word} {big : Bool} (h : walk s page = .leaf pte big) : pagePresent s page = true := by
  unfold pagePresent
  rw [h]

theorem pagePresent_of_absent {s : State} {page : Word} (h : ∀ p b, walk s page ≠ .leaf p b) : pagePresent s page = false := by
  unfold pagePresent
  split
  · rename_i p b e
    exact absurd e (h p b)
  · rfl

/-- The launch of a regeneration that has ended, out of the list, or failed there for the engines that wait for it; frames of a failed one are free again
(R111, R112). -/
def afterLaunch (s : State) (r : RegenWait) (ok : Bool) : State :=
  { s with regens := if !r.engines.isEmpty && !ok then s.regens.erase r ++ [{ r with failed := true }] else s.regens.erase r,
           freeFrames := if ok then s.freeFrames else s.freeFrames + framesOf r.big }

/-- Whether a core waits for a page. -/
def waitsForPage (r : RegenWait) (c : Core) : Bool := match c.wait with | .page va => pageBase va r.big == r.page | _ => false

/-- A core that waits for the page of a regeneration that has ended goes on, or raises its fault. -/
def wakeFromPage (ok : Bool) (s : State) (u : Nat) : State :=
  if ok then parkCore s u .none else match (s.core u).wait with | .page va => pageFails s u va | _ => s

/-- The end of a launch: its entry goes, the cores that wait go on or fault, and writes of STATE that wait are tried again (R111, R298). -/
theorem exec_regenerationComplete {s : State} {d j : Nat} {r : RegenWait} (h : (s.regens.filter (fun r => homeDie r.page == d))[j]? = some r)
    (hd : regenDone s r = true) (hf : r.failed = false) :
    exec (.regenerationComplete d j) s = .next (retryTcbWrites
      (((s.cores.filter (fun p => waitsForPage r p.2)).map (fun p => p.1)).foldl (wakeFromPage (pagePresent s r.page))
        (afterLaunch s r (pagePresent s r.page)))) := by
  show execRegenerationComplete d j s = _
  unfold execRegenerationComplete
  simp only [h, hd, hf, Bool.false_eq_true, Bool.true_eq_false, or_self, if_false]
  rfl

theorem mget_of_mfind_none {α : Type} {k : Nat} {d : α} : ∀ {m : AMap α}, mfind m k = none → mget m k d = d
  | [], _ => rfl
  | (j, v) :: m, h => by
    unfold mfind at h
    unfold mget
    by_cases e : k = j
    · rw [if_pos e] at h; cases h
    · rw [if_neg e] at h ⊢; exact mget_of_mfind_none h

/-- No write of a TCB's STATE waits. -/
def NoStateWrites (s : State) : Prop := ∀ k ∈ s.clusters, k.2.tcbWrites = []

theorem NoStateWrites.cluster {s : State} (h : NoStateWrites s) (P : Nat) : (s.cluster P).tcbWrites = [] := by
  by_cases hP : mfind s.clusters P = none
  · rw [State.cluster, mget_of_mfind_none hP]
    rfl
  · exact h _ (mem_of_mfind_ne_none Cluster.reset hP)

theorem NoStateWrites.modCluster {s : State} (h : NoStateWrites s) (P : Nat) {f : Cluster → Cluster} (hf : (f (s.cluster P)).tcbWrites = (s.cluster P).tcbWrites) :
    NoStateWrites (s.modCluster P f) := by
  intro k hk
  rcases mem_mset hk with rfl | hk
  · exact hf.trans (h.cluster P)
  · exact h k hk

/-- A trap takes no part in regenerations or in the writes of STATE that wait. -/
structure SparesRegens (s t : State) : Prop where
  regens : t.regens = s.regens
  freeFrames : t.freeFrames = s.freeFrames
  writes : NoStateWrites s → NoStateWrites t

theorem takeTrap_sparesRegens (s : State) (u : Nat) (x : Trap) : SparesRegens s (takeTrap s u x) := by
  have hd : SparesRegens s (dropWait s u) := by
    unfold dropWait leaveWait
    split <;> exact ⟨rfl, rfl, id⟩
  have hw : ∀ (t : State) r, SparesRegens t (writeReserved t u r) := fun t r => by
    unfold writeReserved
    dsimp only
    split
    · exact ⟨rfl, rfl, fun h => NoStateWrites.modCluster h (clusterOf u) (f := fun c => { c with mailbox := mset c.mailbox (inCluster u) r }) rfl⟩
    · exact ⟨rfl, rfl, id⟩
  unfold takeTrap
  dsimp only
  split
  · exact ⟨hd.regens, hd.freeFrames, hd.writes⟩
  · have h := hw (dropWait s u) (trapRecord (dropWait s u) u x)
    exact ⟨h.regens.trans hd.regens, h.freeFrames.trans hd.freeFrames, fun hs => h.writes (hd.writes hs)⟩

theorem pageFails_sparesRegens (s : State) (u : Nat) (va : Word) : SparesRegens s (pageFails s u va) := takeTrap_sparesRegens ..

theorem wakeFromPage_sparesRegens (ok : Bool) (s : State) (u : Nat) : SparesRegens s (wakeFromPage ok s u) := by
  unfold wakeFromPage
  split
  · exact ⟨rfl, rfl, id⟩
  · split
    · exact pageFails_sparesRegens ..
    · exact ⟨rfl, rfl, id⟩

theorem wakeAll_sparesRegens (ok : Bool) (us : List Nat) (s : State) : SparesRegens s (us.foldl (wakeFromPage ok) s) :=
  foldl_keeps (P := SparesRegens s) (fun t u ht => by
    have h := wakeFromPage_sparesRegens ok t u
    exact ⟨h.regens.trans ht.regens, h.freeFrames.trans ht.freeFrames, fun hs => h.writes (ht.writes hs)⟩) us s ⟨rfl, rfl, id⟩

/-- What a core that waits for a page becomes when it is present (R111). -/
theorem wakeAll_present (us : List Nat) (s : State) (u : Nat) :
    (us.foldl (wakeFromPage true) s).core u = (if u ∈ us then { s.core u with wait := .none } else s.core u)
      ∧ (us.foldl (wakeFromPage true) s).mem = s.mem := by
  induction us generalizing s with
  | nil => exact ⟨rfl, rfl⟩
  | cons v us ih =>
    obtain ⟨hcore, hmem⟩ := ih (wakeFromPage true s v)
    have hv : (wakeFromPage true s v).core u = if u = v then { s.core u with wait := .none } else s.core u := by
      show (s.setCore v _).core u = _
      rw [State.setCore_core]
      by_cases e : u = v
      · subst e; simp
      · simp [e]
    rw [List.foldl_cons]
    refine ⟨?_, hmem⟩
    rw [hcore, hv]
    by_cases e : u = v <;> by_cases e' : u ∈ us <;> simp [e, e']

/-- Where one core alone waits for a page, it alone faults when the page stays absent (R111). -/
theorem wakeAll_absent {u : Nat} {va : Word} (us : List Nat) {s : State} (hu : u ∈ us) (hw : (s.core u).wait = .page va)
    (hothers : ∀ w z, w ≠ u → (s.core w).wait ≠ .page z)
    (hafter : ∀ z, ((pageFails s u va).core u).wait ≠ .page z) (hsame : ∀ w, w ≠ u → (pageFails s u va).core w = s.core w) :
    us.foldl (wakeFromPage false) s = pageFails s u va := by
  have hidle : ∀ (t : State) w, (∀ z, (t.core w).wait ≠ .page z) → wakeFromPage false t w = t := fun t w h => by
    unfold wakeFromPage
    rw [if_neg Bool.false_ne_true]
    split
    · rename_i z e; exact absurd e (h z)
    · rfl
  have hdone : ∀ l : List Nat, l.foldl (wakeFromPage false) (pageFails s u va) = pageFails s u va := by
    intro l
    induction l with
    | nil => rfl
    | cons w l ih =>
      rw [List.foldl_cons, hidle _ w, ih]
      intro z
      by_cases e : w = u
      · rw [e]; exact hafter z
      · rw [hsame w e]; exact hothers w z e
  induction us with
  | nil => cases hu
  | cons w l ih =>
    rw [List.foldl_cons]
    by_cases e : w = u
    · subst e
      rw [show wakeFromPage false s w = pageFails s w va by simp [wakeFromPage, hw]]
      exact hdone l
    · rw [hidle s w (hothers w · e)]
      exact ih ((List.mem_cons.1 hu).resolve_left (Ne.symm e))

theorem mem_waiting {s : State} {u : Nat} {va : Word} {r : RegenWait} (hw : (s.core u).wait = .page va) (hp : pageBase va r.big = r.page) :
    u ∈ (s.cores.filter (fun p => waitsForPage r p.2)).map (fun p => p.1) := by
  have hlisted : mfind s.cores u ≠ none := fun h => by
    rw [State.core, mget_of_mfind_none h] at hw
    cases hw
  refine List.mem_map.2 ⟨(u, s.core u), List.mem_filter.2 ⟨mem_of_mfind_ne_none Core.reset hlisted, ?_⟩, rfl⟩
  unfold waitsForPage
  rw [hw]
  exact beq_iff_eq.2 hp

section
variable {s : State} {d j u : Nat} {r : RegenWait} (he : (s.regens.filter (fun r => homeDie r.page == d))[j]? = some r)
  (hd : regenDone s r = true) (hf : r.failed = false)
include he hd hf

theorem regenerationComplete_runs {pte va : Word} {big : Bool} (hn : NoStateWrites s) (hleaf : walk s r.page = .leaf pte big) (hw : (s.core u).wait = .page va)
    (hp : pageBase va r.big = r.page) : ∃ t, exec (.regenerationComplete d j) s = .next t ∧ t.core u = { s.core u with wait := .none } ∧ t.mem = s.mem
      ∧ t.regens = s.regens.erase r ∧ t.freeFrames = s.freeFrames := by
  refine ⟨_, exec_regenerationComplete he hd hf, ?_⟩
  rw [pagePresent_of_leaf hleaf]
  have hspares := wakeAll_sparesRegens true ((s.cores.filter (fun p => waitsForPage r p.2)).map (fun p => p.1)) (afterLaunch s r true)
  obtain ⟨hcore, hmem⟩ := wakeAll_present ((s.cores.filter (fun p => waitsForPage r p.2)).map (fun p => p.1)) (afterLaunch s r true) u
  rw [if_pos (mem_waiting hw hp)] at hcore
  rw [retryTcbWrites_none (hspares.writes hn)]
  refine ⟨hcore, hmem, hspares.regens.trans ?_, hspares.freeFrames⟩
  show (if !r.engines.isEmpty && !true then _ else _) = _
  rw [Bool.not_true, Bool.and_false, if_neg Bool.false_ne_true]

/-- One core waits for a page that stays absent, and faults (R111). -/
theorem regenerationComplete_fails {va : Word} (hn : NoStateWrites s) (habs : ∀ p b, walk s r.page ≠ .leaf p b) (hw : (s.core u).wait = .page va)
    (hp : pageBase va r.big = r.page) (hothers : ∀ w z, w ≠ u → (s.core w).wait ≠ .page z)
    (hafter : ∀ z, ((pageFails (afterLaunch s r false) u va).core u).wait ≠ .page z)
    (hsame : ∀ w, w ≠ u → (pageFails (afterLaunch s r false) u va).core w = s.core w) :
    ∃ k, exec (.regenerationComplete d j) s = .next { pageFails (afterLaunch s r false) u va with clusters := k } := by
  have hexec := exec_regenerationComplete he hd hf
  rw [pagePresent_of_absent habs, wakeAll_absent (s := afterLaunch s r false) _ (mem_waiting hw hp) hw hothers hafter hsame,
    retryTcbWrites_none ((pageFails_sparesRegens (afterLaunch s r false) u va).writes hn)] at hexec
  exact ⟨_, hexec⟩

theorem regenerationComplete_engines (hn : NoStateWrites s) (habs : ∀ p b, walk s r.page ≠ .leaf p b) (hes : r.engines ≠ []) :
    ∃ t, exec (.regenerationComplete d j) s = .next t ∧ t.regens = s.regens.erase r ++ [{ r with failed := true }]
      ∧ t.freeFrames = s.freeFrames + framesOf r.big := by
  refine ⟨_, exec_regenerationComplete he hd hf, ?_⟩
  rw [pagePresent_of_absent habs]
  have hspares := wakeAll_sparesRegens false ((s.cores.filter (fun p => waitsForPage r p.2)).map (fun p => p.1)) (afterLaunch s r false)
  rw [retryTcbWrites_none (hspares.writes hn)]
  refine ⟨hspares.regens.trans ?_, hspares.freeFrames⟩
  show (if !r.engines.isEmpty && !false then _ else _) = _
  rw [List.isEmpty_eq_false_iff.2 hes]
  rfl

end

theorem regenerationComplete_not_done {s : State} {d j : Nat} {r : RegenWait} (he : (s.regens.filter (fun r => homeDie r.page == d))[j]? = some r)
    (hd : regenDone s r = false) : exec (.regenerationComplete d j) s = .next s := by
  show execRegenerationComplete d j s = _
  unfold execRegenerationComplete
  simp only [he, hd, true_or, if_true]

end Sys2Proof.Machine

end

section
/-! What a core's release and the device's own accesses spare: the mailboxes of other clusters (R135, R342, R347). -/

namespace Sys2Proof.Machine

/-! ## Mailboxes of other clusters -/

/-- No supervisor but that of cluster P has got a record or lost one. -/
structure MailKept (P : Nat) (s t : State) : Prop where
  mailbox : ∀ K, K ≠ P → (t.cluster K).mailbox = (s.cluster K).mailbox

namespace MailKept

variable {P : Nat} {s t x : State}

theorem refl (P : Nat) (s : State) : MailKept P s s := ⟨fun _ _ => rfl⟩
theorem trans (h : MailKept P s t) (h' : MailKept P t x) : MailKept P s x :=
  ⟨fun K hK => (h'.mailbox K hK).trans (h.mailbox K hK)⟩
theorem beside (h : t.clusters = s.clusters) : MailKept P s t := ⟨fun K _ => by simp only [State.cluster, h]⟩

theorem modCluster {Q : Nat} {f : Cluster → Cluster} (h : ∀ k, (f k).mailbox = k.mailbox) : MailKept P s (s.modCluster Q f) := by
  refine ⟨fun K _ => ?_⟩
  rw [State.modCluster_eq, State.setCluster_cluster]
  split
  · rename_i e; rw [h, e]
  · rfl

/-- What changes cluster P alone. -/
theorem modOwn {f : Cluster → Cluster} : MailKept P s (s.modCluster P f) :=
  ⟨fun K hK => by rw [State.modCluster_eq, State.setCluster_cluster, if_neg hK]⟩

theorem foldl {β : Type} {f : State → β → State} {l : List β} (hf : ∀ s, ∀ b ∈ l, MailKept P s (f s b)) : ∀ s, MailKept P s (l.foldl f s) := by
  induction l with
  | nil => exact fun s => refl P s
  | cons b l ih =>
    exact fun s => (hf s b (List.mem_cons_self ..)).trans (ih (fun s c hc => hf s c (List.mem_cons_of_mem _ hc)) (f s b))

theorem modCore {u : Nat} {f : Core → Core} : MailKept P s (s.modCore u f) := beside rfl
theorem tickFree : MailKept P s s.tickFree := beside rfl
theorem dropUo {Q : Nat} {p : Nat → Bool} : MailKept P s (dropUo s Q p) := modCluster fun _ => rfl
theorem postShared {src : Source} {r : TrapRecord} : MailKept P s (postShared s P src r) := modOwn

end MailKept

section
variable (P : Nat) (s : State)

theorem performFor_mail (c : Option Nat) (ws : List (Nat × Byte)) : MailKept P s (performFor c s ws) :=
  .beside (by rw [performFor_performed c s ws])

theorem raiseFloor_mail (u a n k : Nat) : MailKept P s (s.raiseFloor u a n k) := by
  unfold State.raiseFloor
  split
  · exact .refl P s
  · exact .beside rfl

theorem performBy_mail (u : Nat) (ws : List (Nat × Byte)) : MailKept P s (performBy s u ws) := by
  exact (performFor_mail P s _ ws).trans (MailKept.foldl (fun t w _ => raiseFloor_mail P t ..) _)

theorem applyNext_mail (d : Nat) : MailKept P s (applyNext s d) := by
  unfold applyNext
  split
  · exact .refl P s
  · rename_i x _
    have h : MailKept P s (applyReplica s d x.core x.writes) := performFor_mail ..
    dsimp only
    split <;> exact h.trans (.beside rfl)

theorem applyBelow_mail (d k : Nat) : MailKept P s (applyBelow s d k) := MailKept.foldl (fun t _ _ => applyNext_mail P t d) _
theorem applyAll_mail : MailKept P s (applyAll s) := MailKept.foldl (fun t k _ => applyNext_mail P t (k % 4)) _
theorem applySeen_mail (u scope : Nat) : MailKept P s (applySeen s u scope) := MailKept.foldl (fun t d _ => applyBelow_mail P t d _) _

theorem sequenceBy_mail (u : Nat) (ws : List (Nat × Byte)) : MailKept P s (sequenceBy s u ws) := by
  have h : MailKept P s (sawUpdates (sequence s u ws) u (s.seqNext + 1)) := .beside rfl
  unfold sequenceBy
  dsimp only
  split
  · exact h.trans (applyAll_mail ..)
  · exact h.trans (applyBelow_mail ..)

theorem atomicAtHome_mail (op : AtomOp) (loc : Nat) (repl : Bool) (u : Nat) (b d : Word) : MailKept P s (atomicAtHome s op loc repl u b d).2 := by
  have hb := applyBelow_mail P s (loc / stackSize / 2) s.seqNext
  unfold atomicAtHome
  cases repl with
  | false =>
    dsimp only [Bool.false_eq_true, if_false]
    split
    · exact raiseFloor_mail ..
    · exact performBy_mail ..
  | true =>
    dsimp only [if_true]
    split
    · exact hb.trans (.beside rfl)
    · exact hb.trans ((sequenceBy_mail ..).trans (applyBelow_mail ..))

theorem homeReply_mail (op : AtomOp) (u : Nat) (va : Word) (loc : Nat) (repl : Bool) (b d : Word) : MailKept P s (homeReply s op u va loc repl b d).2 := by
  have h0 : MailKept P s (s.roundTrip (dieOf (clusterOf u)) (if repl then 4 else locDie loc)) := .beside (by rw [roundTrip_frame])
  unfold homeReply
  dsimp only
  generalize s.roundTrip (dieOf (clusterOf u)) (if repl then 4 else locDie loc) = s0 at h0 ⊢
  split
  · exact h0
  · exact h0.trans (atomicAtHome_mail ..)

end

/-- A late record of a request goes to the supervisor of the core that has sent it (R135). -/
theorem settleLate_mail (s : State) (r : Req) (x : Reply) : MailKept (clusterOf r.sender) s (settleLate s r x) := by
  unfold settleLate
  split
  · exact .refl _ s
  · split
    · exact .beside rfl
    · exact MailKept.postShared

theorem performPending_mail (s : State) (r : Req) : MailKept (clusterOf r.sender) s (performPending s r) := by
  have h0 : MailKept (clusterOf r.sender) s (if r.cut s then s.tickFree else s) := by
    split
    · exact .beside rfl
    · exact .refl _ s
  unfold performPending
  dsimp only
  split
  · exact h0.trans (settleLate_mail ..)
  · split
    · exact h0.trans ((homeReply_mail ..).trans (settleLate_mail ..))
    · exact h0.trans (MailKept.tickFree.trans (settleLate_mail ..))
    · exact .refl _ s

section
variable (s : State) (u : Nat)

theorem flushWhere_mail (p : Req → Bool) : MailKept (clusterOf u) s (flushWhere s u p) := by
  unfold flushWhere
  dsimp only
  have hreqs : MailKept (clusterOf u) s { s with reqs := s.reqs.filter (fun r => !(r.pendingOf u && p r)) } := .beside rfl
  refine hreqs.trans (MailKept.foldl (fun t r hr => ?_) _)
  have hsender : r.sender = u := by
    have h := (List.mem_filter.1 hr).2
    unfold Req.pendingOf at h
    simp only [Bool.and_eq_true, beq_iff_eq] at h
    exact h.1.1.1.1
  rw [← hsender]
  exact performPending_mail t r

theorem performEntry_mail (e : SbEntry) : MailKept (clusterOf u) s (performEntry s u e) := by
  have h0 : MailKept (clusterOf u) s (if e.release then applySeen (flushWhere s u (fun r => decide (r.since ≤ e.since))) u 4 else s) := by
    split
    · exact (flushWhere_mail ..).trans (applySeen_mail ..)
    · exact .refl _ s
  unfold performEntry
  dsimp only
  generalize (if e.release then applySeen (flushWhere s u (fun r => decide (r.since ≤ e.since))) u 4 else s) = s0 at h0 ⊢
  refine h0.trans ?_
  split
  · exact .beside rfl
  split
  · exact .beside rfl
  split
  · exact sequenceBy_mail ..
  split
  · exact MailKept.dropUo.trans (MailKept.modCore.trans (performBy_mail ..))
  · exact performBy_mail ..

theorem drainAll_mail : MailKept (clusterOf u) s (drainAll s u) := by
  unfold drainAll drainFirst
  refine MailKept.trans (t := s.modCore u _) (.beside rfl) (MailKept.foldl (fun t e _ => ?_) _)
  split
  · exact applyBelow_mail ..
  · exact performEntry_mail ..

theorem dropCopies_mail (P scope : Nat) (secs : List Nat) (seen : AMap Byte) : MailKept P s (dropCopies s u scope secs seen) := by
  refine ⟨fun K _ => ?_⟩
  refine mget_map (R := fun k k' => k'.mailbox = k.mailbox) Cluster.reset rfl _ (fun p => ?_) (fun p => ?_) K s.clusters
  · dsimp only
    split <;> rfl
  · dsimp only
    split <;> rfl

theorem uoWriteBack_mail (P scope : Nat) : MailKept P s (uoWriteBack s u scope) := by
  have hclean : MailKept P s (s.modCore u (fun c => { c.saw c.uoDirty with uoDirty := [] })) := .beside rfl
  have hdrop : ∀ p, MailKept P s (dropUo (s.modCore u (fun c => { c.saw c.uoDirty with uoDirty := [] })) (clusterOf u) p) := fun p =>
    hclean.trans .dropUo
  unfold uoWriteBack
  dsimp only
  split
  · exact .refl P s
  split
  · split
    · exact hclean.trans (.modCluster fun _ => rfl)
    · exact (hdrop _).trans (.modCluster fun _ => rfl)
  · split
    · exact (hdrop _).trans ((performFor_mail ..).trans ((dropCopies_mail ..).trans (.beside rfl)))
    · exact (hdrop _).trans ((performFor_mail ..).trans (dropCopies_mail ..))

/-- A release of a core reports to its own supervisor alone (R135, R347). -/
theorem releaseTo_mail (scope : Nat) : MailKept (clusterOf u) s (releaseTo s u scope) :=
  (flushWhere_mail ..).trans ((drainAll_mail ..).trans ((applySeen_mail ..).trans (uoWriteBack_mail ..)))

end

/-! ## Accesses of an engine or of the device itself -/

section
variable {P : Nat} {s t x : State} {w : Who} (hw : w.core = none)

theorem Looks.mail {α : Type} {m : M α} (h : Looks m) : Keeps (MailKept P x) m := fun s a t hs e => hs.trans (.beside (h s a t e).clusters)

theorem fillSectors_mail (Q : Nat) (locs : List Nat) : MailKept P s (fillSectors s Q locs) := by
  unfold fillSectors
  exact .modCluster fun _ => rfl

theorem notifyRead_mail {pa : Nat} {v : Word} (h : notifyRead s pa = some (v, t)) : MailKept P s t := by
  unfold notifyRead at h
  (repeat' split at h) <;> cases h <;> exact .beside rfl

theorem notifyWrite_mail {pa : Nat} {v : Word} (h : notifyWrite s pa v = some t) : MailKept P s t := by
  unfold notifyWrite at h
  (repeat' split at h) <;> cases h <;> exact .beside rfl

theorem flushUo_mail (cl sec : Nat → Bool) : MailKept P s (flushUo s cl sec) := by
  unfold flushUo
  extract_lets hit named Ps ws s1 s2
  have h : MailKept P s s2 := (MailKept.foldl (fun t Q _ => MailKept.dropUo) s).trans (.beside rfl)
  split
  · exact h
  · exact h.trans (performFor_mail ..)

include hw

theorem uoBytes_engine_mail (locs : List Nat) : Keeps (MailKept P x) (uoBytes w locs) := by
  intro s bs t h e
  unfold uoBytes at e
  rw [hw] at e
  extract_lets c held old k others stale s1 bs' s2 at e
  have h1 : MailKept P s s1 := by
    dsimp only [s1]
    split
    · exact .tickFree
    · exact .refl P s
  have h2 : MailKept P s s2 := by
    dsimp only [s2]
    split
    · exact h1.trans (fillSectors_mail ..)
    · exact h1
  simp only [Except.ok.injEq, Prod.mk.injEq] at e
  rw [← e.2]
  exact h.trans h2

theorem farBytes_engine_mail (p : Piece) (locs : List Nat) : Keeps (MailKept P x) (farBytes w p locs) := by
  intro s bs t h e
  unfold farBytes at e
  rw [hw] at e
  dsimp only at e
  split at e
  · cases e; exact h
  split at e
  · exact uoBytes_engine_mail hw locs s bs t h e
  · cases e; exact h

theorem readPiece_engine_mail (p : Piece) : Keeps (MailKept P x) (readPiece w p) := by
  intro s bs t h e
  have hb : ∀ loc n, beforeRead s w p loc n = s := fun loc n => by unfold beforeRead; rw [hw]
  unfold readPiece at e
  split at e
  · rw [hb] at e
    exact Keeps.bind (farBytes_engine_mail hw p _) (fun _ => .bind .get fun _ => .pure _) s bs t h e
  · split at e
    · split at e
      · rename_i hn; cases e; rw [hb] at hn; exact h.trans (notifyRead_mail hn)
      · cases e
    · cases e
  · exact (remoteLoad_looks w _ _).mail s bs t h e
  · cases e

theorem readPieces_engine_mail : ∀ l, Keeps (MailKept P x) (readPieces w l)
  | [] => .pure _
  | p :: l => .bind (readPiece_engine_mail hw p) fun _ => .bind (readPieces_engine_mail l) fun _ => .pure _

theorem loadBytes_engine_mail (va : Word) (n : Nat) : Keeps (MailKept P x) (loadBytes w va n) :=
  .bind (resolve_looks w _ _ _).mail fun ps => .bind (fun s a t h e => by rw [noPoison_state e]; exact h) fun _ => readPieces_engine_mail hw ps

theorem writePiece_engine_mail (p : Piece) (bs : List Byte) (tag : Option Half) (rel : Bool) : Keeps (MailKept P x) (writePiece w p bs tag rel) := by
  intro s a t h e
  unfold writePiece at e
  rw [hw] at e
  split at e
  · rename_i loc _
    dsimp only at e
    cases e
    refine h.trans ?_
    generalize pieceWrites loc bs (if p.typed then tag else none) = ws
    have hd : MailKept P s (dropHalves s ws) := .beside rfl
    have hseq : MailKept P (dropHalves s ws) (sequence (dropHalves s ws) noCore ws) := .beside rfl
    split
    · exact hd.trans (hseq.trans (applyAll_mail ..))
    · split
      · exact hd.trans ((flushUo_mail ..).trans (performFor_mail ..))
      · exact hd.trans (performFor_mail ..)
  · split at e
    · split at e
      · rename_i hn; cases e; exact h.trans (notifyWrite_mail hn)
      · cases e
    · cases e
  · split at e
    · cases e
    · dsimp only at e
      split at e
      · rename_i hf
        cases e
        have hc : (farReply { s with net := { s.net with sent := s.net.sent + 1 } } p.va none).2.clusters = s.clusters := rfl
        rw [hf] at hc
        exact h.trans (.beside hc)
      · cases e
  · cases e

theorem writePieces_engine_mail (tag : Option Half) (rel : Bool) : ∀ l bs, Keeps (MailKept P x) (writePieces w tag rel l bs)
  | [], _ => .pure _
  | p :: l, _ => .bind (writePiece_engine_mail hw p _ tag rel) fun _ => writePieces_engine_mail tag rel l _

theorem storeBytes_engine_mail (acc : Acc) (va : Word) (bs : List Byte) (tag : Option Half) (rel : Bool) : Keeps (MailKept P x) (storeBytes w acc va bs tag rel) :=
  .bind (resolve_looks w _ _ _).mail fun ps => .bind (fun s a t h e => by rw [ringsFree_state e]; exact h) fun _ =>
    .bind (fun s a t h e => by rw [noDead_state e]; exact h) fun _ => writePieces_engine_mail hw tag rel ps bs

end

end Sys2Proof.Machine

end

section
/-! Accesses and the device's writes of STATE leave tasks, frames and supervisors in place (R290, R342). -/

namespace Sys2Proof.Machine

/-! ## What accesses and writes of STATE leave in place -/

/-- Tasks stand where they stood, with their frames; no cluster's table of forwarding entries or supervisor has changed, no core runs another task or stops, and no
supervisor but that of cluster P has got a record. -/
structure Unmoved (P : Nat) (s t : State) : Prop where
  tcbs : ∀ K, (t.cluster K).tcbs = (s.cluster K).tcbs
  frames : ∀ K, (t.cluster K).frames = (s.cluster K).frames
  forwards : ∀ K, (t.cluster K).forwards = (s.cluster K).forwards
  supLost : ∀ K, (t.cluster K).supLost = (s.cluster K).supLost
  status : ∀ v, (t.core v).status = (s.core v).status
  task : ∀ v, (t.core v).task = (s.core v).task
  mail : MailKept P s t

namespace Unmoved

variable {P : Nat} {s t x : State}

theorem refl (P : Nat) (s : State) : Unmoved P s s := ⟨fun _ => rfl, fun _ => rfl, fun _ => rfl, fun _ => rfl, fun _ => rfl, fun _ => rfl, .refl P s⟩

theorem trans (h : Unmoved P s t) (h' : Unmoved P t x) : Unmoved P s x :=
  ⟨fun K => (h'.tcbs K).trans (h.tcbs K), fun K => (h'.frames K).trans (h.frames K), fun K => (h'.forwards K).trans (h.forwards K),
    fun K => (h'.supLost K).trans (h.supLost K), fun v => (h'.status v).trans (h.status v), fun v => (h'.task v).trans (h.task v), h.mail.trans h'.mail⟩

theorem of_accessed (h : Accessed s t) (hm : MailKept P s t) : Unmoved P s t := by
  obtain ⟨-, hcores, hclusters, -⟩ := h
  exact ⟨fun K => by rw [hclusters K], fun K => by rw [hclusters K], fun K => by rw [hclusters K], fun K => by rw [hclusters K],
    fun v => by rw [hcores v], fun v => by rw [hcores v], hm⟩

theorem beside (h : t.cores = s.cores) (h' : t.clusters = s.clusters) : Unmoved P s t := by
  have hcl : ∀ K, t.cluster K = s.cluster K := fun K => by simp only [State.cluster, h']
  have hco : ∀ v, t.core v = s.core v := fun v => by simp only [State.core, h]
  exact ⟨fun K => by rw [hcl], fun K => by rw [hcl], fun K => by rw [hcl], fun K => by rw [hcl], fun v => by rw [hco], fun v => by rw [hco], .beside h'⟩

theorem modCore {u : Nat} {f : Core → Core} (hs : ∀ c, (f c).status = c.status) (ht : ∀ c, (f c).task = c.task) : Unmoved P s (s.modCore u f) := by
  refine ⟨fun _ => rfl, fun _ => rfl, fun _ => rfl, fun _ => rfl, fun v => ?_, fun v => ?_, .modCore⟩ <;>
    rw [State.modCore_eq, State.setCore_core] <;> split
  · rename_i e; rw [hs, e]
  · rfl
  · rename_i e; rw [ht, e]
  · rfl

theorem foldl {β : Type} {f : State → β → State} (hf : ∀ s b, Unmoved P s (f s b)) (l : List β) (s : State) : Unmoved P s (l.foldl f s) :=
  foldl_keeps (P := Unmoved P s) (fun t b ht => ht.trans (hf t b)) l s (refl P s)

/-- A write of STATE takes its place behind those that wait. -/
theorem addStateWrite (Q : Nat) (w : Word × Nat) : Unmoved P s (s.modCluster Q (fun c => { c with tcbWrites := c.tcbWrites ++ [w] })) := by
  have hcl : ∀ K, ∃ l, (s.modCluster Q (fun c => { c with tcbWrites := c.tcbWrites ++ [w] })).cluster K = { s.cluster K with tcbWrites := l } := fun K => by
    rw [State.modCluster_eq, State.setCluster_cluster]
    split
    · rename_i e; exact ⟨_, by rw [e]⟩
    · exact ⟨_, rfl⟩
  refine ⟨fun K => ?_, fun K => ?_, fun K => ?_, fun K => ?_, fun _ => rfl, fun _ => rfl, .modCluster fun _ => rfl⟩ <;>
    (obtain ⟨l, hl⟩ := hcl K; rw [hl])

end Unmoved

section
variable {P : Nat} {s t : State}

theorem performWrites_unmoved (s : State) (ws : List (Nat × Byte)) : Unmoved P s (performWrites s ws) :=
  .of_accessed (performFor_accessed none s ws) (performFor_mail P s none ws)

theorem releaseTo_unmoved (s : State) (u scope : Nat) : Unmoved (clusterOf u) s (releaseTo s u scope) :=
  .of_accessed (releaseTo_accessed s u scope) (releaseTo_mail s u scope)

theorem deviceRead_unmoved {w : Who} (hw : w.core = none) {va : Word} {n : Nat} {bs : List Byte} (h : deviceRead s w va n = some (bs, t)) : Unmoved P s t := by
  unfold deviceRead at h
  split at h
  · rename_i hr
    cases h
    exact .of_accessed (loadBytes_accesses _ _ _ _ _ _ hr) (loadBytes_engine_mail hw _ _ _ _ _ (.refl P s) hr)
  · cases h

theorem storeBytes_unmoved {w : Who} (hw : w.core = none) {acc : Acc} {va : Word} {bs : List Byte} {tag : Option Half} {rel : Bool} {a : Unit}
    (h : storeBytes w acc va bs tag rel s = .ok (a, t)) : Unmoved P s t :=
  .of_accessed (storeBytes_accesses _ _ _ _ _ _ _ _ _ h) (storeBytes_engine_mail hw _ _ _ _ _ _ _ _ (.refl P s) h)

theorem deviceWrite_unmoved {w : Who} (hw : w.core = none) {va : Word} {bs : List Byte} (h : deviceWrite s w va bs = some t) : Unmoved P s t := by
  unfold deviceWrite at h
  split at h
  · rename_i hr; cases h; exact storeBytes_unmoved hw hr
  · cases h

theorem launchRegen_unmoved {page : Word} {big : Bool} {i : Nat} {es : List Source} (h : launchRegen s page big i es = some t) : Unmoved P s t := by
  unfold launchRegen at h
  simp only [Option.bind_eq_bind, Option.bind_eq_some_iff] at h
  obtain ⟨⟨bs, s1⟩, h1, n, -, q, -, ⟨tb, s2⟩, h2, h⟩ := h
  split at h
  · cases h
  · obtain ⟨s3, h3, h⟩ := Option.bind_eq_some_iff.1 h
    cases h
    refine (deviceRead_unmoved rfl h1).trans ((deviceRead_unmoved rfl h2).trans ((deviceWrite_unmoved rfl h3).trans ?_))
    unfold State.modQueue
    split <;> exact .beside rfl rfl

theorem awaitFrame_unmoved (s : State) (page : Word) (src : Option Source) : Unmoved P s (awaitFrame s page src).2 := by
  unfold awaitFrame
  split
  · exact .refl P s
  · split
    · exact .beside rfl rfl
    · split
      · exact .beside rfl rfl
      · exact .refl P s

theorem faultRegen_unmoved (s : State) (va : Word) (src : Option Source) : Unmoved P s (faultRegen s va src).2 := by
  unfold faultRegen
  split
  · dsimp only
    split
    · exact .beside rfl rfl
    split
    · exact .beside rfl rfl
    split
    · exact awaitFrame_unmoved ..
    · split
      · rename_i hl
        have hwaits : ∀ l, Unmoved P s { s with frameWaits := l } := fun l => .beside rfl rfl
        exact (hwaits _).trans ((launchRegen_unmoved hl).trans (.beside rfl rfl))
      · exact .beside rfl rfl
  · exact .refl P s
  · exact .refl P s

/-- The device's write of STATE in a memory TCB (R290). -/
theorem writeTcbState_unmoved (s : State) (Q : Nat) (tcba : Word) (v : Nat) : Unmoved P s (writeTcbState s Q tcba v) := by
  unfold writeTcbState
  split
  · exact .refl P s
  dsimp only
  split
  · exact .addStateWrite ..
  split
  · rename_i h; exact storeBytes_unmoved rfl h
  · rename_i e _
    have hw : Unmoved P s (waitFor s (.tcb Q) (.error e : Except Stop Unit)).2 := by
      unfold waitFor
      split
      · exact faultRegen_unmoved ..
      · exact .refl P s
      · exact .refl P s
    split
    · rename_i h; rw [h] at hw; exact hw.trans (.addStateWrite ..)
    · rename_i h; rw [h] at hw; exact hw

end

end Sys2Proof.Machine

end

section
/-! A task that ships, followed through its stow and its move (R110, R310, R350, R351). -/

namespace Sys2Proof.Machine

/-! ## The image of a task -/

/-- A core that holds all that a stow image shows of another's task (R351); LATCHED is given to the image apart. -/
structure Imaged (c c' : Core) : Prop where
  g : c'.g = c.g
  v : c'.v = c.v
  h : c'.h = c.h
  vt : c'.vt = c.vt
  lcnt : c'.lcnt = c.lcnt
  lbeg : c'.lbeg = c.lbeg
  lend : c'.lend = c.lend
  kseq : c'.kseq = c.kseq
  seqNo : c'.seqNo = c.seqNo
  ctx : ∃ l, c'.ctx = { c.ctx with latched := l }

theorem stowImage_of_imaged {s t : State} {u : Nat} (h : Imaged (s.core u) (t.core u)) (ht : t.taskOf u = s.taskOf u) (pc : Word) (latched trapped : Bool)
    (msgs : Nat) : stowImage t u pc latched trapped msgs = stowImage s u pc latched trapped msgs := by
  obtain ⟨hg, hv, hh, hvt, hlcnt, hlbeg, hlend, hkseq, hseqNo, l, hctx⟩ := h
  unfold stowImage imageFlags senderSeq isAct Core.rg Core.rv Core.rh Core.kernSeq
  simp only [hg, hv, hh, hvt, hlcnt, hlbeg, hlend, hkseq, hseqNo, hctx, ht]

/-! ## What a stow finds when it writes the image -/

/-- The state in which a stow writes the image: the watchdog is latched, the wait is discarded, and the accesses are performed (R350, R353). -/
def stowReady (s : State) (u : Nat) : State := releaseTo (dropWait (latchExpired s u) u) u 4

section
variable (s : State) (u : Nat)

theorem latchExpired_unmoved (P : Nat) : Unmoved P s (latchExpired s u) := by
  unfold latchExpired
  dsimp only
  split
  · exact .modCore (fun _ => rfl) (fun _ => rfl)
  · exact .refl P s

theorem dropWait_unmoved (P : Nat) : Unmoved P s (dropWait s u) := by
  obtain ⟨hcore, hothers, -, hcl, -⟩ := dropWait_spec s u
  have hc : ∀ K, (dropWait s u).cluster K = s.cluster K := fun K => by simp only [State.cluster, hcl]
  have hv : ∀ v, ((dropWait s u).core v).status = (s.core v).status ∧ ((dropWait s u).core v).task = (s.core v).task := fun v => by
    by_cases e : v = u
    · rw [e, hcore]; exact ⟨rfl, rfl⟩
    · rw [hothers v e]; exact ⟨rfl, rfl⟩
  exact ⟨fun K => by rw [hc], fun K => by rw [hc], fun K => by rw [hc], fun K => by rw [hc], fun v => (hv v).1, fun v => (hv v).2, .beside hcl⟩

theorem stowReady_unmoved : Unmoved (clusterOf u) s (stowReady s u) :=
  (latchExpired_unmoved ..).trans ((dropWait_unmoved ..).trans (releaseTo_unmoved ..))

theorem stowReady_taskOf : (stowReady s u).taskOf u = s.taskOf u := by
  unfold State.taskOf
  rw [(stowReady_unmoved s u).task u, (stowReady_unmoved s u).tcbs]

theorem latchExpired_core : ∃ l, (latchExpired s u).core u = { s.core u with ctx := { (s.core u).ctx with latched := l } } := by
  unfold latchExpired
  dsimp only
  split
  · exact ⟨true, State.setCore_core_self ..⟩
  · exact ⟨(s.core u).ctx.latched, rfl⟩

/-- Of core u, a stow finds what stood there, with LATCHED as it is by then. -/
theorem stowReady_core : Imaged (s.core u) ((stowReady s u).core u) ∧ ((stowReady s u).core u).pc = (s.core u).pc
    ∧ ((stowReady s u).core u).ctx.latched = ((latchExpired s u).core u).ctx.latched ∧ ((stowReady s u).core u).spilled = (s.core u).spilled := by
  obtain ⟨l, hl⟩ := latchExpired_core s u
  have hd := (dropWait_spec (latchExpired s u) u).1
  have hr := (releaseTo_accessed (dropWait (latchExpired s u) u) u 4).2.1 u
  rw [hd, hl] at hr
  unfold stowReady
  rw [hr]
  exact ⟨⟨rfl, rfl, rfl, rfl, rfl, rfl, rfl, rfl, rfl, l, rfl⟩, rfl, by rw [hl]; rfl, rfl⟩

end

/-! ## Clusters beside that of the task -/

/-- No cluster but P has got a task or a record, or lost one. -/
structure Elsewhere (P : Nat) (s t : State) : Prop where
  tcbs : ∀ K, K ≠ P → (t.cluster K).tcbs = (s.cluster K).tcbs
  frames : ∀ K, K ≠ P → (t.cluster K).frames = (s.cluster K).frames
  supLost : ∀ K, K ≠ P → (t.cluster K).supLost = (s.cluster K).supLost
  mailbox : ∀ K, K ≠ P → (t.cluster K).mailbox = (s.cluster K).mailbox

namespace Elsewhere

variable {P : Nat} {s t x : State}

theorem trans (h : Elsewhere P s t) (h' : Elsewhere P t x) : Elsewhere P s x :=
  ⟨fun K hK => (h'.tcbs K hK).trans (h.tcbs K hK), fun K hK => (h'.frames K hK).trans (h.frames K hK), fun K hK => (h'.supLost K hK).trans (h.supLost K hK),
    fun K hK => (h'.mailbox K hK).trans (h.mailbox K hK)⟩

theorem of_cluster (h : ∀ K, K ≠ P → t.cluster K = s.cluster K) : Elsewhere P s t :=
  ⟨fun K hK => by rw [h K hK], fun K hK => by rw [h K hK], fun K hK => by rw [h K hK], fun K hK => by rw [h K hK]⟩

theorem of_unmoved (h : Unmoved P s t) : Elsewhere P s t := ⟨fun K _ => h.tcbs K, fun K _ => h.frames K, fun K _ => h.supLost K, h.mail.mailbox⟩

end Elsewhere

/-- A change of cluster P alone, of its tasks, levels and rings: no other cluster differs, and no core runs another task or stops. -/
structure OwnCluster (P : Nat) (s t : State) : Prop where
  others : ∀ K, K ≠ P → t.cluster K = s.cluster K
  status : ∀ v, (t.core v).status = (s.core v).status
  task : ∀ v, (t.core v).task = (s.core v).task

namespace OwnCluster

variable {P : Nat} {s t x : State}

theorem refl (P : Nat) (s : State) : OwnCluster P s s := ⟨fun _ _ => rfl, fun _ => rfl, fun _ => rfl⟩
theorem trans (h : OwnCluster P s t) (h' : OwnCluster P t x) : OwnCluster P s x :=
  ⟨fun K hK => (h'.others K hK).trans (h.others K hK), fun v => (h'.status v).trans (h.status v), fun v => (h'.task v).trans (h.task v)⟩

theorem modCluster (s : State) (P : Nat) (f : Cluster → Cluster) : OwnCluster P s (s.modCluster P f) :=
  ⟨fun K hK => by rw [State.modCluster_eq, State.setCluster_cluster, if_neg hK], fun _ => rfl, fun _ => rfl⟩

theorem modTask (s : State) (P i : Nat) (f : Task → Task) : OwnCluster P s (s.modTask P i f) := by
  unfold State.modTask
  split
  · exact modCluster ..
  · exact refl P s

theorem foldl {β : Type} {f : State → β → State} (hf : ∀ s b, OwnCluster P s (f s b)) (l : List β) (s : State) : OwnCluster P s (l.foldl f s) :=
  foldl_keeps (P := OwnCluster P s) (fun t b ht => ht.trans (hf t b)) l s (refl P s)

end OwnCluster

section
variable (s : State) (P i : Nat)

theorem releaseHandle_own (h : Handle) : OwnCluster P s (releaseHandle s P h) := by
  unfold releaseHandle
  split
  · exact .modCluster ..
  · exact .refl P s

theorem enterLevel_own (head : Bool) : OwnCluster P s (enterLevel s P i head) := by
  unfold enterLevel
  split
  · exact .refl P s
  · exact (OwnCluster.modTask ..).trans (.modCluster ..)

theorem enterCache_own (t : Task) : OwnCluster P s (enterCache s P i t) := by
  unfold enterCache
  split
  · exact .modCluster ..
  · dsimp only
    split
    · exact (OwnCluster.modCluster ..).trans (enterLevel_own ..)
    · exact .modCluster ..

theorem pullBacklog_own : OwnCluster P s (pullBacklog s P) := by
  unfold pullBacklog
  split
  · exact (OwnCluster.modCluster ..).trans (enterCache_own ..)
  · exact .refl P s

/-- A task that leaves its cache entry changes its own cluster, and the deques of that cluster's cores (R193, R296). -/
theorem dropEntry_own : OwnCluster P s (dropEntry s P i) := by
  unfold dropEntry
  split
  · exact .refl P s
  · extract_lets s1 s2 s3
    have h1 : OwnCluster P s s1 := (OwnCluster.modCluster s P _).trans (.foldl (fun t h => releaseHandle_own t P h) _ _)
    have h2 : OwnCluster P s1 s2 := .modCluster ..
    have hcores : ∀ v, (s3.core v).status = (s2.core v).status ∧ (s3.core v).task = (s2.core v).task := fun v => by
      refine mget_map (R := fun c c' => c'.status = c.status ∧ c'.task = c.task) Core.reset ⟨rfl, rfl⟩ _ (fun p => ?_) (fun p => ?_) v s2.cores
      · rfl
      · dsimp only
        split <;> exact ⟨rfl, rfl⟩
    have h3 : OwnCluster P s2 s3 := ⟨fun _ _ => rfl, fun v => (hcores v).1, fun v => (hcores v).2⟩
    exact h1.trans (h2.trans (h3.trans (pullBacklog_own ..)))

end

/-! ## The stow -/

/-- A task whose stow has ended in a trap (R350). -/
def Task.stowedFor (t : Task) (c : Core) (u now : Nat) (r : TrapRecord) : Task :=
  { t with stowed := true, status := .trapped, handles := c.h.toList, msgs := c.inbox, ports := c.rxPorts, trapRec := some r, lastOn := some u, lastAt := now }

theorem writeContext_unmoved (P : Nat) (s : State) (Q i : Nat) (ms : List Msg) : Unmoved P s (writeContext s Q i ms) := by
  unfold writeContext
  refine Unmoved.foldl (fun t m => ?_) _ _
  have h : Unmoved P t { t with freeCtr := t.freeCtr + 8 } := .beside rfl rfl
  exact h.trans (performWrites_unmoved ..)

theorem writeTcbState_zero (s : State) (P v : Nat) : writeTcbState s P 0 v = s := by
  unfold writeTcbState
  exact if_pos rfl

/-- The state in which a stow has written the image and the context buffer of entry n of core u's task, before it frees the core. -/
def stowFilled (x : State) (u n : Nat) (img : List Byte) : State :=
  writeContext (performWrites x (writesAt (frameLoc x (clusterOf u) n + 0) img)) (clusterOf u) n ((x.core u).spilled.take 16)

/-- And its entry is stowed. -/
def stowEntered (x : State) (u n : Nat) (img : List Byte) (r : TrapRecord) : State :=
  ((stowFilled x u n img).modCore u Core.vacated).modTask (clusterOf u) n (fun t => t.stowedFor (x.core u) u ((stowFilled x u n img).modCore u Core.vacated).now r)

section
variable {x : State} {u n : Nat} {img : List Byte} {task : Task} {r : TrapRecord}

theorem stowFilled_unmoved (x : State) (u n : Nat) (img : List Byte) : Unmoved (clusterOf u) x (stowFilled x u n img) :=
  (performWrites_unmoved ..).trans (writeContext_unmoved ..)

theorem stowEntered_eq (ht : mfind (x.cluster (clusterOf u)).tcbs n = some task) : stowEntered x u n img r
    = ((stowFilled x u n img).modCore u Core.vacated).modCluster (clusterOf u)
      (fun c => { c with tcbs := mset c.tcbs n (task.stowedFor (x.core u) u ((stowFilled x u n img).modCore u Core.vacated).now r) }) := by
  have hfind : mfind (((stowFilled x u n img).modCore u Core.vacated).cluster (clusterOf u)).tcbs n = some task := by
    rw [State.modCore_eq, State.setCore_cluster, (stowFilled_unmoved x u n img).tcbs]
    exact ht
  unfold stowEntered State.modTask
  rw [hfind]

/-- With the entry stowed, core u is free, the entry holds the task, and its cluster's frames and forwarding entries are what
they were; no other cluster has changed. -/
theorem stowEntered_spec (ht : mfind (x.cluster (clusterOf u)).tcbs n = some task) :
    ((stowEntered x u n img r).core u).status = .free ∧ ((stowEntered x u n img r).core u).task = none
      ∧ (∃ now, mfind ((stowEntered x u n img r).cluster (clusterOf u)).tcbs n = some (task.stowedFor (x.core u) u now r))
      ∧ ((stowEntered x u n img r).cluster (clusterOf u)).frames = (x.cluster (clusterOf u)).frames
      ∧ ((stowEntered x u n img r).cluster (clusterOf u)).forwards = (x.cluster (clusterOf u)).forwards
      ∧ Elsewhere (clusterOf u) x (stowEntered x u n img r) := by
  have hfilled := stowFilled_unmoved x u n img
  rw [stowEntered_eq ht]
  generalize stowFilled x u n img = y at hfilled
  have helse : Elsewhere (clusterOf u) x (y.modCore u Core.vacated) := (Elsewhere.of_unmoved hfilled).trans (.of_cluster fun _ _ => rfl)
  have hcore : (y.modCore u Core.vacated).core u = (y.core u).vacated := by rw [State.modCore_eq, State.setCore_core_self]
  refine ⟨congrArg Core.status hcore, congrArg Core.task hcore, ⟨y.now, ?_⟩, ?_, ?_, helse.trans (.of_cluster (OwnCluster.modCluster ..).others)⟩
  · rw [State.modCluster_eq, State.setCluster_cluster_self]
    exact mfind_mset_self ..
  · rw [State.modCluster_eq, State.setCluster_cluster_self]
    exact hfilled.frames _
  · rw [State.modCluster_eq, State.setCluster_cluster_self]
    exact hfilled.forwards _

/-- Where core u held no message, the frame of the entry holds the image. -/
theorem stowEntered_bytes (ht : mfind (x.cluster (clusterOf u)).tcbs n = some task) (hm : (x.core u).spilled = []) :
    (stowEntered x u n img r).mem.bytes (frameLoc x (clusterOf u) n) img.length = img := by
  have hmem : (stowFilled x u n img).mem = x.mem.pokes (writesAt (frameLoc x (clusterOf u) n) img) := by
    unfold stowFilled
    rw [hm]
    exact performFor_mem ..
  rw [stowEntered_eq ht]
  show (stowFilled x u n img).mem.bytes _ _ = _
  rw [hmem]
  exact Memory.bytes_writesAt ..

end

section
variable {s : State} {u n : Nat} {task : Task} {r : TrapRecord}

/-- The image as a stow writes it. -/
def stowedImage (s : State) (u : Nat) : List Byte :=
  stowImage (stowReady s u) u ((stowReady s u).core u).pc ((stowReady s u).core u).ctx.latched true (min 16 ((stowReady s u).core u).spilled.length)

theorem stowedImage_eq (hm : (s.core u).spilled = []) :
    stowedImage s u = stowImage s u (s.core u).pc ((latchExpired s u).core u).ctx.latched true 0 := by
  obtain ⟨himaged, hpc, hlatched, hspilled⟩ := stowReady_core s u
  unfold stowedImage
  rw [stowImage_of_imaged himaged (stowReady_taskOf s u), hpc, hlatched, hspilled, hm]
  rfl

theorem stowOn_trapped (hi : (s.core u).task = some n) (ht : s.taskOf u = some task) (ha : task.stowa = 0) :
    stowOn s u (some r) = some (writeTcbState (stowEntered (stowReady s u) u n (stowedImage s u) r) (clusterOf u) task.tcba 1) := by
  have himage : writeImage (stowReady s u) (clusterOf u) n task 0 (stowedImage s u)
      = some (performWrites (stowReady s u) (writesAt (frameLoc (stowReady s u) (clusterOf u) n + 0) (stowedImage s u))) := if_pos ha
  unfold stowedImage stowReady at himage
  unfold stowOn
  rw [hi, ht]
  dsimp only
  unfold stowEntered stowFilled stowedImage stowReady Task.stowedFor
  simp only [Option.isSome_some, himage, if_true]

end

/-! ## The move -/

theorem Memory.bytes_length (m : Memory) (a n : Nat) : (m.bytes a n).length = n := by
  unfold Memory.bytes
  rw [List.length_map, upFrom_length]

section
variable {s : State} {P Q n j : Nat} {task : Task} {src : Source} {r : TrapRecord}

/-- A stowed task whose image stands in its frame moves to another cluster with it (R310). -/
theorem relocate_stowed (ht : mfind (s.cluster P).tcbs n = some task) (hst : task.stowed = true) (ha : task.stowa = 0)
    (hf : (s.cluster P).forwards.length < 64) (hj : freeEntry (s.cluster Q) = some j) (hQ : Q ≠ P) :
    ∃ t, relocate s P Q n = some (j, t) ∧ mfind (t.cluster Q).tcbs j = some task ∧ (t.cluster Q).mailbox = (s.cluster Q).mailbox
      ∧ (t.cluster Q).supLost = (s.cluster Q).supLost ∧ (∀ v, (t.core v).status = (s.core v).status ∧ (t.core v).task = (s.core v).task)
      ∧ t.mem.bytes ((s.cluster Q).frames + 1536 * j) 1536 = s.mem.bytes (frameLoc s P n) 1536 := by
  have hcopy : ¬ (task.footL ≠ 0 ∧ task.stowed = false) := fun h => by rw [hst] at h; exact absurd h.2 (by decide)
  unfold relocate
  simp only [ht, hj]
  rw [if_neg (Nat.not_le.2 hf), if_neg hcopy, if_pos ⟨hst, ha⟩]
  have hdrop : OwnCluster P s (dropEntry (s.modTask P n (fun t => { t with handles := [] })) P n) := (OwnCluster.modTask ..).trans (dropEntry_own ..)
  generalize dropEntry (s.modTask P n (fun t => { t with handles := [] })) P n = y at hdrop
  have hown := hdrop.trans (.modCluster y P (fun c => { c with forwards := c.forwards ++ [⟨task.kern, task.lastOn, Q, j, y.now⟩] }))
  generalize y.modCluster P (fun c => { c with forwards := c.forwards ++ [⟨task.kern, task.lastOn, Q, j, y.now⟩] }) = x at hown
  have hframes : frameLoc (x.modCluster Q (fun c => { c with tcbs := mset c.tcbs j task })) Q j = (s.cluster Q).frames + 1536 * j := by
    unfold frameLoc
    rw [State.modCluster_eq, State.setCluster_cluster_self, hown.others Q hQ]
  have hwrites := performWrites_unmoved (P := P) (x.modCluster Q (fun c => { c with tcbs := mset c.tcbs j task }))
    (writesAt ((s.cluster Q).frames + 1536 * j) (s.mem.bytes (frameLoc s P n) 1536))
  rw [hframes]
  refine ⟨_, rfl, ?_, ?_, ?_, fun v => ⟨(hwrites.status v).trans (hown.status v), (hwrites.task v).trans (hown.task v)⟩, ?_⟩
  · rw [hwrites.tcbs, State.modCluster_eq, State.setCluster_cluster_self]
    exact mfind_mset_self ..
  · rw [hwrites.mail.mailbox Q hQ, State.modCluster_eq, State.setCluster_cluster_self]
    show (x.cluster Q).mailbox = _
    rw [hown.others Q hQ]
  · rw [hwrites.supLost, State.modCluster_eq, State.setCluster_cluster_self]
    show (x.cluster Q).supLost = _
    rw [hown.others Q hQ]
  · have hbytes := Memory.bytes_writesAt (s.mem.bytes (frameLoc s P n) 1536) x.mem ((s.cluster Q).frames + 1536 * j)
    rw [Memory.bytes_length] at hbytes
    rw [show (performWrites (x.modCluster Q _) _).mem = _ from performFor_mem ..]
    exact hbytes

/-- The first of consecutive numbers that meets a condition. -/
theorem find?_upFrom {p : Nat → Bool} {n k : Nat} : ∀ {a : Nat}, a ≤ k → k < a + n → p k = true → (∀ l, a ≤ l → l < k → p l = false) →
    (upFrom a n).find? p = some k := by
  induction n with
  | zero => intro a h1 h2; omega
  | succ n ih =>
    intro a h1 h2 hk hbelow
    rw [upFrom, List.find?_cons]
    rcases Nat.eq_or_lt_of_le h1 with rfl | hlt
    · rw [hk]
    · rw [hbelow a le_rfl hlt]
      exact ih hlt (by omega) hk fun l hl hlk => hbelow l (by omega) hlk

/-- A record for a supervisor takes the lowest free shared slot of its mailbox (R342). -/
theorem postShared_spec (s : State) (Q : Nat) (src : Source) (r : TrapRecord) :
    ((postShared s Q src r).cluster Q).tcbs = (s.cluster Q).tcbs ∧ ∀ k, 32 ≤ k → k < 64 → mfind (s.cluster Q).mailbox k = none →
      (∀ l, 32 ≤ l → l < k → mfind (s.cluster Q).mailbox l ≠ none) → (s.cluster Q).supLost = false →
      mfind ((postShared s Q src r).cluster Q).mailbox k = some r := by
  unfold postShared
  rw [State.modCluster_eq, State.setCluster_cluster_self]
  refine ⟨?_, fun k h1 h2 hk hbelow hsup => ?_⟩
  · split
    · rfl
    · split <;> rfl
  · have hfirst : (upFrom 32 32).find? (fun k => (mfind (s.cluster Q).mailbox k).isNone) = some k :=
      find?_upFrom h1 h2 (by rw [hk]; rfl) fun l hl hlk => Option.isNone_eq_false_iff.2 (Option.isSome_iff_ne_none.2 (hbelow l hl hlk))
    rw [if_neg (by rw [hsup]; exact Bool.false_ne_true), hfirst]
    exact mfind_mset_self ..

end

/-! ## The shipping -/

section
variable {s : State} {u : Nat} {va : Word}

/-- A core that waits for its task's shipping. -/
def shipsNow (s : State) (u : Nat) (va : Word) : Prop := (s.core u).wait = .ship va ∧ (s.eager = true ∨ (s.core u).stowing ≠ none) ∧ cutOff s u = false

theorem exec_contextShip_ships (h : shipsNow s u va) : exec (.contextShip u) s = .next (shipContext (parkCore s u .none) u va) := by
  obtain ⟨hw, hgo, hcut⟩ := h
  have hbegin : beginStow s u (.ship va) = (true, s) := by
    have hends : (s.eager || (s.core u).stowing.isSome) = true := by
      rw [Bool.or_eq_true, ← Option.ne_none_iff_isSome]
      exact hgo
    unfold beginStow
    rw [hcut, if_neg Bool.false_ne_true, if_pos hends]
  show execContextShip u s = _
  simp only [execContextShip, hw, hbegin]

theorem parkCore_taskOf (s : State) (u : Nat) (w : Wait) : (parkCore s u w).taskOf u = s.taskOf u := by
  unfold State.taskOf
  rw [(parkCore_onlyCore s u w).2]
  rfl

theorem trapRecord_parkCore (s : State) (u : Nat) (w : Wait) (t : Trap) : trapRecord (parkCore s u w) u t = trapRecord (dropWait s u) u t := by
  obtain ⟨hcore, -, -, -, -, hnow, -⟩ := dropWait_spec s u
  unfold trapRecord
  simp only [hcore, hnow, dropWait_unitId, dropWait_taskOf, parkCore_taskOf, (parkCore_onlyCore s u w).2]
  rfl

/-- The trap record of a task that ships. -/
theorem shipRecord_precise (s : State) (u : Nat) (va : Word) : PreciseRecord s u (trapRecord (parkCore s u .none) u (.at .pageFault va)) .pageFault va := by
  rw [trapRecord_parkCore]
  exact trapRecord_precise s u _ rfl rfl

/-- A task that cannot go traps at its own supervisor (R110). -/
theorem shipContext_here (hl : leastLoaded s (homeDie va) = some (clusterOf u)) (hm : mfind (s.cluster (clusterOf u)).mailbox (inCluster u) = none) :
    PageFaultsAt s u va (shipContext (parkCore s u .none) u va) := by
  have hhere : shipContext (parkCore s u .none) u va = writeReserved ((parkCore s u .none).modCore u (fun c => { c with stowing := none })) u
      (trapRecord (parkCore s u .none) u (.at .pageFault va)) := by
    unfold shipContext
    dsimp only
    rw [show leastLoaded (parkCore s u .none) (homeDie va) = some (clusterOf u) from hl]
    cases ((parkCore s u .none).core u).task with
    | none => rfl
    | some i => exact if_pos rfl
  obtain ⟨y, hy⟩ : ∃ y, y = (parkCore s u .none).modCore u (fun c => { c with stowing := none }) := ⟨_, rfl⟩
  have hcore : y.core u = { s.core u with wait := .none, stowing := none } := by
    rw [hy, State.modCore_eq, State.setCore_core_self, (parkCore_onlyCore s u .none).2]
  have hrest : ∀ w, w ≠ u → y.core w = s.core w := fun w hw => by
    rw [hy, State.modCore_eq, State.setCore_core, if_neg hw]
    exact (parkCore_onlyCore s u .none).1.2 w hw
  obtain ⟨hwrite, hothers, hmem⟩ := writeReserved_spec y u (trapRecord (parkCore s u .none) u (.at .pageFault va))
  rw [if_pos (by rw [hy]; exact hm), hcore] at hwrite
  rw [hhere, ← hy]
  exact ⟨_, by rw [hwrite.2], shipRecord_precise s u va, hmem.trans (by rw [hy]; rfl), by rw [hwrite.2], by rw [hwrite.2],
    fun w hw => (hothers w hw).trans (hrest w hw)⟩

/-- A task waits at its core while the interface of the cluster it would go to holds a record (R347). -/
theorem shipContext_holds {Q : Nat} (hl : leastLoaded s (homeDie va) = some Q) (hQ : Q ≠ clusterOf u) (ht : (s.core u).task ≠ none)
    (hh : s.holdsRecord (.net Q) = true) : shipContext (parkCore s u .none) u va = holdStow (parkCore s u .none) u (.ship va) := by
  obtain ⟨i, hi⟩ := Option.ne_none_iff_exists'.1 ht
  have htask : ((parkCore s u .none).core u).task = some i := by
    rw [(parkCore_onlyCore s u .none).2]
    exact hi
  unfold shipContext
  dsimp only
  rw [htask, show leastLoaded (parkCore s u .none) (homeDie va) = some Q from hl]
  exact (if_neg hQ).trans (if_pos hh)

/-- A task that waits so keeps its registers at its core, and its stow has begun (R350). -/
theorem holdStow_parked (s : State) (u : Nat) (va : Word) : ((holdStow (parkCore s u .none) u (.ship va)).core u).stowing ≠ none
    ∧ ((holdStow (parkCore s u .none) u (.ship va)).core u).g = (s.core u).g ∧ ((holdStow (parkCore s u .none) u (.ship va)).core u).pc = (s.core u).pc := by
  unfold holdStow
  rw [State.modCore_eq, State.setCore_core_self, (parkCore_onlyCore s u .none).2]
  exact ⟨Option.some_ne_none _, rfl, rfl⟩

/-- A task goes where its entry, the forwarding table and the interface of the other cluster take it (R110, R310). -/
theorem shipContext_goes {Q n : Nat} {task : Task} {x y : State} {j : Nat} (hl : leastLoaded s (homeDie va) = some Q) (hQ : Q ≠ clusterOf u)
    (hi : (s.core u).task = some n) (ht : s.taskOf u = some task) (ha : task.stowa = 0) (hh : s.holdsRecord (.net Q) = false)
    (hs : stowOn (parkCore s u .none) u (some (trapRecord (parkCore s u .none) u (.at .pageFault va))) = some x)
    (hr : relocate x (clusterOf u) Q n = some (j, y)) :
    shipContext (parkCore s u .none) u va = postShared y Q (.net Q) (trapRecord (parkCore s u .none) u (.at .pageFault va)) := by
  have htask : ((parkCore s u .none).core u).task = some n := by
    rw [(parkCore_onlyCore s u .none).2]
    exact hi
  have harea : ((parkCore s u .none).taskOf u).elim (false, parkCore s u .none) (stowArea (parkCore s u .none) (clusterOf u) n) = (false, parkCore s u .none) := by
    rw [parkCore_taskOf, ht]
    exact if_pos ha
  unfold shipContext
  dsimp only
  rw [htask, show leastLoaded (parkCore s u .none) (homeDie va) = some Q from hl]
  dsimp only
  rw [if_neg hQ, if_neg (by rw [show (parkCore s u .none).holdsRecord (.net Q) = false from hh]; exact Bool.false_ne_true), harea]
  dsimp only
  rw [hs]
  dsimp only
  rw [hr]

/-- A state in which a task has left core u for entry j of cluster Q, where the supervisor has its record (R110, R310, R350). -/
structure Shipped (s : State) (u Q j : Nat) (va : Word) (task : Task) (t : State) : Prop where
  status : (t.core u).status = .free
  noTask : (t.core u).task = none
  entry : ∃ c now, mfind (t.cluster Q).tcbs j = some (task.stowedFor c u now (trapRecord (parkCore s u .none) u (.at .pageFault va)))
  image : task.tcba = 0 → (s.core u).spilled = [] →
    t.mem.bytes ((s.cluster Q).frames + 1536 * j) 1536 = stowImage s u (s.core u).pc ((latchExpired s u).core u).ctx.latched true 0
  record : ∀ k, 32 ≤ k → k < 64 → mfind (s.cluster Q).mailbox k = none → (∀ l, 32 ≤ l → l < k → mfind (s.cluster Q).mailbox l ≠ none) →
    (s.cluster Q).supLost = false → mfind (t.cluster Q).mailbox k = some (trapRecord (parkCore s u .none) u (.at .pageFault va))

/-- A core that no longer waits stows the same image. -/
theorem stowImage_parkCore (s : State) (u : Nat) (w : Wait) (pc : Word) (latched trapped : Bool) (msgs : Nat) :
    stowImage (parkCore s u w) u pc latched trapped msgs = stowImage s u pc latched trapped msgs := by
  refine stowImage_of_imaged ?_ (parkCore_taskOf s u w) ..
  rw [(parkCore_onlyCore s u w).2]
  exact ⟨rfl, rfl, rfl, rfl, rfl, rfl, rfl, rfl, rfl, _, rfl⟩

theorem latchExpired_latched (s : State) (u : Nat) : ((latchExpired s u).core u).ctx.latched
    = if (s.core u).status = .running ∧ (s.core u).wdStart + 2 ^ (s.core u).ctx.wdt ≤ s.now then true else (s.core u).ctx.latched := by
  unfold latchExpired
  dsimp only
  split
  · rw [State.modCore_eq, State.setCore_core_self]
  · rfl

theorem latchExpired_parkCore (s : State) (u : Nat) (w : Wait) :
    ((latchExpired (parkCore s u w) u).core u).ctx.latched = ((latchExpired s u).core u).ctx.latched := by
  rw [latchExpired_latched, latchExpired_latched, (parkCore_onlyCore s u w).2]
  rfl

theorem shipContext_ships {Q n j : Nat} {task : Task} (hl : leastLoaded s (homeDie va) = some Q) (hQ : Q ≠ clusterOf u)
    (hi : (s.core u).task = some n) (ht : mfind (s.cluster (clusterOf u)).tcbs n = some task) (ha : task.stowa = 0)
    (hf : (s.cluster (clusterOf u)).forwards.length < 64) (hj : freeEntry (s.cluster Q) = some j) (hh : s.holdsRecord (.net Q) = false) :
    Shipped s u Q j va task (shipContext (parkCore s u .none) u va) := by
  have htask : s.taskOf u = some task := by
    unfold State.taskOf
    rw [hi]
    exact ht
  have hpark := (parkCore_onlyCore s u .none).2
  have hready := stowReady_unmoved (parkCore s u .none) u
  have ht0 : mfind ((stowReady (parkCore s u .none) u).cluster (clusterOf u)).tcbs n = some task := by
    rw [hready.tcbs]
    exact ht
  have hstow := stowOn_trapped (r := trapRecord (parkCore s u .none) u (.at .pageFault va)) (s := parkCore s u .none) (by rw [hpark]; exact hi)
    ((parkCore_taskOf s u .none).trans htask) ha
  have hbytes := stowEntered_bytes (u := u) (img := stowedImage (parkCore s u .none) u) (r := trapRecord (parkCore s u .none) u (.at .pageFault va)) ht0
  obtain ⟨hfree, hnone, ⟨now, hentry⟩, hframes, hforwards, helse⟩ := stowEntered_spec (u := u) (img := stowedImage (parkCore s u .none) u)
    (r := trapRecord (parkCore s u .none) u (.at .pageFault va)) ht0
  generalize stowEntered (stowReady (parkCore s u .none) u) u n (stowedImage (parkCore s u .none) u)
    (trapRecord (parkCore s u .none) u (.at .pageFault va)) = e at hstow hbytes hfree hnone hentry hframes hforwards helse
  have hstate := writeTcbState_unmoved (P := clusterOf u) e (clusterOf u) task.tcba 1
  have hsame : task.tcba = 0 → writeTcbState e (clusterOf u) task.tcba 1 = e := fun h0 => by rw [h0, writeTcbState_zero]
  generalize writeTcbState e (clusterOf u) task.tcba 1 = x at hstow hstate hsame
  have hother := ((Elsewhere.of_unmoved hready).trans helse).trans (.of_unmoved hstate)
  obtain ⟨y, hmove, hat, hbox, hsup, hcores, himage⟩ := relocate_stowed (s := x) (P := clusterOf u) (Q := Q) (n := n) (j := j)
    (task := task.stowedFor ((stowReady (parkCore s u .none) u).core u) u now (trapRecord (parkCore s u .none) u (.at .pageFault va)))
    (by rw [hstate.tcbs]; exact hentry) rfl ha (by rw [hstate.forwards, hforwards, hready.forwards]; exact hf)
    (by unfold freeEntry; rw [hother.tcbs Q hQ]; exact hj) hQ
  rw [shipContext_goes hl hQ hi htask ha hh hstow hmove]
  obtain ⟨hposted, hrecord⟩ := postShared_spec y Q (.net Q) (trapRecord (parkCore s u .none) u (.at .pageFault va))
  refine ⟨(hcores u).1.trans ((hstate.status u).trans hfree), (hcores u).2.trans ((hstate.task u).trans hnone), ⟨_, now, by rw [hposted]; exact hat⟩,
    fun h0 hm => ?_, fun k h1 h2 hk hbelow hlost => hrecord k h1 h2 ?_ (fun l hl hlk => ?_) ?_⟩
  · have hspilled : ((stowReady (parkCore s u .none) u).core u).spilled = [] := by
      rw [(stowReady_core _ u).2.2.2, hpark]
      exact hm
    have himg : stowedImage (parkCore s u .none) u = stowImage s u (s.core u).pc ((latchExpired s u).core u).ctx.latched true 0 := by
      rw [stowedImage_eq (by rw [hpark]; exact hm), stowImage_parkCore, latchExpired_parkCore, hpark]
    have hloc : frameLoc x (clusterOf u) n = frameLoc (stowReady (parkCore s u .none) u) (clusterOf u) n := by
      unfold frameLoc
      rw [hstate.frames, hframes]
    have hfilled := hbytes hspilled
    rw [show (stowedImage (parkCore s u .none) u).length = 1536 from stowImage_length .., himg] at hfilled
    rw [hother.frames Q hQ, hloc, hsame h0] at himage
    exact himage.trans hfilled
  · rw [hbox, hother.mailbox Q hQ]; exact hk
  · rw [hbox, hother.mailbox Q hQ]; exact hbelow l hl hlk
  · rw [hsup, hother.supLost Q hQ]; exact hlost

end

end Sys2Proof.Machine

end

section
/-! Pages and remote accesses (R110 to R113, R332, R334, R336): the statement, from what each event does. -/

namespace Sys2Proof.Machine

/-! ## The next entry of a residency schedule -/

section
variable {s s1 : State} {d : Nat} {bs : List Byte} {w0 w1 : Word}

/-- The next entry of a die's schedule, read as the statement says. -/
def EntryRead (s : State) (d : Nat) (bs : List Byte) (s1 : State) (w0 w1 : Word) : Prop :=
  (s.die d).head ≠ (s.die d).tail
    ∧ loadBytes (engineWho none (16 * d)) ((s.die d).rsbase + word (16 * ((s.die d).head.toNat % 2 ^ (s.die d).rslog.toNat))) 16 s = .ok (bs, s1)
    ∧ leNat (bs.take 8) = w0.toNat ∧ leNat (bs.drop 8) = w1.toNat ∧ s1.die d = s.die d

theorem EntryRead.outcome (h : EntryRead s d bs s1 w0 w1) : exec (.residencyEntryPerform d) s =
    if (s.die d).step.toNat < w1.toNat then .next s1
    else if fld w0 60 56 ≠ 0 then .next (pastEntry (s1.setDie d { s.die d with err := (s.die d).err ||| 4 }) d (s.die d).head)
    else performAction s1 d (s.die d).head w0 := by
  obtain ⟨hne, hread, h0, h1, hdie⟩ := h
  exact residency_of_entry hne hread h0 h1 hdie

theorem EntryRead.outcome_due (h : EntryRead s d bs s1 w0 w1) (hs : w1.toNat ≤ (s.die d).step.toNat) (hr : w0.toNat / 2 ^ 56 % 32 = 0) :
    exec (.residencyEntryPerform d) s = performAction s1 d (s.die d).head w0 := by
  rw [h.outcome, if_neg (Nat.not_lt.2 hs), if_neg (fun hne => hne ((fld_60_56 w0).trans hr))]

theorem EntryRead.outcome_refused (h : EntryRead s d bs s1 w0 w1) (hs : w1.toNat ≤ (s.die d).step.toNat) (hr : w0.toNat / 2 ^ 56 % 32 ≠ 0) :
    exec (.residencyEntryPerform d) s
      = .next (pastEntry (s1.setDie d { s.die d with err := (s.die d).err ||| 4 }) d (s.die d).head) := by
  rw [h.outcome, if_neg (Nat.not_lt.2 hs), if_pos (by rw [fld_60_56]; exact hr)]

end

theorem residency_empty {s : State} {d : Nat} (h : (s.die d).head = (s.die d).tail) : exec (.residencyEntryPerform d) s = .next s := by
  show execResidencyEntryPerform d s = _
  unfold execResidencyEntryPerform
  exact if_pos h

end Sys2Proof.Machine

namespace Sys2Proof

open Machine

/-- Settles O55: each clause is what the operation of its event does, said once in the lemmas above; a task that ships is followed through its stow and its move. -/
theorem pagesAndRemoteAccesses : Obligations.PagesAndRemoteAccesses := by
  unfold Obligations.PagesAndRemoteAccesses
  intro s s1 s2 s3 die u n i j v va pte big bs tb q r since req a e w0 w1 Q task t0 peer op p0 sec tag x step new tailGood answers next entry due action size page
    frames waits loads stays base y slotFree noWrites P leaves faults fetchFaults ships ended local_ who near done
  have hframes : framesOf big = frames := rfl
  have hentry : entry → EntryRead s die bs s1 w0 w1 := id
  have hdue : due → exec (.residencyEntryPerform die) s = performAction s1 die x.head w0 := fun ⟨h, h1, h2⟩ => (hentry h).outcome_due h1 h2
  have hdie : due → s1.die die = x := fun ⟨⟨_, _, _, _, h⟩, _⟩ => h
  have haction : ∀ k, action = k → fld w0 63 62 = k := fun k h => (fld_63_62 w0).trans h
  have hpassed : ∀ t : State, t.die die = x → pastEntry t die x.head = t.setDie die next := fun t h => pastEntry_eq h x.head
  have hfaults : ∀ {i : Instr} {t : State}, exec i s = .next t → PageFaultsAt s u va t → faults i := fun {i t} h ⟨r, hr⟩ => ⟨t, r, h, hr⟩
  have hfetches : ∀ {i : Instr} {t : State}, exec i s = .next t → FetchFaultsAt s u va t → fetchFaults i := fun {i t} h ⟨r, hr⟩ => ⟨t, r, h, hr⟩
  have hset : ∀ {y z : Die}, y = z → (Host.Outcome.next (s.setDie die y) : Host.Outcome State Fault Refusal) = .next (s.setDie die z) := fun h => by rw [h]
  have hdone : LinksUp s → ∀ {t : State} {l : List Byte} {c : Nat}, remoteAccess who req s = .ok (l, t) →
      remoteDone t req (.data l) = { t with net := { t.net with reply := some (.data l), performed := t.net.performed + c, held := t.net.held.erase req } } →
      done t (.data l) c := fun hl {t l c} h hc => (exec_remoteRequest_ok hl h).trans (congrArg _ hc)
  refine ⟨fun hd hb => ⟨fun h => ?_, fun h => ?_, fun h => ?_, fun h => ?_⟩, fun hd => ?_, fun h => ?_, fun h ha => ?_, fun h ha => ?_, fun h ha hp => ?_,
    fun h hn ha hp he hv => ?_, fun h hn ha he hv h6 => ⟨fun hf => ?_, fun hf => ?_⟩, fun h => ⟨fun hs => ?_, fun hs hr => ?_⟩,
    fun hw h => ?_, fun hw h hl hs hm => ?_, fun hw h hl hs => ?_, fun hw h hl hm => ?_, fun hw h hr hf => ?_, fun hw h hr hp hb hf hd => ?_,
    fun hw h hr hf h1 h2 h3 h4 h5 h6 h7 => ?_, ?_, ?_, ?_, leastLoaded_spec,
    fun hw h => ⟨fun hf => ?_, fun hf hlt => ?_, fun hf hge hl hs hm => ?_, fun hf hge hl hs => ?_⟩, ?_, ?_, ?_, fun h hd => ?_,
    fun ⟨hl, hn⟩ ho h => ?_, fun ⟨hl, hn⟩ ho h => ?_, fun ⟨hl, hn⟩ ho h => ?_, fun ⟨hl, hn⟩ ho ha hres hp hrd => ?_, fun ⟨hl, hn⟩ ho ha h => ?_,
    fun ⟨hl, hn⟩ h => ⟨fun hf hnew => ?_, fun hf => ?_⟩, fun ⟨hl, hn⟩ ho h => ?_, fun hl hfar => ?_, ?_, rfl⟩
  · exact (exec_scheduleStepWrite hd hb).trans (hset (if_neg (Nat.not_lt.2 h)))
  · exact (exec_scheduleStepWrite hd hb).trans (hset (if_pos h))
  · exact (exec_scheduleTailWrite hd hb).trans (hset (if_pos ((tailOk_iff ..).2 h)))
  · exact (exec_scheduleTailWrite hd hb).trans (hset (if_neg (fun e => h ((tailOk_iff ..).1 e))))
  · exact exec_scheduleErrRead hd
  · exact residency_empty h
  · exact ((hdue h).trans (performAction_pins (haction 2 ha))).trans (congrArg _ (hpassed _ (hdie h)))
  · exact ((hdue h).trans (performAction_unpins (haction 3 ha))).trans (congrArg _ (hpassed _ (hdie h)))
  · have hkept : evictPage s1 (pageBase (sext56 w0) (bitAt w0 61)) (bitAt w0 61) = s1 := evictPage_pinned hp
    rw [hdue h, performAction_evicts (haction 0 ha), hkept, hpassed _ (hdie h)]
  · obtain ⟨hnat, hpeek, hfree, hdies, hkeep, hback⟩ := evictPage_performed hp he hv
    refine ⟨_, (hdue h).trans (performAction_evicts (haction 0 ha)), hnat, hpeek, ?_, hfree.trans (congrArg _ (framesOf_eq _)), hkeep, hback⟩
    rw [pastEntry_die]
  · rw [hdue h, performAction_waits (haction 1 ha) (fetchPage_no_frame he hv (by rw [framesOf_eq]; exact hf))]
  · obtain ⟨t, hfetch, hnat, hdies, hcl, hfree, hback⟩ := fetchPage_performed he hv h6 (by rw [framesOf_eq]; exact hf)
    refine ⟨_, (hdue h).trans (performAction_fetches (haction 1 ha) hfetch), ?_⟩
    rw [retryTcbWrites_none (show NoStateWrites (pastEntry t die x.head) from fun k hk => hn k (hcl ▸ hk))]
    exact ⟨hnat, congrArg Die.head (pastEntry_die t die x.head), hfree.trans (congrArg _ (framesOf_eq _)), hback⟩
  · exact (hentry h).outcome.trans (if_pos hs)
  · exact ⟨_, (hentry h).outcome_refused hs hr, by rw [pastEntry_die, State.setDie_die_self], rfl⟩
  · exact ⟨_, contextShip_leaf hw h, parkCore_onlyCore s u _⟩
  · exact hfaults (contextShip_fail hw h) (pageFails_faults hl hs hm)
  · exact ⟨_, contextShip_fail hw h, pageFails_ships hl hs⟩
  · exact hfetches (contextShip_fail hw h) (pageFails_fetch hl hm)
  · exact ⟨_, contextShip_no_frame hw h hr hf, parkCore_onlyCore s u _⟩
  · exact contextShip_regen hw h (fun hgo => absurd hgo.2 (by simp [hr, hp, hf, base, pageBase])) (faultRegen_joins h hr hp hb hf hd)
  · obtain ⟨t, hlaunch, hmem, hfree, hq, hregens⟩ := launchRegen_of_parts (page := base) (big := big) (es := []) h1 h2 h3 h4 h5 h6 h7
    exact ⟨_, contextShip_regen hw h (fun hgo => absurd hgo.1 (Nat.not_lt.2 hf)) (faultRegen_launches h hr hf hlaunch), hmem, hq,
      congrArg (· - framesOf big) hfree, _, hregens, rfl, rfl, rfl, rfl⟩
  · exact fun hgo hl hm => hfaults (exec_contextShip_ships hgo) (shipContext_here hl hm)
  · intro hgo hl hQ hi ht ha hf hj hh
    obtain ⟨hfree, hnone, ⟨c, now, hentry⟩, himage, hrecord⟩ := shipContext_ships (va := va) hl hQ hi ht ha hf hj hh
    exact ⟨_, task.stowedFor c u now _, _, exec_contextShip_ships hgo, hfree, hnone, hentry, rfl, rfl, rfl, rfl, rfl, shipRecord_precise s u va,
      fun h0 _ hm => himage h0 hm, hrecord⟩
  · intro hgo hl hQ ht hh
    obtain ⟨hstowing, hg, hpc⟩ := holdStow_parked s u va
    exact ⟨_, (exec_contextShip_ships hgo).trans (congrArg _ (shipContext_holds hl hQ ht hh)), rfl, hstowing, hg, hpc⟩
  · exact ⟨_, (exec_frameWaitTimeout hw h).trans (congrArg _ (if_pos hf)), parkCore_onlyCore s u _⟩
  · exact (exec_frameWaitTimeout hw h).trans (congrArg _ ((if_neg (Nat.not_le.2 hf)).trans (if_neg (Nat.not_le.2 hlt))))
  · exact hfaults ((exec_frameWaitTimeout hw h).trans (congrArg _ ((if_neg (Nat.not_le.2 hf)).trans (if_pos hge)))) (pageFails_faults hl hs hm)
  · exact ⟨_, (exec_frameWaitTimeout hw h).trans (congrArg _ ((if_neg (Nat.not_le.2 hf)).trans (if_pos hge))), pageFails_ships hl hs⟩
  · intro ⟨he, hd, hf⟩ hn hleaf hw hp
    obtain ⟨t, hexec, hcore, hmem, hregens, hfree⟩ := regenerationComplete_runs he hd hf hn hleaf hw hp
    exact ⟨t, hexec, by rw [hcore], by rw [hcore], by rw [hcore], by rw [hcore], hmem, hregens, hfree⟩
  · intro ⟨he, hd, hf⟩ hn habs hw hp hothers hm
    refine ⟨fun hl hs => ?_, fun hl => ?_⟩
    · obtain ⟨hwait, hsame⟩ := pageFails_parks (s := afterLaunch s r false) (va := va) (fun _ => hs) hm
      obtain ⟨k, hexec⟩ := regenerationComplete_fails he hd hf hn habs hw hp hothers (fun z hz => nomatch hwait.symm.trans hz) hsame
      exact hfaults hexec (pageFails_faults (s := afterLaunch s r false) hl hs hm)
    · obtain ⟨hwait, hsame⟩ := pageFails_parks (s := afterLaunch s r false) (va := va) (fun e => absurd e hl) hm
      obtain ⟨k, hexec⟩ := regenerationComplete_fails he hd hf hn habs hw hp hothers (fun z hz => nomatch hwait.symm.trans hz) hsame
      exact hfetches hexec (pageFails_fetch (s := afterLaunch s r false) hl hm)
  · exact fun ⟨he, hd, hf⟩ hn habs hes => regenerationComplete_engines he hd hf hn habs hes
  · exact regenerationComplete_not_done h hd
  · exact hdone hl ((remoteAccess_read hn ho).trans h) (by simp [remoteDone, ho])
  · exact hdone hl (remoteAccess_write hn ho h) (by simp [remoteDone, ho])
  · exact hdone hl ((remoteAccess_atomic hn ho).trans h) (by simp [remoteDone, ho])
  · exact hdone hl (remoteAccess_readSector hn ho ha hres hp hrd) (by simp [remoteDone, ho])
  · exact hdone hl (remoteAccess_writeSector hn ho ha h) (by simp [remoteDone, ho])
  · have hheld : s1.net.held.contains req = false := Bool.eq_false_iff.2 fun e => hnew (List.contains_iff_mem.1 e)
    rw [exec_remoteRequest_page hl h hf, if_neg Bool.false_ne_true, remoteHeld, hheld, if_neg Bool.false_ne_true]
  · exact (exec_remoteRequest_page hl h hf).trans (congrArg _ ((if_pos rfl).trans (by simp [remoteDone])))
  · exact (exec_remoteRequest_trap hl ((remoteAccess_read hn ho).trans h)).trans (congrArg _ (by simp [remoteDone]))
  · have hbit : req.addr.getLsbD 55 = true := Bool.of_not_eq_false fun e => hfar ⟨hl, e⟩
    exact (exec_remoteRequest_trap hl (remoteAccess_far hbit _)).trans (congrArg _ (by simp [remoteDone, Trap.at]))
  · intro m hm
    rcases List.mem_cons.1 hm with rfl | hm
    · rfl
    · rw [List.mem_singleton.1 hm]
      rfl

end Sys2Proof
end

section
/-! Acquire loads and release stores of ordered pages, and WAITA (R126, R141). -/

namespace Sys2Proof.Machine

theorem beforeAcquire_accessed (s : State) (u : Nat) (ps : List Piece) : Accessed s (beforeAcquire s u ps) :=
  (drainThrough_accessed ..).trans (flushWhere_accessed ..)

theorem crossLinks_accessed (s : State) (ps : List Piece) : Accessed s (crossLinks s ps) := by
  unfold crossLinks
  refine Accessed.foldl (fun t p => ?_) ps s
  split
  · exact roundTrip_accessed ..
  · exact .refl t

section
variable {s s0 s1 : State} {d a b : GReg} {ea v : Word} {ps : List Piece} {bs : List Byte}

/-- Reading as an acquire, once the place is found, is an access (R126). -/
theorem acquireRead_accessed {w : Who} {acc : Acc} {n u : Nat} (hres : resolve w acc ea n s = .ok (ps, s0))
    (hread : readPieces w ps (acquire (beforeAcquire s0 u ps) u) = .ok (bs, s1)) : Accessed s s1 :=
  (resolve_accesses _ _ _ _ _ _ _ hres).trans
    ((beforeAcquire_accessed s0 u ps).trans ((acquire_accessed _ u).trans (readPieces_accesses w ps _ _ _ hread)))

/-! ## LDA -/

/-- An LDA of ordered pages reads its word as an acquire, and its accesses cross the links to the homes and back (R126). -/
theorem loadAcquire_reads (ha : ea.toNat % 8 = 0) (hres : resolve s.me .load ea 8 s = .ok (ps, s0))
    (hord : ps.all (fun p => p.kind != 2 || p.repl) = true) (hp : noPoison s.me ps s0 = .ok ((), s0))
    (hread : readPieces s.me ps (acquire (beforeAcquire s0 s.cur ps) s.cur) = .ok (bs, s1)) :
    loadAcquire d ea s = .ok (.next, (crossLinks s1 ps).wg d (word (leNat bs))) := by
  rw [← (resolve_looks _ _ _ _ _ _ _ hres).cur] at hread
  unfold loadAcquire
  rw [M.bind_of_ok (aligned_of_mod ha s), M.bind_of_ok (M.get_apply s), M.bind_of_ok hres, hord, M.bind_of_ok (needM_apply _ _ _), M.bind_of_ok hp,
    M.bind_of_ok (M.modify_apply _ _), M.bind_of_ok hread]
  rfl

/-- An LDA of an unordered page is denied before it reads (R126). -/
theorem loadAcquire_unordered (ha : ea.toNat % 8 = 0) (hres : resolve s.me .load ea 8 s = .ok (ps, s0))
    (hord : ¬ ps.all (fun p => p.kind != 2 || p.repl) = true) : loadAcquire d ea s = .error (.trap (.at .plbDeny ea)) := by
  unfold loadAcquire
  rw [M.bind_of_ok (aligned_of_mod ha s), M.bind_of_ok (M.get_apply s), M.bind_of_ok hres, eq_false_of_ne_true hord]
  rfl

/-! ## STL -/

/-- An STL of ordered pages is a write of its word as a release (R126). -/
theorem storeRelease_writes (ha : ea.toNat % 8 = 0) (hres : resolve s.me .store ea 8 s = .ok (ps, s0))
    (hord : ps.all (fun p => p.kind != 2 || p.repl) = true) (hr : ringsFree ps s0 = .ok ((), s0)) (hd : noDead ps s0 = .ok ((), s0))
    (hwrite : writePieces s.me none true ps (leBytes 8 v.toNat) s0 = .ok ((), s1)) : storeRelease v ea s = .ok (.next, s1) := by
  unfold storeRelease
  rw [M.bind_of_ok (aligned_of_mod ha s), M.bind_of_ok (M.get_apply s), M.bind_of_ok hres, hord, M.bind_of_ok (needM_apply _ _ _), M.bind_of_ok hr,
    M.bind_of_ok hd, M.bind_of_ok hwrite]
  rfl

/-- An STL of an unordered page is denied before it writes (R126). -/
theorem storeRelease_unordered (ha : ea.toNat % 8 = 0) (hres : resolve s.me .store ea 8 s = .ok (ps, s0))
    (hord : ¬ ps.all (fun p => p.kind != 2 || p.repl) = true) : storeRelease v ea s = .error (.trap (.at .plbDeny ea)) := by
  unfold storeRelease
  rw [M.bind_of_ok (aligned_of_mod ha s), M.bind_of_ok (M.get_apply s), M.bind_of_ok hres, eq_false_of_ne_true hord]
  rfl

/-! ## WAITA -/

/-- Where a WAITA that has not found its value parks (R141). -/
def waitedSector (s : State) (ea : Word) : Wait := .sector (sramLoc (clusterOf s.cur) (ea.toNat - localWin))

/-- A WAITA reads its word as an acquire, and the word decides (R141). -/
theorem waitAtomic_reads (ha : (s.rg a).toNat % 8 = 0) (hwin : inLocalWin (s.rg a) = true) (hres : resolve s.me .load (s.rg a) 8 s = .ok (ps, s0))
    (hp : noPoison s.me ps s0 = .ok ((), s0)) (hread : readPieces s.me ps (acquire (beforeAcquire s0 s.cur ps) s.cur) = .ok (bs, s1)) :
    waitAtomic d a b s = if word (leNat bs) = s.rg b then .ok (.next, s1.wg d (word (leNat bs)))
      else .ok (.stay, parkCore s1 s.cur (waitedSector s (s.rg a))) := by
  have hcur : s1.cur = s.cur := (acquireRead_accessed hres hread).cur
  rw [← (resolve_looks _ _ _ _ _ _ _ hres).cur] at hread
  unfold waitAtomic
  rw [M.bind_of_ok (M.get_apply s), M.bind_of_ok (aligned_of_mod ha s), M.bind_of_ok hres, hwin, M.bind_of_ok (needM_apply _ _ _), M.bind_of_ok hp,
    M.bind_of_ok (M.modify_apply _ _), M.bind_of_ok hread]
  split
  · rfl
  · rw [M.bind_of_ok (M.modify_apply _ _), hcur]
    rfl

end

end Sys2Proof.Machine

namespace Sys2Proof

open Machine

/-- Settles O22: once the place is found the pages decide, and of a WAITA the word that it reads as an acquire. -/
theorem acquireAndRelease : Obligations.AcquireAndRelease := by
  unfold Obligations.AcquireAndRelease
  intro s s0 s1 d a b off ps bs
  dsimp only
  refine ⟨fun ha hres hord hp hread => ?_, fun ha hres hord => ?_, fun ha hres hord hr hd hwrite => ?_, fun ha hres hord => ?_,
    fun ha hwin hres hp hread => ?_⟩
  · have hacc := (acquireRead_accessed hres hread).trans (crossLinks_accessed s1 ps)
    exact ⟨completesG_of_runM rfl (loadAcquire_reads ha hres hord hp hread) hacc, hacc⟩
  · exact trapsWith_of_runM rfl (loadAcquire_unordered ha hres hord) (by decide)
  · have hacc := (resolve_accesses _ _ _ _ _ _ _ hres).trans (writePieces_accesses _ _ _ _ _ _ _ _ hwrite)
    exact ⟨completes_of_runM rfl (storeRelease_writes ha hres hord hr hd hwrite) hacc, hacc⟩
  · exact trapsWith_of_runM rfl (storeRelease_unordered ha hres hord) (by decide)
  · have hrun := waitAtomic_reads (d := d) (b := b) ha hwin hres hp hread
    refine ⟨fun heq => ?_, fun hne => ?_⟩
    · rw [if_pos heq, heq] at hrun
      exact completesG_of_runM rfl hrun (acquireRead_accessed hres hread)
    · rw [if_neg hne] at hrun
      exact ⟨_, runM_stay hrun, parkCore_onlyCore s1 s.cur _⟩

end Sys2Proof
end

section
/-! The eleven atomics (R134 to R137). -/

namespace Sys2Proof.Machine

/-! ## The piece of an access that lies on one page -/

section
variable {w : Who} {acc : Acc} {va : Word} {n : Nat} {p : Piece} {s t : State}

/-- With every link up no piece is cut off from its home (R330). -/
theorem pieceOf_cut_of_linksUp (hl : LinksUp s) (h : pieceOf w va n s = .ok (p, t)) : p.cut = none := by
  unfold pieceOf at h
  simp only [pathDown_of_linksUp hl, Bool.false_eq_true, if_false, ite_self] at h
  split at h
  · cases h
  · cases h; rfl
  · split at h
    · split at h
      · cases h; rfl
      · cases h
    · split at h
      · cases h
      · cases h
      · cases h
      · cases h; rfl

/-- An access of one piece has found that piece from the state it began in. -/
theorem resolve_single_piece (h : resolve w acc va n s = .ok ([p], t)) : ∃ a k x, pieceOf w a k s = .ok (p, x) := by
  unfold resolve resolveParts at h
  split at h
  · cases h
  · obtain ⟨ps, s1, h1, h2⟩ := M.bind_ok.1 h
    obtain ⟨_, s2, -, h3⟩ := M.bind_ok.1 h2
    cases h3
    match hparts : rangeParts (redirected w va) n, h1 with
    | [], h1 => cases h1
    | (a, k) :: l, h1 =>
      unfold piecesOf at h1
      obtain ⟨q, x, hq, h1⟩ := M.bind_ok.1 h1
      obtain ⟨qs, y, -, h1⟩ := M.bind_ok.1 h1
      cases h1
      exact ⟨a, k, x, hq⟩

theorem resolve_single_cut (hl : LinksUp s) (h : resolve w acc va n s = .ok ([p], t)) : p.cut = none := by
  obtain ⟨_, _, _, hp⟩ := resolve_single_piece h
  exact pieceOf_cut_of_linksUp hl hp

end

/-! ## An atomic that fails -/

/-- An ACAS that finds another value stores nothing (R134). -/
theorem homeReply_fails {s : State} {op : AtomOp} {loc : Nat} {b d : Word} (u : Nat) (va : Word) (hp : locPoisoned s loc = false)
    (h : newValue op (word (s.mem.nat loc (atomSize op))) b d = none) : (homeReply s op u va loc false b d).2.mem = s.mem := by
  rw [← atomApply_eq_newValue] at h
  unfold homeReply
  simp only [roundTrip_locPoisoned, hp, Bool.false_eq_true, if_false]
  unfold atomicAtHome
  simp only [roundTrip_mem, h, Bool.false_eq_true, if_false]
  rw [raiseFloor_mem, roundTrip_mem]

/-! ## The instruction -/

/-- An atomic whose place is one ordered, unreplicated, sound page of memory, of a core with nothing on its way, in a state in which nothing holds it back (R134 to R136): it
finds its piece p, with its word at loc, in state s1. -/
structure AtomicAt (s : State) (op : AtomOp) (a : GReg) (p : Piece) (loc : Nat) (s1 : State) : Prop where
  aligned : (s.rg a).toNat % atomSize op = 0
  found : resolve s.me .atomic (s.rg a) (atomSize op) s = .ok ([p], s1)
  place : p.place = .mem loc
  kind : p.kind ≠ 2
  unreplicated : p.repl = false
  noRing : ringsFree [p] s1 = .ok ((), s1)
  sound : locPoisoned s loc = false
  quiet : Quiet s s.cur
  linksUp : LinksUp s
  unheld : s.holdsRecord (.net (clusterOf s.cur)) = false
  float : op = .fadd → (s.core s.cur).ctx.det = 0 ∧ (p.typed = true → tagCode (s.mem.tag loc) = 0 ∨ s.mem.tag loc = 0x1000)

/-- The request of an atomic of the core whose turn it is (R135). -/
def atomicReq (s : State) (op : AtomOp) (va : Word) (d b : GReg) (p : Piece) (loc : Nat) : Req :=
  { kind := .atomic op, core := some s.cur, sender := s.cur, kern := (s.core s.cur).ctx.kern, vt := (s.core s.cur).vt, d := d, va := va, loc := loc,
    repl := p.repl, so := p.kind == 0 && !p.repl, tagged := p.typed, release := false, a := s.rg d, b := s.rg b, tag8 := (s.core s.cur).reqTag,
    since := s.now, done := none }

/-- A state in which the core whose turn it is has sent a request (R135). -/
def State.sending (s : State) (r : Req) : State :=
  { s with reqs := s.reqs ++ [r] }.modCore s.cur (fun c => { c with reqTag := c.reqTag + 1 })

section
variable {s s1 : State} {op : AtomOp} {d a b : GReg} {p : Piece} {loc : Nat}

theorem State.emptied_accessed (s : State) : Accessed s s.emptied := Accessed.modCore fun _ => rfl

/-- Each of the eleven instructions runs its own atomic. -/
theorem exec_atomicInstr (op : AtomOp) (d a b : GReg) (s : State) : exec (atomicInstr op d a b) s = runM (atomic op d a b) s := by
  cases op <;> rfl

namespace AtomicAt

theorem looked (h : AtomicAt s op a p loc s1) : Looked s s1 := resolve_looks _ _ _ _ _ _ _ h.found

/-- Finding the place, and the core's store buffer with nothing in it, change no register. -/
theorem accessed (h : AtomicAt s op a p loc s1) : Accessed s s1.emptied :=
  (resolve_accesses _ _ _ _ _ _ _ h.found).trans s1.emptied_accessed

theorem mem (h : AtomicAt s op a p loc s1) : s1.emptied.mem = s.mem := h.looked.mem
theorem cur (h : AtomicAt s op a p loc s1) : s1.emptied.cur = s.cur := h.looked.cur
theorem eager (h : AtomicAt s op a p loc s1) : s1.emptied.eager = s.eager := h.looked.eager
theorem reqs (h : AtomicAt s op a p loc s1) : s1.emptied.reqs = s.reqs := h.looked.reqs

theorem rg (h : AtomicAt s op a p loc s1) (r : GReg) : s1.emptied.rg r = s.rg r := by
  unfold State.rg
  rw [h.cur, h.accessed.rg]

theorem held (h : AtomicAt s op a p loc s1) : s1.emptied.holdsRecord (.net (clusterOf s1.emptied.cur)) = false := by
  have : s1.emptied.clusters = s.clusters := h.looked.clusters
  rw [h.cur, State.holdsRecord, this]
  exact h.unheld

theorem unpoisoned (h : AtomicAt s op a p loc s1) : locPoisoned s1.emptied loc = false := by
  have : locPoisoned s1.emptied loc = locPoisoned s1 loc := rfl
  rw [this, h.looked.1]
  exact h.sound

theorem level (h : AtomicAt s op a p loc s1) : (s1.emptied.core s1.emptied.cur).det = (s.core s.cur).ctx.det := by
  rw [h.cur, Core.det, h.accessed.2.1 s.cur]

/-- With nothing of the core on its way, its own accesses to the word need no performing first (R101, R120). -/
theorem flushed (h : AtomicAt s op a p loc s1) (e : SbEntry → Bool) (r : Req → Bool) :
    flushWhere (drainThrough s1 s1.cur e) s1.cur r = s1.emptied := by
  have hq : Quiet s1 s1.cur := by rw [h.looked.cur]; exact h.looked.quiet h.quiet
  rw [drainThrough_empty hq.1]
  exact flushWhere_nonePending (State.emptied_quiet hq).2 _

/-- The tag check of AFADD passes (R136). -/
theorem tagged (h : AtomicAt s op a p loc s1) (tag : Half) (ht : tag = if p.typed then homeTag s1.emptied p.repl loc else 0) :
    (op != .fadd || tagCode tag == 0 || tag == 0x1000) = true := by
  by_cases hop : op = .fadd
  · have htag : tag = if p.typed then s.mem.tag loc else 0 := by
      rw [ht, homeTag, h.unreplicated, if_neg Bool.false_ne_true, h.mem]
    cases hty : p.typed with
    | false =>
      rw [hty] at htag
      rw [htag]
      simp [tagCode]
    | true =>
      rw [hty, if_pos rfl] at htag
      rw [htag]
      rcases (h.float hop).2 hty with h0 | h1
      · rw [h0]; simp
      · rw [h1]; simp
  · simp [hop]

/-- AFADD runs at determinism level 0 alone (R136). -/
theorem floats (h : AtomicAt s op a p loc s1) : (op != .fadd || (s1.emptied.core s1.emptied.cur).det == 0) = true := by
  rw [h.level]
  by_cases hop : op = .fadd
  · rw [(h.float hop).1]; simp
  · simp [hop]

/-- An atomic with nothing in its way passes its checks, and is performed at its word's home or sent there (R134, R135). -/
theorem run (h : AtomicAt s op a p loc s1) (d b : GReg) : atomic op d a b s =
    let t := s1.emptied
    let sent := t.sending (atomicReq t op (s.rg a) d b p loc)
    if s.eager then .ok (.next, (homeReply t op s.cur (s.rg a) loc false (s.rg b) (s.rg d)).2.wg d (word (s.mem.nat loc (atomSize op))))
    else if d = 0 then .ok (.next, sent) else .ok (.stay, parkCore sent sent.cur .request) := by
  have hkind : (p.kind != 2 || p.repl) = true := by simp [h.kind]
  unfold atomic
  rw [M.bind_of_ok (M.get_apply s)]
  dsimp only
  rw [M.bind_of_ok (aligned_of_mod h.aligned s), M.bind_of_ok h.found]
  dsimp only
  rw [hkind, M.bind_of_ok (needM_apply _ _ _), M.bind_of_ok h.noRing, h.place]
  dsimp only
  rw [M.bind_of_ok (M.modify_apply _ _), h.flushed, M.bind_of_ok (M.get_apply _), h.tagged _ rfl, M.bind_of_ok (needM_apply _ _ _), h.floats,
    M.bind_of_ok (needM_apply _ _ _), h.held, if_neg Bool.false_ne_true]
  cases he : s.eager with
  | true =>
    have hhere : (s1.emptied.eager && p.cut.isNone) = true := by rw [h.eager, he, resolve_single_cut h.linksUp h.found]; rfl
    have hval := (homeReply_spec s1.emptied op s.cur loc (s.rg a) (s.rg b) (s.rg d) h.unpoisoned).1
    rw [h.mem] at hval
    rw [hhere, if_pos rfl, if_pos rfl, h.unreplicated, h.rg b, h.rg d, h.cur]
    generalize homeReply s1.emptied op s.cur (s.rg a) loc false (s.rg b) (s.rg d) = x at hval
    obtain ⟨r, t⟩ := x
    cases hval
    rfl
  | false =>
    have hsends : (s1.emptied.eager && p.cut.isNone) = false := by rw [h.eager, he]; rfl
    rw [hsends, if_neg Bool.false_ne_true, if_neg Bool.false_ne_true, M.bind_of_ok (M.set_apply _ _)]
    split
    · rfl
    · rfl

/-- In a step that performs its requests the word gets the new value and gD the old one, and no other byte changes (R134, R137). -/
theorem performed (h : AtomicAt s op a p loc s1) (d b : GReg) (he : s.eager = true) :
    let old := word (s.mem.nat loc (atomSize op))
    ∃ s2, CompletesG (atomicInstr op d a b) s s2 d old ∧ Accessed s s2
      ∧ (∀ v, newValue op old (s.rg b) (s.rg d) = some v → s2.mem.nat loc (atomSize op) = v.toNat % 256 ^ atomSize op)
      ∧ (newValue op old (s.rg b) (s.rg d) = none → ∀ x, s2.mem.peek x = s.mem.peek x)
      ∧ ∀ x, x < loc ∨ loc + atomSize op ≤ x → s2.mem.peek x = s.mem.peek x := by
  have hrun := h.run d b
  dsimp only at hrun ⊢
  rw [if_pos he] at hrun
  obtain ⟨-, hnew, hframe⟩ := homeReply_spec s1.emptied op s.cur loc (s.rg a) (s.rg b) (s.rg d) h.unpoisoned
  have hacc : Accessed s (homeReply s1.emptied op s.cur (s.rg a) loc false (s.rg b) (s.rg d)).2 := h.accessed.trans (homeReply_accessed ..)
  rw [h.mem] at hnew hframe
  refine ⟨_, completesG_of_runM (exec_atomicInstr ..) hrun hacc, hacc, hnew, fun hnone x => ?_, hframe⟩
  rw [homeReply_fails s.cur (s.rg a) h.unpoisoned (by rw [h.mem]; exact hnone), h.mem]

/-- A step that leaves its requests on their way sends the atomic: with D = 0 the instruction retires, otherwise it waits for the reply (R135). -/
theorem leaves (h : AtomicAt s op a p loc s1) (d b : GReg) (he : s.eager = false) :
    let t0 := s1.emptied
    let r := atomicReq t0 op (s.rg a) d b p loc
    ∃ t, exec (atomicInstr op d a b) s = .next t ∧ t.mem = s.mem ∧ t.reqs = s.reqs ++ [r] ∧ (t.core s.cur).g = (s.core s.cur).g
      ∧ (if d = 0 then Sequenced (s.core s.cur) (t.core s.cur) else (t.core s.cur).wait = .request ∧ (t.core s.cur).pc = (s.core s.cur).pc) := by
  have hrun := h.run d b
  dsimp only at hrun ⊢
  rw [if_neg (by rw [he]; exact Bool.false_ne_true)] at hrun
  have hreqs : (s1.emptied.sending (atomicReq s1.emptied op (s.rg a) d b p loc)).reqs = s.reqs ++ [atomicReq s1.emptied op (s.rg a) d b p loc] :=
    congrArg (· ++ _) h.reqs
  have hcur : (s1.emptied.sending (atomicReq s1.emptied op (s.rg a) d b p loc)).cur = s.cur := h.cur
  have hcore : (s1.emptied.sending (atomicReq s1.emptied op (s.rg a) d b p loc)).core s.cur
      = { s1.emptied.core s.cur with reqTag := (s1.emptied.core s.cur).reqTag + 1 } := by
    rw [← h.cur]
    exact State.setCore_core_self ..
  have hmem : (s1.emptied.sending (atomicReq s1.emptied op (s.rg a) d b p loc)).mem = s.mem := h.mem
  generalize s1.emptied.sending (atomicReq s1.emptied op (s.rg a) d b p loc) = sent at hrun hreqs hcur hcore hmem
  by_cases hd : d = 0
  · rw [if_pos hd] at hrun
    obtain ⟨-, -, hseq, hg, -⟩ := retire_spec sent
    rw [retire, hcur] at hseq hg
    refine ⟨_, (exec_atomicInstr ..).trans (runM_next hrun), hmem, hreqs, ?_, ?_⟩
    · rw [hg, hcore]
      exact h.accessed.g s.cur
    · have hside := h.accessed.2.1 s.cur
      rw [if_pos hd]
      exact Sequenced.of_same hseq (by rw [hcore, hside]) (by rw [hcore, hside]) (by rw [hcore, hside]) (by rw [hcore, hside]) (by rw [hcore, hside])
  · rw [if_neg hd, hcur] at hrun
    obtain ⟨-, hpark⟩ := parkCore_onlyCore sent s.cur .request
    refine ⟨_, (exec_atomicInstr ..).trans (runM_stay hrun), hmem, hreqs, ?_⟩
    rw [hpark, hcore, if_neg hd]
    exact ⟨h.accessed.g s.cur, rfl, h.accessed.pc s.cur⟩

end AtomicAt
end

end Sys2Proof.Machine

namespace Sys2Proof

open Machine

/-- Settles O24: with nothing in its way an atomic passes its checks and is performed at its word's home, or sent there. -/
theorem atomics : Obligations.Atomics := by
  unfold Obligations.Atomics
  intro s s1 op d a b p loc
  dsimp only
  intro ha hres hp hk hr hring hsound hq hl hheld hfloat
  have h : AtomicAt s op a p loc s1 := ⟨ha, hres, hp, hk, hr, hring, hsound, hq, hl, hheld, hfloat⟩
  refine ⟨h.performed d b, fun he => ?_⟩
  obtain ⟨t, hexec, hmem, hreqs, hg, hend⟩ := h.leaves d b he
  exact ⟨t, _, hexec, hmem, hreqs, rfl, rfl, congrArg some h.cur, rfl, h.rg d, h.rg b, rfl, hg, hend⟩

end Sys2Proof
end

section
/-! What the performing of writes changes of the module, and that nothing which is performed enters a store buffer (R101, R118, R126, R131). -/

namespace Sys2Proof.Machine

/-! ## Performed writes -/

/-- What performed writes change of a core: the wait that an answered LDF ends, the value in the pop buffer, and how far back its loads may reach (R108, R118). -/
def CoreAnswered (c c' : Core) : Prop := c' = { c with pop := c'.pop, wait := c'.wait, acq := c'.acq, floors := c'.floors }

theorem CoreAnswered.trans {a b c : Core} (h : CoreAnswered a b) (h' : CoreAnswered b c) : CoreAnswered a c := by
  unfold CoreAnswered at h h' ⊢
  rw [h', h]

/-- What performed writes change of the module. -/
def Stored (s t : State) : Prop := Performed s t ∧ ∀ v, CoreAnswered (s.core v) (t.core v)

namespace Stored

variable {s t x : State}

theorem refl (s : State) : Stored s s := ⟨rfl, fun _ => rfl⟩

theorem trans (h : Stored s t) (h' : Stored t x) : Stored s x := by
  obtain ⟨h1, h2⟩ := h
  obtain ⟨h1', h2'⟩ := h'
  unfold Performed at h1 h1'
  exact ⟨by unfold Performed; rw [h1', h1], fun v => (h2 v).trans (h2' v)⟩

theorem foldl {β : Type} {f : State → β → State} (hf : ∀ s b, Stored s (f s b)) (l : List β) (s : State) : Stored s (l.foldl f s) :=
  foldl_keeps (P := Stored s) (fun t b ht => ht.trans (hf t b)) l s (refl s)

theorem modCore {u : Nat} {f : Core → Core} (hf : CoreAnswered (s.core u) (f (s.core u))) : Stored s (s.modCore u f) := by
  refine ⟨rfl, fun v => ?_⟩
  rw [State.modCore_eq, State.setCore_core]
  split
  · rename_i e; rw [e]; exact hf
  · rfl

theorem storeBuf (h : Stored s t) (v : Nat) : (t.core v).storeBuf = (s.core v).storeBuf := by rw [h.2 v]
theorem uoDirty (h : Stored s t) (v : Nat) : (t.core v).uoDirty = (s.core v).uoDirty := by rw [h.2 v]
theorem g (h : Stored s t) (v : Nat) : (t.core v).g = (s.core v).g := by rw [h.2 v]
theorem pc (h : Stored s t) (v : Nat) : (t.core v).pc = (s.core v).pc := by rw [h.2 v]

end Stored

section
variable (s : State)

theorem answerFutures_stored (ws : List (Nat × Byte)) : Stored s (answerFutures s ws) := by
  unfold answerFutures
  refine Stored.trans (t := { s with defers := _ }) ⟨rfl, fun _ => rfl⟩ (Stored.foldl (fun t d => ?_) _ _)
  cases d.core with
  | none => exact .refl t
  | some u => exact .modCore rfl

theorem performFor_stored (c : Option Nat) (ws : List (Nat × Byte)) : Stored s (performFor c s ws) :=
  Stored.trans (t := { s with mem := s.mem.pokes ws, past := _ }) ⟨rfl, fun _ => rfl⟩ (answerFutures_stored _ ws)

theorem raiseFloor_stored (u a n k : Nat) : Stored s (s.raiseFloor u a n k) := by
  unfold State.raiseFloor
  split
  · exact .refl s
  · exact .modCore rfl

theorem acquire_stored (u : Nat) : Stored s (acquire s u) := by
  unfold acquire
  split
  · exact .refl s
  · exact .modCore rfl

theorem performBy_stored (u : Nat) (ws : List (Nat × Byte)) : Stored s (performBy s u ws) :=
  (performFor_stored s _ ws).trans (Stored.foldl (fun t _ => raiseFloor_stored t ..) _ _)

end

/-! ## Store buffers -/

/-- No store buffer has an entry that it did not have. -/
structure NoNewStores (s t : State) : Prop where
  storeBuf : ∀ v, List.Sublist (t.core v).storeBuf (s.core v).storeBuf

namespace NoNewStores

variable {s t x : State}

theorem refl (s : State) : NoNewStores s s := ⟨fun _ => .refl _⟩
theorem trans (h : NoNewStores s t) (h' : NoNewStores t x) : NoNewStores s x := ⟨fun v => (h'.storeBuf v).trans (h.storeBuf v)⟩
theorem beside (h : t.cores = s.cores) : NoNewStores s t := ⟨fun v => by rw [State.core, h]; exact .refl _⟩
theorem of_stored (h : Stored s t) : NoNewStores s t := ⟨fun v => by rw [h.storeBuf v]⟩

theorem foldl {β : Type} {f : State → β → State} (hf : ∀ s b, NoNewStores s (f s b)) (l : List β) (s : State) : NoNewStores s (l.foldl f s) :=
  foldl_keeps (P := NoNewStores s) (fun t b ht => ht.trans (hf t b)) l s (refl s)

theorem modCore {u : Nat} {f : Core → Core} (hf : ∀ c, List.Sublist (f c).storeBuf c.storeBuf) : NoNewStores s (s.modCore u f) := by
  refine ⟨fun v => ?_⟩
  rw [State.modCore_eq, State.setCore_core]
  split
  · rename_i e; rw [e]; exact hf _
  · exact .refl _

/-- An empty store buffer stays empty. -/
theorem empty (h : NoNewStores s t) {u : Nat} (hu : (s.core u).storeBuf = []) : (t.core u).storeBuf = [] := by
  have := h.storeBuf u
  rw [hu] at this
  exact List.sublist_nil.1 this

end NoNewStores

section
variable (s : State)

theorem applyNext_noNewStores (d : Nat) : NoNewStores s (applyNext s d) := by
  unfold applyNext
  split
  · exact .refl s
  · rename_i x _
    have h : NoNewStores s (applyReplica s d x.core x.writes) := .of_stored (performFor_stored ..)
    dsimp only
    generalize applyReplica s d x.core x.writes = r at h ⊢
    refine h.trans ?_
    split
    · exact NoNewStores.trans (t := { r with seqOrder := _ }) (.beside (by rfl)) (.modCore (by intro c; exact List.filter_sublist))
    · exact .beside rfl

theorem applyBelow_noNewStores (d k : Nat) : NoNewStores s (applyBelow s d k) := .foldl (fun t _ => applyNext_noNewStores t d) _ s
theorem applyAll_noNewStores : NoNewStores s (applyAll s) := .foldl (fun t k => applyNext_noNewStores t (k % 4)) _ s
theorem applySeen_noNewStores (u scope : Nat) : NoNewStores s (applySeen s u scope) := .foldl (fun t d => applyBelow_noNewStores t d _) _ s
theorem sawUpdates_noNewStores (u k : Nat) : NoNewStores s (sawUpdates s u k) := .modCore fun _ => .refl _

theorem sequenceBy_noNewStores (u : Nat) (ws : List (Nat × Byte)) : NoNewStores s (sequenceBy s u ws) := by
  have h : NoNewStores s (sawUpdates (sequence s u ws) u (s.seqNext + 1)) :=
    NoNewStores.trans (t := sequence s u ws) (.beside rfl) (sawUpdates_noNewStores ..)
  unfold sequenceBy
  dsimp only
  split
  · exact h.trans (applyAll_noNewStores _)
  · exact h.trans (applyBelow_noNewStores ..)

theorem atomicAtHome_noNewStores (op : AtomOp) (loc : Nat) (repl : Bool) (u : Nat) (b d : Word) :
    NoNewStores s (atomicAtHome s op loc repl u b d).2 := by
  have hb := applyBelow_noNewStores s (loc / stackSize / 2) s.seqNext
  unfold atomicAtHome
  cases repl with
  | false =>
    dsimp only [Bool.false_eq_true, if_false]
    split
    · exact .of_stored (raiseFloor_stored ..)
    · exact .of_stored (performBy_stored ..)
  | true =>
    dsimp only [if_true]
    split
    · exact hb.trans (sawUpdates_noNewStores ..)
    · exact hb.trans ((sequenceBy_noNewStores ..).trans (applyBelow_noNewStores ..))

theorem homeReply_noNewStores (op : AtomOp) (u : Nat) (va : Word) (loc : Nat) (repl : Bool) (b d : Word) :
    NoNewStores s (homeReply s op u va loc repl b d).2 := by
  have h0 : NoNewStores s (s.roundTrip (dieOf (clusterOf u)) (if repl then 4 else locDie loc)) := .beside (by rw [roundTrip_frame])
  unfold homeReply
  dsimp only
  generalize s.roundTrip (dieOf (clusterOf u)) (if repl then 4 else locDie loc) = s0 at h0 ⊢
  split
  · exact h0
  · exact h0.trans (atomicAtHome_noNewStores ..)

theorem settleLate_noNewStores (r : Req) (x : Reply) : NoNewStores s (settleLate s r x) := by
  unfold settleLate
  split
  · exact .refl s
  · split
    · exact .beside rfl
    · exact .beside rfl

theorem farReply_noNewStores (va : Word) (op : Option AtomOp) : NoNewStores s (farReply s va op).2 := .beside rfl
theorem dropUo_noNewStores (P : Nat) (p : Nat → Bool) : NoNewStores s (dropUo s P p) := .beside rfl

theorem performPending_noNewStores (r : Req) : NoNewStores s (performPending s r) := by
  have h0 : NoNewStores s (if r.cut s then s.tickFree else s) := by
    split
    · exact .beside rfl
    · exact .refl s
  unfold performPending
  dsimp only
  split
  · exact h0.trans (settleLate_noNewStores ..)
  · split
    · exact h0.trans ((homeReply_noNewStores ..).trans (settleLate_noNewStores ..))
    · exact h0.trans ((farReply_noNewStores ..).trans (settleLate_noNewStores ..))
    · exact .refl s

theorem flushWhere_noNewStores (u : Nat) (p : Req → Bool) : NoNewStores s (flushWhere s u p) :=
  NoNewStores.trans (t := { s with reqs := _ }) (.beside (by rfl)) (.foldl performPending_noNewStores _ _)

/-- Performing a store puts none in a buffer. -/
theorem performEntry_noNewStores (u : Nat) (e : SbEntry) : NoNewStores s (performEntry s u e) := by
  have h0 : NoNewStores s (if e.release then applySeen (flushWhere s u (fun r => decide (r.since ≤ e.since))) u 4 else s) := by
    split
    · exact (flushWhere_noNewStores ..).trans (applySeen_noNewStores ..)
    · exact .refl s
  unfold performEntry
  dsimp only
  generalize (if e.release then applySeen (flushWhere s u (fun r => decide (r.since ≤ e.since))) u 4 else s) = s0 at h0 ⊢
  refine h0.trans ?_
  split
  · exact .beside rfl
  split
  · exact .modCore fun _ => .refl _
  split
  · exact sequenceBy_noNewStores ..
  split
  · exact (dropUo_noNewStores ..).trans ((NoNewStores.modCore (by intro _; exact .refl _)).trans (.of_stored (performBy_stored ..)))
  · exact .of_stored (performBy_stored ..)

end

/-! ## Draining the store buffer -/

/-- What becomes of one store that leaves core u's buffer when it is drained: performed, or, with a place in the sequencer's order, applied on the core's die (R101, R131). -/
def drainEntry (u : Nat) (s : State) (e : SbEntry) : State :=
  match e.sent with
  | some k => applyBelow s (dieOf (clusterOf u)) (k + 1)
  | none => performEntry s u e

theorem drainAll_eq (s : State) (u : Nat) :
    drainAll s u = (s.core u).storeBuf.foldl (drainEntry u) (s.modCore u (fun c => { c with storeBuf := [] })) := by
  unfold drainAll drainFirst
  dsimp only
  rw [List.take_length, List.drop_length]
  rfl

theorem drainEntry_noNewStores (s : State) (u : Nat) (e : SbEntry) : NoNewStores s (drainEntry u s e) := by
  unfold drainEntry
  split
  · exact applyBelow_noNewStores ..
  · exact performEntry_noNewStores ..

/-- A drained store buffer is empty. -/
theorem drainAll_storeBuf (s : State) (u : Nat) : ((drainAll s u).core u).storeBuf = [] := by
  rw [drainAll_eq]
  refine (NoNewStores.foldl (fun t e => drainEntry_noNewStores t u e) _ _).empty ?_
  rw [State.modCore_eq, State.setCore_core_self]

end Sys2Proof.Machine
end

section
/-! The steps of the memory system, and FENCE (R56, R101, R109, R121, R124, R131, R141). -/

namespace Sys2Proof.Machine

/-! ## The steps of the memory system -/

section
variable {s : State} {u k d : Nat} {e : SbEntry} {f : Deferral}

/-- A store that leaves its buffer, to an ordered page that is not replicated, is performed (R101). -/
theorem storeBufferDrain_performs (hc : canDrain s u k = true) (hk : (s.core u).storeBuf[k]? = some e) (huo : e.uo = false) (hr : e.repl = false)
    (hrel : e.release = false) (hl : LinksUp s) : exec (.storeBufferDrain u k) s
      = .next (performBy (s.modCore u (fun c => { c with storeBuf := (s.core u).storeBuf.eraseIdx k })) u e.writes) := by
  show execStoreBufferDrain u k s = _
  unfold execStoreBufferDrain
  simp only [hc, hk, hr, if_true, Bool.false_and, Bool.false_eq_true, if_false]
  rw [performEntry_plain hrel huo hr (by exact hl)]
  rfl

/-- A die that applies the next update of the order writes its bytes to its own copy (R131). -/
theorem applyNext_mem {x : SeqUpdate} (h : s.seqOrder.find? (fun y => !y.applied.contains d) = some x) :
    (applyNext s d).mem = s.mem.pokes (x.writes.map (fun w => (replicaLoc d w.1, w.2))) := by
  have hm : (applyReplica s d x.core x.writes).mem = s.mem.pokes (x.writes.map (fun w => (replicaLoc d w.1, w.2))) := performFor_mem ..
  unfold applyNext
  rw [h]
  dsimp only
  split
  · exact hm
  · exact hm

theorem replicaUpdateApply_applies (h : pathDown s d 4 = false) : exec (.replicaUpdateApply d) s = .next (applyNext s d) :=
  congrArg Host.Outcome.next (if_neg (by rw [h]; exact Bool.false_ne_true))

theorem waitaWake_wakes {loc : Nat} (h : (s.core u).wait = .sector loc) : exec (.waitaWake u) s = .next (parkCore s u .none) := by
  show execWaitaWake u s = _
  unfold execWaitaWake
  rw [h]

theorem ldfReissue_outcome {loc since : Nat} (h : (s.core u).wait = .futureRetry loc since) :
    exec (.ldfReissue u) s = .next (if since + 256 ≤ s.now then parkCore s u .none else s) := by
  show execLdfReissue u s = _
  unfold execLdfReissue
  rw [h]

theorem ldfCancelNotice_frees (h : (s.defers.filter (fun y => y.slice == d))[k]? = some f) (hc : f.core = none) :
    exec (.ldfCancelNotice d k) s = .next { s with defers := s.defers.erase f } := by
  show execLdfCancelNotice d k s = _
  unfold execLdfCancelNotice
  rw [h]
  exact congrArg Host.Outcome.next (if_pos hc)

end

/-! ## Plain stores of a core with nothing else on its way -/

/-- Of core u nothing but its store buffer is on its way, and no cluster's cache holds a byte above its home. -/
structure BufferAlone (u : Nat) (s : State) : Prop where
  noReqs : s.reqs = []
  noUpdates : s.seqOrder = []
  linksUp : LinksUp s
  noDirty : (s.core u).uoDirty = []
  noCopies : ∀ P, (s.cluster P).uoCache = [] ∧ (s.cluster P).uoFenced = []

section
variable {s t : State} {u : Nat}

theorem BufferAlone.stored (h : BufferAlone u s) (hs : Stored s t) : BufferAlone u t where
  noReqs := by rw [hs.1]; exact h.noReqs
  noUpdates := by rw [hs.1]; exact h.noUpdates
  linksUp := by rw [hs.1]; exact h.linksUp
  noDirty := (hs.uoDirty u).trans h.noDirty
  noCopies := by
    have hcl : t.cluster = s.cluster := by unfold State.cluster; rw [hs.1]
    rw [hcl]
    exact h.noCopies

theorem BufferAlone.emptied (h : BufferAlone u s) : BufferAlone u (s.modCore u (fun c => { c with storeBuf := [] })) where
  noReqs := h.noReqs
  noUpdates := h.noUpdates
  linksUp := h.linksUp
  noDirty := by rw [State.modCore_eq, State.setCore_core_self]; exact h.noDirty
  noCopies := h.noCopies

/-- Where the sequencer has ordered no update, a core has seen none to apply (R131). -/
theorem applySeen_noUpdates (h : s.seqOrder = []) (u scope : Nat) : applySeen s u scope = s := by
  have hbelow : ∀ d k, applyBelow s d k = s := fun d k => by unfold applyBelow; rw [h]; rfl
  unfold applySeen
  exact List.foldl_fixed' (fun d => hbelow d _) _

/-- A plain store of such a core is performed by writing its bytes, a release too: nothing comes before it (R101, R126). -/
theorem BufferAlone.performEntry_eq {e : SbEntry} (h : BufferAlone u s) (huo : e.uo = false) (hr : e.repl = false) :
    performEntry s u e = performBy s u e.writes := by
  have hfirst : (if e.release then applySeen (flushWhere s u (fun r => decide (r.since ≤ e.since))) u 4 else s) = s := by
    rw [flushWhere_nonePending (nonePending_of_noReqs h.noReqs u), applySeen_noUpdates h.noUpdates, ite_self]
  have hk : e.kept = false := by unfold SbEntry.kept; rw [huo]; rfl
  unfold performEntry
  simp only [hfirst, huo, hr, hk, SbEntry.cut_of_linksUp h.linksUp, Bool.false_and, Bool.false_eq_true, if_false]

/-- Such stores drained one after another leave memory as they write it (R101). -/
theorem BufferAlone.drain : ∀ {l : List SbEntry} {s : State}, BufferAlone u s → (∀ e ∈ l, e.uo = false ∧ e.repl = false ∧ e.sent = none) →
    BufferAlone u (l.foldl (drainEntry u) s) ∧ (l.foldl (drainEntry u) s).mem = s.mem.pokes (l.flatMap (fun e => e.writes))
  | [], _, h, _ => ⟨h, rfl⟩
  | e :: l, s, h, hl => by
    obtain ⟨huo, hr, hsent⟩ := hl e (List.mem_cons_self ..)
    have hstep : drainEntry u s e = performBy s u e.writes := by
      unfold drainEntry
      rw [hsent]
      exact h.performEntry_eq huo hr
    obtain ⟨h1, h2⟩ := BufferAlone.drain (h.stored (performBy_stored s u e.writes)) (fun x hx => hl x (List.mem_cons_of_mem _ hx))
    rw [List.foldl_cons, hstep]
    refine ⟨h1, h2.trans ?_⟩
    rw [performBy_mem, List.flatMap_cons, Memory.pokes, Memory.pokes, Memory.pokes, List.foldl_append]

/-- With no byte held above its home a write-back writes none (R124). -/
theorem BufferAlone.uoWriteBack_mem (h : BufferAlone u s) (scope : Nat) : (uoWriteBack s u scope).mem = s.mem := by
  have hheld : ∀ p, heldUo s (clusterOf u) p = [] := fun p => by
    unfold heldUo
    rw [(h.noCopies _).1, (h.noCopies _).2]
    rfl
  have hnone : ∀ (x : State) (l : List (Nat × Byte)), l = [] → (performFor (some u) x l).mem = x.mem := fun x l hl => by rw [hl]; exact performFor_mem ..
  unfold uoWriteBack
  dsimp only
  rw [hheld, h.noDirty]
  split
  · rfl
  split
  · split <;> rfl
  · split
    · exact hnone _ _ rfl
    · exact hnone _ _ rfl

/-- A release by such a core leaves memory as the stores in its buffer do (R124, R128). -/
theorem BufferAlone.releaseTo_mem (h : BufferAlone u s) (scope : Nat) (hl : ∀ e ∈ (s.core u).storeBuf, e.uo = false ∧ e.repl = false ∧ e.sent = none) :
    (releaseTo s u scope).mem = s.mem.pokes ((s.core u).storeBuf.flatMap (fun e => e.writes)) := by
  obtain ⟨h1, h2⟩ := h.emptied.drain hl
  unfold releaseTo
  rw [show flushTo s u scope = s from flushWhere_nonePending (nonePending_of_noReqs h.noReqs u) _, drainAll_eq, applySeen_noUpdates h1.noUpdates,
    h1.uoWriteBack_mem, h2]
  rfl

end

/-! ## What a write-back leaves of the core's own bytes -/

section
variable (s : State) (u scope : Nat)

theorem dropCopies_noNewStores (secs : List Nat) (seen : AMap Byte) : NoNewStores s (dropCopies s u scope secs seen) := .beside rfl

theorem uoWriteBack_noNewStores : NoNewStores s (uoWriteBack s u scope) := by
  have hclean : ∀ t : State, t.cores = (s.modCore u (fun c => { c.saw c.uoDirty with uoDirty := [] })).cores → NoNewStores s t := fun t ht =>
    NoNewStores.trans (t := s.modCore u (fun c => { c.saw c.uoDirty with uoDirty := [] })) (.modCore (by intro _; exact .refl _)) (.beside ht)
  have hdrop : ∀ p, NoNewStores s (dropUo (s.modCore u (fun c => { c.saw c.uoDirty with uoDirty := [] })) (clusterOf u) p) := fun p => hclean _ rfl
  have hseen : ∀ t : State, NoNewStores t (t.modCore u (fun c => { c with uoSeen := [] })) := fun t => .modCore fun _ => .refl _
  unfold uoWriteBack
  dsimp only
  split
  · exact .refl s
  split
  · split
    · exact hclean _ rfl
    · exact hclean _ rfl
  · split
    · exact (hdrop _).trans ((NoNewStores.of_stored (performFor_stored ..)).trans ((dropCopies_noNewStores ..).trans (hseen _)))
    · exact (hdrop _).trans ((NoNewStores.of_stored (performFor_stored ..)).trans (dropCopies_noNewStores ..))

/-- A write-back beyond core scope leaves the core no unfenced byte (R124). -/
theorem uoWriteBack_uoDirty (h : scope ≠ 0) : ((uoWriteBack s u scope).core u).uoDirty = [] := by
  have hclean : ((s.modCore u (fun c => { c.saw c.uoDirty with uoDirty := [] })).core u).uoDirty = [] := by
    rw [State.modCore_eq, State.setCore_core_self]
  have hperf : ∀ p ws, ((performFor (some u) (dropUo (s.modCore u (fun c => { c.saw c.uoDirty with uoDirty := [] })) (clusterOf u) p) ws).core u).uoDirty = [] :=
    fun p ws => ((performFor_stored ..).uoDirty u).trans hclean
  unfold uoWriteBack
  dsimp only
  rw [if_neg h]
  split
  · split
    · exact hclean
    · exact hclean
  · split
    · rw [State.modCore_eq, State.setCore_core_self]
      exact hperf _ _
    · exact hperf _ _

/-- A release leaves nothing in the core's store buffer (R128). -/
theorem releaseTo_storeBuf : ((releaseTo s u scope).core u).storeBuf = [] :=
  ((applySeen_noNewStores _ u scope).trans (uoWriteBack_noNewStores _ u scope)).empty (drainAll_storeBuf _ u)

end

/-! ## The times of FENCEs -/

theorem mem_mset_self {α : Type} (m : AMap α) (k : Nat) (v : α) : (k, v) ∈ mset m k v := by
  induction m with
  | nil => exact List.mem_singleton.2 rfl
  | cons p t ih =>
    obtain ⟨k', v'⟩ := p
    simp only [mset]
    split
    · exact List.mem_cons_self ..
    split
    · exact List.mem_cons_self ..
    · exact List.mem_cons_of_mem _ ih

/-- The FENCEs over core w, with one more noted (R56). -/
def fenceOver (w : Nat) (m : AMap Nat) (f : Nat × Nat) : AMap Nat :=
  if inScope (f.1 / 8) (f.1 % 8) w then mset m (f.1 / 8) (max f.2 (mget m (f.1 / 8) 0)) else m

theorem State.fencesOver_eq (s : State) (w : Nat) : s.fencesOver w = s.fences.foldl (fenceOver w) [] := rfl

/-- A later FENCE takes no earlier one's place with an earlier time. -/
theorem fenceOver_mono (w : Nat) (m : AMap Nat) (f : Nat × Nat) (v : Nat) : mget m v 0 ≤ mget (fenceOver w m f) v 0 := by
  unfold fenceOver
  split
  · rw [mget_mset]
    split
    · rename_i e; rw [e]; exact Nat.le_max_right ..
    · exact Nat.le_refl _
  · exact Nat.le_refl _

theorem fenceOver_covers {w : Nat} {f : Nat × Nat} (h : inScope (f.1 / 8) (f.1 % 8) w = true) (m : AMap Nat) : f.2 ≤ mget (fenceOver w m f) (f.1 / 8) 0 := by
  unfold fenceOver
  rw [if_pos h, mget_mset_self]
  exact Nat.le_max_left ..

/-- A core in the scope of a noted FENCE counts it among those that have covered it (R56). -/
theorem fencesOver_covers {s : State} {u scope n w : Nat} (hm : (8 * u + scope, n) ∈ s.fences) (hs : scope < 8) (h : inScope u scope w = true) :
    n ≤ mget (s.fencesOver w) u 0 := by
  obtain ⟨l1, l2, hl⟩ := List.append_of_mem hm
  have hu : (8 * u + scope) / 8 = u := by omega
  have hsc : (8 * u + scope) % 8 = scope := by omega
  have hcov := fenceOver_covers (f := (8 * u + scope, n)) (w := w) (by rw [hu, hsc]; exact h) (l1.foldl (fenceOver w) [])
  rw [hu] at hcov
  rw [State.fencesOver_eq, hl, List.foldl_append, List.foldl_cons]
  exact foldl_keeps (P := fun m => n ≤ mget m u 0) (fun m f hm => hm.trans (fenceOver_mono w m f u)) l2 _ hcov

/-! ## FENCE -/

section
variable (s : State) (u scope : Nat)

/-- Once it has released, a FENCE notes its time, and beside the cores and held translations changes no more (R56, R91, R124). -/
theorem fenceAt_frame : fenceAt s u scope
    = { releaseTo s u scope with fences := mset (releaseTo s u scope).fences (8 * u + scope) (releaseTo s u scope).past.length,
                                 cores := (fenceAt s u scope).cores, tcache := (fenceAt s u scope).tcache } := by
  unfold fenceAt acquire noteFence
  dsimp only
  split
  · split <;> rfl
  · split <;> rfl

/-- Of the cores it changes how far back the loads of its own may reach (R118). -/
theorem fenceAt_answered (v : Nat) : CoreAnswered ((releaseTo s u scope).core v) ((fenceAt s u scope).core v) := by
  have h : CoreAnswered ((releaseTo s u scope).core v) ((acquire (noteFence (releaseTo s u scope) u scope) u).core v) := (acquire_stored ..).2 v
  unfold fenceAt
  dsimp only
  split
  · exact h
  · exact h

theorem fenceAt_aside (v : Nat) : CoreAside (s.core v) ((fenceAt s u scope).core v) := by
  obtain ⟨_, hcore, _, _⟩ := releaseTo_accessed s u scope
  have ha := hcore v
  have hb := fenceAt_answered s u scope v
  unfold CoreAside at ha ⊢
  unfold CoreAnswered at hb
  rw [hb, ha]

theorem fenceAt_cur : (fenceAt s u scope).cur = s.cur := by rw [fenceAt_frame]; exact (releaseTo_accessed s u scope).cur

theorem fenceAt_storeBuf : ((fenceAt s u scope).core u).storeBuf = [] := by
  rw [fenceAt_answered]
  exact releaseTo_storeBuf s u scope

theorem fenceAt_uoDirty (h : scope ≠ 0) : ((fenceAt s u scope).core u).uoDirty = [] := by
  rw [fenceAt_answered]
  exact uoWriteBack_uoDirty _ u scope h

theorem fenceAt_mem : (fenceAt s u scope).mem = (releaseTo s u scope).mem := by rw [fenceAt_frame]

/-- A core in the scope of a FENCE counts everything performed before it as covered (R56). -/
theorem fenceAt_covers {w : Nat} (hs : scope < 8) (h : inScope u scope w = true) : (fenceAt s u scope).past.length ≤ mget ((fenceAt s u scope).fencesOver w) u 0 :=
  fencesOver_covers (scope := scope) (by rw [fenceAt_frame]; exact mem_mset_self ..) hs h

theorem transferCore_icFrom (t : State) (w : Nat) (a : Word) : ((transferCore t w a).core w).icFrom = t.fencesOver w := by
  rw [transferCore_core_self]
  rfl

/-- FENCE retires from the state that it leaves. -/
theorem exec_fence (sc : BitVec 3) : exec (.fence sc) s = .next (retire (fenceAt s s.cur sc.toNat)) := rfl

end

end Sys2Proof.Machine

namespace Sys2Proof

open Machine

theorem memorySystemSteps : MemorySystemSteps := by
  intro s u k d e x f loc since
  refine ⟨fun hc hk huo hr hrel hl => ?_, fun h hp => ⟨_, replicaUpdateApply_applies hp, applyNext_mem h⟩,
    fun h => ⟨_, waitaWake_wakes h, parkCore_onlyCore s u .none⟩, fun h ht => ?_, fun h ht => ?_, fun h hc => ⟨_, ldfCancelNotice_frees h hc, rfl⟩⟩
  · have hst := performBy_stored (s.modCore u (fun c => { c with storeBuf := (s.core u).storeBuf.eraseIdx k })) u e.writes
    have hcore : (s.modCore u (fun c => { c with storeBuf := (s.core u).storeBuf.eraseIdx k })).core u
        = { s.core u with storeBuf := (s.core u).storeBuf.eraseIdx k } := State.setCore_core_self ..
    refine ⟨_, storeBufferDrain_performs hc hk huo hr hrel hl, performBy_mem .., ?_, ?_, ?_⟩
    · rw [hst.storeBuf, hcore]
    · rw [hst.g, hcore]
    · rw [hst.pc, hcore]
  · refine ⟨_, (ldfReissue_outcome h).trans ?_, parkCore_onlyCore s u .none⟩
    rw [if_pos ht]
  · rw [ldfReissue_outcome h, if_neg (Nat.not_le.2 ht)]

theorem fenceCompletes : FenceCompletes := by
  intro s scope
  have haside : CoreAside (s.core s.cur) ((fenceAt s s.cur scope.toNat).core s.cur) := fenceAt_aside ..
  have hself : (retire (fenceAt s s.cur scope.toNat)).core s.cur = (((fenceAt s s.cur scope.toNat).core s.cur).retireCounts (fenceAt s s.cur scope.toNat).now).seqNext
      ((fenceAt s s.cur scope.toNat).core s.cur).nextPc := by
    rw [retire, fenceAt_cur]
    exact retireCore_core_self ..
  obtain ⟨-, -, hseq, hg, hv⟩ := retire_spec (fenceAt s s.cur scope.toNat)
  rw [fenceAt_cur] at hseq hg hv
  refine ⟨_, exec_fence s scope, Sequenced.of_same hseq ?_ ?_ ?_ ?_ ?_, hg.trans ?_, hv.trans ?_, ?_, fun h => ?_, fun w a h => ?_, fun hl hd hr ho hlk hc => ?_⟩
  iterate 7 · rw [haside]
  · rw [hself, Core.seqNext_storeBuf, Core.retireCounts_storeBuf, fenceAt_storeBuf]
  · rw [hself, Core.seqNext_uoDirty, Core.retireCounts_uoDirty, fenceAt_uoDirty _ _ _ (fun h0 => h (BitVec.eq_of_toNat_eq h0))]
  · rw [transferCore_icFrom]
    exact fenceAt_covers s s.cur scope.toNat scope.isLt h
  · exact (fenceAt_mem ..).trans (BufferAlone.releaseTo_mem ⟨hr, ho, hlk, hd, hc⟩ _ hl)

/-- Settles O26: each step of the memory system is the one operation it stands for, and FENCE is the release, its time noted, and the retirement in sequence. -/
theorem memorySystemStepsAndFence : Obligations.MemorySystemStepsAndFence := ⟨memorySystemSteps, fenceCompletes⟩

end Sys2Proof
end
